-- ==== Sys2Proof/Word.lean ====
section
/-! DEFINITION. The word types of the LS-240: a byte of a frame, a 16-bit operand field, and the
32-bit microsecond timebase (00_scope.md, "Time"). -/

namespace Sys2Proof

/-- One byte of a request, response or notice entry (R7). -/
abbrev Byte := BitVec 8

/-- A 2-byte operand or result field (R7). -/
abbrev Half := BitVec 16

/-- A timebase value: microseconds modulo 2^32 (00_scope.md, "Time"). -/
abbrev Time := BitVec 32

end Sys2Proof
end

