-- ==== Sys2Proof/Config.lean ====
section
/-! DEFINITION. What the manual leaves open: the readings of the measurement circuits (R135), which no rule
computes, and the detail bytes of two notices, which no rule gives. The constants have no body, so nothing
can be proved of their values. -/

namespace Sys2Proof.Config

/-- The reading the measurement circuits give for measurement `number` (1 to 4) on the `occasion`-th
measurement period that the part's own clock ends (R135, R143). Free: log entry 5. -/
opaque reading (occasion number : Nat) : Int

/-- Detail bytes 9 to 11 of a notice whose rule gives byte 8 alone: MODE_DONE of the DSL path (R40) and
EXCHANGE_CALL_END (R132). `kind` is the notice's kind code. Free: log entry 15. -/
opaque spareBytes (kind : Nat) (timebase : Time) : BitVec 24

end Sys2Proof.Config
end

