-- ==== Sys2Proof/Syntax.lean ====
section
/-! DEFINITION. The commands of the LS-240: one constructor of `Instr` per row of
spec/opcode_table.json, with the operands its rule gives. A request carries its channel, requested
level and tag (`Req`) and its operand fields as they stand in the frame (R7); an event carries what the
pin or the partner brings. -/

namespace Sys2Proof

/-- The three logical channels (00_scope.md, "Levels and channels"). -/
inductive Channel where
  | modem | management | gateway
deriving DecidableEq, Repr

/-- The two physical ports (R5, R6). -/
inductive PhysPort where
  | gateway | modem
deriving DecidableEq, Repr

/-- The two phone ports, numbered 1 and 2 in frames (R7). -/
inductive Port where
  | p1 | p2
deriving DecidableEq, Repr

/-- The five line functions, numbered 0 to 4 (R23). -/
inductive Func where
  | port1 | port2 | dsl | test | tracker
deriving DecidableEq, Repr

/-- The four disturbance slots (R48). -/
inductive SlotId where
  | port1 | port2 | dsl | test
deriving DecidableEq, Repr

/-- The block, and the work of that block, that asked for a change set (R42, R43). -/
inductive Asker where
  /-- The break or make change set of a port's mode switch (R96). -/
  | modeSwitch (p : Port)
  /-- The change of a DSL switch (R40). -/
  | dslSwitch
  /-- The connect change set of the current test (R141). -/
  | testConnect
  /-- The release change set of the current test (R144). -/
  | testRelease
  /-- A release change set that runs on after its test has ended (R148). -/
  | detachedRelease
  /-- A direct change of the line-break by the fault unit (R45). -/
  | lineBreak
deriving DecidableEq, Repr

/-- The two loop senses of a phone port (R106): the loop-current sense on the pass-through, and the
feed-current sense, which also reads the sense bias. -/
inductive LoopSense where
  | passThrough | feedCurrent
deriving DecidableEq, Repr

/-- The phone-ports strap (R11). -/
inductive Straps where
  | onePort | twoPorts
deriving DecidableEq, Repr

/-- What every request frame carries beside its operands: the channel, the requested level (bits 1-0 of
byte 2) and the tag (R7). -/
structure Req where
  channel : Channel
  level   : BitVec 2
  tag     : Byte
deriving DecidableEq, Repr

/-- A limit entry of RUN TEST and INSTALL GATE: measurement number, low and high (R139). -/
structure LimitArg where
  number : Byte
  low    : BitVec 32
  high   : BitVec 32
deriving DecidableEq, Repr

/-- A cadence step of SET CADENCE: on time and off time in ms (R121). -/
structure StepArg where
  on  : Half
  off : Half
deriving DecidableEq, Repr

/-- What the measurement circuits read when a measurement period ends: one reading for each of the
measurements 1 to 4 (R135). -/
structure Readings where
  m1 : Int
  m2 : Int
  m3 : Int
  m4 : Int
deriving DecidableEq, Repr

/-- The commands, in the order of spec/opcode_table.json. -/
inductive Instr where
  | powerOnReset (straps : Straps)
  | settingsLoadComplete (readCompleted : Bool)
  | resetPinAssert
  | resetPinRelease (straps : Straps)
  | gatewayTransfer (bytes : List Byte)
  | modemFrame (bytes : List Byte)
  | modemByteGapTimeout (bytes : List Byte)
  | modemStopBitError (bytes : List Byte)
  | modemResponseSent
  | portResetAssert (port : PhysPort)
  | portResetRelease (port : PhysPort)
  | identify (r : Req)
  | fetchNotices (r : Req) (limit : Byte)
  | subscribe (r : Req) (kinds : BitVec 32)
  | channelReset (r : Req)
  | readTime (r : Req)
  | claim (r : Req) (function : Byte) (wait : Half) (seize : Byte)
  | release (r : Req) (function : Byte)
  | queryFunction (r : Req) (function : Byte)
  | tighten (r : Req) (function newLevel revoke : Byte)
  | readFunctions (r : Req)
  | setDsl (r : Req) (coupling : Byte)
  | claimDeadlineExpiry (channel : Channel) (function : Func)
  | changeSetComplete (asker : Asker)
  | braced (r : Req) (id : Byte)
  | defer (r : Req) (id extra : Byte)
  | leadExpiry (slot : SlotId)
  | setLead (r : Req) (lead : Half)
  | readDisturbances (r : Req) (part : Byte)
  | blankingWindowRemoval
  | impulseEdge
  | deadTimeExpiry
  | edgeClassification
  | acquireExpiry
  | windowCheck
  | trackerConfig (r : Req) (enable : Byte) (deadTime : Half)
  | trackerRestart (r : Req)
  | readTracker (r : Req)
  | readForecast (r : Req)
  | readAndClearEdgeCounts (r : Req)
  | setMode (r : Req) (port mode force : Byte)
  | readPort (r : Req) (port : Byte)
  | feedOverLimitChange (p : Port) (asserted : Bool)
  | feedDenial (p : Port)
  | probeStart (p : Port)
  | probeEnd (p : Port)
  | setHookTiming (r : Req) (port : Byte) (seize glitch pulseMax flashMax digitGap : Half)
  | readDial (r : Req) (port : Byte)
  | clearDial (r : Req) (port : Byte)
  | loopChange (p : Port) (sense : LoopSense) (present : Bool)
  | seizeTimerExpiry (p : Port)
  | breakTimerExpiry (p : Port)
  | digitGapExpiry (p : Port)
  | ring (r : Req) (port cadence cycles : Byte)
  | stopRing (r : Req) (port : Byte)
  | setCadence (r : Req) (entry stepCount : Byte) (steps : List StepArg)
  | setExchangeRingCount (r : Req) (n : Byte)
  | readRing (r : Req) (part : Byte)
  | ringPhaseTimerExpiry (p : Port)
  | ringTripInputChange (p : Port) (asserted : Bool)
  | tripTimerExpiry (p : Port)
  | ringCurrentLimitChange (asserted : Bool)
  | ringFaultTimerExpiry
  | exchangeRingOnset
  | exchangeRingOffset
  | callGapExpiry
  | runTest (r : Req) (kind target force : Byte) (limits : List LimitArg)
  | runGatedTest (r : Req) (gate : Byte)
  | abortTest (r : Req)
  | readTestResult (r : Req)
  | installGate (r : Req) (gate gateLevel kind target : Byte) (limits : List LimitArg)
  | removeGate (r : Req) (gate : Byte)
  | setCable (r : Req) (constant : Half)
  | readGates (r : Req) (gate : Byte)
  | cleanTimerExpiry (readings : Readings)
  | wallTimerExpiry (readings : Readings)
  | setClassLevel (r : Req) (cls level : Byte)
  | releaseLockout (r : Req)
  | readIsolation (r : Req)
  | surge
  | hazardAssert
  | dwellExpiry
  | thermalAssert
  | thermalDeassert
  | exchangeDcLowChange (low : Bool)
  | batteryWatchExpiry
  | readLog (r : Req) (fromSeq : BitVec 32) (form : Byte)
  | clearLog (r : Req)
  | setLogPolicy (r : Req) (policy : Byte)
  | readCapture (r : Req)
  | clearCapture (r : Req)
  | setMasks (r : Req) (masks : Half)
  | setThreshold (r : Req) (threshold : Byte)
  | clearPending (r : Req) (classes : Half)
  | startQuiet (r : Req) (seconds : Half)
  | endQuiet (r : Req)
  | quietExpiry
  | mainsInputChange (asserted : Bool)
  | reserveInputChange (asserted : Bool)
  | readPower (r : Req)
  | saveSettings (r : Req)
  | writeCompletion (success : Bool)
  | hazardDeassert
  | supplyLoss
  | modemBadLength (length : Byte)
deriving DecidableEq, Repr

end Sys2Proof
end

