-- ==== Sys2Proof/WellFormed.lean ====
section
/-! DEFINITION. Which commands can arrive. The operand types already fix every width; what is left are
the lengths of the variable operand lists (R121, R139, R152) and the byte counts that make a modem
receiver's event the event it is named (R3). -/

namespace Sys2Proof

/-- The length byte of a frame: its first byte (R7). -/
def frameLength (bytes : List Byte) : Nat := (bytes.headD 0).toNat

/-- A complete modem frame: length byte 4 to 64 and that many bytes (R3). -/
def completeFrame (bytes : List Byte) : Bool :=
  decide (4 ≤ frameLength bytes) && decide (frameLength bytes ≤ 64) && decide (bytes.length = frameLength bytes)

/-- The bytes of a frame that is still being collected: its length byte at least, and not yet all (R3). That a
stop-bit error on the length byte itself begins no frame is the model's choice (log entry 34). -/
def collectedPart (bytes : List Byte) : Bool :=
  decide (4 ≤ frameLength bytes) && decide (frameLength bytes ≤ 64) && decide (0 < bytes.length) &&
    decide (bytes.length < frameLength bytes)

/-- The check on a command's operands. -/
def Instr.wellFormed : Instr → Bool
  | .gatewayTransfer bytes => decide (0 < bytes.length)
  | .modemFrame bytes => completeFrame bytes
  | .modemByteGapTimeout bytes => collectedPart bytes
  | .modemStopBitError bytes => collectedPart bytes
  | .modemBadLength length => decide (length.toNat < 4) || decide (64 < length.toNat)
  | .setCadence _ _ _ steps => decide (steps.length ≤ 3)
  | .runTest _ _ _ _ limits => decide (limits.length ≤ 4)
  | .installGate _ _ _ _ _ limits => decide (limits.length ≤ 4)
  | _ => true

end Sys2Proof
end

