-- ==== Sys2Proof/Decode.lean ====
section
/-! DEFINITION. The request frame layout of R7 in both directions: `decodeRequest` reads a request's
operands as the port block's checks 2 and 3 of R8 do, and `encodeFrame` writes a request's frame from
the same layout. No row of spec/opcode_table.json gives bits, so `decodeTableWord` reads none. -/

namespace Sys2Proof

/-- No row of the opcode table carries an encoding in bits, so no word spells a command. -/
def decodeTableWord (_nbits _w : Nat) : Option Instr := none

/-! ## Little-endian fields (R7) -/

/-- A 2-byte field from its bytes, least significant first. -/
def half (b0 b1 : Byte) : Half := b1 ++ b0

/-- A 4-byte field from its bytes, least significant first. -/
def word (b0 b1 b2 b3 : Byte) : BitVec 32 := (b3 ++ b2) ++ (b1 ++ b0)

/-- The bytes of a 2-byte field, least significant first. -/
def halfBytes (x : Half) : List Byte := [x.extractLsb' 0 8, x.extractLsb' 8 8]

/-- The bytes of a 4-byte field, least significant first. -/
def wordBytes (x : BitVec 32) : List Byte :=
  [x.extractLsb' 0 8, x.extractLsb' 8 8, x.extractLsb' 16 8, x.extractLsb' 24 8]

/-! ## Repeated operand groups -/

/-- The limit entries of RUN TEST and INSTALL GATE: 9 bytes each (R139). -/
def decodeLimits : List Byte → Option (List LimitArg)
  | [] => some []
  | n :: a :: b :: c :: d :: e :: f :: g :: h :: rest =>
    (decodeLimits rest).map (fun more => ⟨n, word a b c d, word e f g h⟩ :: more)
  | _ => none

/-- The bytes of limit entries (R139, R153). -/
def limitBytes : List LimitArg → List Byte
  | [] => []
  | l :: more => l.number :: (wordBytes l.low ++ (wordBytes l.high ++ limitBytes more))

/-- The steps of SET CADENCE: 4 bytes each (R121). -/
def decodeSteps : List Byte → Option (List StepArg)
  | [] => some []
  | a :: b :: c :: d :: rest => (decodeSteps rest).map (fun more => ⟨half a b, half c d⟩ :: more)
  | _ => none

/-- The bytes of cadence steps (R121). -/
def stepBytes : List StepArg → List Byte
  | [] => []
  | s :: more => halfBytes s.on ++ (halfBytes s.off ++ stepBytes more)

/-- At most `n` entries: the operand lengths that a request with trailing entries accepts. -/
def atMost {α : Type} (n : Nat) (entries : Option (List α)) : Option (List α) :=
  entries.filter (fun l => decide (l.length ≤ n))

/-! ## Request codes and operands (R8) -/

/-- A request that takes no operands. -/
def noOperands (i : Instr) : List Byte → Option Instr
  | [] => some i
  | _ => none

/-- A request that takes one 1-byte operand. -/
def oneByte (i : Byte → Instr) : List Byte → Option Instr
  | [a] => some (i a)
  | _ => none

/-- A request that takes two 1-byte operands. -/
def twoBytes (i : Byte → Byte → Instr) : List Byte → Option Instr
  | [a, b] => some (i a b)
  | _ => none

/-- A request that takes three 1-byte operands. -/
def threeBytes (i : Byte → Byte → Byte → Instr) : List Byte → Option Instr
  | [a, b, c] => some (i a b c)
  | _ => none

/-- A request that takes one 2-byte operand. -/
def oneHalf (i : Half → Instr) : List Byte → Option Instr
  | [a, b] => some (i (half a b))
  | _ => none

/-- SUBSCRIBE: one 4-byte operand (R20). -/
def subscribeOperands (r : Req) : List Byte → Option Instr
  | [a, b, c, d] => some (.subscribe r (word a b c d))
  | _ => none

/-- CLAIM: function, wait, seize (R25). -/
def claimOperands (r : Req) : List Byte → Option Instr
  | [f, w0, w1, z] => some (.claim r f (half w0 w1) z)
  | _ => none

/-- TRACKER CONFIG: enable, dead time (R86). -/
def trackerConfigOperands (r : Req) : List Byte → Option Instr
  | [e, d0, d1] => some (.trackerConfig r e (half d0 d1))
  | _ => none

/-- SET HOOK TIMING: port and five 2-byte values (R108). -/
def hookTimingOperands (r : Req) : List Byte → Option Instr
  | [p, a0, a1, b0, b1, c0, c1, d0, d1, e0, e1] =>
    some (.setHookTiming r p (half a0 a1) (half b0 b1) (half c0 c1) (half d0 d1) (half e0 e1))
  | _ => none

/-- SET CADENCE: entry, step count and up to three steps, 2, 6, 10 or 14 bytes (R121). -/
def cadenceOperands (r : Req) : List Byte → Option Instr
  | e :: n :: rest => (atMost 3 (decodeSteps rest)).map (fun steps => .setCadence r e n steps)
  | _ => none

/-- RUN TEST: kind, target, force and up to four limits, 3, 12, 21, 30 or 39 bytes (R139). -/
def runTestOperands (r : Req) : List Byte → Option Instr
  | k :: t :: f :: rest => (atMost 4 (decodeLimits rest)).map (fun limits => .runTest r k t f limits)
  | _ => none

/-- INSTALL GATE: gate, level, kind, target and up to four limits, 4, 13, 22, 31 or 40 bytes (R152). -/
def installGateOperands (r : Req) : List Byte → Option Instr
  | g :: v :: k :: t :: rest => (atMost 4 (decodeLimits rest)).map (fun limits => .installGate r g v k t limits)
  | _ => none

/-- READ LOG: from, form (R170). -/
def readLogOperands (r : Req) : List Byte → Option Instr
  | [a, b, c, d, f] => some (.readLog r (word a b c d) f)
  | _ => none

/-- The request with this code and these operand bytes; none for an unknown code (check 2 of R8) and for
an operand length the request does not accept (check 3). -/
def decodeRequest (r : Req) (code : Nat) (ops : List Byte) : Option Instr :=
  match code with
  | 0x01 => noOperands (.identify r) ops
  | 0x02 => oneByte (.fetchNotices r) ops
  | 0x03 => subscribeOperands r ops
  | 0x04 => noOperands (.channelReset r) ops
  | 0x05 => noOperands (.readTime r) ops
  | 0x10 => claimOperands r ops
  | 0x11 => oneByte (.release r) ops
  | 0x12 => oneByte (.queryFunction r) ops
  | 0x13 => threeBytes (.tighten r) ops
  | 0x14 => noOperands (.readFunctions r) ops
  | 0x15 => oneByte (.setDsl r) ops
  | 0x20 => oneByte (.braced r) ops
  | 0x21 => twoBytes (.defer r) ops
  | 0x22 => oneHalf (.setLead r) ops
  | 0x23 => oneByte (.readDisturbances r) ops
  | 0x30 => trackerConfigOperands r ops
  | 0x31 => noOperands (.trackerRestart r) ops
  | 0x32 => noOperands (.readTracker r) ops
  | 0x33 => noOperands (.readForecast r) ops
  | 0x34 => noOperands (.readAndClearEdgeCounts r) ops
  | 0x40 => threeBytes (.setMode r) ops
  | 0x41 => oneByte (.readPort r) ops
  | 0x50 => hookTimingOperands r ops
  | 0x51 => oneByte (.readDial r) ops
  | 0x52 => oneByte (.clearDial r) ops
  | 0x60 => threeBytes (.ring r) ops
  | 0x61 => oneByte (.stopRing r) ops
  | 0x62 => cadenceOperands r ops
  | 0x63 => oneByte (.setExchangeRingCount r) ops
  | 0x64 => oneByte (.readRing r) ops
  | 0x70 => runTestOperands r ops
  | 0x71 => oneByte (.runGatedTest r) ops
  | 0x72 => noOperands (.abortTest r) ops
  | 0x73 => noOperands (.readTestResult r) ops
  | 0x74 => installGateOperands r ops
  | 0x75 => oneByte (.removeGate r) ops
  | 0x76 => oneHalf (.setCable r) ops
  | 0x77 => oneByte (.readGates r) ops
  | 0x80 => twoBytes (.setClassLevel r) ops
  | 0x81 => noOperands (.releaseLockout r) ops
  | 0x82 => noOperands (.readIsolation r) ops
  | 0x90 => readLogOperands r ops
  | 0x91 => noOperands (.clearLog r) ops
  | 0x92 => oneByte (.setLogPolicy r) ops
  | 0x93 => noOperands (.readCapture r) ops
  | 0x94 => noOperands (.clearCapture r) ops
  | 0x95 => oneHalf (.setMasks r) ops
  | 0x96 => oneByte (.setThreshold r) ops
  | 0x97 => oneHalf (.clearPending r) ops
  | 0x98 => oneHalf (.startQuiet r) ops
  | 0x99 => noOperands (.endQuiet r) ops
  | 0xA0 => noOperands (.saveSettings r) ops
  | 0xA1 => noOperands (.readPower r) ops
  | _ => none

/-! ## The same layout written out -/

/-- A request's header, code and operand bytes (R7, R8); none for an event. -/
def requestParts : Instr → Option (Req × Byte × List Byte)
  | .identify r => some (r, 0x01, [])
  | .fetchNotices r limit => some (r, 0x02, [limit])
  | .subscribe r kinds => some (r, 0x03, wordBytes kinds)
  | .channelReset r => some (r, 0x04, [])
  | .readTime r => some (r, 0x05, [])
  | .claim r f w z => some (r, 0x10, f :: (halfBytes w ++ [z]))
  | .release r f => some (r, 0x11, [f])
  | .queryFunction r f => some (r, 0x12, [f])
  | .tighten r f v k => some (r, 0x13, [f, v, k])
  | .readFunctions r => some (r, 0x14, [])
  | .setDsl r c => some (r, 0x15, [c])
  | .braced r id => some (r, 0x20, [id])
  | .defer r id extra => some (r, 0x21, [id, extra])
  | .setLead r lead => some (r, 0x22, halfBytes lead)
  | .readDisturbances r part => some (r, 0x23, [part])
  | .trackerConfig r e d => some (r, 0x30, e :: halfBytes d)
  | .trackerRestart r => some (r, 0x31, [])
  | .readTracker r => some (r, 0x32, [])
  | .readForecast r => some (r, 0x33, [])
  | .readAndClearEdgeCounts r => some (r, 0x34, [])
  | .setMode r p m f => some (r, 0x40, [p, m, f])
  | .readPort r p => some (r, 0x41, [p])
  | .setHookTiming r p a b c d e =>
    some (r, 0x50, p :: (halfBytes a ++ (halfBytes b ++ (halfBytes c ++ (halfBytes d ++ halfBytes e)))))
  | .readDial r p => some (r, 0x51, [p])
  | .clearDial r p => some (r, 0x52, [p])
  | .ring r p c n => some (r, 0x60, [p, c, n])
  | .stopRing r p => some (r, 0x61, [p])
  | .setCadence r e n steps => some (r, 0x62, e :: n :: stepBytes steps)
  | .setExchangeRingCount r n => some (r, 0x63, [n])
  | .readRing r part => some (r, 0x64, [part])
  | .runTest r k t f limits => some (r, 0x70, k :: t :: f :: limitBytes limits)
  | .runGatedTest r g => some (r, 0x71, [g])
  | .abortTest r => some (r, 0x72, [])
  | .readTestResult r => some (r, 0x73, [])
  | .installGate r g v k t limits => some (r, 0x74, g :: v :: k :: t :: limitBytes limits)
  | .removeGate r g => some (r, 0x75, [g])
  | .setCable r c => some (r, 0x76, halfBytes c)
  | .readGates r g => some (r, 0x77, [g])
  | .setClassLevel r c v => some (r, 0x80, [c, v])
  | .releaseLockout r => some (r, 0x81, [])
  | .readIsolation r => some (r, 0x82, [])
  | .readLog r f form => some (r, 0x90, wordBytes f ++ [form])
  | .clearLog r => some (r, 0x91, [])
  | .setLogPolicy r p => some (r, 0x92, [p])
  | .readCapture r => some (r, 0x93, [])
  | .clearCapture r => some (r, 0x94, [])
  | .setMasks r m => some (r, 0x95, halfBytes m)
  | .setThreshold r t => some (r, 0x96, [t])
  | .clearPending r c => some (r, 0x97, halfBytes c)
  | .startQuiet r n => some (r, 0x98, halfBytes n)
  | .endQuiet r => some (r, 0x99, [])
  | .saveSettings r => some (r, 0xA0, [])
  | .readPower r => some (r, 0xA1, [])
  | _ => none

/-! ## Frames -/

/-- Byte 2 of a request frame: bits 1-0 the requested level, bits 5-4 the channel on the modem port (R7). -/
def levelByte (r : Req) : Byte :=
  let channel : BitVec 2 := match r.channel with
    | .management => 1
    | _ => 0
  (0#2 ++ channel) ++ (0#2 ++ r.level)

/-- The channel a request frame names: GATEWAY on the gateway port; on the modem port bits 5-4 of byte 2,
where 2 and 3 name none (R7, R8). -/
def frameChannel (port : PhysPort) (level : Byte) : Option Channel :=
  match port with
  | .gateway => some .gateway
  | .modem =>
    match (level.extractLsb' 4 2).toNat with
    | 0 => some .modem
    | 1 => some .management
    | _ => none

/-- The whole request frame: length, code, level and channel, tag, operands (R7). -/
def encodeFrame (i : Instr) : Option (List Byte) :=
  (requestParts i).map (fun q =>
    BitVec.ofNat 8 (4 + q.2.2.length) :: q.2.1 :: levelByte q.1 :: q.1.tag :: q.2.2)

/-- The request a well-formed frame carries on a port (R7, R8); none where check 1's channel field, check 2
or check 3 of R8 fails. -/
def decodeFrame (port : PhysPort) (bytes : List Byte) : Option Instr :=
  match bytes with
  | _ :: code :: level :: tag :: ops =>
    match frameChannel port level with
    | some ch => decodeRequest ⟨ch, level.extractLsb' 0 2, tag⟩ code.toNat ops
    | none => none
  | _ => none

/-- The physical port that carries a channel (00_scope.md, "Levels and channels"). -/
def Channel.physPort : Channel → PhysPort
  | .gateway => .gateway
  | _ => .modem

end Sys2Proof
end

