-- ==== Sys2Proof/Machine/State.lean ====
section
/-! DEFINITION. The state of the LS-240: every record, queue, relay, timer, counter and input level the
spec gives the part, block by block in the order of its chapters, and the state after reset. State is
plain data. A running timer is held as the timebase value at which it falls due (or, where a rule reports
it, at which it started); a stopped timer is `none`. -/

namespace Sys2Proof.Machine

/-! ## Indexed groups -/

/-- One value for each phone port. -/
structure PerPort (α : Type) where
  p1 : α
  p2 : α
deriving DecidableEq, Repr

/-- One value for each channel. -/
structure PerChan (α : Type) where
  modem      : α
  management : α
  gateway    : α
deriving DecidableEq, Repr

/-- One value for each line function. -/
structure PerFunc (α : Type) where
  port1   : α
  port2   : α
  dsl     : α
  test    : α
  tracker : α
deriving DecidableEq, Repr

/-- One value for each disturbance slot. -/
structure PerSlot (α : Type) where
  port1 : α
  port2 : α
  dsl   : α
  test  : α
deriving DecidableEq, Repr

/-- A table of four numbered entries, 0 to 3 (gates R151, cadences R120). -/
structure Quad (α : Type) where
  e0 : α
  e1 : α
  e2 : α
  e3 : α
deriving DecidableEq, Repr

section
variable {α : Type}

/-- The value for a phone port. -/
def PerPort.get (x : PerPort α) : Port → α
  | .p1 => x.p1
  | .p2 => x.p2

/-- Replace the value for a phone port. -/
def PerPort.set (x : PerPort α) (p : Port) (v : α) : PerPort α :=
  match p with
  | .p1 => { x with p1 := v }
  | .p2 => { x with p2 := v }

/-- The value for a channel. -/
def PerChan.get (x : PerChan α) : Channel → α
  | .modem => x.modem
  | .management => x.management
  | .gateway => x.gateway

/-- Replace the value for a channel. -/
def PerChan.set (x : PerChan α) (c : Channel) (v : α) : PerChan α :=
  match c with
  | .modem => { x with modem := v }
  | .management => { x with management := v }
  | .gateway => { x with gateway := v }

/-- The value for a line function. -/
def PerFunc.get (x : PerFunc α) : Func → α
  | .port1 => x.port1
  | .port2 => x.port2
  | .dsl => x.dsl
  | .test => x.test
  | .tracker => x.tracker

/-- Replace the value for a line function. -/
def PerFunc.set (x : PerFunc α) (f : Func) (v : α) : PerFunc α :=
  match f with
  | .port1 => { x with port1 := v }
  | .port2 => { x with port2 := v }
  | .dsl => { x with dsl := v }
  | .test => { x with test := v }
  | .tracker => { x with tracker := v }

/-- The value for a slot. -/
def PerSlot.get (x : PerSlot α) : SlotId → α
  | .port1 => x.port1
  | .port2 => x.port2
  | .dsl => x.dsl
  | .test => x.test

/-- Replace the value for a slot. -/
def PerSlot.set (x : PerSlot α) (i : SlotId) (v : α) : PerSlot α :=
  match i with
  | .port1 => { x with port1 := v }
  | .port2 => { x with port2 := v }
  | .dsl => { x with dsl := v }
  | .test => { x with test := v }

/-- Entry `i` of a four-entry table; the callers have checked that `i` is at most 3. -/
def Quad.get (x : Quad α) : Nat → α
  | 0 => x.e0
  | 1 => x.e1
  | 2 => x.e2
  | _ => x.e3

/-- Replace entry `i` of a four-entry table; the callers have checked that `i` is at most 3. -/
def Quad.set (x : Quad α) (i : Nat) (v : α) : Quad α :=
  match i with
  | 0 => { x with e0 := v }
  | 1 => { x with e1 := v }
  | 2 => { x with e2 := v }
  | _ => { x with e3 := v }

end

/-! ## Run state, clock and input levels (00_scope.md; R11, R12, R186, R187) -/

/-- Where the part stands between supply and readiness. -/
inductive Phase where
  /-- No supply (R185). -/
  | unpowered
  /-- Started by a power-on reset, the settings load not yet complete (R186, steps 1 to 3). -/
  | loading
  /-- Started, ready outputs asserted. -/
  | running
  /-- The reset input is asserted (R187). -/
  | inReset
deriving DecidableEq, Repr

/-- The timebase block (R12). `subsecond` is the model's own: the microseconds since uptime last counted. -/
structure Clock where
  timebase  : Time
  uptime    : BitVec 32
  subsecond : Nat
deriving DecidableEq, Repr

/-- The levels on the input pins (section 1.8), true for asserted. -/
structure Pins where
  mains           : Bool
  reserve         : Bool
  hazard          : Bool
  thermal         : Bool
  dcLow           : Bool
  /-- Ringing voltage stands on the exchange pair (R131). -/
  exchangeRinging : Bool
  ringOver        : Bool
  /-- The loop-current sense on each port's pass-through (R106). -/
  loopPass        : PerPort Bool
  /-- The loop reading of each port's feed-current sense, under the feed or the sense bias (R106). -/
  loopFeed        : PerPort Bool
  overLimit       : PerPort Bool
  ringTrip        : PerPort Bool
deriving DecidableEq, Repr

/-! ## Port block (chapter 1) -/

/-- The gateway port. `out` holds the bytes shifted out by the last transfer (R1). -/
structure GatewayPort where
  partialFrame : List Byte
  held         : Option (List Byte)
  out          : List Byte
  ready        : Bool
  resetInput   : Bool
deriving DecidableEq, Repr

/-- The modem port. `line` holds the bytes of the last response sent (R4). -/
structure ModemPort where
  partialFrame : List Byte
  responses    : List (List Byte)
  line         : List Byte
  ready        : Bool
  resetInput   : Bool
deriving DecidableEq, Repr

/-- The notice kinds, in code order 1 to 19 (R13). -/
inductive Kind where
  | disturb | fault | isolation | unplanned | claimGranted | claimExpired | holdRevoked | hook | answered
  | disturbDone | modeDone | testDone | saveDone | forecast | trackState | ringEnd | digit | exchangeRings
  | exchangeCallEnd
deriving DecidableEq, Repr

/-- A notice (R7, R14). `detail` is bytes 8 to 11 of the entry, byte 8 the least significant. -/
structure Notice where
  kind      : Kind
  level     : Nat
  subject   : Byte
  flags     : Byte
  timestamp : Time
  detail    : BitVec 32
deriving DecidableEq, Repr

/-- What the port block keeps for a channel (chapter 1). Bit k of `subs` is set for each subscribed kind
code k; `queue` is in queue order, head first. -/
structure ChannelRec where
  subs  : BitVec 32
  queue : List Notice
  lost  : Bool
deriving DecidableEq, Repr

/-! ## Line function controller (chapter 2) -/

/-- A hold record (R24). -/
structure Hold where
  holder    : Channel
  level     : Nat
  grantedAt : BitVec 32
  viaGate   : Option Nat
deriving DecidableEq, Repr

/-- An entry of the function descriptor table (R23); whether it is fitted follows from the straps. -/
structure FuncRec where
  level : Nat
  hold  : Option Hold
deriving DecidableEq, Repr

/-- A claim queue entry (R28). -/
structure ClaimEntry where
  channel  : Channel
  function : Func
  level    : Nat
  deadline : Time
deriving DecidableEq, Repr

/-- The descriptor table and the claim queue, in queue order (R23, R29). -/
structure LineFunctions where
  table  : PerFunc FuncRec
  claims : List ClaimEntry
deriving DecidableEq, Repr

/-- A relay contact. -/
inductive Contact where
  | closed | open_
deriving DecidableEq, Repr

/-- A feed position (R41). -/
inductive Feed where
  | off | on | denied
deriving DecidableEq, Repr

/-- The DSL coupling (R41). -/
inductive Coupling where
  | decoupled | coupled
deriving DecidableEq, Repr

/-- The test bus selector (R41). -/
inductive Bus where
  | disconnected | exchange | home (p : Port)
deriving DecidableEq, Repr

/-- The relay set: the positions last commanded (R41). -/
structure Relays where
  lineBreak : Contact
  pass      : PerPort Contact
  feed      : PerPort Feed
  dsl       : Coupling
  bus       : Bus
deriving DecidableEq, Repr

/-- A change set whose settle is in progress (R42). -/
structure Settle where
  asker : Asker
  due   : Time
deriving DecidableEq, Repr

/-- A DSL switch in flight (R39, R40). -/
structure DslSwitch where
  requester : Channel
  target    : Coupling
  id        : Byte
deriving DecidableEq, Repr

/-! ## Disturbance scheduler (chapter 3) -/

/-- What a disturbance record announces (R48). -/
inductive WorkKind where
  | ringSession | modeSwitch | dslSwitch | testConnect
deriving DecidableEq, Repr

/-- A record's state, with the lead deadline it carries before activation and the activation time after
(R48). -/
inductive RecordState where
  | notified (deadline : Time)
  | deferred (deadline : Time)
  | active (since : Time)
deriving DecidableEq, Repr

/-- A disturbance record (R48). -/
structure Disturbance where
  id         : Byte
  work       : WorkKind
  port       : Option Port
  state      : RecordState
  /-- Expected duration in ms. -/
  duration   : Option Nat
  deferrable : Bool
deriving DecidableEq, Repr

/-- What opened a blanking window (R58). -/
inductive WindowSource where
  | relay | ringBurst | hook | exchangeBurst | test
deriving DecidableEq, Repr

/-- A key that holds a window open (R60). -/
inductive WindowKey where
  | ringBurst (p : Port) | exchangeBurst | test
deriving DecidableEq, Repr

/-- A blanking window (R58). `stop` is the spec's end. -/
structure Window where
  start  : Time
  stop   : Option Time
  reach  : Time
  source : WindowSource
  port   : Option Port
  id     : Option Byte
  keys   : List WindowKey
  merged : Bool
deriving DecidableEq, Repr

/-- The slots, the id counter, the lead in force (ms) and the blanking-window list in list order. -/
structure Scheduler where
  slots   : PerSlot (Option Disturbance)
  nextId  : Byte
  lead    : Nat
  windows : List Window
deriving DecidableEq, Repr

/-! ## Impulse tracker (chapter 4) -/

/-- The tracker's states (R68). -/
inductive TrackState where
  | search | acquire | locked | coast
deriving DecidableEq, Repr

/-- A forecast window (R81). -/
structure ForecastWindow where
  number   : Nat
  start    : Time
  stop     : Time
  coasting : Bool
deriving DecidableEq, Repr

/-- The eight edge counts (R85). -/
structure EdgeCounts where
  seen        : BitVec 32
  merged      : BitVec 32
  dropped     : BitVec 32
  blanked     : BitVec 32
  learn       : BitVec 32
  hit         : BitVec 32
  stray       : BitVec 32
  missedTotal : BitVec 32
deriving DecidableEq, Repr

/-- The tracker's configuration, edge queue, state record, forecast and counts (R65 to R68, R81, R85).
The fields follow the spec's letters: `anchor` L, `intervals` c, `period` Pe and `jitter` J in 1/16 µs,
`misses` m, `checked` k. -/
structure Tracker where
  enable     : Bool
  deadTime   : Nat
  deadTimer  : Option Time
  edges      : List Time
  state      : TrackState
  anchor     : Time
  intervals  : Nat
  period     : Nat
  jitter     : Nat
  misses     : Nat
  checked    : Nat
  strayRun   : Nat
  /-- Bit j − 1 set for each marked window number j. -/
  obscured   : BitVec 8
  acquireDue : Option Time
  checkDue   : Option Time
  forecast   : List ForecastWindow
  counts     : EdgeCounts
deriving DecidableEq, Repr

/-! ## Phone ports and hook supervision (chapters 5 and 6) -/

/-- The two resting modes a switch starts from and ends in (R91). -/
inductive PlainMode where
  | lifeline | local_
deriving DecidableEq, Repr

/-- A port's mode (R91). -/
inductive Mode where
  | lifeline | local_ | toLocal | toLifeline
deriving DecidableEq, Repr

/-- The stage of a mode switch (R91). -/
inductive SwitchStage where
  | lead | break_ | make
deriving DecidableEq, Repr

/-- A mode switch in flight (R91). -/
structure ModeSwitch where
  origin    : PlainMode
  target    : PlainMode
  requester : Channel
  forced    : Bool
  id        : Byte
  stage     : SwitchStage
deriving DecidableEq, Repr

/-- A denial's stage, with the timer that runs in it (R100, R101). -/
inductive DenialStage where
  | waiting (retryDue : Time)
  | probing (probeDue : Time)
deriving DecidableEq, Repr

/-- A feed denial (R100). -/
structure Denial where
  since  : Time
  stage  : DenialStage
  failed : Nat
deriving DecidableEq, Repr

/-- A hook timing set, in ms (R107). -/
structure HookTiming where
  seize    : Nat
  glitch   : Nat
  pulseMax : Nat
  flashMax : Nat
  digitGap : Nat
deriving DecidableEq, Repr

/-- A hook state (R105). -/
inductive HookState where
  | onHook | seizing | offHook | break_
deriving DecidableEq, Repr

/-- A supervisor timer, which can stand still with time left (R113). -/
inductive Timer where
  | stopped
  | running (due : Time)
  | held (left : Time)
deriving DecidableEq, Repr

/-- A hook supervisor record (R105). `frozen` holds the state the supervisor stood at when it was frozen. -/
structure Supervisor where
  state       : HookState
  loop        : Bool
  frozen      : Option HookState
  masked      : Bool
  seizeTimer  : Timer
  breakStart  : Time
  breakTimer  : Timer
  breakTiming : HookTiming
  pulses      : Nat
  gapTimer    : Timer
deriving DecidableEq, Repr

/-- An entry of the dial record (R114). -/
inductive DialEntry where
  | digit (d : Nat)
  | flash
deriving DecidableEq, Repr

/-- What a port controller keeps: the port record (R91), the hook timing in force (R107), the supervisor
(R105) and the dial record (R114). `overload` is the start of the running overload timer. -/
structure PhonePort where
  mode      : Mode
  switch    : Option ModeSwitch
  denial    : Option Denial
  overload  : Option Time
  underTest : Bool
  suspended : Bool
  timing    : HookTiming
  sup       : Supervisor
  dial      : List DialEntry
  overflow  : Bool
deriving DecidableEq, Repr

/-! ## Ring unit (chapter 7) -/

/-- A cadence step in ms (R120). -/
structure CadenceStep where
  on  : Nat
  off : Nat
deriving DecidableEq, Repr

/-- The state of a ring session (R122). -/
inductive RingState where
  | notifying
  | burst (began : Time)
  | silent (skipping : Bool)
deriving DecidableEq, Repr

/-- A ring session: a ring record outside IDLE (R122). -/
structure RingSession where
  state      : RingState
  steps      : List CadenceStep
  cadence    : Nat
  stepIndex  : Nat
  cyclesLeft : Option Nat
  cyclesDone : Nat
  skipped    : Nat
  issuer     : Channel
  id         : Byte
  phaseDue   : Option Time
  tripDue    : Option Time
deriving DecidableEq, Repr

/-- The exchange ring record (R131). -/
structure ExchangeRing where
  ringing : Bool
  burstOn : Bool
  bursts  : Nat
  every   : Nat
  count   : Nat
  gapDue  : Option Time
deriving DecidableEq, Repr

/-- The ring unit. A port's session is absent while its ring record is IDLE. -/
structure RingUnit where
  cadences  : Quad (List CadenceStep)
  sessions  : PerPort (Option RingSession)
  generator : PerPort Bool
  faultDue  : Option Time
  exchange  : ExchangeRing
deriving DecidableEq, Repr

/-! ## Line test engine (chapter 8) -/

/-- The test kinds, in code order 1 to 5 (R135). -/
inductive TestKind where
  | loopDc | insulation | foreign | capacitance | homeRingers
deriving DecidableEq, Repr

/-- A test's target (R135). -/
inductive Target where
  | exchange | home (p : Port)
deriving DecidableEq, Repr

/-- A limit (R138). -/
structure Limit where
  number : Nat
  low    : Int
  high   : Int
deriving DecidableEq, Repr

/-- A gate (R151). -/
structure Gate where
  level  : Nat
  kind   : TestKind
  target : Target
  limits : List Limit
deriving DecidableEq, Repr

/-- The engine's phases outside IDLE (R138). -/
inductive TestPhase where
  | notify | connect | measure | release
deriving DecidableEq, Repr

/-- The abort reasons, in code order 1 to 7 (R146). -/
inductive AbortReason where
  | requested | hookAbort | ringAbort | faultAbort | holdLost | requesterReset | powerAbort
deriving DecidableEq, Repr

/-- A verdict on a limited measurement (R145). -/
inductive Verdict where
  | pass | fail
deriving DecidableEq, Repr

/-- A measurement taken (R135, R145). -/
structure Measurement where
  number    : Nat
  value     : Int
  saturated : Bool
  short     : Bool
  verdict   : Option Verdict
deriving DecidableEq, Repr

/-- The current test record with the engine's phase (R138). `exclusions` are offsets from S in µs, and
`openMark` is the open mark as such an offset (R142). -/
structure Test where
  phase      : TestPhase
  kind       : TestKind
  target     : Target
  requester  : Channel
  viaGate    : Option Nat
  granted    : Bool
  forced     : Bool
  limits     : List Limit
  id         : Byte
  preTest    : Option Coupling
  start      : Option Time
  exclusions : List (Nat × Nat)
  openMark   : Option Nat
  clean      : Nat
  values     : Option (List Measurement)
  short      : Bool
  abort      : Option AbortReason
deriving DecidableEq, Repr

/-- A test's outcome, in code order 0 to 4 (R145). -/
inductive TestOutcome where
  | pass | fail | noVerdict | noisy | aborted
deriving DecidableEq, Repr

/-- The result record (R145). -/
structure TestResult where
  kind         : TestKind
  target       : Target
  requester    : Channel
  viaGate      : Option Nat
  forced       : Bool
  outcome      : TestOutcome
  abort        : Option AbortReason
  measurements : List Measurement
  clean        : Nat
  endedAt      : Time
deriving DecidableEq, Repr

/-- A release that runs on after its test has ended (R148): whether the TEST key is still its own. -/
structure Detached where
  holdsKey : Bool
deriving DecidableEq, Repr

/-- The line test engine. -/
structure Engine where
  test     : Option Test
  wallDue  : Option Time
  cleanDue : Option Time
  result   : Option TestResult
  gates    : Quad (Option Gate)
  cable    : Nat
  detached : Option Detached
deriving DecidableEq, Repr

/-! ## Fault unit (chapters 9 and 10) -/

/-- The fault classes, in natural order 0 to 13 (R155). -/
inductive FaultClass where
  | surge | hazardVoltage | lockout | feedOverload | thermal | lineBatteryLost | mainsLost | batteryReserve
  | trackLost | strayRun | testFail | testAborted | storeFault | ringFault
deriving DecidableEq, Repr

/-- The levels of the soft classes 3 to 13 (R155). -/
structure ClassLevels where
  feedOverload    : Nat
  thermal         : Nat
  lineBatteryLost : Nat
  mainsLost       : Nat
  batteryReserve  : Nat
  trackLost       : Nat
  strayRun        : Nat
  testFail        : Nat
  testAborted     : Nat
  storeFault      : Nat
  ringFault       : Nat
deriving DecidableEq, Repr

/-- A raised fault (R156). `source` is a port number or a test kind code. -/
structure Raised where
  cls     : FaultClass
  source  : Option Nat
  detail1 : Option (BitVec 32)
  detail2 : Option (BitVec 32)
  time    : Time
deriving DecidableEq, Repr

/-- A fault log record (R168). -/
structure LogRecord where
  sequence  : BitVec 32
  cls       : FaultClass
  level     : Nat
  source    : Option Nat
  firstTime : BitVec 32
  lastTime  : BitVec 32
  detail1   : Option (BitVec 32)
  detail2   : Option (BitVec 32)
  repeats   : Nat
deriving DecidableEq, Repr

/-- The log policy (R168). -/
inductive LogPolicy where
  | keepNewest | keepFirst
deriving DecidableEq, Repr

/-- The capture record (R172). -/
structure Capture where
  cls      : FaultClass
  level    : Nat
  sequence : BitVec 32
  uptime   : BitVec 32
  timebase : Time
  detail1  : Option (BitVec 32)
  detail2  : Option (BitVec 32)
deriving DecidableEq, Repr

/-- A pending latch (R174). -/
structure Latch where
  cls       : FaultClass
  sequence  : BitVec 32
  level     : Nat
  source    : Option Nat
  notLogged : Bool
  coalesced : Bool
deriving DecidableEq, Repr

/-- What the fault unit keeps for a channel (R174). Bit n of `masks` is set for each masked class n;
`latches` are in natural order, one a class. -/
structure FaultChannel where
  masks     : BitVec 16
  threshold : Nat
  latches   : List Latch
deriving DecidableEq, Repr

/-- Why LOCKOUT was entered (R161). -/
inductive LockoutCause where
  | secondFault | persistentHazard
deriving DecidableEq, Repr

/-- The isolation record (R161). `timer` is absent in ISOLATING only while the start-up's dwell waits for
the settings load, or while the reset input is asserted (R167). -/
inductive Isolation where
  | normal
  | isolating (dwell : Nat) (timer : Option Time) (cause : FaultClass) (since : BitVec 32)
  | lockout (why : LockoutCause) (cause : FaultClass) (since : BitVec 32)
deriving DecidableEq, Repr

/-- The battery watch (R160). `started` is the start of its running timer. -/
structure BatteryWatch where
  started : Option Time
  lost    : Bool
deriving DecidableEq, Repr

/-- The fault unit. `taking` and `waiting` hold the order R156 gives to a fault raised while another is
being taken; between commands no fault is being taken and none waits. `quiet` is the quiet period's end. -/
structure FaultUnit where
  levels    : ClassLevels
  log       : List LogRecord
  nextSeq   : BitVec 32
  policy    : LogPolicy
  discarded : Bool
  capture   : Option Capture
  channels  : PerChan FaultChannel
  quiet     : Option (BitVec 32)
  isolation : Isolation
  watch     : BatteryWatch
  taking    : Bool
  waiting   : List Raised
deriving DecidableEq, Repr

/-! ## Power monitor and settings store (chapter 11) -/

/-- The power state (R179). -/
inductive PowerState where
  | mains | battery | reserve
deriving DecidableEq, Repr

/-- The power record (R179). -/
structure PowerRec where
  state   : PowerState
  mains   : Bool
  reserve : Bool
  since   : Option (BitVec 32)
deriving DecidableEq, Repr

/-- The items of the settings image (R182). -/
structure Settings where
  levels      : PerFunc Nat
  gates       : Quad (Option Gate)
  cadences    : Quad (List CadenceStep)
  timing      : PerPort HookTiming
  lead        : Nat
  enable      : Bool
  deadTime    : Nat
  classLevels : ClassLevels
  policy      : LogPolicy
  cable       : Nat
  every       : Nat
deriving DecidableEq, Repr

/-- The content of the settings memory (R182): erased, a copy of the items whose check word agrees, or
content whose check word disagrees. -/
inductive Image where
  | blank
  | written (items : Settings)
  | disagreeing
deriving DecidableEq, Repr

/-- The result of the last power-on load (R183). -/
inductive LoadResult where
  | good | blank | checkFailed
deriving DecidableEq, Repr

/-- The last save's status (R181). -/
inductive LastSave where
  | none | ok | writeFailed
deriving DecidableEq, Repr

/-- A save in flight (R184). -/
structure Save where
  items      : Settings
  requester  : Channel
  acceptedAt : Time
deriving DecidableEq, Repr

/-- The settings store. -/
structure Store where
  image      : Image
  saving     : Option Save
  lastSave   : LastSave
  loadResult : LoadResult
deriving DecidableEq, Repr

/-! ## The whole -/

/-- The machine. `pending` is the queue of commands waiting, first in, first out; `occasion` counts the
measurement periods ended by the part's own clock, for the free readings of `Config.reading`. -/
structure State where
  pending  : List Instr
  phase    : Phase
  clock    : Clock
  pins     : Pins
  twoPorts : Bool
  gateway  : GatewayPort
  modem    : ModemPort
  channels : PerChan ChannelRec
  lines    : LineFunctions
  relays   : Relays
  settles  : List Settle
  dsl      : Option DslSwitch
  sched    : Scheduler
  tracker  : Tracker
  ports    : PerPort PhonePort
  ring     : RingUnit
  engine   : Engine
  faults   : FaultUnit
  power    : PowerRec
  store    : Store
  occasion : Nat
deriving DecidableEq, Repr

/-- No command stops the machine with a fault: the manual gives every command an effect, and an event that
cannot happen as the state stands changes nothing. -/
inductive Fault where
deriving DecidableEq, Repr

/-- Why a command has no meaning. -/
inductive Refusal where
  /-- Raised by a dispatch arm whose command has no meaning yet; safe. No arm raises it. -/
  | notModelled (mnemonic : String)
deriving DecidableEq, Repr

/-- The answer of a step. -/
abbrev Result := Host.Outcome State Fault Refusal

/-! ## Updates of one part of the state -/

namespace State

def setPending (s : State) (q : List Instr) : State := { s with pending := q }
def setPhase (s : State) (v : Phase) : State := { s with phase := v }
def setOccasion (s : State) (n : Nat) : State := { s with occasion := n }
def setTwoPorts (s : State) (v : Bool) : State := { s with twoPorts := v }
def setRelays (s : State) (v : Relays) : State := { s with relays := v }
def setSettles (s : State) (v : List Settle) : State := { s with settles := v }
def setDsl (s : State) (v : Option DslSwitch) : State := { s with dsl := v }
def setPower (s : State) (v : PowerRec) : State := { s with power := v }
def updClock (s : State) (f : Clock → Clock) : State := { s with clock := f s.clock }
def updPins (s : State) (f : Pins → Pins) : State := { s with pins := f s.pins }
def updGateway (s : State) (f : GatewayPort → GatewayPort) : State := { s with gateway := f s.gateway }
def updModem (s : State) (f : ModemPort → ModemPort) : State := { s with modem := f s.modem }
def updChannel (s : State) (c : Channel) (f : ChannelRec → ChannelRec) : State :=
  { s with channels := s.channels.set c (f (s.channels.get c)) }
def updLines (s : State) (f : LineFunctions → LineFunctions) : State := { s with lines := f s.lines }
def updSched (s : State) (f : Scheduler → Scheduler) : State := { s with sched := f s.sched }
def updTracker (s : State) (f : Tracker → Tracker) : State := { s with tracker := f s.tracker }
def updPort (s : State) (p : Port) (f : PhonePort → PhonePort) : State :=
  { s with ports := s.ports.set p (f (s.ports.get p)) }
def updRing (s : State) (f : RingUnit → RingUnit) : State := { s with ring := f s.ring }
def updEngine (s : State) (f : Engine → Engine) : State := { s with engine := f s.engine }
def updFaults (s : State) (f : FaultUnit → FaultUnit) : State := { s with faults := f s.faults }
def updStore (s : State) (f : Store → Store) : State := { s with store := f s.store }

/-- The present timebase value. -/
def now (s : State) : Time := s.clock.timebase

/-- The present uptime. -/
def uptime (s : State) : BitVec 32 := s.clock.uptime

/-- A phone port's record. -/
def port (s : State) (p : Port) : PhonePort := s.ports.get p

/-- Change a port's supervisor record. -/
def updSup (s : State) (p : Port) (f : Supervisor → Supervisor) : State :=
  s.updPort p (fun q => { q with sup := f q.sup })

end State

/-! ## Factory settings and reset values -/

/-- The factory hook timing set (R107). -/
def factoryTiming : HookTiming := ⟨30, 20, 120, 900, 300⟩

/-- The factory cadence table (R120). -/
def factoryCadences : Quad (List CadenceStep) :=
  ⟨[⟨400, 200⟩, ⟨400, 2000⟩], [⟨1000, 4000⟩], [], []⟩

/-- The factory levels of the soft classes (R155). -/
def factoryClassLevels : ClassLevels := ⟨6, 6, 7, 5, 7, 3, 2, 4, 2, 5, 4⟩

/-- The factory values of the image's items (R182). -/
def factorySettings : Settings where
  levels := ⟨1, 1, 2, 1, 2⟩
  gates := ⟨none, none, none, none⟩
  cadences := factoryCadences
  timing := ⟨factoryTiming, factoryTiming⟩
  lead := 40
  enable := true
  deadTime := 2000
  classLevels := factoryClassLevels
  policy := .keepNewest
  cable := 500
  every := 1

/-- The default subscriptions of a channel, bit k for kind code k (R13). -/
def defaultSubs : Channel → BitVec 32
  | .modem => 0x0000C412
  | .management => 0x00001008
  | .gateway => 0x000FBFFA

/-- The default fault masks of a channel, bit n for class n (R174). -/
def defaultMasks : Channel → BitVec 16
  | .modem => 0x3CF8
  | .management => 0x0A00
  | .gateway => 0

/-- A channel's record after every reset (R15). -/
def freshChannel (c : Channel) : ChannelRec := ⟨defaultSubs c, [], false⟩

/-- A channel's fault settings after every reset (R174). -/
def freshFaultChannel (c : Channel) : FaultChannel := ⟨defaultMasks c, 0, []⟩

/-- The unpowered defaults of the relay set; the line-break is latching and has none (R41). -/
def defaultRelays (lineBreak : Contact) : Relays :=
  ⟨lineBreak, ⟨.closed, .closed⟩, ⟨.off, .off⟩, .coupled, .disconnected⟩

/-- The supervisor record before its first reading of the loop (R105). -/
def freshSupervisor : Supervisor :=
  ⟨.onHook, false, none, false, .stopped, 0, .stopped, factoryTiming, 0, .stopped⟩

/-- A port record after a reset, with the hook timing in force (R91, R105, R114). -/
def freshPort (t : HookTiming) : PhonePort :=
  ⟨.lifeline, none, none, none, false, false, t, freshSupervisor, [], false⟩

/-- The eight counts at 0 (R85). -/
def zeroCounts : EdgeCounts := ⟨0, 0, 0, 0, 0, 0, 0, 0⟩

/-- The tracker after a reset, with its configuration in force (R65 to R68, R81, R85). -/
def freshTracker (enable : Bool) (deadTime : Nat) : Tracker where
  enable := enable
  deadTime := deadTime
  deadTimer := none
  edges := []
  state := .search
  anchor := 0
  intervals := 0
  period := 0
  jitter := 0
  misses := 0
  checked := 0
  strayRun := 0
  obscured := 0
  acquireDue := none
  checkDue := none
  forecast := []
  counts := zeroCounts

/-- The exchange ring record after a reset, with N in force (R131). -/
def freshExchange (every : Nat) : ExchangeRing := ⟨false, false, 0, every, 0, none⟩

/-- The ring unit after a reset, with its settings in force (R122, R131). -/
def freshRing (cadences : Quad (List CadenceStep)) (every : Nat) : RingUnit :=
  ⟨cadences, ⟨none, none⟩, ⟨false, false⟩, none, freshExchange every⟩

/-- The engine after a reset, with its settings in force (R138). -/
def freshEngine (gates : Quad (Option Gate)) (cable : Nat) : Engine :=
  ⟨none, none, none, none, gates, cable, none⟩

/-- The fault unit after a power-on reset, before its hazard check (R155, R168, R172, R174, R177). -/
def freshFaults : FaultUnit where
  levels := factoryClassLevels
  log := []
  nextSeq := 1
  policy := .keepNewest
  discarded := false
  capture := none
  channels := ⟨freshFaultChannel .modem, freshFaultChannel .management, freshFaultChannel .gateway⟩
  quiet := none
  isolation := .normal
  watch := ⟨none, false⟩
  taking := false
  waiting := []

/-- The descriptor table with these levels and no hold, and an empty claim queue (R23, R24, R29). -/
def freshLines (levels : PerFunc Nat) : LineFunctions :=
  ⟨⟨⟨levels.port1, none⟩, ⟨levels.port2, none⟩, ⟨levels.dsl, none⟩, ⟨levels.test, none⟩,
    ⟨levels.tracker, none⟩⟩, []⟩

/-- The scheduler after a reset, with the lead in force (R48, R58). -/
def freshScheduler (lead : Nat) : Scheduler := ⟨⟨none, none, none, none⟩, 0, lead, []⟩

/-- The input levels at `State.reset`: mains present, every other input deasserted. DESIGN CHOICE: the
manual gives no level for an input pin (log entry 3); unsafe. -/
def resetPins : Pins :=
  ⟨true, false, false, false, false, false, false, ⟨false, false⟩, ⟨false, false⟩, ⟨false, false⟩,
    ⟨false, false⟩⟩

/-- The part right after a power-on reset, with the settings load begun (R186). The manual gives every
field but those of log entries 2, 3 and 4: the input levels, the straps, the memory's content and the
line-break's earlier position, which stand outside the part, and the outputs and results that no rule
states before their first event. -/
def State.reset : State where
  pending := []
  phase := .loading
  clock := ⟨0, 0, 0⟩
  pins := resetPins
  twoPorts := true
  gateway := ⟨[], none, [], false, false⟩
  modem := ⟨[], [], [], false, false⟩
  channels := ⟨freshChannel .modem, freshChannel .management, freshChannel .gateway⟩
  lines := freshLines factorySettings.levels
  relays := defaultRelays .closed
  settles := []
  dsl := none
  sched := freshScheduler factorySettings.lead
  tracker := freshTracker factorySettings.enable factorySettings.deadTime
  ports := ⟨freshPort factoryTiming, freshPort factoryTiming⟩
  ring := freshRing factoryCadences factorySettings.every
  engine := freshEngine factorySettings.gates factorySettings.cable
  faults := freshFaults
  power := ⟨.mains, true, false, none⟩
  store := ⟨.blank, none, .none, .good⟩
  occasion := 0

end Sys2Proof.Machine
end

