-- ==== Sys2Proof/Machine/Ops.lean ====
section
/-! DEFINITION. The operations every block shares: time on the 32-bit timebase, the codes of the frame
layouts, what is fitted, and the port block's notice queues (R13 to R18). -/

namespace Sys2Proof.Machine

/-! ## Time (00_scope.md, "Time") -/

/-- Where an instant lies from the present: positive ahead, negative behind (R58). -/
def offset (now t : Time) : Int := (t - now).toInt

/-- A timer due at `t` has fallen due. -/
def reached (now t : Time) : Bool := decide (offset now t ≤ 0)

/-- A running timer has fallen due. -/
def timerDue (now : Time) (t : Option Time) : Bool :=
  match t with
  | some d => reached now d
  | none => false

/-- A number of microseconds as a timebase difference. -/
def us (n : Nat) : Time := BitVec.ofNat 32 n

/-- A number of milliseconds as a timebase difference. -/
def ms (n : Nat) : Time := BitVec.ofNat 32 (n * 1000)

/-- The microseconds from the present to a due instant; 0 once it has passed. -/
def usLeft (now due : Time) : Nat := (offset now due).toNat

/-- A division rounded up. -/
def ceilDiv (a b : Nat) : Nat := (a + (b - 1)) / b

/-- The milliseconds from the present to a due instant, rounded up; 0 once it has passed or with no timer. -/
def msLeft (now : Time) (due : Option Time) : Nat :=
  match due with
  | some d => ceilDiv (usLeft now d) 1000
  | none => 0

/-- The later of two instants, by offset from the present (R58). -/
def later (now a b : Time) : Time := if offset now a < offset now b then b else a

/-- The earlier of two instants, by offset from the present (R58). -/
def earlier (now a b : Time) : Time := if offset now b < offset now a then b else a

/-- A value clamped to a range (00_scope.md, "Clamping, refusal and saturation"). -/
def clamp (lo hi n : Nat) : Nat := max lo (min hi n)

/-- A count saturated at the end of its range. -/
def saturate (hi n : Nat) : Nat := min hi n

/-! ## Codes (R7, R13, R36, R37) -/

/-- A number as one byte. -/
def byte (n : Nat) : Byte := BitVec.ofNat 8 n

/-- A number as a 2-byte field. -/
def half16 (n : Nat) : List Byte := halfBytes (BitVec.ofNat 16 n)

/-- A flag as one byte, 1 or 0. -/
def flagByte (b : Bool) : Byte := if b then 1 else 0

/-- A flag as bit `n` of a byte. -/
def bitOf (n : Nat) (b : Bool) : Nat := if b then 2 ^ n else 0

/-- An optional value as one byte, with a code for absent. -/
def optByte (absent : Nat) (v : Option Nat) : Byte := byte (v.getD absent)

/-- 0 MODEM, 1 MANAGEMENT, 2 GATEWAY (R11). -/
def chanCode : Channel → Nat
  | .modem => 0
  | .management => 1
  | .gateway => 2

/-- The channels in the order MODEM, MANAGEMENT, GATEWAY (R177). -/
def allChannels : List Channel := [.modem, .management, .gateway]

/-- The channels a physical port carries (R6). -/
def channelsOf : PhysPort → List Channel
  | .gateway => [.gateway]
  | .modem => [.modem, .management]

/-- The fixed ceilings (R9). -/
def ceiling : Channel → Nat
  | .management => 0
  | .gateway => 1
  | .modem => 2

/-- A request's effective level: the numerically larger of the ceiling and the requested level (R9). -/
def effLevel (r : Req) : Nat := max (ceiling r.channel) r.level.toNat

/-- A phone port's number in frames (R7). -/
def portNum : Port → Nat
  | .p1 => 1
  | .p2 => 2

/-- A port code with 0 for absent. -/
def optPort (p : Option Port) : Nat := (p.map portNum).getD 0

/-- The phone port a byte names (R7). -/
def portOf (b : Byte) : Option Port :=
  match b.toNat with
  | 1 => some .p1
  | 2 => some .p2
  | _ => none

/-- The phone ports in order. -/
def bothPorts : List Port := [.p1, .p2]

/-- The other phone port. -/
def otherPort : Port → Port
  | .p1 => .p2
  | .p2 => .p1

/-- Function numbers 0 to 4 (R7). -/
def funcNum : Func → Nat
  | .port1 => 0
  | .port2 => 1
  | .dsl => 2
  | .test => 3
  | .tracker => 4

/-- The line functions in number order. -/
def allFuncs : List Func := [.port1, .port2, .dsl, .test, .tracker]

/-- The function a byte names: 0 to 4 (R25). -/
def funcOf (b : Byte) : Option Func :=
  match b.toNat with
  | 0 => some .port1
  | 1 => some .port2
  | 2 => some .dsl
  | 3 => some .test
  | 4 => some .tracker
  | _ => none

/-- The function of a phone port. -/
def portFunc : Port → Func
  | .p1 => .port1
  | .p2 => .port2

/-- The disturbance slot of a phone port. -/
def portSlot : Port → SlotId
  | .p1 => .port1
  | .p2 => .port2

/-- The disturbance slots in order. -/
def allSlots : List SlotId := [.port1, .port2, .dsl, .test]

/-- 0 CLOSED, 1 OPEN (R37). -/
def contactCode : Contact → Nat
  | .closed => 0
  | .open_ => 1

/-- 0 OFF, 1 ON, 2 DENIED (R37). -/
def feedCode : Feed → Nat
  | .off => 0
  | .on => 1
  | .denied => 2

/-- 0 DECOUPLED, 1 COUPLED (R37). -/
def couplingCode : Coupling → Nat
  | .decoupled => 0
  | .coupled => 1

/-- 0 DISCONNECTED, 1 EXCHANGE, 2 HOME_P1, 3 HOME_P2 (R37). -/
def busCode : Bus → Nat
  | .disconnected => 0
  | .exchange => 1
  | .home .p1 => 2
  | .home .p2 => 3

/-! ## What is fitted (R11, R23) -/

/-- A phone port is fitted. -/
def portFitted (s : State) : Port → Bool
  | .p1 => true
  | .p2 => s.twoPorts

/-- A line function is fitted. -/
def funcFitted (s : State) : Func → Bool
  | .port2 => s.twoPorts
  | _ => true

/-- The part has supply and its reset input is released, so its blocks take events (R186, R187). -/
def awake (s : State) : Bool :=
  match s.phase with
  | .loading | .running => true
  | _ => false

/-! ## Channels as functions' holders -/

/-- The holder of a function, if it is held. -/
def holderOf (s : State) (f : Func) : Option Channel := ((s.lines.table.get f).hold).map (·.holder)

/-- A channel holds a function. -/
def holds (s : State) (c : Channel) (f : Func) : Bool := decide (holderOf s f = some c)

/-! ## Notices (R13 to R17) -/

/-- Kind codes 1 to 19 (R13). -/
def Kind.code : Kind → Nat
  | .disturb => 1
  | .fault => 2
  | .isolation => 3
  | .unplanned => 4
  | .claimGranted => 5
  | .claimExpired => 6
  | .holdRevoked => 7
  | .hook => 8
  | .answered => 9
  | .disturbDone => 10
  | .modeDone => 11
  | .testDone => 12
  | .saveDone => 13
  | .forecast => 14
  | .trackState => 15
  | .ringEnd => 16
  | .digit => 17
  | .exchangeRings => 18
  | .exchangeCallEnd => 19

/-- The level a kind fixes; FAULT takes the fault's level (R13). -/
def Kind.level : Kind → Nat
  | .disturb => 9
  | .fault => 0
  | .isolation => 8
  | .unplanned => 7
  | .claimGranted | .claimExpired | .holdRevoked | .hook | .answered => 6
  | .disturbDone | .modeDone | .testDone | .saveDone | .forecast => 5
  | .trackState | .ringEnd => 4
  | .digit | .exchangeRings | .exchangeCallEnd => 3

/-- The superseding kinds (R16). -/
def Kind.supersedes : Kind → Bool
  | .forecast | .trackState => true
  | _ => false

/-- The first three keys of queue order: `a` ranks strictly above `b` (R15). -/
def outranks (a b : Notice) : Bool :=
  if a.level ≠ b.level then decide (b.level < a.level)
  else if a.kind.code ≠ b.kind.code then decide (a.kind.code < b.kind.code)
  else decide (a.kind = .fault) && decide (a.subject.toNat < b.subject.toNat)

/-- Put a new notice at its place in queue order; it is the later arrival among equals (R15). -/
def insertNotice (n : Notice) : List Notice → List Notice
  | [] => [n]
  | x :: rest => if outranks n x then n :: x :: rest else x :: insertNotice n rest

/-- Take the first notice of a kind out of a queue; the flag says whether there was one. -/
def removeKind (k : Kind) : List Notice → List Notice
  | [] => []
  | x :: rest => if x.kind = k then rest else x :: removeKind k rest

/-- A queue holds a notice of a kind. -/
def hasKind (k : Kind) (q : List Notice) : Bool := q.any (fun x => decide (x.kind = k))

/-- Queue one notice to one channel: superseding (R16), then the full queue (R17), else in order (R15). -/
def enqueue (n : Notice) (c : ChannelRec) : ChannelRec :=
  if n.kind.supersedes && hasKind n.kind c.queue then
    { c with queue := insertNotice n (removeKind n.kind c.queue) }
  else if c.queue.length < 16 then { c with queue := insertNotice n c.queue }
  else
    match c.queue.getLast? with
    | none => { c with lost := true }
    | some last =>
      if outranks n last then { c with queue := insertNotice n c.queue.dropLast, lost := true }
      else { c with lost := true }

/-- A channel is subscribed to a kind (R14, R20). -/
def subscribed (c : ChannelRec) (k : Kind) : Bool := c.subs.getLsbD k.code

/-- Queue a notice to each of some channels, one copy each (R14). -/
def post (n : Notice) (receives : Channel → Bool) (s : State) : State :=
  let deliver (s : State) (c : Channel) : State := if receives c then s.updChannel c (enqueue n) else s
  deliver (deliver (deliver s .modem) .management) .gateway

/-- Hand a notice that is no completion: to every subscribed channel (R14). -/
def postSubscribed (n : Notice) (s : State) : State :=
  post n (fun c => subscribed (s.channels.get c) n.kind) s

/-- Hand a completion: to the channel concerned and to every other subscribed channel (R14). -/
def postCompletion (n : Notice) (concerned : Channel) (s : State) : State :=
  post n (fun c => decide (c = concerned) || subscribed (s.channels.get c) n.kind) s

/-- A notice of a kind with its fixed level. -/
def notice (k : Kind) (subject flags : Byte) (t : Time) (detail : BitVec 32) : Notice :=
  ⟨k, k.level, subject, flags, t, detail⟩

/-- Detail bytes 8 to 11 (R7). -/
def detail4 (b8 b9 b10 b11 : Nat) : BitVec 32 := word (byte b8) (byte b9) (byte b10) (byte b11)

/-- The attention output of a physical port (R18, R5). -/
def attention (s : State) (p : PhysPort) : Bool :=
  let ready := match p with
    | .gateway => s.gateway.ready
    | .modem => s.modem.ready
  ready && (channelsOf p).any (fun c => decide ((s.channels.get c).queue ≠ []))

/-- The detail of a notice whose rule gives byte 8 alone: bytes 9 to 11 are free values (log entry 15). -/
def detailByte8 (k : Kind) (t : Time) (b8 : Nat) : BitVec 32 := Config.spareBytes k.code t ++ byte b8

/-- The unplanned kinds of R57. -/
inductive Unplanned where
  | hookSeize | hookRelease | exchangeBurst | isolationOpen | isolationClose | reserveFallback | feedDenied
deriving DecidableEq, Repr

/-- Unplanned kind codes 1 to 7 (R57). -/
def Unplanned.code : Unplanned → Nat
  | .hookSeize => 1
  | .hookRelease => 2
  | .exchangeBurst => 3
  | .isolationOpen => 4
  | .isolationClose => 5
  | .reserveFallback => 6
  | .feedDenied => 7

/-- Hand an UNPLANNED notice, with the port and detail byte 8 (R57). -/
def unplanned (k : Unplanned) (p : Option Port) (b8 : Nat) (s : State) : State :=
  postSubscribed (notice .unplanned (byte k.code) (byte (optPort p)) s.now (detail4 b8 0 0 0)) s

end Sys2Proof.Machine
end

