-- ==== Sys2Proof/Machine/Measure.lean ====
section
/-! DEFINITION. The measurements and the clean time of the line test engine: the test kinds (R135), the
length (R136), the exclusion record and its readings (R142). -/

namespace Sys2Proof.Machine

/-! ## Test kinds (R135) -/

/-- Kind codes 1 to 5 (R135). -/
def TestKind.code : TestKind → Nat
  | .loopDc => 1
  | .insulation => 2
  | .foreign => 3
  | .capacitance => 4
  | .homeRingers => 5

/-- The kind a byte names (R135). -/
def testKindOf (b : Byte) : Option TestKind :=
  match b.toNat with
  | 1 => some .loopDc
  | 2 => some .insulation
  | 3 => some .foreign
  | 4 => some .capacitance
  | 5 => some .homeRingers
  | _ => none

/-- The measurement time M in ms (R135). -/
def TestKind.measureMs : TestKind → Nat
  | .loopDc => 400
  | .insulation => 1000
  | .foreign => 500
  | .capacitance => 300
  | .homeRingers => 800

/-- M in µs. -/
def TestKind.measureUs (k : TestKind) : Nat := k.measureMs * 1000

/-- How many measurements a kind has (R135). -/
def TestKind.count : TestKind → Nat
  | .foreign => 4
  | _ => 2

/-- Target codes 0 EXCHANGE, 1 HOME_P1, 2 HOME_P2 (R135). -/
def targetCode : Target → Nat
  | .exchange => 0
  | .home .p1 => 1
  | .home .p2 => 2

/-- The target a byte names (R135). -/
def targetOf (b : Byte) : Option Target :=
  match b.toNat with
  | 0 => some .exchange
  | 1 => some (.home .p1)
  | 2 => some (.home .p2)
  | _ => none

/-- A target is one of the kind's targets (R135). -/
def targetValid (k : TestKind) (t : Target) : Bool :=
  match k, t with
  | .homeRingers, .home _ => true
  | .homeRingers, .exchange => false
  | _, .exchange => true
  | _, .home _ => false

/-- The port of a home target. -/
def targetPort : Target → Option Port
  | .exchange => none
  | .home p => some p

/-- The function a target's test needs (R139, R38). -/
def targetFunc : Target → Func
  | .exchange => .test
  | .home p => portFunc p

/-- The slot a target's test uses (R49). -/
def targetSlot : Target → SlotId
  | .exchange => .test
  | .home p => portSlot p

/-! ## Values (R135, R136) -/

/-- A reading saturated from above. -/
def capAt (hi v : Int) : Int × Bool := if hi < v then (hi, true) else (v, false)

/-- A reading saturated on both sides. -/
def capBoth (b v : Int) : Int × Bool := if b < v then (b, true) else if v < -b then (-b, true) else (v, false)

/-- The resistance saturation (R135). -/
def capResistance (v : Int) : Int × Bool := capAt 10000000 v

/-- The DC voltage saturation (R135). -/
def capDc (v : Int) : Int × Bool := capBoth 250000 v

/-- The AC voltage saturation (R135). -/
def capAc (v : Int) : Int × Bool := capAt 250000 v

/-- The length in m from the capacitance after its saturation and the cable constant (R136). -/
def lengthOf (c : Int × Bool) (cable : Nat) : Int × Bool :=
  let l := (c.1 * 1000) / (cable : Int)
  if 65535 < l then (65535, true) else (l, c.2)

/-- The values of a kind's measurements in order, each with its saturated mark (R135, R136). -/
def measuredValues (k : TestKind) (r : Readings) (cable : Nat) : List (Int × Bool) :=
  match k with
  | .loopDc => [capDc r.m1, capResistance r.m2]
  | .insulation => [capResistance r.m1, capResistance r.m2]
  | .foreign => [capAc r.m1, capAc r.m2, capDc r.m3, capDc r.m4]
  | .capacitance => [capAt 20000 r.m1, lengthOf (capAt 20000 r.m1) cable]
  | .homeRingers => [capAt 100 r.m1, capResistance r.m2]

/-- Measurements numbered from `n`, without verdicts. -/
def numberFrom (n : Nat) (short : Bool) : List (Int × Bool) → List Measurement
  | [] => []
  | (v, sat) :: more => ⟨n, v, sat, short, none⟩ :: numberFrom (n + 1) short more

/-- The measurements taken at the end of MEASURE (R143 step 2). -/
def takeMeasurements (k : TestKind) (r : Readings) (cable : Nat) (short : Bool) : List Measurement :=
  numberFrom 1 short (measuredValues k r cable)

/-! ## The exclusion record (R142) -/

/-- Add an interval to an ordered list of disjoint intervals, joining what overlaps or touches it. -/
def joinInterval (a b : Nat) : List (Nat × Nat) → List (Nat × Nat)
  | [] => [(a, b)]
  | (c, d) :: rest =>
    if d < a then (c, d) :: joinInterval a b rest
    else if b < c then (a, b) :: (c, d) :: rest
    else joinInterval (min a c) (max b d) rest

/-- The smallest gap between neighbours of an ordered list. -/
def smallestGap : List (Nat × Nat) → Option Nat
  | (_, b) :: (c, d) :: rest =>
    match smallestGap ((c, d) :: rest) with
    | none => some (c - b)
    | some g => some (min (c - b) g)
  | _ => none

/-- Join the first two neighbours whose gap is `g`. -/
def joinGap (g : Nat) : List (Nat × Nat) → List (Nat × Nat)
  | (a, b) :: (c, d) :: rest => if c - b = g then (a, d) :: rest else (a, b) :: joinGap g ((c, d) :: rest)
  | l => l

/-- Add an interval to the record of up to 16: where it would be a seventeenth, the two neighbours with the
smallest gap are joined first, the earlier pair where gaps are equal (R142). -/
def addExclusion (a b : Nat) (l : List (Nat × Nat)) : List (Nat × Nat) :=
  let l' := joinInterval a b l
  if l'.length ≤ 16 then l'
  else
    match smallestGap l with
    | some g => joinInterval a b (joinGap g l)
    | none => l'

/-- Hand in an interval given by offsets from S, clipped to [0, 2M]; one wholly outside is not added (R142). -/
def handIn (limit : Nat) (a b : Int) (l : List (Nat × Nat)) : List (Nat × Nat) :=
  if b < 0 || (limit : Int) < a then l else addExclusion a.toNat (min limit b.toNat) l

/-- The length of the union of an ordered list of disjoint intervals within [0, x]. -/
def coveredWithin (x : Nat) : List (Nat × Nat) → Nat
  | [] => 0
  | (a, b) :: rest => (min b x - min a x) + coveredWithin x rest

/-- The clean time over [S, S + x] (R142). -/
def cleanOver (exclusions : List (Nat × Nat)) (mark : Option Nat) (x : Nat) : Nat :=
  let l := match mark with
    | some m => if m < x then joinInterval m x exclusions else exclusions
    | none => exclusions
  x - coveredWithin x l

/-- The earliest offset at which `need` more µs outside the intervals have passed since `start` (R142). -/
def cleanInstant (start need : Nat) : List (Nat × Nat) → Nat
  | [] => start + need
  | (a, b) :: rest =>
    if need ≤ a - start then start + need else cleanInstant b (need - (a - start)) rest

/-- The clean timer's due time for a record as it stands (R142). -/
def cleanTimerFor (t : Test) (s0 : Time) : Option Time :=
  match t.openMark with
  | some _ => none
  | none =>
    let x := cleanInstant 0 t.kind.measureUs t.exclusions
    if x ≤ 2 * t.kind.measureUs then some (s0 + us x) else none

/-- An instant as an offset from S. -/
def fromStart (s0 t : Time) : Int := offset s0 t

/-- A window is foreign to the test: its disturbance id is absent or differs (R142, R63). -/
def foreignTo (id : Byte) (w : Window) : Bool := decide (w.id ≠ some id)

/-- Step 1 of a reading: every window of the forecast table (R142). -/
def addForecast (limit : Nat) (s0 : Time) : List ForecastWindow → List (Nat × Nat) → List (Nat × Nat)
  | [], l => l
  | w :: rest, l => addForecast limit s0 rest (handIn limit (fromStart s0 w.start) (fromStart s0 w.stop) l)

/-- Step 2 of a reading: every closed foreign blanking window (R142). -/
def addForeign (limit : Nat) (s0 : Time) (id : Byte) : List Window → List (Nat × Nat) → List (Nat × Nat)
  | [], l => l
  | w :: rest, l =>
    match w.stop with
    | some e =>
      if foreignTo id w then addForeign limit s0 id rest (handIn limit (fromStart s0 w.start) (fromStart s0 e) l)
      else addForeign limit s0 id rest l
    | none => addForeign limit s0 id rest l

/-- Step 3 of a reading: the earliest start among the open foreign windows, not before S (R142). -/
def markOf (s0 : Time) (id : Byte) : List Window → Option Nat
  | [] => none
  | w :: rest =>
    if w.stop = none && foreignTo id w then
      match markOf s0 id rest with
      | none => some (fromStart s0 w.start).toNat
      | some m => some (min m (fromStart s0 w.start).toNat)
    else markOf s0 id rest

/-- A reading: taken while a test is in MEASURE, and it resets the clean timer (R142). -/
def reading (s : State) : State :=
  match s.engine.test with
  | some t =>
    match t.phase, t.start with
    | .measure, some s0 =>
      let limit := 2 * t.kind.measureUs
      let l := addForeign limit s0 t.id s.sched.windows (addForecast limit s0 s.tracker.forecast t.exclusions)
      let t' := { t with exclusions := l, openMark := markOf s0 t.id s.sched.windows }
      s.updEngine (fun e => { e with test := some t', cleanDue := cleanTimerFor t' s0 })
    | _, _ => s
  | none => s

/-- The clean time of a test in MEASURE over [S, present] (R142). -/
def cleanSoFar (t : Test) (now : Time) : Nat :=
  match t.start with
  | some s0 => cleanOver t.exclusions t.openMark (min (now - s0).toNat (2 * t.kind.measureUs))
  | none => t.clean

end Sys2Proof.Machine
end

