-- ==== Sys2Proof/Machine/Blanking.lean ====
section
/-! DEFINITION. The blanking-window list: hand-in, close, removal, merge and the queries of its readers
(R58 to R63), with the tracker's taking of a departing window (R79). -/

namespace Sys2Proof.Machine

/-! ## The tracker's windows (R69, R77), which a departing blanking window is compared with -/

/-- The period in µs from Pe (R69). -/
def Tracker.periodUs (k : Tracker) : Nat := (k.period + 8) / 16

/-- The half-width H in µs (R69). -/
def Tracker.halfWidth (k : Tracker) : Nat := min 20000 (500 + k.jitter / 4)

/-- The centre of W_j (R77). -/
def Tracker.centre (k : Tracker) (j : Nat) : Time := k.anchor + us (j * k.periodUs)

/-- The start of W_j (R77). -/
def Tracker.windowStart (k : Tracker) (j : Nat) : Time := k.centre j - us k.halfWidth

/-- The end of W_j (R77). -/
def Tracker.windowStop (k : Tracker) (j : Nat) : Time := k.centre j + us k.halfWidth

/-- The check time of W_j (R77). -/
def Tracker.checkTime (k : Tracker) (j : Nat) : Time := k.windowStop j + us 40000

/-- The bit of a window number in the obscured marks (R68). -/
def markBit (j : Nat) : BitVec 8 := 1#8 <<< (j - 1)

/-- Whether two closed intervals overlap, all four instants compared by offset from the present. -/
def overlaps (now a b c d : Time) : Bool :=
  decide (offset now c ≤ offset now b) && decide (offset now a ≤ offset now d)

/-- The marks a departing window [a, b] sets: every unchecked W_j it overlaps (R79). -/
def marksFor (now : Time) (k : Tracker) (a b : Time) : Nat → BitVec 8
  | 0 => 0
  | j + 1 =>
    let more := marksFor now k a b j
    if k.checked < j + 1 && overlaps now a b (k.windowStart (j + 1)) (k.windowStop (j + 1)) then
      more ||| markBit (j + 1)
    else more

/-- The tracker takes a departing blanking window (R79). -/
def departWindow (a b : Time) (s : State) : State :=
  match s.tracker.state with
  | .locked | .coast =>
    s.updTracker (fun k => { k with obscured := k.obscured ||| marksFor s.now k a b 8 })
  | _ => s

/-! ## The list (R58, R61, R62) -/

/-- A key a source of kind and port would hold its window open with (R60). -/
def keyFor (src : WindowSource) (p : Option Port) : List WindowKey :=
  match src, p with
  | .ringBurst, some q => [.ringBurst q]
  | .exchangeBurst, _ => [.exchangeBurst]
  | .test, _ => [.test]
  | _, _ => []

/-- Put a window at its place in list order; it is the later arrival among equal starts (R58). -/
def insertWindow (now : Time) (w : Window) : List Window → List Window
  | [] => [w]
  | x :: rest =>
    if offset now w.start < offset now x.start then w :: x :: rest else x :: insertWindow now w rest

/-- The present has passed a closed window's end by more than 40 000 µs (R61). -/
def removable (now : Time) (w : Window) : Bool :=
  match w.stop with
  | some e => decide (offset now e ≤ -40001)
  | none => false

/-- Take the first removable window out of the list. -/
def takeRemovable (now : Time) : List Window → Option (Window × List Window)
  | [] => none
  | w :: rest =>
    if removable now w then some (w, rest)
    else (takeRemovable now rest).map (fun r => (r.1, w :: r.2))

/-- One window leaves the list by removal, and goes to the tracker (R61). -/
def removeOne (s : State) : State :=
  match takeRemovable s.now s.sched.windows with
  | some (w, rest) =>
    departWindow w.start (w.stop.getD w.reach) (s.updSched (fun d => { d with windows := rest }))
  | none => s

/-- Hand each window of a list to the tracker as departing (R62). -/
def departAll : List Window → State → State
  | [], s => s
  | w :: rest, s => departAll rest (departWindow w.start (w.stop.getD w.reach) s)

/-- The purge of a full list (R62 step 1). -/
def purge (s : State) : State :=
  let gone := s.sched.windows.filter (removable s.now)
  departAll gone (s.updSched (fun d => { d with windows := d.windows.filter (fun w => !removable s.now w) }))

/-- The union of two key sets. -/
def unionKeys (a b : List WindowKey) : List WindowKey := a ++ b.filter (fun k => !a.contains k)

/-- Merge a new window into the target (R62 step 3). -/
def mergeWindow (now : Time) (target w : Window) : Window :=
  let r1 := match target.stop with
    | some e => later now target.reach e
    | none => target.reach
  let r2 := match w.stop with
    | some e => later now r1 e
    | none => r1
  let keys := unionKeys target.keys w.keys
  { target with
    start := earlier now target.start w.start
    reach := r2
    keys := keys
    stop := if keys = [] then some r2 else none
    merged := true }

/-- Add a window to the list: at its place, after a purge, or merged into the last (R59, R62). -/
def addWindow (w : Window) (s : State) : State :=
  let place (s : State) : State := s.updSched (fun d => { d with windows := insertWindow s.now w d.windows })
  if s.sched.windows.length < 8 then place s
  else
    let s := purge s
    if s.sched.windows.length < 8 then place s
    else
      match s.sched.windows.getLast? with
      | some target =>
        s.updSched (fun d =>
          { d with windows := insertWindow s.now (mergeWindow s.now target w) d.windows.dropLast })
      | none => s

/-- Take a key out of the window that holds it, and close that window if no key is left (R60). -/
def closeKey (now : Time) (k : WindowKey) (at_ : Time) : List Window → List Window
  | [] => []
  | w :: rest =>
    if w.keys.contains k then
      let keys := w.keys.filter (fun x => decide (x ≠ k))
      let reach := later now w.reach (at_ + ms 50)
      { w with keys := keys, reach := reach, stop := if keys = [] then some reach else w.stop } :: rest
    else w :: closeKey now k at_ rest

/-- A key stands open in the list (R60). -/
def keyOpen (s : State) (k : WindowKey) : Bool := s.sched.windows.any (fun w => w.keys.contains k)

/-- A source closes its window (R60); the engine takes a reading (R142). -/
def closeWindow (k : WindowKey) (at_ : Time) (s : State) : State :=
  if keyOpen s k then
    reading (s.updSched (fun d => { d with windows := closeKey s.now k at_ d.windows }))
  else s

/-- Close each of some keys that already stands open, with the present as the close time (R60). -/
def closeStanding : List WindowKey → State → State
  | [], s => s
  | k :: rest, s => closeStanding rest (closeWindow k s.now s)

/-- Hand a window to the scheduler (R59, R60, R62), starting 5 ms before `t` and ending `tail` ms after it,
or open where `tail` is absent. -/
def handWindow (src : WindowSource) (p : Option Port) (id : Option Byte) (t : Time) (tail : Option Nat)
    (s : State) : State :=
  let start := t - ms 5
  let keys := match tail with
    | some _ => []
    | none => keyFor src p
  let w : Window := ⟨start, tail.map (fun n => t + ms n), start, src, p, id, keys, false⟩
  reading (addWindow w (closeStanding keys s))

/-- While an open window's start or reach lies 1 800 s or more before the present, it is taken as the
present minus 1 800 s (R58). Applied at every microsecond of the timebase. -/
def slideWindow (now : Time) (w : Window) : Window :=
  let old (t : Time) : Time := if offset now t ≤ -1800000000 then now - us 1800000000 else t
  match w.stop with
  | some _ => w
  | none => { w with start := old w.start, reach := old w.reach }

/-! ## Queries (R63) -/

/-- Does instant `t` lie in a window? -/
def blankedAt (s : State) (t : Time) : Bool :=
  s.sched.windows.any (fun w =>
    decide (offset s.now w.start ≤ offset s.now t) &&
      match w.stop with
      | some e => decide (offset s.now t ≤ offset s.now e)
      | none => true)

/-- Does interval [a, b] overlap a window? -/
def blankedWithin (s : State) (a b : Time) : Bool :=
  s.sched.windows.any (fun w =>
    decide (offset s.now w.start ≤ offset s.now b) &&
      match w.stop with
      | some e => decide (offset s.now a ≤ offset s.now e)
      | none => true)

end Sys2Proof.Machine
end

