-- ==== Sys2Proof/Machine/FaultUnit.lean ====
section
/-! DEFINITION. Taking a raised fault: its level (R155, R156), the log (R168, R169), the capture record
(R172), the per-channel decision with its pending latches (R174, R175), and the release of latches (R176). -/

namespace Sys2Proof.Machine

/-- Class numbers 0 to 13, which are also the natural order (R155). -/
def FaultClass.num : FaultClass → Nat
  | .surge => 0
  | .hazardVoltage => 1
  | .lockout => 2
  | .feedOverload => 3
  | .thermal => 4
  | .lineBatteryLost => 5
  | .mainsLost => 6
  | .batteryReserve => 7
  | .trackLost => 8
  | .strayRun => 9
  | .testFail => 10
  | .testAborted => 11
  | .storeFault => 12
  | .ringFault => 13

/-- The soft class a byte names: 3 to 13 (R157). -/
def softClassOf (b : Byte) : Option FaultClass :=
  match b.toNat with
  | 3 => some .feedOverload
  | 4 => some .thermal
  | 5 => some .lineBatteryLost
  | 6 => some .mainsLost
  | 7 => some .batteryReserve
  | 8 => some .trackLost
  | 9 => some .strayRun
  | 10 => some .testFail
  | 11 => some .testAborted
  | 12 => some .storeFault
  | 13 => some .ringFault
  | _ => none

/-- The classes in natural order. -/
def allClasses : List FaultClass :=
  [.surge, .hazardVoltage, .lockout, .feedOverload, .thermal, .lineBatteryLost, .mainsLost, .batteryReserve,
    .trackLost, .strayRun, .testFail, .testAborted, .storeFault, .ringFault]

/-- A class's level: 8 for a hard class, the table's for a soft one (R155). -/
def levelOf (l : ClassLevels) : FaultClass → Nat
  | .surge | .hazardVoltage | .lockout => 8
  | .feedOverload => l.feedOverload
  | .thermal => l.thermal
  | .lineBatteryLost => l.lineBatteryLost
  | .mainsLost => l.mainsLost
  | .batteryReserve => l.batteryReserve
  | .trackLost => l.trackLost
  | .strayRun => l.strayRun
  | .testFail => l.testFail
  | .testAborted => l.testAborted
  | .storeFault => l.storeFault
  | .ringFault => l.ringFault

/-- Set a soft class's level; a hard class has none to set (R155). -/
def setLevel (l : ClassLevels) (c : FaultClass) (n : Nat) : ClassLevels :=
  match c with
  | .surge | .hazardVoltage | .lockout => l
  | .feedOverload => { l with feedOverload := n }
  | .thermal => { l with thermal := n }
  | .lineBatteryLost => { l with lineBatteryLost := n }
  | .mainsLost => { l with mainsLost := n }
  | .batteryReserve => { l with batteryReserve := n }
  | .trackLost => { l with trackLost := n }
  | .strayRun => { l with strayRun := n }
  | .testFail => { l with testFail := n }
  | .testAborted => { l with testAborted := n }
  | .storeFault => { l with storeFault := n }
  | .ringFault => { l with ringFault := n }

/-- A raised fault at the present. -/
def raisedAt (s : State) (c : FaultClass) (source : Option Nat) (d1 d2 : Nat) : Raised :=
  ⟨c, source, some (BitVec.ofNat 32 d1), some (BitVec.ofNat 32 d2), s.now⟩

/-! ## The log and the capture record -/

/-- Where the log put a fault: its sequence (0 when not logged), whether it was logged, whether coalesced. -/
structure Stored where
  sequence  : BitVec 32
  logged    : Bool
  coalesced : Bool
deriving DecidableEq, Repr

/-- A fault coalesces into a record: same class, same source, at most 10 s after its last time (R169). -/
def coalesces (uptime : BitVec 32) (f : Raised) (r : LogRecord) : Bool :=
  decide (r.cls = f.cls) && decide (r.source = f.source) && decide ((uptime - r.lastTime).toNat ≤ 10)

/-- The record a fault was coalesced into (R169 step 1). -/
def coalesceInto (uptime : BitVec 32) (level : Nat) (f : Raised) (r : LogRecord) : LogRecord :=
  { r with
    repeats := saturate 255 (r.repeats + 1)
    lastTime := uptime
    detail1 := f.detail1
    detail2 := f.detail2
    level := max r.level level }

/-- A new record for a fault (R168, R169 step 2). -/
def newRecord (seq uptime : BitVec 32) (level : Nat) (f : Raised) : LogRecord :=
  ⟨seq, f.cls, level, f.source, uptime, uptime, f.detail1, f.detail2, 1⟩

/-- Store a fault of level 1 to 8 in the log (R169). -/
def logStore (uptime : BitVec 32) (level : Nat) (f : Raised) (u : FaultUnit) : FaultUnit × Stored :=
  let fresh (log : List LogRecord) : FaultUnit × Stored :=
    ({ u with log := log ++ [newRecord u.nextSeq uptime level f], nextSeq := u.nextSeq + 1 },
      ⟨u.nextSeq, true, false⟩)
  let store : FaultUnit × Stored :=
    if u.log.length < 32 then fresh u.log
    else
      match u.policy with
      | .keepNewest => fresh u.log.tail
      | .keepFirst => ({ u with discarded := true }, ⟨0, false, false⟩)
  match u.log.getLast? with
  | some r =>
    if coalesces uptime f r then
      ({ u with log := u.log.dropLast ++ [coalesceInto uptime level f r] }, ⟨r.sequence, true, true⟩)
    else store
  | none => store

/-- Offer a logged fault to the capture record (R172). -/
def offerCapture (uptime : BitVec 32) (level : Nat) (seq : BitVec 32) (f : Raised) (u : FaultUnit) : FaultUnit :=
  let taken : FaultUnit :=
    { u with capture := some ⟨f.cls, level, seq, uptime, f.time, f.detail1, f.detail2⟩ }
  match u.capture with
  | none => taken
  | some c => if c.level < level then taken else u

/-! ## Per-channel decisions -/

/-- The quiet period is active (R177). -/
def quietActive (u : FaultUnit) : Bool := u.quiet.isSome

/-- A soft fault of a class and level is held on a channel (R174). -/
def heldOn (u : FaultUnit) (c : FaultChannel) (cls : FaultClass) (level : Nat) : Bool :=
  c.masks.getLsbD cls.num || decide (level ≤ c.threshold) || (quietActive u && decide (level ≤ 6))

/-- The latches without the one of a class. -/
def dropLatch (cls : FaultClass) (l : List Latch) : List Latch := l.filter (fun x => decide (x.cls ≠ cls))

/-- Put a latch at its place in natural order. -/
def insertLatch (x : Latch) : List Latch → List Latch
  | [] => [x]
  | y :: rest => if x.cls.num < y.cls.num then x :: y :: rest else y :: insertLatch x rest

/-- Set a channel's latch for a class, replacing the one present (R174). -/
def setLatch (x : Latch) (c : FaultChannel) : FaultChannel :=
  { c with latches := insertLatch x (dropLatch x.cls c.latches) }

/-- Change what the fault unit keeps for a channel. -/
def updFaultChannel (c : Channel) (f : FaultChannel → FaultChannel) (s : State) : State :=
  s.updFaults (fun u => { u with channels := u.channels.set c (f (u.channels.get c)) })

/-- The FAULT notice (R175). -/
def faultNotice (cls : FaultClass) (level : Nat) (source : Option Nat) (latched notLogged coalesced : Bool)
    (t : Time) (seq : BitVec 32) : Notice :=
  ⟨.fault, level, byte cls.num,
    byte (bitOf 0 latched + bitOf 1 notLogged + bitOf 2 coalesced + 16 * source.getD 0), t, seq⟩

/-- Decide one channel for a soft fault: set its latch where held, else clear the latch of the class (R174). -/
def decideChannel (cls : FaultClass) (level : Nat) (source : Option Nat) (st : Stored) (c : Channel)
    (s : State) : State :=
  if heldOn s.faults (s.faults.channels.get c) cls level then
    updFaultChannel c (setLatch ⟨cls, st.sequence, level, source, !st.logged, st.coalesced⟩) s
  else updFaultChannel c (fun k => { k with latches := dropLatch cls k.latches }) s

/-- The channel decisions of a fault and the handing of its FAULT notice (R174). -/
def notifyFault (f : Raised) (level : Nat) (st : Stored) (s : State) : State :=
  let n := faultNotice f.cls level f.source false (!st.logged) st.coalesced f.time st.sequence
  if level = 8 then post n (fun _ => true) s
  else
    let due (c : Channel) : Bool := !heldOn s.faults (s.faults.channels.get c) f.cls level
    post n due
      (decideChannel f.cls level f.source st .gateway
        (decideChannel f.cls level f.source st .management
          (decideChannel f.cls level f.source st .modem s)))

/-- Steps 1, 3 and 4 of R156: fix the level, stop at level 0, else log, capture and notify. -/
def takeFault (f : Raised) (s : State) : State :=
  let level := levelOf s.faults.levels f.cls
  if level = 0 then s
  else
    let (u, st) := logStore s.uptime level f s.faults
    let u := if st.logged then offerCapture s.uptime level st.sequence f u else u
    notifyFault f level st (s.updFaults (fun _ => u))

/-- Raise a soft fault: taken at once, or after the event whose fault is being taken (R156). -/
def raiseFault (f : Raised) (s : State) : State :=
  if s.faults.taking then s.updFaults (fun u => { u with waiting := u.waiting ++ [f] })
  else takeFault f s

/-- Take each fault of a list in order. -/
def takeAll : List Raised → State → State
  | [], s => s
  | f :: rest, s => takeAll rest (takeFault f s)

/-- The event whose faults the fault unit was taking is finished: the faults that waited are taken (R156). -/
def finishTaking (s : State) : State :=
  takeAll s.faults.waiting (s.updFaults (fun u => { u with taking := false, waiting := [] }))

/-! ## Latch release (R176) -/

/-- Test a channel's latches in natural order, releasing each that is no longer held (R176). -/
def releaseFrom (c : Channel) : List Latch → State → State
  | [], s => s
  | x :: rest, s =>
    if heldOn s.faults (s.faults.channels.get c) x.cls x.level then releaseFrom c rest s
    else
      releaseFrom c rest
        (updFaultChannel c (fun k => { k with latches := dropLatch x.cls k.latches })
          (post (faultNotice x.cls x.level x.source true x.notLogged x.coalesced s.now x.sequence)
            (fun d => decide (d = c)) s))

/-- Release a channel's latches that are no longer held (R176). -/
def releaseLatches (c : Channel) (s : State) : State :=
  releaseFrom c (s.faults.channels.get c).latches s

/-- The quiet period ends: latches are released on every channel in order (R177). -/
def quietEnds (s : State) : State :=
  releaseLatches .gateway (releaseLatches .management (releaseLatches .modem
    (s.updFaults (fun u => { u with quiet := none }))))

end Sys2Proof.Machine
end

