-- ==== Sys2Proof/Machine/Hook.lean ====
section
/-! DEFINITION. Hook supervision (chapter 6): resting positions (R92), the loop source and its reading
(R106), the hook state machine (R109 to R111), freezing, masking and restarting (R113), the dial record
(R114), the notices (R116, R117); and the battery watch (R160) and overload timer (R99), which follow the
ports' state. -/

namespace Sys2Proof.Machine

/-! ## Resting positions and conditions (R92, R114) -/

/-- The mode whose resting positions stand: a switch's origin until its first change set is applied, its
target from then on (R92). -/
def restingMode (q : PhonePort) : PlainMode :=
  match q.mode, q.switch with
  | .lifeline, _ => .lifeline
  | .local_, _ => .local_
  | _, some w => if w.stage = .lead then w.origin else w.target
  | .toLocal, none => .lifeline
  | .toLifeline, none => .local_

/-- The resting position of a port's pass-through (R92). -/
def restingPass (s : State) (p : Port) : Contact :=
  match restingMode (s.port p) with
  | .lifeline => .closed
  | .local_ => .open_

/-- The resting position of a port's feed (R92). -/
def restingFeed (s : State) (p : Port) : Feed :=
  match restingMode (s.port p) with
  | .lifeline => .off
  | .local_ => if (s.port p).denial.isSome then .denied else .on

/-- The lifeline condition: the resting position of the pass-through is CLOSED (R114). -/
def lifelineCond (s : State) (p : Port) : Bool := decide (restingPass s p = .closed)

/-! ## The loop source (R106) -/

/-- The sources of the loop input (R106). -/
inductive LoopSource where
  | passThrough | feed | bias
deriving DecidableEq, Repr

/-- The source that the pass-through and feed positions choose (R106). The table names no source for a
closed pass-through with the feed ON or DENIED, which no command brings about: taken as none. -/
def loopSource (s : State) (p : Port) : Option LoopSource :=
  match s.relays.pass.get p, s.relays.feed.get p with
  | .closed, .off => some .passThrough
  | .open_, .on => some .feed
  | .open_, .off => some .bias
  | _, _ => none

/-- The reading of the port's present source; the pass-through sense sees no exchange loop while the
line-break is OPEN (R106). -/
def loopReading (s : State) (p : Port) : Bool :=
  match loopSource s p with
  | some .passThrough => s.pins.loopPass.get p && decide (s.relays.lineBreak = .closed)
  | some .feed | some .bias => s.pins.loopFeed.get p
  | none => false

/-! ## The battery watch (R160) and the overload timer (R99) -/

/-- No port in the lifeline condition has its hook supervisor at OFF_HOOK (R160). -/
def noLifelineCall (s : State) : Bool :=
  bothPorts.all (fun p =>
    !(portFitted s p && lifelineCond s p && decide ((s.port p).sup.state = .offHook)))

/-- The watch conditions (R160). -/
def watchConditions (s : State) : Bool :=
  s.pins.dcLow && decide (s.relays.lineBreak = .closed) && decide (s.relays.bus ≠ .exchange) &&
    noLifelineCall s && !s.faults.watch.lost

/-- The watch timer starts at the event that makes all conditions hold and stops at the event that makes
one fail (R160). -/
def judgeWatch (s : State) : State :=
  if watchConditions s then
    match s.faults.watch.started with
    | some _ => s
    | none => s.updFaults (fun u => { u with watch := { u.watch with started := some s.now } })
  else s.updFaults (fun u => { u with watch := { u.watch with started := none } })

/-- A probe of the port's denial is in progress (R99). -/
def probing (q : PhonePort) : Bool :=
  match q.denial with
  | some d =>
    match d.stage with
    | .probing _ => true
    | .waiting _ => false
  | none => false

/-- The overload timer runs, from its full 100 ms, whenever the feed stands ON, the over-limit input is
asserted and no probe is in progress (R99). -/
def judgeOverload (p : Port) (s : State) : State :=
  if portFitted s p && decide (s.relays.feed.get p = .on) && s.pins.overLimit.get p && !probing (s.port p) then
    match (s.port p).overload with
    | some _ => s
    | none => s.updPort p (fun q => { q with overload := some s.now })
  else s.updPort p (fun q => { q with overload := none })

/-! ## Timers of the supervisor (R113) -/

/-- A timer stands still with the time it has left. -/
def Timer.hold (now : Time) : Timer → Timer
  | .running due => .held (due - now)
  | t => t

/-- A timer that stood still resumes with the time it had left. -/
def Timer.resume (now : Time) : Timer → Timer
  | .held left => .running (now + left)
  | t => t

/-- A running timer has fallen due. -/
def Timer.isDue (now : Time) : Timer → Bool
  | .running due => reached now due
  | _ => false

/-- Every timer of a supervisor stands still. -/
def holdTimers (now : Time) (u : Supervisor) : Supervisor :=
  { u with
    seizeTimer := u.seizeTimer.hold now
    breakTimer := u.breakTimer.hold now
    gapTimer := u.gapTimer.hold now }

/-- Every timer of a supervisor that stood still resumes. -/
def resumeTimers (now : Time) (u : Supervisor) : Supervisor :=
  { u with
    seizeTimer := u.seizeTimer.resume now
    breakTimer := u.breakTimer.resume now
    gapTimer := u.gapTimer.resume now }

/-! ## Notices (R116, R117) -/

/-- The reasons of HOOK (R116). -/
inductive HookReason where
  | loop | trip | denied | mode | power
deriving DecidableEq, Repr

/-- HOOK reason codes 1 to 5 (R116). -/
def HookReason.code : HookReason → Nat
  | .loop => 1
  | .trip => 2
  | .denied => 3
  | .mode => 4
  | .power => 5

/-- Hand a HOOK notice (R116). -/
def hookNotice (p : Port) (offHook : Bool) (why : HookReason) (detail : Time) (s : State) : State :=
  postSubscribed (notice .hook (byte (portNum p))
    (byte (bitOf 0 offHook + bitOf 1 (lifelineCond s p) + 16 * why.code)) s.now detail) s

/-- A dial record entry's code: 0 to 9, or 0x0A for FLASH (R117, R119). -/
def DialEntry.code : DialEntry → Nat
  | .digit d => d
  | .flash => 10

/-- Hand a DIGIT notice (R117). -/
def digitNotice (p : Port) (error flash unrecorded : Bool) (value count : Nat) (s : State) : State :=
  let q := s.port p
  postSubscribed (notice .digit (byte (portNum p))
    (byte (bitOf 0 error + bitOf 1 flash + bitOf 2 unrecorded + bitOf 3 q.overflow)) s.now
    (detail4 value count q.dial.length 0)) s

/-- Record an entry in the local condition and hand its DIGIT notice (R114, R117). -/
def recordEntry (p : Port) (e : DialEntry) (count : Nat) (s : State) : State :=
  if lifelineCond s p then s
  else
    let full := decide (24 ≤ (s.port p).dial.length)
    let s := s.updPort p (fun q =>
      if full then { q with overflow := true } else { q with dial := q.dial ++ [e] })
    digitNotice p false (decide (e = .flash)) full e.code count s

/-- A digit completes (R111): with the count at 0 nothing happens. -/
def completeDigit (p : Port) (s : State) : State :=
  let n := (s.port p).sup.pulses
  if n = 0 then s
  else
    let s :=
      if n ≤ 10 then recordEntry p (.digit (n % 10)) n s
      else if lifelineCond s p then s
      else digitNotice p true false false 255 n s
    s.updSup p (fun u => { u with pulses := 0 })

/-! ## The hook state machine (R109, R110) -/

/-- The port is released (R110): HOOK, then UNPLANNED HOOK_RELEASE in the lifeline condition (R118). -/
def releasePort (p : Port) (s : State) : State :=
  let start := (s.port p).sup.breakStart
  let s := s.updSup p (fun u =>
    { u with state := .onHook, pulses := 0, gapTimer := .stopped, breakTimer := .stopped })
  let s := hookNotice p false .loop start s
  let s := if lifelineCond s p then unplanned .hookRelease (some p) 0 s else s
  judgeWatch s

/-- A loop change to PRESENT in ON_HOOK begins SEIZING (R109). -/
def beginSeizing (p : Port) (s : State) : State :=
  s.updPort p (fun q => { q with sup := { q.sup with
    state := .seizing, breakStart := s.now, seizeTimer := .running (s.now + ms q.timing.seize) } })

/-- A loop change to ABSENT in OFF_HOOK begins a break (R110). -/
def beginBreak (p : Port) (s : State) : State :=
  judgeWatch (s.updPort p (fun q => { q with sup := { q.sup with
    state := .break_, breakStart := s.now, breakTiming := q.timing,
    breakTimer := .running (s.now + ms q.timing.flashMax) } }))

/-- Back to OFF_HOOK from a break. -/
def makeAgain (p : Port) (s : State) : State :=
  judgeWatch (s.updSup p (fun u => { u with state := .offHook, breakTimer := .stopped }))

/-- A loop change ends a break, judged by its length (R110). -/
def endBreak (p : Port) (s : State) : State :=
  let u := (s.port p).sup
  let b := (s.now - u.breakStart).toNat
  if b < u.breakTiming.glitch * 1000 then makeAgain p s
  else if b ≤ u.breakTiming.pulseMax * 1000 then
    makeAgain p (s.updPort p (fun q => { q with sup := { q.sup with
      pulses := saturate 255 (q.sup.pulses + 1), gapTimer := .running (s.now + ms q.timing.digitGap) } }))
  else if b < u.breakTiming.flashMax * 1000 then
    let s := if 0 < u.pulses then (completeDigit p s).updSup p (fun u => { u with gapTimer := .stopped }) else s
    makeAgain p (recordEntry p .flash 0 s)
  else beginSeizing p (releasePort p s)

/-- The supervisor takes a loop change: a HOOK window while the pass-through stands CLOSED (R118), then the
change of state (R109, R110). -/
def takeLoop (p : Port) (present : Bool) (s : State) : State :=
  let s := s.updSup p (fun u => { u with loop := present })
  let s :=
    if s.relays.pass.get p = .closed then handWindow .hook (some p) none s.now (some 30) s else s
  match (s.port p).sup.state, present with
  | .onHook, true => beginSeizing p s
  | .seizing, false => s.updSup p (fun u => { u with state := .onHook, seizeTimer := .stopped })
  | .offHook, false => beginBreak p s
  | .break_, true => endBreak p s
  | _, _ => s

/-- The supervisor takes loop changes: the port is fitted, and it is neither frozen nor masked (R109, R113). -/
def listening (s : State) (p : Port) : Bool :=
  portFitted s p && (s.port p).sup.frozen.isNone && !(s.port p).sup.masked

/-- Compare the source's reading with the loop field; a difference is a loop change at the present (R106). -/
def senseLoop (p : Port) (s : State) : State :=
  if listening s p && (loopSource s p).isSome && decide (loopReading s p ≠ (s.port p).sup.loop) then
    takeLoop p (loopReading s p) s
  else s

/-! ## Freezing, restarting, masking (R113) -/

/-- Freeze the supervisor where it stands; one already frozen stays as it was frozen (R96, R113). -/
def freeze (p : Port) (s : State) : State :=
  s.updSup p (fun u =>
    match u.frozen with
    | some _ => u
    | none => { holdTimers s.now u with frozen := some u.state })

/-- The state before any freezing (R116). -/
def stateBeforeFreezing (u : Supervisor) : HookState := u.frozen.getD u.state

/-- OFF_HOOK or BREAK. -/
def inCall : HookState → Bool
  | .offHook | .break_ => true
  | _ => false

/-- Steps 1 and 2 of a restart: ON_HOOK, timers stopped, pulse count 0, neither frozen nor masked (R113). -/
def restartQuiet (p : Port) (s : State) : State :=
  s.updSup p (fun u =>
    { u with
      state := .onHook, loop := false, frozen := none, masked := false, seizeTimer := .stopped,
      breakTimer := .stopped, pulses := 0, gapTimer := .stopped })

/-- Restart a supervisor, handing the HOOK notice due for the restart between its steps 2 and 3, then take
the loop input as it stands (R98, R103, R113). -/
def restart (p : Port) (why : Option HookReason) (s : State) : State :=
  let due := inCall (stateBeforeFreezing (s.port p).sup)
  let s := restartQuiet p s
  let s := match why with
    | some r => if due then hookNotice p false r 0 s else s
    | none => s
  senseLoop p (judgeWatch s)

/-- Mask the supervisor for a ring burst (R113, R125). -/
def mask (p : Port) (s : State) : State :=
  s.updSup p (fun u => { holdTimers s.now u with masked := true })

/-- Unmask the supervisor: its timers resume and the loop input is taken as it stands; one that is frozen
stays frozen (R113), and reads masked NO from here on (the model's choice, log entry 36). -/
def unmask (p : Port) (s : State) : State :=
  if (s.port p).sup.masked then
    if (s.port p).sup.frozen.isSome then s.updSup p (fun u => { u with masked := false })
    else senseLoop p (s.updSup p (fun u => { resumeTimers s.now u with masked := false }))
  else s

end Sys2Proof.Machine
end

