-- ==== Sys2Proof/Machine/Slots.lean ====
section
/-! DEFINITION. The disturbance slots: opening a record with its DISTURB, activating it, and ending or
cancelling it with its DISTURB_DONE (R48 to R54). The owners' work at activation is in Activation.lean. -/

namespace Sys2Proof.Machine

/-- Kind codes of DISTURB: 1 RING_SESSION, 2 MODE_SWITCH, 3 DSL_SWITCH, 4 TEST_CONNECT (R50). -/
def WorkKind.code : WorkKind → Nat
  | .ringSession => 1
  | .modeSwitch => 2
  | .dslSwitch => 3
  | .testConnect => 4

/-- The record in a slot. -/
def slotRec (s : State) (i : SlotId) : Option Disturbance := s.sched.slots.get i

/-- Put a record into a slot, or empty it. -/
def setSlot (i : SlotId) (d : Option Disturbance) (s : State) : State :=
  s.updSched (fun k => { k with slots := k.slots.set i d })

/-- An occupied slot holds this id. -/
def idTaken (s : State) (id : Byte) : Bool :=
  allSlots.any (fun i => decide ((slotRec s i).map (·.id) = some id))

/-- The first value counting upward from `id` that no occupied slot holds, in `n` tries (R48). -/
def freeId (s : State) (id : Byte) : Nat → Byte
  | 0 => id
  | n + 1 => if idTaken s id then freeId s (id + 1) n else id

/-- The lead deadline of a record not yet active. -/
def leadDeadline (d : Disturbance) : Option Time :=
  match d.state with
  | .notified t | .deferred t => some t
  | .active _ => none

/-- A record is ACTIVE. -/
def isActive (d : Disturbance) : Bool :=
  match d.state with
  | .active _ => true
  | _ => false

/-- The expected duration of a record in ms, saturating at 65 535; 0 when absent (R50). -/
def durationField (d : Option Nat) : Nat := saturate 65535 (d.getD 0)

/-- The DISTURB notice of a record (R50). -/
def disturbNotice (now : Time) (lead : Nat) (d : Disturbance) : Notice :=
  notice .disturb d.id
    (byte (d.work.code + 16 * optPort d.port + bitOf 6 d.duration.isNone + bitOf 7 d.deferrable)) now
    (BitVec.ofNat 16 (durationField d.duration) ++ BitVec.ofNat 16 lead)

/-- Open a slot (R49): none is the answer occupied; otherwise the record is made, DISTURB is handed, the
record becomes ACTIVE at once where the lead is 0, and the answer is the id. -/
def openSlot (i : SlotId) (work : WorkKind) (p : Option Port) (duration : Option Nat) (deferrable : Bool)
    (s : State) : Option (State × Byte) :=
  match slotRec s i with
  | some _ => none
  | none =>
    let id := freeId s s.sched.nextId 4
    let lead := s.sched.lead
    let d : Disturbance := ⟨id, work, p, .notified (s.now + ms lead), duration, deferrable⟩
    let s := (setSlot i (some d) s).updSched (fun k => { k with nextId := id + 1 })
    let s := postSubscribed (disturbNotice s.now lead d) s
    if lead = 0 then some (setSlot i (some { d with state := .active s.now }) s, id) else some (s, id)

/-- A slot holds an ACTIVE record. -/
def slotActive (s : State) (i : SlotId) : Bool :=
  match slotRec s i with
  | some d => isActive d
  | none => false

/-- Why a record ended (R54). -/
inductive EndReason where
  | completed | cancelled
deriving DecidableEq, Repr

/-- Reason codes 1 COMPLETED, 2 CANCELLED (R54). -/
def EndReason.code : EndReason → Nat
  | .completed => 1
  | .cancelled => 2

/-- The time from activated at to the end in ms, rounded up and saturating; 0 for CANCELLED (R54). -/
def activeMs (now : Time) (d : Disturbance) : Nat :=
  match d.state with
  | .active t => saturate 65535 (ceilDiv (now - t).toNat 1000)
  | _ => 0

/-- The DISTURB_DONE notice (R54). -/
def doneNotice (now : Time) (why : EndReason) (d : Disturbance) : Notice :=
  notice .disturbDone d.id (byte why.code) now
    (BitVec.ofNat 16 (activeMs now d) ++ (byte (optPort d.port) ++ byte d.work.code))

/-- The owner's `end`: COMPLETED for an ACTIVE record, CANCELLED for one whose work never started; an empty
slot stays as it is (R54). -/
def endSlot (i : SlotId) (s : State) : State :=
  match slotRec s i with
  | some d =>
    let why := if isActive d then EndReason.completed else EndReason.cancelled
    postSubscribed (doneNotice s.now why d) (setSlot i none s)
  | none => s

/-- The owner's `cancel`: none is the answer already active (R54). -/
def cancelSlot (i : SlotId) (s : State) : Option State :=
  if slotActive s i then none else some (endSlot i s)

/-- The slot whose record has this id (R51, R52). -/
def slotWithId (s : State) (id : Byte) : Option SlotId :=
  allSlots.find? (fun i => decide ((slotRec s i).map (·.id) = some id))

/-- The record becomes ACTIVE: activated at is the present, and its lead timer no longer runs (R53). -/
def markActive (i : SlotId) (s : State) : State :=
  match slotRec s i with
  | some d => setSlot i (some { d with state := .active s.now }) s
  | none => s

end Sys2Proof.Machine
end

