-- ==== Sys2Proof/Machine/RelaySet.lean ====
section
/-! DEFINITION. The relay set: applying a change set on the slot path under R44 (R41 to R44), with what
its application does at the ports (R92, R99, R102, R106) and at the battery watch (R160); the settle (R42);
and the reserve fallback (R46). -/

namespace Sys2Proof.Machine

/-- A change set on the slot path: the members it names and their positions (R42, R43). -/
structure Change where
  pass : PerPort (Option Contact)
  feed : PerPort (Option Feed)
  dsl  : Option Coupling
  bus  : Option Bus
deriving DecidableEq, Repr

/-- The change set that names nothing. -/
def noChange : Change := ⟨⟨none, none⟩, ⟨none, none⟩, none, none⟩

/-- A change set that moves the test bus to EXCHANGE also sets both pass-throughs OPEN and the DSL path
DECOUPLED (R44). -/
def widen (c : Change) : Change :=
  if c.bus = some .exchange then { c with pass := ⟨some .open_, some .open_⟩, dsl := some .decoupled } else c

/-- A change set that leaves the test bus at EXCHANGE and would close a pass-through or couple the DSL path
is not applied (R44). -/
def refusedByBus (r : Relays) (c : Change) : Bool :=
  decide (r.bus = .exchange) && c.bus.isNone &&
    (decide (c.pass.p1 = some .closed) || decide (c.pass.p2 = some .closed) || decide (c.dsl = some .coupled))

/-- The positions after a change set: every member named takes its new position (R42). -/
def moveRelays (r : Relays) (c : Change) : Relays where
  lineBreak := r.lineBreak
  pass := ⟨c.pass.p1.getD r.pass.p1, c.pass.p2.getD r.pass.p2⟩
  feed := ⟨c.feed.p1.getD r.feed.p1, c.feed.p2.getD r.feed.p2⟩
  dsl := c.dsl.getD r.dsl
  bus := c.bus.getD r.bus

/-- Start a change set's 20 ms settle (R42). -/
def startSettle (a : Asker) (s : State) : State := s.setSettles (s.settles ++ [⟨a, s.now + ms 20⟩])

/-- Forget the settles of an asker. -/
def dropSettle (a : Asker) (s : State) : State := s.setSettles (s.settles.filter (fun x => decide (x.asker ≠ a)))

/-- End a denial of the port and stop its timers (R102). -/
def endDenial (p : Port) (s : State) : State :=
  s.updPort p (fun q => { q with denial := none, overload := none })

/-- A change set that names the port's feed OFF ends its denial at the application (R102). -/
def endDenialByFeed (c : Change) (p : Port) (s : State) : State :=
  if c.feed.get p = some .off then endDenial p s else s

/-- The lifeline-suspended flag at an application (R92): NO where the pass-through closes; YES where the
test bus stands at EXCHANGE over a CLOSED resting position, by this change set's bus or by the port's own
break change set. -/
def judgeSuspended (c : Change) (a : Asker) (p : Port) (s : State) : State :=
  if c.pass.get p = some .closed then s.updPort p (fun q => { q with suspended := false })
  else if portFitted s p && decide (s.relays.bus = .exchange) && lifelineCond s p &&
      (decide (c.bus = some .exchange) || decide (a = .modeSwitch p)) then
    s.updPort p (fun q => { q with suspended := true })
  else s

/-- What an application does at one port: its denial, its suspension, its overload timer and its loop
source (R102, R92, R99, R106). -/
def portAfterChange (c : Change) (a : Asker) (p : Port) (s : State) : State :=
  senseLoop p (judgeOverload p (judgeSuspended c a p (endDenialByFeed c p s)))

/-- Apply a change set on the slot path (R42 to R44): none where the test bus refuses it; otherwise the
members move, the settle starts, the RELAY window opens, and the ports and the battery watch follow. That order,
port 1 before port 2, is the model's choice for windows of equal start (log entry 35). -/
def applyChange (c : Change) (a : Asker) (id : Byte) (s : State) : Option State :=
  let c := widen c
  if refusedByBus s.relays c then none
  else
    let s := startSettle a (s.setRelays (moveRelays s.relays c))
    let s := handWindow .relay none (some id) s.now (some 70) s
    some (judgeWatch (portAfterChange c a .p2 (portAfterChange c a .p1 s)))

/-- Put the feed driver to a position at once, with no settle (R41). -/
def driveFeed (p : Port) (f : Feed) (s : State) : State :=
  s.setRelays { s.relays with feed := s.relays.feed.set p f }

/-- Take the first due settle of an asker out of the list. -/
def takeSettle (now : Time) (a : Asker) : List Settle → Option (List Settle)
  | [] => none
  | x :: rest =>
    if x.asker = a && reached now x.due then some rest else (takeSettle now a rest).map (fun r => x :: r)

/-- The reserve fallback at the relay set (R46): every member but the line-break takes its unpowered
default, every settle is overtaken, a RELAY window of absent id opens (R59), and each supervisor that is neither
frozen nor masked takes its new loop source (R106). That a port in another mode than LIFELINE takes it too, before its
controller restarts it (R103), is the model's choice (log entry 46), and so is port 1 before port 2, an order that no
rule gives (log entry 41). -/
def fallbackRelays (s : State) : State :=
  let s := (s.setRelays (defaultRelays s.relays.lineBreak)).setSettles []
  let s := handWindow .relay none none s.now (some 70) s
  judgeWatch (senseLoop .p2 (senseLoop .p1 s))

end Sys2Proof.Machine
end

