-- ==== Sys2Proof/Machine/Ringing.lean ====
section
/-! DEFINITION. The ring unit: bursts and the generator arbiter (R125, R126), the phase steps (R124), trip
and fault timers (R127, R128), the ending of a session (R129), and the exchange ring record (R131, R132). -/

namespace Sys2Proof.Machine

/-- A port's ring session; none while its ring record is IDLE. -/
def session (s : State) (p : Port) : Option RingSession := s.ring.sessions.get p

/-- Put a session in a port's ring record, or make it IDLE. -/
def setSession (p : Port) (x : Option RingSession) (s : State) : State :=
  s.updRing (fun r => { r with sessions := r.sessions.set p x })

/-- Change a port's session, if it has one. -/
def updSession (p : Port) (f : RingSession → RingSession) (s : State) : State :=
  setSession p ((session s p).map f) s

/-- A port's ring record is in BURST. -/
def inBurst (s : State) (p : Port) : Bool :=
  match session s p with
  | some x =>
    match x.state with
    | .burst _ => true
    | _ => false
  | none => false

/-- The sum of the on and off times of a cadence's steps in ms (R120). -/
def cycleLength : List CadenceStep → Nat
  | [] => 0
  | c :: rest => c.on + c.off + cycleLength rest

/-- The step in progress; step indexes count from 1 (R122). -/
def currentStep (x : RingSession) : CadenceStep := x.steps.getD (x.stepIndex - 1) ⟨0, 0⟩

/-! ## Trip and fault timers (R127, R128) -/

/-- The trip timer runs for its full 40 ms while the port is in BURST and its ring-trip input is
asserted (R127). -/
def judgeTrip (p : Port) (s : State) : State :=
  updSession p (fun x =>
    if inBurst s p && s.pins.ringTrip.get p then
      match x.tripDue with
      | some _ => x
      | none => { x with tripDue := some (s.now + ms 40) }
    else { x with tripDue := none }) s

/-- The ring fault timer runs for its full 200 ms while the over-limit input is asserted and a port is in
BURST (R128). -/
def judgeRingFault (s : State) : State :=
  if s.pins.ringOver && (inBurst s .p1 || inBurst s .p2) then
    match s.ring.faultDue with
    | some _ => s
    | none => s.updRing (fun r => { r with faultDue := some (s.now + ms 200) })
  else s.updRing (fun r => { r with faultDue := none })

/-! ## Bursts (R125) -/

/-- A burst starts: generator, mask, RING_BURST window, phase timer (R125). -/
def startBurst (p : Port) (x : RingSession) (s : State) : State :=
  let s := setSession p (some { x with
    state := .burst s.now, phaseDue := some (s.now + ms (currentStep x).on) }) s
  let s := mask p (s.updRing (fun r => { r with generator := r.generator.set p true }))
  let s := handWindow .ringBurst (some p) (some x.id) s.now none s
  judgeRingFault (judgeTrip p s)

/-- An on time passes without a burst (R125); no trip timer runs outside one (R127). -/
def skipBurst (p : Port) (x : RingSession) (s : State) : State :=
  setSession p (some { x with
    state := .silent true, skipped := saturate 255 (x.skipped + 1),
    phaseDue := some (s.now + ms (currentStep x).on), tripDue := none }) s

/-- An on time of the port falls due at the present instant but has not been taken yet: an off time that is
not the session's last ends now, or its record's lead does (R124, R125). -/
def onTimeDueNow (s : State) (p : Port) : Bool :=
  match session s p with
  | some x =>
    match x.state with
    | .silent false =>
      timerDue s.now x.phaseDue && !(decide (x.stepIndex = x.steps.length) && decide (x.cyclesLeft = some 1))
    | .notifying =>
      match slotRec s (portSlot p) with
      | some d => decide (d.work = .ringSession) && timerDue s.now (leadDeadline d)
      | none => false
    | _ => false
  | none => false

/-- The generator arbiter lets a burst start (R125): always on MAINS; otherwise only while the other port is
not in BURST, and, for port 2, while port 1's on time does not fall due at the same instant. -/
def burstAllowed (s : State) (p : Port) : Bool :=
  match s.power.state with
  | .mains => true
  | _ => !inBurst s (otherPort p) && !(decide (p = .p2) && onTimeDueNow s .p1)

/-- A burst ends (R125): the generator drops the port, its window closes, the supervisor is unmasked and
the trip timer stops. The port's next state, given here, is the caller's. -/
def endBurst (p : Port) (next : RingState) (s : State) : State :=
  let s := updSession p (fun x => { x with state := next, tripDue := none }) s
  let s := s.updRing (fun r => { r with generator := r.generator.set p false })
  let s := closeWindow (.ringBurst p) s.now s
  judgeRingFault (unmask p s)

/-- When a port's present burst began. -/
def burstBegan (s : State) (p : Port) : Option Time :=
  match session s p with
  | some x =>
    match x.state with
    | .burst t => some t
    | _ => none
  | none => none

/-- Cut a burst: it ends, and the rest of its on time passes silently, as a skipped one (R126). -/
def cutBurst (p : Port) (s : State) : State :=
  updSession p (fun x => { x with skipped := saturate 255 (x.skipped + 1) }) (endBurst p (.silent true) s)

/-- Port 2's burst began at this very instant, so port 1's on time falls due together with port 2's (R125). One begun
on MAINS, from which the power has fallen to BATTERY since at the same instant, counts as well: that is the model's
choice (log entry 49). -/
def beganTogether (s : State) (p : Port) : Bool := decide (p = .p1 ∧ burstBegan s .p2 = some s.now)

/-- An on time falls due (R125). Where a burst of port 2 was started at the same instant, before port 1's on time
could be seen to fall due, port 1 still gets the burst: port 2's is cut and counts as skipped (log entry 22). -/
def onTime (p : Port) (s : State) : State :=
  match session s p with
  | some x =>
    if burstAllowed s p then startBurst p x s
    else if beganTogether s p then startBurst p x (cutBurst .p2 s)
    else skipBurst p x s
  | none => s

/-! ## Ending a session (R129) -/

/-- The reasons of RING_END (R129). -/
inductive RingReason where
  | completed | stopped | answered | holdLost | mode | power | fault | thermal
deriving DecidableEq, Repr

/-- Reason codes 1 to 8 (R129). -/
def RingReason.code : RingReason → Nat
  | .completed => 1
  | .stopped => 2
  | .answered => 3
  | .holdLost => 4
  | .mode => 5
  | .power => 6
  | .fault => 7
  | .thermal => 8

/-- End a port's session (R129): the burst is ended, the phase timer stops, the disturbance record ends,
RING_END is handed and the record becomes IDLE. `cause` is the fault cause, 0 but for FAULT. -/
def endSession (p : Port) (why : RingReason) (cause : Nat) (s : State) : State :=
  match session s p with
  | none => s
  | some x =>
    let s := if inBurst s p then endBurst p (.silent false) s else s
    let s := updSession p (fun y => { y with phaseDue := none }) s
    let s := endSlot (portSlot p) s
    let s := postCompletion (notice .ringEnd (byte (portNum p)) (byte why.code) s.now
      (detail4 x.cyclesDone x.skipped x.id.toNat cause)) x.issuer s
    setSession p none s

/-- Hand ANSWERED and end the session; the flags are 1 TRIP, 2 SEIZE (R127). -/
def answerSession (p : Port) (flags : Nat) (s : State) : State :=
  match session s p with
  | none => s
  | some x =>
    endSession p .answered 0 (postCompletion (notice .answered (byte (portNum p)) (byte flags) s.now
      (detail4 x.cyclesDone x.stepIndex x.id.toNat 0)) x.issuer s)

/-- Every session ends with a reason at one event (R129, R159, R180): port 1's before port 2's, an order that no rule
gives (the model's choice, log entry 42). -/
def endAllSessions (why : RingReason) (s : State) : State := endSession .p2 why 0 (endSession .p1 why 0 s)

/-- The number of sessions that stand. -/
def sessionCount (s : State) : Nat :=
  (if (session s .p1).isSome then 1 else 0) + (if (session s .p2).isSome then 1 else 0)

/-! ## Phases (R124) -/

/-- The end of an on time, burst or skipped: the step's off time begins (R124). -/
def onTimeEnds (p : Port) (s : State) : State :=
  let s := if inBurst s p then endBurst p (.silent false) s else s
  updSession p (fun x =>
    { x with state := .silent false, phaseDue := some (s.now + ms (currentStep x).off) }) s

/-- The end of an off time: the next step, the next cycle, or the session's completion (R124). -/
def offTimeEnds (p : Port) (x : RingSession) (s : State) : State :=
  if x.stepIndex < x.steps.length then
    onTime p (updSession p (fun y => { y with stepIndex := y.stepIndex + 1 }) s)
  else
    let left := x.cyclesLeft.map (fun n => n - 1)
    let s := updSession p (fun y => { y with cyclesDone := saturate 255 (y.cyclesDone + 1), cyclesLeft := left }) s
    if left = some 0 then endSession p .completed 0 s
    else onTime p (updSession p (fun y => { y with stepIndex := 1 }) s)

/-- The phase timer expires (R124). -/
def phaseEnds (p : Port) (s : State) : State :=
  match session s p with
  | some x =>
    match x.state with
    | .notifying => s
    | .burst _ => onTimeEnds p s
    | .silent true => onTimeEnds p s
    | .silent false => offTimeEnds p x s
  | none => s

/-! ## Power changes (R126) -/

/-- A change from MAINS to BATTERY with both ports in BURST cuts the one that began later, or port 2's
where both began together (R126). -/
def batteryCut (s : State) : State :=
  match burstBegan s .p1, burstBegan s .p2 with
  | some t1, some t2 => if offset s.now t2 < offset s.now t1 then cutBurst .p1 s else cutBurst .p2 s
  | _, _ => s

/-! ## Exchange ringing (R131, R132) -/

/-- Change the exchange ring record. -/
def updExchange (f : ExchangeRing → ExchangeRing) (s : State) : State :=
  s.updRing (fun r => { r with exchange := f r.exchange })

/-- Steps 1 to 4 of an onset (R131). -/
def onsetRecord (s : State) : State :=
  let s := updExchange (fun x =>
    { x with ringing := true, burstOn := true, gapDue := none, bursts := saturate 255 (x.bursts + 1) }) s
  let s := handWindow .exchangeBurst none none s.now none s
  let s := unplanned .exchangeBurst none s.ring.exchange.bursts s
  let x := s.ring.exchange
  if x.every = 0 then s
  else if x.count + 1 = x.every then
    updExchange (fun x => { x with count := 0 })
      (postSubscribed (notice .exchangeRings (byte x.bursts) (byte x.every) s.now 0) s)
  else updExchange (fun x => { x with count := x.count + 1 }) s

/-- An offset (R131). -/
def offsetRecord (s : State) : State :=
  let s := closeWindow .exchangeBurst s.now (updExchange (fun x => { x with burstOn := false }) s)
  if s.ring.exchange.ringing then updExchange (fun x => { x with gapDue := some (s.now + ms 8000) }) s else s

/-- The call ends (R132): reason 1 UNANSWERED, 2 ANSWERED_HOME with the port. -/
def endCall (why : Nat) (p : Option Port) (s : State) : State :=
  let s := updExchange (fun x => { x with gapDue := none, ringing := false }) s
  let s := postSubscribed (notice .exchangeCallEnd (byte s.ring.exchange.bursts) (byte why) s.now
    (detailByte8 .exchangeCallEnd s.now (optPort p))) s
  updExchange (fun x => { x with bursts := 0, count := 0 }) s

end Sys2Proof.Machine
end

