-- ==== Sys2Proof/Machine/Holds.lean ====
section
/-! DEFINITION. The claim queue and the making of holds: queue order (R29), the grant to the first entry
(R30), the notices (R34), and the gated grant and release (R38). -/

namespace Sys2Proof.Machine

/-- A function's descriptor table entry. -/
def funcRec (s : State) (f : Func) : FuncRec := s.lines.table.get f

/-- Change a function's descriptor table entry. -/
def updFunc (f : Func) (g : FuncRec → FuncRec) (s : State) : State :=
  s.updLines (fun l => { l with table := l.table.set f (g (l.table.get f)) })

/-- Make a hold record (R24): granted at is the present uptime. -/
def makeHold (f : Func) (c : Channel) (level : Nat) (gate : Option Nat) (s : State) : State :=
  updFunc f (fun r => { r with hold := some ⟨c, level, s.uptime, gate⟩ }) s

/-- Remove a hold record. -/
def removeHold (f : Func) (s : State) : State := updFunc f (fun r => { r with hold := none }) s

/-- Put a claim at its place in queue order: lower level first, then arrival (R29). -/
def insertClaim (e : ClaimEntry) : List ClaimEntry → List ClaimEntry
  | [] => [e]
  | x :: rest => if e.level < x.level then e :: x :: rest else x :: insertClaim e rest

/-- The claim queue. -/
def setClaims (q : List ClaimEntry) (s : State) : State := s.updLines (fun l => { l with claims := q })

/-- The entry of a channel for a function (R25 check 8). -/
def isClaim (c : Channel) (f : Func) (e : ClaimEntry) : Bool :=
  decide (e.channel = c) && decide (e.function = f)

/-- A channel's entry for a function leaves the queue. -/
def dropClaim (c : Channel) (f : Func) (s : State) : State :=
  setClaims (s.lines.claims.filter (fun e => !isClaim c f e)) s

/-- The place of an entry in queue order, counting from 1; 0 if there is none (R36). -/
def claimPosition (c : Channel) (f : Func) (q : List ClaimEntry) : Nat :=
  match q.findIdx? (isClaim c f) with
  | some n => n + 1
  | none => 0

/-- Hand CLAIM_GRANTED (R34). -/
def grantedNotice (f : Func) (e : ClaimEntry) (s : State) : State :=
  postCompletion (notice .claimGranted (byte (funcNum f)) 0 s.now (detail4 e.level 0 0 0)) e.channel s

/-- Hand CLAIM_EXPIRED: reason 1 TIMEOUT, 2 PRIVILEGE with the new descriptor level (R34). -/
def expiredNotice (e : ClaimEntry) (why newLevel : Nat) (s : State) : State :=
  postCompletion (notice .claimExpired (byte (funcNum e.function)) (byte why) s.now
    (detail4 e.level newLevel 0 0)) e.channel s

/-- Hand HOLD_REVOKED: reason 1 SEIZED with the seizing channel, 2 TIGHTENED with the new level (R34). -/
def revokedNotice (f : Func) (h : Hold) (why value : Nat) (s : State) : State :=
  postCompletion (notice .holdRevoked (byte (funcNum f)) (byte why) s.now (detail4 h.level value 0 0)) h.holder s

/-- A released function is granted to the first entry for it, if the queue holds one (R30). -/
def grantNext (f : Func) (s : State) : State :=
  match s.lines.claims.find? (fun e => decide (e.function = f)) with
  | some e => grantedNotice f e (makeHold f e.channel e.level none (dropClaim e.channel f s))
  | none => s

/-- The port of a port function. -/
def funcPort : Func → Option Port
  | .port1 => some .p1
  | .port2 => some .p2
  | _ => none

/-- A ring session on the function's port, issued by the holder that lost it, ends with HOLD_LOST (R33). -/
def ringLosesHold (f : Func) (holder : Channel) (s : State) : State :=
  match funcPort f with
  | some p =>
    match session s p with
    | some x => if x.issuer = holder then endSession p .holdLost 0 s else s
    | none => s
  | none => s

/-- The answers to a gated grant (R38). -/
inductive GrantAnswer where
  | granted | held | privilege | busy
deriving DecidableEq, Repr

/-- Ask for a gated grant (R38). -/
def gatedGrant (f : Func) (c : Channel) (level gate : Nat) (s : State) : State × GrantAnswer :=
  match (funcRec s f).hold with
  | none =>
    if level ≤ (funcRec s f).level then (makeHold f c level (some gate) s, .granted) else (s, .privilege)
  | some h => if h.holder = c then (s, .held) else (s, .busy)

/-- The gated release: the record is removed if it still names the channel and the gate, its other work is
treated as R33 states, and the function passes on (R38). -/
def gatedRelease (f : Func) (c : Channel) (gate : Nat) (s : State) : State :=
  match (funcRec s f).hold with
  | some h =>
    if h.holder = c && decide (h.viaGate = some gate) then
      grantNext f (ringLosesHold f c (removeHold f s))
    else s
  | none => s

end Sys2Proof.Machine
end

