-- ==== Sys2Proof/Machine/LineTest.lean ====
section
/-! DEFINITION. The line test engine's phases: connecting (R141), the end of MEASURE (R143), the release
(R144), the end of a test (R145) and its aborts (R146 to R148). -/

namespace Sys2Proof.Machine

/-- Change the current test record, if there is one. -/
def updTest (f : Test → Test) (s : State) : State := s.updEngine (fun e => { e with test := e.test.map f })

/-- Stop both engine timers. -/
def stopTestTimers (s : State) : State := s.updEngine (fun e => { e with wallDue := none, cleanDue := none })

/-- Abort reason codes 1 to 7 (R146). -/
def AbortReason.code : AbortReason → Nat
  | .requested => 1
  | .hookAbort => 2
  | .ringAbort => 3
  | .faultAbort => 4
  | .holdLost => 5
  | .requesterReset => 6
  | .powerAbort => 7

/-- Phase codes: 0 IDLE, 1 NOTIFY, 2 CONNECT, 3 MEASURE, 4 RELEASE (R138). -/
def phaseCode (t : Option Test) : Nat :=
  match t with
  | none => 0
  | some x =>
    match x.phase with
    | .notify => 1
    | .connect => 2
    | .measure => 3
    | .release => 4

/-- Outcome codes 0 to 4 (R145). -/
def TestOutcome.code : TestOutcome → Nat
  | .pass => 0
  | .fail => 1
  | .noVerdict => 2
  | .noisy => 3
  | .aborted => 4

/-! ## Connect and release (R141, R144) -/

/-- The pass-through of a port in LIFELINE or TO_LIFELINE is opened by an exchange test (R141). -/
def connectPass (s : State) (p : Port) : Option Contact :=
  match (s.port p).mode with
  | .lifeline | .toLifeline => some .open_
  | _ => none

/-- The connect change set of a target (R141). -/
def connectChange (s : State) (t : Target) : Change :=
  match t with
  | .exchange =>
    { noChange with bus := some .exchange, dsl := some .decoupled, pass := ⟨connectPass s .p1, connectPass s .p2⟩ }
  | .home p =>
    { noChange with
      pass := noChange.pass.set p (some .open_)
      feed := noChange.feed.set p (some .off)
      bus := some (.home p) }

/-- The pass-through position a release gives a port; an unfitted port's goes to CLOSED (R144). -/
def releasePass (s : State) (p : Port) : Contact := if portFitted s p then restingPass s p else .closed

/-- The release change set of a test (R144). -/
def releaseChange (s : State) (t : Test) : Change :=
  match t.target with
  | .exchange =>
    { noChange with
      bus := some .disconnected, dsl := t.preTest,
      pass := ⟨some (releasePass s .p1), some (releasePass s .p2)⟩ }
  | .home p =>
    { noChange with
      bus := some .disconnected
      pass := noChange.pass.set p (some (restingPass s p))
      feed := noChange.feed.set p (some (restingFeed s p)) }

/-- Apply a test's release change set for an asker; it moves the test bus away from EXCHANGE, so the bus
never refuses it (R44, R144). -/
def applyRelease (a : Asker) (t : Test) (s : State) : State :=
  match applyChange (releaseChange s t) a t.id s with
  | some s' => s'
  | none => s

/-- The engine enters RELEASE (R144). -/
def enterRelease (s : State) : State :=
  match s.engine.test with
  | some t => applyRelease .testRelease t (updTest (fun t => { t with phase := .release }) s)
  | none => s

/-- The test's record is ACTIVE: CONNECT, the pre-test coupling, the TEST window and the connect change
set (R141). A TEST window still open under a detached release is closed by this hand-in (R60, R148). -/
def connectTest (s : State) : State :=
  match s.engine.test with
  | some t =>
    if t.phase = .notify then
      let pre := match t.target with
        | .exchange => some s.relays.dsl
        | .home _ => none
      let s := updTest (fun t => { t with phase := .connect, preTest := pre }) s
      let s := handWindow .test (targetPort t.target) (some t.id) s.now none s
      let s := s.updEngine (fun e => { e with detached := e.detached.map (fun _ => ⟨false⟩) })
      match applyChange (connectChange s t.target) .testConnect t.id s with
      | some s' => s'
      | none => s
    else s
  | none => s

/-- The connect change set completes: S, MEASURE, the wall timer and the first reading (R141, R142). -/
def startMeasure (s : State) : State :=
  match s.engine.test with
  | some t =>
    if t.phase = .connect then
      reading ((updTest (fun t => { t with phase := .measure, start := some s.now }) s).updEngine
        (fun e => { e with wallDue := some (s.now + us (2 * t.kind.measureUs)) }))
    else s
  | none => s

/-! ## The end of a test (R145) -/

/-- A limit's verdict on a measurement (R145). -/
def verdictOf (limits : List Limit) (m : Measurement) : Option Verdict :=
  match limits.find? (fun l => decide (l.number = m.number)) with
  | some l => some (if l.low ≤ m.value ∧ m.value ≤ l.high then .pass else .fail)
  | none => none

/-- The measurements with their verdicts (R145). -/
def judged (limits : List Limit) (ms : List Measurement) : List Measurement :=
  ms.map (fun m => { m with verdict := verdictOf limits m })

/-- The outcome of a test (R145 step 1). -/
def outcomeOf (t : Test) : TestOutcome :=
  match t.abort, t.values with
  | some _, _ => .aborted
  | none, none => .noisy
  | none, some ms =>
    if t.limits = [] then .noVerdict
    else if (judged t.limits ms).any (fun m => decide (m.verdict = some .fail)) then .fail
    else .pass

/-- The measurements a result record lists: none for NOISY and ABORTED (R145 step 2). -/
def listedMeasurements (t : Test) : List Measurement :=
  match t.abort, t.values with
  | none, some ms => judged t.limits ms
  | _, _ => []

/-- The result record of a test at its end (R145 step 2). -/
def resultOf (t : Test) (now : Time) : TestResult :=
  ⟨t.kind, t.target, t.requester, t.viaGate, t.forced, outcomeOf t, t.abort, listedMeasurements t, t.clean, now⟩

/-- The TEST_DONE notice (R145). -/
def testDone (t : Test) (now : Time) : Notice :=
  notice .testDone (byte t.kind.code)
    (byte ((outcomeOf t).code + 16 * targetCode t.target + bitOf 6 t.short + bitOf 7 t.viaGate.isSome)) now
    (t.id ++ (byte ((t.abort.map AbortReason.code).getD 0) ++ BitVec.ofNat 16 (t.clean / 1000)))

/-- Raise TEST_FAIL for the first failing measurement (R145 step 3). -/
def raiseTestFail (t : Test) (s : State) : State :=
  match (listedMeasurements t).find? (fun m => decide (m.verdict = some .fail)) with
  | some m =>
    raiseFault ⟨.testFail, some t.kind.code, some (BitVec.ofNat 32 m.number), some (BitVec.ofInt 32 m.value),
      s.now⟩ s
  | none => s

/-- The port controller is told of a home test's end: the flag becomes NO, and a supervisor left frozen by a
denial that CONNECT ended is restarted (R145 step 6, R113). -/
def homeTestEnded (p : Port) (s : State) : State :=
  let s := s.updPort p (fun q => { q with underTest := false })
  let q := s.port p
  if q.sup.frozen.isSome && q.denial.isNone && q.switch.isNone then restart p none s else s

/-- A test ends (R145). -/
def endTest (s : State) : State :=
  match s.engine.test with
  | none => s
  | some t =>
    let s := s.updEngine (fun e => { e with result := some (resultOf t s.now) })
    let s := if outcomeOf t = .fail then raiseTestFail t s else s
    let s := postCompletion (testDone t s.now) t.requester s
    let s := match t.viaGate with
      | some g => if t.granted then gatedRelease (targetFunc t.target) t.requester g s else s
      | none => s
    let s := match targetPort t.target with
      | some p => homeTestEnded p s
      | none => s
    s.updEngine (fun e => { e with test := none, wallDue := none, cleanDue := none })

/-- The release change set completes: the test leaves the bus (R144). -/
def releaseComplete (s : State) : State :=
  match s.engine.test with
  | some t =>
    if t.phase = .release then
      endTest (endSlot (targetSlot t.target) (closeWindow .test s.now s))
    else s
  | none => s

/-! ## Aborts (R146 to R148) -/

/-- The clean time is fixed: what MEASURE has counted to the present, 0 before it (R147). -/
def fixClean (s : State) : State :=
  updTest (fun t =>
    match t.phase with
    | .measure => { t with clean := cleanSoFar t s.now }
    | _ => t) (stopTestTimers s)

/-- An abort in NOTIFY: the record is cancelled and the test ends at once (R147). -/
def abortInNotify (t : Test) (s : State) : State :=
  endTest ((cancelSlot (targetSlot t.target) s).getD s)

/-- An abort other than FAULT_ABORT of a connected exchange test or POWER_ABORT (R147). In CONNECT the
connect change set's later completion is ignored: its settle is forgotten. -/
def abortByRelease (t : Test) (s : State) : State :=
  match t.phase with
  | .notify => abortInNotify t s
  | .connect => enterRelease (dropSettle .testConnect s)
  | .measure => enterRelease (fixClean s)
  | .release => s

/-- FAULT_ABORT of an exchange test past NOTIFY: the release is asked, unless it already runs, and the test
ends at once; the release runs on detached (R148). -/
def abortDetached (t : Test) (s : State) : State :=
  let s := fixClean (dropSettle .testConnect s)
  let s :=
    if t.phase = .release then
      s.setSettles (s.settles.map (fun x => if x.asker = .testRelease then { x with asker := .detachedRelease } else x))
    else applyRelease .detachedRelease t s
  endTest (s.updEngine (fun e => { e with detached := some ⟨true⟩ }))

/-- POWER_ABORT past NOTIFY: the fallback has already dropped the relays (R148). -/
def abortByPower (t : Test) (s : State) : State :=
  endTest (endSlot (targetSlot t.target) (closeWindow .test s.now (fixClean s)))

/-- How a cause acts on the test as it stands (R147, R148). -/
def actOnAbort (why : AbortReason) (t : Test) (s : State) : State :=
  if t.phase = .notify then abortInNotify t s
  else
    match why, t.target with
    | .powerAbort, _ => abortByPower t s
    | .faultAbort, .exchange => abortDetached t s
    | _, _ => abortByRelease t s

/-- A cause of R146 reaches the test in flight. In RELEASE it sets no reason and raises no fault. -/
def abortTest (why : AbortReason) (s : State) : State :=
  match s.engine.test with
  | none => s
  | some t =>
    if t.phase = .release then actOnAbort why t s
    else
      let code := phaseCode (some t)
      let t' := { t with abort := some (t.abort.getD why) }
      let s := s.updEngine (fun e => { e with test := some t' })
      let s := raiseFault (raisedAt s .testAborted (some t.kind.code) why.code code) s
      actOnAbort why t' s

/-- The test in flight is a non-forced exchange test. -/
def ordinaryExchangeTest (s : State) : Bool :=
  match s.engine.test with
  | some t => decide (t.target = .exchange) && !t.forced
  | none => false

/-- The test in flight is a home test of a port. -/
def homeTestOf (s : State) (p : Port) : Bool :=
  match s.engine.test with
  | some t => decide (t.target = .home p)
  | none => false

/-- The engine is told of a seizure (R118, R146). -/
def engineSeizure (p : Port) (lifeline : Bool) (s : State) : State :=
  if homeTestOf s p || (lifeline && ordinaryExchangeTest s) then abortTest .hookAbort s else s

/-- The engine is told of an exchange ring onset (R131, R146). -/
def engineOnset (s : State) : State := if ordinaryExchangeTest s then abortTest .ringAbort s else s

/-- The engine is told of the loss of the hold of a function (R33, R146). -/
def engineHoldLost (f : Func) (s : State) : State :=
  match s.engine.test with
  | some t => if targetFunc t.target = f then abortTest .holdLost s else s
  | none => s

/-- The engine acts for a channel reset (R21, R146). -/
def engineReset (covered : List Channel) (s : State) : State :=
  match s.engine.test with
  | some t => if covered.contains t.requester then abortTest .requesterReset s else s
  | none => s

/-- A detached release completes, or is overtaken by the reserve fallback (R148): the test's TEST window is
closed if its key is still its own, and its record ends COMPLETED. -/
def detachedDone (s : State) : State :=
  match s.engine.detached with
  | some d =>
    let s := if d.holdsKey then closeWindow .test s.now s else s
    endSlot .test (s.updEngine (fun e => { e with detached := none }))
  | none => s

/-! ## The end of MEASURE (R143) -/

/-- MEASURE ends with a clean time and, unless NOISY, with values (R143). -/
def endMeasure (clean : Nat) (values : Option (List Measurement)) (short : Bool) (s : State) : State :=
  enterRelease (updTest (fun t => { t with clean := clean, values := values, short := short }) (stopTestTimers s))

/-- The clean timer is taken: values, not short (R143). -/
def cleanReached (r : Readings) (s : State) : State :=
  match s.engine.test with
  | some t =>
    endMeasure t.kind.measureUs (some (takeMeasurements t.kind r s.engine.cable false)) false s
  | none => s

/-- The wall timer is taken: values, short values or NOISY by the clean time over [S, S + 2M] (R143). -/
def wallReached (r : Readings) (s : State) : State :=
  match s.engine.test with
  | some t =>
    let m := t.kind.measureUs
    let clean := cleanOver t.exclusions t.openMark (2 * m)
    let values (short : Bool) := some (takeMeasurements t.kind r s.engine.cable short)
    if m ≤ clean then endMeasure clean (values false) false s
    else if m ≤ 2 * clean then endMeasure clean (values true) true s
    else endMeasure clean none false s
  | none => s

end Sys2Proof.Machine
end

