-- ==== Sys2Proof/Machine/PhonePorts.lean ====
section
/-! DEFINITION. The port controllers' work: mode switches (R95 to R98), feed denial and its probes (R100,
R101), the reserve fallback at the ports (R103), and a port's seizure with what its neighbours do (R109,
R118, R127, R132). -/

namespace Sys2Proof.Machine

/-- The mode that a resting mode stands for (R91). -/
def PlainMode.mode : PlainMode → Mode
  | .lifeline => .lifeline
  | .local_ => .local_

/-- 0 LIFELINE, 1 LOCAL (R93). -/
def PlainMode.code : PlainMode → Nat
  | .lifeline => 0
  | .local_ => 1

/-- The mode while a switch to this target is in flight (R91). -/
def PlainMode.moving : PlainMode → Mode
  | .lifeline => .toLifeline
  | .local_ => .toLocal

/-- 0 LIFELINE, 1 LOCAL, 2 TO_LOCAL, 3 TO_LIFELINE (R100, R104). -/
def Mode.code : Mode → Nat
  | .lifeline => 0
  | .local_ => 1
  | .toLocal => 2
  | .toLifeline => 3

/-! ## The end of a switch (R98) -/

/-- The outcomes of a port's MODE_DONE (R98). -/
inductive SwitchOutcome where
  | done | testActive | power | cancelledVoice
deriving DecidableEq, Repr

/-- Outcome codes 0 to 3 (R98). -/
def SwitchOutcome.code : SwitchOutcome → Nat
  | .done => 0
  | .testActive => 1
  | .power => 2
  | .cancelledVoice => 3

/-- The MODE_DONE notice of a port (R98). -/
def modeDone (p : Port) (o : SwitchOutcome) (standing : PlainMode) (w : ModeSwitch) (suspended : Bool)
    (now : Time) : Notice :=
  notice .modeDone (byte (portNum p)) (byte o.code) now
    (detail4 standing.code w.target.code (bitOf 0 suspended) w.id.toNat)

/-- The lifeline-suspended flag at a switch's end (R92, R97): YES for TEST_ACTIVE, NO where the mode becomes
LOCAL and under the reserve fallback. -/
def suspendedAfter (o : SwitchOutcome) (standing : PlainMode) (before : Bool) : Bool :=
  match o, standing with
  | .testActive, _ => true
  | .power, _ => false
  | _, .local_ => false
  | _, .lifeline => before

/-- A switch ends (R98). The restart of step 4 is made here but for a POWER end, whose one restart is step 4
of R103 (log entry 14). -/
def endSwitch (p : Port) (standing : PlainMode) (o : SwitchOutcome) (s : State) : State :=
  match (s.port p).switch with
  | none => s
  | some w =>
    let s := s.updPort p (fun q =>
      { q with mode := standing.mode, suspended := suspendedAfter o standing q.suspended })
    let s := if (slotRec s (portSlot p)).map (·.id) = some w.id then endSlot (portSlot p) s else s
    let s := s.updPort p (fun q => { q with switch := none })
    let s :=
      if w.stage ≠ .lead ∧ o ≠ .power ∧ (s.port p).denial.isNone then restart p (some .mode) s else s
    postCompletion (modeDone p o standing w (s.port p).suspended s.now) w.requester s

/-! ## The switch itself (R96, R97) -/

/-- The break change set of a switch (R96). -/
def breakChange (p : Port) (target : PlainMode) : Change :=
  match target with
  | .local_ => { noChange with pass := noChange.pass.set p (some .open_) }
  | .lifeline => { noChange with feed := noChange.feed.set p (some .off) }

/-- The make change set of a switch (R96). -/
def makeChange (p : Port) (target : PlainMode) : Change :=
  match target with
  | .local_ => { noChange with feed := noChange.feed.set p (some .on) }
  | .lifeline => { noChange with pass := noChange.pass.set p (some .closed) }

/-- Set the stage of the switch in flight. -/
def setStage (p : Port) (g : SwitchStage) (s : State) : State :=
  s.updPort p (fun q => { q with switch := q.switch.map (fun w => { w with stage := g }) })

/-- The switch's record is ACTIVE (R96): the supervisor is frozen and the break change set is asked. -/
def activateSwitch (p : Port) (s : State) : State :=
  match (s.port p).switch with
  | none => s
  | some w =>
    if w.stage = .lead then
      let s := setStage p .break_ (freeze p s)
      (applyChange (breakChange p w.target) (.modeSwitch p) w.id s).getD s
    else s

/-- A change set of the switch completes: the make change set after the break, the switch's end after the
make; refused or overlaid by the test bus, the switch ends TEST_ACTIVE (R96, R97). -/
def switchSettled (p : Port) (s : State) : State :=
  match (s.port p).switch with
  | none => s
  | some w =>
    match w.stage with
    | .lead => s
    | .break_ =>
      let s := setStage p .make s
      match applyChange (makeChange p w.target) (.modeSwitch p) w.id s with
      | some s' => s'
      | none => endSwitch p .lifeline .testActive s
    | .make =>
      if w.target = .lifeline ∧ s.relays.pass.get p ≠ .closed then endSwitch p .lifeline .testActive s
      else endSwitch p w.target .done s

/-- A seizure acts on a switch in stage LEAD: an ordinary one is cancelled (R95). -/
def switchSeized (p : Port) (s : State) : State :=
  match (s.port p).switch with
  | none => s
  | some w =>
    if w.stage = .lead ∧ w.forced = false then
      match cancelSlot (portSlot p) s with
      | some s' => endSwitch p w.origin .cancelledVoice s'
      | none => s
    else s

/-! ## Denial (R100, R101) -/

/-- Force the supervisor to ON_HOOK and freeze it there. One that an ACTIVE switch has frozen stays frozen, with the
state from before that freezing kept for its restart, and no notice is handed (R100 step 5, log entry 19). -/
def freezeDenied (p : Port) (s : State) : State :=
  let u := (s.port p).sup
  let due := u.frozen.isNone && inCall u.state
  let s := freeze p (s.updSup p (fun u => { u with state := .onHook }))
  judgeWatch (if due then hookNotice p false .denied 0 s else s)

/-- The overload timer, started at `since`, expires: the feed is denied (R100). -/
def denyFeed (p : Port) (since : Time) (s : State) : State :=
  let s := driveFeed p .denied s
  let s := s.updPort p (fun q =>
    { q with denial := some ⟨s.now, .waiting (s.now + ms 10000), 0⟩, overload := none })
  let s := raiseFault (raisedAt s .feedOverload (some (portNum p)) (s.port p).mode.code since.toNat) s
  let s := freezeDenied p (unplanned .feedDenied (some p) 0 s)
  endSession p .fault 2 s

/-- The retry timer expires: a probe begins (R101). -/
def beginProbe (p : Port) (d : Denial) (s : State) : State :=
  judgeOverload p ((driveFeed p .on s).updPort p (fun q =>
    { q with denial := some { d with stage := .probing (s.now + ms 200) } }))

/-- An ACTIVE switch holds the supervisor frozen (R96). -/
def switchActive (q : PhonePort) : Bool :=
  match q.switch with
  | some w => decide (w.stage ≠ .lead)
  | none => false

/-- The probe timer expires: the denial goes on, or ends quietly (R101). -/
def finishProbe (p : Port) (d : Denial) (s : State) : State :=
  if s.pins.overLimit.get p then
    (driveFeed p .denied s).updPort p (fun q =>
      { q with denial := some ⟨d.since, .waiting (s.now + ms 10000), saturate 255 (d.failed + 1)⟩ })
  else
    let s := judgeOverload p (s.updPort p (fun q => { q with denial := none }))
    if switchActive (s.port p) then s else restart p none s

/-! ## The reserve fallback (R103) -/

/-- A port controller is told of the reserve fallback (R103). The battery watch is judged once, after steps 3 and 4,
so that a watch which the mode of step 3 alone would stop runs on where the restart of step 4 lets its conditions hold
(the model's choice, log entry 43). -/
def fallbackPort (p : Port) (s : State) : State :=
  let before := (s.port p).mode
  let s := endDenial p (endSwitch p .lifeline .power s)
  let s := s.updPort p (fun q => { q with mode := .lifeline, suspended := false })
  if before = .lifeline then s else restart p (some .power) s

/-! ## Seizure (R109, R113, R118) -/

/-- The ring unit is told of a seizure (R127, R132): a session outside a burst is answered, and a lifeline
seizure through the pass-through ends the exchange call. -/
def ringSeized (p : Port) (throughPass : Bool) (s : State) : State :=
  let s := if (session s p).isSome && !inBurst s p then answerSession p 2 s else s
  if throughPass && s.ring.exchange.ringing then endCall 2 (some p) s else s

/-- The port is seized (R109, R116, R118): OFF_HOOK, the dial record emptied, HOOK and UNPLANNED handed, and
the neighbours told in the order of R118's table (DEDUCED, log entry 45). A seizure by ring trip is not told to the
ring unit. -/
def seize (p : Port) (why : HookReason) (s : State) : State :=
  let detail := if why = .loop then (s.port p).sup.breakStart else 0
  let s := s.updPort p (fun q => { q with
    dial := [], overflow := false
    sup := { q.sup with
      state := .offHook, masked := false, seizeTimer := .stopped, pulses := 0, gapTimer := .stopped } })
  let s := hookNotice p true why detail s
  let lifeline := lifelineCond s p
  let throughPass := lifeline && decide (loopSource s p = some .passThrough)
  let s := if lifeline then unplanned .hookSeize (some p) 0 s else s
  let s := switchSeized p (judgeWatch s)
  let s := if why = .trip then s else ringSeized p throughPass s
  engineSeizure p lifeline s

/-- The trip timer expires: the port is tripped (R127). -/
def tripPort (p : Port) (s : State) : State :=
  let s := endBurst p (.silent false) s
  let s := match (s.port p).sup.state with
    | .onHook | .seizing => seize p .trip s
    | .offHook | .break_ => s
  answerSession p 1 s

/-! ## Loss of a hold (R32, R33) -/

/-- What becomes of the work under a hold record that has been removed (R33). -/
def holdLost (f : Func) (holder : Channel) (s : State) : State := engineHoldLost f (ringLosesHold f holder s)

/-- A function is released: the record is removed, its work is treated, and the function passes on (R32, R47). -/
def releaseFunc (f : Func) (s : State) : State :=
  match (funcRec s f).hold with
  | some h => grantNext f (holdLost f h.holder (removeHold f s))
  | none => s

/-- Release every hold of the covered channels, in function number order (R47 step 2). -/
def releaseCovered (covered : List Channel) : List Func → State → State
  | [], s => s
  | f :: rest, s =>
    match holderOf s f with
    | some c => releaseCovered covered rest (if covered.contains c then releaseFunc f s else s)
    | none => releaseCovered covered rest s

end Sys2Proof.Machine
end

