-- ==== Sys2Proof/Machine/Activation.lean ====
section
/-! DEFINITION. The DSL switch (R39, R40), what an owner does when its record becomes ACTIVE (R53), and what
an asking block does when its change set completes (R42). -/

namespace Sys2Proof.Machine

/-! ## The DSL switch (R40) -/

/-- The outcomes of the DSL path's MODE_DONE (R40). -/
inductive DslOutcome where
  | done | testActive | power
deriving DecidableEq, Repr

/-- Outcome codes 0 to 2 (R40). -/
def DslOutcome.code : DslOutcome → Nat
  | .done => 0
  | .testActive => 1
  | .power => 2

/-- A DSL switch ends: its record ends, MODE_DONE of subject 0 is queued, and it is no longer in flight. -/
def endDsl (o : DslOutcome) (s : State) : State :=
  match s.dsl with
  | none => s
  | some d =>
    let s := endSlot .dsl s
    (postCompletion (notice .modeDone 0 (byte o.code) s.now
      (detailByte8 .modeDone s.now (couplingCode s.relays.dsl))) d.requester s).setDsl none

/-- The DSL slot is ACTIVE: the change to the asked coupling is applied, or refused by the test bus (R40). -/
def activateDsl (s : State) : State :=
  match s.dsl with
  | none => s
  | some d =>
    match applyChange { noChange with dsl := some d.target } .dslSwitch d.id s with
    | some s' => s'
    | none => endDsl .testActive s

/-- A switch that ended DONE while an exchange test is connected gives the test its pre-test coupling (R141). -/
def replacePreTest (c : Coupling) (s : State) : State :=
  updTest (fun t =>
    if t.target = .exchange ∧ (t.phase = .connect ∨ t.phase = .measure) then { t with preTest := some c } else t) s

/-- The DSL switch's change completes (R40): DONE or TEST_ACTIVE by the coupling standing now. That a coupling which a
test moved during the settle and put back before its end gives DONE is the model's choice (log entry 47). -/
def dslSettled (s : State) : State :=
  match s.dsl with
  | none => s
  | some d =>
    if s.relays.dsl = d.target then endDsl .done (replacePreTest d.target s) else endDsl .testActive s

/-! ## Owners and askers -/

/-- The owner of a slot's record starts its work (R53). -/
def ownerStart (i : SlotId) (s : State) : State :=
  match slotRec s i with
  | none => s
  | some d =>
    match d.work, d.port with
    | .ringSession, some p => onTime p s
    | .modeSwitch, some p => activateSwitch p s
    | .dslSwitch, _ => activateDsl s
    | .testConnect, _ => connectTest s
    | _, none => s

/-- A record becomes ACTIVE and its owner's work starts (R53). -/
def activate (i : SlotId) (s : State) : State := ownerStart i (markActive i s)

/-- The owner's work starts here where its record became ACTIVE at the opening, under a lead of 0 (R49). -/
def startIfActive (i : SlotId) (s : State) : State := if slotActive s i then ownerStart i s else s

/-- A change set completes and the asking block is told (R42). The fault unit does nothing at a line-break
change's completion (R45, R163). -/
def settled (a : Asker) (s : State) : State :=
  match a with
  | .modeSwitch p => switchSettled p s
  | .dslSwitch => dslSettled s
  | .testConnect => startMeasure s
  | .testRelease => releaseComplete s
  | .detachedRelease => detachedDone s
  | .lineBreak => s

end Sys2Proof.Machine
end

