-- ==== Sys2Proof/Machine/Isolation.lean ====
section
/-! DEFINITION. Protective isolation: the line-break (R45, R131), hard-fault events (R158, R162), dwells and
lockout (R163 to R165), and the start-up hazard check (R167); and the events of the exchange ring
detector. -/

namespace Sys2Proof.Machine

/-- An exchange ring onset: the ring unit's steps, then the line test engine is told (R131). -/
def ringOnset (s : State) : State := engineOnset (onsetRecord s)

/-- What a line-break change does at the detectors that look through it (R106, R131, R160). -/
def lineBreakSeen (s : State) : State :=
  let s := match s.relays.lineBreak with
    | .open_ => if s.ring.exchange.burstOn then offsetRecord s else s
    | .closed => if s.pins.exchangeRinging then ringOnset s else s
  judgeWatch (senseLoop .p2 (senseLoop .p1 s))

/-- Put the line-break to a position, with its settle (R45). -/
def placeLineBreak (c : Contact) (s : State) : State :=
  startSettle .lineBreak (s.setRelays { s.relays with lineBreak := c })

/-- A direct change of the line-break with its RELAY window of absent id (R45, R59). -/
def moveLineBreak (c : Contact) (s : State) : State :=
  lineBreakSeen (handWindow .relay none none s.now (some 70) (placeLineBreak c s))

/-! ## The isolation record (R161, R164) -/

/-- 0 NORMAL, 1 ISOLATING, 2 LOCKOUT (R158). -/
def Isolation.code : Isolation → Nat
  | .normal => 0
  | .isolating _ _ _ _ => 1
  | .lockout _ _ _ => 2

/-- The dwell in progress, 0 when absent. -/
def Isolation.dwell : Isolation → Nat
  | .isolating d _ _ _ => d
  | _ => 0

/-- The cause class (R161). -/
def Isolation.cause : Isolation → Option FaultClass
  | .normal => none
  | .isolating _ _ c _ => some c
  | .lockout _ c _ => some c

/-- 1 SECOND_FAULT, 2 PERSISTENT_HAZARD (R163). -/
def LockoutCause.code : LockoutCause → Nat
  | .secondFault => 1
  | .persistentHazard => 2

/-- Set the isolation record. -/
def setIsolation (i : Isolation) (s : State) : State := s.updFaults (fun u => { u with isolation := i })

/-- The reasons of ISOLATION (R164). -/
inductive IsolationReason where
  | opened | secondDwell | cleared | lockoutFault | lockoutHazard | released | startUp
deriving DecidableEq, Repr

/-- Reason codes 1 to 7 (R164). -/
def IsolationReason.code : IsolationReason → Nat
  | .opened => 1
  | .secondDwell => 2
  | .cleared => 3
  | .lockoutFault => 4
  | .lockoutHazard => 5
  | .released => 6
  | .startUp => 7

/-- Hand an ISOLATION notice for the record as it stands (R164). -/
def isolationNotice (why : IsolationReason) (s : State) : State :=
  let i := s.faults.isolation
  postSubscribed (notice .isolation (byte i.code) (byte why.code) s.now
    (detail4 ((i.cause.map FaultClass.num).getD 255) i.dwell 0 0)) s

/-! ## Hard faults (R156, R162) -/

/-- The fault unit takes an event whose faults it raises itself: a fault another block raises meanwhile waits
until the event is finished (R156). -/
def beginTaking (s : State) : State := s.updFaults (fun u => { u with taking := true })

/-- A hard fault: the line test engine is told, then the fault is logged, captured and noticed (R156). -/
def raiseHard (c : FaultClass) (d1 d2 : Nat) (s : State) : State :=
  let f := raisedAt s c none d1 d2
  takeFault f (abortTest .faultAbort s)

/-- Entry into LOCKOUT with its fault (R163). -/
def enterLockout (why : LockoutCause) (reason : IsolationReason) (cause : FaultClass) (since : BitVec 32)
    (d2 : Nat) (s : State) : State :=
  raiseHard .lockout why.code d2 (isolationNotice reason (setIsolation (.lockout why cause since) s))

/-- The change of state and the notices a hard-fault event of class `c` causes (R162 steps 1 to 3). -/
def isolate (c : FaultClass) (s : State) : State :=
  match s.faults.isolation with
  | .normal =>
    let s := setIsolation (.isolating 1 (some (s.now + ms 2000)) c s.uptime) (moveLineBreak .open_ s)
    isolationNotice .opened (unplanned .isolationOpen none c.num s)
  | .isolating _ _ cause since => enterLockout .secondFault .lockoutFault cause since c.num s
  | .lockout _ _ _ => s

/-- A hard-fault event of class `c` with its second detail (R158, R162). -/
def hardEvent (c : FaultClass) (d2 : Nat) (s : State) : State :=
  let d1 := s.faults.isolation.code
  finishTaking (raiseHard c d1 d2 (isolate c (beginTaking s)))

/-- The line-break closes and the state becomes NORMAL; detail 0 at the end of a dwell, 1 at RELEASE LOCKOUT
(R57, R163, R165). -/
def endIsolation (why : IsolationReason) (b8 : Nat) (s : State) : State :=
  isolationNotice why (unplanned .isolationClose none b8 (moveLineBreak .closed (setIsolation .normal s)))

/-- The dwell timer expires (R163). -/
def dwellEnds (dwell : Nat) (cause : FaultClass) (since : BitVec 32) (s : State) : State :=
  if s.pins.hazard then
    if dwell = 1 then
      isolationNotice .secondDwell (setIsolation (.isolating 2 (some (s.now + ms 2000)) cause since) s)
    else finishTaking (enterLockout .persistentHazard .lockoutHazard cause since 2 (beginTaking s))
  else endIsolation .cleared 0 s

/-! ## Start-up (R167) -/

/-- The hazard check of the start-up sequence (R167): the line-break takes its position, with a settle where it
moves, and no notice. -/
def hazardCheck (s : State) : State :=
  let want : Contact := if s.pins.hazard then .open_ else .closed
  let s := if s.relays.lineBreak = want then s else placeLineBreak want s
  setIsolation (if s.pins.hazard then .isolating 1 none .hazardVoltage s.uptime else .normal) s

/-- The steps that R167 defers: the dwell timer, UNPLANNED, ISOLATION and the fault. Where a hard-fault event during
the load has taken the start-up's ISOLATING to LOCKOUT, all of them are dropped (the model's choice, log entry 44).
The notices and the fault carry the timebase of the completion that hands them (the model's choice, log entry 39). -/
def startUpIsolation (s : State) : State :=
  match s.faults.isolation with
  | .isolating d none cause since =>
    let s := setIsolation (.isolating d (some (s.now + ms 2000)) cause since) s
    let s := isolationNotice .startUp (unplanned .isolationOpen none 1 s)
    finishTaking (raiseHard .hazardVoltage 0 1 (beginTaking s))
  | _ => s

end Sys2Proof.Machine
end

