-- ==== Sys2Proof/Machine/Supply.lean ====
section
/-! DEFINITION. The power monitor's transitions (R179, R180), the settings image (R182, R183), and the
start-up and reset values of every block (R186, R187). -/

namespace Sys2Proof.Machine

/-! ## Power (R179, R180) -/

/-- 0 MAINS, 1 BATTERY, 2 RESERVE (R179). -/
def PowerState.code : PowerState → Nat
  | .mains => 0
  | .battery => 1
  | .reserve => 2

/-- The state the inputs give at a start (R179). -/
def powerFrom (mains reserve : Bool) : PowerState :=
  if mains then .mains else if reserve then .reserve else .battery

/-- The power record at a start (R179). -/
def freshPower (mains reserve : Bool) (uptime : BitVec 32) : PowerRec :=
  ⟨powerFrom mains reserve, mains, reserve, if mains then none else some uptime⟩

/-- The state after an input change (R179): `mains` and `reserve` are the inputs after it. In MAINS only the
loss of mains moves the state; elsewhere the inputs as they then stand give it. -/
def powerNext (old : PowerState) (mains reserve : Bool) : PowerState :=
  match old, mains with
  | .mains, true => .mains
  | _, _ => powerFrom mains reserve

/-- Whole seconds between two uptimes. -/
def secondsSince (uptime : BitVec 32) (t : Option (BitVec 32)) : Nat := (uptime - t.getD uptime).toNat

/-- Step 2 of a transition into RESERVE: the fallback, the askers it overtakes, and UNPLANNED (R180, R46). -/
def reserveFallback (s : State) : State :=
  unplanned .reserveFallback none 0 (detachedDone (fallbackRelays s))

/-- Step 3 of a transition: the neighbours are told (R180). -/
def tellPower (old new : PowerState) (s : State) : State :=
  match old, new with
  | .mains, .battery => batteryCut s
  | _, .reserve =>
    endDsl .power (abortTest .powerAbort (fallbackPort .p2 (fallbackPort .p1 (endAllSessions .power s))))
  | _, _ => s

/-- Step 4 of a transition: the faults (R180). -/
def raisePower (old new : PowerState) (s : State) : State :=
  let s := if old = .mains then raiseFault (raisedAt s .mainsLost none new.code 0) s else s
  if new = .reserve then
    raiseFault (raisedAt s .batteryReserve none old.code (secondsSince s.uptime s.power.since)) s
  else s

/-- A transition of the power state (R180). -/
def powerMoves (old new : PowerState) (s : State) : State :=
  let since := if new = .mains then none else if old = .mains then some s.uptime else s.power.since
  let s := s.setPower { s.power with state := new, since := since }
  let s := if new = .reserve then reserveFallback s else s
  raisePower old new (tellPower old new s)

/-- The power monitor takes its inputs (R179). -/
def powerInputs (s : State) : State :=
  let s := s.setPower { s.power with mains := s.pins.mains, reserve := s.pins.reserve }
  let old := s.power.state
  let new := powerNext old s.power.mains s.power.reserve
  if new = old then s else powerMoves old new s

/-! ## The settings image (R182, R183) -/

/-- The settings in force, as a save copies them (R184). -/
def settingsOf (s : State) : Settings where
  levels := ⟨s.lines.table.port1.level, s.lines.table.port2.level, s.lines.table.dsl.level,
    s.lines.table.test.level, s.lines.table.tracker.level⟩
  gates := s.engine.gates
  cadences := s.ring.cadences
  timing := ⟨s.ports.p1.timing, s.ports.p2.timing⟩
  lead := s.sched.lead
  enable := s.tracker.enable
  deadTime := s.tracker.deadTime
  classLevels := s.faults.levels
  policy := s.faults.policy
  cable := s.engine.cable
  every := s.ring.exchange.every

/-- A table with these levels, keeping its holds. -/
def withLevels (l : PerFunc Nat) (t : PerFunc FuncRec) : PerFunc FuncRec :=
  ⟨{ t.port1 with level := l.port1 }, { t.port2 with level := l.port2 }, { t.dsl with level := l.dsl },
    { t.test with level := l.test }, { t.tracker with level := l.tracker }⟩

/-- Every owner puts its items in force (R183). An enable of OFF leaves the tracker's state, timers, queue and
forecast as they stand (the model's choice, log entry 23). -/
def putInForce (x : Settings) (s : State) : State :=
  let s := s.updLines (fun l => { l with table := withLevels x.levels l.table })
  let s := s.updEngine (fun e => { e with gates := x.gates, cable := x.cable })
  let s := s.updRing (fun r =>
    { r with cadences := x.cadences, exchange := { r.exchange with every := x.every } })
  let s := (s.updPort .p1 (fun q => { q with timing := x.timing.p1 })).updPort .p2
    (fun q => { q with timing := x.timing.p2 })
  let s := s.updSched (fun k => { k with lead := x.lead })
  let s := s.updTracker (fun k => { k with enable := x.enable, deadTime := x.deadTime })
  s.updFaults (fun u => { u with levels := x.classLevels, policy := x.policy })

/-- A hook timing set in its ranges that keeps both conditions (R107). -/
def HookTiming.valid (t : HookTiming) : Bool :=
  decide (10 ≤ t.seize ∧ t.seize ≤ 100 ∧ 5 ≤ t.glitch ∧ t.glitch ≤ 40 ∧ 60 ≤ t.pulseMax ∧ t.pulseMax ≤ 200 ∧
    200 ≤ t.flashMax ∧ t.flashMax ≤ 1500 ∧ 150 ≤ t.digitGap ∧ t.digitGap ≤ 800 ∧
    t.glitch < t.pulseMax ∧ t.pulseMax < t.flashMax ∧ t.pulseMax < t.digitGap)

/-- Limits a request or a gate may carry for a kind (R139 check 2): at most four, each naming one of the
kind's measurements, none named twice, none with its low above its high. -/
def limitsValid (k : TestKind) (l : List Limit) : Bool :=
  decide (l.length ≤ 4) &&
    l.all (fun x => decide (1 ≤ x.number) && decide (x.number ≤ k.count) && decide (x.low ≤ x.high)) &&
    decide ((l.map (·.number)).Nodup)

/-- A gate within its ranges, with a target valid for its kind (R151). -/
def gateValid (g : Gate) : Bool := decide (g.level ≤ 3) && targetValid g.kind g.target && limitsValid g.kind g.limits

/-- A cadence step within its ranges (R120). -/
def stepValid (c : CadenceStep) : Bool :=
  decide (100 ≤ c.on ∧ c.on ≤ 3000 ∧ c.on % 50 = 0 ∧ 100 ≤ c.off ∧ c.off ≤ 6000 ∧ c.off % 50 = 0)

/-- A cadence entry within its ranges (R120). -/
def cadenceValid (l : List CadenceStep) : Bool := decide (l.length ≤ 3) && l.all stepValid

/-- The four entries of a table. -/
def Quad.toList {α : Type} (q : Quad α) : List α := [q.e0, q.e1, q.e2, q.e3]

/-- Every soft class level is 0 to 7 (R155). -/
def classLevelsValid (l : ClassLevels) : Bool := allClasses.all (fun c => c.num < 3 || decide (levelOf l c ≤ 7))

/-- Every descriptor level is 0 to 3 (R23). -/
def levelsValid (l : PerFunc Nat) : Bool := allFuncs.all (fun f => decide (l.get f ≤ 3))

/-- Every item lies within the range its owner's rule gives (R182). -/
def Settings.valid (x : Settings) : Bool :=
  levelsValid x.levels && x.gates.toList.all (fun g => g.all gateValid) &&
    x.cadences.toList.all cadenceValid && x.timing.p1.valid && x.timing.p2.valid &&
    decide (x.lead ≤ 500) && decide (500 ≤ x.deadTime ∧ x.deadTime ≤ 10000) && classLevelsValid x.classLevels &&
    decide (300 ≤ x.cable ∧ x.cable ≤ 800) && decide (x.every ≤ 15)

/-- The values after a failed check (R182). -/
def failedSettings : Settings := { factorySettings with levels := ⟨0, 0, 0, 0, 0⟩ }

/-- What a load finds (R183): the values put in force and its result. A read the memory does not complete
counts as a failed check. -/
def loaded (image : Image) (readCompleted : Bool) : Settings × LoadResult :=
  match readCompleted, image with
  | true, .blank => (factorySettings, .blank)
  | true, .written x => if x.valid then (x, .good) else (failedSettings, .checkFailed)
  | true, .disagreeing => (failedSettings, .checkFailed)
  | false, _ => (failedSettings, .checkFailed)

/-! ## Start and reset -/

/-- Ready outputs, both (R5). -/
def setReady (b : Bool) (s : State) : State :=
  (s.updGateway (fun g => { g with ready := b })).updModem (fun m => { m with ready := b })

/-- The last steps of every start that the inputs decide (R131, R105, R160): the detector's onset with the
line-break CLOSED and ringing on the pair, each supervisor's first reading, the battery watch. No rule orders these
first readings: that their windows of equal start arrive as the onset's, port 1's, port 2's is the model's choice
(log entry 40). -/
def takeInputs (s : State) : State :=
  let s := if s.relays.lineBreak = .closed ∧ s.pins.exchangeRinging then ringOnset s else s
  judgeWatch (senseLoop .p2 (senseLoop .p1 s))

/-- A state whose volatile parts stand at their power-on values with the factory settings: kept are what lies
outside the part's power (the image, the latching line-break, the input pins, the port-reset inputs) and the
commands waiting (R186). The reset input's level is not kept: a part that gains supply with that input asserted loads
and starts as if it were released (the model's choice, log entry 48). -/
def powerOnValues (s : State) : State where
  pending := s.pending
  phase := .loading
  clock := ⟨0, 0, 0⟩
  pins := s.pins
  twoPorts := s.twoPorts
  gateway := ⟨[], none, [], false, s.gateway.resetInput⟩
  modem := ⟨[], [], [], false, s.modem.resetInput⟩
  channels := ⟨freshChannel .modem, freshChannel .management, freshChannel .gateway⟩
  lines := freshLines factorySettings.levels
  relays := defaultRelays s.relays.lineBreak
  settles := []
  dsl := none
  sched := freshScheduler factorySettings.lead
  tracker := freshTracker factorySettings.enable factorySettings.deadTime
  ports := ⟨freshPort factoryTiming, freshPort factoryTiming⟩
  ring := freshRing factoryCadences factorySettings.every
  engine := freshEngine factorySettings.gates factorySettings.cable
  faults := freshFaults
  power := ⟨.mains, true, false, none⟩
  store := ⟨s.store.image, none, .none, .good⟩
  occasion := s.occasion

/-- Sample the straps (R11). -/
def sampleStraps (x : Straps) (s : State) : State := s.setTwoPorts (decide (x = .twoPorts))

/-- The fault unit through the reset pin (R168, R172, R174, R177, R160, R161, R187): the log, the capture
record, the policy, the levels and a LOCKOUT are kept. -/
def resetPinFaults (u : FaultUnit) : FaultUnit :=
  { u with
    channels := ⟨freshFaultChannel .modem, freshFaultChannel .management, freshFaultChannel .gateway⟩
    quiet := none
    isolation := match u.isolation with
      | .lockout why c since => .lockout why c since
      | .isolating d _ c since => .isolating d none c since
      | .normal => .normal
    watch := ⟨none, false⟩
    taking := false
    waiting := [] }

/-- The settings and records that the reset pin keeps, with every other part at its reset-pin value (R187). -/
def resetPinValues (s : State) : State where
  pending := s.pending
  phase := .inReset
  clock := ⟨0, s.clock.uptime, s.clock.subsecond⟩
  pins := s.pins
  twoPorts := s.twoPorts
  gateway := ⟨[], none, s.gateway.out, false, s.gateway.resetInput⟩
  modem := ⟨[], [], s.modem.line, false, s.modem.resetInput⟩
  channels := ⟨freshChannel .modem, freshChannel .management, freshChannel .gateway⟩
  lines := freshLines (settingsOf s).levels
  relays := defaultRelays s.relays.lineBreak
  settles := []
  dsl := none
  sched := freshScheduler s.sched.lead
  tracker := freshTracker s.tracker.enable s.tracker.deadTime
  ports := ⟨freshPort s.ports.p1.timing, freshPort s.ports.p2.timing⟩
  ring := freshRing s.ring.cadences s.ring.exchange.every
  engine := freshEngine s.engine.gates s.engine.cable
  faults := resetPinFaults s.faults
  power := s.power
  store := { s.store with saving := none, lastSave := .none }
  occasion := s.occasion

/-- The hazard check at the release of the reset pin: none in LOCKOUT (R167). -/
def resetPinCheck (s : State) : State :=
  match s.faults.isolation with
  | .lockout _ _ _ => s
  | _ => hazardCheck s

/-- The part starts after a power-on reset, up to the settings load (R186 steps 1 and 2). -/
def powerOn (x : Straps) (s : State) : State :=
  let s := hazardCheck (sampleStraps x (powerOnValues s))
  takeInputs (s.setPower (freshPower s.pins.mains s.pins.reserve 0))

/-- The settings load completes (R183, R186 steps 3 and 4). -/
def loadCompletes (readCompleted : Bool) (s : State) : State :=
  let (x, result) := loaded s.store.image readCompleted
  let s := (putInForce x s).updStore (fun k => { k with loadResult := result })
  let s := if result = .checkFailed then raiseFault (raisedAt s .storeFault none 1 0) s else s
  setReady true ((startUpIsolation s).setPhase .running)

/-- The restart at the release of the reset pin (R187). -/
def resetPinRestart (x : Straps) (s : State) : State :=
  let s := resetPinCheck (sampleStraps x (resetPinValues s))
  let s := s.setPower (freshPower s.pins.mains s.pins.reserve s.uptime)
  setReady true ((startUpIsolation (takeInputs s)).setPhase .running)

/-- Loss of supply: every volatile part is gone; the image, the latching line-break and what lies outside
stand (R182, R185). -/
def supplyGone (s : State) : State := (powerOnValues s).setPhase .unpowered

end Sys2Proof.Machine
end

