-- ==== Sys2Proof/Machine/Frames.lean ====
section
/-! DEFINITION. The port block's side of a request: outcomes and responses (R10, R7), the gateway port (R1,
R2) and the modem port (R3, R4), and the taking of a request frame on its channel's port. -/

namespace Sys2Proof.Machine

/-- The outcomes (R10). -/
inductive Code where
  | ok | accepted | badFrame | badRequest | badFunction | notFitted | privilege | notHolder | busy | queued
  | alreadyWaiting | queueFull | isolated | wrongMode | busyVoice | testActive | lowPower | busyTest | noGate
  | hazardPresent | storeBusy | outOfRange | wrongChannel | noCadence | thermal | unknownDisturbance
deriving DecidableEq, Repr

/-- Outcome codes 0 to 25 (R10). -/
def Code.num : Code → Nat
  | .ok => 0
  | .accepted => 1
  | .badFrame => 2
  | .badRequest => 3
  | .badFunction => 4
  | .notFitted => 5
  | .privilege => 6
  | .notHolder => 7
  | .busy => 8
  | .queued => 9
  | .alreadyWaiting => 10
  | .queueFull => 11
  | .isolated => 12
  | .wrongMode => 13
  | .busyVoice => 14
  | .testActive => 15
  | .lowPower => 16
  | .busyTest => 17
  | .noGate => 18
  | .hazardPresent => 19
  | .storeBusy => 20
  | .outOfRange => 21
  | .wrongChannel => 22
  | .noCadence => 23
  | .thermal => 24
  | .unknownDisturbance => 25

/-- An owner's answer: the outcome and the result bytes (R10). -/
structure Reply where
  outcome : Code
  results : List Byte
deriving DecidableEq, Repr

/-- An owner serves a request. -/
abbrev Server := State → State × Reply

/-- A refusal: no result, no state changed (R10). -/
def refuse (c : Code) : Server := fun s => (s, ⟨c, []⟩)

/-- An acceptance that changes no state. -/
def report (results : List Byte) : Server := fun s => (s, ⟨.ok, results⟩)

/-- The response frame (R7). -/
def responseFrame (code tag : Byte) (a : Reply) : List Byte :=
  byte (4 + a.results.length) :: code :: byte a.outcome.num :: tag :: a.results

/-! ## The gateway port (R1, R2) -/

/-- The gateway port exchanges bytes: its ready output is asserted and its port-reset input is not (R1, R6). -/
def GatewayPort.listens (g : GatewayPort) : Bool := g.ready && !g.resetInput

/-- A transfer of `n` bytes shifts out the held response, then zeros, and removes a response it has clocked
out in full (R1, R2). -/
def GatewayPort.shiftOut (n : Nat) (g : GatewayPort) : GatewayPort :=
  if g.listens then
    match g.held with
    | some h =>
      { g with
        out := (h ++ List.replicate n 0).take n
        held := if h.length ≤ n then none else some h }
    | none => { g with out := List.replicate n 0 }
  else { g with out := List.replicate n 0 }

/-- The port takes the request frame of a transfer: no response is held any more (R2). -/
def GatewayPort.takes (g : GatewayPort) : Bool := g.listens && g.held.isNone

/-- A transfer of `n` bytes on the gateway port whose frame `serve` answers with a whole response. -/
def gatewayTake (n : Nat) (serve : State → State × List Byte) (s : State) : State :=
  let s := s.updGateway (·.shiftOut n)
  if s.gateway.takes then
    let (s', frame) := serve s
    s'.updGateway (fun g => { g with held := some frame })
  else s

/-! ## The modem port (R3, R4) -/

/-- The modem port takes a frame: ready, not held in reset, and fewer than 4 responses held (R3, R4, R6). -/
def ModemPort.takes (m : ModemPort) : Bool := m.ready && !m.resetInput && decide (m.responses.length < 4)

/-- A frame on the modem port which `serve` answers with a whole response. -/
def modemTake (serve : State → State × List Byte) (s : State) : State :=
  if s.modem.takes then
    let (s', frame) := serve s
    s'.updModem (fun m => { m with responses := m.responses ++ [frame] })
  else s

/-! ## A request -/

/-- A request's owner answers, and the answer becomes the response to its code and tag (R10). -/
def respond (code tag : Byte) (serve : Server) (s : State) : State × List Byte :=
  let (s', a) := serve s
  (s', responseFrame code tag a)

/-- The well-formed frame of request `i` arrives on its channel's port and is served (R2, R4, R8). -/
def arrive (i : Instr) (serve : Server) (s : State) : State :=
  match requestParts i with
  | none => s
  | some (r, code, ops) =>
    match r.channel.physPort with
    | .gateway => gatewayTake (4 + ops.length) (respond code r.tag serve) s
    | .modem => modemTake (respond code r.tag serve) s

/-- The answer of a step whose command has the effect `s`. -/
def done (s : State) : Result := .next s

end Sys2Proof.Machine
end

