-- ==== Sys2Proof/Machine/Channels.lean ====
section
/-! DEFINITION. The port block's requests (R11, R12, R19, R20, R22) and the channel reset (R21, R6, R47). -/

namespace Sys2Proof.Machine

/-! ## IDENTIFY and READ TIME (R11, R12) -/

/-- The fitted map: bit n set for function n fitted (R11). -/
def fittedMap (s : State) : Nat := if s.twoPorts then 0x1F else 0x1D

/-- IDENTIFY (R11). -/
def answerIdentify (r : Req) : Server := fun s =>
  report (half16 0x0240 ++ [2, byte (fittedMap s), byte (if s.twoPorts then 2 else 1), byte (chanCode r.channel),
    byte (effLevel r)]) s

/-- READ TIME (R12). -/
def answerReadTime : Server := fun s => report (wordBytes s.now ++ wordBytes s.uptime) s

/-! ## FETCH NOTICES and SUBSCRIBE (R19, R20) -/

/-- A notice entry (R7). -/
def noticeBytes (n : Notice) : List Byte :=
  [byte n.kind.code, byte n.level, n.subject, n.flags] ++ wordBytes n.timestamp ++ wordBytes n.detail

/-- FETCH NOTICES (R19). -/
def answerFetchNotices (r : Req) (limit : Byte) : Server := fun s =>
  let c := s.channels.get r.channel
  let used := min limit.toNat 4
  let taken := c.queue.take used
  let rest := c.queue.drop used
  (s.updChannel r.channel (fun c => { c with queue := rest, lost := false }),
    ⟨.ok, [byte used, byte taken.length, flagByte c.lost, byte rest.length] ++ taken.flatMap noticeBytes⟩)

/-- The kinds that can be subscribed: codes 1 and 3 to 19 (R20). -/
def subscribable : BitVec 32 := 0x000FFFFA

/-- SUBSCRIBE (R20). -/
def answerSubscribe (r : Req) (kinds : BitVec 32) : Server := fun s =>
  let used := kinds &&& subscribable
  (s.updChannel r.channel (fun c => { c with subs := used }), ⟨.ok, wordBytes used⟩)

/-! ## Channel reset (R21, R22, R47) -/

/-- Restore the port block's record of each covered channel (R21). -/
def freshChannels : List Channel → State → State
  | [], s => s
  | c :: rest, s => freshChannels rest (s.updChannel c (fun _ => freshChannel c))

/-- Clear the fault unit's settings of each covered channel (R21, R174). -/
def freshFaultChannels : List Channel → State → State
  | [], s => s
  | c :: rest, s => freshFaultChannels rest (updFaultChannel c (fun _ => freshFaultChannel c) s)

/-- The line function controller acts for a channel reset (R47). -/
def resetHolds (covered : List Channel) (s : State) : State :=
  releaseCovered covered allFuncs
    (setClaims (s.lines.claims.filter (fun e => !covered.contains e.channel)) s)

/-- A channel reset covering some channels (R21): the owners act in the order of its table. -/
def channelReset (covered : List Channel) (s : State) : State :=
  engineReset covered (freshFaultChannels covered (resetHolds covered (freshChannels covered s)))

/-- CHANNEL RESET (R22). -/
def answerChannelReset (r : Req) : Server := fun s =>
  let c := s.channels.get r.channel
  (channelReset [r.channel] s, ⟨.ok, [byte c.queue.length, flagByte c.lost]⟩)

/-! ## The commands -/

/-- IDENTIFY (R11). -/
def execIdentify (r : Req) (s : State) : Result := done (arrive (.identify r) (answerIdentify r) s)

/-- FETCH NOTICES (R19). -/
def execFetchNotices (r : Req) (limit : Byte) (s : State) : Result :=
  done (arrive (.fetchNotices r limit) (answerFetchNotices r limit) s)

/-- SUBSCRIBE (R20). -/
def execSubscribe (r : Req) (kinds : BitVec 32) (s : State) : Result :=
  done (arrive (.subscribe r kinds) (answerSubscribe r kinds) s)

/-- CHANNEL RESET (R22). -/
def execChannelReset (r : Req) (s : State) : Result := done (arrive (.channelReset r) (answerChannelReset r) s)

/-- READ TIME (R12). -/
def execReadTime (r : Req) (s : State) : Result := done (arrive (.readTime r) answerReadTime s)

/-- A response leaves the modem port: the sync byte, then the frame (R4). -/
def execModemResponseSent (s : State) : Result :=
  done (s.updModem (fun m =>
    match m.responses with
    | [] => m
    | f :: rest => { m with responses := rest, line := 0x7E :: f }))

/-- The assertion of a port-reset input (R6): the port's bytes and responses go, and one channel reset covers
every channel of the port. -/
def execPortResetAssert (port : PhysPort) (s : State) : Result :=
  let s := match port with
    | .gateway => s.updGateway (fun g => { g with partialFrame := [], held := none, resetInput := true })
    | .modem => s.updModem (fun m => { m with partialFrame := [], responses := [], resetInput := true })
  done (if awake s then channelReset (channelsOf port) s else s)

/-- The release of a port-reset input (R6). -/
def execPortResetRelease (port : PhysPort) (s : State) : Result :=
  done (match port with
    | .gateway => s.updGateway (fun g => { g with resetInput := false })
    | .modem => s.updModem (fun m => { m with partialFrame := [], resetInput := false }))

end Sys2Proof.Machine
end

