-- ==== Sys2Proof/Machine/Claims.lean ====
section
/-! DEFINITION. The line function controller's requests and events (chapter 2). -/

namespace Sys2Proof.Machine

/-! ## CLAIM (R25 to R28) -/

/-- The results of an accepted claim (R25): result 0 ALREADY_HELD, 1 GRANTED, 2 SEIZED, 3 QUEUED. -/
def claimResults (f : Func) (result wait position : Nat) : List Byte :=
  [byte (funcNum f), byte result] ++ half16 wait ++ [byte position]

/-- A claim that enters the queue (R28). -/
def enterClaim (f : Func) (c : Channel) (level wait : Nat) : Server := fun s =>
  let q := insertClaim ⟨c, f, level, s.now + us (wait * 1000)⟩ s.lines.claims
  (setClaims q s, ⟨.queued, claimResults f 3 wait (claimPosition c f q)⟩)

/-- A seize (R27). -/
def seizeFunc (f : Func) (h : Hold) (c : Channel) (level : Nat) (s : State) : State :=
  let s := revokedNotice f h 1 (chanCode c) (removeHold f s)
  makeHold f c level none (dropClaim c f (holdLost f h.holder s))

/-- Checks 7 to 10 of a claim (R25). -/
def waitFor (f : Func) (c : Channel) (level wait : Nat) : Server := fun s =>
  if wait = 0 then refuse .busy s
  else if s.lines.claims.any (isClaim c f) then refuse .alreadyWaiting s
  else if 8 ≤ s.lines.claims.length then refuse .queueFull s
  else enterClaim f c level wait s

/-- CLAIM (R25). -/
def answerClaim (r : Req) (function : Byte) (wait : Half) (seize : Byte) : Server := fun s =>
  let c := r.channel
  let level := effLevel r
  let used := min wait.toNat 10000
  match funcOf function with
  | none => refuse .badFunction s
  | some f =>
    if !funcFitted s f then refuse .notFitted s
    else if (funcRec s f).level < level then refuse .privilege s
    else
      match (funcRec s f).hold with
      | none => (makeHold f c level none s, ⟨.ok, claimResults f 1 used 0⟩)
      | some h =>
        if h.holder = c then
          (updFunc f (fun x => { x with hold := some { h with viaGate := none } }) s,
            ⟨.ok, claimResults f 0 used 0⟩)
        else if seize ≠ 0 ∧ level < h.level then (seizeFunc f h c level s, ⟨.ok, claimResults f 2 used 0⟩)
        else waitFor f c level used s

/-! ## RELEASE and TIGHTEN (R32, R35) -/

/-- A holder's code: 0 MODEM, 1 MANAGEMENT, 2 GATEWAY, 0xFF when free (R32, R36). -/
def holderCode (s : State) (f : Func) : Nat := ((holderOf s f).map chanCode).getD 255

/-- RELEASE (R32). -/
def answerRelease (r : Req) (function : Byte) : Server := fun s =>
  match funcOf function with
  | none => refuse .badFunction s
  | some f =>
    if !funcFitted s f then refuse .notFitted s
    else if !holds s r.channel f then refuse .notHolder s
    else
      let s := releaseFunc f s
      (s, ⟨.ok, [byte (funcNum f), flagByte (holderOf s f).isSome, byte (holderCode s f)]⟩)

/-- Each entry of a list leaves the queue in order with CLAIM_EXPIRED, reason PRIVILEGE (R35 step 2). -/
def expireAll (newLevel : Nat) : List ClaimEntry → State → State
  | [], s => s
  | e :: rest, s => expireAll newLevel rest (expiredNotice e 2 newLevel (dropClaim e.channel e.function s))

/-- A holder revoked under TIGHTEN (R35 step 3). -/
def revokeFunc (f : Func) (h : Hold) (newLevel : Nat) (s : State) : State :=
  grantNext f (holdLost f h.holder (revokedNotice f h 2 newLevel (removeHold f s)))

/-- Steps 1 to 4 of a TIGHTEN that lowers the level (R35). -/
def lowerLevel (f : Func) (newLevel : Nat) (revoke : Bool) : Server := fun s =>
  let s := updFunc f (fun x => { x with level := newLevel }) s
  let gone := s.lines.claims.filter (fun e => decide (e.function = f) && decide (newLevel < e.level))
  let s := expireAll newLevel gone s
  let head := [byte (funcNum f), byte newLevel, byte gone.length]
  match (funcRec s f).hold with
  | some h =>
    if revoke && decide (newLevel < h.level) then
      let s := revokeFunc f h newLevel s
      (s, ⟨.ok, head ++ [1, byte (holderCode s f)]⟩)
    else (s, ⟨.ok, head ++ [0, 0xFF]⟩)
  | none => (s, ⟨.ok, head ++ [0, 0xFF]⟩)

/-- TIGHTEN (R35). -/
def answerTighten (r : Req) (function newLevel revoke : Byte) : Server := fun s =>
  if 0 < effLevel r then refuse .privilege s
  else
    match funcOf function with
    | none => refuse .badFunction s
    | some f =>
      if 3 < newLevel.toNat then refuse .badRequest s
      else if !funcFitted s f then refuse .notFitted s
      else if (funcRec s f).level ≤ newLevel.toNat then
        report [byte (funcNum f), byte (funcRec s f).level, 0, 0, 0xFF] s
      else lowerLevel f newLevel.toNat (revoke != 0) s

/-! ## Reading (R36, R37) -/

/-- The holder, its recorded level and its gate, coded as R36 gives. -/
def holdBytes (s : State) (f : Func) : List Byte :=
  let h := (funcRec s f).hold
  [byte (holderCode s f), optByte 255 (h.map (·.level)), optByte 255 (h.bind (·.viaGate))]

/-- QUERY FUNCTION (R36). -/
def answerQueryFunction (r : Req) (function : Byte) : Server := fun s =>
  match funcOf function with
  | none => refuse .badFunction s
  | some f =>
    let x := funcRec s f
    report ([byte (funcNum f), flagByte (funcFitted s f), byte x.level] ++ holdBytes s f ++
      wordBytes ((x.hold.map (·.grantedAt)).getD 0) ++
      [byte (s.lines.claims.countP (fun e => decide (e.function = f))),
        byte (claimPosition r.channel f s.lines.claims),
        flagByte (funcFitted s f && decide (effLevel r ≤ x.level))]) s

/-- One function's entry in READ FUNCTIONS (R37). -/
def functionBytes (s : State) (f : Func) : List Byte :=
  byte (if funcFitted s f then (funcRec s f).level else 255) :: holdBytes s f

/-- The relay positions in READ FUNCTIONS (R37). -/
def relayBytes (x : Relays) : List Byte :=
  [byte (contactCode x.lineBreak), byte (contactCode x.pass.p1), byte (contactCode x.pass.p2),
    byte (feedCode x.feed.p1), byte (feedCode x.feed.p2), byte (couplingCode x.dsl), byte (busCode x.bus)]

/-- One claim in READ FUNCTIONS, its time left in units of 50 ms, rounded up (R37). -/
def claimBytes (now : Time) (e : ClaimEntry) : List Byte :=
  [byte (chanCode e.channel), byte (funcNum e.function), byte e.level, byte (ceilDiv (usLeft now e.deadline) 50000)]

/-- READ FUNCTIONS (R37). -/
def answerReadFunctions : Server := fun s =>
  report (allFuncs.flatMap (functionBytes s) ++ relayBytes s.relays ++
    byte s.lines.claims.length :: s.lines.claims.flatMap (claimBytes s.now)) s

/-! ## SET DSL (R39) -/

/-- The coupling a byte names (R39). -/
def couplingOf (b : Byte) : Option Coupling :=
  match b.toNat with
  | 0 => some .decoupled
  | 1 => some .coupled
  | _ => none

/-- An accepted SET DSL: the DSL slot is opened and the switch is in flight (R39). The slot is empty while no
switch is in flight; an occupied one is answered BUSY. -/
def acceptDsl (c : Channel) (target : Coupling) : Server := fun s =>
  match openSlot .dsl .dslSwitch none (some 20) true s with
  | none => refuse .busy s
  | some (s, id) =>
    (startIfActive .dsl (s.setDsl (some ⟨c, target, id⟩)), ⟨.accepted, [id, byte (couplingCode target)]⟩)

/-- SET DSL (R39). -/
def answerSetDsl (r : Req) (coupling : Byte) : Server := fun s =>
  match couplingOf coupling with
  | none => refuse .badRequest s
  | some target =>
    if !holds s r.channel .dsl then refuse .notHolder s
    else if s.relays.bus = .exchange then refuse .testActive s
    else if s.dsl.isSome then refuse .busy s
    else if target = .decoupled ∧ s.power.state = .reserve then refuse .lowPower s
    else if s.relays.dsl = target then report [byte (couplingCode target)] s
    else acceptDsl r.channel target s

/-! ## The commands -/

/-- CLAIM (R25). -/
def execClaim (r : Req) (function : Byte) (wait : Half) (seize : Byte) (s : State) : Result :=
  done (arrive (.claim r function wait seize) (answerClaim r function wait seize) s)

/-- RELEASE (R32). -/
def execRelease (r : Req) (function : Byte) (s : State) : Result :=
  done (arrive (.release r function) (answerRelease r function) s)

/-- QUERY FUNCTION (R36). -/
def execQueryFunction (r : Req) (function : Byte) (s : State) : Result :=
  done (arrive (.queryFunction r function) (answerQueryFunction r function) s)

/-- TIGHTEN (R35). -/
def execTighten (r : Req) (function newLevel revoke : Byte) (s : State) : Result :=
  done (arrive (.tighten r function newLevel revoke) (answerTighten r function newLevel revoke) s)

/-- READ FUNCTIONS (R37). -/
def execReadFunctions (r : Req) (s : State) : Result := done (arrive (.readFunctions r) answerReadFunctions s)

/-- SET DSL (R39). -/
def execSetDsl (r : Req) (coupling : Byte) (s : State) : Result :=
  done (arrive (.setDsl r coupling) (answerSetDsl r coupling) s)

/-- A claim's deadline expires: the entry leaves the queue and its channel is told (R31). An entry that is gone
or not yet due has no expiry. -/
def execClaimDeadlineExpiry (channel : Channel) (function : Func) (s : State) : Result :=
  done (match s.lines.claims.find? (isClaim channel function) with
    | some e => if reached s.now e.deadline then expiredNotice e 1 0 (dropClaim channel function s) else s
    | none => s)

/-- A change set's settle ends and the asking block is told (R42). -/
def execChangeSetComplete (asker : Asker) (s : State) : Result :=
  done (match takeSettle s.now asker s.settles with
    | some rest => settled asker (s.setSettles rest)
    | none => s)

end Sys2Proof.Machine
end

