-- ==== Sys2Proof/Machine/Disturbances.lean ====
section
/-! DEFINITION. The disturbance scheduler's requests and events (chapter 3). -/

namespace Sys2Proof.Machine

/-! ## BRACED and DEFER (R51, R52) -/

/-- BRACED (R51). -/
def answerBraced (r : Req) (id : Byte) : Server := fun s =>
  if r.channel ≠ .modem then refuse .wrongChannel s
  else
    match slotWithId s id with
    | none => refuse .unknownDisturbance s
    | some i => if slotActive s i then report [id, 0] s else (activate i s, ⟨.ok, [id, 1]⟩)

/-- The extra used by DEFER (R52). -/
def extraUsed (extra : Byte) : Nat := clamp 1 200 extra.toNat

/-- The record after a DEFER (R52): moved only when NOTIFIED and deferrable. -/
def deferRecord (extra : Nat) (d : Disturbance) : Disturbance × Bool :=
  match d.state with
  | .notified t => if d.deferrable then ({ d with state := .deferred (t + ms extra) }, true) else (d, false)
  | _ => (d, false)

/-- DEFER (R52). -/
def answerDefer (r : Req) (id extra : Byte) : Server := fun s =>
  if r.channel ≠ .modem then refuse .wrongChannel s
  else
    match slotWithId s id with
    | none => refuse .unknownDisturbance s
    | some i =>
      match slotRec s i with
      | none => refuse .unknownDisturbance s
      | some d =>
        let (d', moved) := deferRecord (extraUsed extra) d
        (setSlot i (some d') s,
          ⟨.ok, [id, flagByte moved, byte (extraUsed extra)] ++ half16 (msLeft s.now (leadDeadline d'))⟩)

/-! ## SET LEAD and READ DISTURBANCES (R56, R64) -/

/-- SET LEAD (R56). -/
def answerSetLead (r : Req) (lead : Half) : Server := fun s =>
  if 1 < effLevel r then refuse .privilege s
  else
    let used := min lead.toNat 500
    (s.updSched (fun k => { k with lead := used }), ⟨.ok, half16 used⟩)

/-- A record's state code: 1 NOTIFIED, 2 DEFERRED, 3 ACTIVE (R64). -/
def RecordState.code : RecordState → Nat
  | .notified _ => 1
  | .deferred _ => 2
  | .active _ => 3

/-- One slot in READ DISTURBANCES (R64). -/
def slotBytes (now : Time) : Option Disturbance → List Byte
  | none => List.replicate 9 0
  | some d =>
    [byte d.state.code, d.id, byte d.work.code, byte (optPort d.port),
      byte (bitOf 6 d.duration.isNone + bitOf 7 d.deferrable)] ++
      half16 (msLeft now (leadDeadline d)) ++ half16 (durationField d.duration)

/-- Source codes 1 to 5 (R64). -/
def WindowSource.code : WindowSource → Nat
  | .relay => 1
  | .ringBurst => 2
  | .hook => 3
  | .exchangeBurst => 4
  | .test => 5

/-- A window's length field: 65 535 while open (R64). -/
def windowLength (w : Window) : Nat :=
  match w.stop with
  | some e => saturate 65534 (ceilDiv (e - w.start).toNat 1000)
  | none => 65535

/-- One window in READ DISTURBANCES (R64). -/
def windowBytes (w : Window) : List Byte :=
  wordBytes w.start ++ half16 (windowLength w) ++
    [byte (w.source.code + 16 * optPort w.port + bitOf 7 w.merged)]

/-- READ DISTURBANCES (R64). -/
def answerReadDisturbances (part : Byte) : Server := fun s =>
  match part.toNat with
  | 0 =>
    report (0 :: half16 s.sched.lead ++ s.sched.nextId ::
      allSlots.flatMap (fun i => slotBytes s.now (slotRec s i))) s
  | 1 => report (1 :: byte s.sched.windows.length :: s.sched.windows.flatMap windowBytes) s
  | _ => refuse .badRequest s

/-! ## The commands -/

/-- BRACED (R51). -/
def execBraced (r : Req) (id : Byte) (s : State) : Result := done (arrive (.braced r id) (answerBraced r id) s)

/-- DEFER (R52). -/
def execDefer (r : Req) (id extra : Byte) (s : State) : Result :=
  done (arrive (.defer r id extra) (answerDefer r id extra) s)

/-- SET LEAD (R56). -/
def execSetLead (r : Req) (lead : Half) (s : State) : Result :=
  done (arrive (.setLead r lead) (answerSetLead r lead) s)

/-- READ DISTURBANCES (R64). -/
def execReadDisturbances (r : Req) (part : Byte) (s : State) : Result :=
  done (arrive (.readDisturbances r part) (answerReadDisturbances part) s)

/-- A record's lead timer expires: the record becomes ACTIVE (R53). -/
def execLeadExpiry (slot : SlotId) (s : State) : Result :=
  done (match slotRec s slot with
    | some d => if timerDue s.now (leadDeadline d) then activate slot s else s
    | none => s)

/-- A window's removal timer expires: the first due window leaves the list for the tracker (R61). -/
def execBlankingWindowRemoval (s : State) : Result := done (removeOne s)

end Sys2Proof.Machine
end

