-- ==== Sys2Proof/Machine/FaultCommands.lean ====
section
/-! DEFINITION. The fault unit's requests and events: isolation and detectors (chapter 9), the log, the capture
record and the per-channel settings (chapter 10). -/

namespace Sys2Proof.Machine

/-! ## SET CLASS LEVEL, RELEASE LOCKOUT, READ ISOLATION (R157, R165, R166) -/

/-- SET CLASS LEVEL (R157). -/
def answerSetClassLevel (r : Req) (cls level : Byte) : Server := fun s =>
  if 1 < effLevel r then refuse .privilege s
  else
    match softClassOf cls with
    | none => refuse .badRequest s
    | some c =>
      let used := min level.toNat 7
      (s.updFaults (fun u => { u with levels := setLevel u.levels c used }),
        ⟨.ok, [cls, byte used, byte (levelOf s.faults.levels c)]⟩)

/-- RELEASE LOCKOUT (R165). A request that finds no lockout answers released 0 and cause 0. -/
def answerReleaseLockout (r : Req) : Server := fun s =>
  if 0 < effLevel r then refuse .privilege s
  else
    match s.faults.isolation with
    | .lockout why _ _ =>
      if s.pins.hazard then refuse .hazardPresent s
      else (endIsolation .released 1 s, ⟨.ok, [1, byte why.code]⟩)
    | _ => report [0, 0] s

/-- The isolation record in READ ISOLATION (R166). -/
def isolationBytes (now : Time) (i : Isolation) : List Byte :=
  let timer := match i with
    | .isolating _ t _ _ => t
    | _ => none
  let since := match i with
    | .normal => 0
    | .isolating _ _ _ t => t
    | .lockout _ _ t => t
  let why := match i with
    | .lockout w _ _ => w.code
    | _ => 0
  [byte i.code, byte i.dwell] ++ half16 (msLeft now timer) ++ [byte ((i.cause.map FaultClass.num).getD 255)] ++
    wordBytes since ++ [byte why]

/-- The battery watch's expiry (R160). -/
def watchDue (w : BatteryWatch) : Option Time := w.started.map (fun t => t + ms 5000)

/-- READ ISOLATION (R166). -/
def answerReadIsolation : Server := fun s =>
  let u := s.faults
  report (isolationBytes s.now u.isolation ++
    [byte (contactCode s.relays.lineBreak),
      byte (bitOf 0 s.pins.hazard + bitOf 1 s.pins.thermal + bitOf 2 s.pins.dcLow),
      byte (bitOf 0 u.watch.started.isSome + bitOf 1 u.watch.lost)] ++
    half16 (msLeft s.now (watchDue u.watch)) ++ allClasses.map (fun c => byte (levelOf u.levels c))) s

/-! ## The log and the capture record (R170, R171, R173) -/

/-- A source as its number, 0xFF when absent (R170). -/
def sourceByte (x : Option Nat) : Byte := optByte 255 x

/-- A brief record (R170). -/
def briefRecord (x : LogRecord) : List Byte :=
  wordBytes x.sequence ++ [byte x.cls.num, byte x.level, sourceByte x.source, byte x.repeats] ++
    wordBytes x.lastTime

/-- A full record (R170). -/
def fullRecord (x : LogRecord) : List Byte :=
  wordBytes x.sequence ++ [byte x.cls.num, byte x.level, sourceByte x.source, byte x.repeats] ++
    wordBytes x.firstTime ++ wordBytes x.lastTime ++ wordBytes (x.detail1.getD 0) ++ wordBytes (x.detail2.getD 0)

/-- The records a READ LOG selects: sequence minus from below 2^31 (R170). -/
def selectRecords (from_ : BitVec 32) (log : List LogRecord) : List LogRecord :=
  log.filter (fun x => decide ((x.sequence - from_).toNat < 2 ^ 31))

/-- READ LOG (R170). -/
def answerReadLog (fromSeq : BitVec 32) (form : Byte) : Server := fun s =>
  let u := s.faults
  let head (n : Nat) : List Byte := [form, byte u.log.length,
    byte (bitOf 0 u.discarded + bitOf 1 (decide (u.policy = .keepFirst))), byte n]
  let records := selectRecords fromSeq u.log
  match form.toNat with
  | 0 => report (head (records.take 4).length ++ (records.take 4).flatMap briefRecord) s
  | 1 => report (head (records.take 2).length ++ (records.take 2).flatMap fullRecord) s
  | _ => refuse .badRequest s

/-- CLEAR LOG (R171). -/
def answerClearLog (r : Req) : Server := fun s =>
  if 1 < effLevel r then refuse .privilege s
  else (s.updFaults (fun u => { u with log := [], discarded := false }), ⟨.ok, [byte s.faults.log.length]⟩)

/-- The policy a byte names (R171). -/
def policyOf (b : Byte) : Option LogPolicy :=
  match b.toNat with
  | 0 => some .keepNewest
  | 1 => some .keepFirst
  | _ => none

/-- SET LOG POLICY (R171). -/
def answerSetLogPolicy (r : Req) (policy : Byte) : Server := fun s =>
  if 1 < effLevel r then refuse .privilege s
  else
    match policyOf policy with
    | none => refuse .badRequest s
    | some x => (s.updFaults (fun u => { u with policy := x }), ⟨.ok, [policy]⟩)

/-- The capture record in READ CAPTURE (R173). -/
def captureBytes : Option Capture → List Byte
  | none => List.replicate 23 0
  | some c =>
    [1, byte c.cls.num, byte c.level] ++ wordBytes c.sequence ++ wordBytes c.uptime ++ wordBytes c.timebase ++
      wordBytes (c.detail1.getD 0) ++ wordBytes (c.detail2.getD 0)

/-- READ CAPTURE (R173). -/
def answerReadCapture : Server := fun s => report (captureBytes s.faults.capture) s

/-- CLEAR CAPTURE (R173). -/
def answerClearCapture (r : Req) : Server := fun s =>
  if 1 < effLevel r then refuse .privilege s
  else (s.updFaults (fun u => { u with capture := none }), ⟨.ok, [flagByte s.faults.capture.isSome]⟩)

/-! ## Masks, threshold, latches and the quiet period (R176 to R178) -/

/-- The soft classes' bits, 3 to 13 (R176). -/
def maskable : BitVec 16 := 0x3FF8

/-- SET MASKS (R176). -/
def answerSetMasks (r : Req) (masks : Half) : Server := fun s =>
  let used := masks &&& maskable
  (releaseLatches r.channel (updFaultChannel r.channel (fun k => { k with masks := used }) s),
    ⟨.ok, halfBytes used⟩)

/-- SET THRESHOLD (R176). -/
def answerSetThreshold (r : Req) (threshold : Byte) : Server := fun s =>
  let used := min threshold.toNat 7
  (releaseLatches r.channel (updFaultChannel r.channel (fun k => { k with threshold := used }) s),
    ⟨.ok, [byte used]⟩)

/-- CLEAR PENDING (R178). -/
def answerClearPending (r : Req) (classes : Half) : Server := fun s =>
  let named (x : Latch) : Bool := classes.getLsbD x.cls.num
  let before := (s.faults.channels.get r.channel).latches
  (updFaultChannel r.channel (fun k => { k with latches := k.latches.filter (fun x => !named x) }) s,
    ⟨.ok, [byte (before.countP named)]⟩)

/-- The quiet period's end after a START QUIET (R177). -/
def quietEndAfter (uptime : BitVec 32) (seconds : Nat) (now : Option (BitVec 32)) : BitVec 32 :=
  let t := uptime + BitVec.ofNat 32 seconds
  match now with
  | none => t
  | some e => later uptime e t

/-- START QUIET (R177). -/
def answerStartQuiet (r : Req) (seconds : Half) : Server := fun s =>
  if 1 < effLevel r then refuse .privilege s
  else
    let used := clamp 1 3600 seconds.toNat
    let e := quietEndAfter s.uptime used s.faults.quiet
    (s.updFaults (fun u => { u with quiet := some e }),
      ⟨.ok, half16 used ++ half16 (e - s.uptime).toNat⟩)

/-- END QUIET (R177). -/
def answerEndQuiet (r : Req) : Server := fun s =>
  if 1 < effLevel r then refuse .privilege s
  else
    match s.faults.quiet with
    | some _ => (quietEnds s, ⟨.ok, [1]⟩)
    | none => report [0] s

/-! ## The commands -/

/-- SET CLASS LEVEL (R157). -/
def execSetClassLevel (r : Req) (cls level : Byte) (s : State) : Result :=
  done (arrive (.setClassLevel r cls level) (answerSetClassLevel r cls level) s)

/-- RELEASE LOCKOUT (R165). -/
def execReleaseLockout (r : Req) (s : State) : Result :=
  done (arrive (.releaseLockout r) (answerReleaseLockout r) s)

/-- READ ISOLATION (R166). -/
def execReadIsolation (r : Req) (s : State) : Result := done (arrive (.readIsolation r) answerReadIsolation s)

/-- The surge trip fires (R158, R162). -/
def execSurge (s : State) : Result :=
  done (if awake s then hardEvent .surge (if s.pins.hazard then 1 else 0) s else s)

/-- The hazard level detector asserts (R158, R162). -/
def execHazardAssert (s : State) : Result :=
  let s := s.updPins (fun x => { x with hazard := true })
  done (if awake s then hardEvent .hazardVoltage s.faults.isolation.dwell s else s)

/-- The hazard level detector deasserts: its level is read where a rule needs it (R158). -/
def execHazardDeassert (s : State) : Result := done (s.updPins (fun x => { x with hazard := false }))

/-- The dwell timer expires (R163). -/
def execDwellExpiry (s : State) : Result :=
  done (match s.faults.isolation with
    | .isolating dwell timer cause since => if timerDue s.now timer then dwellEnds dwell cause since s else s
    | _ => s)

/-- The driver thermal input asserts (R159). -/
def execThermalAssert (s : State) : Result :=
  let s := s.updPins (fun x => { x with thermal := true })
  done (if awake s then
      let n := sessionCount s
      let s := endAllSessions .thermal s
      raiseFault (raisedAt s .thermal none n 0) s
    else s)

/-- The driver thermal input deasserts (R159). -/
def execThermalDeassert (s : State) : Result := done (s.updPins (fun x => { x with thermal := false }))

/-- The exchange DC sense's low input changes; its deassertion ends lost (R160). -/
def execExchangeDcLowChange (low : Bool) (s : State) : Result :=
  let s := s.updPins (fun x => { x with dcLow := low })
  done (if awake s then
      judgeWatch (if low then s else s.updFaults (fun u => { u with watch := { u.watch with lost := false } }))
    else s)

/-- The battery watch's timer expires (R160). -/
def execBatteryWatchExpiry (s : State) : Result :=
  done (match s.faults.watch.started with
    | some t =>
      if reached s.now (t + ms 5000) then
        let s := s.updFaults (fun u => { u with watch := ⟨none, true⟩ })
        raiseFault (raisedAt s .lineBatteryLost none t.toNat 0) s
      else s
    | none => s)

/-- READ LOG (R170). -/
def execReadLog (r : Req) (fromSeq : BitVec 32) (form : Byte) (s : State) : Result :=
  done (arrive (.readLog r fromSeq form) (answerReadLog fromSeq form) s)

/-- CLEAR LOG (R171). -/
def execClearLog (r : Req) (s : State) : Result := done (arrive (.clearLog r) (answerClearLog r) s)

/-- SET LOG POLICY (R171). -/
def execSetLogPolicy (r : Req) (policy : Byte) (s : State) : Result :=
  done (arrive (.setLogPolicy r policy) (answerSetLogPolicy r policy) s)

/-- READ CAPTURE (R173). -/
def execReadCapture (r : Req) (s : State) : Result := done (arrive (.readCapture r) answerReadCapture s)

/-- CLEAR CAPTURE (R173). -/
def execClearCapture (r : Req) (s : State) : Result := done (arrive (.clearCapture r) (answerClearCapture r) s)

/-- SET MASKS (R176). -/
def execSetMasks (r : Req) (masks : Half) (s : State) : Result :=
  done (arrive (.setMasks r masks) (answerSetMasks r masks) s)

/-- SET THRESHOLD (R176). -/
def execSetThreshold (r : Req) (threshold : Byte) (s : State) : Result :=
  done (arrive (.setThreshold r threshold) (answerSetThreshold r threshold) s)

/-- CLEAR PENDING (R178). -/
def execClearPending (r : Req) (classes : Half) (s : State) : Result :=
  done (arrive (.clearPending r classes) (answerClearPending r classes) s)

/-- START QUIET (R177). -/
def execStartQuiet (r : Req) (seconds : Half) (s : State) : Result :=
  done (arrive (.startQuiet r seconds) (answerStartQuiet r seconds) s)

/-- END QUIET (R177). -/
def execEndQuiet (r : Req) (s : State) : Result := done (arrive (.endQuiet r) (answerEndQuiet r) s)

/-- Uptime reaches the quiet period's end (R177). -/
def execQuietExpiry (s : State) : Result :=
  done (if timerDue s.uptime s.faults.quiet then quietEnds s else s)

end Sys2Proof.Machine
end

