-- ==== Sys2Proof/Machine/PortCommands.lean ====
section
/-! DEFINITION. The port controllers' requests and events: modes and feed (chapter 5), hook supervision and
the dial record (chapter 6). -/

namespace Sys2Proof.Machine

/-- A fitted port named by a request, or the refusal its checks 1 and 2 give. -/
def withPort (b : Byte) (serve : Port → Server) : Server := fun s =>
  match portOf b with
  | none => refuse .badRequest s
  | some p => if portFitted s p then serve p s else refuse .notFitted s

/-! ## SET MODE (R93, R94) -/

/-- The mode a byte names (R93). -/
def modeOf (b : Byte) : Option PlainMode :=
  match b.toNat with
  | 0 => some .lifeline
  | 1 => some .local_
  | _ => none

/-- The resting mode a port's settled mode is; none while a switch is in flight. -/
def settledMode : Mode → Option PlainMode
  | .lifeline => some .lifeline
  | .local_ => some .local_
  | _ => none

/-- An accepted switch (R94). -/
def acceptSwitch (p : Port) (target : PlainMode) (c : Channel) (forced : Bool) : Server := fun s =>
  let s := endSession p .mode 0 s
  match openSlot (portSlot p) .modeSwitch (some p) (some 40) (!forced) s with
  | none => refuse .busy s
  | some (s, id) =>
    let s := s.updPort p (fun q => { q with
      switch := some ⟨restingMode q, target, c, forced, id, .lead⟩
      mode := target.moving })
    (startIfActive (portSlot p) s, ⟨.accepted, [id, byte target.code]⟩)

/-- Checks 3 to 10 of SET MODE (R93). -/
def decideMode (r : Req) (target : PlainMode) (force : Bool) (p : Port) : Server := fun s =>
  let q := s.port p
  if !holds s r.channel (portFunc p) then refuse .notHolder s
  else if settledMode q.mode = some target then report [byte target.code] s
  else if q.switch.isSome then refuse .busy s
  else if target = .local_ ∧ s.power.state = .reserve then refuse .lowPower s
  else if target = .lifeline ∧ s.relays.bus = .exchange ∨ q.underTest then refuse .testActive s
  else if force = false ∧ q.sup.state ≠ .onHook then refuse .busyVoice s
  else if force ∧ 1 < effLevel r then refuse .privilege s
  else acceptSwitch p target r.channel force s

/-- SET MODE (R93). -/
def answerSetMode (r : Req) (port mode force : Byte) : Server := fun s =>
  match portOf port, modeOf mode with
  | some _, some target => withPort port (decideMode r target (force != 0)) s
  | _, _ => refuse .badRequest s

/-! ## READ PORT (R104) -/

/-- 0 ON_HOOK, 1 SEIZING, 2 OFF_HOOK, 3 BREAK (R105). -/
def HookState.code : HookState → Nat
  | .onHook => 0
  | .seizing => 1
  | .offHook => 2
  | .break_ => 3

/-- 1 LEAD, 2 BREAK, 3 MAKE (R104). -/
def SwitchStage.code : SwitchStage → Nat
  | .lead => 1
  | .break_ => 2
  | .make => 3

/-- The switch fields of READ PORT: stage, id, requester, forced (R104). -/
def switchBytes : Option ModeSwitch → List Byte
  | none => [0, 0, 0xFF, 0]
  | some w => [byte w.stage.code, w.id, byte (chanCode w.requester), flagByte w.forced]

/-- The denial fields of READ PORT: stage, failed probes, denied since (R104). -/
def denialBytes : Option Denial → List Byte
  | none => 0 :: 0 :: wordBytes 0
  | some d =>
    byte (match d.stage with
      | .waiting _ => 1
      | .probing _ => 2) :: byte d.failed :: wordBytes d.since

/-- READ PORT (R104). -/
def answerReadPort (port : Byte) : Server :=
  withPort port (fun p s =>
    let q := s.port p
    report ([byte (portNum p), byte q.mode.code] ++ switchBytes q.switch ++
      [byte (contactCode (s.relays.pass.get p)), byte (feedCode (s.relays.feed.get p))] ++
      denialBytes q.denial ++ [flagByte q.underTest, flagByte q.suspended, byte q.sup.state.code]) s)

/-! ## Hook timing and the dial record (R108, R115, R119) -/

/-- The five values of a SET HOOK TIMING after clamping (R108 step 4). -/
def clampTiming (seize glitch pulseMax flashMax digitGap : Half) : HookTiming :=
  ⟨clamp 10 100 seize.toNat, clamp 5 40 glitch.toNat, clamp 60 200 pulseMax.toNat,
    clamp 200 1500 flashMax.toNat, clamp 150 800 digitGap.toNat⟩

/-- The conditions a set in force satisfies (R107). -/
def HookTiming.consistent (t : HookTiming) : Bool :=
  decide (t.glitch < t.pulseMax) && decide (t.pulseMax < t.flashMax) && decide (t.pulseMax < t.digitGap)

/-- The five values of a set in operand order (R108, R119). -/
def timingBytes (t : HookTiming) : List Byte :=
  half16 t.seize ++ half16 t.glitch ++ half16 t.pulseMax ++ half16 t.flashMax ++ half16 t.digitGap

/-- SET HOOK TIMING (R108). -/
def answerSetHookTiming (r : Req) (port : Byte) (seize glitch pulseMax flashMax digitGap : Half) : Server :=
  withPort port (fun p s =>
    let t := clampTiming seize glitch pulseMax flashMax digitGap
    if !holds s r.channel (portFunc p) then refuse .notHolder s
    else if !t.consistent then refuse .outOfRange s
    else (s.updPort p (fun q => { q with timing := t }), ⟨.ok, byte (portNum p) :: timingBytes t⟩))

/-- The conditions byte of READ DIAL (R119). -/
def dialConditions (s : State) (p : Port) : Nat :=
  let u := (s.port p).sup
  bitOf 0 u.frozen.isSome + bitOf 1 u.masked + bitOf 2 (lifelineCond s p) +
    bitOf 3 (decide (loopSource s p = some .bias))

/-- READ DIAL (R119). -/
def answerReadDial (port : Byte) : Server :=
  withPort port (fun p s =>
    let q := s.port p
    report ([byte (portNum p), byte q.sup.state.code, byte (dialConditions s p), byte q.sup.pulses] ++
      timingBytes q.timing ++ [flagByte q.overflow, byte q.dial.length] ++
      q.dial.map (fun e => byte e.code)) s)

/-- CLEAR DIAL (R115). -/
def answerClearDial (r : Req) (port : Byte) : Server :=
  withPort port (fun p s =>
    if !holds s r.channel (portFunc p) then refuse .notHolder s
    else
      let q := s.port p
      (s.updPort p (fun q => { q with dial := [], overflow := false }),
        ⟨.ok, [byte (portNum p), byte q.dial.length, flagByte q.overflow]⟩))

/-! ## The commands -/

/-- SET MODE (R93). -/
def execSetMode (r : Req) (port mode force : Byte) (s : State) : Result :=
  done (arrive (.setMode r port mode force) (answerSetMode r port mode force) s)

/-- READ PORT (R104). -/
def execReadPort (r : Req) (port : Byte) (s : State) : Result :=
  done (arrive (.readPort r port) (answerReadPort port) s)

/-- A port's over-limit input changes (R99). -/
def execFeedOverLimitChange (p : Port) (asserted : Bool) (s : State) : Result :=
  let s := s.updPins (fun x => { x with overLimit := x.overLimit.set p asserted })
  done (if awake s && portFitted s p then judgeOverload p s else s)

/-- The overload timer expires (R100). -/
def execFeedDenial (p : Port) (s : State) : Result :=
  done (match (s.port p).overload with
    | some t => if reached s.now (t + ms 100) then denyFeed p t s else s
    | none => s)

/-- The retry timer expires (R101). -/
def execProbeStart (p : Port) (s : State) : Result :=
  done (match (s.port p).denial with
    | some d =>
      match d.stage with
      | .waiting due => if reached s.now due then beginProbe p d s else s
      | .probing _ => s
    | none => s)

/-- The probe timer expires (R101). -/
def execProbeEnd (p : Port) (s : State) : Result :=
  done (match (s.port p).denial with
    | some d =>
      match d.stage with
      | .probing due => if reached s.now due then finishProbe p d s else s
      | .waiting _ => s
    | none => s)

/-- SET HOOK TIMING (R108). -/
def execSetHookTiming (r : Req) (port : Byte) (seize glitch pulseMax flashMax digitGap : Half) (s : State) : Result :=
  done (arrive (.setHookTiming r port seize glitch pulseMax flashMax digitGap)
    (answerSetHookTiming r port seize glitch pulseMax flashMax digitGap) s)

/-- READ DIAL (R119). -/
def execReadDial (r : Req) (port : Byte) (s : State) : Result :=
  done (arrive (.readDial r port) (answerReadDial port) s)

/-- CLEAR DIAL (R115). -/
def execClearDial (r : Req) (port : Byte) (s : State) : Result :=
  done (arrive (.clearDial r port) (answerClearDial r port) s)

/-- One of a port's loop senses changes its reading (R106, R109, R110). -/
def execLoopChange (p : Port) (sense : LoopSense) (present : Bool) (s : State) : Result :=
  let s := s.updPins (fun x => match sense with
    | .passThrough => { x with loopPass := x.loopPass.set p present }
    | .feedCurrent => { x with loopFeed := x.loopFeed.set p present })
  done (if awake s then senseLoop p s else s)

/-- The seize timer expires (R109). A supervisor that is frozen or masked has no running timer (R113). -/
def execSeizeTimerExpiry (p : Port) (s : State) : Result :=
  done (if (s.port p).sup.seizeTimer.isDue s.now then seize p .loop s else s)

/-- The break timer expires (R110). -/
def execBreakTimerExpiry (p : Port) (s : State) : Result :=
  done (if (s.port p).sup.breakTimer.isDue s.now then releasePort p s else s)

/-- The digit gap timer expires (R111). -/
def execDigitGapExpiry (p : Port) (s : State) : Result :=
  done (if (s.port p).sup.gapTimer.isDue s.now then
      completeDigit p (s.updSup p (fun u => { u with gapTimer := .stopped }))
    else s)

end Sys2Proof.Machine
end

