-- ==== Sys2Proof/Machine/RingCommands.lean ====
section
/-! DEFINITION. The ring unit's requests and events (chapter 7). -/

namespace Sys2Proof.Machine

/-! ## RING and STOP RING (R123, R124, R130) -/

/-- The expected duration of a session's record in ms: absent for 0 cycles (R49, R124). -/
def ringDuration (steps : List CadenceStep) (cycles : Nat) : Option Nat :=
  if cycles = 0 then none else some (cycleLength steps * cycles)

/-- An accepted RING (R124). -/
def acceptRing (p : Port) (c : Channel) (cadence cycles : Nat) (steps : List CadenceStep) : Server := fun s =>
  match openSlot (portSlot p) .ringSession (some p) (ringDuration steps cycles) false s with
  | none => refuse .busy s
  | some (s, id) =>
    let x : RingSession :=
      ⟨.notifying, steps, cadence, 1, if cycles = 0 then none else some cycles, 0, 0, c, id, none, none⟩
    (startIfActive (portSlot p) (setSession p (some x) s), ⟨.accepted, [id, byte cadence, byte cycles]⟩)

/-- Checks 3 to 11 of RING (R123). -/
def decideRing (r : Req) (cadence cycles : Nat) (p : Port) : Server := fun s =>
  let q := s.port p
  let steps := s.ring.cadences.get cadence
  if !holds s r.channel (portFunc p) then refuse .notHolder s
  else if 3 < cadence then refuse .badRequest s
  else if steps = [] then refuse .noCadence s
  else if q.mode ≠ .local_ then refuse .wrongMode s
  else if q.underTest then refuse .testActive s
  else if s.power.state = .reserve then refuse .lowPower s
  else if s.pins.thermal then refuse .thermal s
  else if q.sup.state ≠ .onHook ∨ q.denial.isSome then refuse .busyVoice s
  else if (session s p).isSome then refuse .busy s
  else acceptRing p r.channel cadence cycles steps s

/-- RING (R123). -/
def answerRing (r : Req) (port cadence cycles : Byte) : Server :=
  withPort port (decideRing r cadence.toNat cycles.toNat)

/-- STOP RING (R130). -/
def answerStopRing (r : Req) (port : Byte) : Server :=
  withPort port (fun p s =>
    if !holds s r.channel (portFunc p) then refuse .notHolder s
    else
      match session s p with
      | none => report [byte (portNum p), 0, 0] s
      | some x => (endSession p .stopped 0 s, ⟨.ok, [byte (portNum p), 1, byte x.cyclesDone]⟩))

/-! ## SET CADENCE and SET EXCHANGE RING COUNT (R121, R133) -/

/-- The nearest multiple of 50, a value exactly halfway rounding up (R121). -/
def roundTo50 (n : Nat) : Nat := (n + 25) / 50 * 50

/-- The step used for a step asked (R121). -/
def stepUsed (x : StepArg) : CadenceStep :=
  ⟨clamp 100 3000 (roundTo50 x.on.toNat), clamp 100 6000 (roundTo50 x.off.toNat)⟩

/-- Steps in the operand layout (R121). -/
def cadenceBytes (l : List CadenceStep) : List Byte := l.flatMap (fun c => half16 c.on ++ half16 c.off)

/-- SET CADENCE (R121). -/
def answerSetCadence (r : Req) (entry stepCount : Byte) (steps : List StepArg) : Server := fun s =>
  if 1 < effLevel r then refuse .privilege s
  else if 3 < entry.toNat ∨ 3 < stepCount.toNat ∨ steps.length ≠ stepCount.toNat then refuse .badRequest s
  else
    let used := steps.map stepUsed
    (s.updRing (fun x => { x with cadences := x.cadences.set entry.toNat used }),
      ⟨.ok, entry :: stepCount :: cadenceBytes used⟩)

/-- SET EXCHANGE RING COUNT (R133). -/
def answerSetExchangeRingCount (r : Req) (n : Byte) : Server := fun s =>
  if 1 < effLevel r then refuse .privilege s
  else
    let used := min n.toNat 15
    (updExchange (fun x => { x with every := used, count := 0 }) s, ⟨.ok, [byte used]⟩)

/-! ## READ RING (R134) -/

/-- A session's state code with the skipping bit (R134). -/
def RingState.code : RingState → Nat
  | .notifying => 1
  | .burst _ => 2
  | .silent skipping => 3 + bitOf 7 skipping

/-- One port in READ RING (R134). -/
def sessionBytes : Option RingSession → List Byte
  | none => [0, 0, 0, 0, 0, 0, 0, 0xFF, 0]
  | some x =>
    [byte x.state.code, byte x.cadence, byte x.stepIndex] ++ half16 (x.cyclesLeft.getD 0xFFFF) ++
      [byte x.cyclesDone, byte x.skipped, byte (chanCode x.issuer), x.id]

/-- The exchange record in READ RING (R134). -/
def exchangeBytes (now : Time) (x : ExchangeRing) : List Byte :=
  [byte (bitOf 0 x.ringing + bitOf 7 x.burstOn), byte x.bursts, byte x.every, byte x.count] ++
    half16 (msLeft now x.gapDue)

/-- The generator in READ RING (R134). -/
def generatorCode (g : PerPort Bool) : Nat := bitOf 0 g.p1 + bitOf 1 g.p2

/-- One cadence entry in READ RING: unused steps read 0 (R134). -/
def entryBytes (l : List CadenceStep) : List Byte :=
  byte l.length :: cadenceBytes ((l ++ List.replicate 3 (⟨0, 0⟩ : CadenceStep)).take 3)

/-- READ RING (R134). -/
def answerReadRing (part : Byte) : Server := fun s =>
  match part.toNat with
  | 0 =>
    report (0 :: sessionBytes (session s .p1) ++ sessionBytes (session s .p2) ++
      exchangeBytes s.now s.ring.exchange ++ [byte (generatorCode s.ring.generator)]) s
  | 1 => report (1 :: s.ring.cadences.toList.flatMap entryBytes) s
  | _ => refuse .badRequest s

/-! ## Ring faults (R128) -/

/-- One port's session ends at the ring fault timer's expiry: the session first, then RING_FAULT (R128, R129). -/
def ringFaultPort (p : Port) (s : State) : State :=
  match session s p with
  | some x =>
    raiseFault (raisedAt s .ringFault (some (portNum p)) x.cyclesDone x.stepIndex) (endSession p .fault 1 s)
  | none => s

/-- The ring fault timer expires: every port then in BURST (R128), port 1's session and fault before port 2's (the
model's choice, log entry 37). -/
def ringFaultExpires (s : State) : State :=
  let p2 := inBurst s .p2
  let s := s.updRing (fun r => { r with faultDue := none })
  let s := if inBurst s .p1 then ringFaultPort .p1 s else s
  let s := if p2 then ringFaultPort .p2 s else s
  judgeRingFault s

/-! ## The commands -/

/-- RING (R123). -/
def execRing (r : Req) (port cadence cycles : Byte) (s : State) : Result :=
  done (arrive (.ring r port cadence cycles) (answerRing r port cadence cycles) s)

/-- STOP RING (R130). -/
def execStopRing (r : Req) (port : Byte) (s : State) : Result :=
  done (arrive (.stopRing r port) (answerStopRing r port) s)

/-- SET CADENCE (R121). -/
def execSetCadence (r : Req) (entry stepCount : Byte) (steps : List StepArg) (s : State) : Result :=
  done (arrive (.setCadence r entry stepCount steps) (answerSetCadence r entry stepCount steps) s)

/-- SET EXCHANGE RING COUNT (R133). -/
def execSetExchangeRingCount (r : Req) (n : Byte) (s : State) : Result :=
  done (arrive (.setExchangeRingCount r n) (answerSetExchangeRingCount r n) s)

/-- READ RING (R134). -/
def execReadRing (r : Req) (part : Byte) (s : State) : Result :=
  done (arrive (.readRing r part) (answerReadRing part) s)

/-- A session's phase timer expires (R124). -/
def execRingPhaseTimerExpiry (p : Port) (s : State) : Result :=
  done (match session s p with
    | some x => if timerDue s.now x.phaseDue then phaseEnds p s else s
    | none => s)

/-- A port's ring-trip input changes (R127). -/
def execRingTripInputChange (p : Port) (asserted : Bool) (s : State) : Result :=
  let s := s.updPins (fun x => { x with ringTrip := x.ringTrip.set p asserted })
  done (if awake s then judgeTrip p s else s)

/-- The trip timer expires (R127). -/
def execTripTimerExpiry (p : Port) (s : State) : Result :=
  done (match session s p with
    | some x => if timerDue s.now x.tripDue then tripPort p s else s
    | none => s)

/-- The generator's over-limit input changes (R128). -/
def execRingCurrentLimitChange (asserted : Bool) (s : State) : Result :=
  let s := s.updPins (fun x => { x with ringOver := asserted })
  done (if awake s then judgeRingFault s else s)

/-- The ring fault timer expires (R128). -/
def execRingFaultTimerExpiry (s : State) : Result :=
  done (if timerDue s.now s.ring.faultDue then ringFaultExpires s else s)

/-- Ringing voltage appears on the exchange pair: an onset while the line-break is CLOSED (R131). -/
def execExchangeRingOnset (s : State) : Result :=
  let s := s.updPins (fun x => { x with exchangeRinging := true })
  done (if awake s ∧ s.relays.lineBreak = .closed then ringOnset s else s)

/-- Ringing voltage goes from the exchange pair: the offset of a burst that is on (R131). -/
def execExchangeRingOffset (s : State) : Result :=
  let s := s.updPins (fun x => { x with exchangeRinging := false })
  done (if awake s ∧ s.ring.exchange.burstOn then offsetRecord s else s)

/-- The call gap expires (R132). -/
def execCallGapExpiry (s : State) : Result :=
  done (if timerDue s.now s.ring.exchange.gapDue then endCall 1 none s else s)

end Sys2Proof.Machine
end

