-- ==== Sys2Proof/Machine/SupplyCommands.lean ====
section
/-! DEFINITION. Supply, resets, the power inputs and the settings store (chapter 11). -/

namespace Sys2Proof.Machine

/-! ## SAVE SETTINGS and READ POWER (R181, R184) -/

/-- SAVE SETTINGS (R184). From its acceptance the memory holds a partly written image. -/
def answerSaveSettings (r : Req) : Server := fun s =>
  if 1 < effLevel r then refuse .privilege s
  else if s.power.state = .reserve then refuse .lowPower s
  else if s.store.saving.isSome then refuse .storeBusy s
  else
    (s.updStore (fun k => { k with image := .disagreeing, saving := some ⟨settingsOf s, r.channel, s.now⟩ }),
      ⟨.accepted, wordBytes s.now⟩)

/-- 0 GOOD, 1 BLANK, 2 CHECK_FAILED (R181). -/
def LoadResult.code : LoadResult → Nat
  | .good => 0
  | .blank => 1
  | .checkFailed => 2

/-- 0 none, 1 OK, 2 WRITE_FAILED (R181). -/
def LastSave.code : LastSave → Nat
  | .none => 0
  | .ok => 1
  | .writeFailed => 2

/-- READ POWER (R181). -/
def answerReadPower : Server := fun s =>
  let x := s.power
  report ([byte x.state.code, byte (bitOf 0 x.mains + bitOf 1 x.reserve)] ++ wordBytes (x.since.getD 0) ++
    [byte s.store.loadResult.code, flagByte s.store.saving.isSome, byte s.store.lastSave.code]) s

/-- The SAVE_DONE notice (R185). -/
def saveDone (success : Bool) (x : Save) (now : Time) : Notice :=
  notice .saveDone 0 (if success then 0 else 1) now x.acceptedAt

/-- The write of a save completes (R185). -/
def writeEnds (success : Bool) (x : Save) (s : State) : State :=
  let s := s.updStore (fun k => { k with
    image := if success then .written x.items else .disagreeing
    saving := none
    lastSave := if success then .ok else .writeFailed })
  let s := postCompletion (saveDone success x s.now) x.requester s
  if success then s else raiseFault (raisedAt s .storeFault none 2 0) s

/-! ## The commands -/

/-- Supply is applied: the part makes a power-on reset and begins the settings load (R186). -/
def execPowerOnReset (straps : Straps) (s : State) : Result := done (powerOn straps s)

/-- The read of the image completes, whole or not (R183). No load is under way but after a power-on reset. -/
def execSettingsLoadComplete (readCompleted : Bool) (s : State) : Result :=
  done (if s.phase = .loading then loadCompletes readCompleted s else s)

/-- The reset input asserts (R187). Without supply the part takes no reset. -/
def execResetPinAssert (s : State) : Result := done (if s.phase = .unpowered then s else resetPinValues s)

/-- The reset input is released and the part restarts (R187). -/
def execResetPinRelease (straps : Straps) (s : State) : Result :=
  done (if s.phase = .inReset then resetPinRestart straps s else s)

/-- The mains-present input changes (R179, R180). -/
def execMainsInputChange (asserted : Bool) (s : State) : Result :=
  let s := s.updPins (fun x => { x with mains := asserted })
  done (if awake s then powerInputs s else s)

/-- The reserve input changes (R179, R180). -/
def execReserveInputChange (asserted : Bool) (s : State) : Result :=
  let s := s.updPins (fun x => { x with reserve := asserted })
  done (if awake s then powerInputs s else s)

/-- READ POWER (R181). -/
def execReadPower (r : Req) (s : State) : Result := done (arrive (.readPower r) answerReadPower s)

/-- SAVE SETTINGS (R184). -/
def execSaveSettings (r : Req) (s : State) : Result :=
  done (arrive (.saveSettings r) (answerSaveSettings r) s)

/-- The memory reports the end of the write (R185). -/
def execWriteCompletion (success : Bool) (s : State) : Result :=
  done (match s.store.saving with
    | some x => writeEnds success x s
    | none => s)

/-- Supply is lost (R185). -/
def execSupplyLoss (s : State) : Result := done (supplyGone s)

end Sys2Proof.Machine
end

