-- ==== Sys2Proof/Machine/TestCommands.lean ====
section
/-! DEFINITION. The line test engine's requests and events (chapter 8). -/

namespace Sys2Proof.Machine

/-! ## Starting a test (R139, R140, R154) -/

/-- A limit from a request's limit entry: low and high are signed (R139). -/
def limitOf (x : LimitArg) : Limit := ⟨x.number.toNat, x.low.toInt, x.high.toInt⟩

/-- What a request or a gate asks the engine to run. -/
structure Order where
  kind      : TestKind
  target    : Target
  limits    : List Limit
  requester : Channel
  viaGate   : Option Nat
  granted   : Bool
  forced    : Bool
deriving DecidableEq, Repr

/-- A request's kind, target and limits where they are well formed (R139 check 2). -/
def orderOf (kind target : Byte) (limits : List LimitArg) : Option (TestKind × Target × List Limit) :=
  match testKindOf kind, targetOf target with
  | some k, some t =>
    let l := limits.map limitOf
    if targetValid k t && limitsValid k l then some (k, t, l) else none
  | _, _ => none

/-- The test of an order, before its slot is opened (R140 step 1). -/
def newTest (o : Order) (id : Byte) : Test where
  phase := .notify
  kind := o.kind
  target := o.target
  requester := o.requester
  viaGate := o.viaGate
  granted := o.granted
  forced := o.forced
  limits := o.limits
  id := id
  preTest := none
  start := none
  exclusions := []
  openMark := none
  clean := 0
  values := none
  short := false
  abort := none

/-- Tell the port controller of a home test (R140 step 2). -/
def markUnderTest (t : Target) (s : State) : State :=
  match t with
  | .exchange => s
  | .home p => s.updPort p (fun q => { q with underTest := true })

/-- A test is accepted (R140): none where the slot answers occupied. -/
def acceptTest (o : Order) (s : State) : Option (State × Byte) :=
  match openSlot (targetSlot o.target) .testConnect (targetPort o.target) (some (2 * o.kind.measureMs + 40))
      (!o.forced) (markUnderTest o.target s) with
  | none => none
  | some (s, id) =>
    some (startIfActive (targetSlot o.target) (s.updEngine (fun e => { e with test := some (newTest o id) })), id)

/-- The acceptance or BUSY_TEST of a test that has passed every check (R139, R140). -/
def startTest (o : Order) (s : State) : Server := fun before =>
  match acceptTest o s with
  | none => refuse .busyTest before
  | some (s, id) => (s, ⟨.accepted, [id, byte o.kind.code] ++ half16 o.kind.measureMs⟩)

/-- The target's port is not fitted (R139 check 3). -/
def targetUnfitted (s : State) (t : Target) : Bool :=
  match targetPort t with
  | some p => !portFitted s p
  | none => false

/-- The target is EXCHANGE and the isolation state is not NORMAL (R139 check 5). -/
def targetIsolated (s : State) (t : Target) : Bool :=
  decide (t = .exchange) && decide (s.faults.isolation ≠ .normal)

/-- A port in the lifeline condition has its supervisor at OFF_HOOK or BREAK (R139 check 8). -/
def lifelineInUse (s : State) : Bool :=
  bothPorts.any (fun p => portFitted s p && lifelineCond s p && inCall (s.port p).sup.state)

/-- The voice lines are in use (R139 check 8). -/
def voiceInUse (s : State) (t : Target) (forced : Bool) : Bool :=
  match t with
  | .exchange => !forced && (lifelineInUse s || s.ring.exchange.ringing)
  | .home p => decide ((s.port p).sup.state ≠ .onHook) || (session s p).isSome

/-- A home target has a mode switch present (R139 check 9). -/
def targetSwitching (s : State) (t : Target) : Bool :=
  match t with
  | .exchange => false
  | .home p => (s.port p).switch.isSome

/-- RUN TEST (R139). -/
def answerRunTest (r : Req) (kind target force : Byte) (limits : List LimitArg) : Server := fun s =>
  if s.engine.test.isSome then refuse .busyTest s
  else
    match orderOf kind target limits with
    | none => refuse .badRequest s
    | some (k, t, l) =>
      let forced := decide (t = .exchange) && (force != 0)
      if targetUnfitted s t then refuse .notFitted s
      else if s.power.state = .reserve then refuse .lowPower s
      else if targetIsolated s t then refuse .isolated s
      else if !holds s r.channel (targetFunc t) then refuse .notHolder s
      else if forced ∧ 0 < effLevel r then refuse .privilege s
      else if voiceInUse s t forced then refuse .busyVoice s
      else if targetSwitching s t then refuse .busy s
      else startTest ⟨k, t, l, r.channel, none, false, forced⟩ s s

/-- A gated test whose gated grant passed (R154 checks 9 and 10). A refusal undoes the grant: the function is
then free again, as it was before the request. -/
def runGate (g : Gate) (n : Nat) (c : Channel) (granted : Bool) (s : State) : Server := fun before =>
  if voiceInUse s g.target false then refuse .busyVoice before
  else if targetSwitching s g.target then refuse .busy before
  else startTest ⟨g.kind, g.target, g.limits, c, some n, granted, false⟩ s before

/-- RUN GATED TEST (R154). -/
def answerRunGatedTest (r : Req) (gate : Byte) : Server := fun s =>
  if 3 < gate.toNat then refuse .badRequest s
  else
    match s.engine.gates.get gate.toNat with
    | none => refuse .noGate s
    | some g =>
      if g.level < effLevel r then refuse .privilege s
      else if s.engine.test.isSome then refuse .busyTest s
      else if targetUnfitted s g.target then refuse .notFitted s
      else if s.power.state = .reserve then refuse .lowPower s
      else if targetIsolated s g.target then refuse .isolated s
      else
        match gatedGrant (targetFunc g.target) r.channel (effLevel r) gate.toNat s with
        | (_, .privilege) => refuse .privilege s
        | (_, .busy) => refuse .busy s
        | (s', .granted) => runGate g gate.toNat r.channel true s' s
        | (s', .held) => runGate g gate.toNat r.channel false s' s

/-! ## ABORT TEST and READ TEST RESULT (R149, R150) -/

/-- The reason REQUESTED is set by this request: the test stands in NOTIFY, CONNECT or MEASURE (R146, R149). -/
def abortable (t : Test) : Bool := decide (t.phase ≠ .release) && t.abort.isNone

/-- ABORT TEST (R149). -/
def answerAbortTest (r : Req) : Server := fun s =>
  match s.engine.test with
  | none => report [0, 0] s
  | some t =>
    if r.channel ≠ t.requester ∧ 0 < effLevel r then refuse .privilege s
    else
      let s := abortTest .requested s
      (s, ⟨.ok, [flagByte (abortable t), byte (phaseCode s.engine.test)]⟩)

/-- The clean time READ TEST RESULT reports, in ms (R150). -/
def cleanField (t : Test) (now : Time) : Nat :=
  (if t.phase = .measure then cleanSoFar t now else t.clean) / 1000

/-- The current test's fields in READ TEST RESULT (R150). At IDLE the forced byte, for which the table gives no value,
reads 0 (the model's choice, log entry 38). -/
def testBytes (now : Time) : Option Test → List Byte
  | none => [0, 0, 0, 0xFF, 0xFF, 0, 0] ++ half16 0
  | some t =>
    [byte (phaseCode (some t)), byte t.kind.code, byte (targetCode t.target), byte (chanCode t.requester),
      optByte 255 t.viaGate, flagByte t.forced, t.id] ++ half16 (cleanField t now)

/-- The verdict code of a measurement: 0 absent, 1 PASS, 2 FAIL (R150). -/
def verdictCode : Option Verdict → Nat
  | none => 0
  | some .pass => 1
  | some .fail => 2

/-- One measurement in READ TEST RESULT (R150). -/
def measurementBytes (m : Measurement) : List Byte :=
  byte m.number :: wordBytes (BitVec.ofInt 32 m.value) ++
    [byte (bitOf 0 m.saturated + bitOf 1 m.short + 4 * verdictCode m.verdict)]

/-- The result record's fields in READ TEST RESULT (R150). With no record the outcome, clean time and ended-at bytes,
for which the table gives no value, read 0 (the model's choice, log entry 38). -/
def resultBytes : Option TestResult → List Byte
  | none => [0, 0, 0, 0, 0, 0, 0, 0] ++ half16 0 ++ wordBytes 0 ++ [0]
  | some x =>
    [1, byte x.kind.code, byte (targetCode x.target), byte (chanCode x.requester), optByte 255 x.viaGate,
      flagByte x.forced, byte x.outcome.code, byte ((x.abort.map AbortReason.code).getD 0)] ++
      half16 (x.clean / 1000) ++ wordBytes x.endedAt ++ byte x.measurements.length ::
      x.measurements.flatMap measurementBytes

/-- READ TEST RESULT (R150). -/
def answerReadTestResult : Server := fun s =>
  report (testBytes s.now s.engine.test ++ resultBytes s.engine.result) s

/-! ## Gates and the cable constant (R152, R153, R137) -/

/-- Put an entry into the gate table. -/
def setGate (n : Nat) (g : Option Gate) (s : State) : State :=
  s.updEngine (fun e => { e with gates := e.gates.set n g })

/-- INSTALL GATE (R152). -/
def answerInstallGate (r : Req) (gate gateLevel kind target : Byte) (limits : List LimitArg) : Server := fun s =>
  if 0 < effLevel r then refuse .privilege s
  else if 3 < gate.toNat ∨ 3 < gateLevel.toNat then refuse .badRequest s
  else
    match orderOf kind target limits with
    | none => refuse .badRequest s
    | some (k, t, l) =>
      if targetUnfitted s t then refuse .notFitted s
      else (setGate gate.toNat (some ⟨gateLevel.toNat, k, t, l⟩) s,
        ⟨.ok, [gate, flagByte (s.engine.gates.get gate.toNat).isSome]⟩)

/-- REMOVE GATE (R153). -/
def answerRemoveGate (r : Req) (gate : Byte) : Server := fun s =>
  if 0 < effLevel r then refuse .privilege s
  else if 3 < gate.toNat then refuse .badRequest s
  else (setGate gate.toNat none s, ⟨.ok, [gate, flagByte (s.engine.gates.get gate.toNat).isSome]⟩)

/-- SET CABLE (R137). -/
def answerSetCable (r : Req) (constant : Half) : Server := fun s =>
  if 1 < effLevel r then refuse .privilege s
  else
    let used := clamp 300 800 constant.toNat
    (s.updEngine (fun e => { e with cable := used }), ⟨.ok, half16 used⟩)

/-- A limit entry in the layout of RUN TEST (R153). -/
def limitEntry (l : Limit) : List Byte :=
  byte l.number :: wordBytes (BitVec.ofInt 32 l.low) ++ wordBytes (BitVec.ofInt 32 l.high)

/-- The fields of a gate in READ GATES, from present on (R153). -/
def gateBytes : Option Gate → List Byte
  | none => [0, 0, 0, 0, 0]
  | some g =>
    [1, byte g.level, byte g.kind.code, byte (targetCode g.target), byte g.limits.length] ++
      g.limits.flatMap limitEntry

/-- READ GATES (R153). -/
def answerReadGates (gate : Byte) : Server := fun s =>
  if 3 < gate.toNat then refuse .badRequest s
  else report (gate :: gateBytes (s.engine.gates.get gate.toNat)) s

/-! ## The commands -/

/-- RUN TEST (R139). -/
def execRunTest (r : Req) (kind target force : Byte) (limits : List LimitArg) (s : State) : Result :=
  done (arrive (.runTest r kind target force limits) (answerRunTest r kind target force limits) s)

/-- RUN GATED TEST (R154). -/
def execRunGatedTest (r : Req) (gate : Byte) (s : State) : Result :=
  done (arrive (.runGatedTest r gate) (answerRunGatedTest r gate) s)

/-- ABORT TEST (R149). -/
def execAbortTest (r : Req) (s : State) : Result := done (arrive (.abortTest r) (answerAbortTest r) s)

/-- READ TEST RESULT (R150). -/
def execReadTestResult (r : Req) (s : State) : Result :=
  done (arrive (.readTestResult r) answerReadTestResult s)

/-- INSTALL GATE (R152). -/
def execInstallGate (r : Req) (gate gateLevel kind target : Byte) (limits : List LimitArg) (s : State) : Result :=
  done (arrive (.installGate r gate gateLevel kind target limits)
    (answerInstallGate r gate gateLevel kind target limits) s)

/-- REMOVE GATE (R153). -/
def execRemoveGate (r : Req) (gate : Byte) (s : State) : Result :=
  done (arrive (.removeGate r gate) (answerRemoveGate r gate) s)

/-- SET CABLE (R137). -/
def execSetCable (r : Req) (constant : Half) (s : State) : Result :=
  done (arrive (.setCable r constant) (answerSetCable r constant) s)

/-- READ GATES (R153). -/
def execReadGates (r : Req) (gate : Byte) (s : State) : Result :=
  done (arrive (.readGates r gate) (answerReadGates gate) s)

/-- The clean timer expires: MEASURE ends with values, read from the measurement circuits (R143, R135). -/
def execCleanTimerExpiry (readings : Readings) (s : State) : Result :=
  done (if timerDue s.now s.engine.cleanDue then cleanReached readings s else s)

/-- The wall timer expires: MEASURE ends by its clean time (R143). -/
def execWallTimerExpiry (readings : Readings) (s : State) : Result :=
  done (if timerDue s.now s.engine.wallDue then wallReached readings s else s)

end Sys2Proof.Machine
end

