-- ==== Sys2Proof/Machine/Tracking.lean ====
section
/-! DEFINITION. The impulse tracker's arithmetic and state changes: intake and classification (R66, R67),
learning (R70 to R73), holding (R74 to R80), the forecast (R81, R82) and its notices (R83, R84). -/

namespace Sys2Proof.Machine

/-- Pmin in µs (R69). -/
def pMin : Nat := 300000

/-- Pmax in µs (R69). -/
def pMax : Nat := 4000000

/-- The tolerance tol in µs (R69). -/
def Tracker.tolerance (k : Tracker) : Nat := k.periodUs / 32

/-- An update of Pe, clamped to 16·Pmin to 16·Pmax (R69). -/
def clampPeriod (pe : Int) : Nat := clamp (16 * pMin) (16 * pMax) pe.toNat

/-- The absolute difference of two counts. -/
def distance (a b : Nat) : Nat := (a - b) + (b - a)

/-- 0 SEARCH, 1 ACQUIRE, 2 LOCKED, 3 COAST (R83). -/
def TrackState.code : TrackState → Nat
  | .search => 0
  | .acquire => 1
  | .locked => 2
  | .coast => 3

/-- The reasons of TRACK_STATE (R83). -/
inductive TrackReason where
  | acquired | missed | regained | lost | obscured | restarted | disabled | enabled
deriving DecidableEq, Repr

/-- Reason codes 1 to 8 (R83). -/
def TrackReason.code : TrackReason → Nat
  | .acquired => 1
  | .missed => 2
  | .regained => 3
  | .lost => 4
  | .obscured => 5
  | .restarted => 6
  | .disabled => 7
  | .enabled => 8

/-- Hand TRACK_STATE with the state and period as they stand after the change (R83). -/
def trackNotice (why : TrackReason) (missesBefore : Nat) (s : State) : State :=
  let k := s.tracker
  postSubscribed (notice .trackState (byte k.state.code) (byte why.code) s.now
    (byte missesBefore ++ (BitVec.ofNat 24 k.periodUs))) s

/-! ## Forecast (R81, R82) -/

/-- The windows W_j, j from `j` on for `n` more numbers, whose end lies after the present (R81). -/
def futureWindows (now : Time) (k : Tracker) (coasting : Bool) (j : Nat) : Nat → List ForecastWindow
  | 0 => []
  | n + 1 =>
    let rest := futureWindows now k coasting (j + 1) n
    if 0 < offset now (k.windowStop j) then ⟨j, k.windowStart j, k.windowStop j, coasting⟩ :: rest else rest

/-- The forecast table for the tracker as it stands (R81). -/
def forecastFor (now : Time) (k : Tracker) : List ForecastWindow :=
  match k.state with
  | .search | .acquire => []
  | .locked => (futureWindows now k false 1 8).take 4
  | .coast => (futureWindows now k true 1 8).take 4

/-- The FORECAST notice of a table (R82). -/
def forecastNotice (now : Time) (k : Tracker) : Notice :=
  let coasting := decide (k.state = .coast)
  match k.forecast with
  | [] => notice .forecast (byte (bitOf 7 coasting)) 0 now 0
  | w :: _ =>
    notice .forecast (byte (k.forecast.length + bitOf 7 coasting)) (byte (ceilDiv k.halfWidth 100)) now
      (k.centre w.number)

/-- Recompute the forecast table, hand FORECAST and let the engine take a reading (R81, R82, R142). -/
def recompute (s : State) : State :=
  let s := s.updTracker (fun k => { k with forecast := forecastFor s.now k })
  reading (postSubscribed (forecastNotice s.now s.tracker) s)

/-! ## Counting (R85) -/

/-- The categories an edge is counted in (R85). -/
inductive EdgeClass where
  | merged | dropped | blanked | learn | hit | stray
deriving DecidableEq, Repr

/-- Count an edge in edges seen and in its category, wrapping (R85). -/
def countEdge (c : EdgeClass) (n : EdgeCounts) : EdgeCounts :=
  let n := { n with seen := n.seen + 1 }
  match c with
  | .merged => { n with merged := n.merged + 1 }
  | .dropped => { n with dropped := n.dropped + 1 }
  | .blanked => { n with blanked := n.blanked + 1 }
  | .learn => { n with learn := n.learn + 1 }
  | .hit => { n with hit := n.hit + 1 }
  | .stray => { n with stray := n.stray + 1 }

/-- Count an edge in the state. -/
def count (c : EdgeClass) (s : State) : State :=
  s.updTracker (fun k => { k with counts := countEdge c k.counts })

/-! ## Learning (R70 to R73) -/

/-- The ACQUIRE expiry for an anchor: L + Pmax + 40 000 µs (R73). -/
def acquireDueFor (anchor : Time) : Time := anchor + us 4040000

/-- A learn that does not lock: the fields given, and the expiry restarted from the new anchor (R71, R72). -/
def learnEdge (t : Time) (c pe : Nat) (s : State) : State :=
  count .learn (s.updTracker (fun k =>
    { k with anchor := t, intervals := c, period := pe, acquireDue := some (acquireDueFor t) }))

/-- An edge in SEARCH begins a learning run (R70). -/
def classifySearch (t : Time) (s : State) : State :=
  recompute (count .learn (s.updTracker (fun k =>
    { k with anchor := t, intervals := 0, state := .acquire, acquireDue := some (acquireDueFor t) })))

/-- The fourth agreeing interval locks the tracker (R72). -/
def lockOn (t : Time) (pe jitter : Nat) (s : State) : State :=
  let before := s.tracker.misses
  let s := count .learn (s.updTracker (fun k =>
    let k := { k with
      anchor := t, intervals := 4, period := pe, jitter := jitter, misses := 0, checked := 0, strayRun := 0,
      obscured := 0, acquireDue := none, state := .locked }
    { k with checkDue := some (k.checkTime 1) }))
  recompute (trackNotice .acquired before s)

/-- An edge in ACQUIRE (R71, R72). That an interval above Pmax and within tol of the period is a match, where R72's rows 2
and 4 both have it, is the model's choice (log entry 50). -/
def classifyAcquire (t : Time) (s : State) : State :=
  let k := s.tracker
  let i := (t - k.anchor).toNat
  if k.intervals = 0 then
    if i < pMin then count .stray s
    else if i ≤ pMax then learnEdge t 1 (clampPeriod (16 * i : Nat)) s
    else learnEdge t 0 k.period s
  else
    let p := k.periodUs
    let tol := k.tolerance
    if i < p - tol then count .stray s
    else if distance i p ≤ tol then
      let c := k.intervals + 1
      let pe := clampPeriod ((k.period : Int) + Int.tdiv ((16 * i : Nat) - (k.period : Int)) (c : Int))
      if c = 4 then lockOn t pe (16 * distance i p) s else learnEdge t c pe s
    else if i ≤ pMax then learnEdge t 1 (clampPeriod (16 * i : Nat)) s
    else learnEdge t 0 k.period s

/-! ## Holding (R74 to R76) -/

/-- A hit at window `n` with error `e` (R75). -/
def hitEdge (t : Time) (n : Nat) (e : Int) (s : State) : State :=
  let before := s.tracker.misses
  let wasCoast := decide (s.tracker.state = .coast)
  let s := count .hit (s.updTracker (fun k =>
    let k := { k with
      period := clampPeriod ((k.period : Int) + Int.tdiv (2 * e) (n : Int))
      jitter := (7 * k.jitter + 16 * e.natAbs) / 8
      anchor := t, misses := 0, checked := 0, strayRun := 0, obscured := 0, state := .locked
      counts := { k.counts with missedTotal := k.counts.missedTotal + BitVec.ofNat 32 (n - 1) } }
    { k with checkDue := some (k.checkTime 1) }))
  recompute (if wasCoast then trackNotice .regained before s else s)

/-- A stray in LOCKED or COAST, raising STRAY_RUN when the run reaches 8 (R76, R84). -/
def strayEdge (t : Time) (s : State) : State :=
  let run := s.tracker.strayRun
  let s := count .stray (s.updTracker (fun k => { k with strayRun := saturate 255 (k.strayRun + 1) }))
  if run = 7 then raiseFault (raisedAt s .strayRun none s.tracker.periodUs t.toNat) s else s

/-- An edge in LOCKED or COAST (R74). -/
def classifyHeld (t : Time) (s : State) : State :=
  let k := s.tracker
  let i := (t - k.anchor).toNat
  let p := k.periodUs
  let n := (2 * i + p) / (2 * p)
  if 1 ≤ n && n ≤ 8 && distance i (n * p) ≤ k.halfWidth then hitEdge t n ((i : Int) - (n * p : Nat)) s
  else strayEdge t s

/-- Classify an edge already taken from the head of the queue (R67). -/
def classify (t : Time) (s : State) : State :=
  if blankedAt s t then count .blanked s
  else
    match s.tracker.state with
    | .search => classifySearch t s
    | .acquire => classifyAcquire t s
    | .locked | .coast => classifyHeld t s

/-- Take the head of the edge queue and classify it (R67). -/
def classifyHead (s : State) : State :=
  match s.tracker.edges with
  | [] => s
  | t :: rest => classify t (s.updTracker (fun k => { k with edges := rest }))

/-- The edge at the head of the queue has exactly this timestamp (R73, R80). -/
def headIs (s : State) (t : Time) : Bool := decide (s.tracker.edges.head? = some t)

/-! ## Expiries (R73, R78, R80) -/

/-- The tracker falls back to SEARCH: c, m, k, stray run and the marks are cleared and both timers stop
(R78, R86, R87). -/
def toSearch (k : Tracker) : Tracker :=
  { k with
    state := .search, intervals := 0, misses := 0, checked := 0, strayRun := 0, obscured := 0,
    acquireDue := none, checkDue := none }

/-- The ACQUIRE expiry taken with no due edge to classify first (R73). -/
def acquireLapse (s : State) : State :=
  recompute (s.updTracker (fun k => { k with state := .search, intervals := 0, acquireDue := none }))

/-- The ACQUIRE expiry, classifying first an edge whose timestamp is exactly L + Pmax (R73). -/
def acquireExpires (s : State) : State :=
  if headIs s (s.tracker.anchor + us pMax) then
    let s' := classifyHead s
    if s'.tracker.acquireDue = s.tracker.acquireDue then acquireLapse s' else s'
  else acquireLapse s

/-- Steps 1 and 2 of a window check: k increases, and m unless the window is obscured (R78). -/
def checkCount (s : State) : State :=
  let k := s.tracker
  let j := k.checked + 1
  let obscured := k.obscured.getLsbD (j - 1) || blankedWithin s (k.windowStart j) (k.windowStop j)
  s.updTracker (fun k =>
    { k with checked := j, misses := if obscured then k.misses else saturate 8 (k.misses + 1) })

/-- Steps 3 to 5 of a window check, with the next window's check time where the tracker holds on (R78, R77). -/
def checkDecide (s : State) : State :=
  let m := s.tracker.misses
  if s.tracker.checked = 8 then
    let f := raisedAt s .trackLost none s.tracker.periodUs m
    let s := s.updTracker toSearch
    if 3 ≤ m then recompute (trackNotice .lost m (raiseFault f s)) else recompute (trackNotice .obscured m s)
  else
    let s := s.updTracker (fun k => { k with checkDue := some (k.checkTime (k.checked + 1)) })
    if s.tracker.state = .locked && m = 3 then
      recompute (trackNotice .missed m (s.updTracker (fun k => { k with state := .coast })))
    else recompute s

/-- The window check, classifying after its step 2 an edge on the last instant of the window (R78, R80). -/
def windowChecked (s : State) : State :=
  let stop := s.tracker.windowStop (s.tracker.checked + 1)
  let s := checkCount s
  if headIs s stop then
    let s := classifyHead s
    if s.tracker.checked = 0 then s else checkDecide s
  else checkDecide s

end Sys2Proof.Machine
end

