-- ==== Sys2Proof/Machine/TrackerCommands.lean ====
section
/-! DEFINITION. The impulse tracker's requests and events (chapter 4). -/

namespace Sys2Proof.Machine

/-! ## Requests (R86 to R90) -/

/-- Set the dead time, with effect on later runs of the timer (R86). -/
def setDeadTime (dt : Nat) (s : State) : State := s.updTracker (fun k => { k with deadTime := dt })

/-- ON to OFF (R86). -/
def disableTracker (s : State) : State :=
  let before := s.tracker.misses
  recompute (trackNotice .disabled before
    (s.updTracker (fun k => { toSearch k with enable := false, deadTimer := none, edges := [] })))

/-- OFF to ON (R86). -/
def enableTracker (s : State) : State :=
  let before := s.tracker.misses
  recompute (trackNotice .enabled before
    (s.updTracker (fun k => { toSearch k with enable := true, deadTimer := none })))

/-- TRACKER CONFIG (R86). -/
def answerTrackerConfig (r : Req) (enable : Byte) (deadTime : Half) : Server := fun s =>
  if 1 < enable.toNat then refuse .badRequest s
  else if !holds s r.channel .tracker then refuse .notHolder s
  else
    let used := clamp 500 10000 deadTime.toNat
    let want := decide (enable.toNat = 1)
    let was := s.tracker.enable
    let s := setDeadTime used s
    let s := if want = was then s else if want then enableTracker s else disableTracker s
    (s, ⟨.ok, enable :: half16 used⟩)

/-- TRACKER RESTART (R87). With enable OFF the tracker is already in SEARCH, its table is empty and no notice is
handed; where a load has left it in another state (log entry 23), the change to SEARCH recomputes the table
(R81, R82). -/
def answerTrackerRestart (r : Req) : Server := fun s =>
  if !holds s r.channel .tracker then refuse .notHolder s
  else
    let before := s.tracker
    let s := s.updTracker toSearch
    let s :=
      if before.enable then recompute (trackNotice .restarted before.misses s)
      else if before.state = .search then s
      else recompute s
    (s, ⟨.ok, [byte before.state.code]⟩)

/-- The due time of the running ACQUIRE expiry or window check (R88). -/
def nextTimer (k : Tracker) : Time := (k.acquireDue.or k.checkDue).getD 0

/-- READ TRACKER (R88). -/
def answerReadTracker : Server := fun s =>
  let k := s.tracker
  report (flagByte k.enable :: half16 k.deadTime ++ byte k.state.code :: wordBytes k.anchor ++
    byte k.intervals :: wordBytes (BitVec.ofNat 32 k.period) ++ wordBytes (BitVec.ofNat 32 k.periodUs) ++
    wordBytes (BitVec.ofNat 32 k.jitter) ++ half16 k.halfWidth ++
    [byte k.misses, byte k.checked, byte k.strayRun, k.obscured, byte k.edges.length] ++
    wordBytes (nextTimer k)) s

/-- One forecast window (R89). -/
def forecastBytes (w : ForecastWindow) : List Byte :=
  wordBytes w.start ++ wordBytes w.stop ++ [byte w.number, flagByte w.coasting]

/-- READ FORECAST (R89). -/
def answerReadForecast : Server := fun s =>
  let k := s.tracker
  report (byte k.state.code :: byte k.forecast.length :: wordBytes (BitVec.ofNat 32 k.periodUs) ++
    k.forecast.flatMap forecastBytes) s

/-- The eight counts in the order of R90. -/
def countBytes (n : EdgeCounts) : List Byte :=
  wordBytes n.seen ++ wordBytes n.merged ++ wordBytes n.dropped ++ wordBytes n.blanked ++ wordBytes n.learn ++
    wordBytes n.hit ++ wordBytes n.stray ++ wordBytes n.missedTotal

/-- READ AND CLEAR EDGE COUNTS (R90). -/
def answerReadAndClear : Server := fun s =>
  (s.updTracker (fun k => { k with counts := zeroCounts }), ⟨.ok, countBytes s.tracker.counts⟩)

/-! ## Intake (R66) -/

/-- An edge taken while the dead-time timer runs is merged (R66). -/
def mergeEdge (s : State) : State :=
  count .merged (s.updTracker (fun k => { k with deadTimer := some (s.now + us k.deadTime) }))

/-- An edge taken with the timer stopped starts it, and joins the queue or is dropped (R66). -/
def queueEdge (s : State) : State :=
  let s := s.updTracker (fun k => { k with deadTimer := some (s.now + us k.deadTime) })
  if 16 ≤ s.tracker.edges.length then count .dropped s
  else s.updTracker (fun k => { k with edges := k.edges ++ [s.now] })

/-- The tracker takes an edge (R66). -/
def takeEdge (s : State) : State :=
  if !s.tracker.enable then s
  else
    match s.tracker.deadTimer with
    | some _ => mergeEdge s
    | none => queueEdge s

/-- The head of the edge queue has reached its t + 40 000 µs (R67). -/
def headDue (s : State) : Bool :=
  match s.tracker.edges with
  | [] => false
  | t :: _ => reached s.now (t + us 40000)

/-! ## The commands -/

/-- TRACKER CONFIG (R86). -/
def execTrackerConfig (r : Req) (enable : Byte) (deadTime : Half) (s : State) : Result :=
  done (arrive (.trackerConfig r enable deadTime) (answerTrackerConfig r enable deadTime) s)

/-- TRACKER RESTART (R87). -/
def execTrackerRestart (r : Req) (s : State) : Result :=
  done (arrive (.trackerRestart r) (answerTrackerRestart r) s)

/-- READ TRACKER (R88). -/
def execReadTracker (r : Req) (s : State) : Result := done (arrive (.readTracker r) answerReadTracker s)

/-- READ FORECAST (R89). -/
def execReadForecast (r : Req) (s : State) : Result := done (arrive (.readForecast r) answerReadForecast s)

/-- READ AND CLEAR EDGE COUNTS (R90). -/
def execReadAndClearEdgeCounts (r : Req) (s : State) : Result :=
  done (arrive (.readAndClearEdgeCounts r) answerReadAndClear s)

/-- The impulse detector reports an edge (R66). -/
def execImpulseEdge (s : State) : Result := done (if awake s then takeEdge s else s)

/-- The dead-time timer expires (R66). -/
def execDeadTimeExpiry (s : State) : Result :=
  done (if timerDue s.now s.tracker.deadTimer then s.updTracker (fun k => { k with deadTimer := none }) else s)

/-- A queued edge is classified (R67). -/
def execEdgeClassification (s : State) : Result := done (if headDue s then classifyHead s else s)

/-- The ACQUIRE expiry (R73). -/
def execAcquireExpiry (s : State) : Result :=
  done (if timerDue s.now s.tracker.acquireDue then acquireExpires s else s)

/-- The check of a predicted window (R78). -/
def execWindowCheck (s : State) : Result :=
  done (if timerDue s.now s.tracker.checkDue then windowChecked s else s)

end Sys2Proof.Machine
end

