-- ==== Sys2Proof/Machine/Receive.lean ====
section
/-! DEFINITION. Raw frames: the port block's three checks (R8) and the routing of a request that passes them to
its owner's answer; a gateway transfer (R1, R2) and the modem receiver's events (R3, R4). -/

namespace Sys2Proof.Machine

/-- The owner's answer to a request (R8's routing table). An event is no request. -/
def answer (i : Instr) : Server :=
  match i with
  | .identify r => answerIdentify r
  | .fetchNotices r limit => answerFetchNotices r limit
  | .subscribe r kinds => answerSubscribe r kinds
  | .channelReset r => answerChannelReset r
  | .readTime _ => answerReadTime
  | .claim r f w z => answerClaim r f w z
  | .release r f => answerRelease r f
  | .queryFunction r f => answerQueryFunction r f
  | .tighten r f v k => answerTighten r f v k
  | .readFunctions _ => answerReadFunctions
  | .setDsl r c => answerSetDsl r c
  | .braced r id => answerBraced r id
  | .defer r id extra => answerDefer r id extra
  | .setLead r lead => answerSetLead r lead
  | .readDisturbances _ part => answerReadDisturbances part
  | .trackerConfig r e d => answerTrackerConfig r e d
  | .trackerRestart r => answerTrackerRestart r
  | .readTracker _ => answerReadTracker
  | .readForecast _ => answerReadForecast
  | .readAndClearEdgeCounts _ => answerReadAndClear
  | .setMode r p m f => answerSetMode r p m f
  | .readPort _ p => answerReadPort p
  | .setHookTiming r p a b c d e => answerSetHookTiming r p a b c d e
  | .readDial _ p => answerReadDial p
  | .clearDial r p => answerClearDial r p
  | .ring r p c n => answerRing r p c n
  | .stopRing r p => answerStopRing r p
  | .setCadence r e n steps => answerSetCadence r e n steps
  | .setExchangeRingCount r n => answerSetExchangeRingCount r n
  | .readRing _ part => answerReadRing part
  | .runTest r k t f limits => answerRunTest r k t f limits
  | .runGatedTest r g => answerRunGatedTest r g
  | .abortTest r => answerAbortTest r
  | .readTestResult _ => answerReadTestResult
  | .installGate r g v k t limits => answerInstallGate r g v k t limits
  | .removeGate r g => answerRemoveGate r g
  | .setCable r c => answerSetCable r c
  | .readGates _ g => answerReadGates g
  | .setClassLevel r c v => answerSetClassLevel r c v
  | .releaseLockout r => answerReleaseLockout r
  | .readIsolation _ => answerReadIsolation
  | .readLog _ f form => answerReadLog f form
  | .clearLog r => answerClearLog r
  | .setLogPolicy r p => answerSetLogPolicy r p
  | .readCapture _ => answerReadCapture
  | .clearCapture r => answerClearCapture r
  | .setMasks r m => answerSetMasks r m
  | .setThreshold r t => answerSetThreshold r t
  | .clearPending r c => answerClearPending r c
  | .startQuiet r n => answerStartQuiet r n
  | .endQuiet r => answerEndQuiet r
  | .saveSettings r => answerSaveSettings r
  | .readPower _ => answerReadPower
  | _ => refuse .badRequest

/-- Byte `n` of a frame, 0 where it was not received (R8). -/
def frameByte (bytes : List Byte) (n : Nat) : Byte := bytes.getD n 0

/-- The BAD_FRAME response: code echo and tag are bytes 1 and 3 of the frame where received (R8). -/
def badFrame (bytes : List Byte) : List Byte :=
  responseFrame (frameByte bytes 1) (frameByte bytes 3) ⟨.badFrame, []⟩

/-- A frame is well formed (check 1 of R8): 4 to 64 bytes, its length byte their number, and on the modem port
a channel field of 0 or 1. -/
def formOk (port : PhysPort) (bytes : List Byte) : Bool :=
  decide (4 ≤ bytes.length) && decide (bytes.length ≤ 64) && decide (frameLength bytes = bytes.length) &&
    (frameChannel port (frameByte bytes 2)).isSome

/-- The three checks of R8, then the owner's answer, as a response frame. -/
def serveFrame (port : PhysPort) (bytes : List Byte) : State → State × List Byte := fun s =>
  if formOk port bytes then
    match decodeFrame port bytes with
    | some i => respond (frameByte bytes 1) (frameByte bytes 3) (answer i) s
    | none => respond (frameByte bytes 1) (frameByte bytes 3) (refuse .badRequest) s
  else (s, badFrame bytes)

/-- The response to a frame that did not arrive whole (R3, R8). -/
def serveMalformed (bytes : List Byte) : State → State × List Byte := fun s => (s, badFrame bytes)

/-- Set the bytes of a frame the gateway port is receiving. -/
def setGatewayPartial (l : List Byte) (s : State) : State := s.updGateway (fun g => { g with partialFrame := l })

/-- Set the bytes of a frame the modem receiver is collecting. -/
def setModemPartial (l : List Byte) (s : State) : State := s.updModem (fun m => { m with partialFrame := l })

/-- A transfer on the gateway port ends (R1, R2): `bytes` are the bytes shifted in since the partial frame. A
transfer of no bytes, or one that begins with 0x00, carries no request. -/
def execGatewayTransfer (bytes : List Byte) (s : State) : Result :=
  let frame := s.gateway.partialFrame ++ bytes
  let s := setGatewayPartial [] s
  done (if frame.headD 0 = 0 then s.updGateway (·.shiftOut frame.length)
    else gatewayTake frame.length (serveFrame .gateway frame) s)

/-- A frame completes at the modem receiver (R3): `bytes` are its bytes, from the length byte on, since the
partial frame. -/
def execModemFrame (bytes : List Byte) (s : State) : Result :=
  done (modemTake (serveFrame .modem (s.modem.partialFrame ++ bytes)) (setModemPartial [] s))

/-- More than 1 ms passes between two bytes of a frame: the bytes collected go to the port block as a malformed
frame (R3). -/
def execModemByteGapTimeout (bytes : List Byte) (s : State) : Result :=
  done (modemTake (serveMalformed (s.modem.partialFrame ++ bytes)) (setModemPartial [] s))

/-- A byte of a frame arrives without a valid stop bit: the bytes collected go to the port block as a malformed
frame (R3). -/
def execModemStopBitError (bytes : List Byte) (s : State) : Result :=
  done (modemTake (serveMalformed (s.modem.partialFrame ++ bytes)) (setModemPartial [] s))

/-- A length byte below 4 or above 64: the frame is discarded and gets no response (R3). -/
def execModemBadLength (_length : Byte) (s : State) : Result := done (setModemPartial [] s)

end Sys2Proof.Machine
end

