-- ==== Sys2Proof/Machine/Dispatch.lean ====
section
/-! DEFINITION. The dispatch of a command to its meaning: one arm per constructor of `Instr`. -/

namespace Sys2Proof.Machine

/-- The effect of a command on everything but the queue. -/
def exec (i : Instr) (s : State) : Host.Outcome State Fault Refusal :=
  match i with
  | .powerOnReset straps => Sys2Proof.Machine.execPowerOnReset straps s
  | .settingsLoadComplete readCompleted => Sys2Proof.Machine.execSettingsLoadComplete readCompleted s
  | .resetPinAssert => Sys2Proof.Machine.execResetPinAssert s
  | .resetPinRelease straps => Sys2Proof.Machine.execResetPinRelease straps s
  | .gatewayTransfer bytes => Sys2Proof.Machine.execGatewayTransfer bytes s
  | .modemFrame bytes => Sys2Proof.Machine.execModemFrame bytes s
  | .modemByteGapTimeout bytes => Sys2Proof.Machine.execModemByteGapTimeout bytes s
  | .modemStopBitError bytes => Sys2Proof.Machine.execModemStopBitError bytes s
  | .modemResponseSent => Sys2Proof.Machine.execModemResponseSent s
  | .portResetAssert port => Sys2Proof.Machine.execPortResetAssert port s
  | .portResetRelease port => Sys2Proof.Machine.execPortResetRelease port s
  | .identify r => Sys2Proof.Machine.execIdentify r s
  | .fetchNotices r limit => Sys2Proof.Machine.execFetchNotices r limit s
  | .subscribe r kinds => Sys2Proof.Machine.execSubscribe r kinds s
  | .channelReset r => Sys2Proof.Machine.execChannelReset r s
  | .readTime r => Sys2Proof.Machine.execReadTime r s
  | .claim r function wait seize => Sys2Proof.Machine.execClaim r function wait seize s
  | .release r function => Sys2Proof.Machine.execRelease r function s
  | .queryFunction r function => Sys2Proof.Machine.execQueryFunction r function s
  | .tighten r function newLevel revoke => Sys2Proof.Machine.execTighten r function newLevel revoke s
  | .readFunctions r => Sys2Proof.Machine.execReadFunctions r s
  | .setDsl r coupling => Sys2Proof.Machine.execSetDsl r coupling s
  | .claimDeadlineExpiry channel function => Sys2Proof.Machine.execClaimDeadlineExpiry channel function s
  | .changeSetComplete asker => Sys2Proof.Machine.execChangeSetComplete asker s
  | .braced r id => Sys2Proof.Machine.execBraced r id s
  | .defer r id extra => Sys2Proof.Machine.execDefer r id extra s
  | .leadExpiry slot => Sys2Proof.Machine.execLeadExpiry slot s
  | .setLead r lead => Sys2Proof.Machine.execSetLead r lead s
  | .readDisturbances r part => Sys2Proof.Machine.execReadDisturbances r part s
  | .blankingWindowRemoval => Sys2Proof.Machine.execBlankingWindowRemoval s
  | .impulseEdge => Sys2Proof.Machine.execImpulseEdge s
  | .deadTimeExpiry => Sys2Proof.Machine.execDeadTimeExpiry s
  | .edgeClassification => Sys2Proof.Machine.execEdgeClassification s
  | .acquireExpiry => Sys2Proof.Machine.execAcquireExpiry s
  | .windowCheck => Sys2Proof.Machine.execWindowCheck s
  | .trackerConfig r enable deadTime => Sys2Proof.Machine.execTrackerConfig r enable deadTime s
  | .trackerRestart r => Sys2Proof.Machine.execTrackerRestart r s
  | .readTracker r => Sys2Proof.Machine.execReadTracker r s
  | .readForecast r => Sys2Proof.Machine.execReadForecast r s
  | .readAndClearEdgeCounts r => Sys2Proof.Machine.execReadAndClearEdgeCounts r s
  | .setMode r port mode force => Sys2Proof.Machine.execSetMode r port mode force s
  | .readPort r port => Sys2Proof.Machine.execReadPort r port s
  | .feedOverLimitChange p asserted => Sys2Proof.Machine.execFeedOverLimitChange p asserted s
  | .feedDenial p => Sys2Proof.Machine.execFeedDenial p s
  | .probeStart p => Sys2Proof.Machine.execProbeStart p s
  | .probeEnd p => Sys2Proof.Machine.execProbeEnd p s
  | .setHookTiming r port seize glitch pulseMax flashMax digitGap => Sys2Proof.Machine.execSetHookTiming r port seize glitch pulseMax flashMax digitGap s
  | .readDial r port => Sys2Proof.Machine.execReadDial r port s
  | .clearDial r port => Sys2Proof.Machine.execClearDial r port s
  | .loopChange p sense present => Sys2Proof.Machine.execLoopChange p sense present s
  | .seizeTimerExpiry p => Sys2Proof.Machine.execSeizeTimerExpiry p s
  | .breakTimerExpiry p => Sys2Proof.Machine.execBreakTimerExpiry p s
  | .digitGapExpiry p => Sys2Proof.Machine.execDigitGapExpiry p s
  | .ring r port cadence cycles => Sys2Proof.Machine.execRing r port cadence cycles s
  | .stopRing r port => Sys2Proof.Machine.execStopRing r port s
  | .setCadence r entry stepCount steps => Sys2Proof.Machine.execSetCadence r entry stepCount steps s
  | .setExchangeRingCount r n => Sys2Proof.Machine.execSetExchangeRingCount r n s
  | .readRing r part => Sys2Proof.Machine.execReadRing r part s
  | .ringPhaseTimerExpiry p => Sys2Proof.Machine.execRingPhaseTimerExpiry p s
  | .ringTripInputChange p asserted => Sys2Proof.Machine.execRingTripInputChange p asserted s
  | .tripTimerExpiry p => Sys2Proof.Machine.execTripTimerExpiry p s
  | .ringCurrentLimitChange asserted => Sys2Proof.Machine.execRingCurrentLimitChange asserted s
  | .ringFaultTimerExpiry => Sys2Proof.Machine.execRingFaultTimerExpiry s
  | .exchangeRingOnset => Sys2Proof.Machine.execExchangeRingOnset s
  | .exchangeRingOffset => Sys2Proof.Machine.execExchangeRingOffset s
  | .callGapExpiry => Sys2Proof.Machine.execCallGapExpiry s
  | .runTest r kind target force limits => Sys2Proof.Machine.execRunTest r kind target force limits s
  | .runGatedTest r gate => Sys2Proof.Machine.execRunGatedTest r gate s
  | .abortTest r => Sys2Proof.Machine.execAbortTest r s
  | .readTestResult r => Sys2Proof.Machine.execReadTestResult r s
  | .installGate r gate gateLevel kind target limits => Sys2Proof.Machine.execInstallGate r gate gateLevel kind target limits s
  | .removeGate r gate => Sys2Proof.Machine.execRemoveGate r gate s
  | .setCable r constant => Sys2Proof.Machine.execSetCable r constant s
  | .readGates r gate => Sys2Proof.Machine.execReadGates r gate s
  | .cleanTimerExpiry readings => Sys2Proof.Machine.execCleanTimerExpiry readings s
  | .wallTimerExpiry readings => Sys2Proof.Machine.execWallTimerExpiry readings s
  | .setClassLevel r cls level => Sys2Proof.Machine.execSetClassLevel r cls level s
  | .releaseLockout r => Sys2Proof.Machine.execReleaseLockout r s
  | .readIsolation r => Sys2Proof.Machine.execReadIsolation r s
  | .surge => Sys2Proof.Machine.execSurge s
  | .hazardAssert => Sys2Proof.Machine.execHazardAssert s
  | .dwellExpiry => Sys2Proof.Machine.execDwellExpiry s
  | .thermalAssert => Sys2Proof.Machine.execThermalAssert s
  | .thermalDeassert => Sys2Proof.Machine.execThermalDeassert s
  | .exchangeDcLowChange low => Sys2Proof.Machine.execExchangeDcLowChange low s
  | .batteryWatchExpiry => Sys2Proof.Machine.execBatteryWatchExpiry s
  | .readLog r fromSeq form => Sys2Proof.Machine.execReadLog r fromSeq form s
  | .clearLog r => Sys2Proof.Machine.execClearLog r s
  | .setLogPolicy r policy => Sys2Proof.Machine.execSetLogPolicy r policy s
  | .readCapture r => Sys2Proof.Machine.execReadCapture r s
  | .clearCapture r => Sys2Proof.Machine.execClearCapture r s
  | .setMasks r masks => Sys2Proof.Machine.execSetMasks r masks s
  | .setThreshold r threshold => Sys2Proof.Machine.execSetThreshold r threshold s
  | .clearPending r classes => Sys2Proof.Machine.execClearPending r classes s
  | .startQuiet r seconds => Sys2Proof.Machine.execStartQuiet r seconds s
  | .endQuiet r => Sys2Proof.Machine.execEndQuiet r s
  | .quietExpiry => Sys2Proof.Machine.execQuietExpiry s
  | .mainsInputChange asserted => Sys2Proof.Machine.execMainsInputChange asserted s
  | .reserveInputChange asserted => Sys2Proof.Machine.execReserveInputChange asserted s
  | .readPower r => Sys2Proof.Machine.execReadPower r s
  | .saveSettings r => Sys2Proof.Machine.execSaveSettings r s
  | .writeCompletion success => Sys2Proof.Machine.execWriteCompletion success s
  | .hazardDeassert => Sys2Proof.Machine.execHazardDeassert s
  | .supplyLoss => Sys2Proof.Machine.execSupplyLoss s
  | .modemBadLength length => Sys2Proof.Machine.execModemBadLength length s

end Sys2Proof.Machine
end

