-- ==== Sys2Proof/Machine/Tick.lean ====
section
/-! DEFINITION. The passing of time (00_scope.md, "Time"; log entry 1): on an empty queue the timebase advances
by one microsecond and the expiry commands of the timers that are then due are queued. The order among
expiries of one instant is the model's (log entry 6). -/

namespace Sys2Proof.Machine

/-- Uptime counts whole seconds of the time that passes (R12). -/
def tickUptime (c : Clock) : Clock :=
  if 999999 ≤ c.subsecond then { c with uptime := c.uptime + 1, subsecond := 0 }
  else { c with subsecond := c.subsecond + 1 }

/-- The timebase counts one microsecond, and uptime with it (R12). -/
def tickClock (c : Clock) : Clock := { tickUptime c with timebase := c.timebase + 1 }

/-- A command that is queued where its timer is due. -/
def dueIf (b : Bool) (i : Instr) : List Instr := if b then [i] else []

/-- The readings of the measurement circuits at a period's end: free values (log entry 5). -/
def freeReadings (occasion : Nat) : Readings :=
  ⟨Config.reading occasion 1, Config.reading occasion 2, Config.reading occasion 3, Config.reading occasion 4⟩

/-- Claim deadlines, settles, leads and removals that are due (R31, R42, R53, R61). -/
def dueLineWork (s : State) : List Instr :=
  (s.lines.claims.filter (fun e => reached s.now e.deadline)).map
      (fun e => .claimDeadlineExpiry e.channel e.function) ++
    (s.settles.filter (fun x => reached s.now x.due)).map (fun x => .changeSetComplete x.asker) ++
    allSlots.flatMap (fun i => dueIf (timerDue s.now ((slotRec s i).bind leadDeadline)) (.leadExpiry i)) ++
    (s.sched.windows.filter (removable s.now)).map (fun _ => .blankingWindowRemoval)

/-- Tracker timers that are due (R66, R67, R73, R78). -/
def dueTracker (s : State) : List Instr :=
  dueIf (timerDue s.now s.tracker.deadTimer) .deadTimeExpiry ++
    (s.tracker.edges.filter (fun t => reached s.now (t + us 40000))).map (fun _ => .edgeClassification) ++
    dueIf (timerDue s.now s.tracker.acquireDue) .acquireExpiry ++
    dueIf (timerDue s.now s.tracker.checkDue) .windowCheck

/-- The due time of a denial's retry timer (R100). -/
def retryDue (q : PhonePort) : Option Time :=
  match q.denial with
  | some d =>
    match d.stage with
    | .waiting t => some t
    | .probing _ => none
  | none => none

/-- The due time of a denial's probe timer (R101). -/
def probeDue (q : PhonePort) : Option Time :=
  match q.denial with
  | some d =>
    match d.stage with
    | .probing t => some t
    | .waiting _ => none
  | none => none

/-- A port's timers that are due (R99, R101, R109 to R111). -/
def duePort (s : State) (p : Port) : List Instr :=
  let q := s.port p
  dueIf (timerDue s.now (q.overload.map (fun t => t + ms 100))) (.feedDenial p) ++
    dueIf (timerDue s.now (retryDue q)) (.probeStart p) ++ dueIf (timerDue s.now (probeDue q)) (.probeEnd p) ++
    dueIf (q.sup.seizeTimer.isDue s.now) (.seizeTimerExpiry p) ++
    dueIf (q.sup.gapTimer.isDue s.now) (.digitGapExpiry p) ++
    dueIf (q.sup.breakTimer.isDue s.now) (.breakTimerExpiry p)

/-- Ring timers that are due (R124, R127, R128, R132). -/
def dueRing (s : State) : List Instr :=
  let phase (p : Port) := dueIf (timerDue s.now ((session s p).bind (·.phaseDue))) (.ringPhaseTimerExpiry p)
  let trip (p : Port) := dueIf (timerDue s.now ((session s p).bind (·.tripDue))) (.tripTimerExpiry p)
  phase .p1 ++ phase .p2 ++ trip .p1 ++ trip .p2 ++ dueIf (timerDue s.now s.ring.faultDue) .ringFaultTimerExpiry ++
    dueIf (timerDue s.now s.ring.exchange.gapDue) .callGapExpiry

/-- The dwell timer (R161). -/
def dwellTimer (i : Isolation) : Option Time :=
  match i with
  | .isolating _ t _ _ => t
  | _ => none

/-- Engine and fault unit timers that are due (R142, R143, R160, R163, R177). -/
def dueOther (s : State) : List Instr :=
  dueIf (timerDue s.now s.engine.cleanDue) (.cleanTimerExpiry (freeReadings s.occasion)) ++
    dueIf (timerDue s.now s.engine.wallDue) (.wallTimerExpiry (freeReadings s.occasion)) ++
    dueIf (timerDue s.now (dwellTimer s.faults.isolation)) .dwellExpiry ++
    dueIf (timerDue s.now (watchDue s.faults.watch)) .batteryWatchExpiry ++
    dueIf (timerDue s.uptime s.faults.quiet) .quietExpiry

/-- Every expiry that is due. -/
def dueCommands (s : State) : List Instr :=
  dueLineWork s ++ dueTracker s ++ duePort s .p1 ++ duePort s .p2 ++ dueRing s ++ dueOther s

/-- One microsecond of the running part: the clock, the bound on open windows (R58), the expiries now due. -/
def tickRunning (s : State) : State :=
  let s := s.updClock tickClock
  let s := s.updSched (fun k => { k with windows := k.windows.map (slideWindow s.now) })
  let next := if timerDue s.now s.engine.cleanDue || timerDue s.now s.engine.wallDue then s.occasion + 1 else s.occasion
  (s.setPending (s.pending ++ dueCommands s)).setOccasion next

/-- What happens on an empty queue (log entry 1): without supply nothing; under the reset input uptime alone
runs, the timebase standing at 0 (R187); otherwise time passes. -/
def tick (s : State) : State :=
  match s.phase with
  | .unpowered => s
  | .inReset => s.updClock tickUptime
  | .loading | .running => tickRunning s

/-- Take the command at the front of the queue, or let time pass on an empty one. -/
def takeFront (run : Instr → State → Result) (s : State) : Result :=
  match s.pending with
  | [] => .next (tick s)
  | c :: rest => run c (s.setPending rest)

/-- Put a command at the front of the queue. -/
def pushFront (c : Instr) (s : State) : State := s.setPending (c :: s.pending)

end Sys2Proof.Machine
end

