-- ==== Sys2Proof/Safety.lean ====
section
/-! DEFINITION. The terms the statements use: when a port takes a request frame and what its answer leaves on
the port (R1 to R4, R7, R10), and the conditions that every step keeps. -/

namespace Sys2Proof.Machine

/-! ## Requests on their ports -/

/-- The physical port and the length of a request's frame; none for an event (R6, R7). -/
def frameShape (i : Instr) : Option (PhysPort × Nat) :=
  (requestParts i).map (fun q => (q.1.channel.physPort, 4 + q.2.2.length))

/-- The command is a request. -/
def isRequest (i : Instr) : Bool := (requestParts i).isSome

/-- A request frame of `n` bytes that ends now on a port is taken: the port's ready output is asserted and its
port-reset input is not, and the gateway port's held response is clocked out by this transfer (R1, R2, R6),
or fewer than 4 responses stand on the modem port (R3, R4, R6). -/
def portOpen (p : PhysPort) (n : Nat) (s : State) : Prop :=
  match p with
  | .gateway =>
    s.gateway.ready = true ∧ s.gateway.resetInput = false ∧ ∀ h, s.gateway.held = some h → h.length ≤ n
  | .modem => s.modem.ready = true ∧ s.modem.resetInput = false ∧ s.modem.responses.length < 4

/-- The request's frame is taken by the port of its channel. -/
def frameTaken (i : Instr) (s : State) : Prop :=
  match frameShape i with
  | some (p, n) => portOpen p n s
  | none => False

/-- The gateway port after a transfer of `n` bytes that clocks out what it holds (R1, R2). -/
def shiftedOut (n : Nat) (g : GatewayPort) : GatewayPort :=
  { g with out := (g.held.getD [] ++ List.replicate n 0).take n, held := none }

/-- The state as a taken request's owner finds it: the transfer that carried a gateway frame has ended (R2). -/
def frameIn (i : Instr) (s : State) : State :=
  match frameShape i with
  | some (.gateway, n) => { s with gateway := shiftedOut n s.gateway }
  | _ => s

/-- The response frame of a request: length, code, outcome, tag, results (R7). -/
def responseTo (i : Instr) (o : Code) (results : List Byte) : List Byte :=
  match requestParts i with
  | some (r, code, _) => byte (4 + results.length) :: code :: byte o.num :: r.tag :: results
  | none => []

/-- The response enters the port of the request's channel (R2, R4). -/
def answered (i : Instr) (o : Code) (results : List Byte) (s : State) : State :=
  match frameShape i with
  | some (.gateway, _) => { s with gateway := { s.gateway with held := some (responseTo i o results) } }
  | some (.modem, _) =>
    { s with modem := { s.modem with responses := s.modem.responses ++ [responseTo i o results] } }
  | none => s

/-- The ports of `t` stand as `s`'s do after request `i` has been answered with outcome and results. -/
def respondedWith (i : Instr) (o : Code) (results : List Byte) (s t : State) : Prop :=
  t.gateway = (answered i o results (frameIn i s)).gateway ∧ t.modem = (answered i o results (frameIn i s)).modem

/-- An acceptance (R10); every other outcome is a refusal. -/
def Code.accepts (o : Code) : Bool :=
  match o with
  | .ok | .accepted | .queued => true
  | _ => false

/-! ## Conditions every step keeps -/

/-- A queue is in queue order: no notice ranks above one ahead of it (R15). -/
def inQueueOrder (q : List Notice) : Prop := q.Pairwise (fun a b => outranks b a = false)

/-- A channel's queue holds at most 16 notices in queue order, and at most one of each superseding kind
(R15 to R17). -/
def queueSound (c : ChannelRec) : Prop :=
  c.queue.length ≤ 16 ∧ inQueueOrder c.queue ∧
    ∀ k : Kind, k.supersedes = true → c.queue.countP (fun n => decide (n.kind = k)) ≤ 1

/-- Every channel's queue is sound. -/
def queuesSound (s : State) : Prop := ∀ c : Channel, queueSound (s.channels.get c)

/-- While the test bus stands at EXCHANGE both pass-throughs are OPEN and the DSL path is DECOUPLED (R44). -/
def busSafe (s : State) : Prop :=
  s.relays.bus = .exchange → s.relays.pass.p1 = .open_ ∧ s.relays.pass.p2 = .open_ ∧ s.relays.dsl = .decoupled

/-- While isolation is ISOLATING or LOCKOUT the line-break is OPEN (R161). -/
def breakOpen (s : State) : Prop := s.faults.isolation ≠ .normal → s.relays.lineBreak = .open_

/-- The claim queue's conditions: at most 8 entries, no two for one channel and function, none for a function
its own channel holds, none for a free function (R29). -/
def claimsSound (s : State) : Prop :=
  s.lines.claims.length ≤ 8 ∧
    s.lines.claims.Pairwise (fun a b => ¬(a.channel = b.channel ∧ a.function = b.function)) ∧
    ∀ e ∈ s.lines.claims, ∃ c, holderOf s e.function = some c ∧ c ≠ e.channel

/-- The claim queue is in queue order: lower level first (R29). -/
def claimsOrdered (s : State) : Prop := s.lines.claims.Pairwise (fun a b => a.level ≤ b.level)

/-- Edges seen is the sum of the six categories, modulo 2^32 (R85). -/
def countsSum (n : EdgeCounts) : Prop :=
  n.seen = n.merged + n.dropped + n.blanked + n.learn + n.hit + n.stray

/-- In LOCKED and COAST, Pe lies in the clamped range, at most 7 windows are checked and m is at most k; in
ACQUIRE, c is at most 3, and from the first interval on Pe lies in the clamped range (R68, R69, R71, R72, R78). -/
def trackerSound (k : Tracker) : Prop :=
  match k.state with
  | .locked | .coast => 4800000 ≤ k.period ∧ k.period ≤ 64000000 ∧ k.checked ≤ 7 ∧ k.misses ≤ k.checked
  | .acquire => k.intervals ≤ 3 ∧ (k.intervals = 0 ∨ 4800000 ≤ k.period ∧ k.period ≤ 64000000)
  | .search => True

/-- Records follow one another with consecutive sequence numbers, and next sequence follows the newest
(R168). -/
def consecutive (next : BitVec 32) : List LogRecord → Prop
  | [] => True
  | [x] => x.sequence + 1 = next
  | x :: y :: rest => x.sequence + 1 = y.sequence ∧ consecutive next (y :: rest)

/-- The log holds at most 32 records with consecutive numbers and repeat counts up to 255 (R168). -/
def logSound (u : FaultUnit) : Prop :=
  u.log.length ≤ 32 ∧ consecutive u.nextSeq u.log ∧ ∀ x ∈ u.log, x.repeats ≤ 255

/-- Between commands the fault unit takes no fault and none waits (R156, log entry 13). -/
def faultsIdle (s : State) : Prop := s.faults.taking = false ∧ s.faults.waiting = []

/-- Every channel's latches stand in natural order, one for a class at most (R174, R176). -/
def latchesOrdered (s : State) : Prop :=
  ∀ c : Channel, (s.faults.channels.get c).latches.Pairwise (fun a b => a.cls.num < b.cls.num)

/-- In RESERVE no ring session stands, and in BATTERY at most one port's burst is on (R125, R126). -/
def ringPowered (s : State) : Prop :=
  match s.power.state with
  | .reserve => session s .p1 = none ∧ session s .p2 = none
  | .battery => ¬(inBurst s .p1 = true ∧ inBurst s .p2 = true)
  | .mains => True

/-- A trip timer runs only under a burst (R127). -/
def tripsInBurst (s : State) : Prop :=
  ∀ p x, session s p = some x → x.tripDue.isSome = true → inBurst s p = true

/-- The DSL slot is occupied only while a DSL switch is in flight (R40). -/
def dslSlotted (s : State) : Prop := (slotRec s .dsl).isSome = true → s.dsl.isSome = true

/-- The list holds at most 8 windows, a window's keys are empty exactly when its end is present, and no key
stands open in two windows (R58, R60). -/
def windowsSound (l : List Window) : Prop :=
  l.length ≤ 8 ∧ (∀ w ∈ l, w.keys = [] ↔ w.stop.isSome = true) ∧
    l.Pairwise (fun a b => ∀ k ∈ a.keys, k ∉ b.keys)

/-- A timer counts. -/
def Timer.isRunning : Timer → Bool
  | .running _ => true
  | _ => false

/-- While a supervisor is frozen or masked its timers stand still (R113). -/
def supervisorStill (u : Supervisor) : Prop :=
  (u.frozen.isSome = true ∨ u.masked = true) →
    u.seizeTimer.isRunning = false ∧ u.breakTimer.isRunning = false ∧ u.gapTimer.isRunning = false

/-- The supervisors of both ports. -/
def supervisorsStill (s : State) : Prop := ∀ p : Port, supervisorStill (s.port p).sup

/-- Every setting in force lies in the range its owner's rule gives (R182). -/
def settingsSound (s : State) : Prop := (settingsOf s).valid = true

/-- The bounds of the lists a response reports (R29, R58, R81, R114, R135, R151). -/
def listsBounded (s : State) : Prop :=
  s.lines.claims.length ≤ 8 ∧ s.sched.windows.length ≤ 8 ∧ s.tracker.forecast.length ≤ 4 ∧
    s.ports.p1.dial.length ≤ 24 ∧ s.ports.p2.dial.length ≤ 24 ∧
    (∀ x, s.engine.result = some x → x.measurements.length ≤ 4) ∧
    (∀ t l, s.engine.test = some t → t.values = some l → l.length ≤ 4) ∧
    ∀ n g, s.engine.gates.get n = some g → g.limits.length ≤ 4

/-! ## Terms of the statements about requests that read (chapters 1 to 11) -/

/-- The requests that only read, with the operand values their rules accept. -/
def readable (i : Instr) (s : State) : Prop :=
  match i with
  | .identify _ | .readTime _ | .readFunctions _ | .readTracker _ | .readForecast _ | .readTestResult _
  | .readIsolation _ | .readCapture _ | .readPower _ => True
  | .queryFunction _ f => f.toNat ≤ 4
  | .readDisturbances _ part | .readRing _ part => part.toNat ≤ 1
  | .readLog _ _ form => form.toNat ≤ 1
  | .readGates _ gate => gate.toNat ≤ 3
  | .readPort _ port | .readDial _ port => port = 1 ∨ port = 2 ∧ s.twoPorts = true
  | _ => False

/-- The refusal of a request that only reads, where its operand is not one its rule accepts (R36, R64, R104, R119, R134,
R153, R170). -/
def readRefusal (i : Instr) (s : State) : Option Code :=
  match i with
  | .queryFunction _ f => if f.toNat ≤ 4 then none else some .badFunction
  | .readDisturbances _ part | .readRing _ part => if part.toNat ≤ 1 then none else some .badRequest
  | .readLog _ _ form => if form.toNat ≤ 1 then none else some .badRequest
  | .readGates _ gate => if gate.toNat ≤ 3 then none else some .badRequest
  | .readPort _ port | .readDial _ port =>
    if port.toNat = 0 ∨ 2 < port.toNat then some .badRequest
    else if port.toNat = 2 ∧ s.twoPorts = false then some .notFitted else none
  | _ => none

/-- How many result bytes such a request carries (R11, R12, R36, R37, R64, R88, R89, R104, R119, R134, R150, R153,
R166, R170, R173, R181). -/
def readLength (i : Instr) (s : State) : Nat :=
  match i with
  | .identify _ => 7
  | .readTime _ => 8
  | .queryFunction _ _ => 13
  | .readFunctions _ => 28 + 4 * s.lines.claims.length
  | .readDisturbances _ part => if part = 0 then 40 else 2 + 7 * s.sched.windows.length
  | .readTracker _ => 32
  | .readForecast _ => 6 + 10 * s.tracker.forecast.length
  | .readPort _ _ => 17
  | .readDial _ port => 16 + (if port = 1 then s.ports.p1.dial else s.ports.p2.dial).length
  | .readRing _ part => if part = 0 then 26 else 53
  | .readTestResult _ =>
    24 + 6 * (match s.engine.result with | some x => x.measurements.length | none => 0)
  | .readGates _ gate =>
    6 + 9 * (match s.engine.gates.get gate.toNat with | some g => g.limits.length | none => 0)
  | .readIsolation _ => 29
  | .readLog _ from_ form =>
    let n := (selectRecords from_ s.faults.log).length
    if form = 0 then 4 + 12 * min 4 n else 4 + 24 * min 2 n
  | .readCapture _ => 23
  | .readPower _ => 9
  | _ => 0

/-- Holder, recorded level and via gate of a function, 0xFF where free or absent (R36). -/
def holdFields (x : FuncRec) : List Byte :=
  match x.hold with
  | none => [0xFF, 0xFF, 0xFF]
  | some h => [byte (chanCode h.holder), byte h.level, (h.viaGate.map byte).getD 0xFF]

/-- A disturbance slot as R64 reports it: zeros where empty. -/
def slotFields (now : Time) (d : Option Disturbance) : List Byte :=
  match d with
  | none => List.replicate 9 0
  | some d =>
    [match d.state with | .notified _ => 1 | .deferred _ => 2 | .active _ => 3, d.id,
      match d.work with | .ringSession => 1 | .modeSwitch => 2 | .dslSwitch => 3 | .testConnect => 4,
      byte (optPort d.port), byte ((if d.duration = none then 64 else 0) + (if d.deferrable then 128 else 0))] ++
      halfBytes (BitVec.ofNat 16 (msLeft now (leadDeadline d))) ++
      halfBytes (BitVec.ofNat 16 (min 65535 (d.duration.getD 0)))

/-- A blanking window as R64 reports it. -/
def windowFields (w : Window) : List Byte :=
  wordBytes w.start ++
    halfBytes (BitVec.ofNat 16 (match w.stop with
      | some e => min 65534 (((e - w.start).toNat + 999) / 1000)
      | none => 65535)) ++
    [byte ((match w.source with | .relay => 1 | .ringBurst => 2 | .hook => 3 | .exchangeBurst => 4 | .test => 5) +
      16 * optPort w.port + (if w.merged then 128 else 0))]

/-- A phone port as R104 reports it. -/
def portFields (p : Port) (s : State) : List Byte :=
  let q := s.port p
  ([byte (portNum p), match q.mode with | .lifeline => 0 | .local_ => 1 | .toLocal => 2 | .toLifeline => 3] :
    List Byte) ++
    (match q.switch with
      | none => ([0, 0, 0xFF, 0] : List Byte)
      | some w => [match w.stage with | .lead => 1 | .break_ => 2 | .make => 3, w.id, byte (chanCode w.requester),
          if w.forced then 1 else 0]) ++
    ([match s.relays.pass.get p with | .closed => 0 | .open_ => 1,
      match s.relays.feed.get p with | .off => 0 | .on => 1 | .denied => 2] : List Byte) ++
    (match q.denial with
      | none => ([0, 0, 0, 0, 0, 0] : List Byte)
      | some d =>
        ([match d.stage with | .waiting _ => 1 | .probing _ => 2, byte d.failed] : List Byte) ++ wordBytes d.since) ++
    ([if q.underTest then 1 else 0, if q.suspended then 1 else 0,
      match q.sup.state with | .onHook => 0 | .seizing => 1 | .offHook => 2 | .break_ => 3] : List Byte)

/-- A port's hook supervisor and dial record as R119 reports them. -/
def dialFields (p : Port) (s : State) : List Byte :=
  let q := s.port p
  let half (n : Nat) : List Byte := halfBytes (BitVec.ofNat 16 n)
  [byte (portNum p), match q.sup.state with | .onHook => 0 | .seizing => 1 | .offHook => 2 | .break_ => 3,
    byte ((if q.sup.frozen.isSome then 1 else 0) + (if q.sup.masked then 2 else 0) +
      (if lifelineCond s p then 4 else 0) +
      (if s.relays.pass.get p = .open_ ∧ s.relays.feed.get p = .off then 8 else 0)), byte q.sup.pulses] ++
    half q.timing.seize ++ half q.timing.glitch ++ half q.timing.pulseMax ++ half q.timing.flashMax ++
    half q.timing.digitGap ++ [if q.overflow then 1 else 0, byte q.dial.length] ++
    q.dial.map (fun e => match e with | .digit d => byte d | .flash => 0x0A)

/-- A port's ring record as R134 reports it. -/
def sessionFields (x : Option RingSession) : List Byte :=
  match x with
  | none => [0, 0, 0, 0, 0, 0, 0, 0xFF, 0]
  | some x =>
    [match x.state with | .notifying => 1 | .burst _ => 2 | .silent false => 3 | .silent true => 0x83,
      byte x.cadence, byte x.stepIndex] ++ halfBytes (BitVec.ofNat 16 (x.cyclesLeft.getD 65535)) ++
      [byte x.cyclesDone, byte x.skipped, byte (chanCode x.issuer), x.id]

/-- The exchange ring record as R134 reports it. -/
def exchangeFields (now : Time) (x : ExchangeRing) : List Byte :=
  [byte ((if x.ringing then 1 else 0) + (if x.burstOn then 128 else 0)), byte x.bursts, byte x.every, byte x.count] ++
    halfBytes (BitVec.ofNat 16 (msLeft now x.gapDue))

/-- A cadence entry as R134 reports it: three steps, unused ones 0. -/
def cadenceFields (l : List CadenceStep) : List Byte :=
  byte l.length :: [0, 1, 2].flatMap (fun n =>
    let x := l.getD n ⟨0, 0⟩
    halfBytes (BitVec.ofNat 16 x.on) ++ halfBytes (BitVec.ofNat 16 x.off))

/-- The current test as R150 reports it. At IDLE the forced byte is 0 by the model's choice (log entry 38). -/
def testFields (now : Time) (x : Option Test) : List Byte :=
  match x with
  | none => [0, 0, 0, 0xFF, 0xFF, 0, 0, 0, 0]
  | some x =>
    [match x.phase with | .notify => 1 | .connect => 2 | .measure => 3 | .release => 4,
      byte x.kind.code, byte (targetCode x.target), byte (chanCode x.requester), (x.viaGate.map byte).getD 0xFF,
      if x.forced then 1 else 0, x.id] ++
      halfBytes (BitVec.ofNat 16 ((match x.phase with | .measure => cleanSoFar x now | _ => x.clean) / 1000))

/-- The result record as R150 reports it. With no record the outcome, clean time and ended-at bytes are 0 by the model's
choice (log entry 38). -/
def resultFields (x : Option TestResult) : List Byte :=
  match x with
  | none => List.replicate 15 0
  | some x =>
    [1, byte x.kind.code, byte (targetCode x.target), byte (chanCode x.requester), (x.viaGate.map byte).getD 0xFF,
      if x.forced then 1 else 0,
      match x.outcome with | .pass => 0 | .fail => 1 | .noVerdict => 2 | .noisy => 3 | .aborted => 4,
      match x.abort with
        | none => 0 | some .requested => 1 | some .hookAbort => 2 | some .ringAbort => 3 | some .faultAbort => 4
        | some .holdLost => 5 | some .requesterReset => 6 | some .powerAbort => 7] ++
      halfBytes (BitVec.ofNat 16 (x.clean / 1000)) ++ wordBytes x.endedAt ++ [byte x.measurements.length] ++
      x.measurements.flatMap (fun m => [byte m.number] ++ wordBytes (BitVec.ofInt 32 m.value) ++
        [byte ((if m.saturated then 1 else 0) + (if m.short then 2 else 0) +
          (match m.verdict with | none => 0 | some .pass => 4 | some .fail => 8))])

/-- A gate as R153 reports it: zeros where absent. -/
def gateFields (g : Option Gate) : List Byte :=
  match g with
  | none => [0, 0, 0, 0, 0]
  | some g =>
    [1, byte g.level, byte g.kind.code, byte (targetCode g.target), byte g.limits.length] ++
      g.limits.flatMap (fun l =>
        [byte l.number] ++ wordBytes (BitVec.ofInt 32 l.low) ++ wordBytes (BitVec.ofInt 32 l.high))

/-- The line's isolation and watches as R166 reports them. -/
def isolationFields (s : State) : List Byte :=
  let u := s.faults
  let left (due : Option Time) : List Byte := halfBytes (BitVec.ofNat 16 (msLeft s.now due))
  (match u.isolation with
    | .normal => ([0, 0, 0, 0, 0xFF, 0, 0, 0, 0, 0] : List Byte)
    | .isolating d due cause since =>
      [1, byte d] ++ left due ++ [byte cause.num] ++ wordBytes since ++ [0]
    | .lockout why cause since =>
      [2, 0, 0, 0, byte cause.num] ++ wordBytes since ++
        [match why with | .secondFault => 1 | .persistentHazard => 2]) ++
    [match s.relays.lineBreak with | .closed => 0 | .open_ => 1,
      byte ((if s.pins.hazard then 1 else 0) + (if s.pins.thermal then 2 else 0) + (if s.pins.dcLow then 4 else 0)),
      byte ((if u.watch.started.isSome then 1 else 0) + (if u.watch.lost then 2 else 0))] ++
    left (u.watch.started.map (fun t => t + ms 5000)) ++ allClasses.map (fun c => byte (levelOf u.levels c))

/-- A log record as R170 reports it, brief or full. -/
def recordFields (full : Bool) (x : LogRecord) : List Byte :=
  wordBytes x.sequence ++ [byte x.cls.num, byte x.level, (x.source.map byte).getD 0xFF, byte x.repeats] ++
    (if full then wordBytes x.firstTime ++ wordBytes x.lastTime ++ wordBytes (x.detail1.getD 0) ++
      wordBytes (x.detail2.getD 0) else wordBytes x.lastTime)

/-- The result bytes of a request that reads (R11, R12, R36, R37, R64, R88, R89, R104, R119, R134, R150, R153, R166,
R170, R173, R181). The bits of a field that its rule does not name are 0 by the model's choice (log entry 16). -/
def readFields (i : Instr) (s : State) : List Byte :=
  let half (n : Nat) : List Byte := halfBytes (BitVec.ofNat 16 n)
  let nat32 (n : Nat) : List Byte := wordBytes (BitVec.ofNat 32 n)
  match i with
  | .identify r =>
    [0x40, 0x02, 2, if s.twoPorts then 0x1F else 0x1D, if s.twoPorts then 2 else 1,
      match r.channel with | .modem => 0 | .management => 1 | .gateway => 2,
      byte (max (match r.channel with | .modem => 2 | .management => 0 | .gateway => 1) r.level.toNat)]
  | .readTime _ => wordBytes s.clock.timebase ++ wordBytes s.clock.uptime
  | .queryFunction r b =>
    match funcOf b with
    | none => []
    | some f =>
      let x := s.lines.table.get f
      let fitted := f ≠ .port2 ∨ s.twoPorts = true
      [b, if fitted then 1 else 0, byte x.level] ++ holdFields x ++
        wordBytes (match x.hold with | none => 0 | some h => h.grantedAt) ++
        [byte ((s.lines.claims.filter (fun e => e.function = f)).length),
          byte (claimPosition r.channel f s.lines.claims), if fitted ∧ effLevel r ≤ x.level then 1 else 0]
  | .readFunctions _ =>
    allFuncs.flatMap (fun f =>
      (if f = .port2 ∧ s.twoPorts = false then 0xFF else byte (s.lines.table.get f).level) ::
        holdFields (s.lines.table.get f)) ++
      [byte (contactCode s.relays.lineBreak), byte (contactCode s.relays.pass.p1),
        byte (contactCode s.relays.pass.p2), byte (feedCode s.relays.feed.p1), byte (feedCode s.relays.feed.p2),
        byte (couplingCode s.relays.dsl), byte (busCode s.relays.bus), byte s.lines.claims.length] ++
      s.lines.claims.flatMap (fun e => [byte (chanCode e.channel), byte (funcNum e.function), byte e.level,
        byte (((offset s.now e.deadline).toNat + 49999) / 50000)])
  | .readDisturbances _ part =>
    if part = 0 then
      [0] ++ half s.sched.lead ++ [s.sched.nextId] ++ slotFields s.now s.sched.slots.port1 ++
        slotFields s.now s.sched.slots.port2 ++ slotFields s.now s.sched.slots.dsl ++
        slotFields s.now s.sched.slots.test
    else [1, byte s.sched.windows.length] ++ s.sched.windows.flatMap windowFields
  | .readTracker _ =>
    let k := s.tracker
    let state : Byte := match k.state with | .search => 0 | .acquire => 1 | .locked => 2 | .coast => 3
    (if k.enable then 1 else 0) :: half k.deadTime ++ [state] ++ wordBytes k.anchor ++
      [byte k.intervals] ++ nat32 k.period ++ nat32 k.periodUs ++ nat32 k.jitter ++ half k.halfWidth ++
      [byte k.misses, byte k.checked, byte k.strayRun, k.obscured, byte k.edges.length] ++
      wordBytes (match k.acquireDue, k.checkDue with
        | some due, _ => due
        | none, some due => due
        | none, none => 0)
  | .readForecast _ =>
    let k := s.tracker
    ([match k.state with | .search => 0 | .acquire => 1 | .locked => 2 | .coast => 3, byte k.forecast.length] :
      List Byte) ++ nat32 k.periodUs ++ k.forecast.flatMap (fun w =>
        wordBytes w.start ++ wordBytes w.stop ++ [byte w.number, if w.coasting then 1 else 0])
  | .readPort _ port => portFields (if port = 1 then .p1 else .p2) s
  | .readDial _ port => dialFields (if port = 1 then .p1 else .p2) s
  | .readRing _ part =>
    if part = 0 then
      [0] ++ sessionFields s.ring.sessions.p1 ++ sessionFields s.ring.sessions.p2 ++
        exchangeFields s.now s.ring.exchange ++
        [byte ((if s.ring.generator.p1 then 1 else 0) + (if s.ring.generator.p2 then 2 else 0))]
    else
      [1] ++ cadenceFields s.ring.cadences.e0 ++ cadenceFields s.ring.cadences.e1 ++
        cadenceFields s.ring.cadences.e2 ++ cadenceFields s.ring.cadences.e3
  | .readTestResult _ => testFields s.now s.engine.test ++ resultFields s.engine.result
  | .readGates _ gate => [gate] ++ gateFields (s.engine.gates.get gate.toNat)
  | .readIsolation _ => isolationFields s
  | .readLog _ from_ form =>
    let u := s.faults
    let full := decide (form ≠ 0)
    let taken := (u.log.filter (fun x => (x.sequence - from_).toNat < 2 ^ 31)).take (if full then 2 else 4)
    [form, byte u.log.length,
      byte ((if u.discarded then 1 else 0) + (match u.policy with | .keepNewest => 0 | .keepFirst => 2)),
      byte taken.length] ++ taken.flatMap (recordFields full)
  | .readCapture _ =>
    match s.faults.capture with
    | none => List.replicate 23 0
    | some c => [1, byte c.cls.num, byte c.level] ++ wordBytes c.sequence ++ wordBytes c.uptime ++
        wordBytes c.timebase ++ wordBytes (c.detail1.getD 0) ++ wordBytes (c.detail2.getD 0)
  | .readPower _ =>
    ([match s.power.state with | .mains => 0 | .battery => 1 | .reserve => 2,
      (if s.power.mains then 1 else 0) + (if s.power.reserve then 2 else 0)] : List Byte) ++
      wordBytes (s.power.since.getD 0) ++
      ([match s.store.loadResult with | .good => 0 | .blank => 1 | .checkFailed => 2,
        if s.store.saving.isSome then 1 else 0,
        match s.store.lastSave with | .none => 0 | .ok => 1 | .writeFailed => 2] : List Byte)
  | _ => []

/-! ## Terms of the statements about events -/

/-- The commands that a timer's expiry queues. -/
def isExpiry (i : Instr) : Bool :=
  match i with
  | .claimDeadlineExpiry _ _ | .changeSetComplete _ | .leadExpiry _ | .blankingWindowRemoval | .deadTimeExpiry
  | .edgeClassification | .acquireExpiry | .windowCheck | .feedDenial _ | .probeStart _ | .probeEnd _
  | .seizeTimerExpiry _ | .breakTimerExpiry _ | .digitGapExpiry _ | .ringPhaseTimerExpiry _ | .tripTimerExpiry _
  | .ringFaultTimerExpiry | .callGapExpiry | .cleanTimerExpiry _ | .wallTimerExpiry _ | .dwellExpiry
  | .batteryWatchExpiry | .quietExpiry => true
  | _ => false

/-! ## Terms of the statements about what is handed (R14 to R17) -/

/-- A notice as its owner hands it, with the channel concerned where it is a completion (R14). -/
abbrev Handing := Notice × Option Channel

/-- Owners hand these to the port block, in order (R14). -/
def handAll (l : List Handing) (s : State) : State :=
  l.foldl (fun s x => match x.2 with
    | none => postSubscribed x.1 s
    | some c => postCompletion x.1 c s) s

/-- Of these, what goes to a channel with these subscriptions (R14). -/
def told (c : Channel) (subs : BitVec 32) (l : List Handing) : List Notice :=
  (l.filter (fun x => decide (x.2 = some c) || subs.getLsbD x.1.kind.code)).map (·.1)

/-- Of the notices of one sort, which supersede nothing, an event queued to each channel exactly those given beside
what its queue held: a full queue may have lost some, which its lost flag then says (R15, R17). -/
def handsEach (sort : Notice → Bool) (given : Channel → List Notice) (s t : State) : Prop :=
  ∀ c : Channel,
    let before := s.channels.get c
    let after := t.channels.get c
    (∀ n ∈ after.queue, sort n = true → n ∈ before.queue ∨ n ∈ given c) ∧
    (after.lost = false → (after.queue.filter sort).Perm (before.queue.filter sort ++ given c))

/-- Of the notices of one sort, an event handed exactly these. -/
def hands (sort : Notice → Bool) (l : List Handing) (s t : State) : Prop :=
  handsEach sort (fun c => told c (s.channels.get c).subs l) s t

/-- A superseding notice was handed to the subscribed channels: a queue with room for the event's notices holds it, a
sound queue holds no other of its kind, and a channel not subscribed gets none (R14, R16). -/
def supersededBy (n : Notice) (s t : State) : Prop :=
  ∀ c : Channel,
    let before := s.channels.get c
    let after := t.channels.get c
    (before.subs.getLsbD n.kind.code = true →
      (before.queue.length ≤ 12 → n ∈ after.queue) ∧
      (queueSound before → ∀ x ∈ after.queue, x.kind = n.kind → x = n)) ∧
    (before.subs.getLsbD n.kind.code = false → ∀ x ∈ after.queue, x.kind = n.kind → x ∈ before.queue)

/-- The notices of a kind. -/
def ofKind (k : Kind) (n : Notice) : Bool := decide (n.kind = k)

/-- The UNPLANNED notices of an unplanned kind (R57). -/
def unplannedOf (code : Nat) (n : Notice) : Bool := decide (n.kind = .unplanned ∧ n.subject.toNat = code)

/-- The HOOK notices of a port with a reason (R116). -/
def hookOf (p : Port) (reason : Nat) (n : Notice) : Bool :=
  decide (n.kind = .hook ∧ n.subject.toNat = portNum p ∧ n.flags.toNat / 16 = reason)

/-- The fault unit takes these faults in order, as FaultsAreLoggedAndNoticed says of each (R156). -/
def faultsTaken (l : List Raised) (s : State) : State := l.foldl (fun s f => raiseFault f s) s

/-- An event raised exactly these faults, in this order: the log, the capture record and the pending latches are as
they leave them, and of FAULT notices it handed exactly theirs (R156, R168 to R175). -/
def raises (l : List Raised) (s t : State) : Prop :=
  let silent : State := { s with channels :=
    ⟨{ s.channels.modem with queue := [] }, { s.channels.management with queue := [] },
      { s.channels.gateway with queue := [] }⟩ }
  { t.faults with watch := s.faults.watch, isolation := s.faults.isolation } = (faultsTaken l s).faults ∧
    handsEach (ofKind .fault) (fun c => ((faultsTaken l silent).channels.get c).queue) s t

/-- CLAIM_GRANTED of an entry whose function is granted to it (R34). -/
def claimGrantedOf (now : Time) (e : ClaimEntry) : Handing :=
  (⟨.claimGranted, 6, byte (funcNum e.function), 0, now, word (byte e.level) 0 0 0⟩, some e.channel)

/-- CLAIM_EXPIRED, reason PRIVILEGE, of an entry above a new descriptor level (R34). -/
def claimExpiredOf (now : Time) (level : Nat) (e : ClaimEntry) : Handing :=
  (⟨.claimExpired, 6, byte (funcNum e.function), 2, now, word (byte e.level) (byte level) 0 0⟩, some e.channel)

/-- HOLD_REVOKED of a lost hold: reason 1 SEIZED with the seizing channel, 2 TIGHTENED with the new level (R34). -/
def holdRevokedOf (now : Time) (f : Func) (h : Hold) (reason value : Nat) : Handing :=
  (⟨.holdRevoked, 6, byte (funcNum f), byte reason, now, word (byte h.level) (byte value) 0 0⟩, some h.holder)

/-- RING_END of a session with its reason and fault cause (R129). -/
def ringEndOf (now : Time) (p : Port) (x : RingSession) (reason cause : Nat) : Handing :=
  (⟨.ringEnd, 4, byte (portNum p), byte reason, now,
    word (byte x.cyclesDone) (byte x.skipped) x.id (byte cause)⟩, some x.issuer)

/-- ANSWERED of a session, 1 TRIP or 2 SEIZE (R127). -/
def answeredOf (now : Time) (p : Port) (x : RingSession) (how : Nat) : Handing :=
  (⟨.answered, 6, byte (portNum p), byte how, now, word (byte x.cyclesDone) (byte x.stepIndex) x.id 0⟩,
    some x.issuer)

/-- RING_END of every session that stands, with one reason (R129). -/
def sessionsEnd (reason : Nat) (s : State) : List Handing :=
  (session s .p1).toList.map (fun x => ringEndOf s.now .p1 x reason 0) ++
    (session s .p2).toList.map (fun x => ringEndOf s.now .p2 x reason 0)

/-- RING_END, HOLD_LOST, of the session that the holder of a port function issued, where it loses the hold (R33,
R129). -/
def sessionLost (f : Func) (holder : Channel) (s : State) : List Handing :=
  [Port.p1, Port.p2].flatMap (fun p =>
    ((session s p).filter (fun x => decide (portFunc p = f ∧ x.issuer = holder))).toList.map
      (fun x => ringEndOf s.now p x 4 0))

/-- HOOK of a port (R116). -/
def hookNoteOf (now : Time) (p : Port) (offHook lifeline : Bool) (reason : Nat) (detail : Time) : Handing :=
  (⟨.hook, 6, byte (portNum p),
    byte ((if offHook then 1 else 0) + (if lifeline then 2 else 0) + 16 * reason), now, detail⟩, none)

/-- UNPLANNED of a kind, with its port and its detail byte 8 (R57). -/
def unplannedNoteOf (now : Time) (code : Nat) (p : Option Port) (b8 : Nat) : Handing :=
  (⟨.unplanned, 7, byte code, byte (optPort p), now, word (byte b8) 0 0 0⟩, none)

/-- MODE_DONE of a port's switch: the outcome, the mode standing and the lifeline-suspended flag (R98). -/
def switchDoneOf (now : Time) (p : Port) (w : ModeSwitch) (outcome : Nat) (standing : PlainMode)
    (suspended : Bool) : Handing :=
  (⟨.modeDone, 5, byte (portNum p), byte outcome, now,
    word (match standing with | .lifeline => 0 | .local_ => 1) (match w.target with | .lifeline => 0 | .local_ => 1)
      (if suspended then 1 else 0) w.id⟩, some w.requester)

/-- MODE_DONE of the DSL path: the outcome and the coupling standing; bytes 9 to 11 are free (R40, log entry 15). -/
def dslDoneOf (now : Time) (w : DslSwitch) (outcome : Nat) (standing : Coupling) : Handing :=
  (⟨.modeDone, 5, 0, byte outcome, now, Config.spareBytes 11 now ++ byte (couplingCode standing)⟩, some w.requester)

/-- ISOLATION: the state after, the reason, the cause class or 0xFF, and the dwell after or 0 (R164). -/
def isolationNoteOf (now : Time) (state reason cause dwell : Nat) : Handing :=
  (⟨.isolation, 8, byte state, byte reason, now, word (byte cause) (byte dwell) 0 0⟩, none)

/-- TRACK_STATE of a tracker as it stands after the change, with m as it stood before (R83). -/
def trackStateOf (now : Time) (k : Tracker) (reason misses : Nat) : Notice :=
  ⟨.trackState, 4, match k.state with | .search => 0 | .acquire => 1 | .locked => 2 | .coast => 3, byte reason, now,
    byte misses ++ BitVec.ofNat 24 k.periodUs⟩

/-- TEST_ABORTED of a test in flight outside RELEASE, with its reason code and its phase (R146). -/
def abortFaults (reason : Nat) (s : State) : List Raised :=
  match s.engine.test with
  | none => []
  | some x => match x.phase with
    | .notify => [⟨.testAborted, some x.kind.code, some (BitVec.ofNat 32 reason), some 1, s.now⟩]
    | .connect => [⟨.testAborted, some x.kind.code, some (BitVec.ofNat 32 reason), some 2, s.now⟩]
    | .measure => [⟨.testAborted, some x.kind.code, some (BitVec.ofNat 32 reason), some 3, s.now⟩]
    | .release => []

/-! ## Terms of the statements about blanking windows and relays (R59, R92, R141, R144) -/

/-- A RELAY window handed at an instant, with the slot record's id or, for a direct change, none (R59). -/
def relayWindow (now : Time) (id : Option Byte) : Window :=
  ⟨now - ms 5, some (now + ms 70), now - ms 5, .relay, none, id, [], false⟩

/-- A HOOK window of a port handed at an instant (R59, R118). -/
def hookWindow (now : Time) (p : Port) : Window :=
  ⟨now - ms 5, some (now + ms 30), now - ms 5, .hook, some p, none, [], false⟩

/-- The TEST window of a test handed at an instant, open under its key (R59, R60, R141). -/
def testWindow (now : Time) (target : Target) (id : Byte) : Window :=
  ⟨now - ms 5, none, now - ms 5, .test, (match target with | .exchange => none | .home p => some p), some id,
    [.test], false⟩

/-- A window was added to the list at the present (R59, R62): a window of the list reaches over it and holds its key.
Where the list has room for each of the `room` windows that the act may add, it stands there as it was handed. -/
def windowOpened (w : Window) (room : Nat) (s t : State) : Prop :=
  (∃ x ∈ t.sched.windows, offset s.now x.start ≤ offset s.now w.start ∧ (∀ k ∈ w.keys, k ∈ x.keys) ∧
    ∀ a b, w.stop = some a → x.stop = some b → offset s.now a ≤ offset s.now b) ∧
  (s.sched.windows.length + room ≤ 8 → w ∈ t.sched.windows)

/-- The relay set under a test's connect change set (R44, R141). -/
def connectedRelays (target : Target) (r : Relays) : Relays :=
  match target with
  | .exchange => { r with bus := .exchange, pass := ⟨.open_, .open_⟩, dsl := .decoupled }
  | .home p => { r with bus := .home p, pass := r.pass.set p .open_, feed := r.feed.set p .off }

/-- The relay set under a test's release change set, each port at the resting positions of its mode in `t` (R92,
R144). -/
def releasedRelays (x : Test) (t : State) (r : Relays) : Relays :=
  let pass (p : Port) : Contact := if portFitted t p = true ∧ lifelineCond t p = false then .open_ else .closed
  let feed (p : Port) : Feed :=
    if lifelineCond t p = true then .off else if (t.port p).denial.isSome then .denied else .on
  match x.target with
  | .exchange =>
    { r with bus := .disconnected, dsl := x.preTest.getD r.dsl, pass := ⟨pass .p1, pass .p2⟩ }
  | .home p =>
    { r with
      bus := .disconnected, feed := r.feed.set p (feed p)
      pass := r.pass.set p (if lifelineCond t p then .closed else .open_) }

/-! ## Terms of the statements about aborts (R33, R145 to R147) -/

/-- Abort reason codes 1 to 7 (R146). -/
def abortCode : AbortReason → Nat
  | .requested => 1
  | .hookAbort => 2
  | .ringAbort => 3
  | .faultAbort => 4
  | .holdLost => 5
  | .requesterReset => 6
  | .powerAbort => 7

/-- TEST_DONE of a test that ends ABORTED (R145). Bit 3 of its flags is 0 by the model's choice (log entry 16). -/
def abortDoneOf (now : Time) (x : Test) (why : AbortReason) : Handing :=
  (⟨.testDone, 5, byte x.kind.code,
    byte (4 + (match x.target with | .exchange => 0 | .home .p1 => 16 | .home .p2 => 32) +
      (if x.short then 64 else 0) + (if x.viaGate.isSome then 128 else 0)), now,
    x.id ++ (byte (abortCode why) ++ BitVec.ofNat 16 (x.clean / 1000))⟩, some x.requester)

/-- The clean time an abort records: in MEASURE what the record counts to the present, at most over [S, S + 2M]; else
what the test holds, 0 (R147). -/
def cleanAt (x : Test) (now : Time) : Nat :=
  match x.phase, x.start with
  | .measure, some s0 =>
    cleanOver x.exclusions x.openMark (min (now - s0).toNat (2 * (x.kind.measureMs * 1000)))
  | _, _ => x.clean

/-- What an abort but FAULT_ABORT and POWER_ABORT makes of a test (R145 to R147): nothing in RELEASE; else TEST_ABORTED
is raised, and a test in NOTIFY has ended, ABORTED, with TEST_DONE, and one in CONNECT or MEASURE is in RELEASE, its
relays released (R144) and its clean time fixed. The window of an onset enters the record of the test that it aborts first (R131), and so
does that of a burst that the event ends. -/
def testAborted (why : AbortReason) (x : Test) (s t : State) : Prop :=
  (x.phase = .release → t.engine.test = some x ∧ t.faults.log = s.faults.log ∧ hands (ofKind .testDone) [] s t) ∧
  (x.phase ≠ .release → x.abort = none →
    t.faults.log = (faultsTaken (abortFaults (abortCode why) s) s).faults.log ∧
    (x.phase = .notify → t.engine.test = none ∧ t.engine.result = some ⟨x.kind, x.target, x.requester, x.viaGate,
      x.forced, .aborted, some why, [], x.clean, s.now⟩ ∧
      hands (ofKind .testDone) [abortDoneOf s.now x why] s t) ∧
    (x.phase ≠ .notify → t.relays = releasedRelays x t s.relays ∧ hands (ofKind .testDone) [] s t ∧
      ∃ y, t.engine.test = some y ∧ y.phase = .release ∧ y.abort = some why ∧ y.id = x.id ∧
        (why ≠ .ringAbort → (∀ p, inBurst s p = false) → y.clean = cleanAt x s.now)))

/-- The loss of a function's hold aborts the test under it, with HOLD_LOST, and no other (R33, R146). -/
def testLosesHold (f : Func) (s t : State) : Prop :=
  (∀ x, s.engine.test = some x → targetFunc x.target = f → testAborted .holdLost x s t) ∧
  ((∀ x, s.engine.test = some x → targetFunc x.target = f) → raises (abortFaults 5 s) s t) ∧
  ((∀ x, s.engine.test = some x → targetFunc x.target ≠ f) → raises [] s t)

/-! ## Terms of the statements about the dial record (R111, R114, R117) -/

/-- A port whose dial record has taken an entry, or whose overflow flag says that it was full (R114). -/
def recorded (e : DialEntry) (q : PhonePort) : PhonePort :=
  if q.dial.length < 24 then { q with dial := q.dial ++ [e] } else { q with overflow := true }

/-- DIGIT of an entry, from the port before it: 0 to 9 with the pulse count, or 0x0A with 0 (R117). -/
def digitOf (now : Time) (p : Port) (e : DialEntry) (count : Nat) (q : PhonePort) : Handing :=
  (⟨.digit, 3, byte (portNum p),
    byte ((match e with | .digit _ => 0 | .flash => 2) + (if q.dial.length < 24 then 0 else 4) +
      (if (recorded e q).overflow then 8 else 0)), now,
    word (match e with | .digit d => byte d | .flash => 0x0A) (byte count) (byte (recorded e q).dial.length) 0⟩, none)

/-- DIGIT of a dial error: more than 10 pulses (R111, R117). -/
def dialErrorOf (now : Time) (p : Port) (count : Nat) (q : PhonePort) : Handing :=
  (⟨.digit, 3, byte (portNum p), byte (1 + (if q.overflow then 8 else 0)), now,
    word 0xFF (byte count) (byte q.dial.length) 0⟩, none)

/-- The completion of a digit in the local condition: the port with its record, and the notices (R111, R114, R117). -/
def digitDone (now : Time) (p : Port) (q : PhonePort) : PhonePort × List Handing :=
  let n := q.sup.pulses
  if n = 0 then (q, [])
  else if n ≤ 10 then (recorded (.digit (n % 10)) q, [digitOf now p (.digit (n % 10)) n q])
  else (q, [dialErrorOf now p n q])

/-- What a channel reset of some channels leaves (R21, R47): their subscriptions, masks and thresholds at the
defaults, none of their claims and holds; every other channel's subscriptions, masks, threshold and holds, every
free function and every descriptor level as they stood. A function that a covered channel held is held by the
channel of the first claim for it among those of the other channels, at that claim's level, or is free; the claims
so granted leave the queue and the others of those channels keep their order (R30). The channel of each such claim is
handed CLAIM_GRANTED, no channel HOLD_REVOKED, and a ring session that the lost hold's channel issued ends with
HOLD_LOST (R33, R34). With no test and no session in flight the grants, in the order of the function numbers (R47),
are all that is handed: a covered channel to which none goes is as after a power-on reset. A test whose hold is lost,
or whose requester is covered, is aborted, and no other is (R146); that both together give HOLD_LOST is the model's
choice (log entry 17). -/
def wasReset (covered : List Channel) (s t : State) : Prop :=
  let kept := s.lines.claims.filter (fun e => !covered.contains e.channel)
  let first (f : Func) := kept.find? (fun e => decide (e.function = f))
  let freed (f : Func) : Bool := covered.any (fun c => decide (holderOf s f = some c))
  let chan (c : Channel) : ChannelRec := if c ∈ covered then ⟨defaultSubs c, [], false⟩ else s.channels.get c
  let cleared : State := { s with channels := ⟨chan .modem, chan .management, chan .gateway⟩ }
  let grants : List Handing := (allFuncs.filter freed).flatMap (fun f =>
    (first f).toList.map (claimGrantedOf s.now))
  let lost : List Handing := (allFuncs.filter freed).flatMap (fun f =>
    (holderOf s f).toList.flatMap (fun c => sessionLost f c s))
  (∀ c ∈ covered, (t.channels.get c).subs = defaultSubs c ∧
    (t.faults.channels.get c).masks = defaultMasks c ∧ (t.faults.channels.get c).threshold = 0 ∧
    ∀ f, holderOf t f ≠ some c) ∧
  (∀ c, c ∉ covered → (t.channels.get c).subs = (s.channels.get c).subs ∧
    (t.faults.channels.get c).masks = (s.faults.channels.get c).masks ∧
    (t.faults.channels.get c).threshold = (s.faults.channels.get c).threshold ∧
    ∀ f, holderOf s f = some c → t.lines.table.get f = s.lines.table.get f) ∧
  (∀ f, holderOf s f = none → t.lines.table.get f = s.lines.table.get f) ∧
  (∀ f, (t.lines.table.get f).level = (s.lines.table.get f).level) ∧
  (∀ f, freed f = true → (t.lines.table.get f).hold =
    (first f).map (fun e => ⟨e.channel, e.level, s.uptime, none⟩)) ∧
  t.lines.claims = kept.filter (fun e =>
    !(freed e.function && decide ((first e.function).map (·.channel) = some e.channel))) ∧
  hands (ofKind .claimGranted) grants cleared t ∧ hands (ofKind .holdRevoked) [] cleared t ∧
  hands (ofKind .ringEnd) lost cleared t ∧
  (s.engine.test = none → (∀ p, session s p = none) →
    t.channels = (handAll grants cleared).channels ∧ ∀ c ∈ covered, (t.faults.channels.get c).latches = []) ∧
  (∀ x, s.engine.test = some x → freed (targetFunc x.target) = true ∨ x.requester ∈ covered →
    testAborted (if freed (targetFunc x.target) then .holdLost else .requesterReset) x cleared t) ∧
  ((∀ x, s.engine.test = some x → freed (targetFunc x.target) = false ∧ x.requester ∉ covered) →
    t.faults.log = s.faults.log) ∧
  t = { s with
    gateway := t.gateway, modem := t.modem, channels := t.channels, lines := t.lines, relays := t.relays
    settles := t.settles, sched := t.sched, tracker := t.tracker, ports := t.ports, ring := t.ring
    engine := t.engine, faults := t.faults }

/-- A port's burst began at an instant and is on (R122). -/
def burstingSince (s : State) (p : Port) (began : Time) : Prop := ∃ x, session s p = some x ∧ x.state = .burst began

/-- The record in slot `j`, waiting in `s` as `d`, became ACTIVE and its owner's work started (R40, R53, R96, R125,
R141), with the blanking windows of each change set applied and of CONNECT (R59). -/
def ownerStarted (j : SlotId) (d : Disturbance) (s t : State) : Prop :=
  (d.work ≠ .dslSwitch → t.sched.slots = s.sched.slots.set j (some { d with state := .active s.now })) ∧
  (∀ p x, d.work = .ringSession → d.port = some p → session s p = some x → s.power.state = .mains →
    inBurst t p = true ∧ t.ring.generator.get p = true ∧ (t.port p).sup.masked = true) ∧
  (d.work = .ringSession → d.port = some .p1 → (session s .p1).isSome = true → s.power.state = .battery →
    burstingSince s .p2 s.now → inBurst t .p1 = true ∧ inBurst t .p2 = false) ∧
  (∀ p w, d.work = .modeSwitch → d.port = some p → (s.port p).switch = some w → w.stage = .lead →
    (t.port p).switch = some { w with stage := .break_ } ∧ (t.port p).sup.frozen.isSome = true ∧
    t.relays = (match w.target with
      | .local_ => { s.relays with pass := s.relays.pass.set p .open_ }
      | .lifeline => { s.relays with feed := s.relays.feed.set p .off }) ∧
    windowOpened (relayWindow s.now (some w.id)) 3 s t) ∧
  (∀ x, d.work = .testConnect → s.engine.test = some x → x.phase = .notify →
    (∃ y, t.engine.test = some y ∧ y.phase = .connect ∧
      y.preTest = (match x.target with | .exchange => some s.relays.dsl | .home _ => none)) ∧
    t.relays = connectedRelays x.target s.relays ∧ windowOpened (testWindow s.now x.target x.id) 4 s t ∧
    windowOpened (relayWindow s.now (some x.id)) 4 s t) ∧
  (∀ w, d.work = .dslSwitch → s.dsl = some w →
    (s.relays.bus = .exchange ∧ w.target = .coupled → t.dsl = none ∧ t.relays = s.relays ∧ slotRec t .dsl = none ∧
      hands (ofKind .modeDone) [dslDoneOf s.now w 1 s.relays.dsl] s t) ∧
    (¬(s.relays.bus = .exchange ∧ w.target = .coupled) →
      t.dsl = some w ∧ t.relays = { s.relays with dsl := w.target } ∧
        windowOpened (relayWindow s.now (some w.id)) 3 s t)) ∧
  t = { s with
    gateway := t.gateway, modem := t.modem, channels := t.channels, relays := t.relays, settles := t.settles
    dsl := t.dsl, sched := t.sched, tracker := t.tracker, ports := t.ports, ring := t.ring, engine := t.engine
    faults := t.faults }

/-! ## Terms of the statements about the forecast (R81, R82) -/

/-- The windows a recomputation puts in the table: in LOCKED and COAST the first four of W_1 to W_8 whose end lies
after the present, with the coasting mark; in SEARCH and ACQUIRE none (R77, R81). -/
def forecastTable (now : Time) (k : Tracker) : List ForecastWindow :=
  let ahead := ([1, 2, 3, 4, 5, 6, 7, 8].filter (fun j =>
    decide (0 < offset now (k.anchor + us (j * k.periodUs) + us k.halfWidth)))).take 4
  let window (coasting : Bool) (j : Nat) : ForecastWindow :=
    ⟨j, k.anchor + us (j * k.periodUs) - us k.halfWidth, k.anchor + us (j * k.periodUs) + us k.halfWidth, coasting⟩
  match k.state with
  | .search | .acquire => []
  | .locked => ahead.map (window false)
  | .coast => ahead.map (window true)

/-- The FORECAST notice of a recomputation: the number of windows with bit 7 in COAST, H in units of 100 µs rounded
up, and the centre of the first window, both 0 for an empty table (R82). -/
def forecastOf (now : Time) (k : Tracker) : Notice :=
  let table := forecastTable now k
  ⟨.forecast, 5, BitVec.ofNat 8 (table.length + if k.state = .coast then 128 else 0),
    if table = [] then 0 else BitVec.ofNat 8 ((k.halfWidth + 99) / 100), now,
    match table with
    | [] => 0
    | w :: _ => k.anchor + us (w.number * k.periodUs)⟩

/-- The table was recomputed at the present for the tracker as `t` has it, and FORECAST handed (R81, R82). -/
def recomputed (s t : State) : Prop :=
  t.tracker.forecast = forecastTable t.now t.tracker ∧ supersededBy (forecastOf t.now t.tracker) s t

/-! ## Terms of the statements about seizures (R95, R118, R146) -/

/-- A seizure of the port reaches this test: a home test of the port, or a non-forced exchange test while the port is
in the lifeline condition (R118, R146). -/
def seizureReaches (p : Port) (x : Test) (s : State) : Prop :=
  x.target = .home p ∨ x.target = .exchange ∧ x.forced = false ∧ lifelineCond s p = true

/-! ## Terms of the statements about tests and latches (R142, R175, R176) -/

/-- The instant `k` µs after the present is excluded by what stands: it lies in a window of the forecast table, or in a
closed window of the list that does not carry the test's id (R142). -/
def excludedNow (s : State) (id : Byte) (k : Nat) : Prop :=
  (∃ w ∈ s.tracker.forecast, offset s.now w.start ≤ k ∧ (k : Int) < offset s.now w.stop) ∨
  ∃ w ∈ s.sched.windows, w.id ≠ some id ∧ ∃ stop, w.stop = some stop ∧
    offset s.now w.start ≤ k ∧ (k : Int) < offset s.now stop

/-- A foreign window of the list stands open (R142). -/
def foreignOpen (id : Byte) (w : Window) : Prop := w.stop = none ∧ w.id ≠ some id

/-- Every window that a reading would add ends no earlier than it starts. -/
def windowsForward (s : State) : Prop :=
  (∀ w ∈ s.tracker.forecast, offset s.now w.start ≤ offset s.now w.stop) ∧
  ∀ w ∈ s.sched.windows, ∀ stop, w.stop = some stop → offset s.now w.start ≤ offset s.now stop

/-- A latch is still held on a channel by its mask, its threshold or the quiet period (R174, R176). -/
def stillHeld (quiet : Bool) (k : FaultChannel) (x : Latch) : Bool :=
  k.masks.getLsbD x.cls.num || decide (x.level ≤ k.threshold) || (quiet && decide (x.level ≤ 6))

/-- The FAULT notice of a latch at its release (R175). -/
def latchNotice (now : Time) (x : Latch) : Notice :=
  ⟨.fault, x.level, BitVec.ofNat 8 x.cls.num,
    BitVec.ofNat 8 (1 + (if x.notLogged then 2 else 0) + (if x.coalesced then 4 else 0) + 16 * x.source.getD 0),
    now, x.sequence⟩

/-- A channel's queue after some latches have been handed to it in order (R176). -/
def latchesHanded (now : Time) (l : List Latch) (c : ChannelRec) : ChannelRec :=
  l.foldl (fun c x => enqueue (latchNotice now x) c) c

end Sys2Proof.Machine
end

