-- ==== Sys2Proof/Certificates/Slice0/Obligations.lean ====
section
/-! DEFINITION. The statements for the provers: what each command does by the numbered rules of spec/, and the
conditions that every step keeps. Every request's statement holds where its port takes the frame
(`frameTaken`); EachRequestIsAnsweredOnce says what a request that is not taken does. -/

open Sys2Proof Sys2Proof.Machine

/-! ## The queue of commands and time -/

/-- A step takes the command at the front of the queue and runs it on the state with the queue's rest. -/
def Obligations.StepRunsFrontCommand : Prop :=
  ∀ (c : Instr) (rest : List Instr) (s : State),
    s.pending = c :: rest → step s = exec c (s.setPending rest)

/-- On an empty queue time passes (the model's choice, log entry 1; R12, R187; the bound on open windows is R58's).
Without supply nothing changes; under the reset input the timebase stands still and uptime runs; otherwise the
timebase advances by 1 µs and the expiry of each timer that has then fallen due is queued, and nothing else
is. Uptime advances by one with every millionth microsecond. -/
def Obligations.TimePassesOnAnEmptyQueue : Prop :=
  ∀ s : State, s.pending = [] →
    (s.phase = .unpowered → step s = .next s) ∧
    (s.phase ≠ .unpowered →
      ∃ t, step s = .next t ∧
        (if s.clock.subsecond < 999999 then
          t.clock.uptime = s.clock.uptime ∧ t.clock.subsecond = s.clock.subsecond + 1
        else t.clock.uptime = s.clock.uptime + 1 ∧ t.clock.subsecond = 0) ∧
        (s.phase = .inReset → t.clock.timebase = s.clock.timebase ∧ t = { s with clock := t.clock }) ∧
        (s.phase ≠ .inReset →
          t.clock.timebase = s.clock.timebase + 1 ∧
          t = { s with
            clock := t.clock, pending := t.pending, occasion := t.occasion
            sched := { s.sched with windows := s.sched.windows.map (slideWindow t.now) } } ∧
          (∀ c ∈ t.pending, isExpiry c = true) ∧
          (∀ c f, .claimDeadlineExpiry c f ∈ t.pending ↔
            ∃ e ∈ s.lines.claims, e.channel = c ∧ e.function = f ∧ reached t.now e.deadline = true) ∧
          (∀ a, .changeSetComplete a ∈ t.pending ↔ ∃ x ∈ s.settles, x.asker = a ∧ reached t.now x.due = true) ∧
          (∀ i, .leadExpiry i ∈ t.pending ↔
            ∃ d due, slotRec s i = some d ∧ leadDeadline d = some due ∧ reached t.now due = true) ∧
          (.blankingWindowRemoval ∈ t.pending ↔ ∃ w ∈ t.sched.windows, removable t.now w = true) ∧
          (.deadTimeExpiry ∈ t.pending ↔ timerDue t.now s.tracker.deadTimer = true) ∧
          (.edgeClassification ∈ t.pending ↔ ∃ e ∈ s.tracker.edges, reached t.now (e + us 40000) = true) ∧
          (.acquireExpiry ∈ t.pending ↔ timerDue t.now s.tracker.acquireDue = true) ∧
          (.windowCheck ∈ t.pending ↔ timerDue t.now s.tracker.checkDue = true) ∧
          (∀ p, .feedDenial p ∈ t.pending ↔
            ∃ since, (s.port p).overload = some since ∧ reached t.now (since + ms 100) = true) ∧
          (∀ p, .probeStart p ∈ t.pending ↔
            ∃ d due, (s.port p).denial = some d ∧ d.stage = .waiting due ∧ reached t.now due = true) ∧
          (∀ p, .probeEnd p ∈ t.pending ↔
            ∃ d due, (s.port p).denial = some d ∧ d.stage = .probing due ∧ reached t.now due = true) ∧
          (∀ p, .seizeTimerExpiry p ∈ t.pending ↔
            ∃ due, (s.port p).sup.seizeTimer = .running due ∧ reached t.now due = true) ∧
          (∀ p, .breakTimerExpiry p ∈ t.pending ↔
            ∃ due, (s.port p).sup.breakTimer = .running due ∧ reached t.now due = true) ∧
          (∀ p, .digitGapExpiry p ∈ t.pending ↔
            ∃ due, (s.port p).sup.gapTimer = .running due ∧ reached t.now due = true) ∧
          (∀ p, .ringPhaseTimerExpiry p ∈ t.pending ↔
            ∃ x due, session s p = some x ∧ x.phaseDue = some due ∧ reached t.now due = true) ∧
          (∀ p, .tripTimerExpiry p ∈ t.pending ↔
            ∃ x due, session s p = some x ∧ x.tripDue = some due ∧ reached t.now due = true) ∧
          (.ringFaultTimerExpiry ∈ t.pending ↔ timerDue t.now s.ring.faultDue = true) ∧
          (.callGapExpiry ∈ t.pending ↔ timerDue t.now s.ring.exchange.gapDue = true) ∧
          ((∃ r, .cleanTimerExpiry r ∈ t.pending) ↔ timerDue t.now s.engine.cleanDue = true) ∧
          ((∃ r, .wallTimerExpiry r ∈ t.pending) ↔ timerDue t.now s.engine.wallDue = true) ∧
          (.dwellExpiry ∈ t.pending ↔
            ∃ dwell due cause since, s.faults.isolation = .isolating dwell (some due) cause since ∧
              reached t.now due = true) ∧
          (.batteryWatchExpiry ∈ t.pending ↔
            ∃ since, s.faults.watch.started = some since ∧ reached t.now (since + ms 5000) = true) ∧
          (.quietExpiry ∈ t.pending ↔ timerDue t.uptime s.faults.quiet = true)))

/-- The machine right after reset: what the rules' power-on clauses leave, block by block, before the settings
load. The levels on the input pins, the straps, the memory's content and the line-break's earlier position
stand outside the part and are the model's choice (log entries 2 to 4); nothing here states one. -/
def Obligations.ResetLeavesEveryBlockFresh : Prop :=
  let s := State.reset
  s.pending = [] ∧ s.phase = .loading ∧ s.clock.timebase = 0 ∧ s.clock.uptime = 0 ∧
    s.gateway.ready = false ∧ s.gateway.held = none ∧ s.gateway.partialFrame = [] ∧
    s.modem.ready = false ∧ s.modem.responses = [] ∧ s.modem.partialFrame = [] ∧
    (∀ c, s.channels.get c = ⟨defaultSubs c, [], false⟩) ∧
    (∀ f, ((s.lines.table.get f).hold) = none) ∧ s.lines.claims = [] ∧
    s.relays.pass = ⟨.closed, .closed⟩ ∧ s.relays.feed = ⟨.off, .off⟩ ∧ s.relays.dsl = .coupled ∧
    s.relays.bus = .disconnected ∧ s.settles = [] ∧ s.dsl = none ∧
    (∀ i, slotRec s i = none) ∧ s.sched.nextId = 0 ∧ s.sched.windows = [] ∧
    s.tracker.state = .search ∧ s.tracker.anchor = 0 ∧ s.tracker.intervals = 0 ∧ s.tracker.period = 0 ∧
    s.tracker.jitter = 0 ∧ s.tracker.misses = 0 ∧ s.tracker.checked = 0 ∧ s.tracker.strayRun = 0 ∧
    s.tracker.obscured = 0 ∧ s.tracker.acquireDue = none ∧ s.tracker.checkDue = none ∧
    s.tracker.deadTimer = none ∧ s.tracker.edges = [] ∧ s.tracker.forecast = [] ∧
    s.tracker.counts = ⟨0, 0, 0, 0, 0, 0, 0, 0⟩ ∧
    (∀ p, (s.port p).mode = .lifeline ∧ (s.port p).switch = none ∧ (s.port p).denial = none ∧
      (s.port p).overload = none ∧ (s.port p).underTest = false ∧ (s.port p).suspended = false ∧
      (s.port p).sup.state = .onHook ∧ (s.port p).sup.frozen = none ∧ (s.port p).sup.masked = false ∧
      (s.port p).sup.seizeTimer = .stopped ∧ (s.port p).sup.breakTimer = .stopped ∧
      (s.port p).sup.gapTimer = .stopped ∧ (s.port p).sup.pulses = 0 ∧ (s.port p).dial = [] ∧
      (s.port p).overflow = false) ∧
    (∀ p, session s p = none) ∧ s.ring.generator = ⟨false, false⟩ ∧ s.ring.faultDue = none ∧
    s.ring.exchange.ringing = false ∧ s.ring.exchange.burstOn = false ∧ s.ring.exchange.bursts = 0 ∧
    s.ring.exchange.count = 0 ∧ s.ring.exchange.gapDue = none ∧
    s.engine.test = none ∧ s.engine.wallDue = none ∧ s.engine.cleanDue = none ∧ s.engine.result = none ∧
    s.faults.log = [] ∧ s.faults.nextSeq = 1 ∧ s.faults.discarded = false ∧ s.faults.capture = none ∧
    s.faults.quiet = none ∧ s.faults.watch = ⟨none, false⟩ ∧
    (∀ c, s.faults.channels.get c = ⟨defaultMasks c, 0, []⟩) ∧
    s.store.saving = none ∧ s.store.lastSave = .none

/-! ## Frames (chapter 1) -/

/-- Every well-formed request's frame is 4 to 64 bytes, passes the form check, and is read back as the request,
with every operand at every value (R7, R8). -/
def Obligations.FrameRoundTrip : Prop :=
  ∀ (i : Instr) (r : Req) (code : Byte) (ops : List Byte),
    i.wellFormed = true → requestParts i = some (r, code, ops) →
      ∃ bytes, encodeFrame i = some bytes ∧ 4 ≤ bytes.length ∧ bytes.length ≤ 64 ∧
        formOk r.channel.physPort bytes = true ∧ decodeFrame r.channel.physPort bytes = some i

/-- The bytes of a request's frame do what the request does: a gateway transfer of them where the channel is
GATEWAY, a modem frame of them otherwise (R1, R2, R3, R8). -/
def Obligations.FramesServeTheirRequest : Prop :=
  ∀ (i : Instr) (r : Req) (code : Byte) (ops bytes : List Byte) (s : State),
    i.wellFormed = true → requestParts i = some (r, code, ops) → encodeFrame i = some bytes →
      (r.channel = .gateway → s.gateway.partialFrame = [] →
        ∃ t, exec (.gatewayTransfer bytes) s = .next t ∧ exec i s = .next t) ∧
      (r.channel ≠ .gateway → s.modem.partialFrame = [] →
        ∃ t, exec (.modemFrame bytes) s = .next t ∧ exec i s = .next t)

/-- The gateway port's transfers, of the bytes since a partial frame (R1, R2, R5, R6, R8): a port that is not ready or
is held in port-reset shifts out zeros and takes nothing; otherwise the held response is shifted out, then zeros, and
leaves when it has been clocked out whole. A transfer whose first byte is 0x00 does no more; one against a response
not clocked out whole takes no request; a frame of a wrong length gets BAD_FRAME; a well-formed one that no request
has gets BAD_REQUEST. Then the modem port: an incomplete frame gets BAD_FRAME, one of a bad length nothing, and a
response leaves behind its sync byte (R3, R4). What the modem port makes of a byte-gap timeout and of a stop-bit error
is stated of every collected part; for the empty one, a frame cut short before its first byte, which no well-formed
command carries, BAD_FRAME with code and tag 0 is the model's choice (DESIGN CHOICE, log entry 34). -/
def Obligations.PortsAnswerMalformedFrames : Prop :=
  (∀ (bytes : List Byte) (s : State), s.gateway.partialFrame = [] →
    let zeros := List.replicate bytes.length (0 : Byte)
    let shifted : State := { s with gateway := shiftedOut bytes.length s.gateway }
    let answer (o : Byte) : State := { shifted with gateway := { shifted.gateway with
      held := some [4, bytes.getD 1 0, o, bytes.getD 3 0] } }
    (s.gateway.ready = false ∨ s.gateway.resetInput = true →
      exec (.gatewayTransfer bytes) s = .next { s with gateway := { s.gateway with out := zeros } }) ∧
    (s.gateway.ready = true → s.gateway.resetInput = false →
      (∀ h, s.gateway.held = some h → bytes.length < h.length →
        exec (.gatewayTransfer bytes) s =
          .next { s with gateway := { s.gateway with out := h.take bytes.length } }) ∧
      ((∀ h, s.gateway.held = some h → h.length ≤ bytes.length) →
        (bytes.headD 0 = 0 → exec (.gatewayTransfer bytes) s = .next shifted) ∧
        (bytes.headD 0 ≠ 0 →
          (bytes.length < 4 ∨ 64 < bytes.length ∨ (bytes.headD 0).toNat ≠ bytes.length →
            exec (.gatewayTransfer bytes) s = .next (answer 2)) ∧
          (4 ≤ bytes.length → bytes.length ≤ 64 → (bytes.headD 0).toNat = bytes.length →
            decodeFrame .gateway bytes = none → exec (.gatewayTransfer bytes) s = .next (answer 3)))))) ∧
  (∀ (bytes : List Byte) (s : State),
    let frame := s.modem.partialFrame ++ bytes
    let after : State :=
      if s.modem.ready = true ∧ s.modem.resetInput = false ∧ s.modem.responses.length < 4 then
        { s with modem := { s.modem with
          partialFrame := [], responses := s.modem.responses ++ [[4, frame.getD 1 0, 2, frame.getD 3 0]] } }
      else { s with modem := { s.modem with partialFrame := [] } }
    exec (.modemByteGapTimeout bytes) s = .next after ∧ exec (.modemStopBitError bytes) s = .next after) ∧
  (∀ (bytes : List Byte) (s : State), s.modem.partialFrame = [] → s.modem.ready = true →
    s.modem.resetInput = false → s.modem.responses.length < 4 → 4 ≤ bytes.length → bytes.length ≤ 64 →
    (bytes.headD 0).toNat = bytes.length →
      let answer (o : Byte) : State := { s with modem := { s.modem with
        responses := s.modem.responses ++ [[4, bytes.getD 1 0, o, bytes.getD 3 0]] } }
      (2 ≤ (bytes.getD 2 0).toNat / 16 % 4 → exec (.modemFrame bytes) s = .next (answer 2)) ∧
      ((bytes.getD 2 0).toNat / 16 % 4 ≤ 1 → decodeFrame .modem bytes = none →
        exec (.modemFrame bytes) s = .next (answer 3))) ∧
  (∀ (length : Byte) (s : State),
    exec (.modemBadLength length) s = .next { s with modem := { s.modem with partialFrame := [] } }) ∧
  (∀ (f : List Byte) (rest : List (List Byte)) (s : State), s.modem.responses = f :: rest →
    exec .modemResponseSent s =
      .next { s with modem := { s.modem with responses := rest, line := 0x7E :: f } })

/-- Every request that is taken gets exactly one response, and one answered with a refusal carries no results
and has changed no state but its port's (R10). One that is not taken gets no response and has no effect; a
gateway transfer still shifts out (R1, R2, R4). -/
def Obligations.EachRequestIsAnsweredOnce : Prop :=
  ∀ (i : Instr) (s : State), isRequest i = true →
    (frameTaken i s →
      ∃ o results t, exec i s = .next (answered i o results t) ∧
        t.gateway = (frameIn i s).gateway ∧ t.modem = (frameIn i s).modem ∧
        (o.accepts = false → results = [] ∧ t = frameIn i s)) ∧
    (¬frameTaken i s →
      ∃ out, exec i s = .next { s with gateway := { s.gateway with out := out } } ∧
        (out = s.gateway.out ∨ (frameShape i).map (·.1) = some .gateway))

/-- Every response fits its frame: 4 to 64 bytes, and its first byte is its length (R7). -/
def Obligations.ResponsesFitTheirFrame : Prop :=
  ∀ (i : Instr) (s : State), isRequest i = true → i.wellFormed = true → listsBounded s → frameTaken i s →
    ∃ o results t, exec i s = .next (answered i o results t) ∧
      (responseTo i o results).length ≤ 64 ∧ 4 ≤ (responseTo i o results).length ∧
      ((responseTo i o results).headD 0).toNat = (responseTo i o results).length

/-- The requests that read answer OK with the result bytes that their rules give, as many as the rules say, and change
nothing but their port: IDENTIFY (R11), READ TIME (R12), QUERY FUNCTION (R36), READ FUNCTIONS (R37), READ DISTURBANCES
(R64), READ TRACKER (R88), READ FORECAST (R89), READ PORT (R104), READ DIAL (R119), READ RING (R134), READ TEST RESULT
(R150), READ GATES (R153), READ ISOLATION (R166), READ LOG (R170), READ CAPTURE (R173) and READ POWER (R181);
`readFields` lays out the fields of each. Other operands are refused, with BAD_FUNCTION, BAD_REQUEST or NOT_FITTED
(`readRefusal`). Where a rule lays a byte out as named bits, that the others are 0 is the model's choice (DESIGN
CHOICE, log entry 16): so in IDENTIFY, READ DISTURBANCES, READ FORECAST, READ DIAL, READ RING, READ TEST RESULT, READ
ISOLATION, READ LOG, READ CAPTURE and READ POWER, and so are the zeros of READ TEST RESULT in the outcome, clean time
and ended-at bytes with no record held and in the forced byte at IDLE (DESIGN CHOICE, log entry 38). -/
def Obligations.ReadsAnswerTheirFields : Prop :=
  ∀ (i : Instr) (s : State), frameTaken i s →
    (readable i s → exec i s = .next (answered i .ok (readFields i s) (frameIn i s)) ∧
      (readFields i s).length = readLength i s) ∧
    ∀ o, readRefusal i s = some o → exec i s = .next (answered i o [] (frameIn i s))

/-! ## Notices and channels (chapter 1) -/

/-- FETCH NOTICES removes the first notices of the requesting channel's queue, at most 4 and at most the limit,
returns them with the lost flag as it stood, and clears the flag (R19). -/
def Obligations.FetchTakesTheHead : Prop :=
  ∀ (r : Req) (limit : Byte) (s : State), frameTaken (.fetchNotices r limit) s →
    let i := Instr.fetchNotices r limit
    let c := s.channels.get r.channel
    let used := min limit.toNat 4
    let u := frameIn i s
    exec i s = .next (answered i .ok
      ([BitVec.ofNat 8 used, BitVec.ofNat 8 (c.queue.take used).length, if c.lost then 1 else 0,
        BitVec.ofNat 8 (c.queue.drop used).length] ++ (c.queue.take used).flatMap noticeBytes)
      { u with channels := u.channels.set r.channel { c with queue := c.queue.drop used, lost := false } })

/-- SUBSCRIBE puts the kinds named that exist and are not FAULT in force for its channel, and leaves the queue
and everything else as they stand (R20). -/
def Obligations.SubscribeReplacesTheSet : Prop :=
  ∀ (r : Req) (kinds : BitVec 32) (s : State), frameTaken (.subscribe r kinds) s →
    let i := Instr.subscribe r kinds
    let u := frameIn i s
    ∃ used : BitVec 32,
      (∀ k, used.getLsbD k = (kinds.getLsbD k && decide (k = 1 ∨ 3 ≤ k ∧ k ≤ 19))) ∧
        exec i s = .next (answered i .ok (wordBytes used)
          { u with channels := u.channels.set r.channel { u.channels.get r.channel with subs := used } })

/-- A notice that is no completion is queued, one copy each, to the subscribed channels; a completion to the
channel concerned and to the other subscribed channels; a FAULT notice to the set given. Queues of the other
channels stay, as does everything but the queues (R14). A superseding notice takes the place of the held
one of its kind; the queue's length and the lost flag stand and the new notice is in it (R16). Any other notice
joins a queue of fewer than 16 behind those it does not outrank and ahead of those it does (R15); at a full queue
the flag is set, and the last notice leaves for one that outranks it, in the same order, or the new one is
discarded (R17). -/
def Obligations.NoticesReachTheirChannels : Prop :=
  (∀ (n : Notice) (receives : Channel → Bool) (s : State),
    (∀ c, ((post n receives s).channels.get c) =
      if receives c then enqueue n (s.channels.get c) else s.channels.get c) ∧
    post n receives s = { s with channels := (post n receives s).channels }) ∧
  (∀ (n : Notice) (s : State), postSubscribed n s = post n (fun c => (s.channels.get c).subs.getLsbD n.kind.code) s) ∧
  (∀ (n : Notice) (c : Channel) (s : State), postCompletion n c s =
    post n (fun d => decide (d = c) || (s.channels.get d).subs.getLsbD n.kind.code) s) ∧
  (∀ (n held : Notice) (c : ChannelRec) (a b : List Notice),
    (n.kind = .forecast ∨ n.kind = .trackState) → c.queue = a ++ held :: b → held.kind = n.kind →
      (∀ x ∈ a, x.kind ≠ n.kind) →
      ((enqueue n c).queue).Perm (n :: (a ++ b)) ∧ (enqueue n c).queue.length = c.queue.length ∧
        (enqueue n c).lost = c.lost ∧ (enqueue n c).subs = c.subs ∧
        (inQueueOrder c.queue → inQueueOrder (enqueue n c).queue)) ∧
  (∀ (n : Notice) (c : ChannelRec), ¬(n.kind.supersedes = true ∧ ∃ x ∈ c.queue, x.kind = n.kind) →
    let joins (q : List Notice) : Prop := ((enqueue n c).queue).Perm (n :: q) ∧
      (inQueueOrder c.queue → inQueueOrder (enqueue n c).queue ∧
        ∃ ahead behind, q = ahead ++ behind ∧ (enqueue n c).queue = ahead ++ n :: behind ∧
          (∀ x ∈ ahead, outranks n x = false) ∧ ∀ x ∈ behind, outranks n x = true)
    (enqueue n c).subs = c.subs ∧
    (c.queue.length < 16 → joins c.queue ∧ (enqueue n c).lost = c.lost) ∧
    (∀ front last, c.queue = front ++ [last] → c.queue.length = 16 → (enqueue n c).lost = true ∧
      (outranks n last = true → joins front) ∧
      (outranks n last = false → (enqueue n c).queue = c.queue)))

/-- A port's attention output is asserted exactly while its ready output is and some channel of the port has a notice
queued (R5, R18): a notice queued to a channel asserts it on a ready port; FETCH NOTICES leaves it asserted while
a notice remains on the port and lets it fall with the last; a channel reset with no claim, session or test in
flight lets it fall with the last queue of the port that it empties, a port-reset with all of them; and a
power-on reset, the reset pin and the loss of supply hold both outputs deasserted. -/
def Obligations.AttentionFollowsTheQueues : Prop :=
  let quiet (s : State) : Prop := s.lines.claims = [] ∧ s.engine.test = none ∧ ∀ p, session s p = none
  (∀ (port : PhysPort) (s : State), attention s port = true ↔
    (match port with | .gateway => s.gateway.ready | .modem => s.modem.ready) = true ∧
      ∃ c : Channel, c.physPort = port ∧ (s.channels.get c).queue ≠ []) ∧
  (∀ (n : Notice) (receives : Channel → Bool) (c : Channel) (s : State), receives c = true →
    attention (post n receives s) c.physPort =
      (match c.physPort with | .gateway => s.gateway.ready | .modem => s.modem.ready)) ∧
  (∀ (r : Req) (limit : Byte) (s : State), frameTaken (.fetchNotices r limit) s →
    let port := r.channel.physPort
    let left := (s.channels.get r.channel).queue.drop (min limit.toNat 4)
    ∃ t, exec (.fetchNotices r limit) s = .next t ∧
      (attention t port = true ↔ left ≠ [] ∨
        ∃ c : Channel, c ≠ r.channel ∧ c.physPort = port ∧ (s.channels.get c).queue ≠ []) ∧
      ∀ other, other ≠ port → attention t other = attention s other) ∧
  (∀ (r : Req) (s : State), frameTaken (.channelReset r) s → quiet s →
    ∃ t, exec (.channelReset r) s = .next t ∧
      (attention t r.channel.physPort = true ↔
        ∃ c : Channel, c ≠ r.channel ∧ c.physPort = r.channel.physPort ∧ (s.channels.get c).queue ≠ [])) ∧
  (∀ (port : PhysPort) (s : State), s.phase = .loading ∨ s.phase = .running → quiet s →
    ∃ t, exec (.portResetAssert port) s = .next t ∧ attention t port = false) ∧
  (∀ (x : Straps) (port : PhysPort) (s : State),
    (∃ t, exec .supplyLoss s = .next t ∧ attention t port = false) ∧
    (∃ t, exec (.powerOnReset x) s = .next t ∧ attention t port = false) ∧
    (s.phase ≠ .unpowered → ∃ t, exec .resetPinAssert s = .next t ∧ attention t port = false))

/-- A channel reset leaves its channels their default subscriptions, masks and thresholds, no claim and no hold; a
function it releases passes to the first claim for it that remains, and the other claims stay in order (R30, R47). It
empties their queues first; then CLAIM_GRANTED goes to the channel of each claim so granted, HOLD_REVOKED to none, and
RING_END, HOLD_LOST to the issuer of each session that loses its hold (R33, R34); with no ring session and no test in
flight the grants are all that is handed. A test whose hold is lost or whose requester is covered is aborted,
HOLD_LOST or REQUESTER_RESET, with TEST_ABORTED, and with TEST_DONE where it ends at once (R33, R146, R147); that both together give HOLD_LOST is the model's choice (DESIGN CHOICE, log entry 17), and so is the 0 in bit 3 of TEST_DONE's flags (DESIGN CHOICE, log entry 16). CHANNEL
RESET covers its own channel and answers what the queue held; a port-reset assertion covers every channel of its port,
discards the port's bytes and responses and holds the port (R6, R21, R22, R47). The deassertion lets the port resume.
-/
def Obligations.ChannelResetsReleaseEverything : Prop :=
  (∀ (r : Req) (s : State), frameTaken (.channelReset r) s →
    ∃ t, exec (.channelReset r) s = .next t ∧
      respondedWith (.channelReset r) .ok
        [BitVec.ofNat 8 (s.channels.get r.channel).queue.length,
          if (s.channels.get r.channel).lost then 1 else 0] s t ∧
      wasReset [r.channel] s t) ∧
  (∀ (port : PhysPort) (s : State), s.phase = .loading ∨ s.phase = .running →
    ∃ t, exec (.portResetAssert port) s = .next t ∧
      t.gateway = (if port = .gateway then
        { s.gateway with partialFrame := [], held := none, resetInput := true } else s.gateway) ∧
      t.modem = (if port = .modem then
        { s.modem with partialFrame := [], responses := [], resetInput := true } else s.modem) ∧
      wasReset (channelsOf port) s t) ∧
  (∀ s : State,
    exec (.portResetRelease .gateway) s =
      .next { s with gateway := { s.gateway with resetInput := false } } ∧
    exec (.portResetRelease .modem) s =
      .next { s with modem := { s.modem with partialFrame := [], resetInput := false } })

/-! ## Line functions and holds (chapter 2) -/

/-- CLAIM's checks in order, with the effect of each acceptance but a seizure: a free function is granted at once, one
the channel holds loses its via gate, a waiting claim joins the queue with its deadline behind every entry of its
level or a lower one and ahead of the others (R25, R26, R28, R29). `p` is the function's number, level the request's
effective level. -/
def Obligations.ClaimIsDecidedInOrder : Prop :=
  ∀ (r : Req) (b : Byte) (wait : Half) (seize : Byte) (s : State), frameTaken (.claim r b wait seize) s →
    let i := Instr.claim r b wait seize
    let u := frameIn i s
    let level := effLevel r
    let used := min wait.toNat 10000
    let refused (o : Code) := exec i s = .next (answered i o [] u)
    let results (x : Byte) (position : Nat) : List Byte :=
      [b, x] ++ halfBytes (BitVec.ofNat 16 used) ++ [BitVec.ofNat 8 position]
    (4 < b.toNat → refused .badFunction) ∧
    ∀ f : Func, b.toNat = funcNum f →
      let e := s.lines.table.get f
      let entry : ClaimEntry := ⟨r.channel, f, level, s.now + us (used * 1000)⟩
      (f = .port2 ∧ s.twoPorts = false → refused .notFitted) ∧
      ((f = .port2 → s.twoPorts = true) →
        (e.level < level → refused .privilege) ∧
        (level ≤ e.level →
          (e.hold = none →
            exec i s = .next (answered i .ok (results 1 0) { u with lines := { u.lines with
              table := u.lines.table.set f ⟨e.level, some ⟨r.channel, level, s.uptime, none⟩⟩ } })) ∧
          (∀ h, e.hold = some h → h.holder = r.channel →
            exec i s = .next (answered i .ok (results 0 0) { u with lines := { u.lines with
              table := u.lines.table.set f ⟨e.level, some { h with viaGate := none }⟩ } })) ∧
          (∀ h, e.hold = some h → h.holder ≠ r.channel → ¬(seize ≠ 0 ∧ level < h.level) →
            (used = 0 → refused .busy) ∧
            (used ≠ 0 →
              ((∃ x ∈ s.lines.claims, x.channel = r.channel ∧ x.function = f) → refused .alreadyWaiting) ∧
              ((∀ x ∈ s.lines.claims, ¬(x.channel = r.channel ∧ x.function = f)) →
                (8 ≤ s.lines.claims.length → refused .queueFull) ∧
                (s.lines.claims.length < 8 →
                  ∃ ahead behind, s.lines.claims = ahead ++ behind ∧ (∀ x ∈ ahead, x.level ≤ level) ∧
                    (claimsOrdered s → ∀ x ∈ behind, level < x.level) ∧
                    exec i s = .next (answered i .queued (results 3 (ahead.length + 1))
                      { u with lines := { u.lines with claims := ahead ++ entry :: behind } })))))))

/-- A seize from a holder at a numerically higher recorded level: the seizing channel holds the function with a new
record, its own waiting entry for it is gone, every other entry, hold and level stands (R25, R27). The channel that
lost the hold is handed HOLD_REVOKED, SEIZED, with the seizing channel, and no channel CLAIM_GRANTED (R34); its ring
session on the port ends with RING_END, HOLD_LOST (R33, R129), and a test under the hold is aborted with HOLD_LOST
(R33, R146, R147); that bit 3 of TEST_DONE's flags is 0 is the model's choice (DESIGN CHOICE, log entry 16). -/
def Obligations.SeizePassesTheFunction : Prop :=
  ∀ (r : Req) (b : Byte) (wait : Half) (seize : Byte) (f : Func) (h : Hold) (s : State),
    frameTaken (.claim r b wait seize) s → b.toNat = funcNum f → (f = .port2 → s.twoPorts = true) →
    effLevel r ≤ (s.lines.table.get f).level → (s.lines.table.get f).hold = some h → h.holder ≠ r.channel →
    seize ≠ 0 → effLevel r < h.level →
      ∃ t, exec (.claim r b wait seize) s = .next t ∧
        respondedWith (.claim r b wait seize) .ok
          ([b, 2] ++ halfBytes (BitVec.ofNat 16 (min wait.toNat 10000)) ++ [0]) s t ∧
        t.lines.table = s.lines.table.set f
          ⟨(s.lines.table.get f).level, some ⟨r.channel, effLevel r, s.uptime, none⟩⟩ ∧
        t.lines.claims = s.lines.claims.filter (fun e => !isClaim r.channel f e) ∧
        (∀ p, portFunc p = f → ∀ x, session s p = some x → x.issuer = h.holder → session t p = none) ∧
        hands (ofKind .holdRevoked) [holdRevokedOf s.now f h 1 (chanCode r.channel)] s t ∧
        hands (ofKind .claimGranted) [] s t ∧ hands (ofKind .ringEnd) (sessionLost f h.holder s) s t ∧
        testLosesHold f s t ∧
        t = { s with
          gateway := t.gateway, modem := t.modem, channels := t.channels, lines := t.lines, relays := t.relays
          settles := t.settles, sched := t.sched, tracker := t.tracker, ports := t.ports, ring := t.ring
          engine := t.engine, faults := t.faults }

/-- RELEASE by the holder removes the record and grants the function to the first waiting entry for it, with
CLAIM_GRANTED to its channel, or leaves it free; HOLD_REVOKED goes to no channel, and the holder's ring session on the
port ends with RING_END, HOLD_LOST, and a test under the hold is aborted with HOLD_LOST; other channels are refused (R30, R32, R33, R34, R129, R146); that bit 3 of TEST_DONE's flags is 0 is the model's choice (DESIGN CHOICE, log entry 16). A claim's deadline takes its entry out with CLAIM_EXPIRED, reason TIMEOUT, to its
channel (R31, R34). That an expiry before the deadline changes nothing is the model's reading (DEDUCED, log entry 8).
-/
def Obligations.ReleasesAndDeadlinesMoveTheQueue : Prop :=
  (∀ (r : Req) (b : Byte) (s : State), frameTaken (.release r b) s →
    let i := Instr.release r b
    (4 < b.toNat → exec i s = .next (answered i .badFunction [] (frameIn i s))) ∧
    ∀ f : Func, b.toNat = funcNum f →
      (f = .port2 ∧ s.twoPorts = false → exec i s = .next (answered i .notFitted [] (frameIn i s))) ∧
      ((f = .port2 → s.twoPorts = true) →
        (holderOf s f ≠ some r.channel → exec i s = .next (answered i .notHolder [] (frameIn i s))) ∧
        (holderOf s f = some r.channel →
          ∃ t, exec i s = .next t ∧
            (match s.lines.claims.find? (fun e => decide (e.function = f)) with
              | some e =>
                respondedWith i .ok [b, 1, BitVec.ofNat 8 (chanCode e.channel)] s t ∧
                t.lines.table = s.lines.table.set f
                  ⟨(s.lines.table.get f).level, some ⟨e.channel, e.level, s.uptime, none⟩⟩ ∧
                t.lines.claims = s.lines.claims.filter (fun x => !isClaim e.channel f x)
              | none =>
                respondedWith i .ok [b, 0, 0xFF] s t ∧
                t.lines.table = s.lines.table.set f ⟨(s.lines.table.get f).level, none⟩ ∧
                t.lines.claims = s.lines.claims) ∧
            (∀ p, portFunc p = f → ∀ x, session s p = some x → x.issuer = r.channel → session t p = none) ∧
            hands (ofKind .claimGranted)
              ((s.lines.claims.find? (fun e => decide (e.function = f))).toList.map (claimGrantedOf s.now)) s t ∧
            hands (ofKind .holdRevoked) [] s t ∧ hands (ofKind .ringEnd) (sessionLost f r.channel s) s t ∧
            testLosesHold f s t ∧
            t = { s with
              gateway := t.gateway, modem := t.modem, channels := t.channels, lines := t.lines
              relays := t.relays, settles := t.settles, sched := t.sched, tracker := t.tracker
              ports := t.ports, ring := t.ring, engine := t.engine, faults := t.faults }))) ∧
  (∀ (c : Channel) (f : Func) (e : ClaimEntry) (s : State), s.lines.claims.find? (isClaim c f) = some e →
    (reached s.now e.deadline = true →
      exec (.claimDeadlineExpiry c f) s = .next (postCompletion
        ⟨.claimExpired, 6, BitVec.ofNat 8 (funcNum f), 1, s.now, BitVec.setWidth 32 (BitVec.ofNat 8 e.level)⟩ c
        { s with lines := { s.lines with claims := s.lines.claims.filter (fun x => !isClaim c f x) } })) ∧
    (reached s.now e.deadline = false → exec (.claimDeadlineExpiry c f) s = .next s))

/-- TIGHTEN: its checks; a level not below the descriptor level changes nothing; a lower one is put in force, takes
out every entry for the function above it, and with revoke takes the function from a holder above it and passes it to
the first entry left. Every other hold stands (R30, R33, R35). CLAIM_EXPIRED, PRIVILEGE, goes to the channel of each
entry taken out, HOLD_REVOKED, TIGHTENED, to the channel that lost the hold, and CLAIM_GRANTED to the channel the
function passes to (R34); the lost holder's ring session ends with RING_END, HOLD_LOST (R129), and a test under the
hold is aborted with HOLD_LOST (R33, R146); that bit 3 of TEST_DONE's flags is 0 is the model's choice (DESIGN CHOICE,
log entry 16). -/
def Obligations.TightenLowersTheDescriptorLevel : Prop :=
  ∀ (r : Req) (b new revoke : Byte) (s : State), frameTaken (.tighten r b new revoke) s →
    let i := Instr.tighten r b new revoke
    let refused (o : Code) := exec i s = .next (answered i o [] (frameIn i s))
    (0 < effLevel r → refused .privilege) ∧
    (effLevel r = 0 →
      (4 < b.toNat → refused .badFunction) ∧
      ∀ f : Func, b.toNat = funcNum f →
        let e := s.lines.table.get f
        (3 < new.toNat → refused .badRequest) ∧
        (new.toNat ≤ 3 →
          (f = .port2 ∧ s.twoPorts = false → refused .notFitted) ∧
          ((f = .port2 → s.twoPorts = true) →
            (e.level ≤ new.toNat →
              exec i s = .next (answered i .ok [b, BitVec.ofNat 8 e.level, 0, 0, 0xFF] (frameIn i s))) ∧
            (new.toNat < e.level → claimsSound s →
              let gone := s.lines.claims.filter (fun x => decide (x.function = f) && decide (new.toNat < x.level))
              let left := s.lines.claims.filter (fun x => !(decide (x.function = f) && decide (new.toNat < x.level)))
              let removed := BitVec.ofNat 8 gone.length
              ∃ t, exec i s = .next t ∧
                hands (ofKind .claimExpired) (gone.map (claimExpiredOf s.now new.toNat)) s t ∧
                ((∀ h, e.hold = some h → revoke = 0 ∨ h.level ≤ new.toNat) →
                  respondedWith i .ok [b, new, removed, 0, 0xFF] s t ∧
                  t.lines.table = s.lines.table.set f ⟨new.toNat, e.hold⟩ ∧ t.lines.claims = left ∧
                  t.channels = (handAll (gone.map (claimExpiredOf s.now new.toNat)) s).channels ∧
                  t.engine = s.engine) ∧
                (∀ h, e.hold = some h → revoke ≠ 0 → new.toNat < h.level →
                  hands (ofKind .holdRevoked) [holdRevokedOf s.now f h 2 new.toNat] s t ∧
                  hands (ofKind .claimGranted) ((left.find? (fun x => decide (x.function = f))).toList.map
                    (claimGrantedOf s.now)) s t ∧
                  hands (ofKind .ringEnd) (sessionLost f h.holder s) s t ∧ testLosesHold f s t ∧
                  match left.find? (fun x => decide (x.function = f)) with
                  | some x =>
                    respondedWith i .ok [b, new, removed, 1, BitVec.ofNat 8 (chanCode x.channel)] s t ∧
                    t.lines.table = s.lines.table.set f
                      ⟨new.toNat, some ⟨x.channel, x.level, s.uptime, none⟩⟩ ∧
                    t.lines.claims = left.filter (fun y => !isClaim x.channel f y)
                  | none =>
                    respondedWith i .ok [b, new, removed, 1, 0xFF] s t ∧
                    t.lines.table = s.lines.table.set f ⟨new.toNat, none⟩ ∧ t.lines.claims = left) ∧
                t = { s with
                  gateway := t.gateway, modem := t.modem, channels := t.channels, lines := t.lines
                  relays := t.relays, settles := t.settles, sched := t.sched, tracker := t.tracker
                  ports := t.ports, ring := t.ring, engine := t.engine, faults := t.faults }))))

/-- The DSL switch from SET DSL to MODE_DONE: the checks in order; an acceptance opens the DSL slot for the asked
coupling; at the settle's end the switch is over, its slot empty and MODE_DONE queued to its requester, DONE where the
coupling stands as asked and TEST_ACTIVE where it does not (R39, R40, R42). R40 lists the slot's end and MODE_DONE
without an order: that DISTURB_DONE is queued before MODE_DONE is the model's (DEDUCED, log entry 21), and the
notice's detail bytes 9 to 11 are free values (log entry 15). That a coupling moved and put back during the settle
gives DONE is the model's choice (DESIGN CHOICE, log entry 47). That a completion which is not due changes nothing is
the model's reading (DEDUCED, log entry 8); one of the line-break's changes no more than its settle (R45). -/
def Obligations.DslSwitchRuns : Prop :=
  (∀ (r : Req) (b : Byte) (s : State), frameTaken (.setDsl r b) s →
    let i := Instr.setDsl r b
    let refused (o : Code) := exec i s = .next (answered i o [] (frameIn i s))
    (1 < b.toNat → refused .badRequest) ∧
    ∀ target : Coupling, b.toNat = couplingCode target →
      (holderOf s .dsl ≠ some r.channel → refused .notHolder) ∧
      (holderOf s .dsl = some r.channel →
        (s.relays.bus = .exchange → refused .testActive) ∧
        (s.relays.bus ≠ .exchange →
          (s.dsl.isSome = true → refused .busy) ∧
          (s.dsl = none →
            (target = .decoupled ∧ s.power.state = .reserve → refused .lowPower) ∧
            (¬(target = .decoupled ∧ s.power.state = .reserve) →
              (s.relays.dsl = target → exec i s = .next (answered i .ok [b] (frameIn i s))) ∧
              (s.relays.dsl ≠ target → s.sched.slots.dsl = none →
                ∃ t id, exec i s = .next t ∧ respondedWith i .accepted [id, b] s t ∧
                  t.dsl = some ⟨r.channel, target, id⟩ ∧
                  t.sched.slots.dsl = some ⟨id, .dslSwitch, none,
                    if s.sched.lead = 0 then .active s.now else .notified (s.now + ms s.sched.lead), some 20,
                    true⟩ ∧
                  (s.sched.lead = 0 → t.relays = { s.relays with dsl := target }) ∧
                  (s.sched.lead ≠ 0 → t = { s with
                    gateway := t.gateway, modem := t.modem, channels := t.channels, sched := t.sched
                    dsl := t.dsl }))))))) ∧
  (∀ (d : DslSwitch) (rest : List Settle) (s : State), takeSettle s.now .dslSwitch s.settles = some rest →
    s.dsl = some d →
      ∃ t, exec (.changeSetComplete .dslSwitch) s = .next t ∧ t.settles = rest ∧ t.dsl = none ∧
        t.sched.slots.dsl = none ∧ t.relays = s.relays ∧
        t.channels = (postCompletion
          ⟨.modeDone, 5, 0, if s.relays.dsl = d.target then 0 else 1, s.now,
            Config.spareBytes 11 s.now ++ BitVec.ofNat 8 (couplingCode s.relays.dsl)⟩ d.requester
          { s with channels := (endSlot .dsl s).channels }).channels ∧
        t = { s with
          channels := t.channels, settles := t.settles, dsl := t.dsl, sched := t.sched, engine := t.engine }) ∧
  (∀ (a : Asker) (s : State), takeSettle s.now a s.settles = none → exec (.changeSetComplete a) s = .next s) ∧
  (∀ (rest : List Settle) (s : State), takeSettle s.now .lineBreak s.settles = some rest →
    exec (.changeSetComplete .lineBreak) s = .next { s with settles := rest })

/-- The test bus rule: a change set that moves the bus to EXCHANGE opens both pass-throughs and decouples the DSL path
in the same act; one that would leave the bus at EXCHANGE and close a pass-through or couple the path is refused; one
that moves the bus away may do both (R44). The reserve fallback closes and couples with the bus DISCONNECTED and
abandons every settle (R46). Every change set applied starts a 20 ms settle for its asker, moves the members it names
and, but for that rule, no other, and leaves the line-break (R42); it opens a RELAY window from 5 ms before to 70 ms
after its application, with its slot record's id, and the fallback one with none (R59). -/
def Obligations.ChangeSetsKeepTheBusRule : Prop :=
  (∀ (c : Change) (a : Asker) (id : Byte) (s : State),
    (c.bus = some .exchange →
      ∃ t, applyChange c a id s = some t ∧ t.relays.bus = .exchange ∧ t.relays.pass = ⟨.open_, .open_⟩ ∧
        t.relays.dsl = .decoupled ∧ t.relays.lineBreak = s.relays.lineBreak ∧
        t.relays.feed = ⟨c.feed.p1.getD s.relays.feed.p1, c.feed.p2.getD s.relays.feed.p2⟩ ∧
        t.settles = s.settles ++ [⟨a, s.now + ms 20⟩] ∧ windowOpened (relayWindow s.now (some id)) 3 s t) ∧
    (c.bus = none → s.relays.bus = .exchange →
      (c.pass.p1 = some .closed ∨ c.pass.p2 = some .closed ∨ c.dsl = some .coupled) →
        applyChange c a id s = none) ∧
    (c.bus ≠ some .exchange →
      ¬(c.bus = none ∧ s.relays.bus = .exchange ∧
        (c.pass.p1 = some .closed ∨ c.pass.p2 = some .closed ∨ c.dsl = some .coupled)) →
      ∃ t, applyChange c a id s = some t ∧
        t.relays = ⟨s.relays.lineBreak,
          ⟨c.pass.p1.getD s.relays.pass.p1, c.pass.p2.getD s.relays.pass.p2⟩,
          ⟨c.feed.p1.getD s.relays.feed.p1, c.feed.p2.getD s.relays.feed.p2⟩,
          c.dsl.getD s.relays.dsl, c.bus.getD s.relays.bus⟩ ∧
        t.settles = s.settles ++ [⟨a, s.now + ms 20⟩] ∧ windowOpened (relayWindow s.now (some id)) 3 s t)) ∧
  (∀ s : State, (fallbackRelays s).relays =
    ⟨s.relays.lineBreak, ⟨.closed, .closed⟩, ⟨.off, .off⟩, .coupled, .disconnected⟩ ∧
    (fallbackRelays s).settles = [] ∧ windowOpened (relayWindow s.now none) 3 s (fallbackRelays s))

/-! ## Settings requests (chapters 2 to 9) -/

/-- The requests that put one clamped value in force: SET LEAD, SET CABLE, SET EXCHANGE RING COUNT, SET CLASS LEVEL
and SET LOG POLICY are refused with PRIVILEGE above level 1, and otherwise change that setting alone and
answer the value used (R56, R133, R137, R157, R171). SET CADENCE rounds each time to the nearest multiple of 50 ms,
halfway up, then clamps it (R121); INSTALL GATE and REMOVE GATE replace an entry of the gate table for level 0 alone
(R152, R153). Each of these three changes its table's entry alone. -/
def Obligations.SettingsAndTablesTakeTheirValues : Prop :=
  (∀ (r : Req) (x : Half) (b v : Byte) (s : State),
    (frameTaken (.setLead r x) s →
      let u := frameIn (.setLead r x) s
      exec (.setLead r x) s = .next (if 1 < effLevel r then answered (.setLead r x) .privilege [] u
        else answered (.setLead r x) .ok (halfBytes (BitVec.ofNat 16 (min x.toNat 500)))
          { u with sched := { u.sched with lead := min x.toNat 500 } })) ∧
    (frameTaken (.setCable r x) s →
      let u := frameIn (.setCable r x) s
      exec (.setCable r x) s = .next (if 1 < effLevel r then answered (.setCable r x) .privilege [] u
        else answered (.setCable r x) .ok (halfBytes (BitVec.ofNat 16 (max 300 (min 800 x.toNat))))
          { u with engine := { u.engine with cable := max 300 (min 800 x.toNat) } })) ∧
    (frameTaken (.setExchangeRingCount r b) s →
      let u := frameIn (.setExchangeRingCount r b) s
      exec (.setExchangeRingCount r b) s = .next
        (if 1 < effLevel r then answered (.setExchangeRingCount r b) .privilege [] u
        else answered (.setExchangeRingCount r b) .ok [BitVec.ofNat 8 (min b.toNat 15)]
          { u with ring := { u.ring with
            exchange := { u.ring.exchange with every := min b.toNat 15, count := 0 } } })) ∧
    (frameTaken (.setClassLevel r b v) s →
      let i := Instr.setClassLevel r b v
      let u := frameIn i s
      (1 < effLevel r → exec i s = .next (answered i .privilege [] u)) ∧
      (effLevel r ≤ 1 →
        (b.toNat < 3 ∨ 13 < b.toNat → exec i s = .next (answered i .badRequest [] u)) ∧
        ∀ c : FaultClass, c.num = b.toNat → 3 ≤ c.num →
          ∃ levels, exec i s = .next (answered i .ok
              [b, BitVec.ofNat 8 (min v.toNat 7), BitVec.ofNat 8 (levelOf s.faults.levels c)]
              { u with faults := { u.faults with levels := levels } }) ∧
            ∀ d, levelOf levels d = if d = c then min v.toNat 7 else levelOf s.faults.levels d)) ∧
    (frameTaken (.setLogPolicy r b) s →
      let i := Instr.setLogPolicy r b
      let u := frameIn i s
      (1 < effLevel r → exec i s = .next (answered i .privilege [] u)) ∧
      (effLevel r ≤ 1 →
        (1 < b.toNat → exec i s = .next (answered i .badRequest [] u)) ∧
        (b.toNat ≤ 1 → exec i s = .next (answered i .ok [b]
          { u with faults := { u.faults with policy := if b.toNat = 0 then .keepNewest else .keepFirst } }))))) ∧
  (∀ (r : Req) (e n : Byte) (steps : List StepArg) (s : State), frameTaken (.setCadence r e n steps) s →
    let i := Instr.setCadence r e n steps
    let u := frameIn i s
    let used := steps.map (fun x =>
      (⟨max 100 (min 3000 ((x.on.toNat + 25) / 50 * 50)), max 100 (min 6000 ((x.off.toNat + 25) / 50 * 50))⟩ :
        CadenceStep))
    (1 < effLevel r → exec i s = .next (answered i .privilege [] u)) ∧
    (effLevel r ≤ 1 →
      (3 < e.toNat ∨ 3 < n.toNat ∨ steps.length ≠ n.toNat → exec i s = .next (answered i .badRequest [] u)) ∧
      (e.toNat ≤ 3 → n.toNat ≤ 3 → steps.length = n.toNat →
        exec i s = .next (answered i .ok (e :: n :: used.flatMap (fun c =>
            halfBytes (BitVec.ofNat 16 c.on) ++ halfBytes (BitVec.ofNat 16 c.off)))
          { u with ring := { u.ring with cadences := u.ring.cadences.set e.toNat used } })))) ∧
  (∀ (r : Req) (g v k t : Byte) (limits : List LimitArg) (s : State),
    frameTaken (.installGate r g v k t limits) s →
    let i := Instr.installGate r g v k t limits
    let u := frameIn i s
    let refused (o : Code) := exec i s = .next (answered i o [] u)
    (0 < effLevel r → refused .privilege) ∧
    (effLevel r = 0 →
      (3 < g.toNat ∨ 3 < v.toNat ∨ orderOf k t limits = none → refused .badRequest) ∧
      ∀ kind target l, g.toNat ≤ 3 → v.toNat ≤ 3 → orderOf k t limits = some (kind, target, l) →
        (target = .home .p2 ∧ s.twoPorts = false → refused .notFitted) ∧
        ((target = .home .p2 → s.twoPorts = true) →
          exec i s = .next (answered i .ok [g, if (s.engine.gates.get g.toNat).isSome then 1 else 0]
            { u with engine := { u.engine with
              gates := u.engine.gates.set g.toNat (some ⟨v.toNat, kind, target, l⟩) } })))) ∧
  (∀ (r : Req) (g : Byte) (s : State), frameTaken (.removeGate r g) s →
    let i := Instr.removeGate r g
    let u := frameIn i s
    (0 < effLevel r → exec i s = .next (answered i .privilege [] u)) ∧
    (effLevel r = 0 →
      (3 < g.toNat → exec i s = .next (answered i .badRequest [] u)) ∧
      (g.toNat ≤ 3 →
        exec i s = .next (answered i .ok [g, if (s.engine.gates.get g.toNat).isSome then 1 else 0]
          { u with engine := { u.engine with gates := u.engine.gates.set g.toNat none } }))))

/-! ## Disturbances and blanking (chapter 3) -/

/-- DEFER, whole: from MODEM alone, for a record that stands; it moves the deadline of a NOTIFIED deferrable record
once by the clamped extra, and no other record or part (R52). -/
def Obligations.DeferMovesTheDeadlineOnce : Prop :=
  ∀ (r : Req) (id extra : Byte) (s : State), frameTaken (.defer r id extra) s →
    let i := Instr.defer r id extra
    let u := frameIn i s
    let used := max 1 (min 200 extra.toNat)
    (r.channel ≠ .modem → exec i s = .next (answered i .wrongChannel [] u)) ∧
    (r.channel = .modem →
      ((∀ j d, slotRec s j = some d → d.id ≠ id) → exec i s = .next (answered i .unknownDisturbance [] u)) ∧
      ∀ j d, slotRec s j = some d → d.id = id → (∀ j' d', slotRec s j' = some d' → d'.id = id → j' = j) →
        let results (moved : Byte) (left : Nat) : List Byte :=
          [id, moved, BitVec.ofNat 8 used] ++ halfBytes (BitVec.ofNat 16 left)
        (∀ due, d.state = .notified due → d.deferrable = true →
          exec i s = .next (answered i .ok (results 1 (msLeft s.now (some (due + ms used))))
            { u with sched := { u.sched with
              slots := u.sched.slots.set j (some { d with state := .deferred (due + ms used) }) } })) ∧
        (∀ due, d.state = .notified due → d.deferrable = false →
          exec i s = .next (answered i .ok (results 0 (msLeft s.now (some due))) u)) ∧
        (∀ due, d.state = .deferred due →
          exec i s = .next (answered i .ok (results 0 (msLeft s.now (some due))) u)) ∧
        (∀ t, d.state = .active t → exec i s = .next (answered i .ok (results 0 0) u)))

/-- BRACED and the lead's expiry make a waiting record ACTIVE at the present, once, and start its owner's work: a
burst on MAINS, a mode or DSL switch's change set with its RELAY window, or a test's CONNECT, its relays placed, the
pre-test coupling recorded, its TEST and RELAY windows opened (R59, R96, R125, R141); a BRACED for an ACTIVE record
has no effect, and from another channel or for no record it is refused (R51, R53, R55). A DSL switch whose change the
test bus refuses ends in the same act: its slot is empty and MODE_DONE, TEST_ACTIVE, is handed, whose detail bytes 9
to 11 are free values (R40, log entry 15). That an expiry which is not due changes nothing is the model's reading
(DEDUCED, log entry 8), and so is that on BATTERY a ring session of port 1 takes the place of port 2's burst begun at
this instant, which is cut (DEDUCED, log entry 22, and, for a burst begun on MAINS just before, DESIGN CHOICE, log
entry 49; `ownerStarted`'s third clause). -/
def Obligations.RecordsBecomeActiveOnce : Prop :=
  (∀ (r : Req) (id : Byte) (s : State), frameTaken (.braced r id) s →
    let i := Instr.braced r id
    let u := frameIn i s
    (r.channel ≠ .modem → exec i s = .next (answered i .wrongChannel [] u)) ∧
    (r.channel = .modem →
      ((∀ j d, slotRec s j = some d → d.id ≠ id) → exec i s = .next (answered i .unknownDisturbance [] u)) ∧
      ∀ j d, slotRec s j = some d → d.id = id → (∀ j' d', slotRec s j' = some d' → d'.id = id → j' = j) →
        (isActive d = true → exec i s = .next (answered i .ok [id, 0] u)) ∧
        (isActive d = false →
          ∃ t, exec i s = .next t ∧ respondedWith i .ok [id, 1] s t ∧ ownerStarted j d s t))) ∧
  (∀ (j : SlotId) (d : Disturbance) (due : Time) (s : State), slotRec s j = some d → leadDeadline d = some due →
    (reached s.now due = true →
      ∃ t, exec (.leadExpiry j) s = .next t ∧ t.gateway = s.gateway ∧ t.modem = s.modem ∧
        ownerStarted j d s t) ∧
    (reached s.now due = false → exec (.leadExpiry j) s = .next s)) ∧
  (∀ (j : SlotId) (s : State), (∀ d, slotRec s j = some d → isActive d = true) →
    exec (.leadExpiry j) s = .next s)

/-- A slot is opened with the first id from next id on that no slot holds, a lead deadline and a DISTURB; an
occupied slot refuses (R48, R49, R50). An owner's end or cancel empties the slot with DISTURB_DONE, COMPLETED
for an ACTIVE record and CANCELLED for another, and a cancel of an ACTIVE record is refused (R54). R50 names no bit 3
of DISTURB's flags: that it is 0 is the model's choice (DESIGN CHOICE, log entry 16). -/
def Obligations.RecordsOpenAndEnd : Prop :=
  (∀ (j : SlotId) (work : WorkKind) (p : Option Port) (duration : Option Nat) (deferrable : Bool) (s : State),
    ((slotRec s j).isSome = true → openSlot j work p duration deferrable s = none) ∧
    (slotRec s j = none →
      ∃ t id, openSlot j work p duration deferrable s = some (t, id) ∧
        (∃ n ≤ 3, id = s.sched.nextId + BitVec.ofNat 8 n ∧
          ∀ k < n, ∃ j' d', slotRec s j' = some d' ∧ d'.id = s.sched.nextId + BitVec.ofNat 8 k) ∧
        (∀ j' d', slotRec s j' = some d' → d'.id ≠ id) ∧
        t.sched = { s.sched with
          nextId := id + 1
          slots := s.sched.slots.set j (some ⟨id, work, p,
            if s.sched.lead = 0 then .active s.now else .notified (s.now + ms s.sched.lead), duration,
            deferrable⟩) } ∧
        t = { s with sched := t.sched, channels := (postSubscribed
          ⟨.disturb, 9, id,
            BitVec.ofNat 8 ((match work with
                | .ringSession => 1 | .modeSwitch => 2 | .dslSwitch => 3 | .testConnect => 4) +
              (match p with | none => 0 | some .p1 => 16 | some .p2 => 32) +
              (if duration = none then 64 else 0) + (if deferrable then 128 else 0)),
            s.now,
            BitVec.ofNat 16 (min 65535 (duration.getD 0)) ++ BitVec.ofNat 16 s.sched.lead⟩ s).channels })) ∧
  (∀ (j : SlotId) (d : Disturbance) (s : State), slotRec s j = some d →
    let ended (why : Byte) (length : Nat) : State :=
      { s with
        sched := { s.sched with slots := s.sched.slots.set j none }
        channels := (postSubscribed ⟨.disturbDone, 5, d.id, why, s.now,
          BitVec.ofNat 16 length ++ (BitVec.ofNat 8 (match d.port with | none => 0 | some .p1 => 1 | some .p2 => 2) ++
            BitVec.ofNat 8 (match d.work with
              | .ringSession => 1 | .modeSwitch => 2 | .dslSwitch => 3 | .testConnect => 4))⟩ s).channels }
    (∀ since, d.state = .active since →
      endSlot j s = ended 1 (min 65535 (((s.now - since).toNat + 999) / 1000)) ∧ cancelSlot j s = none) ∧
    (isActive d = false → endSlot j s = ended 2 0 ∧ cancelSlot j s = some (ended 2 0)))

/-- A closed window whose end the present has passed by more than 40 000 µs leaves the list, the first such in list
order; the tracker, in LOCKED or COAST, marks each unchecked predicted window that it overlapped, and nothing
else changes (R61, R79). That the expiry with no such window changes nothing is the model's reading (DEDUCED, log entry
8). -/
def Obligations.DepartingWindowsMarkPredictions : Prop :=
  (∀ (a b : List Window) (w : Window) (stop : Time) (s : State), s.sched.windows = a ++ w :: b →
    (∀ x ∈ a, removable s.now x = false) → w.stop = some stop → offset s.now stop ≤ -40001 →
      ∃ marks : BitVec 8,
        exec .blankingWindowRemoval s = .next { s with
          sched := { s.sched with windows := a ++ b }
          tracker := { s.tracker with obscured := marks } } ∧
        ∀ j, 1 ≤ j → j ≤ 8 → marks.getLsbD (j - 1) =
          (s.tracker.obscured.getLsbD (j - 1) ||
            (decide (s.tracker.state = .locked ∨ s.tracker.state = .coast) && decide (s.tracker.checked < j) &&
              decide (offset s.now w.start ≤ offset s.now (s.tracker.windowStop j)) &&
              decide (offset s.now (s.tracker.windowStart j) ≤ offset s.now stop)))) ∧
  (∀ s : State, (∀ x ∈ s.sched.windows, removable s.now x = false) → exec .blankingWindowRemoval s = .next s)

/-! ## The impulse tracker (chapter 4) -/

/-- An edge: not taken while enable is OFF; merged while the dead-time timer runs; otherwise it starts the timer and
joins the edge queue, or is dropped at 16; the timer's expiry stops it, and nothing else changes (R66). That an expiry
which is not due changes nothing is the model's reading (DEDUCED, log entry 8). -/
def Obligations.EdgesAreMergedQueuedOrDropped : Prop :=
  ∀ s : State, (s.phase = .loading ∨ s.phase = .running) →
    let k := s.tracker
    let n := k.counts
    let timer := some (s.now + us k.deadTime)
    (k.enable = false → exec .impulseEdge s = .next s) ∧
    (k.enable = true →
      (k.deadTimer.isSome = true → exec .impulseEdge s = .next { s with tracker := { k with
        deadTimer := timer, counts := { n with seen := n.seen + 1, merged := n.merged + 1 } } }) ∧
      (k.deadTimer = none →
        (k.edges.length < 16 → exec .impulseEdge s = .next { s with tracker := { k with
          deadTimer := timer, edges := k.edges ++ [s.now] } }) ∧
        (16 ≤ k.edges.length → exec .impulseEdge s = .next { s with tracker := { k with
          deadTimer := timer, counts := { n with seen := n.seen + 1, dropped := n.dropped + 1 } } }))) ∧
    (timerDue s.now k.deadTimer = true →
      exec .deadTimeExpiry s = .next { s with tracker := { k with deadTimer := none } }) ∧
    (timerDue s.now k.deadTimer = false → exec .deadTimeExpiry s = .next s)

/-- The classification of the edge at the head of the queue, due 40 000 µs after it: blanked where a window of the
list covers it; in SEARCH it begins a learning run; in ACQUIRE it is a stray, a learn that agrees, a learn that
starts the run over, or the fourth agreeing interval, which locks (R67, R70, R71, R72). Only the tracker, the notice
queues and the engine's exclusions change. The lock hands TRACK_STATE, ACQUIRED, with the period as locked and the
misses from before; the change to ACQUIRE hands none, and an edge that changes no state hands no notice at all (R83).
That an interval above Pmax and within tol of the period is a match is the model's choice (DESIGN CHOICE, log entry
50). That the command of an edge which is not due changes nothing is the model's reading (DEDUCED, log entry 8). -/
def Obligations.EdgesTeachTheTracker : Prop :=
  ∀ (e : Time) (rest : List Time) (s : State), s.tracker.edges = e :: rest →
    let k := s.tracker
    let n := k.counts
    let i := (e - k.anchor).toNat
    let p := k.periodUs
    let tol := k.tolerance
    let strayed : State := { s with tracker := { k with
      edges := rest, counts := { n with seen := n.seen + 1, stray := n.stray + 1 } } }
    let learnt (c period : Nat) : State := { s with tracker := { k with
      edges := rest, anchor := e, intervals := c, period := period, acquireDue := some (e + us 4040000)
      counts := { n with seen := n.seen + 1, learn := n.learn + 1 } } }
    (reached s.now (e + us 40000) = false → exec .edgeClassification s = .next s) ∧
    (reached s.now (e + us 40000) = true →
      (blankedAt s e = true → exec .edgeClassification s = .next { s with tracker := { k with
        edges := rest, counts := { n with seen := n.seen + 1, blanked := n.blanked + 1 } } }) ∧
      (blankedAt s e = false →
        (k.state = .search →
          ∃ t, exec .edgeClassification s = .next t ∧
            t.tracker = { k with
              edges := rest, anchor := e, intervals := 0, state := .acquire, forecast := []
              acquireDue := some (e + us 4040000)
              counts := { n with seen := n.seen + 1, learn := n.learn + 1 } } ∧
            hands (ofKind .trackState) [] s t ∧
            t = { s with tracker := t.tracker, channels := t.channels, engine := t.engine }) ∧
        (k.state = .acquire →
          (k.intervals = 0 →
            (i < 300000 → exec .edgeClassification s = .next strayed) ∧
            (300000 ≤ i → i ≤ 4000000 → exec .edgeClassification s = .next (learnt 1 (16 * i))) ∧
            (4000000 < i → exec .edgeClassification s = .next (learnt 0 k.period))) ∧
          (1 ≤ k.intervals → k.intervals ≤ 3 →
            (i + tol < p → exec .edgeClassification s = .next strayed) ∧
            (p + tol < i →
              (i ≤ 4000000 → exec .edgeClassification s = .next (learnt 1 (clampPeriod (16 * i : Nat)))) ∧
              (4000000 < i → exec .edgeClassification s = .next (learnt 0 k.period))) ∧
            (p ≤ i + tol → i ≤ p + tol →
              let c := k.intervals + 1
              let period := clampPeriod ((k.period : Int) + Int.tdiv ((16 * i : Nat) - (k.period : Int)) (c : Int))
              (c < 4 → exec .edgeClassification s = .next (learnt c period)) ∧
              (c = 4 →
                ∃ t, exec .edgeClassification s = .next t ∧
                  t.tracker.state = .locked ∧ t.tracker.anchor = e ∧ t.tracker.intervals = 4 ∧
                  t.tracker.period = period ∧ t.tracker.jitter = 16 * ((i - p) + (p - i)) ∧
                  t.tracker.misses = 0 ∧ t.tracker.checked = 0 ∧ t.tracker.strayRun = 0 ∧
                  t.tracker.obscured = 0 ∧ t.tracker.acquireDue = none ∧
                  t.tracker.checkDue = some (t.tracker.checkTime 1) ∧ t.tracker.edges = rest ∧
                  t.tracker.counts = { n with seen := n.seen + 1, learn := n.learn + 1 } ∧
                  t.tracker.enable = k.enable ∧ t.tracker.deadTime = k.deadTime ∧
                  t.tracker.deadTimer = k.deadTimer ∧
                  supersededBy (trackStateOf s.now t.tracker 1 k.misses) s t ∧
                  t = { s with tracker := t.tracker, channels := t.channels, engine := t.engine }))))))

/-- In LOCKED and COAST a due edge within the half-width of a predicted pulse is a hit: it corrects the period by
trunc(2e/n), folds its error into the jitter, moves the anchor, clears the misses, checks, stray run and marks, and
counts the pulses it skipped (R74, R75). From COAST it hands TRACK_STATE, REGAINED, with the misses from before; in
LOCKED it hands none (R83). Any other is a stray, which raises STRAY_RUN at the eighth and changes nothing of the lock
(R76, R84). -/
def Obligations.EdgesHoldTheLock : Prop :=
  ∀ (e : Time) (rest : List Time) (s : State), s.tracker.edges = e :: rest →
    (s.tracker.state = .locked ∨ s.tracker.state = .coast) → reached s.now (e + us 40000) = true →
    blankedAt s e = false →
      let k := s.tracker
      let n := k.counts
      let i := (e - k.anchor).toNat
      let p := k.periodUs
      let m := (2 * i + p) / (2 * p)
      let err : Int := (i : Int) - (m * p : Nat)
      let hit := 1 ≤ m ∧ m ≤ 8 ∧ err.natAbs ≤ k.halfWidth
      (hit →
        ∃ t, exec .edgeClassification s = .next t ∧
          t.tracker.period = clampPeriod ((k.period : Int) + Int.tdiv (2 * err) (m : Int)) ∧
          t.tracker.jitter = (7 * k.jitter + 16 * err.natAbs) / 8 ∧ t.tracker.anchor = e ∧
          t.tracker.misses = 0 ∧ t.tracker.checked = 0 ∧ t.tracker.strayRun = 0 ∧ t.tracker.obscured = 0 ∧
          t.tracker.state = .locked ∧ t.tracker.checkDue = some (t.tracker.checkTime 1) ∧
          t.tracker.counts = { n with
            seen := n.seen + 1, hit := n.hit + 1, missedTotal := n.missedTotal + BitVec.ofNat 32 (m - 1) } ∧
          t.tracker.edges = rest ∧ t.tracker.intervals = k.intervals ∧ t.tracker.acquireDue = k.acquireDue ∧
          t.tracker.enable = k.enable ∧ t.tracker.deadTime = k.deadTime ∧ t.tracker.deadTimer = k.deadTimer ∧
          (k.state = .coast → supersededBy (trackStateOf s.now t.tracker 3 k.misses) s t) ∧
          (k.state = .locked → hands (ofKind .trackState) [] s t) ∧
          t = { s with tracker := t.tracker, channels := t.channels, engine := t.engine }) ∧
      (¬hit →
        ∃ t, exec .edgeClassification s = .next t ∧
          t.tracker = { k with
            edges := rest, strayRun := min 255 (k.strayRun + 1)
            counts := { n with seen := n.seen + 1, stray := n.stray + 1 } } ∧
          (k.strayRun ≠ 7 → t = { s with tracker := t.tracker }) ∧
          (k.strayRun = 7 → t = raiseFault ⟨.strayRun, none, some (BitVec.ofNat 32 p), some e, s.now⟩
            { s with tracker := t.tracker }))

/-- The ACQUIRE expiry takes the tracker to SEARCH with no notice but FORECAST; an edge exactly at L + 4 000 000 is
classified first, and only a blanked one leaves the expiry to act (R73, R83). A window check counts the window, a miss
unless a mark or a window of the list obscures it; at the eighth it enters SEARCH; at the third miss in LOCKED below
the eighth it enters COAST; otherwise it waits for the next window (R77, R78). The eighth hands TRACK_STATE, LOST,
after raising TRACK_LOST with the period and the misses where they are 3 or more, else OBSCURED; the entry into COAST
hands MISSED; any other check hands none and raises nothing (R83, R84). An edge on the window's last instant, with the
check also due: whichever is taken first, the tracker ends in the same state, locked on the edge, and the missed total
has grown by j − 1 (R80). That an expiry or a check which is not due changes nothing is the model's reading (DEDUCED,
log entry 8). -/
def Obligations.TrackerTimersExpire : Prop :=
  (∀ s : State, timerDue s.now s.tracker.acquireDue = true →
    s.tracker.edges.head? ≠ some (s.tracker.anchor + us 4000000) →
      ∃ t, exec .acquireExpiry s = .next t ∧
        t.tracker = { s.tracker with state := .search, intervals := 0, acquireDue := none, forecast := [] } ∧
        hands (ofKind .trackState) [] s t ∧
        t = { s with tracker := t.tracker, channels := t.channels, engine := t.engine }) ∧
  (∀ (rest : List Time) (s : State),
    let k := s.tracker
    let last := k.anchor + us 4000000
    let n := k.counts
    trackerSound k → k.state = .acquire → k.acquireDue = some (last + us 40000) → reached s.now (last + us 40000) = true →
    k.edges = last :: rest →
      (blankedAt s last = false → exec .acquireExpiry s = exec .edgeClassification s) ∧
      (blankedAt s last = true →
        ∃ t, exec .acquireExpiry s = .next t ∧
          t.tracker = { k with
            edges := rest, state := .search, intervals := 0, acquireDue := none, forecast := []
            counts := { n with seen := n.seen + 1, blanked := n.blanked + 1 } } ∧
          hands (ofKind .trackState) [] s t ∧
          t = { s with tracker := t.tracker, channels := t.channels, engine := t.engine })) ∧
  (∀ s : State, timerDue s.now s.tracker.acquireDue = false → exec .acquireExpiry s = .next s) ∧
  (∀ s : State, timerDue s.now s.tracker.checkDue = false → exec .windowCheck s = .next s) ∧
  (∀ s : State, timerDue s.now s.tracker.checkDue = true → trackerSound s.tracker →
    (s.tracker.state = .locked ∨ s.tracker.state = .coast) →
    s.tracker.edges.head? ≠ some (s.tracker.windowStop (s.tracker.checked + 1)) →
      let k := s.tracker
      let j := k.checked + 1
      let obscured := k.obscured.getLsbD (j - 1) = true ∨
        ∃ w ∈ s.sched.windows, offset s.now w.start ≤ offset s.now (k.windowStop j) ∧
          ∀ stop, w.stop = some stop → offset s.now (k.windowStart j) ≤ offset s.now stop
      ∃ (t : State) (m : Nat), exec .windowCheck s = .next t ∧
        (obscured → m = k.misses) ∧ (¬obscured → m = k.misses + 1) ∧
        t.tracker.anchor = k.anchor ∧ t.tracker.period = k.period ∧ t.tracker.jitter = k.jitter ∧
        t.tracker.edges = k.edges ∧ t.tracker.counts = k.counts ∧
        (j = 8 → t.tracker.state = .search ∧ t.tracker.intervals = 0 ∧ t.tracker.misses = 0 ∧
          t.tracker.checked = 0 ∧ t.tracker.strayRun = 0 ∧ t.tracker.obscured = 0 ∧
          t.tracker.checkDue = none ∧ t.tracker.acquireDue = none ∧ t.tracker.forecast = [] ∧
          (3 ≤ m → raises [⟨.trackLost, none, some (BitVec.ofNat 32 k.periodUs), some (BitVec.ofNat 32 m), s.now⟩] s t ∧
            supersededBy (trackStateOf s.now t.tracker 4 m) s t) ∧
          (m < 3 → raises [] s t ∧ supersededBy (trackStateOf s.now t.tracker 5 m) s t)) ∧
        (j < 8 → t.tracker.misses = m ∧ t.tracker.checked = j ∧ t.tracker.strayRun = k.strayRun ∧
          t.tracker.obscured = k.obscured ∧ t.tracker.checkDue = some (k.checkTime (j + 1)) ∧
          (k.state = .locked ∧ m = 3 → t.tracker.state = .coast ∧
            supersededBy (trackStateOf s.now t.tracker 2 m) s t) ∧
          (¬(k.state = .locked ∧ m = 3) → t.tracker.state = k.state ∧ hands (ofKind .trackState) [] s t) ∧
          raises [] s t) ∧
        t = { s with
          tracker := t.tracker, channels := t.channels, engine := t.engine, faults := t.faults }) ∧
  (∀ (rest : List Time) (s : State),
    let k := s.tracker
    let j := k.checked + 1
    trackerSound k → (k.state = .locked ∨ k.state = .coast) → k.edges = k.windowStop j :: rest →
    k.checkDue = some (k.checkTime j) → reached s.now (k.checkTime j) = true →
    blankedAt s (k.windowStop j) = false →
      ∃ first second, exec .windowCheck s = .next first ∧ exec .edgeClassification s = .next second ∧
        first.tracker = second.tracker ∧ first.tracker.state = .locked ∧
        first.tracker.anchor = k.windowStop j ∧ first.tracker.misses = 0 ∧ first.tracker.checked = 0 ∧
        first.tracker.counts.missedTotal = k.counts.missedTotal + BitVec.ofNat 32 (j - 1) ∧
        first.faults = s.faults ∧ second.faults = s.faults)

/-- The forecast table is recomputed, and FORECAST handed, at every hit and every change of the tracker's state by an
edge, and at no other edge; at an ACQUIRE expiry that changes the state; at every window check; at a change of enable
by TRACKER CONFIG; and at TRACKER RESTART with enable ON, or where it changes the state (R81, R82). The table then
holds the first four predicted windows of LOCKED or COAST that end after the present, and is empty in SEARCH and
ACQUIRE. That a restart with enable OFF can find a state other than SEARCH rests on log entry 23 (DESIGN CHOICE), and
that the bits of FORECAST's subject which R82 does not name are 0 is the model's choice (DESIGN CHOICE, log entry 16).
-/
def Obligations.ForecastFollowsTheTracker : Prop :=
  (∀ (e : Time) (rest : List Time) (s : State), s.tracker.edges = e :: rest → reached s.now (e + us 40000) = true →
    ∃ t, exec .edgeClassification s = .next t ∧
      (t.tracker.state ≠ s.tracker.state ∨ t.tracker.counts.hit ≠ s.tracker.counts.hit → recomputed s t) ∧
      (t.tracker.state = s.tracker.state → t.tracker.counts.hit = s.tracker.counts.hit →
        t.tracker.forecast = s.tracker.forecast)) ∧
  (∀ s : State, timerDue s.now s.tracker.acquireDue = true →
    ∃ t, exec .acquireExpiry s = .next t ∧ (t.tracker.state ≠ s.tracker.state → recomputed s t)) ∧
  (∀ s : State, timerDue s.now s.tracker.checkDue = true →
    ∃ t, exec .windowCheck s = .next t ∧ recomputed s t) ∧
  (∀ (r : Req) (b : Byte) (x : Half) (s : State), frameTaken (.trackerConfig r b x) s → b.toNat ≤ 1 →
    holderOf s .tracker = some r.channel → s.tracker.enable ≠ decide (b.toNat = 1) →
      ∃ t, exec (.trackerConfig r b x) s = .next t ∧ recomputed s t) ∧
  (∀ (r : Req) (s : State), frameTaken (.trackerRestart r) s → holderOf s .tracker = some r.channel →
    s.tracker.enable = true ∨ s.tracker.state ≠ .search →
      ∃ t, exec (.trackerRestart r) s = .next t ∧ recomputed s t)

/-- TRACKER CONFIG and TRACKER RESTART for the TRACKER holder alone: the dead time is clamped and put in force; ON to
OFF empties the queue and goes to SEARCH; OFF to ON begins in SEARCH; a restart goes to SEARCH and keeps L, Pe, J, the
counts, the queue and the dead-time timer, and with enable OFF in SEARCH hands no notice (R86, R87). A change of
enable hands TRACK_STATE, DISABLED or ENABLED, a restart with enable ON RESTARTED, each with the misses from before,
and a restart with enable OFF none (R83); that one which finds another state than SEARCH goes to SEARCH and empties
the table, with no TRACK_STATE, is the model's choice (DESIGN CHOICE, log entry 23). READ AND CLEAR EDGE COUNTS
returns the eight counts and zeroes them, and nothing else, in one act (R90). -/
def Obligations.TrackerRequestsAct : Prop :=
  (∀ (r : Req) (b : Byte) (x : Half) (s : State), frameTaken (.trackerConfig r b x) s →
    let i := Instr.trackerConfig r b x
    let u := frameIn i s
    let k := s.tracker
    let used := max 500 (min 10000 x.toNat)
    (1 < b.toNat → exec i s = .next (answered i .badRequest [] u)) ∧
    (b.toNat ≤ 1 →
      (holderOf s .tracker ≠ some r.channel → exec i s = .next (answered i .notHolder [] u)) ∧
      (holderOf s .tracker = some r.channel →
        let results := b :: halfBytes (BitVec.ofNat 16 used)
        (k.enable = decide (b.toNat = 1) →
          exec i s = .next (answered i .ok results { u with tracker := { k with deadTime := used } })) ∧
        (k.enable ≠ decide (b.toNat = 1) →
          ∃ t, exec i s = .next t ∧ respondedWith i .ok results s t ∧
            t.tracker = { k with
              deadTime := used, enable := decide (b.toNat = 1), deadTimer := none
              edges := if b.toNat = 1 then k.edges else []
              state := .search, intervals := 0, misses := 0, checked := 0, strayRun := 0, obscured := 0
              acquireDue := none, checkDue := none, forecast := [] } ∧
            supersededBy (trackStateOf s.now t.tracker (if b.toNat = 1 then 8 else 7) k.misses) s t ∧
            t = { s with
              gateway := t.gateway, modem := t.modem, tracker := t.tracker, channels := t.channels
              engine := t.engine })))) ∧
  (∀ (r : Req) (s : State), frameTaken (.trackerRestart r) s →
    let i := Instr.trackerRestart r
    let k := s.tracker
    (holderOf s .tracker ≠ some r.channel → exec i s = .next (answered i .notHolder [] (frameIn i s))) ∧
    (holderOf s .tracker = some r.channel →
      ∃ t, exec i s = .next t ∧
        respondedWith i .ok
          [match k.state with | .search => 0 | .acquire => 1 | .locked => 2 | .coast => 3] s t ∧
        t.tracker = { k with
          state := .search, intervals := 0, misses := 0, checked := 0, strayRun := 0, obscured := 0
          acquireDue := none, checkDue := none
          forecast := if k.enable = true ∨ k.state ≠ .search then [] else k.forecast } ∧
        (k.enable = true → supersededBy (trackStateOf s.now t.tracker 6 k.misses) s t) ∧
        (k.enable = false → hands (ofKind .trackState) [] s t) ∧
        (k.enable = false → k.state = .search → t.channels = s.channels) ∧
        t = { s with
          gateway := t.gateway, modem := t.modem, tracker := t.tracker, channels := t.channels
          engine := t.engine })) ∧
  (∀ (r : Req) (s : State), frameTaken (.readAndClearEdgeCounts r) s →
    let i := Instr.readAndClearEdgeCounts r
    let u := frameIn i s
    let n := s.tracker.counts
    exec i s = .next (answered i .ok
      (wordBytes n.seen ++ wordBytes n.merged ++ wordBytes n.dropped ++ wordBytes n.blanked ++
        wordBytes n.learn ++ wordBytes n.hit ++ wordBytes n.stray ++ wordBytes n.missedTotal)
      { u with tracker := { u.tracker with counts := ⟨0, 0, 0, 0, 0, 0, 0, 0⟩ } }))

/-! ## Phone ports and line feed (chapter 5) -/

/-- SET MODE's checks in order, and an acceptance: the ring session on the port is ended with RING_END, MODE, to its
issuer, the port's slot holds a MODE_SWITCH record with the answered id, deferrable unless forced, the mode is
TO_LOCAL or TO_LIFELINE, and the switch names its requester, force and id; its stage is LEAD, or BREAK where a lead of
0 starts it at once, with the break change set applied and its RELAY window opened (R49, R59, R93, R94, R96, R129).
Holds and claims stand; the other port's controller stands whole under a lead above 0, and under a lead of 0 its mode,
switch, denial, timing, under-test flag and what holds its supervisor apart; its session and record, the DSL and TEST
records and the exchange ring record stand. -/
def Obligations.SetModeIsDecidedInOrder : Prop :=
  ∀ (r : Req) (b m force : Byte) (s : State), frameTaken (.setMode r b m force) s →
    let i := Instr.setMode r b m force
    let refused (o : Code) := exec i s = .next (answered i o [] (frameIn i s))
    (b.toNat = 0 ∨ 2 < b.toNat ∨ 1 < m.toNat → refused .badRequest) ∧
    ∀ (p : Port) (target : PlainMode), b.toNat = portNum p → m.toNat = target.code →
      let q := s.port p
      let standing : Mode := match target with | .lifeline => .lifeline | .local_ => .local_
      let moving : Mode := match target with | .lifeline => .toLifeline | .local_ => .toLocal
      (p = .p2 ∧ s.twoPorts = false → refused .notFitted) ∧
      ((p = .p2 → s.twoPorts = true) →
        (holderOf s (portFunc p) ≠ some r.channel → refused .notHolder) ∧
        (holderOf s (portFunc p) = some r.channel →
          (q.mode = standing → exec i s = .next (answered i .ok [m] (frameIn i s))) ∧
          (q.mode ≠ standing →
            (q.switch.isSome = true → refused .busy) ∧
            (q.switch = none →
              (target = .local_ ∧ s.power.state = .reserve → refused .lowPower) ∧
              (¬(target = .local_ ∧ s.power.state = .reserve) →
                (target = .lifeline ∧ s.relays.bus = .exchange ∨ q.underTest = true → refused .testActive) ∧
                (¬(target = .lifeline ∧ s.relays.bus = .exchange) → q.underTest = false →
                  (force = 0 ∧ q.sup.state ≠ .onHook → refused .busyVoice) ∧
                  (¬(force = 0 ∧ q.sup.state ≠ .onHook) →
                    (force ≠ 0 ∧ 1 < effLevel r → refused .privilege) ∧
                    (¬(force ≠ 0 ∧ 1 < effLevel r) →
                      ((session s p).isSome = true ∨ slotRec s (portSlot p) = none) →
                      ∃ t id w, exec i s = .next t ∧ respondedWith i .accepted [id, m] s t ∧
                        session t p = none ∧ (t.port p).mode = moving ∧ (t.port p).switch = some w ∧
                        hands (ofKind .ringEnd) ((session s p).toList.map (fun x => ringEndOf s.now p x 5 0)) s t ∧
                        w.target = target ∧ w.requester = r.channel ∧ w.forced = (force != 0) ∧ w.id = id ∧
                        w.stage = (if s.sched.lead = 0 then .break_ else .lead) ∧
                        slotRec t (portSlot p) = some ⟨id, .modeSwitch, some p,
                          if s.sched.lead = 0 then .active s.now else .notified (s.now + ms s.sched.lead),
                          some 40, force == 0⟩ ∧
                        (s.sched.lead ≠ 0 → t.relays = s.relays) ∧
                        (s.sched.lead = 0 → windowOpened (relayWindow s.now (some id)) 4 s t ∧
                          t.relays = (match target with
                            | .local_ => { s.relays with pass := s.relays.pass.set p .open_ }
                            | .lifeline => { s.relays with feed := s.relays.feed.set p .off })) ∧
                        (s.sched.lead ≠ 0 → t.ports.get (otherPort p) = s.ports.get (otherPort p)) ∧
                        (let now := t.port (otherPort p)
                        let was := s.port (otherPort p)
                        now.mode = was.mode ∧ now.switch = was.switch ∧ now.underTest = was.underTest ∧
                          now.denial = was.denial ∧ now.timing = was.timing ∧
                          now.sup.frozen = was.sup.frozen ∧ now.sup.masked = was.sup.masked) ∧
                        session t (otherPort p) = session s (otherPort p) ∧ t.ring.exchange = s.ring.exchange ∧
                        slotRec t (portSlot (otherPort p)) = slotRec s (portSlot (otherPort p)) ∧
                        slotRec t .dsl = slotRec s .dsl ∧ slotRec t .test = slotRec s .test ∧
                        t.lines = s.lines ∧
                        t = { s with
                          gateway := t.gateway, modem := t.modem, channels := t.channels
                          relays := t.relays, settles := t.settles, sched := t.sched
                          tracker := t.tracker, ports := t.ports, ring := t.ring, engine := t.engine
                          faults := t.faults }))))))))

/-- The completion of a switch's change set: after the break the make change set is applied, feed ON for LOCAL and
pass-through CLOSED for LIFELINE, with its RELAY window (R59); after the make the switch is over, DONE, in the target
mode. Held open by the test bus, a switch to LIFELINE ends TEST_ACTIVE in LIFELINE with the lifeline suspended (R44,
R96, R97, R98). At the switch's end its slot is empty and the supervisor is at most SEIZING, unless a denial keeps it
frozen. What is handed then is, in this order, DISTURB_DONE, HOOK with reason MODE where the supervisor is restarted
and stood at OFF_HOOK or BREAK when it was frozen, and MODE_DONE to the requester with the outcome, the mode standing,
the target, the suspended flag and the id (R54, R98, R116); that bits 2 and 3 of HOOK's flags are 0 is the model's
choice (DESIGN CHOICE, log entry 16). The completion leaves alone the other port's mode and switch, and at the
switch's end the whole of it; the other slots, holds and claims, the ring unit, the log, the power state and the
settings; the tracker but for its marks; and the engine but for the readings of a test in MEASURE. -/
def Obligations.SwitchRunsBreakBeforeMake : Prop :=
  ∀ (p : Port) (w : ModeSwitch) (rest : List Settle) (s : State),
    takeSettle s.now (.modeSwitch p) s.settles = some rest → (s.port p).switch = some w → portFitted s p = true →
    (slotRec s (portSlot p)).map (·.id) = some w.id →
      let hook (mode : PlainMode) : List Handing :=
        if (s.port p).denial = none ∧ inCall ((s.port p).sup.frozen.getD (s.port p).sup.state) = true then
          [hookNoteOf s.now p false (decide (mode = .lifeline)) 4 0] else []
      let frame (t : State) : Prop :=
        t = { s with
          channels := t.channels, relays := t.relays, settles := t.settles
          sched := { s.sched with slots := t.sched.slots, windows := t.sched.windows }
          tracker := { s.tracker with obscured := t.tracker.obscured }, ports := t.ports, engine := t.engine
          faults := { s.faults with watch := t.faults.watch } } ∧
        (∀ j, j ≠ portSlot p → slotRec t j = slotRec s j) ∧
        ((∀ x, s.engine.test = some x → x.phase ≠ .measure) → t.engine = s.engine) ∧
        t.engine.result = s.engine.result ∧ (t.port p).timing = (s.port p).timing ∧
        (t.port (otherPort p)).mode = (s.port (otherPort p)).mode ∧
        (t.port (otherPort p)).switch = (s.port (otherPort p)).switch
      let ended (t : State) (mode : PlainMode) (outcome : Nat) : Prop :=
        (t.port p).mode = mode.mode ∧ (t.port p).switch = none ∧ slotRec t (portSlot p) = none ∧
          t.relays = s.relays ∧ t.settles = rest ∧ t.ports.get (otherPort p) = s.ports.get (otherPort p) ∧
          frame t ∧ t.channels = (handAll (hook mode ++ [switchDoneOf s.now p w outcome mode (t.port p).suspended])
            (endSlot (portSlot p) s)).channels ∧
          ((s.port p).denial = none → (t.port p).sup.frozen = none ∧
            ((t.port p).sup.state = .onHook ∨ (t.port p).sup.state = .seizing))
      (w.stage = .break_ →
        (w.target = .local_ →
          ∃ t, exec (.changeSetComplete (.modeSwitch p)) s = .next t ∧
            (t.port p).switch = some { w with stage := .make } ∧
            t.relays = { s.relays with feed := s.relays.feed.set p .on } ∧
            t.settles = rest ++ [⟨.modeSwitch p, s.now + ms 20⟩] ∧
            windowOpened (relayWindow s.now (some w.id)) 3 s t ∧ frame t) ∧
        (w.target = .lifeline → s.relays.bus ≠ .exchange →
          ∃ t, exec (.changeSetComplete (.modeSwitch p)) s = .next t ∧
            (t.port p).switch = some { w with stage := .make } ∧
            t.relays = { s.relays with pass := s.relays.pass.set p .closed } ∧
            t.settles = rest ++ [⟨.modeSwitch p, s.now + ms 20⟩] ∧
            windowOpened (relayWindow s.now (some w.id)) 3 s t ∧ frame t) ∧
        (w.target = .lifeline → s.relays.bus = .exchange →
          ∃ t, exec (.changeSetComplete (.modeSwitch p)) s = .next t ∧ ended t .lifeline 1 ∧
            (t.port p).suspended = true)) ∧
      (w.stage = .make →
        ∃ t, exec (.changeSetComplete (.modeSwitch p)) s = .next t ∧
          ended t w.target (if w.target = .lifeline ∧ s.relays.pass.get p ≠ .closed then 1 else 0) ∧
          (t.port p).suspended = (match w.target with
            | .local_ => false
            | .lifeline => if s.relays.pass.get p = .closed then (s.port p).suspended else true))

/-- The overload timer runs while the feed stands ON with the over-limit input asserted and no probe (R99). Its expiry
denies the feed: DENIED at once, a denial record, the supervisor frozen at ON_HOOK, one that a switch had frozen too,
and the ring session ended. It raises FEED_OVERLOAD, with the port, the mode and the timer's start, and hands
UNPLANNED FEED_DENIED, HOOK with reason DENIED from OFF_HOOK or BREAK unless the supervisor was frozen, and for the
session DISTURB_DONE and RING_END, FAULT, cause FEED_DENIED (R57, R100, R116, R129). The retry expiry begins a probe;
the probe's end denies again, or ends the denial and leaves the feed ON (R101). That bits 2 and 3 of HOOK's flags are
0 is the model's choice (DESIGN CHOICE, log entry 16). That a supervisor already frozen keeps its earlier frozen
record, and that a probe's end leaves the supervisor to an ACTIVE switch, rests on log entry 19 (DEDUCED); that an
expiry which is not due changes nothing is the model's reading (DEDUCED, log entry 8). -/
def Obligations.OverloadDeniesAndProbes : Prop :=
  (∀ (p : Port) (asserted : Bool) (s : State),
    (s.phase = .loading ∨ s.phase = .running) → portFitted s p = true →
      let runs := s.relays.feed.get p = .on ∧ asserted = true ∧ probing (s.port p) = false
      exec (.feedOverLimitChange p asserted) s = .next { s with
        pins := { s.pins with overLimit := s.pins.overLimit.set p asserted }
        ports := s.ports.set p { s.port p with
          overload := if runs then some ((s.port p).overload.getD s.now) else none } }) ∧
  (∀ (p : Port) (since : Time) (s : State), (s.port p).overload = some since →
    let q := s.port p
    let overload : Raised := ⟨.feedOverload, some (portNum p),
      some (match q.mode with | .lifeline => 0 | .local_ => 1 | .toLocal => 2 | .toLifeline => 3), some since, s.now⟩
    let denied := handAll (unplannedNoteOf s.now 7 (some p) 0 ::
      if q.sup.frozen = none ∧ inCall q.sup.state = true then [hookNoteOf s.now p false (lifelineCond s p) 3 0] else [])
      (raiseFault overload s)
    let handed := match session s p with
      | none => denied
      | some x => handAll [ringEndOf s.now p x 7 2] (endSlot (portSlot p) denied)
    (reached s.now (since + ms 100) = false → exec (.feedDenial p) s = .next s) ∧
    (reached s.now (since + ms 100) = true →
      ∃ t, exec (.feedDenial p) s = .next t ∧
        t.relays = { s.relays with feed := s.relays.feed.set p .denied } ∧
        (t.port p).denial = some ⟨s.now, .waiting (s.now + ms 10000), 0⟩ ∧ (t.port p).overload = none ∧
        (t.port p).sup.frozen.isSome = true ∧ (t.port p).sup.state = .onHook ∧
        ((s.port p).sup.frozen.isSome = true → (t.port p).sup.frozen = (s.port p).sup.frozen) ∧
        session t p = none ∧
        (t.port p).mode = (s.port p).mode ∧ (t.port p).switch = (s.port p).switch ∧
        t.ports.get (otherPort p) = s.ports.get (otherPort p) ∧
        t.channels = handed.channels ∧ t.faults = { (raiseFault overload s).faults with watch := t.faults.watch } ∧
        t = { s with
          channels := t.channels, relays := t.relays, sched := t.sched, tracker := t.tracker
          ports := t.ports, ring := t.ring, engine := t.engine, faults := t.faults })) ∧
  (∀ (p : Port) (d : Denial) (due : Time) (s : State), (s.port p).denial = some d → d.stage = .waiting due →
    (reached s.now due = false → exec (.probeStart p) s = .next s) ∧
    (reached s.now due = true →
      exec (.probeStart p) s = .next { s with
        relays := { s.relays with feed := s.relays.feed.set p .on }
        ports := s.ports.set p { s.port p with
          denial := some { d with stage := .probing (s.now + ms 200) }, overload := none } })) ∧
  (∀ (p : Port) (d : Denial) (due : Time) (s : State), (s.port p).denial = some d → d.stage = .probing due →
    (reached s.now due = false → exec (.probeEnd p) s = .next s) ∧
    (reached s.now due = true → s.pins.overLimit.get p = true →
      exec (.probeEnd p) s = .next { s with
        relays := { s.relays with feed := s.relays.feed.set p .denied }
        ports := s.ports.set p { s.port p with
          denial := some ⟨d.since, .waiting (s.now + ms 10000), min 255 (d.failed + 1)⟩ } }) ∧
    (reached s.now due = true → s.pins.overLimit.get p = false →
      ∃ t, exec (.probeEnd p) s = .next t ∧ (t.port p).denial = none ∧ t.relays = s.relays ∧
        ((∀ w, (s.port p).switch = some w → w.stage = .lead) → (t.port p).sup.frozen = none ∧
          ((t.port p).sup.state = .onHook ∨ (t.port p).sup.state = .seizing)) ∧
        t.ports.get (otherPort p) = s.ports.get (otherPort p) ∧
        t.channels = s.channels ∧ t.faults = { s.faults with watch := t.faults.watch } ∧
        t = { s with
          channels := t.channels, sched := t.sched, tracker := t.tracker, ports := t.ports
          engine := t.engine, faults := t.faults }))

/-! ## Hook supervision (chapter 6) -/

/-- SET HOOK TIMING clamps its five values, refuses a set that breaks the conditions, and otherwise puts the set in
force; a running timer and a break in progress stand (R107, R108). CLEAR DIAL empties the dial record and its
flag and leaves the pulse count and gap timer (R115). Both are for the port's holder and change nothing else. -/
def Obligations.HookTimingAndDialRequests : Prop :=
  (∀ (r : Req) (b : Byte) (v1 v2 v3 v4 v5 : Half) (s : State),
    frameTaken (.setHookTiming r b v1 v2 v3 v4 v5) s →
    let i := Instr.setHookTiming r b v1 v2 v3 v4 v5
    let u := frameIn i s
    let t : HookTiming := ⟨max 10 (min 100 v1.toNat), max 5 (min 40 v2.toNat), max 60 (min 200 v3.toNat),
      max 200 (min 1500 v4.toNat), max 150 (min 800 v5.toNat)⟩
    let refused (o : Code) := exec i s = .next (answered i o [] u)
    (b.toNat = 0 ∨ 2 < b.toNat → refused .badRequest) ∧
    ∀ p : Port, b.toNat = portNum p →
      (p = .p2 ∧ s.twoPorts = false → refused .notFitted) ∧
      ((p = .p2 → s.twoPorts = true) →
        (holderOf s (portFunc p) ≠ some r.channel → refused .notHolder) ∧
        (holderOf s (portFunc p) = some r.channel →
          let kept := t.glitch < t.pulseMax ∧ t.pulseMax < t.flashMax ∧ t.pulseMax < t.digitGap
          (¬kept → refused .outOfRange) ∧
          (kept → exec i s = .next (answered i .ok
            (b :: (halfBytes (BitVec.ofNat 16 t.seize) ++ halfBytes (BitVec.ofNat 16 t.glitch) ++
              halfBytes (BitVec.ofNat 16 t.pulseMax) ++ halfBytes (BitVec.ofNat 16 t.flashMax) ++
              halfBytes (BitVec.ofNat 16 t.digitGap)))
            { u with ports := u.ports.set p { u.port p with timing := t } }))))) ∧
  (∀ (r : Req) (b : Byte) (s : State), frameTaken (.clearDial r b) s →
    let i := Instr.clearDial r b
    let u := frameIn i s
    let refused (o : Code) := exec i s = .next (answered i o [] u)
    (b.toNat = 0 ∨ 2 < b.toNat → refused .badRequest) ∧
    ∀ p : Port, b.toNat = portNum p →
      (p = .p2 ∧ s.twoPorts = false → refused .notFitted) ∧
      ((p = .p2 → s.twoPorts = true) →
        (holderOf s (portFunc p) ≠ some r.channel → refused .notHolder) ∧
        (holderOf s (portFunc p) = some r.channel →
          exec i s = .next (answered i .ok
            [b, BitVec.ofNat 8 (s.port p).dial.length, if (s.port p).overflow then 1 else 0]
            { u with ports := u.ports.set p { u.port p with dial := [], overflow := false } }))))

/-- The hook state machine of a fitted port that is neither frozen nor masked, on a change of its present source:
ON_HOOK to SEIZING with the seize timer, SEIZING back to ON_HOOK, OFF_HOOK to BREAK with the break timer, and from
BREAK by the break's length: glitch, pulse, flash, or a release and a new seizing (R109, R110, R118). It opens a HOOK
window, from 5 ms before to 30 ms after, while the pass-through stands CLOSED, and none while it stands OPEN (R59,
R118). A flash in the local condition first completes a digit with pulses, then is recorded, with a DIGIT notice for
each (R111, R114, R117); a release hands HOOK with reason LOOP and the break start, and in the lifeline condition
UNPLANNED HOOK_RELEASE (R57, R116, R118); no other loop change hands a notice or touches the dial record. A change of
a sense that is not the port's source, or of a supervisor held apart, is recorded at the pin and no more. That bits 2
and 3 of HOOK's flags and bits 4 to 7 of DIGIT's are 0 is the model's choice (DESIGN CHOICE, log entry 16). -/
def Obligations.LoopChangesMoveTheHookState : Prop :=
  ∀ (p : Port) (sense : LoopSense) (present : Bool) (s : State), (s.phase = .loading ∨ s.phase = .running) →
    let pins := match sense with
      | .passThrough => { s.pins with loopPass := s.pins.loopPass.set p present }
      | .feedCurrent => { s.pins with loopFeed := s.pins.loopFeed.set p present }
    let u : State := { s with pins := pins }
    let q := s.port p
    let k := q.sup
    let b := (s.now - k.breakStart).toNat
    let long := k.state = .break_ ∧ loopReading u p = true ∧ k.breakTiming.glitch * 1000 ≤ b ∧
      k.breakTiming.pulseMax * 1000 < b
    let flash := long ∧ b < k.breakTiming.flashMax * 1000
    let digit := digitDone s.now p q
    (portFitted s p = false ∨ k.frozen.isSome = true ∨ k.masked = true ∨ loopSource s p = none ∨
      loopReading u p = k.loop →
        exec (.loopChange p sense present) s = .next u) ∧
    (portFitted s p = true → k.frozen = none → k.masked = false → loopSource s p ≠ none →
      loopReading u p ≠ k.loop →
        ∃ t, exec (.loopChange p sense present) s = .next t ∧ (t.port p).sup.loop = loopReading u p ∧
          (s.relays.pass.get p = .closed → windowOpened (hookWindow s.now p) 1 s t) ∧
          (s.relays.pass.get p = .open_ → t.sched = s.sched ∧ t.tracker = s.tracker ∧ t.engine = s.engine) ∧
          (k.state = .onHook → loopReading u p = true → (t.port p).sup.state = .seizing ∧
            (t.port p).sup.breakStart = s.now ∧
            (t.port p).sup.seizeTimer = .running (s.now + ms (s.port p).timing.seize)) ∧
          (k.state = .seizing → loopReading u p = false →
            (t.port p).sup.state = .onHook ∧ (t.port p).sup.seizeTimer = .stopped) ∧
          (k.state = .offHook → loopReading u p = false → (t.port p).sup.state = .break_ ∧
            (t.port p).sup.breakStart = s.now ∧ (t.port p).sup.breakTiming = (s.port p).timing ∧
            (t.port p).sup.breakTimer = .running (s.now + ms (s.port p).timing.flashMax)) ∧
          (k.state = .break_ → loopReading u p = true →
            (b < k.breakTiming.flashMax * 1000 ∨ b ≤ k.breakTiming.pulseMax * 1000 →
              (t.port p).sup.state = .offHook ∧ (t.port p).sup.breakTimer = .stopped) ∧
            (b < k.breakTiming.glitch * 1000 → (t.port p).sup.pulses = k.pulses ∧
              (t.port p).sup.gapTimer = k.gapTimer) ∧
            (k.breakTiming.glitch * 1000 ≤ b → b ≤ k.breakTiming.pulseMax * 1000 →
              (t.port p).sup.pulses = min 255 (k.pulses + 1) ∧
              (t.port p).sup.gapTimer = .running (s.now + ms (s.port p).timing.digitGap)) ∧
            (k.breakTiming.glitch * 1000 ≤ b → k.breakTiming.pulseMax * 1000 < b →
              b < k.breakTiming.flashMax * 1000 → (t.port p).sup.pulses = 0) ∧
            (k.breakTiming.glitch * 1000 ≤ b → k.breakTiming.pulseMax * 1000 < b →
              k.breakTiming.flashMax * 1000 ≤ b →
              (t.port p).sup.state = .seizing ∧ (t.port p).sup.pulses = 0 ∧
              (t.port p).sup.breakTimer = .stopped ∧ (t.port p).sup.gapTimer = .stopped)) ∧
          (flash ∧ lifelineCond s p = false →
            t.channels = (handAll (digit.2 ++ [digitOf s.now p .flash 0 digit.1]) s).channels ∧
            (t.port p).dial = (recorded .flash digit.1).dial ∧
            (t.port p).overflow = (recorded .flash digit.1).overflow) ∧
          (¬(flash ∧ lifelineCond s p = false) → (t.port p).dial = q.dial ∧ (t.port p).overflow = q.overflow) ∧
          (long ∧ ¬flash → t.channels = (handAll (hookNoteOf s.now p false (lifelineCond s p) 1 k.breakStart ::
            if lifelineCond s p = true then [unplannedNoteOf s.now 2 (some p) 0] else []) s).channels) ∧
          (¬long ∨ flash ∧ lifelineCond s p = true → t.channels = s.channels) ∧
          t.ports.get (otherPort p) = s.ports.get (otherPort p) ∧
          t = { s with
            pins := pins, channels := t.channels, sched := t.sched, tracker := t.tracker
            ports := t.ports, engine := t.engine, faults := t.faults })

/-- The supervisor's timers: the seize timer's expiry seizes the port, OFF_HOOK with the dial record emptied; the
break timer's releases it, ON_HOOK with no pulses; the digit gap's completes the digit, recorded in the local
condition up to 24 entries, with DIGIT or, above 10 pulses, a DIAL_ERROR (R109, R110, R111, R114, R117). A seizure
aborts the home test of its port, and a non-forced exchange test if the port is in the lifeline condition, and no
other test (R118, R146). It hands HOOK with reason LOOP and the break start, then UNPLANNED HOOK_SEIZE in the lifeline
condition (R57, R116, R118); it cancels an ordinary switch in LEAD, with MODE_DONE, CANCELLED_VOICE (R95), answers a
ring session outside a burst, with ANSWERED and RING_END (R127), and through the pass-through ends an exchange call
(R132); that order rests on log entry 45 (DEDUCED). A release hands HOOK and in the lifeline condition UNPLANNED
HOOK_RELEASE. That bits 2 and 3 of HOOK's flags, 4 to 7 of DIGIT's and 3 of TEST_DONE's are 0 is the model's choice
(DESIGN CHOICE, log entry 16). That the expiry of a timer which is not due, or stands still, changes nothing is the
model's reading (DEDUCED, log entry 8), and detail bytes 9 to 11 of EXCHANGE_CALL_END are free values (log entry 15).
-/
def Obligations.HookTimersExpire : Prop :=
  ∀ (p : Port) (s : State),
    let q := s.port p
    let lifeline := lifelineCond s p
    let seized := hookNoteOf s.now p true lifeline 1 q.sup.breakStart
    let line (code : Nat) : List Handing := if lifeline = true then [unplannedNoteOf s.now code (some p) 0] else []
    (q.sup.seizeTimer.isDue s.now = false → exec (.seizeTimerExpiry p) s = .next s) ∧
    (q.sup.breakTimer.isDue s.now = false → exec (.breakTimerExpiry p) s = .next s) ∧
    (q.sup.gapTimer.isDue s.now = false → exec (.digitGapExpiry p) s = .next s) ∧
    (q.sup.seizeTimer.isDue s.now = true → (∀ x, s.engine.test = some x → ¬seizureReaches p x s) →
      ∃ t, exec (.seizeTimerExpiry p) s = .next t ∧ (t.port p).sup.state = .offHook ∧
        (t.port p).sup.seizeTimer = .stopped ∧ (t.port p).sup.pulses = 0 ∧
        (t.port p).sup.gapTimer = .stopped ∧ (t.port p).dial = [] ∧ (t.port p).overflow = false ∧
        t.relays = s.relays ∧ t.lines = s.lines ∧ t.engine = s.engine ∧
        (inBurst s p = false → session t p = none) ∧
        t.ports.get (otherPort p) = s.ports.get (otherPort p) ∧
        ((∀ w, q.switch = some w → w.forced = true ∨ w.stage ≠ .lead) →
          (t.port p).mode = q.mode ∧ (t.port p).switch = q.switch) ∧
        (∀ w d, q.switch = some w → w.forced = false → w.stage = .lead → slotRec s (portSlot p) = some d →
          d.id = w.id → isActive d = false →
            (t.port p).mode = w.origin.mode ∧ (t.port p).switch = none ∧ slotRec t (portSlot p) = none) ∧
        t.channels =
          (let first := handAll (seized :: line 1) s
          let cancelled := match q.switch with
            | none => first
            | some w => if w.forced = false ∧ w.stage = .lead ∧ slotActive s (portSlot p) = false then
                handAll [switchDoneOf s.now p w 3 w.origin (t.port p).suspended] (endSlot (portSlot p) first)
              else first
          let answeredToo := match session s p with
            | none => cancelled
            | some x => if inBurst s p = true then cancelled else
                handAll [ringEndOf s.now p x 3 0] (endSlot (portSlot p) (handAll [answeredOf s.now p x 2] cancelled))
          if lifeline = true ∧ s.relays.pass.get p = .closed ∧ s.relays.feed.get p = .off ∧
              s.ring.exchange.ringing = true then
            handAll [(⟨.exchangeCallEnd, 3, BitVec.ofNat 8 s.ring.exchange.bursts, 2, s.now,
              Config.spareBytes 19 s.now ++ BitVec.ofNat 8 (portNum p)⟩, none)] answeredToo
          else answeredToo).channels) ∧
    (∀ x, q.sup.seizeTimer.isDue s.now = true → s.engine.test = some x → seizureReaches p x s →
      ∃ t, exec (.seizeTimerExpiry p) s = .next t ∧ testAborted .hookAbort x s t ∧ hands (hookOf p 1) [seized] s t ∧
        hands (unplannedOf 1) (line 1) s t) ∧
    (q.sup.breakTimer.isDue s.now = true →
      ∃ t, exec (.breakTimerExpiry p) s = .next t ∧
        t.ports = s.ports.set p { q with
          sup := { q.sup with state := .onHook, pulses := 0, gapTimer := .stopped, breakTimer := .stopped } } ∧
        t.channels = (handAll (hookNoteOf s.now p false lifeline 1 q.sup.breakStart :: line 2) s).channels ∧
        t = { s with channels := t.channels, ports := t.ports, faults := t.faults }) ∧
    (q.sup.gapTimer.isDue s.now = true →
      let digit := digitDone s.now p q
      ∃ t, exec (.digitGapExpiry p) s = .next t ∧
        t.ports = s.ports.set p { q with
          dial := if lifeline = true then q.dial else digit.1.dial
          overflow := if lifeline = true then q.overflow else digit.1.overflow
          sup := { q.sup with gapTimer := .stopped, pulses := 0 } } ∧
        t.channels = (if lifeline = true then s else handAll digit.2 s).channels ∧
        t = { s with channels := t.channels, ports := t.ports })

/-! ## Ringing (chapter 7) -/

/-- RING's checks in order, and an acceptance: the port's slot holds a RING_SESSION record of the cycle length times
the cycles, the session copies the cadence's steps and names its issuer and id; with a lead above 0 it waits in
NOTIFYING (R49, R123, R124). STOP RING ends a session that stands, its burst and its record with it, with RING_END,
STOPPED, to the issuer and no ANSWERED, or answers stopped 0 (R129, R130). The other port's session stands, but for a
burst of port 2 that began at this instant on BATTERY: R125 gives an on time of port 1 that falls due then the
generator, and that port 2's burst begun already is cut for it is the model's reading (DEDUCED, log entry 22), and its
choice for one begun on MAINS just before (DESIGN CHOICE, log entry 49). -/
def Obligations.RingRequestsAct : Prop :=
  (∀ (r : Req) (b c n : Byte) (s : State), frameTaken (.ring r b c n) s →
    let i := Instr.ring r b c n
    let refused (o : Code) := exec i s = .next (answered i o [] (frameIn i s))
    (b.toNat = 0 ∨ 2 < b.toNat → refused .badRequest) ∧
    ∀ p : Port, b.toNat = portNum p →
      let q := s.port p
      let steps := s.ring.cadences.get c.toNat
      (p = .p2 ∧ s.twoPorts = false → refused .notFitted) ∧
      ((p = .p2 → s.twoPorts = true) →
        (holderOf s (portFunc p) ≠ some r.channel → refused .notHolder) ∧
        (holderOf s (portFunc p) = some r.channel →
          (3 < c.toNat → refused .badRequest) ∧
          (c.toNat ≤ 3 →
            (steps = [] → refused .noCadence) ∧
            (steps ≠ [] → q.mode ≠ .local_ → refused .wrongMode) ∧
            (steps ≠ [] → q.mode = .local_ →
              (q.underTest = true → refused .testActive) ∧
              (q.underTest = false → s.power.state = .reserve → refused .lowPower) ∧
              (q.underTest = false → s.power.state ≠ .reserve →
                (s.pins.thermal = true → refused .thermal) ∧
                (s.pins.thermal = false →
                  (q.sup.state ≠ .onHook ∨ q.denial.isSome = true → refused .busyVoice) ∧
                  (q.sup.state = .onHook → q.denial = none →
                    ((session s p).isSome = true ∨ (slotRec s (portSlot p)).isSome = true → refused .busy) ∧
                    (session s p = none → slotRec s (portSlot p) = none →
                      ∃ t id x, exec i s = .next t ∧ respondedWith i .accepted [id, c, n] s t ∧
                        session t p = some x ∧ x.steps = steps ∧ x.cadence = c.toNat ∧ x.stepIndex = 1 ∧
                        x.cyclesLeft = (if n.toNat = 0 then none else some n.toNat) ∧ x.cyclesDone = 0 ∧
                        x.issuer = r.channel ∧ x.id = id ∧
                        slotRec t (portSlot p) = some ⟨id, .ringSession, some p,
                          if s.sched.lead = 0 then .active s.now else .notified (s.now + ms s.sched.lead),
                          if n.toNat = 0 then none
                          else some ((steps.map (fun k => k.on + k.off)).sum * n.toNat), false⟩ ∧
                        (s.sched.lead ≠ 0 → x.state = .notifying ∧ x.skipped = 0 ∧ x.phaseDue = none ∧
                          t.ports = s.ports ∧ t.ring.generator = s.ring.generator) ∧
                        (¬(s.sched.lead = 0 ∧ p = .p1 ∧ s.power.state = .battery ∧ burstingSince s .p2 s.now) →
                          session t (otherPort p) = session s (otherPort p) ∧ t.faults = s.faults) ∧
                        t.ring.cadences = s.ring.cadences ∧ t.ring.exchange = s.ring.exchange ∧
                        t = { s with
                          gateway := t.gateway, modem := t.modem, channels := t.channels, sched := t.sched
                          tracker := t.tracker, ports := t.ports, ring := t.ring
                          engine := t.engine, faults := t.faults }))))))))) ∧
  (∀ (r : Req) (b : Byte) (s : State), frameTaken (.stopRing r b) s →
    let i := Instr.stopRing r b
    let refused (o : Code) := exec i s = .next (answered i o [] (frameIn i s))
    (b.toNat = 0 ∨ 2 < b.toNat → refused .badRequest) ∧
    ∀ p : Port, b.toNat = portNum p →
      (p = .p2 ∧ s.twoPorts = false → refused .notFitted) ∧
      ((p = .p2 → s.twoPorts = true) →
        (holderOf s (portFunc p) ≠ some r.channel → refused .notHolder) ∧
        (holderOf s (portFunc p) = some r.channel →
          (session s p = none → exec i s = .next (answered i .ok [b, 0, 0] (frameIn i s))) ∧
          ∀ x, session s p = some x →
            ∃ t, exec i s = .next t ∧ respondedWith i .ok [b, 1, BitVec.ofNat 8 x.cyclesDone] s t ∧
              session t p = none ∧ slotRec t (portSlot p) = none ∧
              (inBurst s p = true → t.ring.generator.get p = false ∧ (t.port p).sup.masked = false) ∧
              hands (ofKind .ringEnd) [ringEndOf s.now p x 2 0] s t ∧ hands (ofKind .answered) [] s t ∧
              session t (otherPort p) = session s (otherPort p) ∧
              t.ports.get (otherPort p) = s.ports.get (otherPort p) ∧
              t = { s with
                gateway := t.gateway, modem := t.modem, channels := t.channels, sched := t.sched
                tracker := t.tracker, ports := t.ports, ring := t.ring, engine := t.engine
                faults := t.faults })))

/-- The phase timer's expiry: the end of an on time, burst or skipped, begins the step's off time; the end of an off
time that is not the last step's begins the next step's on time; the end of the last step's counts a cycle and begins
again at step 1, or, when no cycle is left, ends the session with DISTURB_DONE and RING_END, COMPLETED (R124, R129).
An on time becomes a burst that drives the generator and masks the supervisor, or is skipped where the arbiter allows
none (R125). On BATTERY port 2 gives way to an on time of port 1 that falls due at the same instant, and is cut and
counts as skipped where its burst has begun at that instant already (DEDUCED, log entry 22; for one begun on MAINS
just before, DESIGN CHOICE, log entry 49). That an expiry which is not due changes nothing is the model's reading
(DEDUCED, log entry 8). -/
def Obligations.RingSessionsRun : Prop :=
  ∀ (p : Port) (x : RingSession) (due : Time) (s : State), session s p = some x → x.phaseDue = some due →
    let run := exec (.ringPhaseTimerExpiry p) s
    let rings := s.power.state = .mains ∨
      (inBurst s (otherPort p) = false ∧ ¬(p = .p2 ∧ onTimeDueNow s .p1 = true))
    let together := s.power.state ≠ .mains ∧ p = .p1 ∧ burstingSince s .p2 s.now
    let ended (t : State) : Prop := t.ports.get (otherPort p) = s.ports.get (otherPort p) ∧
      session t (otherPort p) = session s (otherPort p) ∧ t.ring.exchange = s.ring.exchange ∧
      t = { s with
        channels := t.channels, sched := t.sched, tracker := t.tracker, ports := t.ports, ring := t.ring
        engine := t.engine, faults := t.faults }
    let begun (y : RingSession) : Prop :=
      (rings →
        ∃ t z, run = .next t ∧ session t p = some z ∧ z.state = .burst s.now ∧
          z.phaseDue = some (s.now + ms (y.steps.getD (y.stepIndex - 1) ⟨0, 0⟩).on) ∧
          z = { y with state := z.state, phaseDue := z.phaseDue, tripDue := z.tripDue } ∧
          t.ring.generator.get p = true ∧ (t.port p).sup.masked = true ∧
          (∃ w ∈ t.sched.windows, .ringBurst p ∈ w.keys) ∧ t.channels = s.channels ∧ ended t) ∧
      (together →
        ∃ t z y2 z2, run = .next t ∧ session t .p1 = some z ∧ z.state = .burst s.now ∧
          z.phaseDue = some (s.now + ms (y.steps.getD (y.stepIndex - 1) ⟨0, 0⟩).on) ∧
          z = { y with state := z.state, phaseDue := z.phaseDue, tripDue := z.tripDue } ∧
          t.ring.generator = ⟨true, false⟩ ∧ (t.port .p1).sup.masked = true ∧ (t.port .p2).sup.masked = false ∧
          session s .p2 = some y2 ∧ session t .p2 = some z2 ∧
          z2 = { y2 with state := .silent true, skipped := min 255 (y2.skipped + 1), tripDue := none } ∧
          (∃ w ∈ t.sched.windows, .ringBurst .p1 ∈ w.keys) ∧ t.ring.exchange = s.ring.exchange ∧
          t = { s with
            channels := t.channels, sched := t.sched, tracker := t.tracker, ports := t.ports, ring := t.ring
            engine := t.engine, faults := t.faults }) ∧
      (¬rings → ¬together → run = .next { s with ring := { s.ring with sessions := s.ring.sessions.set p (some { y with
        state := .silent true, skipped := min 255 (y.skipped + 1)
        phaseDue := some (s.now + ms (y.steps.getD (y.stepIndex - 1) ⟨0, 0⟩).on), tripDue := none }) } })
    (reached s.now due = false → run = .next s) ∧
    (reached s.now due = true →
      (inBurst s p = true ∨ x.state = .silent true →
        ∃ t z, run = .next t ∧ session t p = some z ∧ z.state = .silent false ∧
          z.phaseDue = some (s.now + ms (x.steps.getD (x.stepIndex - 1) ⟨0, 0⟩).off) ∧
          z = { x with state := z.state, phaseDue := z.phaseDue, tripDue := z.tripDue } ∧
          (inBurst s p = true → t.ring.generator.get p = false ∧ (t.port p).sup.masked = false) ∧ ended t) ∧
      (x.state = .silent false →
        (x.stepIndex < x.steps.length → begun { x with stepIndex := x.stepIndex + 1 }) ∧
        (x.steps.length ≤ x.stepIndex →
          ((∀ n, x.cyclesLeft = some n → 2 ≤ n) → begun { x with
            stepIndex := 1, cyclesDone := min 255 (x.cyclesDone + 1)
            cyclesLeft := x.cyclesLeft.map (fun n => n - 1) }) ∧
          (∀ n, x.cyclesLeft = some n → n ≤ 1 →
            ∃ t, run = .next t ∧ session t p = none ∧ slotRec t (portSlot p) = none ∧
              t.channels = (handAll [ringEndOf s.now p { x with cyclesDone := min 255 (x.cyclesDone + 1) } 1 0]
                (endSlot (portSlot p) s)).channels ∧ ended t))))

/-- The ring-trip input runs the port's trip timer for 40 ms in BURST, and its expiry trips the port: the burst is
cut, a port not already off hook is seized, and the session is over (R127); the seizure aborts the home test of the
port, and a non-forced exchange test if the port is in the lifeline condition (R118, R146). A trip that aborts no test
hands HOOK with reason TRIP where it seizes, ANSWERED, TRIP, and RING_END, ANSWERED (R116, R127, R129). That bits 2
and 3 of HOOK's flags and 3 of TEST_DONE's are 0 is the model's choice (DESIGN CHOICE, log entry 16). The generator's
over-limit input runs the ring fault timer for 200 ms while a port is in BURST, and its expiry ends the session of
every port then in BURST and no other, with RING_END, FAULT, cause RING_CURRENT, and a RING_FAULT of its port, cycles
done and step index (R128, R129); that port 1's fault is raised before port 2's is the model's choice (DESIGN CHOICE,
log entry 37). That the trip timer stands only under a burst is stated by RingingStaysPowered. That an expiry which is
not due changes nothing is the model's reading (DEDUCED, log entry 8). -/
def Obligations.TripsAndRingFaultsEndSessions : Prop :=
  (∀ (p : Port) (asserted : Bool) (s : State), (s.phase = .loading ∨ s.phase = .running) →
    exec (.ringTripInputChange p asserted) s = .next { s with
      pins := { s.pins with ringTrip := s.pins.ringTrip.set p asserted }
      ring := { s.ring with sessions := s.ring.sessions.set p ((session s p).map (fun x => { x with
        tripDue := if inBurst s p = true ∧ asserted = true then some (x.tripDue.getD (s.now + ms 40))
          else none })) } }) ∧
  (∀ (p : Port) (x : RingSession) (due : Time) (s : State), session s p = some x → x.tripDue = some due →
    (reached s.now due = false → exec (.tripTimerExpiry p) s = .next s) ∧
    (reached s.now due = true → inBurst s p = true →
      ∃ t, exec (.tripTimerExpiry p) s = .next t ∧ session t p = none ∧ slotRec t (portSlot p) = none ∧
        t.ring.generator.get p = false ∧ session t (otherPort p) = session s (otherPort p) ∧
        (∀ x, s.engine.test = some x → (s.port p).sup.state = .onHook ∨ (s.port p).sup.state = .seizing →
          seizureReaches p x s → testAborted .hookAbort x s t) ∧
        ((∀ x, s.engine.test = some x → ¬seizureReaches p x s) →
          ((s.port p).sup.state = .onHook ∨ (s.port p).sup.state = .seizing →
            (t.port p).sup.state = .offHook ∧ (t.port p).dial = [] ∧ (t.port p).sup.pulses = 0) ∧
          ((s.port p).sup.state = .onHook ∨ (s.port p).sup.state = .seizing →
            hands (hookOf p 2) [hookNoteOf s.now p true (lifelineCond s p) 2 0] s t) ∧
          ((s.port p).sup.state = .offHook → hands (hookOf p 2) [] s t) ∧
          hands (ofKind .answered) [answeredOf s.now p x 1] s t ∧
          hands (ofKind .ringEnd) [ringEndOf s.now p x 3 0] s t ∧
          t.lines = s.lines ∧ t.relays = s.relays ∧ t.settles = s.settles ∧
          t.ports.get (otherPort p) = s.ports.get (otherPort p)) ∧
        t = { s with
          channels := t.channels, lines := t.lines, relays := t.relays, settles := t.settles
          sched := t.sched, tracker := t.tracker, ports := t.ports, ring := t.ring, engine := t.engine
          faults := t.faults })) ∧
  (∀ (asserted : Bool) (s : State), (s.phase = .loading ∨ s.phase = .running) →
    exec (.ringCurrentLimitChange asserted) s = .next { s with
      pins := { s.pins with ringOver := asserted }
      ring := { s.ring with
        faultDue := if asserted = true ∧ (inBurst s .p1 = true ∨ inBurst s .p2 = true) then
            some (s.ring.faultDue.getD (s.now + ms 200)) else none } }) ∧
  (∀ s : State, (timerDue s.now s.ring.faultDue = false → exec .ringFaultTimerExpiry s = .next s) ∧
    (timerDue s.now s.ring.faultDue = true →
      ∃ t, exec .ringFaultTimerExpiry s = .next t ∧ t.ring.faultDue = none ∧
        (∀ p, inBurst s p = true → session t p = none ∧ slotRec t (portSlot p) = none ∧
          t.ring.generator.get p = false) ∧
        (∀ p, inBurst s p = false → session t p = session s p ∧ slotRec t (portSlot p) = slotRec s (portSlot p) ∧
          t.ports.get p = s.ports.get p) ∧
        (let rung : List (Port × RingSession) := [Port.p1, Port.p2].flatMap (fun p =>
          ((session s p).filter (fun _ => inBurst s p)).toList.map (fun x => (p, x)))
        hands (ofKind .ringEnd) (rung.map (fun y => ringEndOf s.now y.1 y.2 7 1)) s t ∧
        raises (rung.map (fun y => ⟨.ringFault, some (portNum y.1), some (BitVec.ofNat 32 y.2.cyclesDone),
          some (BitVec.ofNat 32 y.2.stepIndex), s.now⟩)) s t) ∧
        t = { s with
          channels := t.channels, sched := t.sched, tracker := t.tracker, ports := t.ports, ring := t.ring
          engine := t.engine, faults := t.faults }))

/-- An exchange onset with the line-break CLOSED counts a burst, stops the call gap, counts towards EXCHANGE_RINGS and
opens the EXCHANGE_BURST window; it hands UNPLANNED EXCHANGE_BURST with the bursts of the call, and EXCHANGE_RINGS at
every N-th onset (R57); it aborts a non-forced exchange test, RING_ABORT, with TEST_ABORTED, and TEST_DONE from NOTIFY
(R145, R146), whose bit 3 of the flags is 0 by the model's choice (DESIGN CHOICE, log entry 16), and without one it
changes nothing else. With the line-break OPEN only the pin changes. An offset ends the burst, closes the window and
starts the 8 s call gap in RINGING (R131). The gap's expiry ends the call with EXCHANGE_CALL_END, UNANSWERED (R132),
whose detail bytes 9 to 11 are free values (log entry 15). That an onset found where ringing is on already counts
again is the model's choice (DESIGN CHOICE, log entry 31), and that an expiry of the gap which is not due, and an
offset with no burst on, change nothing more than the pin is its reading (DEDUCED, log entry 8). -/
def Obligations.ExchangeRingingIsCounted : Prop :=
  (∀ s : State, (s.phase = .loading ∨ s.phase = .running) →
    let pins := { s.pins with exchangeRinging := true }
    let x := s.ring.exchange
    (s.relays.lineBreak = .open_ → exec .exchangeRingOnset s = .next { s with pins := pins }) ∧
    (s.relays.lineBreak = .closed →
      ∃ t, exec .exchangeRingOnset s = .next t ∧
        t.ring = { s.ring with exchange := { x with
          ringing := true, burstOn := true, gapDue := none, bursts := min 255 (x.bursts + 1)
          count := if x.every = 0 then x.count else if x.count + 1 = x.every then 0 else x.count + 1 } } ∧
        (ordinaryExchangeTest s = false →
          (∃ w ∈ t.sched.windows, .exchangeBurst ∈ w.keys) ∧
          t = { s with
            pins := pins, channels := t.channels, sched := t.sched, tracker := t.tracker, ring := t.ring
            engine := t.engine }) ∧
        (ordinaryExchangeTest s = true → ∀ y, t.engine.test = some y → y.phase = .release) ∧
        (∀ y, s.engine.test = some y → ordinaryExchangeTest s = true →
          testAborted .ringAbort y s t ∧ raises (abortFaults 3 s) s t) ∧
        hands (unplannedOf 3) [unplannedNoteOf s.now 3 none (min 255 (x.bursts + 1))] s t ∧
        hands (ofKind .exchangeRings) (if x.every ≠ 0 ∧ x.count + 1 = x.every then
          [(⟨.exchangeRings, 3, BitVec.ofNat 8 (min 255 (x.bursts + 1)), BitVec.ofNat 8 x.every, s.now, 0⟩, none)]
          else []) s t ∧
        t = { s with
          pins := pins, channels := t.channels, lines := t.lines, relays := t.relays, settles := t.settles
          sched := t.sched, tracker := t.tracker, ports := t.ports, ring := t.ring, engine := t.engine
          faults := t.faults })) ∧
  (∀ s : State, (s.phase = .loading ∨ s.phase = .running) →
    let pins := { s.pins with exchangeRinging := false }
    let x := s.ring.exchange
    (x.burstOn = false → exec .exchangeRingOffset s = .next { s with pins := pins }) ∧
    (x.burstOn = true → windowsSound s.sched.windows →
      ∃ t, exec .exchangeRingOffset s = .next t ∧
        t.ring = { s.ring with exchange := { x with
          burstOn := false, gapDue := if x.ringing then some (s.now + ms 8000) else x.gapDue } } ∧
        (∀ w ∈ t.sched.windows, .exchangeBurst ∉ w.keys) ∧
        t = { s with pins := pins, sched := t.sched, ring := t.ring, engine := t.engine })) ∧
  (∀ s : State,
    (timerDue s.now s.ring.exchange.gapDue = false → exec .callGapExpiry s = .next s) ∧
    (timerDue s.now s.ring.exchange.gapDue = true →
      exec .callGapExpiry s = .next { s with
        ring := { s.ring with exchange := { s.ring.exchange with
          ringing := false, gapDue := none, bursts := 0, count := 0 } }
        channels := (postSubscribed
          ⟨.exchangeCallEnd, 3, BitVec.ofNat 8 s.ring.exchange.bursts, 1, s.now,
            Config.spareBytes 19 s.now ++ 0#8⟩ s).channels }))

/-! ## Line tests (chapter 8) -/

/-- RUN TEST's checks in order, and an acceptance: the slot of the target holds a TEST_CONNECT record of 2M + 40 ms,
the current test names kind, target, requester, forced, limits and id, and stands in NOTIFY, or in CONNECT where a
lead of 0 starts it at once, with every member of the connect change set placed, the pre-test coupling recorded and
the TEST and RELAY windows opened (R44, R59); a home target's port is under test (R139, R140, R141). An occupied slot
answers BUSY_TEST. Every refusal leaves the state. -/
def Obligations.RunTestIsDecidedInOrder : Prop :=
  ∀ (r : Req) (kb tb force : Byte) (limits : List LimitArg) (s : State),
    frameTaken (.runTest r kb tb force limits) s →
    let i := Instr.runTest r kb tb force limits
    let refused (o : Code) := exec i s = .next (answered i o [] (frameIn i s))
    (s.engine.test.isSome = true → refused .busyTest) ∧
    (s.engine.test = none →
      (orderOf kb tb limits = none → refused .badRequest) ∧
      ∀ k target l, orderOf kb tb limits = some (k, target, l) →
        let forced := decide (target = .exchange) && (force != 0)
        let inUse : Prop := match target with
          | .exchange => forced = false ∧
            ((∃ p, portFitted s p = true ∧ lifelineCond s p = true ∧
              ((s.port p).sup.state = .offHook ∨ (s.port p).sup.state = .break_)) ∨
              s.ring.exchange.ringing = true)
          | .home p => (s.port p).sup.state ≠ .onHook ∨ (session s p).isSome = true
        let switching : Prop := ∃ p, target = .home p ∧ (s.port p).switch.isSome = true
        (target = .home .p2 ∧ s.twoPorts = false → refused .notFitted) ∧
        ((target = .home .p2 → s.twoPorts = true) →
          (s.power.state = .reserve → refused .lowPower) ∧
          (s.power.state ≠ .reserve →
            (target = .exchange ∧ s.faults.isolation ≠ .normal → refused .isolated) ∧
            (¬(target = .exchange ∧ s.faults.isolation ≠ .normal) →
              (holderOf s (targetFunc target) ≠ some r.channel → refused .notHolder) ∧
              (holderOf s (targetFunc target) = some r.channel →
                (forced = true ∧ 0 < effLevel r → refused .privilege) ∧
                (¬(forced = true ∧ 0 < effLevel r) →
                  (inUse → refused .busyVoice) ∧
                  (¬inUse → switching → refused .busy) ∧
                  (¬inUse → ¬switching →
                    ((slotRec s (targetSlot target)).isSome = true → refused .busyTest) ∧
                    (slotRec s (targetSlot target) = none →
                      ∃ t id x, exec i s = .next t ∧
                        respondedWith i .accepted
                          ([id, kb] ++ halfBytes (BitVec.ofNat 16 k.measureMs)) s t ∧
                        t.engine.test = some x ∧
                        x.phase = (if s.sched.lead = 0 then .connect else .notify) ∧ x.kind = k ∧
                        x.target = target ∧ x.requester = r.channel ∧ x.viaGate = none ∧
                        x.granted = false ∧ x.forced = forced ∧ x.limits = l ∧ x.id = id ∧ x.clean = 0 ∧
                        x.abort = none ∧ x.values = none ∧
                        slotRec t (targetSlot target) = some ⟨id, .testConnect, targetPort target,
                          if s.sched.lead = 0 then .active s.now else .notified (s.now + ms s.sched.lead),
                          some (2 * k.measureMs + 40), !forced⟩ ∧
                        (∀ p, target = .home p → (t.port p).underTest = true) ∧
                        (s.sched.lead ≠ 0 → t = { s with
                          gateway := t.gateway, modem := t.modem, channels := t.channels
                          sched := t.sched, ports := t.ports, engine := t.engine }) ∧
                        (s.sched.lead = 0 → t.relays = connectedRelays target s.relays ∧
                          x.preTest = (match target with | .exchange => some s.relays.dsl | .home _ => none) ∧
                          windowOpened (testWindow s.now target id) 4 s t ∧
                          windowOpened (relayWindow s.now (some id)) 4 s t) ∧
                        t = { s with
                          gateway := t.gateway, modem := t.modem, channels := t.channels
                          relays := t.relays, settles := t.settles, sched := t.sched
                          tracker := t.tracker, ports := t.ports, engine := t.engine
                          faults := t.faults }))))))))

/-- RUN GATED TEST: checks 1 to 7; then a free function at a sufficient descriptor level is granted by the gate, one
the channel holds is used as held, another's answers BUSY and a level below the request's PRIVILEGE; a refusal after
the grant leaves the function as it was; an acceptance runs the gate's kind, target and limits, not forced, in NOTIFY,
or under a lead of 0 in CONNECT, its relays placed and its TEST and RELAY windows opened (R38, R59, R140, R141, R154).
The gate level check reads the gate's level against the effective level. -/
def Obligations.GatedTestsUseTheirGate : Prop :=
  ∀ (r : Req) (b : Byte) (s : State), frameTaken (.runGatedTest r b) s →
    let i := Instr.runGatedTest r b
    let refused (o : Code) := exec i s = .next (answered i o [] (frameIn i s))
    (3 < b.toNat → refused .badRequest) ∧
    (b.toNat ≤ 3 → s.engine.gates.get b.toNat = none → refused .noGate) ∧
    ∀ g, b.toNat ≤ 3 → s.engine.gates.get b.toNat = some g →
      let f := targetFunc g.target
      let e := s.lines.table.get f
      let inUse : Prop := match g.target with
        | .exchange => (∃ p, portFitted s p = true ∧ lifelineCond s p = true ∧
            ((s.port p).sup.state = .offHook ∨ (s.port p).sup.state = .break_)) ∨
          s.ring.exchange.ringing = true
        | .home p => (s.port p).sup.state ≠ .onHook ∨ (session s p).isSome = true
      let switching : Prop := ∃ p, g.target = .home p ∧ (s.port p).switch.isSome = true
      (g.level < effLevel r → refused .privilege) ∧
      (effLevel r ≤ g.level →
        (s.engine.test.isSome = true → refused .busyTest) ∧
        (s.engine.test = none →
          (g.target = .home .p2 ∧ s.twoPorts = false → refused .notFitted) ∧
          ((g.target = .home .p2 → s.twoPorts = true) →
            (s.power.state = .reserve → refused .lowPower) ∧
            (s.power.state ≠ .reserve →
              (g.target = .exchange ∧ s.faults.isolation ≠ .normal → refused .isolated) ∧
              (¬(g.target = .exchange ∧ s.faults.isolation ≠ .normal) →
                (e.hold = none → e.level < effLevel r → refused .privilege) ∧
                (∀ h, e.hold = some h → h.holder ≠ r.channel → refused .busy) ∧
                ((e.hold = none ∧ effLevel r ≤ e.level ∨ ∃ h, e.hold = some h ∧ h.holder = r.channel) →
                  (inUse → refused .busyVoice) ∧
                  (¬inUse → switching → refused .busy) ∧
                  (¬inUse → ¬switching →
                    ((slotRec s (targetSlot g.target)).isSome = true → refused .busyTest) ∧
                    (slotRec s (targetSlot g.target) = none →
                      ∃ t id x, exec i s = .next t ∧
                        respondedWith i .accepted ([id, BitVec.ofNat 8 g.kind.code] ++
                          halfBytes (BitVec.ofNat 16 g.kind.measureMs)) s t ∧
                        t.engine.test = some x ∧ x.kind = g.kind ∧ x.target = g.target ∧
                        x.limits = g.limits ∧ x.requester = r.channel ∧ x.viaGate = some b.toNat ∧
                        x.forced = false ∧ x.granted = decide (e.hold = none) ∧ x.id = id ∧
                        (e.hold = none → t.lines.claims = s.lines.claims ∧ t.lines.table = s.lines.table.set f
                          ⟨e.level, some ⟨r.channel, effLevel r, s.uptime, some b.toNat⟩⟩) ∧
                        (e.hold ≠ none → t.lines = s.lines) ∧
                        x.phase = (if s.sched.lead = 0 then .connect else .notify) ∧
                        (s.sched.lead = 0 → t.relays = connectedRelays g.target s.relays ∧
                          windowOpened (testWindow s.now g.target id) 4 s t ∧
                          windowOpened (relayWindow s.now (some id)) 4 s t) ∧
                        t = { s with
                          gateway := t.gateway, modem := t.modem, channels := t.channels
                          lines := t.lines, relays := t.relays, settles := t.settles, sched := t.sched
                          tracker := t.tracker, ports := t.ports, engine := t.engine
                          faults := t.faults }))))))))

/-- ABORT TEST: aborted 0 with no test or in RELEASE; refused to another channel above level 0; otherwise TEST_ABORTED
is raised, and the test ends ABORTED from NOTIFY, with TEST_DONE, or goes to RELEASE with the clean time counted so
far (R145, R146, R147, R149; the second result byte of an IDLE answer is log entry 9's, and the 0 in bit 3 of
TEST_DONE's flags is the model's choice, DESIGN CHOICE, log entry 16). The clean timer ends MEASURE with clean time M
and its values; the wall timer with values, short values or none by the clean time over the period (R143), and the
test enters RELEASE: the test bus DISCONNECTED, the DSL path at the pre-test coupling and the pass-throughs, or the
port's pass-through and feed, at the resting positions, with a RELAY window (R59, R92, R144). The readings are the
circuits', each saturated and marked as its kind gives, and the length is computed (R135, R136). The clean time over a
span counts the instants, in µs, that no exclusion interval and no span from the open mark covers (R142). That the
expiry of either timer which is not due changes nothing is the model's reading (DEDUCED, log entry 8). -/
def Obligations.TestsAreAbortedOrMeasured : Prop :=
  (∀ (r : Req) (s : State), frameTaken (.abortTest r) s →
    let i := Instr.abortTest r
    (s.engine.test = none → exec i s = .next (answered i .ok [0, 0] (frameIn i s))) ∧
    ∀ x, s.engine.test = some x →
      (r.channel ≠ x.requester ∧ 0 < effLevel r → exec i s = .next (answered i .privilege [] (frameIn i s))) ∧
      (¬(r.channel ≠ x.requester ∧ 0 < effLevel r) →
        (x.phase = .release → exec i s = .next (answered i .ok [0, 4] (frameIn i s))) ∧
        (x.phase = .notify → x.abort = none →
          ∃ t, exec i s = .next t ∧ respondedWith i .ok [1, 0] s t ∧ t.engine.test = none ∧
            t.engine.result = some ⟨x.kind, x.target, x.requester, x.viaGate, x.forced, .aborted,
              some .requested, [], x.clean, s.now⟩ ∧ t.relays = s.relays ∧
            raises (abortFaults 1 s) s t ∧ hands (ofKind .testDone) [abortDoneOf s.now x .requested] s t ∧
            t = { s with
              gateway := t.gateway, modem := t.modem, channels := t.channels, lines := t.lines
              sched := t.sched, tracker := t.tracker, ports := t.ports, ring := t.ring
              engine := t.engine, faults := t.faults }) ∧
        ((x.phase = .connect ∨ x.phase = .measure) → x.abort = none →
          ∃ t y, exec i s = .next t ∧ respondedWith i .ok [1, 4] s t ∧ t.engine.test = some y ∧
            y = { x with phase := .release, abort := some .requested, clean := y.clean } ∧
            y.clean = cleanAt x s.now ∧ t.relays = releasedRelays x t s.relays ∧
            windowOpened (relayWindow s.now (some x.id)) 3 s t ∧
            raises (abortFaults 1 s) s t ∧ hands (ofKind .testDone) [] s t ∧
            (x.phase = .measure → t.engine.cleanDue = none ∧ t.engine.wallDue = none) ∧
            t.lines = s.lines ∧ t.ring = s.ring ∧ slotRec t = slotRec s))) ∧
  (∀ (readings : Readings) (x : Test) (s : State), s.engine.test = some x → x.phase = .measure →
    let m := x.kind.measureMs * 1000
    let clean := cleanOver x.exclusions x.openMark (2 * m)
    let measured (short : Bool) := some (takeMeasurements x.kind readings s.engine.cable short)
    let released (c : Instr) (clean : Nat) (values : Option (List Measurement)) (short : Bool) : Prop :=
      ∃ t, exec c s = .next t ∧
        t.engine = { s.engine with
          wallDue := none, cleanDue := none
          test := some { x with phase := .release, clean := clean, values := values, short := short } } ∧
        t.relays = releasedRelays x t s.relays ∧ windowOpened (relayWindow s.now (some x.id)) 3 s t ∧
        t = { s with
          channels := t.channels, relays := t.relays, settles := t.settles, sched := t.sched
          tracker := t.tracker, ports := t.ports, engine := t.engine, faults := t.faults }
    (timerDue s.now s.engine.cleanDue = false → exec (.cleanTimerExpiry readings) s = .next s) ∧
    (timerDue s.now s.engine.wallDue = false → exec (.wallTimerExpiry readings) s = .next s) ∧
    (timerDue s.now s.engine.cleanDue = true →
      released (.cleanTimerExpiry readings) m (measured false) false) ∧
    (timerDue s.now s.engine.wallDue = true →
      (m ≤ clean → released (.wallTimerExpiry readings) clean (measured false) false) ∧
      (clean < m → m ≤ 2 * clean → released (.wallTimerExpiry readings) clean (measured true) true) ∧
      (2 * clean < m → released (.wallTimerExpiry readings) clean none false))) ∧
  (∀ (readings : Readings) (cable : Nat) (short : Bool), 300 ≤ cable →
    let upTo (n : Nat) (hi v : Int) : Measurement := ⟨n, min hi v, decide (hi < v), short, none⟩
    let dc (n : Nat) (v : Int) : Measurement :=
      ⟨n, max (-250000) (min 250000 v), decide (250000 < v ∨ v < -250000), short, none⟩
    let length := min 20000 readings.m1 * 1000 / (cable : Int)
    takeMeasurements .loopDc readings cable short = [dc 1 readings.m1, upTo 2 10000000 readings.m2] ∧
    takeMeasurements .insulation readings cable short =
      [upTo 1 10000000 readings.m1, upTo 2 10000000 readings.m2] ∧
    takeMeasurements .foreign readings cable short =
      [upTo 1 250000 readings.m1, upTo 2 250000 readings.m2, dc 3 readings.m3, dc 4 readings.m4] ∧
    takeMeasurements .capacitance readings cable short = [upTo 1 20000 readings.m1,
      ⟨2, min 65535 length, decide (20000 < readings.m1 ∨ 65535 < length), short, none⟩] ∧
    takeMeasurements .homeRingers readings cable short =
      [upTo 1 100 readings.m1, upTo 2 10000000 readings.m2]) ∧
  (∀ (l : List (Nat × Nat)) (mark : Option Nat) (n : Nat), (∀ i ∈ l, i.1 ≤ i.2) →
    l.Pairwise (fun a b => a.2 ≤ b.1) →
      cleanOver l mark n = ((List.range n).filter (fun k =>
        !(l.any (fun i => decide (i.1 ≤ k ∧ k < i.2)) || mark.any (fun m => decide (m ≤ k))))).length)

/-- The completions of a test's change sets. After the connect change set the test is in MEASURE from S, the present,
with the wall timer at S + 2M and the first reading taken: the windows that stand are excluded, the earliest open
foreign window is the open mark, and the clean timer stands at the first instant whose clean time is M, if there is
one by S + 2M (R141, R142). After the release change set the test is over: the record ends, the outcome and the
verdicts stand in the result record, TEST_FAIL is raised for FAIL, TEST_DONE is handed, a gated hold is released, a
home port is no longer under test, and a supervisor left frozen is restarted (R113, R144, R145). A detached release
ends its record and closes a TEST window still its own (R148). A completion that another phase meets is ignored
(R147). Bit 3 of TEST_DONE's flags is 0 by the model's choice (log entry 16). -/
def Obligations.TestChangeSetsComplete : Prop :=
  (∀ (rest : List Settle) (s : State), takeSettle s.now .testConnect s.settles = some rest →
    ((∀ x, s.engine.test = some x → x.phase ≠ .connect) →
      exec (.changeSetComplete .testConnect) s = .next { s with settles := rest }) ∧
    (∀ x, s.engine.test = some x → x.phase = .connect → x.exclusions = [] → windowsForward s →
      s.tracker.forecast.length ≤ 4 → s.sched.windows.length ≤ 8 →
      let m := x.kind.measureMs * 1000
      ∃ t y, exec (.changeSetComplete .testConnect) s = .next t ∧
        y = { x with phase := .measure, start := some s.now, exclusions := y.exclusions, openMark := y.openMark } ∧
        t = { s with
          settles := rest
          engine := { s.engine with
            test := some y, wallDue := some (s.now + us (2 * m)), cleanDue := t.engine.cleanDue } } ∧
        (∀ k, k < 2 * m → (excludedNow s x.id k ↔ ∃ i ∈ y.exclusions, i.1 ≤ k ∧ k < i.2)) ∧
        ((∀ w ∈ s.sched.windows, ¬foreignOpen x.id w) → y.openMark = none) ∧
        (∀ w ∈ s.sched.windows, foreignOpen x.id w →
          ∃ mark, y.openMark = some mark ∧ mark ≤ (offset s.now w.start).toNat ∧
            ∃ v ∈ s.sched.windows, foreignOpen x.id v ∧ mark = (offset s.now v.start).toNat) ∧
        (y.openMark ≠ none → t.engine.cleanDue = none) ∧
        (y.openMark = none →
          ((∀ c, c ≤ 2 * m → cleanOver y.exclusions none c < m) → t.engine.cleanDue = none) ∧
          (∀ c, c ≤ 2 * m → cleanOver y.exclusions none c = m → (∀ b, b < c → cleanOver y.exclusions none b < m) →
            t.engine.cleanDue = some (s.now + us c))))) ∧
  (∀ (rest : List Settle) (s : State), takeSettle s.now .testRelease s.settles = some rest →
    ((∀ x, s.engine.test = some x → x.phase ≠ .release) →
      exec (.changeSetComplete .testRelease) s = .next { s with settles := rest }) ∧
    (∀ x, s.engine.test = some x → x.phase = .release →
      let f := targetFunc x.target
      let verdict (n : Measurement) : Option Verdict := (x.limits.find? (fun l => decide (l.number = n.number))).map
        (fun l => if l.low ≤ n.value ∧ n.value ≤ l.high then .pass else .fail)
      let listed : List Measurement := if x.abort = none then
        (x.values.getD []).map (fun n => { n with verdict := verdict n }) else []
      let failing := listed.find? (fun n => decide (n.verdict = some .fail))
      let outcome : TestOutcome :=
        if x.abort ≠ none then .aborted else if x.values = none then .noisy
        else if x.limits = [] then .noVerdict else if failing = none then .pass else .fail
      let reason : Nat := match x.abort with
        | none => 0 | some .requested => 1 | some .hookAbort => 2 | some .ringAbort => 3 | some .faultAbort => 4
        | some .holdLost => 5 | some .requesterReset => 6 | some .powerAbort => 7
      let told : Notice := ⟨.testDone, 5, BitVec.ofNat 8 x.kind.code,
        BitVec.ofNat 8 ((match outcome with
          | .pass => 0 | .fail => 1 | .noVerdict => 2 | .noisy => 3 | .aborted => 4) +
          (match x.target with | .exchange => 0 | .home .p1 => 16 | .home .p2 => 32) +
          (if x.short then 64 else 0) + (if x.viaGate.isSome then 128 else 0)), s.now,
        x.id ++ (BitVec.ofNat 8 reason ++ BitVec.ofNat 16 (x.clean / 1000))⟩
      let ended : State := { s with channels := (endSlot (targetSlot x.target) s).channels }
      let judged : State := match outcome, failing with
        | .fail, some n => raiseFault ⟨.testFail, some x.kind.code, some (BitVec.ofNat 32 n.number),
            some (BitVec.ofInt 32 n.value), s.now⟩ ended
        | _, _ => ended
      let gated := x.granted = true ∧ ∃ g h, x.viaGate = some g ∧ (s.lines.table.get f).hold = some h ∧
        h.holder = x.requester ∧ h.viaGate = some g
      ∃ t, exec (.changeSetComplete .testRelease) s = .next t ∧
        t.engine = { s.engine with
          test := none, wallDue := none, cleanDue := none
          result := some ⟨x.kind, x.target, x.requester, x.viaGate, x.forced, outcome, x.abort, listed, x.clean,
            s.now⟩ } ∧
        slotRec t (targetSlot x.target) = none ∧
        (windowsSound s.sched.windows → ∀ w ∈ t.sched.windows, .test ∉ w.keys) ∧
        t.faults.log = judged.faults.log ∧ t.faults.capture = judged.faults.capture ∧
        (¬gated → t.channels = (postCompletion told x.requester judged).channels ∧ t.lines = s.lines ∧
          t.ring = s.ring) ∧
        (gated →
          (match s.lines.claims.find? (fun e => decide (e.function = f)) with
            | some e => t.lines.table = s.lines.table.set f
                ⟨(s.lines.table.get f).level, some ⟨e.channel, e.level, s.uptime, none⟩⟩ ∧
              t.lines.claims = s.lines.claims.filter (fun y => !isClaim e.channel f y)
            | none => t.lines.table = s.lines.table.set f ⟨(s.lines.table.get f).level, none⟩ ∧
              t.lines.claims = s.lines.claims) ∧
          (∀ p y, portFunc p = f → session s p = some y → y.issuer = x.requester → session t p = none)) ∧
        (x.target = .exchange → t.ports = s.ports) ∧
        (∀ p, x.target = .home p → (t.port p).underTest = false ∧ t.ports.get (otherPort p) = s.ports.get (otherPort p) ∧
          ((s.port p).denial = none → (s.port p).switch = none → (s.port p).sup.frozen.isSome = true →
            (t.port p).sup.frozen = none ∧
              ((t.port p).sup.state = .onHook ∨ (t.port p).sup.state = .seizing))) ∧
        t = { s with
          channels := t.channels, lines := t.lines, settles := rest, sched := t.sched, tracker := t.tracker
          ports := t.ports, ring := t.ring, engine := t.engine, faults := t.faults })) ∧
  (∀ (rest : List Settle) (s : State), takeSettle s.now .detachedRelease s.settles = some rest →
    (s.engine.detached = none → exec (.changeSetComplete .detachedRelease) s = .next { s with settles := rest }) ∧
    ∀ d, s.engine.detached = some d →
      ∃ t, exec (.changeSetComplete .detachedRelease) s = .next t ∧ t.engine.detached = none ∧
        slotRec t .test = none ∧ t.channels = (endSlot .test s).channels ∧
        (d.holdsKey = true → windowsSound s.sched.windows → ∀ w ∈ t.sched.windows, .test ∉ w.keys) ∧
        (d.holdsKey = false → t.sched.windows = s.sched.windows ∧
          t.engine = { s.engine with detached := none }) ∧
        t = { s with
          channels := t.channels, settles := rest, sched := t.sched, engine := { s.engine with
            detached := none, test := t.engine.test, cleanDue := t.engine.cleanDue } })

/-! ## Isolation and detectors (chapter 9) -/

/-- The isolation states: a hard-fault event in NORMAL opens the line-break and enters ISOLATING, dwell 1, for 2 000
ms; in ISOLATING it gives LOCKOUT; in LOCKOUT it changes neither; it leaves no exchange test in flight (R146, R148,
R162). The dwell's expiry closes the line-break when the hazard is clear, else begins the second dwell, else gives
LOCKOUT (R163). RELEASE LOCKOUT closes the line-break for level 0 with the hazard clear (R165; the cause byte of an
answer that finds no lockout is log entry 9's, DEDUCED). Each opening and closing opens a RELAY window (R59) and is
handed as UNPLANNED with its detail, each change of the state and the second dwell as ISOLATION with its reason (R57,
R164). A hard-fault event raises LOCKOUT where it escalates, then its own fault with the state before and the hazard
level or the dwell as details, then TEST_ABORTED of a test it aborts; entry into LOCKOUT from a dwell raises LOCKOUT
and the like (R156, R158, R163). That TEST_ABORTED waits for the event's end, and that nothing waits afterwards, is
log entry 13's coding of R156 (DEDUCED); that a hazard assertion is an event where the input stands asserted already
is the model's choice (DESIGN CHOICE, log entry 31), and that a dwell expiry which is not due changes nothing its
reading (DEDUCED, log entry 8). -/
def Obligations.IsolationFollowsHardFaults : Prop :=
  (∀ (c : Instr) (cls : FaultClass) (pins : Pins) (s : State), (s.phase = .loading ∨ s.phase = .running) →
    (c = .surge ∧ cls = .surge ∧ pins = s.pins ∨
      c = .hazardAssert ∧ cls = .hazardVoltage ∧ pins = { s.pins with hazard := true }) →
      let u := s.faults
      let before : Nat := match u.isolation with | .normal => 0 | .isolating _ _ _ _ => 1 | .lockout _ _ _ => 2
      let dwell : Nat := match u.isolation with | .isolating d _ _ _ => d | _ => 0
      let own : Raised := ⟨cls, none, some (BitVec.ofNat 32 before),
        some (if cls = .surge then (if s.pins.hazard then 1 else 0) else BitVec.ofNat 32 dwell), s.now⟩
      let lockout : List Raised :=
        if before = 1 then [⟨.lockout, none, some 1, some (BitVec.ofNat 32 cls.num), s.now⟩] else []
      ∃ t, exec c s = .next t ∧
        (u.isolation = .normal →
          t.relays.lineBreak = .open_ ∧ t.faults.isolation = .isolating 1 (some (s.now + ms 2000)) cls s.uptime ∧
          ⟨.lineBreak, s.now + ms 20⟩ ∈ t.settles ∧ windowOpened (relayWindow s.now none) 7 s t ∧
          hands (unplannedOf 4) [unplannedNoteOf s.now 4 none cls.num] s t ∧
          hands (ofKind .isolation) [isolationNoteOf s.now 1 1 cls.num 1] s t) ∧
        (∀ d due cause since, u.isolation = .isolating d due cause since →
          t.faults.isolation = .lockout .secondFault cause since ∧
          t.relays.lineBreak = s.relays.lineBreak ∧ hands (unplannedOf 4) [] s t ∧
          hands (ofKind .isolation) [isolationNoteOf s.now 2 4 cause.num 0] s t) ∧
        (∀ why cause since, u.isolation = .lockout why cause since →
          t.faults.isolation = u.isolation ∧ t.relays.lineBreak = s.relays.lineBreak ∧
          hands (unplannedOf 4) [] s t ∧ hands (ofKind .isolation) [] s t) ∧
        (faultsIdle s → (∀ x, s.engine.test = some x → x.phase ≠ .release ∨ x.target ≠ .exchange) →
          raises (lockout ++ own :: abortFaults 4 s) s t) ∧
        (∀ x, t.engine.test = some x → x.target ≠ .exchange) ∧
        t.faults.taking = false ∧ t.faults.waiting = [] ∧
        t = { s with
          pins := pins, channels := t.channels, lines := t.lines, relays := t.relays, settles := t.settles
          sched := t.sched, tracker := t.tracker, ports := t.ports, ring := t.ring, engine := t.engine
          faults := t.faults }) ∧
  (∀ (d : Nat) (due : Option Time) (cause : FaultClass) (since : BitVec 32) (s : State),
    s.faults.isolation = .isolating d due cause since →
    (timerDue s.now due = false → exec .dwellExpiry s = .next s) ∧
    (timerDue s.now due = true →
      ∃ t, exec .dwellExpiry s = .next t ∧
        (s.pins.hazard = false → t.relays.lineBreak = .closed ∧ t.faults.isolation = .normal ∧
          ⟨.lineBreak, s.now + ms 20⟩ ∈ t.settles ∧ windowOpened (relayWindow s.now none) 7 s t ∧
          hands (unplannedOf 5) [unplannedNoteOf s.now 5 none 0] s t ∧
          hands (ofKind .isolation) [isolationNoteOf s.now 0 3 0xFF 0] s t) ∧
        (s.pins.hazard = true → d = 1 →
          t.faults.isolation = .isolating 2 (some (s.now + ms 2000)) cause since ∧
          t.channels = (handAll [isolationNoteOf s.now 1 2 cause.num 2] s).channels ∧
          t = { s with channels := t.channels, faults := { s.faults with isolation := t.faults.isolation } }) ∧
        (s.pins.hazard = true → d = 2 →
          t.faults.isolation = .lockout .persistentHazard cause since ∧
          t.relays.lineBreak = s.relays.lineBreak ∧ hands (unplannedOf 5) [] s t ∧
          hands (ofKind .isolation) [isolationNoteOf s.now 2 5 cause.num 0] s t ∧
          (faultsIdle s → (∀ x, s.engine.test = some x → x.phase ≠ .release ∨ x.target ≠ .exchange) →
            raises (⟨.lockout, none, some 2, some 2, s.now⟩ :: abortFaults 4 s) s t)) ∧
        t = { s with
          channels := t.channels, lines := t.lines, relays := t.relays, settles := t.settles
          sched := t.sched, tracker := t.tracker, ports := t.ports, ring := t.ring, engine := t.engine
          faults := t.faults })) ∧
  (∀ (r : Req) (s : State), frameTaken (.releaseLockout r) s →
    let i := Instr.releaseLockout r
    (0 < effLevel r → exec i s = .next (answered i .privilege [] (frameIn i s))) ∧
    (effLevel r = 0 →
      ((∀ why cause since, s.faults.isolation ≠ .lockout why cause since) →
        exec i s = .next (answered i .ok [0, 0] (frameIn i s))) ∧
      ∀ why cause since, s.faults.isolation = .lockout why cause since →
        (s.pins.hazard = true → exec i s = .next (answered i .hazardPresent [] (frameIn i s))) ∧
        (s.pins.hazard = false →
          ∃ t, exec i s = .next t ∧
            respondedWith i .ok [1, match why with | .secondFault => 1 | .persistentHazard => 2] s t ∧
            t.relays.lineBreak = .closed ∧ t.faults.isolation = .normal ∧
            ⟨.lineBreak, s.now + ms 20⟩ ∈ t.settles ∧ windowOpened (relayWindow s.now none) 7 s t ∧
            hands (unplannedOf 5) [unplannedNoteOf s.now 5 none 1] s t ∧
            hands (ofKind .isolation) [isolationNoteOf s.now 0 6 0xFF 0] s t ∧
            t = { s with
              gateway := t.gateway, modem := t.modem, channels := t.channels, lines := t.lines
              relays := t.relays, settles := t.settles, sched := t.sched, tracker := t.tracker
              ports := t.ports, ring := t.ring, engine := t.engine, faults := t.faults })))

/-- The detectors: a thermal assertion ends every ring session and raises THERMAL with their number (R159); the
exchange DC sense runs the battery watch for 5 s while its conditions hold, and the watch's expiry sets lost and
raises LINE_BATTERY_LOST with the timer's start; a deassertion clears lost in silence (R160). Each session that a
thermal assertion ends is told to its issuer with RING_END, THERMAL (R129). The hazard's and the thermal input's
deassertions change nothing but their pin (R158, R159). That the expiry of a watch which is stopped or not due changes
nothing is the model's reading (DEDUCED, log entry 8), and that a thermal assertion is taken as a new one where the
input stands asserted already is its choice (DESIGN CHOICE, log entry 31). -/
def Obligations.DetectorsRaiseTheirFaults : Prop :=
  (∀ s : State,
    exec .hazardDeassert s = .next { s with pins := { s.pins with hazard := false } } ∧
    exec .thermalDeassert s = .next { s with pins := { s.pins with thermal := false } }) ∧
  (∀ s : State, (s.phase = .loading ∨ s.phase = .running) →
    let n := (if (session s .p1).isSome then 1 else 0) + (if (session s .p2).isSome then 1 else 0)
    ∃ t u, exec .thermalAssert s = .next t ∧
      t = raiseFault ⟨.thermal, none, some (BitVec.ofNat 32 n), some 0, s.now⟩ u ∧
      session u .p1 = none ∧ session u .p2 = none ∧ hands (ofKind .ringEnd) (sessionsEnd 8 s) s u ∧
      (session s .p1 = none → session s .p2 = none → u = { s with pins := { s.pins with thermal := true } }) ∧
      u = { s with
        pins := { s.pins with thermal := true }, channels := u.channels, sched := u.sched
        tracker := u.tracker, ports := u.ports, ring := u.ring, engine := u.engine, faults := u.faults }) ∧
  (∀ (low : Bool) (s : State), (s.phase = .loading ∨ s.phase = .running) →
    let w := s.faults.watch
    let lost := low && w.lost
    let hold := low = true ∧ s.relays.lineBreak = .closed ∧ s.relays.bus ≠ .exchange ∧ lost = false ∧
      ∀ p, portFitted s p = true → lifelineCond s p = true → (s.port p).sup.state ≠ .offHook
    ∃ started, exec (.exchangeDcLowChange low) s = .next { s with
        pins := { s.pins with dcLow := low }
        faults := { s.faults with watch := ⟨started, lost⟩ } } ∧
      (hold → started = some (w.started.getD s.now)) ∧ (¬hold → started = none)) ∧
  (∀ s : State,
    (s.faults.watch.started = none → exec .batteryWatchExpiry s = .next s) ∧
    ∀ t0, s.faults.watch.started = some t0 →
      (reached s.now (t0 + ms 5000) = false → exec .batteryWatchExpiry s = .next s) ∧
      (reached s.now (t0 + ms 5000) = true →
        exec .batteryWatchExpiry s = .next (raiseFault ⟨.lineBatteryLost, none, some t0, some 0, s.now⟩
          { s with faults := { s.faults with watch := ⟨none, true⟩ } })))

/-! ## Fault log, capture and fault notices (chapter 10) -/

/-- Taking a fault of level above 0: it coalesces into the newest record of its class and source at most 10 s old, or
is logged with the next sequence number, the oldest record leaving a full log under KEEP_NEWEST and the fault being
discarded under KEEP_FIRST (R169); a logged fault above the captured level, or the first, is captured (R172); and each
channel gets a FAULT notice, or, for a soft class held by its mask, threshold or the quiet period, a pending latch,
which takes the place of a latch of its class; a soft fault that is not held clears that latch, and a hard one leaves
the latches (R174, R175). A fault of level 0 changes nothing (R156). That the bits of FAULT's flags that R175 does not
name are 0 is the model's choice (DESIGN CHOICE, log entry 16), and that faults wait while one is being taken is its
coding of the order R156 gives (DEDUCED, log entry 13). -/
def Obligations.FaultsAreLoggedAndNoticed : Prop :=
  ∀ (f : Raised) (s : State),
    let u := s.faults
    let level := levelOf u.levels f.cls
    (u.taking = true → raiseFault f s = { s with faults := { u with waiting := u.waiting ++ [f] } }) ∧
    (u.taking = false → raiseFault f s = takeFault f s) ∧
    (level = 0 → takeFault f s = s) ∧
    (level ≠ 0 →
      let joins (r : LogRecord) : Prop :=
        u.log.getLast? = some r ∧ r.cls = f.cls ∧ r.source = f.source ∧ (s.uptime - r.lastTime).toNat ≤ 10
      let record : LogRecord := ⟨u.nextSeq, f.cls, level, f.source, s.uptime, s.uptime, f.detail1, f.detail2, 1⟩
      ∃ (t : State) (seq : BitVec 32) (logged joined : Bool), takeFault f s = t ∧
        t = { s with channels := t.channels, faults := t.faults } ∧
        t.faults = { u with
          log := t.faults.log, nextSeq := t.faults.nextSeq, discarded := t.faults.discarded
          capture := t.faults.capture, channels := t.faults.channels } ∧
        (∀ r, joins r → seq = r.sequence ∧ logged = true ∧ joined = true ∧
          t.faults.nextSeq = u.nextSeq ∧ t.faults.discarded = u.discarded ∧
          t.faults.log = u.log.dropLast ++ [{ r with
            repeats := min 255 (r.repeats + 1), lastTime := s.uptime, detail1 := f.detail1
            detail2 := f.detail2, level := max r.level level }]) ∧
        ((∀ r, ¬joins r) →
          (u.log.length < 32 ∨ u.policy = .keepNewest → seq = u.nextSeq ∧ logged = true ∧ joined = false ∧
            t.faults.nextSeq = u.nextSeq + 1 ∧ t.faults.discarded = u.discarded ∧
            t.faults.log = (if u.log.length < 32 then u.log else u.log.tail) ++ [record]) ∧
          (32 ≤ u.log.length → u.policy = .keepFirst → seq = 0 ∧ logged = false ∧ joined = false ∧
            t.faults.nextSeq = u.nextSeq ∧ t.faults.discarded = true ∧ t.faults.log = u.log)) ∧
        (logged = true ∧ (∀ c, u.capture = some c → c.level < level) → t.faults.capture =
          some ⟨f.cls, level, seq, s.uptime, f.time, f.detail1, f.detail2⟩) ∧
        (¬(logged = true ∧ (∀ c, u.capture = some c → c.level < level)) → t.faults.capture = u.capture) ∧
        ∀ c : Channel,
          let k := u.channels.get c
          let held := level ≠ 8 ∧ (k.masks.getLsbD f.cls.num = true ∨ level ≤ k.threshold ∨
            (u.quiet ≠ none ∧ level ≤ 6))
          (held → t.channels.get c = s.channels.get c ∧
            ⟨f.cls, seq, level, f.source, !logged, joined⟩ ∈ (t.faults.channels.get c).latches ∧
            ∀ x ∈ (t.faults.channels.get c).latches, x.cls = f.cls →
              x = ⟨f.cls, seq, level, f.source, !logged, joined⟩) ∧
          (¬held → level ≠ 8 → ∀ x ∈ (t.faults.channels.get c).latches, x.cls ≠ f.cls) ∧
          (level = 8 → (t.faults.channels.get c).latches = k.latches) ∧
          (¬held → t.channels.get c = enqueue ⟨.fault, level, BitVec.ofNat 8 f.cls.num,
              BitVec.ofNat 8 ((if logged then 0 else 2) + (if joined then 4 else 0) + 16 * f.source.getD 0),
              f.time, seq⟩ (s.channels.get c)) ∧
          (t.faults.channels.get c).masks = k.masks ∧ (t.faults.channels.get c).threshold = k.threshold ∧
          ∀ x, x.cls ≠ f.cls → (x ∈ (t.faults.channels.get c).latches ↔ x ∈ k.latches))

/-- The channel settings: SET MASKS takes the soft classes' bits, SET THRESHOLD clamps to 7, and each then releases
the requester's latches that are no longer held, and no other channel's, handing each to that channel as a latched
FAULT notice in natural order (R174, R176; that bit 3 of its flags is 0 is the model's choice, log entry 16). CLEAR
PENDING clears the latches named without a notice (R178). A quiet period starts or is extended, and at its end, asked
or expired, the latches no longer held are released and handed on every channel, and those still held by mask or
threshold stay (R177). CLEAR LOG and CLEAR CAPTURE empty their record alone (R171, R173). That a quiet expiry which is
not due changes nothing is the model's reading (DEDUCED, log entry 8). -/
def Obligations.FaultSettingsAct : Prop :=
  (∀ (r : Req) (m : Half) (v : Byte) (s t : State) (i : Instr),
    (i = .setMasks r m ∨ i = .setThreshold r v) → frameTaken i s → exec i s = .next t →
      let k := s.faults.channels.get r.channel
      let after := t.faults.channels.get r.channel
      let held (x : Latch) : Prop := after.masks.getLsbD x.cls.num = true ∨ x.level ≤ after.threshold ∨
        (s.faults.quiet ≠ none ∧ x.level ≤ 6)
      (i = .setMasks r m → respondedWith i .ok (halfBytes after.masks) s t ∧ after.threshold = k.threshold ∧
        ∀ n, after.masks.getLsbD n = (m.getLsbD n && decide (3 ≤ n ∧ n ≤ 13))) ∧
      (i = .setThreshold r v → respondedWith i .ok [BitVec.ofNat 8 after.threshold] s t ∧
        after.masks = k.masks ∧ after.threshold = min v.toNat 7) ∧
      (∀ x ∈ after.latches, x ∈ k.latches ∧ held x) ∧
      (∀ x ∈ k.latches, (∀ y ∈ k.latches, y.cls = x.cls → y = x) → held x → x ∈ after.latches) ∧
      t.channels.get r.channel = latchesHanded s.now
        (k.latches.filter (fun x => !stillHeld s.faults.quiet.isSome after x)) (s.channels.get r.channel) ∧
      (∀ c, c ≠ r.channel → t.channels.get c = s.channels.get c ∧
        t.faults.channels.get c = s.faults.channels.get c) ∧
      t = { s with
        gateway := t.gateway, modem := t.modem, channels := t.channels
        faults := { s.faults with channels := t.faults.channels } }) ∧
  (∀ (r : Req) (m : Half) (v : Byte) (s : State),
    (frameTaken (.setMasks r m) s → ∃ t, exec (.setMasks r m) s = .next t) ∧
    (frameTaken (.setThreshold r v) s → ∃ t, exec (.setThreshold r v) s = .next t)) ∧
  (∀ (r : Req) (classes : Half) (s : State), frameTaken (.clearPending r classes) s →
    let i := Instr.clearPending r classes
    let u := frameIn i s
    let k := s.faults.channels.get r.channel
    let named := k.latches.filter (fun x => classes.getLsbD x.cls.num)
    exec i s = .next (answered i .ok [BitVec.ofNat 8 named.length] { u with faults := { u.faults with
      channels := u.faults.channels.set r.channel
        { k with latches := k.latches.filter (fun x => !classes.getLsbD x.cls.num) } } })) ∧
  (∀ (r : Req) (n : Half) (s : State), frameTaken (.startQuiet r n) s →
    let i := Instr.startQuiet r n
    let u := frameIn i s
    let used := max 1 (min 3600 n.toNat)
    let asked := s.uptime + BitVec.ofNat 32 used
    let stop := match s.faults.quiet with
      | none => asked
      | some e => if offset s.uptime e < offset s.uptime asked then asked else e
    (1 < effLevel r → exec i s = .next (answered i .privilege [] u)) ∧
    (effLevel r ≤ 1 → exec i s = .next (answered i .ok
      (halfBytes (BitVec.ofNat 16 used) ++ halfBytes (BitVec.ofNat 16 (stop - s.uptime).toNat))
      { u with faults := { u.faults with quiet := some stop } }))) ∧
  (∀ (r : Req) (s : State),
    let i := Instr.endQuiet r
    let ends (t : State) : Prop := t.faults.quiet = none ∧
      (∀ ch, ∀ x ∈ (t.faults.channels.get ch).latches, x ∈ (s.faults.channels.get ch).latches ∧
        ((s.faults.channels.get ch).masks.getLsbD x.cls.num = true ∨
          x.level ≤ (s.faults.channels.get ch).threshold)) ∧
      (∀ ch, ∀ x ∈ (s.faults.channels.get ch).latches,
        (∀ y ∈ (s.faults.channels.get ch).latches, y.cls = x.cls → y = x) →
        (s.faults.channels.get ch).masks.getLsbD x.cls.num = true ∨ x.level ≤ (s.faults.channels.get ch).threshold →
          x ∈ (t.faults.channels.get ch).latches) ∧
      (∀ ch, (t.faults.channels.get ch).masks = (s.faults.channels.get ch).masks ∧
        (t.faults.channels.get ch).threshold = (s.faults.channels.get ch).threshold) ∧
      (∀ ch, t.channels.get ch = latchesHanded s.now ((s.faults.channels.get ch).latches.filter
        (fun x => !stillHeld false (s.faults.channels.get ch) x)) (s.channels.get ch)) ∧
      t = { s with
        gateway := t.gateway, modem := t.modem, channels := t.channels
        faults := { s.faults with quiet := none, channels := t.faults.channels } }
    (frameTaken i s →
      (1 < effLevel r → exec i s = .next (answered i .privilege [] (frameIn i s))) ∧
      (effLevel r ≤ 1 → s.faults.quiet = none → exec i s = .next (answered i .ok [0] (frameIn i s))) ∧
      (effLevel r ≤ 1 → s.faults.quiet ≠ none →
        ∃ t, exec i s = .next t ∧ respondedWith i .ok [1] s t ∧ ends t)) ∧
    (timerDue s.uptime s.faults.quiet = false → exec .quietExpiry s = .next s) ∧
    (timerDue s.uptime s.faults.quiet = true →
      ∃ t, exec .quietExpiry s = .next t ∧ t.gateway = s.gateway ∧ t.modem = s.modem ∧ ends t)) ∧
  (∀ (r : Req) (s : State),
    (frameTaken (.clearLog r) s →
      let i := Instr.clearLog r
      let u := frameIn i s
      exec i s = .next (if 1 < effLevel r then answered i .privilege [] u
        else answered i .ok [BitVec.ofNat 8 s.faults.log.length]
          { u with faults := { u.faults with log := [], discarded := false } })) ∧
    (frameTaken (.clearCapture r) s →
      let i := Instr.clearCapture r
      let u := frameIn i s
      exec i s = .next (if 1 < effLevel r then answered i .privilege [] u
        else answered i .ok [if s.faults.capture.isSome then 1 else 0]
          { u with faults := { u.faults with capture := none } })))

/-! ## Power, settings, supply and reset (chapter 11) -/

/-- A change of a power input is recorded and moves the power state by the table; on battery since is set on leaving
MAINS and cleared on return (R179). A return to MAINS or a move from RESERVE to BATTERY changes nothing else. A move
to BATTERY leaves at most one burst on and every relay, mode and test: of two bursts it cuts the one begun later, or
port 2's of two begun together, which counts as skipped (R126); it raises MAINS_LOST (R180). Entry into RESERVE drops
every relay but the line-break to its default and ends every settle, session, switch, denial and test (R46, R103,
R180): it hands UNPLANNED RESERVE_FALLBACK (R57), RING_END, POWER, of every session (R129), MODE_DONE, POWER, of every
port's switch and of the DSL's, whose slot is then empty, as it is with no DSL switch in flight (RelaysStaySafe; R40,
R46, R98), and, of a port where no burst was on, HOOK, POWER, if its mode was not LIFELINE and its supervisor stood at
OFF_HOOK or BREAK before any freezing (R103, R116), after a flash or a release that the new loop source ends a break
with (R106, R110); and it raises TEST_ABORTED of a test that it aborts, MAINS_LOST from MAINS with the state after,
and BATTERY_RESERVE with the state before and the seconds on battery (R146, R180). That TEST_ABORTED comes first
follows R180's steps. That a port in another mode than LIFELINE takes the new source before its restart is the model's
choice (DESIGN CHOICE, log entry 46), and so are the 0 in bits 2 and 3 of HOOK's flags and 4 to 7 of DIGIT's (log
entry 16); that byte 10 of MODE_DONE, POWER, is 0 and that a port is restarted, and HOOK handed, once, are its
readings (DEDUCED, log entries 20 and 14); the DSL notice's bytes 9 to 11 are free values (log entry 15). -/
def Obligations.PowerInputsMoveTheState : Prop :=
  ∀ (c : Instr) (pins : Pins) (s : State), (s.phase = .loading ∨ s.phase = .running) →
    ((∃ a, c = .mainsInputChange a ∧ pins = { s.pins with mains := a }) ∨
      (∃ a, c = .reserveInputChange a ∧ pins = { s.pins with reserve := a })) →
    let m := pins.mains
    let v := pins.reserve
    let new : PowerState := match s.power.state, m, v with
      | .mains, true, _ => .mains
      | .mains, false, true => .reserve
      | .mains, false, false => .battery
      | .battery, true, _ => .mains
      | .battery, false, true => .reserve
      | .battery, false, false => .battery
      | .reserve, true, _ => .mains
      | .reserve, false, true => .reserve
      | .reserve, false, false => .battery
    let since := if new = s.power.state then s.power.since else if new = .mains then none
      else if s.power.state = .mains then some s.uptime else s.power.since
    (new = s.power.state ∨ new = .mains ∨ (s.power.state = .reserve ∧ new = .battery) →
      exec c s = .next { s with pins := pins, power := ⟨new, m, v, since⟩ }) ∧
    (s.power.state = .mains → new = .battery →
      ∃ t, exec c s = .next t ∧ t.power = ⟨new, m, v, since⟩ ∧ t.relays = s.relays ∧
        ¬(inBurst t .p1 = true ∧ inBurst t .p2 = true) ∧
        (∀ t1 t2, burstingSince s .p1 t1 → burstingSince s .p2 t2 →
          let cut : Port := if offset s.now t2 < offset s.now t1 then .p1 else .p2
          session t cut = (session s cut).map (fun x => { x with
            state := .silent true, tripDue := none, skipped := min 255 (x.skipped + 1) }) ∧
          session t (otherPort cut) = session s (otherPort cut) ∧
          t.ports.get (otherPort cut) = s.ports.get (otherPort cut) ∧
          t.ring.generator = s.ring.generator.set cut false ∧ (t.port cut).sup.masked = false) ∧
        (¬(inBurst s .p1 = true ∧ inBurst s .p2 = true) → t.ring = s.ring ∧ t.ports = s.ports) ∧
        (∀ p, (session t p).isSome = (session s p).isSome ∧ (t.port p).mode = (s.port p).mode) ∧
        raises [⟨.mainsLost, none, some 1, some 0, s.now⟩] s t ∧ hands (unplannedOf 6) [] s t ∧
        t = { s with
          pins := pins, channels := t.channels, sched := t.sched, tracker := t.tracker, ports := t.ports
          ring := t.ring, engine := t.engine, faults := t.faults, power := t.power }) ∧
    (s.power.state ≠ .reserve → new = .reserve →
      ∃ t, exec c s = .next t ∧ t.power = ⟨new, m, v, since⟩ ∧
        t.relays = ⟨s.relays.lineBreak, ⟨.closed, .closed⟩, ⟨.off, .off⟩, .coupled, .disconnected⟩ ∧
        t.settles = [] ∧ t.dsl = none ∧ t.engine.test = none ∧ t.engine.detached = none ∧
        (∀ p, session t p = none ∧ (t.port p).mode = .lifeline ∧ (t.port p).switch = none ∧
          (t.port p).denial = none ∧ (t.port p).overload = none) ∧
        hands (unplannedOf 6) [unplannedNoteOf s.now 6 none 0] s t ∧
        hands (ofKind .ringEnd) (sessionsEnd 6 s) s t ∧
        (∀ p, hands (fun n => ofKind .modeDone n && decide (n.subject.toNat = portNum p))
          ((s.port p).switch.toList.map (fun w => switchDoneOf s.now p w 2 .lifeline false)) s t) ∧
        (∀ p, inBurst s p = false →
          let q := s.port p
          let b := (s.now - q.sup.breakStart).toNat
          let made := portFitted s p = true ∧ q.sup.frozen = none ∧ q.sup.masked = false ∧ q.sup.loop = false ∧
            q.sup.state = .break_ ∧ s.pins.loopPass.get p = true ∧ s.relays.lineBreak = .closed
          let long := made ∧ q.sup.breakTiming.glitch * 1000 ≤ b ∧ q.sup.breakTiming.pulseMax * 1000 < b
          let flash := long ∧ b < q.sup.breakTiming.flashMax * 1000
          let released := long ∧ ¬flash
          let digit := digitDone s.now p q
          hands (hookOf p 1) (if released then
            [hookNoteOf s.now p false (lifelineCond s p) 1 q.sup.breakStart] else []) s t ∧
          hands (fun n => ofKind .digit n && decide (n.subject.toNat = portNum p))
            (if flash ∧ lifelineCond s p = false then digit.2 ++ [digitOf s.now p .flash 0 digit.1] else []) s t ∧
          hands (hookOf p 5) (if q.mode ≠ .lifeline ∧ inCall (q.sup.frozen.getD q.sup.state) = true ∧ ¬released then
            [hookNoteOf s.now p false true 5 0] else []) s t ∧
          (q.mode ≠ .lifeline → (t.port p).sup.frozen = none ∧ (t.port p).sup.state =
            if portFitted s p = true ∧ s.pins.loopPass.get p = true ∧ s.relays.lineBreak = .closed then .seizing
            else .onHook)) ∧
        (dslSlotted s → slotRec t .dsl = none) ∧ hands (fun n => ofKind .modeDone n && decide (n.subject = 0))
          (s.dsl.toList.map (fun w => dslDoneOf s.now w 2 .coupled)) s t ∧
        ((∀ x, s.engine.test = some x → x.phase ≠ .release) → raises (abortFaults 7 s ++
          (if s.power.state = .mains then [⟨.mainsLost, none, some 2, some 0, s.now⟩] else []) ++
          [⟨.batteryReserve, none, some (if s.power.state = .mains then 0 else 1),
            some (s.uptime - since.getD s.uptime), s.now⟩]) s t) ∧
        t = { s with
          pins := pins, channels := t.channels, lines := t.lines, relays := t.relays, settles := t.settles
          dsl := t.dsl, sched := t.sched, tracker := t.tracker, ports := t.ports, ring := t.ring
          engine := t.engine, faults := t.faults, power := t.power })

/-- SAVE SETTINGS: its checks in order, and an acceptance that copies every item in force and starts the write, under
which the image fails its check (R184). The write's completion makes the image the copy, or leaves it failing its
check with STORE_FAULT, and hands SAVE_DONE to the requester (R185). That a completion with no save in flight changes
nothing is the model's reading (DEDUCED, log entry 8). -/
def Obligations.SavesWriteTheCopy : Prop :=
  (∀ (r : Req) (s : State), frameTaken (.saveSettings r) s →
    let i := Instr.saveSettings r
    let u := frameIn i s
    (1 < effLevel r → exec i s = .next (answered i .privilege [] u)) ∧
    (effLevel r ≤ 1 →
      (s.power.state = .reserve → exec i s = .next (answered i .lowPower [] u)) ∧
      (s.power.state ≠ .reserve →
        (s.store.saving.isSome = true → exec i s = .next (answered i .storeBusy [] u)) ∧
        (s.store.saving = none → exec i s = .next (answered i .accepted (wordBytes s.now)
          { u with store := { u.store with
            image := .disagreeing, saving := some ⟨settingsOf s, r.channel, s.now⟩ } }))))) ∧
  (∀ s : State, (s.store.saving = none → ∀ b, exec (.writeCompletion b) s = .next s) ∧
    ∀ x, s.store.saving = some x →
      let handed (flags : Byte) (image : Image) (last : LastSave) : State := { s with
        store := { s.store with image := image, saving := none, lastSave := last }
        channels := (postCompletion ⟨.saveDone, 5, 0, flags, s.now, x.acceptedAt⟩ x.requester s).channels }
      exec (.writeCompletion true) s = .next (handed 0 (.written x.items) .ok) ∧
      exec (.writeCompletion false) s = .next (raiseFault ⟨.storeFault, none, some 2, some 0, s.now⟩
        (handed 1 .disagreeing .writeFailed))) ∧
  (∀ (x : Settings) (s : State), settingsOf (putInForce x s) = x)

/-- Supply and resets: loss of supply leaves the image and the line-break; a power-on reset starts the clocks at 0,
sets the line-break by the hazard, samples straps and power inputs, and is not ready until the load completes, which
puts the good image's, the factory or the failed check's values in force, with STORE_FAULT after a failed check; a
hazard found at the start then has UNPLANNED ISOLATION_OPEN, ISOLATION, START_UP, its first dwell and HAZARD_VOLTAGE
(R167, R179, R182, R183, R186). The reset pin keeps uptime, every setting, the log and the image, loses the save in
flight, and its release restarts the part, ready, with the same notices and fault of a hazard found, but in LOCKOUT
(R167, R187). That a reset-pin event without its state, or a load that is not under way, changes nothing is the
model's reading (DEDUCED, log entry 8). That the input pins' levels stand through all of these (log entry 3), that a
pin asserted during the load abandons it with the values in force kept (log entry 24), and that commands not yet
reached outlive a loss of supply and a power-on (log entry 30), are the model's choices (DESIGN CHOICE), and so are
that the start-up's notices and fault carry the completion's timebase (log entry 39), that a LOCKOUT reached during
the load has none of them (log entry 44), and that a power-on with the reset input asserted starts all the same (log
entry 48). -/
def Obligations.SupplyAndResetsRestartThePart : Prop :=
  (∀ s : State, ∃ t, exec .supplyLoss s = .next t ∧ t.phase = .unpowered ∧ t.gateway.ready = false ∧
    t.modem.ready = false ∧ t.store.image = s.store.image ∧ t.store.saving = none ∧
    t.relays = ⟨s.relays.lineBreak, ⟨.closed, .closed⟩, ⟨.off, .off⟩, .coupled, .disconnected⟩ ∧
    t.pins = s.pins ∧ t.pending = s.pending) ∧
  (∀ (x : Straps) (s : State), ∃ t, exec (.powerOnReset x) s = .next t ∧ t.phase = .loading ∧
    t.clock = ⟨0, 0, 0⟩ ∧ t.gateway.ready = false ∧ t.modem.ready = false ∧ t.store.image = s.store.image ∧
    t.store.saving = none ∧ t.twoPorts = decide (x = .twoPorts) ∧
    t.relays = ⟨if s.pins.hazard then .open_ else .closed, ⟨.closed, .closed⟩, ⟨.off, .off⟩, .coupled,
      .disconnected⟩ ∧
    t.faults.isolation = (if s.pins.hazard then .isolating 1 none .hazardVoltage 0 else .normal) ∧
    t.power = ⟨if s.pins.mains then .mains else if s.pins.reserve then .reserve else .battery, s.pins.mains,
      s.pins.reserve, if s.pins.mains then none else some 0⟩ ∧
    t.faults.log = [] ∧ t.faults.nextSeq = 1 ∧ t.lines.claims = [] ∧ (∀ p, session t p = none) ∧
    t.engine.test = none ∧ t.pins = s.pins ∧ t.pending = s.pending) ∧
  (∀ (done : Bool) (s : State),
    (s.phase ≠ .loading → exec (.settingsLoadComplete done) s = .next s) ∧
    (s.phase = .loading →
      ∃ t, exec (.settingsLoadComplete done) s = .next t ∧ t.phase = .running ∧ t.gateway.ready = true ∧
        t.modem.ready = true ∧ (s.engine.test = none → t.relays = s.relays) ∧
        (done = true → s.store.image = .blank →
          settingsOf t = factorySettings ∧ t.store.loadResult = .blank) ∧
        (∀ y, done = true → s.store.image = .written y → y.valid = true →
          settingsOf t = y ∧ t.store.loadResult = .good) ∧
        ((done = false ∨ s.store.image = .disagreeing ∨
            ∃ y, s.store.image = .written y ∧ y.valid = false) →
          settingsOf t = { factorySettings with levels := ⟨0, 0, 0, 0, 0⟩ } ∧
            t.store.loadResult = .checkFailed) ∧
        (let under : State := { s with faults := { s.faults with levels := t.faults.levels, policy := t.faults.policy } }
        let failed : List Raised := if t.store.loadResult = .checkFailed then
          [⟨.storeFault, none, some 1, some 0, s.now⟩] else []
        (∀ d cause since, s.faults.isolation = .isolating d none cause since → s.engine.test = none → faultsIdle s →
          t.faults.isolation = .isolating d (some (s.now + ms 2000)) cause since ∧
          hands (unplannedOf 4) [unplannedNoteOf s.now 4 none 1] s t ∧
          hands (ofKind .isolation) [isolationNoteOf s.now 1 7 cause.num d] s t ∧
          raises (failed ++ [⟨.hazardVoltage, none, some 0, some 1, s.now⟩]) under t) ∧
        ((∀ d cause since, s.faults.isolation ≠ .isolating d none cause since) →
          t.faults.isolation = s.faults.isolation ∧ hands (unplannedOf 4) [] s t ∧
          hands (ofKind .isolation) [] s t ∧ raises failed under t)))) ∧
  (∀ s : State,
    (s.phase = .unpowered → exec .resetPinAssert s = .next s) ∧
    (s.phase ≠ .unpowered →
      ∃ t, exec .resetPinAssert s = .next t ∧ t.phase = .inReset ∧ t.clock.timebase = 0 ∧
        t.clock.uptime = s.clock.uptime ∧ settingsOf t = settingsOf s ∧ t.faults.log = s.faults.log ∧
        t.faults.nextSeq = s.faults.nextSeq ∧ t.faults.capture = s.faults.capture ∧
        t.gateway.ready = false ∧ t.modem.ready = false ∧ t.store.image = s.store.image ∧
        t.store.saving = none ∧ t.store.lastSave = .none ∧ t.pins = s.pins ∧
        t.relays = ⟨s.relays.lineBreak, ⟨.closed, .closed⟩, ⟨.off, .off⟩, .coupled, .disconnected⟩)) ∧
  (∀ (x : Straps) (s : State),
    (s.phase ≠ .inReset → exec (.resetPinRelease x) s = .next s) ∧
    (s.phase = .inReset →
      ∃ t, exec (.resetPinRelease x) s = .next t ∧ t.phase = .running ∧ t.gateway.ready = true ∧
        t.modem.ready = true ∧ t.twoPorts = decide (x = .twoPorts) ∧ t.clock.uptime = s.clock.uptime ∧
        settingsOf t = settingsOf s ∧ t.store.image = s.store.image ∧ t.faults.policy = s.faults.policy ∧
        (∀ why c since, s.faults.isolation = .lockout why c since →
          t.faults.isolation = s.faults.isolation ∧ t.relays.lineBreak = s.relays.lineBreak) ∧
        ((∀ why c since, s.faults.isolation ≠ .lockout why c since) →
          t.relays.lineBreak = (if s.pins.hazard then .open_ else .closed) ∧
          t.faults.isolation =
            (if s.pins.hazard then .isolating 1 (some (ms 2000)) .hazardVoltage s.uptime else .normal)) ∧
        (let fresh (c : Channel) : ChannelRec := ⟨defaultSubs c, [], false⟩
        let unit (c : Channel) : FaultChannel := ⟨defaultMasks c, 0, []⟩
        let under : State := { s with
          clock := { s.clock with timebase := 0 }
          channels := ⟨fresh .modem, fresh .management, fresh .gateway⟩
          faults := { s.faults with
            channels := ⟨unit .modem, unit .management, unit .gateway⟩, quiet := none, taking := false
            waiting := [] } }
        let starts : Bool := s.pins.hazard && (match s.faults.isolation with | .lockout _ _ _ => false | _ => true)
        hands (unplannedOf 4) (if starts then [unplannedNoteOf 0 4 none 1] else []) under t ∧
        hands (ofKind .isolation) (if starts then [isolationNoteOf 0 1 7 1 1] else []) under t ∧
        raises (if starts then [⟨.hazardVoltage, none, some 0, some 1, 0⟩] else []) under t)))

/-! ## Conditions every step keeps -/

/-- Every step keeps every notice queue at 16 entries at most, in queue order, with at most one FORECAST and one
TRACK_STATE (R15, R16, R17). -/
def Obligations.NoticeQueuesStaySound : Prop :=
  ∀ s t : State, queuesSound s → step s = .next t → queuesSound t

/-- Every step keeps the test bus rule (R44), the line-break OPEN outside NORMAL (R161), and the DSL slot occupied only
while a DSL switch is in flight (R40). -/
def Obligations.RelaysStaySafe : Prop :=
  ∀ s t : State, step s = .next t → (busSafe s → busSafe t) ∧ (breakOpen s → breakOpen t) ∧
    (dslSlotted s → dslSlotted t)

/-- Every step keeps the claim queue at 8 entries at most, one for a channel and function, each for a function that
another channel holds, and in queue order, lower level first (R29). -/
def Obligations.ClaimQueueStaysSound : Prop :=
  ∀ s t : State, step s = .next t → (claimsSound s → claimsSound t) ∧ (claimsOrdered s → claimsOrdered t)

/-- Every step keeps edges seen at the sum of its six categories (R85), and the tracker's counters and period in their
ranges (R68, R69). -/
def Obligations.TrackerStaysSound : Prop :=
  ∀ s t : State, step s = .next t → (countsSum s.tracker.counts → countsSum t.tracker.counts) ∧
    (trackerSound s.tracker → trackerSound t.tracker)

/-- Every step keeps the fault log at 32 records at most with consecutive sequence numbers (R168), and every setting
in force in its owner's range (R182); and between commands the fault unit takes no fault and none waits (R156, in the
coding of log entry 13, DEDUCED), and every channel's latches stand in natural order, one for a class at most (R174,
R176). -/
def Obligations.LogAndSettingsStaySound : Prop :=
  ∀ s t : State, step s = .next t → (logSound s.faults → logSound t.faults) ∧
    (settingsSound s → settingsSound t) ∧ (faultsIdle s → faultsIdle t) ∧ (latchesOrdered s → latchesOrdered t)

/-- Every step keeps the generator's power limits (R125, R126), the timers of a frozen or masked supervisor standing
still (R113), and a trip timer running only under a burst (R127). -/
def Obligations.RingingStaysPowered : Prop :=
  ∀ s t : State, step s = .next t → (ringPowered s → ringPowered t) ∧ (supervisorsStill s → supervisorsStill t) ∧
    (tripsInBurst s → tripsInBurst t)

/-- Every step keeps the blanking-window list at 8 windows at most, each open exactly while a key holds it and no key
in two (R58, R60, R62), and the lists a response reports in their bounds: 8 claims (R29), 4 forecast windows (R81),
24 dial records a port (R114), 4 measurements of a test (R135) and 4 limits of a gate (R151). -/
def Obligations.WindowsAndListsStayBounded : Prop :=
  ∀ s t : State, step s = .next t → (windowsSound s.sched.windows → windowsSound t.sched.windows) ∧
    (listsBounded s → listsBounded t)

/-- The state after reset meets every condition that every step keeps. -/
def Obligations.ResetMeetsEveryCondition : Prop :=
  let s := State.reset
  queuesSound s ∧ busSafe s ∧ breakOpen s ∧ dslSlotted s ∧ claimsSound s ∧ claimsOrdered s ∧
    countsSum s.tracker.counts ∧ trackerSound s.tracker ∧ logSound s.faults ∧ settingsSound s ∧ faultsIdle s ∧
    latchesOrdered s ∧ ringPowered s ∧ supervisorsStill s ∧ tripsInBurst s ∧
    windowsSound s.sched.windows ∧ listsBounded s
end

