-- ==== Sys2Proof/Laws/State.lean ====
section
/-! SUPPORT. What each update of one part of the state does to each part, and the laws of the indexed groups. -/

namespace Sys2Proof.Machine

/-! ## Indexed groups -/

section
variable {α : Type}

/-- Reading the entry just written. -/
@[simp] theorem PerPort.get_set_same (x : PerPort α) (p : Port) (v : α) : (x.set p v).get p = v := by
  cases p <;> rfl

/-- Reading another entry than the one written. -/
@[simp] theorem PerPort.get_set_other (x : PerPort α) (p j : Port) (v : α) (h : j ≠ p) :
    (x.set p v).get j = x.get j := by
  cases p <;> cases j <;> first | rfl | exact absurd rfl h

/-- Reading after a write. -/
theorem PerPort.get_set (x : PerPort α) (p j : Port) (v : α) :
    (x.set p v).get j = if j = p then v else x.get j := by
  cases p <;> cases j <;> rfl

/-- Reading the entry just written. -/
@[simp] theorem PerChan.get_set_same (x : PerChan α) (c : Channel) (v : α) : (x.set c v).get c = v := by
  cases c <;> rfl

/-- Reading another entry than the one written. -/
@[simp] theorem PerChan.get_set_other (x : PerChan α) (c j : Channel) (v : α) (h : j ≠ c) :
    (x.set c v).get j = x.get j := by
  cases c <;> cases j <;> first | rfl | exact absurd rfl h

/-- Reading after a write. -/
theorem PerChan.get_set (x : PerChan α) (c j : Channel) (v : α) :
    (x.set c v).get j = if j = c then v else x.get j := by
  cases c <;> cases j <;> rfl

/-- Reading the entry just written. -/
@[simp] theorem PerFunc.get_set_same (x : PerFunc α) (f : Func) (v : α) : (x.set f v).get f = v := by
  cases f <;> rfl

/-- Reading another entry than the one written. -/
@[simp] theorem PerFunc.get_set_other (x : PerFunc α) (f j : Func) (v : α) (h : j ≠ f) :
    (x.set f v).get j = x.get j := by
  cases f <;> cases j <;> first | rfl | exact absurd rfl h

/-- Reading after a write. -/
theorem PerFunc.get_set (x : PerFunc α) (f j : Func) (v : α) :
    (x.set f v).get j = if j = f then v else x.get j := by
  cases f <;> cases j <;> rfl

/-- Reading the entry just written. -/
@[simp] theorem PerSlot.get_set_same (x : PerSlot α) (i : SlotId) (v : α) : (x.set i v).get i = v := by
  cases i <;> rfl

/-- Reading another entry than the one written. -/
@[simp] theorem PerSlot.get_set_other (x : PerSlot α) (i j : SlotId) (v : α) (h : j ≠ i) :
    (x.set i v).get j = x.get j := by
  cases i <;> cases j <;> first | rfl | exact absurd rfl h

/-- Reading after a write. -/
theorem PerSlot.get_set (x : PerSlot α) (i j : SlotId) (v : α) :
    (x.set i v).get j = if j = i then v else x.get j := by
  cases i <;> cases j <;> rfl

end

/-! ## Updates of the state -/

namespace State
variable (s : State)

@[simp] theorem setPending_pending (q : List Instr) : (s.setPending q).pending = q := rfl
@[simp] theorem setPending_phase (q : List Instr) : (s.setPending q).phase = s.phase := rfl
@[simp] theorem setPending_clock (q : List Instr) : (s.setPending q).clock = s.clock := rfl
@[simp] theorem setPending_pins (q : List Instr) : (s.setPending q).pins = s.pins := rfl
@[simp] theorem setPending_twoPorts (q : List Instr) : (s.setPending q).twoPorts = s.twoPorts := rfl
@[simp] theorem setPending_gateway (q : List Instr) : (s.setPending q).gateway = s.gateway := rfl
@[simp] theorem setPending_modem (q : List Instr) : (s.setPending q).modem = s.modem := rfl
@[simp] theorem setPending_channels (q : List Instr) : (s.setPending q).channels = s.channels := rfl
@[simp] theorem setPending_lines (q : List Instr) : (s.setPending q).lines = s.lines := rfl
@[simp] theorem setPending_relays (q : List Instr) : (s.setPending q).relays = s.relays := rfl
@[simp] theorem setPending_settles (q : List Instr) : (s.setPending q).settles = s.settles := rfl
@[simp] theorem setPending_dsl (q : List Instr) : (s.setPending q).dsl = s.dsl := rfl
@[simp] theorem setPending_sched (q : List Instr) : (s.setPending q).sched = s.sched := rfl
@[simp] theorem setPending_tracker (q : List Instr) : (s.setPending q).tracker = s.tracker := rfl
@[simp] theorem setPending_ports (q : List Instr) : (s.setPending q).ports = s.ports := rfl
@[simp] theorem setPending_ring (q : List Instr) : (s.setPending q).ring = s.ring := rfl
@[simp] theorem setPending_engine (q : List Instr) : (s.setPending q).engine = s.engine := rfl
@[simp] theorem setPending_faults (q : List Instr) : (s.setPending q).faults = s.faults := rfl
@[simp] theorem setPending_power (q : List Instr) : (s.setPending q).power = s.power := rfl
@[simp] theorem setPending_store (q : List Instr) : (s.setPending q).store = s.store := rfl
@[simp] theorem setPending_occasion (q : List Instr) : (s.setPending q).occasion = s.occasion := rfl

@[simp] theorem setPhase_pending (v : Phase) : (s.setPhase v).pending = s.pending := rfl
@[simp] theorem setPhase_phase (v : Phase) : (s.setPhase v).phase = v := rfl
@[simp] theorem setPhase_clock (v : Phase) : (s.setPhase v).clock = s.clock := rfl
@[simp] theorem setPhase_pins (v : Phase) : (s.setPhase v).pins = s.pins := rfl
@[simp] theorem setPhase_twoPorts (v : Phase) : (s.setPhase v).twoPorts = s.twoPorts := rfl
@[simp] theorem setPhase_gateway (v : Phase) : (s.setPhase v).gateway = s.gateway := rfl
@[simp] theorem setPhase_modem (v : Phase) : (s.setPhase v).modem = s.modem := rfl
@[simp] theorem setPhase_channels (v : Phase) : (s.setPhase v).channels = s.channels := rfl
@[simp] theorem setPhase_lines (v : Phase) : (s.setPhase v).lines = s.lines := rfl
@[simp] theorem setPhase_relays (v : Phase) : (s.setPhase v).relays = s.relays := rfl
@[simp] theorem setPhase_settles (v : Phase) : (s.setPhase v).settles = s.settles := rfl
@[simp] theorem setPhase_dsl (v : Phase) : (s.setPhase v).dsl = s.dsl := rfl
@[simp] theorem setPhase_sched (v : Phase) : (s.setPhase v).sched = s.sched := rfl
@[simp] theorem setPhase_tracker (v : Phase) : (s.setPhase v).tracker = s.tracker := rfl
@[simp] theorem setPhase_ports (v : Phase) : (s.setPhase v).ports = s.ports := rfl
@[simp] theorem setPhase_ring (v : Phase) : (s.setPhase v).ring = s.ring := rfl
@[simp] theorem setPhase_engine (v : Phase) : (s.setPhase v).engine = s.engine := rfl
@[simp] theorem setPhase_faults (v : Phase) : (s.setPhase v).faults = s.faults := rfl
@[simp] theorem setPhase_power (v : Phase) : (s.setPhase v).power = s.power := rfl
@[simp] theorem setPhase_store (v : Phase) : (s.setPhase v).store = s.store := rfl
@[simp] theorem setPhase_occasion (v : Phase) : (s.setPhase v).occasion = s.occasion := rfl

@[simp] theorem setOccasion_pending (n : Nat) : (s.setOccasion n).pending = s.pending := rfl
@[simp] theorem setOccasion_phase (n : Nat) : (s.setOccasion n).phase = s.phase := rfl
@[simp] theorem setOccasion_clock (n : Nat) : (s.setOccasion n).clock = s.clock := rfl
@[simp] theorem setOccasion_pins (n : Nat) : (s.setOccasion n).pins = s.pins := rfl
@[simp] theorem setOccasion_twoPorts (n : Nat) : (s.setOccasion n).twoPorts = s.twoPorts := rfl
@[simp] theorem setOccasion_gateway (n : Nat) : (s.setOccasion n).gateway = s.gateway := rfl
@[simp] theorem setOccasion_modem (n : Nat) : (s.setOccasion n).modem = s.modem := rfl
@[simp] theorem setOccasion_channels (n : Nat) : (s.setOccasion n).channels = s.channels := rfl
@[simp] theorem setOccasion_lines (n : Nat) : (s.setOccasion n).lines = s.lines := rfl
@[simp] theorem setOccasion_relays (n : Nat) : (s.setOccasion n).relays = s.relays := rfl
@[simp] theorem setOccasion_settles (n : Nat) : (s.setOccasion n).settles = s.settles := rfl
@[simp] theorem setOccasion_dsl (n : Nat) : (s.setOccasion n).dsl = s.dsl := rfl
@[simp] theorem setOccasion_sched (n : Nat) : (s.setOccasion n).sched = s.sched := rfl
@[simp] theorem setOccasion_tracker (n : Nat) : (s.setOccasion n).tracker = s.tracker := rfl
@[simp] theorem setOccasion_ports (n : Nat) : (s.setOccasion n).ports = s.ports := rfl
@[simp] theorem setOccasion_ring (n : Nat) : (s.setOccasion n).ring = s.ring := rfl
@[simp] theorem setOccasion_engine (n : Nat) : (s.setOccasion n).engine = s.engine := rfl
@[simp] theorem setOccasion_faults (n : Nat) : (s.setOccasion n).faults = s.faults := rfl
@[simp] theorem setOccasion_power (n : Nat) : (s.setOccasion n).power = s.power := rfl
@[simp] theorem setOccasion_store (n : Nat) : (s.setOccasion n).store = s.store := rfl
@[simp] theorem setOccasion_occasion (n : Nat) : (s.setOccasion n).occasion = n := rfl

@[simp] theorem setTwoPorts_pending (v : Bool) : (s.setTwoPorts v).pending = s.pending := rfl
@[simp] theorem setTwoPorts_phase (v : Bool) : (s.setTwoPorts v).phase = s.phase := rfl
@[simp] theorem setTwoPorts_clock (v : Bool) : (s.setTwoPorts v).clock = s.clock := rfl
@[simp] theorem setTwoPorts_pins (v : Bool) : (s.setTwoPorts v).pins = s.pins := rfl
@[simp] theorem setTwoPorts_twoPorts (v : Bool) : (s.setTwoPorts v).twoPorts = v := rfl
@[simp] theorem setTwoPorts_gateway (v : Bool) : (s.setTwoPorts v).gateway = s.gateway := rfl
@[simp] theorem setTwoPorts_modem (v : Bool) : (s.setTwoPorts v).modem = s.modem := rfl
@[simp] theorem setTwoPorts_channels (v : Bool) : (s.setTwoPorts v).channels = s.channels := rfl
@[simp] theorem setTwoPorts_lines (v : Bool) : (s.setTwoPorts v).lines = s.lines := rfl
@[simp] theorem setTwoPorts_relays (v : Bool) : (s.setTwoPorts v).relays = s.relays := rfl
@[simp] theorem setTwoPorts_settles (v : Bool) : (s.setTwoPorts v).settles = s.settles := rfl
@[simp] theorem setTwoPorts_dsl (v : Bool) : (s.setTwoPorts v).dsl = s.dsl := rfl
@[simp] theorem setTwoPorts_sched (v : Bool) : (s.setTwoPorts v).sched = s.sched := rfl
@[simp] theorem setTwoPorts_tracker (v : Bool) : (s.setTwoPorts v).tracker = s.tracker := rfl
@[simp] theorem setTwoPorts_ports (v : Bool) : (s.setTwoPorts v).ports = s.ports := rfl
@[simp] theorem setTwoPorts_ring (v : Bool) : (s.setTwoPorts v).ring = s.ring := rfl
@[simp] theorem setTwoPorts_engine (v : Bool) : (s.setTwoPorts v).engine = s.engine := rfl
@[simp] theorem setTwoPorts_faults (v : Bool) : (s.setTwoPorts v).faults = s.faults := rfl
@[simp] theorem setTwoPorts_power (v : Bool) : (s.setTwoPorts v).power = s.power := rfl
@[simp] theorem setTwoPorts_store (v : Bool) : (s.setTwoPorts v).store = s.store := rfl
@[simp] theorem setTwoPorts_occasion (v : Bool) : (s.setTwoPorts v).occasion = s.occasion := rfl

@[simp] theorem setRelays_pending (v : Relays) : (s.setRelays v).pending = s.pending := rfl
@[simp] theorem setRelays_phase (v : Relays) : (s.setRelays v).phase = s.phase := rfl
@[simp] theorem setRelays_clock (v : Relays) : (s.setRelays v).clock = s.clock := rfl
@[simp] theorem setRelays_pins (v : Relays) : (s.setRelays v).pins = s.pins := rfl
@[simp] theorem setRelays_twoPorts (v : Relays) : (s.setRelays v).twoPorts = s.twoPorts := rfl
@[simp] theorem setRelays_gateway (v : Relays) : (s.setRelays v).gateway = s.gateway := rfl
@[simp] theorem setRelays_modem (v : Relays) : (s.setRelays v).modem = s.modem := rfl
@[simp] theorem setRelays_channels (v : Relays) : (s.setRelays v).channels = s.channels := rfl
@[simp] theorem setRelays_lines (v : Relays) : (s.setRelays v).lines = s.lines := rfl
@[simp] theorem setRelays_relays (v : Relays) : (s.setRelays v).relays = v := rfl
@[simp] theorem setRelays_settles (v : Relays) : (s.setRelays v).settles = s.settles := rfl
@[simp] theorem setRelays_dsl (v : Relays) : (s.setRelays v).dsl = s.dsl := rfl
@[simp] theorem setRelays_sched (v : Relays) : (s.setRelays v).sched = s.sched := rfl
@[simp] theorem setRelays_tracker (v : Relays) : (s.setRelays v).tracker = s.tracker := rfl
@[simp] theorem setRelays_ports (v : Relays) : (s.setRelays v).ports = s.ports := rfl
@[simp] theorem setRelays_ring (v : Relays) : (s.setRelays v).ring = s.ring := rfl
@[simp] theorem setRelays_engine (v : Relays) : (s.setRelays v).engine = s.engine := rfl
@[simp] theorem setRelays_faults (v : Relays) : (s.setRelays v).faults = s.faults := rfl
@[simp] theorem setRelays_power (v : Relays) : (s.setRelays v).power = s.power := rfl
@[simp] theorem setRelays_store (v : Relays) : (s.setRelays v).store = s.store := rfl
@[simp] theorem setRelays_occasion (v : Relays) : (s.setRelays v).occasion = s.occasion := rfl

@[simp] theorem setSettles_pending (v : List Settle) : (s.setSettles v).pending = s.pending := rfl
@[simp] theorem setSettles_phase (v : List Settle) : (s.setSettles v).phase = s.phase := rfl
@[simp] theorem setSettles_clock (v : List Settle) : (s.setSettles v).clock = s.clock := rfl
@[simp] theorem setSettles_pins (v : List Settle) : (s.setSettles v).pins = s.pins := rfl
@[simp] theorem setSettles_twoPorts (v : List Settle) : (s.setSettles v).twoPorts = s.twoPorts := rfl
@[simp] theorem setSettles_gateway (v : List Settle) : (s.setSettles v).gateway = s.gateway := rfl
@[simp] theorem setSettles_modem (v : List Settle) : (s.setSettles v).modem = s.modem := rfl
@[simp] theorem setSettles_channels (v : List Settle) : (s.setSettles v).channels = s.channels := rfl
@[simp] theorem setSettles_lines (v : List Settle) : (s.setSettles v).lines = s.lines := rfl
@[simp] theorem setSettles_relays (v : List Settle) : (s.setSettles v).relays = s.relays := rfl
@[simp] theorem setSettles_settles (v : List Settle) : (s.setSettles v).settles = v := rfl
@[simp] theorem setSettles_dsl (v : List Settle) : (s.setSettles v).dsl = s.dsl := rfl
@[simp] theorem setSettles_sched (v : List Settle) : (s.setSettles v).sched = s.sched := rfl
@[simp] theorem setSettles_tracker (v : List Settle) : (s.setSettles v).tracker = s.tracker := rfl
@[simp] theorem setSettles_ports (v : List Settle) : (s.setSettles v).ports = s.ports := rfl
@[simp] theorem setSettles_ring (v : List Settle) : (s.setSettles v).ring = s.ring := rfl
@[simp] theorem setSettles_engine (v : List Settle) : (s.setSettles v).engine = s.engine := rfl
@[simp] theorem setSettles_faults (v : List Settle) : (s.setSettles v).faults = s.faults := rfl
@[simp] theorem setSettles_power (v : List Settle) : (s.setSettles v).power = s.power := rfl
@[simp] theorem setSettles_store (v : List Settle) : (s.setSettles v).store = s.store := rfl
@[simp] theorem setSettles_occasion (v : List Settle) : (s.setSettles v).occasion = s.occasion := rfl

@[simp] theorem setDsl_pending (v : Option DslSwitch) : (s.setDsl v).pending = s.pending := rfl
@[simp] theorem setDsl_phase (v : Option DslSwitch) : (s.setDsl v).phase = s.phase := rfl
@[simp] theorem setDsl_clock (v : Option DslSwitch) : (s.setDsl v).clock = s.clock := rfl
@[simp] theorem setDsl_pins (v : Option DslSwitch) : (s.setDsl v).pins = s.pins := rfl
@[simp] theorem setDsl_twoPorts (v : Option DslSwitch) : (s.setDsl v).twoPorts = s.twoPorts := rfl
@[simp] theorem setDsl_gateway (v : Option DslSwitch) : (s.setDsl v).gateway = s.gateway := rfl
@[simp] theorem setDsl_modem (v : Option DslSwitch) : (s.setDsl v).modem = s.modem := rfl
@[simp] theorem setDsl_channels (v : Option DslSwitch) : (s.setDsl v).channels = s.channels := rfl
@[simp] theorem setDsl_lines (v : Option DslSwitch) : (s.setDsl v).lines = s.lines := rfl
@[simp] theorem setDsl_relays (v : Option DslSwitch) : (s.setDsl v).relays = s.relays := rfl
@[simp] theorem setDsl_settles (v : Option DslSwitch) : (s.setDsl v).settles = s.settles := rfl
@[simp] theorem setDsl_dsl (v : Option DslSwitch) : (s.setDsl v).dsl = v := rfl
@[simp] theorem setDsl_sched (v : Option DslSwitch) : (s.setDsl v).sched = s.sched := rfl
@[simp] theorem setDsl_tracker (v : Option DslSwitch) : (s.setDsl v).tracker = s.tracker := rfl
@[simp] theorem setDsl_ports (v : Option DslSwitch) : (s.setDsl v).ports = s.ports := rfl
@[simp] theorem setDsl_ring (v : Option DslSwitch) : (s.setDsl v).ring = s.ring := rfl
@[simp] theorem setDsl_engine (v : Option DslSwitch) : (s.setDsl v).engine = s.engine := rfl
@[simp] theorem setDsl_faults (v : Option DslSwitch) : (s.setDsl v).faults = s.faults := rfl
@[simp] theorem setDsl_power (v : Option DslSwitch) : (s.setDsl v).power = s.power := rfl
@[simp] theorem setDsl_store (v : Option DslSwitch) : (s.setDsl v).store = s.store := rfl
@[simp] theorem setDsl_occasion (v : Option DslSwitch) : (s.setDsl v).occasion = s.occasion := rfl

@[simp] theorem setPower_pending (v : PowerRec) : (s.setPower v).pending = s.pending := rfl
@[simp] theorem setPower_phase (v : PowerRec) : (s.setPower v).phase = s.phase := rfl
@[simp] theorem setPower_clock (v : PowerRec) : (s.setPower v).clock = s.clock := rfl
@[simp] theorem setPower_pins (v : PowerRec) : (s.setPower v).pins = s.pins := rfl
@[simp] theorem setPower_twoPorts (v : PowerRec) : (s.setPower v).twoPorts = s.twoPorts := rfl
@[simp] theorem setPower_gateway (v : PowerRec) : (s.setPower v).gateway = s.gateway := rfl
@[simp] theorem setPower_modem (v : PowerRec) : (s.setPower v).modem = s.modem := rfl
@[simp] theorem setPower_channels (v : PowerRec) : (s.setPower v).channels = s.channels := rfl
@[simp] theorem setPower_lines (v : PowerRec) : (s.setPower v).lines = s.lines := rfl
@[simp] theorem setPower_relays (v : PowerRec) : (s.setPower v).relays = s.relays := rfl
@[simp] theorem setPower_settles (v : PowerRec) : (s.setPower v).settles = s.settles := rfl
@[simp] theorem setPower_dsl (v : PowerRec) : (s.setPower v).dsl = s.dsl := rfl
@[simp] theorem setPower_sched (v : PowerRec) : (s.setPower v).sched = s.sched := rfl
@[simp] theorem setPower_tracker (v : PowerRec) : (s.setPower v).tracker = s.tracker := rfl
@[simp] theorem setPower_ports (v : PowerRec) : (s.setPower v).ports = s.ports := rfl
@[simp] theorem setPower_ring (v : PowerRec) : (s.setPower v).ring = s.ring := rfl
@[simp] theorem setPower_engine (v : PowerRec) : (s.setPower v).engine = s.engine := rfl
@[simp] theorem setPower_faults (v : PowerRec) : (s.setPower v).faults = s.faults := rfl
@[simp] theorem setPower_power (v : PowerRec) : (s.setPower v).power = v := rfl
@[simp] theorem setPower_store (v : PowerRec) : (s.setPower v).store = s.store := rfl
@[simp] theorem setPower_occasion (v : PowerRec) : (s.setPower v).occasion = s.occasion := rfl

@[simp] theorem updClock_pending (f : Clock → Clock) : (s.updClock f).pending = s.pending := rfl
@[simp] theorem updClock_phase (f : Clock → Clock) : (s.updClock f).phase = s.phase := rfl
@[simp] theorem updClock_clock (f : Clock → Clock) : (s.updClock f).clock = f s.clock := rfl
@[simp] theorem updClock_pins (f : Clock → Clock) : (s.updClock f).pins = s.pins := rfl
@[simp] theorem updClock_twoPorts (f : Clock → Clock) : (s.updClock f).twoPorts = s.twoPorts := rfl
@[simp] theorem updClock_gateway (f : Clock → Clock) : (s.updClock f).gateway = s.gateway := rfl
@[simp] theorem updClock_modem (f : Clock → Clock) : (s.updClock f).modem = s.modem := rfl
@[simp] theorem updClock_channels (f : Clock → Clock) : (s.updClock f).channels = s.channels := rfl
@[simp] theorem updClock_lines (f : Clock → Clock) : (s.updClock f).lines = s.lines := rfl
@[simp] theorem updClock_relays (f : Clock → Clock) : (s.updClock f).relays = s.relays := rfl
@[simp] theorem updClock_settles (f : Clock → Clock) : (s.updClock f).settles = s.settles := rfl
@[simp] theorem updClock_dsl (f : Clock → Clock) : (s.updClock f).dsl = s.dsl := rfl
@[simp] theorem updClock_sched (f : Clock → Clock) : (s.updClock f).sched = s.sched := rfl
@[simp] theorem updClock_tracker (f : Clock → Clock) : (s.updClock f).tracker = s.tracker := rfl
@[simp] theorem updClock_ports (f : Clock → Clock) : (s.updClock f).ports = s.ports := rfl
@[simp] theorem updClock_ring (f : Clock → Clock) : (s.updClock f).ring = s.ring := rfl
@[simp] theorem updClock_engine (f : Clock → Clock) : (s.updClock f).engine = s.engine := rfl
@[simp] theorem updClock_faults (f : Clock → Clock) : (s.updClock f).faults = s.faults := rfl
@[simp] theorem updClock_power (f : Clock → Clock) : (s.updClock f).power = s.power := rfl
@[simp] theorem updClock_store (f : Clock → Clock) : (s.updClock f).store = s.store := rfl
@[simp] theorem updClock_occasion (f : Clock → Clock) : (s.updClock f).occasion = s.occasion := rfl

@[simp] theorem updPins_pending (f : Pins → Pins) : (s.updPins f).pending = s.pending := rfl
@[simp] theorem updPins_phase (f : Pins → Pins) : (s.updPins f).phase = s.phase := rfl
@[simp] theorem updPins_clock (f : Pins → Pins) : (s.updPins f).clock = s.clock := rfl
@[simp] theorem updPins_pins (f : Pins → Pins) : (s.updPins f).pins = f s.pins := rfl
@[simp] theorem updPins_twoPorts (f : Pins → Pins) : (s.updPins f).twoPorts = s.twoPorts := rfl
@[simp] theorem updPins_gateway (f : Pins → Pins) : (s.updPins f).gateway = s.gateway := rfl
@[simp] theorem updPins_modem (f : Pins → Pins) : (s.updPins f).modem = s.modem := rfl
@[simp] theorem updPins_channels (f : Pins → Pins) : (s.updPins f).channels = s.channels := rfl
@[simp] theorem updPins_lines (f : Pins → Pins) : (s.updPins f).lines = s.lines := rfl
@[simp] theorem updPins_relays (f : Pins → Pins) : (s.updPins f).relays = s.relays := rfl
@[simp] theorem updPins_settles (f : Pins → Pins) : (s.updPins f).settles = s.settles := rfl
@[simp] theorem updPins_dsl (f : Pins → Pins) : (s.updPins f).dsl = s.dsl := rfl
@[simp] theorem updPins_sched (f : Pins → Pins) : (s.updPins f).sched = s.sched := rfl
@[simp] theorem updPins_tracker (f : Pins → Pins) : (s.updPins f).tracker = s.tracker := rfl
@[simp] theorem updPins_ports (f : Pins → Pins) : (s.updPins f).ports = s.ports := rfl
@[simp] theorem updPins_ring (f : Pins → Pins) : (s.updPins f).ring = s.ring := rfl
@[simp] theorem updPins_engine (f : Pins → Pins) : (s.updPins f).engine = s.engine := rfl
@[simp] theorem updPins_faults (f : Pins → Pins) : (s.updPins f).faults = s.faults := rfl
@[simp] theorem updPins_power (f : Pins → Pins) : (s.updPins f).power = s.power := rfl
@[simp] theorem updPins_store (f : Pins → Pins) : (s.updPins f).store = s.store := rfl
@[simp] theorem updPins_occasion (f : Pins → Pins) : (s.updPins f).occasion = s.occasion := rfl

@[simp] theorem updGateway_pending (f : GatewayPort → GatewayPort) : (s.updGateway f).pending = s.pending := rfl
@[simp] theorem updGateway_phase (f : GatewayPort → GatewayPort) : (s.updGateway f).phase = s.phase := rfl
@[simp] theorem updGateway_clock (f : GatewayPort → GatewayPort) : (s.updGateway f).clock = s.clock := rfl
@[simp] theorem updGateway_pins (f : GatewayPort → GatewayPort) : (s.updGateway f).pins = s.pins := rfl
@[simp] theorem updGateway_twoPorts (f : GatewayPort → GatewayPort) : (s.updGateway f).twoPorts = s.twoPorts := rfl
@[simp] theorem updGateway_gateway (f : GatewayPort → GatewayPort) : (s.updGateway f).gateway = f s.gateway := rfl
@[simp] theorem updGateway_modem (f : GatewayPort → GatewayPort) : (s.updGateway f).modem = s.modem := rfl
@[simp] theorem updGateway_channels (f : GatewayPort → GatewayPort) : (s.updGateway f).channels = s.channels := rfl
@[simp] theorem updGateway_lines (f : GatewayPort → GatewayPort) : (s.updGateway f).lines = s.lines := rfl
@[simp] theorem updGateway_relays (f : GatewayPort → GatewayPort) : (s.updGateway f).relays = s.relays := rfl
@[simp] theorem updGateway_settles (f : GatewayPort → GatewayPort) : (s.updGateway f).settles = s.settles := rfl
@[simp] theorem updGateway_dsl (f : GatewayPort → GatewayPort) : (s.updGateway f).dsl = s.dsl := rfl
@[simp] theorem updGateway_sched (f : GatewayPort → GatewayPort) : (s.updGateway f).sched = s.sched := rfl
@[simp] theorem updGateway_tracker (f : GatewayPort → GatewayPort) : (s.updGateway f).tracker = s.tracker := rfl
@[simp] theorem updGateway_ports (f : GatewayPort → GatewayPort) : (s.updGateway f).ports = s.ports := rfl
@[simp] theorem updGateway_ring (f : GatewayPort → GatewayPort) : (s.updGateway f).ring = s.ring := rfl
@[simp] theorem updGateway_engine (f : GatewayPort → GatewayPort) : (s.updGateway f).engine = s.engine := rfl
@[simp] theorem updGateway_faults (f : GatewayPort → GatewayPort) : (s.updGateway f).faults = s.faults := rfl
@[simp] theorem updGateway_power (f : GatewayPort → GatewayPort) : (s.updGateway f).power = s.power := rfl
@[simp] theorem updGateway_store (f : GatewayPort → GatewayPort) : (s.updGateway f).store = s.store := rfl
@[simp] theorem updGateway_occasion (f : GatewayPort → GatewayPort) : (s.updGateway f).occasion = s.occasion := rfl

@[simp] theorem updModem_pending (f : ModemPort → ModemPort) : (s.updModem f).pending = s.pending := rfl
@[simp] theorem updModem_phase (f : ModemPort → ModemPort) : (s.updModem f).phase = s.phase := rfl
@[simp] theorem updModem_clock (f : ModemPort → ModemPort) : (s.updModem f).clock = s.clock := rfl
@[simp] theorem updModem_pins (f : ModemPort → ModemPort) : (s.updModem f).pins = s.pins := rfl
@[simp] theorem updModem_twoPorts (f : ModemPort → ModemPort) : (s.updModem f).twoPorts = s.twoPorts := rfl
@[simp] theorem updModem_gateway (f : ModemPort → ModemPort) : (s.updModem f).gateway = s.gateway := rfl
@[simp] theorem updModem_modem (f : ModemPort → ModemPort) : (s.updModem f).modem = f s.modem := rfl
@[simp] theorem updModem_channels (f : ModemPort → ModemPort) : (s.updModem f).channels = s.channels := rfl
@[simp] theorem updModem_lines (f : ModemPort → ModemPort) : (s.updModem f).lines = s.lines := rfl
@[simp] theorem updModem_relays (f : ModemPort → ModemPort) : (s.updModem f).relays = s.relays := rfl
@[simp] theorem updModem_settles (f : ModemPort → ModemPort) : (s.updModem f).settles = s.settles := rfl
@[simp] theorem updModem_dsl (f : ModemPort → ModemPort) : (s.updModem f).dsl = s.dsl := rfl
@[simp] theorem updModem_sched (f : ModemPort → ModemPort) : (s.updModem f).sched = s.sched := rfl
@[simp] theorem updModem_tracker (f : ModemPort → ModemPort) : (s.updModem f).tracker = s.tracker := rfl
@[simp] theorem updModem_ports (f : ModemPort → ModemPort) : (s.updModem f).ports = s.ports := rfl
@[simp] theorem updModem_ring (f : ModemPort → ModemPort) : (s.updModem f).ring = s.ring := rfl
@[simp] theorem updModem_engine (f : ModemPort → ModemPort) : (s.updModem f).engine = s.engine := rfl
@[simp] theorem updModem_faults (f : ModemPort → ModemPort) : (s.updModem f).faults = s.faults := rfl
@[simp] theorem updModem_power (f : ModemPort → ModemPort) : (s.updModem f).power = s.power := rfl
@[simp] theorem updModem_store (f : ModemPort → ModemPort) : (s.updModem f).store = s.store := rfl
@[simp] theorem updModem_occasion (f : ModemPort → ModemPort) : (s.updModem f).occasion = s.occasion := rfl

@[simp] theorem updChannel_pending (c : Channel) (f : ChannelRec → ChannelRec) : (s.updChannel c f).pending = s.pending := rfl
@[simp] theorem updChannel_phase (c : Channel) (f : ChannelRec → ChannelRec) : (s.updChannel c f).phase = s.phase := rfl
@[simp] theorem updChannel_clock (c : Channel) (f : ChannelRec → ChannelRec) : (s.updChannel c f).clock = s.clock := rfl
@[simp] theorem updChannel_pins (c : Channel) (f : ChannelRec → ChannelRec) : (s.updChannel c f).pins = s.pins := rfl
@[simp] theorem updChannel_twoPorts (c : Channel) (f : ChannelRec → ChannelRec) : (s.updChannel c f).twoPorts = s.twoPorts := rfl
@[simp] theorem updChannel_gateway (c : Channel) (f : ChannelRec → ChannelRec) : (s.updChannel c f).gateway = s.gateway := rfl
@[simp] theorem updChannel_modem (c : Channel) (f : ChannelRec → ChannelRec) : (s.updChannel c f).modem = s.modem := rfl
@[simp] theorem updChannel_channels (c : Channel) (f : ChannelRec → ChannelRec) : (s.updChannel c f).channels = s.channels.set c (f (s.channels.get c)) := rfl
@[simp] theorem updChannel_lines (c : Channel) (f : ChannelRec → ChannelRec) : (s.updChannel c f).lines = s.lines := rfl
@[simp] theorem updChannel_relays (c : Channel) (f : ChannelRec → ChannelRec) : (s.updChannel c f).relays = s.relays := rfl
@[simp] theorem updChannel_settles (c : Channel) (f : ChannelRec → ChannelRec) : (s.updChannel c f).settles = s.settles := rfl
@[simp] theorem updChannel_dsl (c : Channel) (f : ChannelRec → ChannelRec) : (s.updChannel c f).dsl = s.dsl := rfl
@[simp] theorem updChannel_sched (c : Channel) (f : ChannelRec → ChannelRec) : (s.updChannel c f).sched = s.sched := rfl
@[simp] theorem updChannel_tracker (c : Channel) (f : ChannelRec → ChannelRec) : (s.updChannel c f).tracker = s.tracker := rfl
@[simp] theorem updChannel_ports (c : Channel) (f : ChannelRec → ChannelRec) : (s.updChannel c f).ports = s.ports := rfl
@[simp] theorem updChannel_ring (c : Channel) (f : ChannelRec → ChannelRec) : (s.updChannel c f).ring = s.ring := rfl
@[simp] theorem updChannel_engine (c : Channel) (f : ChannelRec → ChannelRec) : (s.updChannel c f).engine = s.engine := rfl
@[simp] theorem updChannel_faults (c : Channel) (f : ChannelRec → ChannelRec) : (s.updChannel c f).faults = s.faults := rfl
@[simp] theorem updChannel_power (c : Channel) (f : ChannelRec → ChannelRec) : (s.updChannel c f).power = s.power := rfl
@[simp] theorem updChannel_store (c : Channel) (f : ChannelRec → ChannelRec) : (s.updChannel c f).store = s.store := rfl
@[simp] theorem updChannel_occasion (c : Channel) (f : ChannelRec → ChannelRec) : (s.updChannel c f).occasion = s.occasion := rfl

@[simp] theorem updLines_pending (f : LineFunctions → LineFunctions) : (s.updLines f).pending = s.pending := rfl
@[simp] theorem updLines_phase (f : LineFunctions → LineFunctions) : (s.updLines f).phase = s.phase := rfl
@[simp] theorem updLines_clock (f : LineFunctions → LineFunctions) : (s.updLines f).clock = s.clock := rfl
@[simp] theorem updLines_pins (f : LineFunctions → LineFunctions) : (s.updLines f).pins = s.pins := rfl
@[simp] theorem updLines_twoPorts (f : LineFunctions → LineFunctions) : (s.updLines f).twoPorts = s.twoPorts := rfl
@[simp] theorem updLines_gateway (f : LineFunctions → LineFunctions) : (s.updLines f).gateway = s.gateway := rfl
@[simp] theorem updLines_modem (f : LineFunctions → LineFunctions) : (s.updLines f).modem = s.modem := rfl
@[simp] theorem updLines_channels (f : LineFunctions → LineFunctions) : (s.updLines f).channels = s.channels := rfl
@[simp] theorem updLines_lines (f : LineFunctions → LineFunctions) : (s.updLines f).lines = f s.lines := rfl
@[simp] theorem updLines_relays (f : LineFunctions → LineFunctions) : (s.updLines f).relays = s.relays := rfl
@[simp] theorem updLines_settles (f : LineFunctions → LineFunctions) : (s.updLines f).settles = s.settles := rfl
@[simp] theorem updLines_dsl (f : LineFunctions → LineFunctions) : (s.updLines f).dsl = s.dsl := rfl
@[simp] theorem updLines_sched (f : LineFunctions → LineFunctions) : (s.updLines f).sched = s.sched := rfl
@[simp] theorem updLines_tracker (f : LineFunctions → LineFunctions) : (s.updLines f).tracker = s.tracker := rfl
@[simp] theorem updLines_ports (f : LineFunctions → LineFunctions) : (s.updLines f).ports = s.ports := rfl
@[simp] theorem updLines_ring (f : LineFunctions → LineFunctions) : (s.updLines f).ring = s.ring := rfl
@[simp] theorem updLines_engine (f : LineFunctions → LineFunctions) : (s.updLines f).engine = s.engine := rfl
@[simp] theorem updLines_faults (f : LineFunctions → LineFunctions) : (s.updLines f).faults = s.faults := rfl
@[simp] theorem updLines_power (f : LineFunctions → LineFunctions) : (s.updLines f).power = s.power := rfl
@[simp] theorem updLines_store (f : LineFunctions → LineFunctions) : (s.updLines f).store = s.store := rfl
@[simp] theorem updLines_occasion (f : LineFunctions → LineFunctions) : (s.updLines f).occasion = s.occasion := rfl

@[simp] theorem updSched_pending (f : Scheduler → Scheduler) : (s.updSched f).pending = s.pending := rfl
@[simp] theorem updSched_phase (f : Scheduler → Scheduler) : (s.updSched f).phase = s.phase := rfl
@[simp] theorem updSched_clock (f : Scheduler → Scheduler) : (s.updSched f).clock = s.clock := rfl
@[simp] theorem updSched_pins (f : Scheduler → Scheduler) : (s.updSched f).pins = s.pins := rfl
@[simp] theorem updSched_twoPorts (f : Scheduler → Scheduler) : (s.updSched f).twoPorts = s.twoPorts := rfl
@[simp] theorem updSched_gateway (f : Scheduler → Scheduler) : (s.updSched f).gateway = s.gateway := rfl
@[simp] theorem updSched_modem (f : Scheduler → Scheduler) : (s.updSched f).modem = s.modem := rfl
@[simp] theorem updSched_channels (f : Scheduler → Scheduler) : (s.updSched f).channels = s.channels := rfl
@[simp] theorem updSched_lines (f : Scheduler → Scheduler) : (s.updSched f).lines = s.lines := rfl
@[simp] theorem updSched_relays (f : Scheduler → Scheduler) : (s.updSched f).relays = s.relays := rfl
@[simp] theorem updSched_settles (f : Scheduler → Scheduler) : (s.updSched f).settles = s.settles := rfl
@[simp] theorem updSched_dsl (f : Scheduler → Scheduler) : (s.updSched f).dsl = s.dsl := rfl
@[simp] theorem updSched_sched (f : Scheduler → Scheduler) : (s.updSched f).sched = f s.sched := rfl
@[simp] theorem updSched_tracker (f : Scheduler → Scheduler) : (s.updSched f).tracker = s.tracker := rfl
@[simp] theorem updSched_ports (f : Scheduler → Scheduler) : (s.updSched f).ports = s.ports := rfl
@[simp] theorem updSched_ring (f : Scheduler → Scheduler) : (s.updSched f).ring = s.ring := rfl
@[simp] theorem updSched_engine (f : Scheduler → Scheduler) : (s.updSched f).engine = s.engine := rfl
@[simp] theorem updSched_faults (f : Scheduler → Scheduler) : (s.updSched f).faults = s.faults := rfl
@[simp] theorem updSched_power (f : Scheduler → Scheduler) : (s.updSched f).power = s.power := rfl
@[simp] theorem updSched_store (f : Scheduler → Scheduler) : (s.updSched f).store = s.store := rfl
@[simp] theorem updSched_occasion (f : Scheduler → Scheduler) : (s.updSched f).occasion = s.occasion := rfl

@[simp] theorem updTracker_pending (f : Tracker → Tracker) : (s.updTracker f).pending = s.pending := rfl
@[simp] theorem updTracker_phase (f : Tracker → Tracker) : (s.updTracker f).phase = s.phase := rfl
@[simp] theorem updTracker_clock (f : Tracker → Tracker) : (s.updTracker f).clock = s.clock := rfl
@[simp] theorem updTracker_pins (f : Tracker → Tracker) : (s.updTracker f).pins = s.pins := rfl
@[simp] theorem updTracker_twoPorts (f : Tracker → Tracker) : (s.updTracker f).twoPorts = s.twoPorts := rfl
@[simp] theorem updTracker_gateway (f : Tracker → Tracker) : (s.updTracker f).gateway = s.gateway := rfl
@[simp] theorem updTracker_modem (f : Tracker → Tracker) : (s.updTracker f).modem = s.modem := rfl
@[simp] theorem updTracker_channels (f : Tracker → Tracker) : (s.updTracker f).channels = s.channels := rfl
@[simp] theorem updTracker_lines (f : Tracker → Tracker) : (s.updTracker f).lines = s.lines := rfl
@[simp] theorem updTracker_relays (f : Tracker → Tracker) : (s.updTracker f).relays = s.relays := rfl
@[simp] theorem updTracker_settles (f : Tracker → Tracker) : (s.updTracker f).settles = s.settles := rfl
@[simp] theorem updTracker_dsl (f : Tracker → Tracker) : (s.updTracker f).dsl = s.dsl := rfl
@[simp] theorem updTracker_sched (f : Tracker → Tracker) : (s.updTracker f).sched = s.sched := rfl
@[simp] theorem updTracker_tracker (f : Tracker → Tracker) : (s.updTracker f).tracker = f s.tracker := rfl
@[simp] theorem updTracker_ports (f : Tracker → Tracker) : (s.updTracker f).ports = s.ports := rfl
@[simp] theorem updTracker_ring (f : Tracker → Tracker) : (s.updTracker f).ring = s.ring := rfl
@[simp] theorem updTracker_engine (f : Tracker → Tracker) : (s.updTracker f).engine = s.engine := rfl
@[simp] theorem updTracker_faults (f : Tracker → Tracker) : (s.updTracker f).faults = s.faults := rfl
@[simp] theorem updTracker_power (f : Tracker → Tracker) : (s.updTracker f).power = s.power := rfl
@[simp] theorem updTracker_store (f : Tracker → Tracker) : (s.updTracker f).store = s.store := rfl
@[simp] theorem updTracker_occasion (f : Tracker → Tracker) : (s.updTracker f).occasion = s.occasion := rfl

@[simp] theorem updPort_pending (p : Port) (f : PhonePort → PhonePort) : (s.updPort p f).pending = s.pending := rfl
@[simp] theorem updPort_phase (p : Port) (f : PhonePort → PhonePort) : (s.updPort p f).phase = s.phase := rfl
@[simp] theorem updPort_clock (p : Port) (f : PhonePort → PhonePort) : (s.updPort p f).clock = s.clock := rfl
@[simp] theorem updPort_pins (p : Port) (f : PhonePort → PhonePort) : (s.updPort p f).pins = s.pins := rfl
@[simp] theorem updPort_twoPorts (p : Port) (f : PhonePort → PhonePort) : (s.updPort p f).twoPorts = s.twoPorts := rfl
@[simp] theorem updPort_gateway (p : Port) (f : PhonePort → PhonePort) : (s.updPort p f).gateway = s.gateway := rfl
@[simp] theorem updPort_modem (p : Port) (f : PhonePort → PhonePort) : (s.updPort p f).modem = s.modem := rfl
@[simp] theorem updPort_channels (p : Port) (f : PhonePort → PhonePort) : (s.updPort p f).channels = s.channels := rfl
@[simp] theorem updPort_lines (p : Port) (f : PhonePort → PhonePort) : (s.updPort p f).lines = s.lines := rfl
@[simp] theorem updPort_relays (p : Port) (f : PhonePort → PhonePort) : (s.updPort p f).relays = s.relays := rfl
@[simp] theorem updPort_settles (p : Port) (f : PhonePort → PhonePort) : (s.updPort p f).settles = s.settles := rfl
@[simp] theorem updPort_dsl (p : Port) (f : PhonePort → PhonePort) : (s.updPort p f).dsl = s.dsl := rfl
@[simp] theorem updPort_sched (p : Port) (f : PhonePort → PhonePort) : (s.updPort p f).sched = s.sched := rfl
@[simp] theorem updPort_tracker (p : Port) (f : PhonePort → PhonePort) : (s.updPort p f).tracker = s.tracker := rfl
@[simp] theorem updPort_ports (p : Port) (f : PhonePort → PhonePort) : (s.updPort p f).ports = s.ports.set p (f (s.ports.get p)) := rfl
@[simp] theorem updPort_ring (p : Port) (f : PhonePort → PhonePort) : (s.updPort p f).ring = s.ring := rfl
@[simp] theorem updPort_engine (p : Port) (f : PhonePort → PhonePort) : (s.updPort p f).engine = s.engine := rfl
@[simp] theorem updPort_faults (p : Port) (f : PhonePort → PhonePort) : (s.updPort p f).faults = s.faults := rfl
@[simp] theorem updPort_power (p : Port) (f : PhonePort → PhonePort) : (s.updPort p f).power = s.power := rfl
@[simp] theorem updPort_store (p : Port) (f : PhonePort → PhonePort) : (s.updPort p f).store = s.store := rfl
@[simp] theorem updPort_occasion (p : Port) (f : PhonePort → PhonePort) : (s.updPort p f).occasion = s.occasion := rfl

@[simp] theorem updRing_pending (f : RingUnit → RingUnit) : (s.updRing f).pending = s.pending := rfl
@[simp] theorem updRing_phase (f : RingUnit → RingUnit) : (s.updRing f).phase = s.phase := rfl
@[simp] theorem updRing_clock (f : RingUnit → RingUnit) : (s.updRing f).clock = s.clock := rfl
@[simp] theorem updRing_pins (f : RingUnit → RingUnit) : (s.updRing f).pins = s.pins := rfl
@[simp] theorem updRing_twoPorts (f : RingUnit → RingUnit) : (s.updRing f).twoPorts = s.twoPorts := rfl
@[simp] theorem updRing_gateway (f : RingUnit → RingUnit) : (s.updRing f).gateway = s.gateway := rfl
@[simp] theorem updRing_modem (f : RingUnit → RingUnit) : (s.updRing f).modem = s.modem := rfl
@[simp] theorem updRing_channels (f : RingUnit → RingUnit) : (s.updRing f).channels = s.channels := rfl
@[simp] theorem updRing_lines (f : RingUnit → RingUnit) : (s.updRing f).lines = s.lines := rfl
@[simp] theorem updRing_relays (f : RingUnit → RingUnit) : (s.updRing f).relays = s.relays := rfl
@[simp] theorem updRing_settles (f : RingUnit → RingUnit) : (s.updRing f).settles = s.settles := rfl
@[simp] theorem updRing_dsl (f : RingUnit → RingUnit) : (s.updRing f).dsl = s.dsl := rfl
@[simp] theorem updRing_sched (f : RingUnit → RingUnit) : (s.updRing f).sched = s.sched := rfl
@[simp] theorem updRing_tracker (f : RingUnit → RingUnit) : (s.updRing f).tracker = s.tracker := rfl
@[simp] theorem updRing_ports (f : RingUnit → RingUnit) : (s.updRing f).ports = s.ports := rfl
@[simp] theorem updRing_ring (f : RingUnit → RingUnit) : (s.updRing f).ring = f s.ring := rfl
@[simp] theorem updRing_engine (f : RingUnit → RingUnit) : (s.updRing f).engine = s.engine := rfl
@[simp] theorem updRing_faults (f : RingUnit → RingUnit) : (s.updRing f).faults = s.faults := rfl
@[simp] theorem updRing_power (f : RingUnit → RingUnit) : (s.updRing f).power = s.power := rfl
@[simp] theorem updRing_store (f : RingUnit → RingUnit) : (s.updRing f).store = s.store := rfl
@[simp] theorem updRing_occasion (f : RingUnit → RingUnit) : (s.updRing f).occasion = s.occasion := rfl

@[simp] theorem updEngine_pending (f : Engine → Engine) : (s.updEngine f).pending = s.pending := rfl
@[simp] theorem updEngine_phase (f : Engine → Engine) : (s.updEngine f).phase = s.phase := rfl
@[simp] theorem updEngine_clock (f : Engine → Engine) : (s.updEngine f).clock = s.clock := rfl
@[simp] theorem updEngine_pins (f : Engine → Engine) : (s.updEngine f).pins = s.pins := rfl
@[simp] theorem updEngine_twoPorts (f : Engine → Engine) : (s.updEngine f).twoPorts = s.twoPorts := rfl
@[simp] theorem updEngine_gateway (f : Engine → Engine) : (s.updEngine f).gateway = s.gateway := rfl
@[simp] theorem updEngine_modem (f : Engine → Engine) : (s.updEngine f).modem = s.modem := rfl
@[simp] theorem updEngine_channels (f : Engine → Engine) : (s.updEngine f).channels = s.channels := rfl
@[simp] theorem updEngine_lines (f : Engine → Engine) : (s.updEngine f).lines = s.lines := rfl
@[simp] theorem updEngine_relays (f : Engine → Engine) : (s.updEngine f).relays = s.relays := rfl
@[simp] theorem updEngine_settles (f : Engine → Engine) : (s.updEngine f).settles = s.settles := rfl
@[simp] theorem updEngine_dsl (f : Engine → Engine) : (s.updEngine f).dsl = s.dsl := rfl
@[simp] theorem updEngine_sched (f : Engine → Engine) : (s.updEngine f).sched = s.sched := rfl
@[simp] theorem updEngine_tracker (f : Engine → Engine) : (s.updEngine f).tracker = s.tracker := rfl
@[simp] theorem updEngine_ports (f : Engine → Engine) : (s.updEngine f).ports = s.ports := rfl
@[simp] theorem updEngine_ring (f : Engine → Engine) : (s.updEngine f).ring = s.ring := rfl
@[simp] theorem updEngine_engine (f : Engine → Engine) : (s.updEngine f).engine = f s.engine := rfl
@[simp] theorem updEngine_faults (f : Engine → Engine) : (s.updEngine f).faults = s.faults := rfl
@[simp] theorem updEngine_power (f : Engine → Engine) : (s.updEngine f).power = s.power := rfl
@[simp] theorem updEngine_store (f : Engine → Engine) : (s.updEngine f).store = s.store := rfl
@[simp] theorem updEngine_occasion (f : Engine → Engine) : (s.updEngine f).occasion = s.occasion := rfl

@[simp] theorem updFaults_pending (f : FaultUnit → FaultUnit) : (s.updFaults f).pending = s.pending := rfl
@[simp] theorem updFaults_phase (f : FaultUnit → FaultUnit) : (s.updFaults f).phase = s.phase := rfl
@[simp] theorem updFaults_clock (f : FaultUnit → FaultUnit) : (s.updFaults f).clock = s.clock := rfl
@[simp] theorem updFaults_pins (f : FaultUnit → FaultUnit) : (s.updFaults f).pins = s.pins := rfl
@[simp] theorem updFaults_twoPorts (f : FaultUnit → FaultUnit) : (s.updFaults f).twoPorts = s.twoPorts := rfl
@[simp] theorem updFaults_gateway (f : FaultUnit → FaultUnit) : (s.updFaults f).gateway = s.gateway := rfl
@[simp] theorem updFaults_modem (f : FaultUnit → FaultUnit) : (s.updFaults f).modem = s.modem := rfl
@[simp] theorem updFaults_channels (f : FaultUnit → FaultUnit) : (s.updFaults f).channels = s.channels := rfl
@[simp] theorem updFaults_lines (f : FaultUnit → FaultUnit) : (s.updFaults f).lines = s.lines := rfl
@[simp] theorem updFaults_relays (f : FaultUnit → FaultUnit) : (s.updFaults f).relays = s.relays := rfl
@[simp] theorem updFaults_settles (f : FaultUnit → FaultUnit) : (s.updFaults f).settles = s.settles := rfl
@[simp] theorem updFaults_dsl (f : FaultUnit → FaultUnit) : (s.updFaults f).dsl = s.dsl := rfl
@[simp] theorem updFaults_sched (f : FaultUnit → FaultUnit) : (s.updFaults f).sched = s.sched := rfl
@[simp] theorem updFaults_tracker (f : FaultUnit → FaultUnit) : (s.updFaults f).tracker = s.tracker := rfl
@[simp] theorem updFaults_ports (f : FaultUnit → FaultUnit) : (s.updFaults f).ports = s.ports := rfl
@[simp] theorem updFaults_ring (f : FaultUnit → FaultUnit) : (s.updFaults f).ring = s.ring := rfl
@[simp] theorem updFaults_engine (f : FaultUnit → FaultUnit) : (s.updFaults f).engine = s.engine := rfl
@[simp] theorem updFaults_faults (f : FaultUnit → FaultUnit) : (s.updFaults f).faults = f s.faults := rfl
@[simp] theorem updFaults_power (f : FaultUnit → FaultUnit) : (s.updFaults f).power = s.power := rfl
@[simp] theorem updFaults_store (f : FaultUnit → FaultUnit) : (s.updFaults f).store = s.store := rfl
@[simp] theorem updFaults_occasion (f : FaultUnit → FaultUnit) : (s.updFaults f).occasion = s.occasion := rfl

@[simp] theorem updStore_pending (f : Store → Store) : (s.updStore f).pending = s.pending := rfl
@[simp] theorem updStore_phase (f : Store → Store) : (s.updStore f).phase = s.phase := rfl
@[simp] theorem updStore_clock (f : Store → Store) : (s.updStore f).clock = s.clock := rfl
@[simp] theorem updStore_pins (f : Store → Store) : (s.updStore f).pins = s.pins := rfl
@[simp] theorem updStore_twoPorts (f : Store → Store) : (s.updStore f).twoPorts = s.twoPorts := rfl
@[simp] theorem updStore_gateway (f : Store → Store) : (s.updStore f).gateway = s.gateway := rfl
@[simp] theorem updStore_modem (f : Store → Store) : (s.updStore f).modem = s.modem := rfl
@[simp] theorem updStore_channels (f : Store → Store) : (s.updStore f).channels = s.channels := rfl
@[simp] theorem updStore_lines (f : Store → Store) : (s.updStore f).lines = s.lines := rfl
@[simp] theorem updStore_relays (f : Store → Store) : (s.updStore f).relays = s.relays := rfl
@[simp] theorem updStore_settles (f : Store → Store) : (s.updStore f).settles = s.settles := rfl
@[simp] theorem updStore_dsl (f : Store → Store) : (s.updStore f).dsl = s.dsl := rfl
@[simp] theorem updStore_sched (f : Store → Store) : (s.updStore f).sched = s.sched := rfl
@[simp] theorem updStore_tracker (f : Store → Store) : (s.updStore f).tracker = s.tracker := rfl
@[simp] theorem updStore_ports (f : Store → Store) : (s.updStore f).ports = s.ports := rfl
@[simp] theorem updStore_ring (f : Store → Store) : (s.updStore f).ring = s.ring := rfl
@[simp] theorem updStore_engine (f : Store → Store) : (s.updStore f).engine = s.engine := rfl
@[simp] theorem updStore_faults (f : Store → Store) : (s.updStore f).faults = s.faults := rfl
@[simp] theorem updStore_power (f : Store → Store) : (s.updStore f).power = s.power := rfl
@[simp] theorem updStore_store (f : Store → Store) : (s.updStore f).store = f s.store := rfl
@[simp] theorem updStore_occasion (f : Store → Store) : (s.updStore f).occasion = s.occasion := rfl

@[simp] theorem updSup_pending (p : Port) (g : Supervisor → Supervisor) : (s.updSup p g).pending = s.pending := rfl
@[simp] theorem updSup_phase (p : Port) (g : Supervisor → Supervisor) : (s.updSup p g).phase = s.phase := rfl
@[simp] theorem updSup_clock (p : Port) (g : Supervisor → Supervisor) : (s.updSup p g).clock = s.clock := rfl
@[simp] theorem updSup_pins (p : Port) (g : Supervisor → Supervisor) : (s.updSup p g).pins = s.pins := rfl
@[simp] theorem updSup_twoPorts (p : Port) (g : Supervisor → Supervisor) : (s.updSup p g).twoPorts = s.twoPorts := rfl
@[simp] theorem updSup_gateway (p : Port) (g : Supervisor → Supervisor) : (s.updSup p g).gateway = s.gateway := rfl
@[simp] theorem updSup_modem (p : Port) (g : Supervisor → Supervisor) : (s.updSup p g).modem = s.modem := rfl
@[simp] theorem updSup_channels (p : Port) (g : Supervisor → Supervisor) : (s.updSup p g).channels = s.channels := rfl
@[simp] theorem updSup_lines (p : Port) (g : Supervisor → Supervisor) : (s.updSup p g).lines = s.lines := rfl
@[simp] theorem updSup_relays (p : Port) (g : Supervisor → Supervisor) : (s.updSup p g).relays = s.relays := rfl
@[simp] theorem updSup_settles (p : Port) (g : Supervisor → Supervisor) : (s.updSup p g).settles = s.settles := rfl
@[simp] theorem updSup_dsl (p : Port) (g : Supervisor → Supervisor) : (s.updSup p g).dsl = s.dsl := rfl
@[simp] theorem updSup_sched (p : Port) (g : Supervisor → Supervisor) : (s.updSup p g).sched = s.sched := rfl
@[simp] theorem updSup_tracker (p : Port) (g : Supervisor → Supervisor) : (s.updSup p g).tracker = s.tracker := rfl
@[simp] theorem updSup_ports (p : Port) (g : Supervisor → Supervisor) : (s.updSup p g).ports = s.ports.set p { s.ports.get p with sup := g (s.ports.get p).sup } := rfl
@[simp] theorem updSup_ring (p : Port) (g : Supervisor → Supervisor) : (s.updSup p g).ring = s.ring := rfl
@[simp] theorem updSup_engine (p : Port) (g : Supervisor → Supervisor) : (s.updSup p g).engine = s.engine := rfl
@[simp] theorem updSup_faults (p : Port) (g : Supervisor → Supervisor) : (s.updSup p g).faults = s.faults := rfl
@[simp] theorem updSup_power (p : Port) (g : Supervisor → Supervisor) : (s.updSup p g).power = s.power := rfl
@[simp] theorem updSup_store (p : Port) (g : Supervisor → Supervisor) : (s.updSup p g).store = s.store := rfl
@[simp] theorem updSup_occasion (p : Port) (g : Supervisor → Supervisor) : (s.updSup p g).occasion = s.occasion := rfl

/-- A port's record after its update. -/
@[simp] theorem updPort_port_same (p : Port) (f : PhonePort → PhonePort) : (s.updPort p f).port p = f (s.port p) := by
  cases p <;> rfl

/-- The other port's record after an update. -/
@[simp] theorem updPort_port_other (p q : Port) (f : PhonePort → PhonePort) (h : q ≠ p) :
    (s.updPort p f).port q = s.port q := by
  cases p <;> cases q <;> first | rfl | exact absurd rfl h

/-- A port's record after an update of its supervisor. -/
@[simp] theorem updSup_port_same (p : Port) (g : Supervisor → Supervisor) :
    (s.updSup p g).port p = { s.port p with sup := g (s.port p).sup } := by
  cases p <;> rfl

/-- The other port's record after an update of a supervisor. -/
@[simp] theorem updSup_port_other (p q : Port) (g : Supervisor → Supervisor) (h : q ≠ p) :
    (s.updSup p g).port q = s.port q := by
  cases p <;> cases q <;> first | rfl | exact absurd rfl h

end State

end Sys2Proof.Machine
end

