-- ==== Sys2Proof/Laws/Frames.lean ====
section
/-! SUPPORT. What each shared operation leaves alone: one lemma per operation, over the parts of the state it
does not touch. A proof about one part of the state passes over an operation that does not touch it by simp,
without unfolding it. -/

namespace Sys2Proof.Machine

/-- Every part but channels. -/
abbrev butChannels (t : State) :=
  (t.pending, t.phase, t.clock, t.pins, t.twoPorts, t.gateway, t.modem, t.lines, t.relays, t.settles,
        t.dsl, t.sched, t.tracker, t.ports, t.ring, t.engine, t.faults, t.power, t.store, t.occasion)

/-- Every part but sched, engine. -/
abbrev butSchedEngine (t : State) :=
  (t.pending, t.phase, t.clock, t.pins, t.twoPorts, t.gateway, t.modem, t.channels, t.lines, t.relays,
        t.settles, t.dsl, t.tracker, t.ports, t.ring, t.faults, t.power, t.store, t.occasion)

/-- Every part but tracker. -/
abbrev butTracker (t : State) :=
  (t.pending, t.phase, t.clock, t.pins, t.twoPorts, t.gateway, t.modem, t.channels, t.lines, t.relays,
        t.settles, t.dsl, t.sched, t.ports, t.ring, t.engine, t.faults, t.power, t.store, t.occasion)

/-- Every part but channels, lines. -/
abbrev butChannelsLines (t : State) :=
  (t.pending, t.phase, t.clock, t.pins, t.twoPorts, t.gateway, t.modem, t.relays, t.settles, t.dsl,
        t.sched, t.tracker, t.ports, t.ring, t.engine, t.faults, t.power, t.store, t.occasion)

/-- Every part but channels, faults. -/
abbrev butChannelsFaults (t : State) :=
  (t.pending, t.phase, t.clock, t.pins, t.twoPorts, t.gateway, t.modem, t.lines, t.relays, t.settles,
        t.dsl, t.sched, t.tracker, t.ports, t.ring, t.engine, t.power, t.store, t.occasion)

/-- Every part but faults. -/
abbrev butFaults (t : State) :=
  (t.pending, t.phase, t.clock, t.pins, t.twoPorts, t.gateway, t.modem, t.channels, t.lines, t.relays,
        t.settles, t.dsl, t.sched, t.tracker, t.ports, t.ring, t.engine, t.power, t.store, t.occasion)

/-- Every part but channels, lines, relays, settles, sched, tracker, ports, ring, engine, faults. -/
abbrev butChannelsLinesRelaysSettlesSchedTrackerPortsRingEngineFaults (t : State) :=
  (t.pending, t.phase, t.clock, t.pins, t.twoPorts, t.gateway, t.modem, t.dsl, t.power, t.store, t.occasion)

/-- Every part but gateway, modem. -/
abbrev butGatewayModem (t : State) :=
  (t.pending, t.phase, t.clock, t.pins, t.twoPorts, t.channels, t.lines, t.relays, t.settles, t.dsl,
        t.sched, t.tracker, t.ports, t.ring, t.engine, t.faults, t.power, t.store, t.occasion)

/-- Every part but modem. -/
abbrev butModem (t : State) :=
  (t.pending, t.phase, t.clock, t.pins, t.twoPorts, t.gateway, t.channels, t.lines, t.relays, t.settles,
        t.dsl, t.sched, t.tracker, t.ports, t.ring, t.engine, t.faults, t.power, t.store, t.occasion)

/-- Every part but gateway. -/
abbrev butGateway (t : State) :=
  (t.pending, t.phase, t.clock, t.pins, t.twoPorts, t.modem, t.channels, t.lines, t.relays, t.settles,
        t.dsl, t.sched, t.tracker, t.ports, t.ring, t.engine, t.faults, t.power, t.store, t.occasion)

/-- Every part but lines. -/
abbrev butLines (t : State) :=
  (t.pending, t.phase, t.clock, t.pins, t.twoPorts, t.gateway, t.modem, t.channels, t.relays, t.settles,
        t.dsl, t.sched, t.tracker, t.ports, t.ring, t.engine, t.faults, t.power, t.store, t.occasion)

/-- Every part but ring. -/
abbrev butRing (t : State) :=
  (t.pending, t.phase, t.clock, t.pins, t.twoPorts, t.gateway, t.modem, t.channels, t.lines, t.relays,
        t.settles, t.dsl, t.sched, t.tracker, t.ports, t.engine, t.faults, t.power, t.store, t.occasion)

/-- Every part but engine. -/
abbrev butEngine (t : State) :=
  (t.pending, t.phase, t.clock, t.pins, t.twoPorts, t.gateway, t.modem, t.channels, t.lines, t.relays,
        t.settles, t.dsl, t.sched, t.tracker, t.ports, t.ring, t.faults, t.power, t.store, t.occasion)

/-- Every part but twoPorts. -/
abbrev butTwoPorts (t : State) :=
  (t.pending, t.phase, t.clock, t.pins, t.gateway, t.modem, t.channels, t.lines, t.relays, t.settles,
        t.dsl, t.sched, t.tracker, t.ports, t.ring, t.engine, t.faults, t.power, t.store, t.occasion)

/-- Every part but ports. -/
abbrev butPorts (t : State) :=
  (t.pending, t.phase, t.clock, t.pins, t.twoPorts, t.gateway, t.modem, t.channels, t.lines, t.relays,
        t.settles, t.dsl, t.sched, t.tracker, t.ring, t.engine, t.faults, t.power, t.store, t.occasion)

/-- Every part but sched. -/
abbrev butSched (t : State) :=
  (t.pending, t.phase, t.clock, t.pins, t.twoPorts, t.gateway, t.modem, t.channels, t.lines, t.relays,
        t.settles, t.dsl, t.tracker, t.ports, t.ring, t.engine, t.faults, t.power, t.store, t.occasion)

/-- Every part but lines, sched, tracker, ports, ring, engine, faults. -/
abbrev butLinesSchedTrackerPortsRingEngineFaults (t : State) :=
  (t.pending, t.phase, t.clock, t.pins, t.twoPorts, t.gateway, t.modem, t.channels, t.relays, t.settles,
        t.dsl, t.power, t.store, t.occasion)

/-- Every part but sched, ring, engine. -/
abbrev butSchedRingEngine (t : State) :=
  (t.pending, t.phase, t.clock, t.pins, t.twoPorts, t.gateway, t.modem, t.channels, t.lines, t.relays,
        t.settles, t.dsl, t.tracker, t.ports, t.faults, t.power, t.store, t.occasion)

/-- Every part but settles. -/
abbrev butSettles (t : State) :=
  (t.pending, t.phase, t.clock, t.pins, t.twoPorts, t.gateway, t.modem, t.channels, t.lines, t.relays,
        t.dsl, t.sched, t.tracker, t.ports, t.ring, t.engine, t.faults, t.power, t.store, t.occasion)

/-- Every part but relays. -/
abbrev butRelays (t : State) :=
  (t.pending, t.phase, t.clock, t.pins, t.twoPorts, t.gateway, t.modem, t.channels, t.lines, t.settles,
        t.dsl, t.sched, t.tracker, t.ports, t.ring, t.engine, t.faults, t.power, t.store, t.occasion)

/-- Every part but sched, tracker. -/
abbrev butSchedTracker (t : State) :=
  (t.pending, t.phase, t.clock, t.pins, t.twoPorts, t.gateway, t.modem, t.channels, t.lines, t.relays,
        t.settles, t.dsl, t.ports, t.ring, t.engine, t.faults, t.power, t.store, t.occasion)

/-- Every part but relays, ports. -/
abbrev butRelaysPorts (t : State) :=
  (t.pending, t.phase, t.clock, t.pins, t.twoPorts, t.gateway, t.modem, t.channels, t.lines, t.settles,
        t.dsl, t.sched, t.tracker, t.ring, t.engine, t.faults, t.power, t.store, t.occasion)

/-- Every part but relays, settles. -/
abbrev butRelaysSettles (t : State) :=
  (t.pending, t.phase, t.clock, t.pins, t.twoPorts, t.gateway, t.modem, t.channels, t.lines, t.dsl,
        t.sched, t.tracker, t.ports, t.ring, t.engine, t.faults, t.power, t.store, t.occasion)

/-- Every part but relays, settles, faults. -/
abbrev butRelaysSettlesFaults (t : State) :=
  (t.pending, t.phase, t.clock, t.pins, t.twoPorts, t.gateway, t.modem, t.channels, t.lines, t.dsl,
        t.sched, t.tracker, t.ports, t.ring, t.engine, t.power, t.store, t.occasion)

/-- Every part but sched, tracker, engine. -/
abbrev butSchedTrackerEngine (t : State) :=
  (t.pending, t.phase, t.clock, t.pins, t.twoPorts, t.gateway, t.modem, t.channels, t.lines, t.relays,
        t.settles, t.dsl, t.ports, t.ring, t.faults, t.power, t.store, t.occasion)

/-- Every part but channels, tracker, engine. -/
abbrev butChannelsTrackerEngine (t : State) :=
  (t.pending, t.phase, t.clock, t.pins, t.twoPorts, t.gateway, t.modem, t.lines, t.relays, t.settles,
        t.dsl, t.sched, t.ports, t.ring, t.faults, t.power, t.store, t.occasion)

/-- Every part but sched, tracker, ports, ring, engine. -/
abbrev butSchedTrackerPortsRingEngine (t : State) :=
  (t.pending, t.phase, t.clock, t.pins, t.twoPorts, t.gateway, t.modem, t.channels, t.lines, t.relays,
        t.settles, t.dsl, t.faults, t.power, t.store, t.occasion)

/-- Every part but channels, ring. -/
abbrev butChannelsRing (t : State) :=
  (t.pending, t.phase, t.clock, t.pins, t.twoPorts, t.gateway, t.modem, t.lines, t.relays, t.settles,
        t.dsl, t.sched, t.tracker, t.ports, t.engine, t.faults, t.power, t.store, t.occasion)

/-- Every part but channels, sched. -/
abbrev butChannelsSched (t : State) :=
  (t.pending, t.phase, t.clock, t.pins, t.twoPorts, t.gateway, t.modem, t.lines, t.relays, t.settles,
        t.dsl, t.tracker, t.ports, t.ring, t.engine, t.faults, t.power, t.store, t.occasion)

/-- Every part but ports, faults. -/
abbrev butPortsFaults (t : State) :=
  (t.pending, t.phase, t.clock, t.pins, t.twoPorts, t.gateway, t.modem, t.channels, t.lines, t.relays,
        t.settles, t.dsl, t.sched, t.tracker, t.ring, t.engine, t.power, t.store, t.occasion)

/-- Every part but channels, sched, engine. -/
abbrev butChannelsSchedEngine (t : State) :=
  (t.pending, t.phase, t.clock, t.pins, t.twoPorts, t.gateway, t.modem, t.lines, t.relays, t.settles,
        t.dsl, t.tracker, t.ports, t.ring, t.faults, t.power, t.store, t.occasion)

/-- Every part but channels, tracker, engine, faults. -/
abbrev butChannelsTrackerEngineFaults (t : State) :=
  (t.pending, t.phase, t.clock, t.pins, t.twoPorts, t.gateway, t.modem, t.lines, t.relays, t.settles,
        t.dsl, t.sched, t.ports, t.ring, t.power, t.store, t.occasion)

/-- Every part but channels, faults, store. -/
abbrev butChannelsFaultsStore (t : State) :=
  (t.pending, t.phase, t.clock, t.pins, t.twoPorts, t.gateway, t.modem, t.lines, t.relays, t.settles,
        t.dsl, t.sched, t.tracker, t.ports, t.ring, t.engine, t.power, t.occasion)

/-- Every part but channels, sched, tracker, ring, engine. -/
abbrev butChannelsSchedTrackerRingEngine (t : State) :=
  (t.pending, t.phase, t.clock, t.pins, t.twoPorts, t.gateway, t.modem, t.lines, t.relays, t.settles,
        t.dsl, t.ports, t.faults, t.power, t.store, t.occasion)

/-- Every part but channels, ports. -/
abbrev butChannelsPorts (t : State) :=
  (t.pending, t.phase, t.clock, t.pins, t.twoPorts, t.gateway, t.modem, t.lines, t.relays, t.settles,
        t.dsl, t.sched, t.tracker, t.ring, t.engine, t.faults, t.power, t.store, t.occasion)

/-- Every part but channels, ports, faults. -/
abbrev butChannelsPortsFaults (t : State) :=
  (t.pending, t.phase, t.clock, t.pins, t.twoPorts, t.gateway, t.modem, t.lines, t.relays, t.settles,
        t.dsl, t.sched, t.tracker, t.ring, t.engine, t.power, t.store, t.occasion)

/-- Every part but channels, tracker, faults. -/
abbrev butChannelsTrackerFaults (t : State) :=
  (t.pending, t.phase, t.clock, t.pins, t.twoPorts, t.gateway, t.modem, t.lines, t.relays, t.settles,
        t.dsl, t.sched, t.ports, t.ring, t.engine, t.power, t.store, t.occasion)

/-- Every part but channels, dsl, sched. -/
abbrev butChannelsDslSched (t : State) :=
  (t.pending, t.phase, t.clock, t.pins, t.twoPorts, t.gateway, t.modem, t.lines, t.relays, t.settles,
        t.tracker, t.ports, t.ring, t.engine, t.faults, t.power, t.store, t.occasion)

/-- Every part but channels, dsl, sched, engine. -/
abbrev butChannelsDslSchedEngine (t : State) :=
  (t.pending, t.phase, t.clock, t.pins, t.twoPorts, t.gateway, t.modem, t.lines, t.relays, t.settles,
        t.tracker, t.ports, t.ring, t.faults, t.power, t.store, t.occasion)

/-- Every part but channels, sched, tracker, ports, engine, faults. -/
abbrev butChannelsSchedTrackerPortsEngineFaults (t : State) :=
  (t.pending, t.phase, t.clock, t.pins, t.twoPorts, t.gateway, t.modem, t.lines, t.relays, t.settles,
        t.dsl, t.ring, t.power, t.store, t.occasion)

/-- Every part but channels, relays, settles, sched, tracker, ports, engine, faults. -/
abbrev butChannelsRelaysSettlesSchedTrackerPortsEngineFaults (t : State) :=
  (t.pending, t.phase, t.clock, t.pins, t.twoPorts, t.gateway, t.modem, t.lines, t.dsl, t.ring, t.power,
        t.store, t.occasion)

/-- Every part but channels, relays, sched, tracker, ports, engine, faults. -/
abbrev butChannelsRelaysSchedTrackerPortsEngineFaults (t : State) :=
  (t.pending, t.phase, t.clock, t.pins, t.twoPorts, t.gateway, t.modem, t.lines, t.settles, t.dsl, t.ring,
        t.power, t.store, t.occasion)

/-- Every part but channels, sched, tracker, ports, ring, engine, faults. -/
abbrev butChannelsSchedTrackerPortsRingEngineFaults (t : State) :=
  (t.pending, t.phase, t.clock, t.pins, t.twoPorts, t.gateway, t.modem, t.lines, t.relays, t.settles,
        t.dsl, t.power, t.store, t.occasion)

/-- Every part but channels, relays, settles, dsl, sched, tracker, ports, engine, faults. -/
abbrev butChannelsRelaysSettlesDslSchedTrackerPortsEngineFaults (t : State) :=
  (t.pending, t.phase, t.clock, t.pins, t.twoPorts, t.gateway, t.modem, t.lines, t.ring, t.power, t.store,
        t.occasion)

/-- Every part but channels, relays, settles, dsl, sched, tracker, ports, ring, engine, faults. -/
abbrev butChannelsRelaysSettlesDslSchedTrackerPortsRingEngineFaults (t : State) :=
  (t.pending, t.phase, t.clock, t.pins, t.twoPorts, t.gateway, t.modem, t.lines, t.power, t.store, t.occasion)

/-- Every part but channels, lines, sched, tracker, ports, ring, engine, faults. -/
abbrev butChannelsLinesSchedTrackerPortsRingEngineFaults (t : State) :=
  (t.pending, t.phase, t.clock, t.pins, t.twoPorts, t.gateway, t.modem, t.relays, t.settles, t.dsl,
        t.power, t.store, t.occasion)

/-- Every part but channels, relays, sched, tracker, ports, ring, engine, faults. -/
abbrev butChannelsRelaysSchedTrackerPortsRingEngineFaults (t : State) :=
  (t.pending, t.phase, t.clock, t.pins, t.twoPorts, t.gateway, t.modem, t.lines, t.settles, t.dsl,
        t.power, t.store, t.occasion)

/-- Every part but channels, lines, relays, settles, dsl, sched, tracker, ports, ring, engine, faults. -/
abbrev butChannelsLinesRelaysSettlesDslSchedTrackerPortsRingEngineFaults (t : State) :=
  (t.pending, t.phase, t.clock, t.pins, t.twoPorts, t.gateway, t.modem, t.power, t.store, t.occasion)

/-- Every part but channels, lines, relays, settles, dsl, sched, tracker, ports, ring, engine, faults, power. -/
abbrev butChannelsLinesRelaysSettlesDslSchedTrackerPortsRingEngineFaultsPower (t : State) :=
  (t.pending, t.phase, t.clock, t.pins, t.twoPorts, t.gateway, t.modem, t.store, t.occasion)

@[simp] theorem setReady_frame (b : Bool) (s : State) :
    (setReady b s).pending = s.pending ∧ (setReady b s).phase = s.phase ∧ (setReady b s).clock = s.clock ∧
    (setReady b s).pins = s.pins ∧ (setReady b s).twoPorts = s.twoPorts ∧
    (setReady b s).channels = s.channels ∧ (setReady b s).lines = s.lines ∧ (setReady b s).relays = s.relays ∧
    (setReady b s).settles = s.settles ∧ (setReady b s).dsl = s.dsl ∧ (setReady b s).sched = s.sched ∧
    (setReady b s).tracker = s.tracker ∧ (setReady b s).ports = s.ports ∧ (setReady b s).ring = s.ring ∧
    (setReady b s).engine = s.engine ∧ (setReady b s).faults = s.faults ∧ (setReady b s).power = s.power ∧
    (setReady b s).store = s.store ∧ (setReady b s).occasion = s.occasion := by
  have h : butGatewayModem (setReady b s) = butGatewayModem s := by
    unfold setReady; simp [butGatewayModem]
  simpa [butGatewayModem] using h

@[simp] theorem setModemPartial_frame (l : List Byte) (s : State) :
    (setModemPartial l s).pending = s.pending ∧ (setModemPartial l s).phase = s.phase ∧
    (setModemPartial l s).clock = s.clock ∧ (setModemPartial l s).pins = s.pins ∧
    (setModemPartial l s).twoPorts = s.twoPorts ∧ (setModemPartial l s).gateway = s.gateway ∧
    (setModemPartial l s).channels = s.channels ∧ (setModemPartial l s).lines = s.lines ∧
    (setModemPartial l s).relays = s.relays ∧ (setModemPartial l s).settles = s.settles ∧
    (setModemPartial l s).dsl = s.dsl ∧ (setModemPartial l s).sched = s.sched ∧
    (setModemPartial l s).tracker = s.tracker ∧ (setModemPartial l s).ports = s.ports ∧
    (setModemPartial l s).ring = s.ring ∧ (setModemPartial l s).engine = s.engine ∧
    (setModemPartial l s).faults = s.faults ∧ (setModemPartial l s).power = s.power ∧
    (setModemPartial l s).store = s.store ∧ (setModemPartial l s).occasion = s.occasion := by
  have h : butModem (setModemPartial l s) = butModem s := by
    unfold setModemPartial; simp [butModem]
  simpa [butModem] using h

@[simp] theorem setGatewayPartial_frame (l : List Byte) (s : State) :
    (setGatewayPartial l s).pending = s.pending ∧ (setGatewayPartial l s).phase = s.phase ∧
    (setGatewayPartial l s).clock = s.clock ∧ (setGatewayPartial l s).pins = s.pins ∧
    (setGatewayPartial l s).twoPorts = s.twoPorts ∧ (setGatewayPartial l s).modem = s.modem ∧
    (setGatewayPartial l s).channels = s.channels ∧ (setGatewayPartial l s).lines = s.lines ∧
    (setGatewayPartial l s).relays = s.relays ∧ (setGatewayPartial l s).settles = s.settles ∧
    (setGatewayPartial l s).dsl = s.dsl ∧ (setGatewayPartial l s).sched = s.sched ∧
    (setGatewayPartial l s).tracker = s.tracker ∧ (setGatewayPartial l s).ports = s.ports ∧
    (setGatewayPartial l s).ring = s.ring ∧ (setGatewayPartial l s).engine = s.engine ∧
    (setGatewayPartial l s).faults = s.faults ∧ (setGatewayPartial l s).power = s.power ∧
    (setGatewayPartial l s).store = s.store ∧ (setGatewayPartial l s).occasion = s.occasion := by
  have h : butGateway (setGatewayPartial l s) = butGateway s := by
    unfold setGatewayPartial; simp [butGateway]
  simpa [butGateway] using h

@[simp] theorem setClaims_frame (q : List ClaimEntry) (s : State) :
    (setClaims q s).pending = s.pending ∧ (setClaims q s).phase = s.phase ∧ (setClaims q s).clock = s.clock ∧
    (setClaims q s).pins = s.pins ∧ (setClaims q s).twoPorts = s.twoPorts ∧
    (setClaims q s).gateway = s.gateway ∧ (setClaims q s).modem = s.modem ∧
    (setClaims q s).channels = s.channels ∧ (setClaims q s).relays = s.relays ∧
    (setClaims q s).settles = s.settles ∧ (setClaims q s).dsl = s.dsl ∧ (setClaims q s).sched = s.sched ∧
    (setClaims q s).tracker = s.tracker ∧ (setClaims q s).ports = s.ports ∧ (setClaims q s).ring = s.ring ∧
    (setClaims q s).engine = s.engine ∧ (setClaims q s).faults = s.faults ∧ (setClaims q s).power = s.power ∧
    (setClaims q s).store = s.store ∧ (setClaims q s).occasion = s.occasion := by
  have h : butLines (setClaims q s) = butLines s := by
    unfold setClaims; simp [butLines]
  simpa [butLines] using h

@[simp] theorem setDeadTime_frame (dt : Nat) (s : State) :
    (setDeadTime dt s).pending = s.pending ∧ (setDeadTime dt s).phase = s.phase ∧
    (setDeadTime dt s).clock = s.clock ∧ (setDeadTime dt s).pins = s.pins ∧
    (setDeadTime dt s).twoPorts = s.twoPorts ∧ (setDeadTime dt s).gateway = s.gateway ∧
    (setDeadTime dt s).modem = s.modem ∧ (setDeadTime dt s).channels = s.channels ∧
    (setDeadTime dt s).lines = s.lines ∧ (setDeadTime dt s).relays = s.relays ∧
    (setDeadTime dt s).settles = s.settles ∧ (setDeadTime dt s).dsl = s.dsl ∧
    (setDeadTime dt s).sched = s.sched ∧ (setDeadTime dt s).ports = s.ports ∧
    (setDeadTime dt s).ring = s.ring ∧ (setDeadTime dt s).engine = s.engine ∧
    (setDeadTime dt s).faults = s.faults ∧ (setDeadTime dt s).power = s.power ∧
    (setDeadTime dt s).store = s.store ∧ (setDeadTime dt s).occasion = s.occasion := by
  have h : butTracker (setDeadTime dt s) = butTracker s := by
    unfold setDeadTime; simp [butTracker]
  simpa [butTracker] using h

@[simp] theorem count_frame (c : EdgeClass) (s : State) :
    (count c s).pending = s.pending ∧ (count c s).phase = s.phase ∧ (count c s).clock = s.clock ∧
    (count c s).pins = s.pins ∧ (count c s).twoPorts = s.twoPorts ∧ (count c s).gateway = s.gateway ∧
    (count c s).modem = s.modem ∧ (count c s).channels = s.channels ∧ (count c s).lines = s.lines ∧
    (count c s).relays = s.relays ∧ (count c s).settles = s.settles ∧ (count c s).dsl = s.dsl ∧
    (count c s).sched = s.sched ∧ (count c s).ports = s.ports ∧ (count c s).ring = s.ring ∧
    (count c s).engine = s.engine ∧ (count c s).faults = s.faults ∧ (count c s).power = s.power ∧
    (count c s).store = s.store ∧ (count c s).occasion = s.occasion := by
  have h : butTracker (count c s) = butTracker s := by
    unfold count; simp [butTracker]
  simpa [butTracker] using h

@[simp] theorem updFunc_frame (f : Func) (g : FuncRec → FuncRec) (s : State) :
    (updFunc f g s).pending = s.pending ∧ (updFunc f g s).phase = s.phase ∧ (updFunc f g s).clock = s.clock ∧
    (updFunc f g s).pins = s.pins ∧ (updFunc f g s).twoPorts = s.twoPorts ∧
    (updFunc f g s).gateway = s.gateway ∧ (updFunc f g s).modem = s.modem ∧
    (updFunc f g s).channels = s.channels ∧ (updFunc f g s).relays = s.relays ∧
    (updFunc f g s).settles = s.settles ∧ (updFunc f g s).dsl = s.dsl ∧ (updFunc f g s).sched = s.sched ∧
    (updFunc f g s).tracker = s.tracker ∧ (updFunc f g s).ports = s.ports ∧ (updFunc f g s).ring = s.ring ∧
    (updFunc f g s).engine = s.engine ∧ (updFunc f g s).faults = s.faults ∧ (updFunc f g s).power = s.power ∧
    (updFunc f g s).store = s.store ∧ (updFunc f g s).occasion = s.occasion := by
  have h : butLines (updFunc f g s) = butLines s := by
    unfold updFunc; simp [butLines]
  simpa [butLines] using h

@[simp] theorem beginTaking_frame (s : State) :
    (beginTaking s).pending = s.pending ∧ (beginTaking s).phase = s.phase ∧ (beginTaking s).clock = s.clock ∧
    (beginTaking s).pins = s.pins ∧ (beginTaking s).twoPorts = s.twoPorts ∧
    (beginTaking s).gateway = s.gateway ∧ (beginTaking s).modem = s.modem ∧
    (beginTaking s).channels = s.channels ∧ (beginTaking s).lines = s.lines ∧
    (beginTaking s).relays = s.relays ∧ (beginTaking s).settles = s.settles ∧ (beginTaking s).dsl = s.dsl ∧
    (beginTaking s).sched = s.sched ∧ (beginTaking s).tracker = s.tracker ∧ (beginTaking s).ports = s.ports ∧
    (beginTaking s).ring = s.ring ∧ (beginTaking s).engine = s.engine ∧ (beginTaking s).power = s.power ∧
    (beginTaking s).store = s.store ∧ (beginTaking s).occasion = s.occasion := by
  have h : butFaults (beginTaking s) = butFaults s := by
    unfold beginTaking; simp [butFaults]
  simpa [butFaults] using h

@[simp] theorem updExchange_frame (f : ExchangeRing → ExchangeRing) (s : State) :
    (updExchange f s).pending = s.pending ∧ (updExchange f s).phase = s.phase ∧
    (updExchange f s).clock = s.clock ∧ (updExchange f s).pins = s.pins ∧
    (updExchange f s).twoPorts = s.twoPorts ∧ (updExchange f s).gateway = s.gateway ∧
    (updExchange f s).modem = s.modem ∧ (updExchange f s).channels = s.channels ∧
    (updExchange f s).lines = s.lines ∧ (updExchange f s).relays = s.relays ∧
    (updExchange f s).settles = s.settles ∧ (updExchange f s).dsl = s.dsl ∧ (updExchange f s).sched = s.sched ∧
    (updExchange f s).tracker = s.tracker ∧ (updExchange f s).ports = s.ports ∧
    (updExchange f s).engine = s.engine ∧ (updExchange f s).faults = s.faults ∧
    (updExchange f s).power = s.power ∧ (updExchange f s).store = s.store ∧
    (updExchange f s).occasion = s.occasion := by
  have h : butRing (updExchange f s) = butRing s := by
    unfold updExchange; simp [butRing]
  simpa [butRing] using h

@[simp] theorem updTest_frame (f : Test → Test) (s : State) :
    (updTest f s).pending = s.pending ∧ (updTest f s).phase = s.phase ∧ (updTest f s).clock = s.clock ∧
    (updTest f s).pins = s.pins ∧ (updTest f s).twoPorts = s.twoPorts ∧ (updTest f s).gateway = s.gateway ∧
    (updTest f s).modem = s.modem ∧ (updTest f s).channels = s.channels ∧ (updTest f s).lines = s.lines ∧
    (updTest f s).relays = s.relays ∧ (updTest f s).settles = s.settles ∧ (updTest f s).dsl = s.dsl ∧
    (updTest f s).sched = s.sched ∧ (updTest f s).tracker = s.tracker ∧ (updTest f s).ports = s.ports ∧
    (updTest f s).ring = s.ring ∧ (updTest f s).faults = s.faults ∧ (updTest f s).power = s.power ∧
    (updTest f s).store = s.store ∧ (updTest f s).occasion = s.occasion := by
  have h : butEngine (updTest f s) = butEngine s := by
    unfold updTest; simp [butEngine]
  simpa [butEngine] using h

@[simp] theorem setGate_frame (n : Nat) (g : Option Gate) (s : State) :
    (setGate n g s).pending = s.pending ∧ (setGate n g s).phase = s.phase ∧ (setGate n g s).clock = s.clock ∧
    (setGate n g s).pins = s.pins ∧ (setGate n g s).twoPorts = s.twoPorts ∧
    (setGate n g s).gateway = s.gateway ∧ (setGate n g s).modem = s.modem ∧
    (setGate n g s).channels = s.channels ∧ (setGate n g s).lines = s.lines ∧
    (setGate n g s).relays = s.relays ∧ (setGate n g s).settles = s.settles ∧ (setGate n g s).dsl = s.dsl ∧
    (setGate n g s).sched = s.sched ∧ (setGate n g s).tracker = s.tracker ∧ (setGate n g s).ports = s.ports ∧
    (setGate n g s).ring = s.ring ∧ (setGate n g s).faults = s.faults ∧ (setGate n g s).power = s.power ∧
    (setGate n g s).store = s.store ∧ (setGate n g s).occasion = s.occasion := by
  have h : butEngine (setGate n g s) = butEngine s := by
    unfold setGate; simp [butEngine]
  simpa [butEngine] using h

@[simp] theorem queueEdge_frame (s : State) :
    (queueEdge s).pending = s.pending ∧ (queueEdge s).phase = s.phase ∧ (queueEdge s).clock = s.clock ∧
    (queueEdge s).pins = s.pins ∧ (queueEdge s).twoPorts = s.twoPorts ∧ (queueEdge s).gateway = s.gateway ∧
    (queueEdge s).modem = s.modem ∧ (queueEdge s).channels = s.channels ∧ (queueEdge s).lines = s.lines ∧
    (queueEdge s).relays = s.relays ∧ (queueEdge s).settles = s.settles ∧ (queueEdge s).dsl = s.dsl ∧
    (queueEdge s).sched = s.sched ∧ (queueEdge s).ports = s.ports ∧ (queueEdge s).ring = s.ring ∧
    (queueEdge s).engine = s.engine ∧ (queueEdge s).faults = s.faults ∧ (queueEdge s).power = s.power ∧
    (queueEdge s).store = s.store ∧ (queueEdge s).occasion = s.occasion := by
  have h : butTracker (queueEdge s) = butTracker s := by
    unfold queueEdge; dsimp only; (repeat' split) <;> simp [butTracker]
  simpa [butTracker] using h

@[simp] theorem sampleStraps_frame (x : Straps) (s : State) :
    (sampleStraps x s).pending = s.pending ∧ (sampleStraps x s).phase = s.phase ∧
    (sampleStraps x s).clock = s.clock ∧ (sampleStraps x s).pins = s.pins ∧
    (sampleStraps x s).gateway = s.gateway ∧ (sampleStraps x s).modem = s.modem ∧
    (sampleStraps x s).channels = s.channels ∧ (sampleStraps x s).lines = s.lines ∧
    (sampleStraps x s).relays = s.relays ∧ (sampleStraps x s).settles = s.settles ∧
    (sampleStraps x s).dsl = s.dsl ∧ (sampleStraps x s).sched = s.sched ∧
    (sampleStraps x s).tracker = s.tracker ∧ (sampleStraps x s).ports = s.ports ∧
    (sampleStraps x s).ring = s.ring ∧ (sampleStraps x s).engine = s.engine ∧
    (sampleStraps x s).faults = s.faults ∧ (sampleStraps x s).power = s.power ∧
    (sampleStraps x s).store = s.store ∧ (sampleStraps x s).occasion = s.occasion := by
  have h : butTwoPorts (sampleStraps x s) = butTwoPorts s := by
    unfold sampleStraps; simp [butTwoPorts]
  simpa [butTwoPorts] using h

@[simp] theorem mergeEdge_frame (s : State) :
    (mergeEdge s).pending = s.pending ∧ (mergeEdge s).phase = s.phase ∧ (mergeEdge s).clock = s.clock ∧
    (mergeEdge s).pins = s.pins ∧ (mergeEdge s).twoPorts = s.twoPorts ∧ (mergeEdge s).gateway = s.gateway ∧
    (mergeEdge s).modem = s.modem ∧ (mergeEdge s).channels = s.channels ∧ (mergeEdge s).lines = s.lines ∧
    (mergeEdge s).relays = s.relays ∧ (mergeEdge s).settles = s.settles ∧ (mergeEdge s).dsl = s.dsl ∧
    (mergeEdge s).sched = s.sched ∧ (mergeEdge s).ports = s.ports ∧ (mergeEdge s).ring = s.ring ∧
    (mergeEdge s).engine = s.engine ∧ (mergeEdge s).faults = s.faults ∧ (mergeEdge s).power = s.power ∧
    (mergeEdge s).store = s.store ∧ (mergeEdge s).occasion = s.occasion := by
  have h : butTracker (mergeEdge s) = butTracker s := by
    unfold mergeEdge; simp [butTracker]
  simpa [butTracker] using h

@[simp] theorem makeHold_frame (f : Func) (c : Channel) (level : Nat) (gate : Option Nat) (s : State) :
    (makeHold f c level gate s).pending = s.pending ∧ (makeHold f c level gate s).phase = s.phase ∧
    (makeHold f c level gate s).clock = s.clock ∧ (makeHold f c level gate s).pins = s.pins ∧
    (makeHold f c level gate s).twoPorts = s.twoPorts ∧ (makeHold f c level gate s).gateway = s.gateway ∧
    (makeHold f c level gate s).modem = s.modem ∧ (makeHold f c level gate s).channels = s.channels ∧
    (makeHold f c level gate s).relays = s.relays ∧ (makeHold f c level gate s).settles = s.settles ∧
    (makeHold f c level gate s).dsl = s.dsl ∧ (makeHold f c level gate s).sched = s.sched ∧
    (makeHold f c level gate s).tracker = s.tracker ∧ (makeHold f c level gate s).ports = s.ports ∧
    (makeHold f c level gate s).ring = s.ring ∧ (makeHold f c level gate s).engine = s.engine ∧
    (makeHold f c level gate s).faults = s.faults ∧ (makeHold f c level gate s).power = s.power ∧
    (makeHold f c level gate s).store = s.store ∧ (makeHold f c level gate s).occasion = s.occasion := by
  have h : butLines (makeHold f c level gate s) = butLines s := by
    unfold makeHold; simp [butLines]
  simpa [butLines] using h

@[simp] theorem reading_frame (s : State) :
    (reading s).pending = s.pending ∧ (reading s).phase = s.phase ∧ (reading s).clock = s.clock ∧
    (reading s).pins = s.pins ∧ (reading s).twoPorts = s.twoPorts ∧ (reading s).gateway = s.gateway ∧
    (reading s).modem = s.modem ∧ (reading s).channels = s.channels ∧ (reading s).lines = s.lines ∧
    (reading s).relays = s.relays ∧ (reading s).settles = s.settles ∧ (reading s).dsl = s.dsl ∧
    (reading s).sched = s.sched ∧ (reading s).tracker = s.tracker ∧ (reading s).ports = s.ports ∧
    (reading s).ring = s.ring ∧ (reading s).faults = s.faults ∧ (reading s).power = s.power ∧
    (reading s).store = s.store ∧ (reading s).occasion = s.occasion := by
  have h : butEngine (reading s) = butEngine s := by
    unfold reading; (repeat' split) <;> simp [butEngine]
  simpa [butEngine] using h

@[simp] theorem setIsolation_frame (i : Isolation) (s : State) :
    (setIsolation i s).pending = s.pending ∧ (setIsolation i s).phase = s.phase ∧
    (setIsolation i s).clock = s.clock ∧ (setIsolation i s).pins = s.pins ∧
    (setIsolation i s).twoPorts = s.twoPorts ∧ (setIsolation i s).gateway = s.gateway ∧
    (setIsolation i s).modem = s.modem ∧ (setIsolation i s).channels = s.channels ∧
    (setIsolation i s).lines = s.lines ∧ (setIsolation i s).relays = s.relays ∧
    (setIsolation i s).settles = s.settles ∧ (setIsolation i s).dsl = s.dsl ∧
    (setIsolation i s).sched = s.sched ∧ (setIsolation i s).tracker = s.tracker ∧
    (setIsolation i s).ports = s.ports ∧ (setIsolation i s).ring = s.ring ∧
    (setIsolation i s).engine = s.engine ∧ (setIsolation i s).power = s.power ∧
    (setIsolation i s).store = s.store ∧ (setIsolation i s).occasion = s.occasion := by
  have h : butFaults (setIsolation i s) = butFaults s := by
    unfold setIsolation; simp [butFaults]
  simpa [butFaults] using h

@[simp] theorem stopTestTimers_frame (s : State) :
    (stopTestTimers s).pending = s.pending ∧ (stopTestTimers s).phase = s.phase ∧
    (stopTestTimers s).clock = s.clock ∧ (stopTestTimers s).pins = s.pins ∧
    (stopTestTimers s).twoPorts = s.twoPorts ∧ (stopTestTimers s).gateway = s.gateway ∧
    (stopTestTimers s).modem = s.modem ∧ (stopTestTimers s).channels = s.channels ∧
    (stopTestTimers s).lines = s.lines ∧ (stopTestTimers s).relays = s.relays ∧
    (stopTestTimers s).settles = s.settles ∧ (stopTestTimers s).dsl = s.dsl ∧
    (stopTestTimers s).sched = s.sched ∧ (stopTestTimers s).tracker = s.tracker ∧
    (stopTestTimers s).ports = s.ports ∧ (stopTestTimers s).ring = s.ring ∧
    (stopTestTimers s).faults = s.faults ∧ (stopTestTimers s).power = s.power ∧
    (stopTestTimers s).store = s.store ∧ (stopTestTimers s).occasion = s.occasion := by
  have h : butEngine (stopTestTimers s) = butEngine s := by
    unfold stopTestTimers; simp [butEngine]
  simpa [butEngine] using h

@[simp] theorem markUnderTest_frame (t : Target) (s : State) :
    (markUnderTest t s).pending = s.pending ∧ (markUnderTest t s).phase = s.phase ∧
    (markUnderTest t s).clock = s.clock ∧ (markUnderTest t s).pins = s.pins ∧
    (markUnderTest t s).twoPorts = s.twoPorts ∧ (markUnderTest t s).gateway = s.gateway ∧
    (markUnderTest t s).modem = s.modem ∧ (markUnderTest t s).channels = s.channels ∧
    (markUnderTest t s).lines = s.lines ∧ (markUnderTest t s).relays = s.relays ∧
    (markUnderTest t s).settles = s.settles ∧ (markUnderTest t s).dsl = s.dsl ∧
    (markUnderTest t s).sched = s.sched ∧ (markUnderTest t s).tracker = s.tracker ∧
    (markUnderTest t s).ring = s.ring ∧ (markUnderTest t s).engine = s.engine ∧
    (markUnderTest t s).faults = s.faults ∧ (markUnderTest t s).power = s.power ∧
    (markUnderTest t s).store = s.store ∧ (markUnderTest t s).occasion = s.occasion := by
  have h : butPorts (markUnderTest t s) = butPorts s := by
    unfold markUnderTest; (repeat' split) <;> simp [butPorts]
  simpa [butPorts] using h

@[simp] theorem dropClaim_frame (c : Channel) (f : Func) (s : State) :
    (dropClaim c f s).pending = s.pending ∧ (dropClaim c f s).phase = s.phase ∧
    (dropClaim c f s).clock = s.clock ∧ (dropClaim c f s).pins = s.pins ∧
    (dropClaim c f s).twoPorts = s.twoPorts ∧ (dropClaim c f s).gateway = s.gateway ∧
    (dropClaim c f s).modem = s.modem ∧ (dropClaim c f s).channels = s.channels ∧
    (dropClaim c f s).relays = s.relays ∧ (dropClaim c f s).settles = s.settles ∧
    (dropClaim c f s).dsl = s.dsl ∧ (dropClaim c f s).sched = s.sched ∧ (dropClaim c f s).tracker = s.tracker ∧
    (dropClaim c f s).ports = s.ports ∧ (dropClaim c f s).ring = s.ring ∧ (dropClaim c f s).engine = s.engine ∧
    (dropClaim c f s).faults = s.faults ∧ (dropClaim c f s).power = s.power ∧
    (dropClaim c f s).store = s.store ∧ (dropClaim c f s).occasion = s.occasion := by
  have h : butLines (dropClaim c f s) = butLines s := by
    unfold dropClaim; simp [butLines]
  simpa [butLines] using h

@[simp] theorem setSlot_frame (i : SlotId) (d : Option Disturbance) (s : State) :
    (setSlot i d s).pending = s.pending ∧ (setSlot i d s).phase = s.phase ∧ (setSlot i d s).clock = s.clock ∧
    (setSlot i d s).pins = s.pins ∧ (setSlot i d s).twoPorts = s.twoPorts ∧
    (setSlot i d s).gateway = s.gateway ∧ (setSlot i d s).modem = s.modem ∧
    (setSlot i d s).channels = s.channels ∧ (setSlot i d s).lines = s.lines ∧
    (setSlot i d s).relays = s.relays ∧ (setSlot i d s).settles = s.settles ∧ (setSlot i d s).dsl = s.dsl ∧
    (setSlot i d s).tracker = s.tracker ∧ (setSlot i d s).ports = s.ports ∧ (setSlot i d s).ring = s.ring ∧
    (setSlot i d s).engine = s.engine ∧ (setSlot i d s).faults = s.faults ∧ (setSlot i d s).power = s.power ∧
    (setSlot i d s).store = s.store ∧ (setSlot i d s).occasion = s.occasion := by
  have h : butSched (setSlot i d s) = butSched s := by
    unfold setSlot; simp [butSched]
  simpa [butSched] using h

@[simp] theorem learnEdge_frame (t : Time) (c : Nat) (pe : Nat) (s : State) :
    (learnEdge t c pe s).pending = s.pending ∧ (learnEdge t c pe s).phase = s.phase ∧
    (learnEdge t c pe s).clock = s.clock ∧ (learnEdge t c pe s).pins = s.pins ∧
    (learnEdge t c pe s).twoPorts = s.twoPorts ∧ (learnEdge t c pe s).gateway = s.gateway ∧
    (learnEdge t c pe s).modem = s.modem ∧ (learnEdge t c pe s).channels = s.channels ∧
    (learnEdge t c pe s).lines = s.lines ∧ (learnEdge t c pe s).relays = s.relays ∧
    (learnEdge t c pe s).settles = s.settles ∧ (learnEdge t c pe s).dsl = s.dsl ∧
    (learnEdge t c pe s).sched = s.sched ∧ (learnEdge t c pe s).ports = s.ports ∧
    (learnEdge t c pe s).ring = s.ring ∧ (learnEdge t c pe s).engine = s.engine ∧
    (learnEdge t c pe s).faults = s.faults ∧ (learnEdge t c pe s).power = s.power ∧
    (learnEdge t c pe s).store = s.store ∧ (learnEdge t c pe s).occasion = s.occasion := by
  have h : butTracker (learnEdge t c pe s) = butTracker s := by
    unfold learnEdge; simp [butTracker]
  simpa [butTracker] using h

@[simp] theorem putInForce_frame (x : Settings) (s : State) :
    (putInForce x s).pending = s.pending ∧ (putInForce x s).phase = s.phase ∧
    (putInForce x s).clock = s.clock ∧ (putInForce x s).pins = s.pins ∧
    (putInForce x s).twoPorts = s.twoPorts ∧ (putInForce x s).gateway = s.gateway ∧
    (putInForce x s).modem = s.modem ∧ (putInForce x s).channels = s.channels ∧
    (putInForce x s).relays = s.relays ∧ (putInForce x s).settles = s.settles ∧ (putInForce x s).dsl = s.dsl ∧
    (putInForce x s).power = s.power ∧ (putInForce x s).store = s.store ∧
    (putInForce x s).occasion = s.occasion := by
  have h : butLinesSchedTrackerPortsRingEngineFaults (putInForce x s) =
        butLinesSchedTrackerPortsRingEngineFaults s := by
    unfold putInForce; simp [butLinesSchedTrackerPortsRingEngineFaults]
  simpa [butLinesSchedTrackerPortsRingEngineFaults] using h

@[simp] theorem endDenial_frame (p : Port) (s : State) :
    (endDenial p s).pending = s.pending ∧ (endDenial p s).phase = s.phase ∧ (endDenial p s).clock = s.clock ∧
    (endDenial p s).pins = s.pins ∧ (endDenial p s).twoPorts = s.twoPorts ∧
    (endDenial p s).gateway = s.gateway ∧ (endDenial p s).modem = s.modem ∧
    (endDenial p s).channels = s.channels ∧ (endDenial p s).lines = s.lines ∧
    (endDenial p s).relays = s.relays ∧ (endDenial p s).settles = s.settles ∧ (endDenial p s).dsl = s.dsl ∧
    (endDenial p s).sched = s.sched ∧ (endDenial p s).tracker = s.tracker ∧ (endDenial p s).ring = s.ring ∧
    (endDenial p s).engine = s.engine ∧ (endDenial p s).faults = s.faults ∧ (endDenial p s).power = s.power ∧
    (endDenial p s).store = s.store ∧ (endDenial p s).occasion = s.occasion := by
  have h : butPorts (endDenial p s) = butPorts s := by
    unfold endDenial; simp [butPorts]
  simpa [butPorts] using h

@[simp] theorem removeHold_frame (f : Func) (s : State) :
    (removeHold f s).pending = s.pending ∧ (removeHold f s).phase = s.phase ∧
    (removeHold f s).clock = s.clock ∧ (removeHold f s).pins = s.pins ∧
    (removeHold f s).twoPorts = s.twoPorts ∧ (removeHold f s).gateway = s.gateway ∧
    (removeHold f s).modem = s.modem ∧ (removeHold f s).channels = s.channels ∧
    (removeHold f s).relays = s.relays ∧ (removeHold f s).settles = s.settles ∧ (removeHold f s).dsl = s.dsl ∧
    (removeHold f s).sched = s.sched ∧ (removeHold f s).tracker = s.tracker ∧
    (removeHold f s).ports = s.ports ∧ (removeHold f s).ring = s.ring ∧ (removeHold f s).engine = s.engine ∧
    (removeHold f s).faults = s.faults ∧ (removeHold f s).power = s.power ∧ (removeHold f s).store = s.store ∧
    (removeHold f s).occasion = s.occasion := by
  have h : butLines (removeHold f s) = butLines s := by
    unfold removeHold; simp [butLines]
  simpa [butLines] using h

@[simp] theorem takeEdge_frame (s : State) :
    (takeEdge s).pending = s.pending ∧ (takeEdge s).phase = s.phase ∧ (takeEdge s).clock = s.clock ∧
    (takeEdge s).pins = s.pins ∧ (takeEdge s).twoPorts = s.twoPorts ∧ (takeEdge s).gateway = s.gateway ∧
    (takeEdge s).modem = s.modem ∧ (takeEdge s).channels = s.channels ∧ (takeEdge s).lines = s.lines ∧
    (takeEdge s).relays = s.relays ∧ (takeEdge s).settles = s.settles ∧ (takeEdge s).dsl = s.dsl ∧
    (takeEdge s).sched = s.sched ∧ (takeEdge s).ports = s.ports ∧ (takeEdge s).ring = s.ring ∧
    (takeEdge s).engine = s.engine ∧ (takeEdge s).faults = s.faults ∧ (takeEdge s).power = s.power ∧
    (takeEdge s).store = s.store ∧ (takeEdge s).occasion = s.occasion := by
  have h : butTracker (takeEdge s) = butTracker s := by
    unfold takeEdge; (repeat' split) <;> simp [butTracker]
  simpa [butTracker] using h

@[simp] theorem closeWindow_frame (k : WindowKey) (a1 : Time) (s : State) :
    (closeWindow k a1 s).pending = s.pending ∧ (closeWindow k a1 s).phase = s.phase ∧
    (closeWindow k a1 s).clock = s.clock ∧ (closeWindow k a1 s).pins = s.pins ∧
    (closeWindow k a1 s).twoPorts = s.twoPorts ∧ (closeWindow k a1 s).gateway = s.gateway ∧
    (closeWindow k a1 s).modem = s.modem ∧ (closeWindow k a1 s).channels = s.channels ∧
    (closeWindow k a1 s).lines = s.lines ∧ (closeWindow k a1 s).relays = s.relays ∧
    (closeWindow k a1 s).settles = s.settles ∧ (closeWindow k a1 s).dsl = s.dsl ∧
    (closeWindow k a1 s).tracker = s.tracker ∧ (closeWindow k a1 s).ports = s.ports ∧
    (closeWindow k a1 s).ring = s.ring ∧ (closeWindow k a1 s).faults = s.faults ∧
    (closeWindow k a1 s).power = s.power ∧ (closeWindow k a1 s).store = s.store ∧
    (closeWindow k a1 s).occasion = s.occasion := by
  have h : butSchedEngine (closeWindow k a1 s) = butSchedEngine s := by
    unfold closeWindow; (repeat' split) <;> simp [butSchedEngine]
  simpa [butSchedEngine] using h

@[simp] theorem departWindow_frame (a : Time) (b : Time) (s : State) :
    (departWindow a b s).pending = s.pending ∧ (departWindow a b s).phase = s.phase ∧
    (departWindow a b s).clock = s.clock ∧ (departWindow a b s).pins = s.pins ∧
    (departWindow a b s).twoPorts = s.twoPorts ∧ (departWindow a b s).gateway = s.gateway ∧
    (departWindow a b s).modem = s.modem ∧ (departWindow a b s).channels = s.channels ∧
    (departWindow a b s).lines = s.lines ∧ (departWindow a b s).relays = s.relays ∧
    (departWindow a b s).settles = s.settles ∧ (departWindow a b s).dsl = s.dsl ∧
    (departWindow a b s).sched = s.sched ∧ (departWindow a b s).ports = s.ports ∧
    (departWindow a b s).ring = s.ring ∧ (departWindow a b s).engine = s.engine ∧
    (departWindow a b s).faults = s.faults ∧ (departWindow a b s).power = s.power ∧
    (departWindow a b s).store = s.store ∧ (departWindow a b s).occasion = s.occasion := by
  have h : butTracker (departWindow a b s) = butTracker s := by
    unfold departWindow; (repeat' split) <;> simp [butTracker]
  simpa [butTracker] using h

@[simp] theorem offsetRecord_frame (s : State) :
    (offsetRecord s).pending = s.pending ∧ (offsetRecord s).phase = s.phase ∧
    (offsetRecord s).clock = s.clock ∧ (offsetRecord s).pins = s.pins ∧
    (offsetRecord s).twoPorts = s.twoPorts ∧ (offsetRecord s).gateway = s.gateway ∧
    (offsetRecord s).modem = s.modem ∧ (offsetRecord s).channels = s.channels ∧
    (offsetRecord s).lines = s.lines ∧ (offsetRecord s).relays = s.relays ∧
    (offsetRecord s).settles = s.settles ∧ (offsetRecord s).dsl = s.dsl ∧
    (offsetRecord s).tracker = s.tracker ∧ (offsetRecord s).ports = s.ports ∧
    (offsetRecord s).faults = s.faults ∧ (offsetRecord s).power = s.power ∧ (offsetRecord s).store = s.store ∧
    (offsetRecord s).occasion = s.occasion := by
  have h : butSchedRingEngine (offsetRecord s) = butSchedRingEngine s := by
    unfold offsetRecord; dsimp only; (repeat' split) <;> simp [butSchedRingEngine]
  simpa [butSchedRingEngine] using h

@[simp] theorem updFaultChannel_frame (c : Channel) (f : FaultChannel → FaultChannel) (s : State) :
    (updFaultChannel c f s).pending = s.pending ∧ (updFaultChannel c f s).phase = s.phase ∧
    (updFaultChannel c f s).clock = s.clock ∧ (updFaultChannel c f s).pins = s.pins ∧
    (updFaultChannel c f s).twoPorts = s.twoPorts ∧ (updFaultChannel c f s).gateway = s.gateway ∧
    (updFaultChannel c f s).modem = s.modem ∧ (updFaultChannel c f s).channels = s.channels ∧
    (updFaultChannel c f s).lines = s.lines ∧ (updFaultChannel c f s).relays = s.relays ∧
    (updFaultChannel c f s).settles = s.settles ∧ (updFaultChannel c f s).dsl = s.dsl ∧
    (updFaultChannel c f s).sched = s.sched ∧ (updFaultChannel c f s).tracker = s.tracker ∧
    (updFaultChannel c f s).ports = s.ports ∧ (updFaultChannel c f s).ring = s.ring ∧
    (updFaultChannel c f s).engine = s.engine ∧ (updFaultChannel c f s).power = s.power ∧
    (updFaultChannel c f s).store = s.store ∧ (updFaultChannel c f s).occasion = s.occasion := by
  have h : butFaults (updFaultChannel c f s) = butFaults s := by
    unfold updFaultChannel; simp [butFaults]
  simpa [butFaults] using h

@[simp] theorem setSession_frame (p : Port) (x : Option RingSession) (s : State) :
    (setSession p x s).pending = s.pending ∧ (setSession p x s).phase = s.phase ∧
    (setSession p x s).clock = s.clock ∧ (setSession p x s).pins = s.pins ∧
    (setSession p x s).twoPorts = s.twoPorts ∧ (setSession p x s).gateway = s.gateway ∧
    (setSession p x s).modem = s.modem ∧ (setSession p x s).channels = s.channels ∧
    (setSession p x s).lines = s.lines ∧ (setSession p x s).relays = s.relays ∧
    (setSession p x s).settles = s.settles ∧ (setSession p x s).dsl = s.dsl ∧
    (setSession p x s).sched = s.sched ∧ (setSession p x s).tracker = s.tracker ∧
    (setSession p x s).ports = s.ports ∧ (setSession p x s).engine = s.engine ∧
    (setSession p x s).faults = s.faults ∧ (setSession p x s).power = s.power ∧
    (setSession p x s).store = s.store ∧ (setSession p x s).occasion = s.occasion := by
  have h : butRing (setSession p x s) = butRing s := by
    unfold setSession; simp [butRing]
  simpa [butRing] using h

@[simp] theorem dropSettle_frame (a : Asker) (s : State) :
    (dropSettle a s).pending = s.pending ∧ (dropSettle a s).phase = s.phase ∧
    (dropSettle a s).clock = s.clock ∧ (dropSettle a s).pins = s.pins ∧
    (dropSettle a s).twoPorts = s.twoPorts ∧ (dropSettle a s).gateway = s.gateway ∧
    (dropSettle a s).modem = s.modem ∧ (dropSettle a s).channels = s.channels ∧
    (dropSettle a s).lines = s.lines ∧ (dropSettle a s).relays = s.relays ∧ (dropSettle a s).dsl = s.dsl ∧
    (dropSettle a s).sched = s.sched ∧ (dropSettle a s).tracker = s.tracker ∧
    (dropSettle a s).ports = s.ports ∧ (dropSettle a s).ring = s.ring ∧ (dropSettle a s).engine = s.engine ∧
    (dropSettle a s).faults = s.faults ∧ (dropSettle a s).power = s.power ∧ (dropSettle a s).store = s.store ∧
    (dropSettle a s).occasion = s.occasion := by
  have h : butSettles (dropSettle a s) = butSettles s := by
    unfold dropSettle; simp [butSettles]
  simpa [butSettles] using h

@[simp] theorem updSession_frame (p : Port) (f : RingSession → RingSession) (s : State) :
    (updSession p f s).pending = s.pending ∧ (updSession p f s).phase = s.phase ∧
    (updSession p f s).clock = s.clock ∧ (updSession p f s).pins = s.pins ∧
    (updSession p f s).twoPorts = s.twoPorts ∧ (updSession p f s).gateway = s.gateway ∧
    (updSession p f s).modem = s.modem ∧ (updSession p f s).channels = s.channels ∧
    (updSession p f s).lines = s.lines ∧ (updSession p f s).relays = s.relays ∧
    (updSession p f s).settles = s.settles ∧ (updSession p f s).dsl = s.dsl ∧
    (updSession p f s).sched = s.sched ∧ (updSession p f s).tracker = s.tracker ∧
    (updSession p f s).ports = s.ports ∧ (updSession p f s).engine = s.engine ∧
    (updSession p f s).faults = s.faults ∧ (updSession p f s).power = s.power ∧
    (updSession p f s).store = s.store ∧ (updSession p f s).occasion = s.occasion := by
  have h : butRing (updSession p f s) = butRing s := by
    unfold updSession; simp [butRing]
  simpa [butRing] using h

@[simp] theorem endDenialByFeed_frame (c : Change) (p : Port) (s : State) :
    (endDenialByFeed c p s).pending = s.pending ∧ (endDenialByFeed c p s).phase = s.phase ∧
    (endDenialByFeed c p s).clock = s.clock ∧ (endDenialByFeed c p s).pins = s.pins ∧
    (endDenialByFeed c p s).twoPorts = s.twoPorts ∧ (endDenialByFeed c p s).gateway = s.gateway ∧
    (endDenialByFeed c p s).modem = s.modem ∧ (endDenialByFeed c p s).channels = s.channels ∧
    (endDenialByFeed c p s).lines = s.lines ∧ (endDenialByFeed c p s).relays = s.relays ∧
    (endDenialByFeed c p s).settles = s.settles ∧ (endDenialByFeed c p s).dsl = s.dsl ∧
    (endDenialByFeed c p s).sched = s.sched ∧ (endDenialByFeed c p s).tracker = s.tracker ∧
    (endDenialByFeed c p s).ring = s.ring ∧ (endDenialByFeed c p s).engine = s.engine ∧
    (endDenialByFeed c p s).faults = s.faults ∧ (endDenialByFeed c p s).power = s.power ∧
    (endDenialByFeed c p s).store = s.store ∧ (endDenialByFeed c p s).occasion = s.occasion := by
  have h : butPorts (endDenialByFeed c p s) = butPorts s := by
    unfold endDenialByFeed; (repeat' split) <;> simp [butPorts]
  simpa [butPorts] using h

@[simp] theorem driveFeed_frame (p : Port) (f : Feed) (s : State) :
    (driveFeed p f s).pending = s.pending ∧ (driveFeed p f s).phase = s.phase ∧
    (driveFeed p f s).clock = s.clock ∧ (driveFeed p f s).pins = s.pins ∧
    (driveFeed p f s).twoPorts = s.twoPorts ∧ (driveFeed p f s).gateway = s.gateway ∧
    (driveFeed p f s).modem = s.modem ∧ (driveFeed p f s).channels = s.channels ∧
    (driveFeed p f s).lines = s.lines ∧ (driveFeed p f s).settles = s.settles ∧ (driveFeed p f s).dsl = s.dsl ∧
    (driveFeed p f s).sched = s.sched ∧ (driveFeed p f s).tracker = s.tracker ∧
    (driveFeed p f s).ports = s.ports ∧ (driveFeed p f s).ring = s.ring ∧ (driveFeed p f s).engine = s.engine ∧
    (driveFeed p f s).faults = s.faults ∧ (driveFeed p f s).power = s.power ∧
    (driveFeed p f s).store = s.store ∧ (driveFeed p f s).occasion = s.occasion := by
  have h : butRelays (driveFeed p f s) = butRelays s := by
    unfold driveFeed; simp [butRelays]
  simpa [butRelays] using h

@[simp] theorem setStage_frame (p : Port) (g : SwitchStage) (s : State) :
    (setStage p g s).pending = s.pending ∧ (setStage p g s).phase = s.phase ∧
    (setStage p g s).clock = s.clock ∧ (setStage p g s).pins = s.pins ∧
    (setStage p g s).twoPorts = s.twoPorts ∧ (setStage p g s).gateway = s.gateway ∧
    (setStage p g s).modem = s.modem ∧ (setStage p g s).channels = s.channels ∧
    (setStage p g s).lines = s.lines ∧ (setStage p g s).relays = s.relays ∧
    (setStage p g s).settles = s.settles ∧ (setStage p g s).dsl = s.dsl ∧ (setStage p g s).sched = s.sched ∧
    (setStage p g s).tracker = s.tracker ∧ (setStage p g s).ring = s.ring ∧
    (setStage p g s).engine = s.engine ∧ (setStage p g s).faults = s.faults ∧
    (setStage p g s).power = s.power ∧ (setStage p g s).store = s.store ∧
    (setStage p g s).occasion = s.occasion := by
  have h : butPorts (setStage p g s) = butPorts s := by
    unfold setStage; simp [butPorts]
  simpa [butPorts] using h

@[simp] theorem fixClean_frame (s : State) :
    (fixClean s).pending = s.pending ∧ (fixClean s).phase = s.phase ∧ (fixClean s).clock = s.clock ∧
    (fixClean s).pins = s.pins ∧ (fixClean s).twoPorts = s.twoPorts ∧ (fixClean s).gateway = s.gateway ∧
    (fixClean s).modem = s.modem ∧ (fixClean s).channels = s.channels ∧ (fixClean s).lines = s.lines ∧
    (fixClean s).relays = s.relays ∧ (fixClean s).settles = s.settles ∧ (fixClean s).dsl = s.dsl ∧
    (fixClean s).sched = s.sched ∧ (fixClean s).tracker = s.tracker ∧ (fixClean s).ports = s.ports ∧
    (fixClean s).ring = s.ring ∧ (fixClean s).faults = s.faults ∧ (fixClean s).power = s.power ∧
    (fixClean s).store = s.store ∧ (fixClean s).occasion = s.occasion := by
  have h : butEngine (fixClean s) = butEngine s := by
    unfold fixClean; simp [butEngine]
  simpa [butEngine] using h

@[simp] theorem judgeOverload_frame (p : Port) (s : State) :
    (judgeOverload p s).pending = s.pending ∧ (judgeOverload p s).phase = s.phase ∧
    (judgeOverload p s).clock = s.clock ∧ (judgeOverload p s).pins = s.pins ∧
    (judgeOverload p s).twoPorts = s.twoPorts ∧ (judgeOverload p s).gateway = s.gateway ∧
    (judgeOverload p s).modem = s.modem ∧ (judgeOverload p s).channels = s.channels ∧
    (judgeOverload p s).lines = s.lines ∧ (judgeOverload p s).relays = s.relays ∧
    (judgeOverload p s).settles = s.settles ∧ (judgeOverload p s).dsl = s.dsl ∧
    (judgeOverload p s).sched = s.sched ∧ (judgeOverload p s).tracker = s.tracker ∧
    (judgeOverload p s).ring = s.ring ∧ (judgeOverload p s).engine = s.engine ∧
    (judgeOverload p s).faults = s.faults ∧ (judgeOverload p s).power = s.power ∧
    (judgeOverload p s).store = s.store ∧ (judgeOverload p s).occasion = s.occasion := by
  have h : butPorts (judgeOverload p s) = butPorts s := by
    unfold judgeOverload; (repeat' split) <;> simp [butPorts]
  simpa [butPorts] using h

@[simp] theorem beginSeizing_frame (p : Port) (s : State) :
    (beginSeizing p s).pending = s.pending ∧ (beginSeizing p s).phase = s.phase ∧
    (beginSeizing p s).clock = s.clock ∧ (beginSeizing p s).pins = s.pins ∧
    (beginSeizing p s).twoPorts = s.twoPorts ∧ (beginSeizing p s).gateway = s.gateway ∧
    (beginSeizing p s).modem = s.modem ∧ (beginSeizing p s).channels = s.channels ∧
    (beginSeizing p s).lines = s.lines ∧ (beginSeizing p s).relays = s.relays ∧
    (beginSeizing p s).settles = s.settles ∧ (beginSeizing p s).dsl = s.dsl ∧
    (beginSeizing p s).sched = s.sched ∧ (beginSeizing p s).tracker = s.tracker ∧
    (beginSeizing p s).ring = s.ring ∧ (beginSeizing p s).engine = s.engine ∧
    (beginSeizing p s).faults = s.faults ∧ (beginSeizing p s).power = s.power ∧
    (beginSeizing p s).store = s.store ∧ (beginSeizing p s).occasion = s.occasion := by
  have h : butPorts (beginSeizing p s) = butPorts s := by
    unfold beginSeizing; simp [butPorts]
  simpa [butPorts] using h

@[simp] theorem startSettle_frame (a : Asker) (s : State) :
    (startSettle a s).pending = s.pending ∧ (startSettle a s).phase = s.phase ∧
    (startSettle a s).clock = s.clock ∧ (startSettle a s).pins = s.pins ∧
    (startSettle a s).twoPorts = s.twoPorts ∧ (startSettle a s).gateway = s.gateway ∧
    (startSettle a s).modem = s.modem ∧ (startSettle a s).channels = s.channels ∧
    (startSettle a s).lines = s.lines ∧ (startSettle a s).relays = s.relays ∧ (startSettle a s).dsl = s.dsl ∧
    (startSettle a s).sched = s.sched ∧ (startSettle a s).tracker = s.tracker ∧
    (startSettle a s).ports = s.ports ∧ (startSettle a s).ring = s.ring ∧ (startSettle a s).engine = s.engine ∧
    (startSettle a s).faults = s.faults ∧ (startSettle a s).power = s.power ∧
    (startSettle a s).store = s.store ∧ (startSettle a s).occasion = s.occasion := by
  have h : butSettles (startSettle a s) = butSettles s := by
    unfold startSettle; simp [butSettles]
  simpa [butSettles] using h

@[simp] theorem skipBurst_frame (p : Port) (x : RingSession) (s : State) :
    (skipBurst p x s).pending = s.pending ∧ (skipBurst p x s).phase = s.phase ∧
    (skipBurst p x s).clock = s.clock ∧ (skipBurst p x s).pins = s.pins ∧
    (skipBurst p x s).twoPorts = s.twoPorts ∧ (skipBurst p x s).gateway = s.gateway ∧
    (skipBurst p x s).modem = s.modem ∧ (skipBurst p x s).channels = s.channels ∧
    (skipBurst p x s).lines = s.lines ∧ (skipBurst p x s).relays = s.relays ∧
    (skipBurst p x s).settles = s.settles ∧ (skipBurst p x s).dsl = s.dsl ∧ (skipBurst p x s).sched = s.sched ∧
    (skipBurst p x s).tracker = s.tracker ∧ (skipBurst p x s).ports = s.ports ∧
    (skipBurst p x s).engine = s.engine ∧ (skipBurst p x s).faults = s.faults ∧
    (skipBurst p x s).power = s.power ∧ (skipBurst p x s).store = s.store ∧
    (skipBurst p x s).occasion = s.occasion := by
  have h : butRing (skipBurst p x s) = butRing s := by
    unfold skipBurst; simp [butRing]
  simpa [butRing] using h

@[simp] theorem freeze_frame (p : Port) (s : State) :
    (freeze p s).pending = s.pending ∧ (freeze p s).phase = s.phase ∧ (freeze p s).clock = s.clock ∧
    (freeze p s).pins = s.pins ∧ (freeze p s).twoPorts = s.twoPorts ∧ (freeze p s).gateway = s.gateway ∧
    (freeze p s).modem = s.modem ∧ (freeze p s).channels = s.channels ∧ (freeze p s).lines = s.lines ∧
    (freeze p s).relays = s.relays ∧ (freeze p s).settles = s.settles ∧ (freeze p s).dsl = s.dsl ∧
    (freeze p s).sched = s.sched ∧ (freeze p s).tracker = s.tracker ∧ (freeze p s).ring = s.ring ∧
    (freeze p s).engine = s.engine ∧ (freeze p s).faults = s.faults ∧ (freeze p s).power = s.power ∧
    (freeze p s).store = s.store ∧ (freeze p s).occasion = s.occasion := by
  have h : butPorts (freeze p s) = butPorts s := by
    unfold freeze; simp [butPorts]
  simpa [butPorts] using h

@[simp] theorem departAll_frame (l : List Window) (s : State) :
    (departAll l s).pending = s.pending ∧ (departAll l s).phase = s.phase ∧ (departAll l s).clock = s.clock ∧
    (departAll l s).pins = s.pins ∧ (departAll l s).twoPorts = s.twoPorts ∧
    (departAll l s).gateway = s.gateway ∧ (departAll l s).modem = s.modem ∧
    (departAll l s).channels = s.channels ∧ (departAll l s).lines = s.lines ∧
    (departAll l s).relays = s.relays ∧ (departAll l s).settles = s.settles ∧ (departAll l s).dsl = s.dsl ∧
    (departAll l s).sched = s.sched ∧ (departAll l s).ports = s.ports ∧ (departAll l s).ring = s.ring ∧
    (departAll l s).engine = s.engine ∧ (departAll l s).faults = s.faults ∧ (departAll l s).power = s.power ∧
    (departAll l s).store = s.store ∧ (departAll l s).occasion = s.occasion := by
  have h : butTracker (departAll l s) = butTracker s := by
    induction l generalizing s with
    | nil => rfl
    | cons w rest ih => rw [departAll, ih]; simp [butTracker]
  simpa [butTracker] using h

@[simp] theorem removeOne_frame (s : State) :
    (removeOne s).pending = s.pending ∧ (removeOne s).phase = s.phase ∧ (removeOne s).clock = s.clock ∧
    (removeOne s).pins = s.pins ∧ (removeOne s).twoPorts = s.twoPorts ∧ (removeOne s).gateway = s.gateway ∧
    (removeOne s).modem = s.modem ∧ (removeOne s).channels = s.channels ∧ (removeOne s).lines = s.lines ∧
    (removeOne s).relays = s.relays ∧ (removeOne s).settles = s.settles ∧ (removeOne s).dsl = s.dsl ∧
    (removeOne s).ports = s.ports ∧ (removeOne s).ring = s.ring ∧ (removeOne s).engine = s.engine ∧
    (removeOne s).faults = s.faults ∧ (removeOne s).power = s.power ∧ (removeOne s).store = s.store ∧
    (removeOne s).occasion = s.occasion := by
  have h : butSchedTracker (removeOne s) = butSchedTracker s := by
    unfold removeOne; (repeat' split) <;> simp [butSchedTracker]
  simpa [butSchedTracker] using h

@[simp] theorem beginProbe_frame (p : Port) (d : Denial) (s : State) :
    (beginProbe p d s).pending = s.pending ∧ (beginProbe p d s).phase = s.phase ∧
    (beginProbe p d s).clock = s.clock ∧ (beginProbe p d s).pins = s.pins ∧
    (beginProbe p d s).twoPorts = s.twoPorts ∧ (beginProbe p d s).gateway = s.gateway ∧
    (beginProbe p d s).modem = s.modem ∧ (beginProbe p d s).channels = s.channels ∧
    (beginProbe p d s).lines = s.lines ∧ (beginProbe p d s).settles = s.settles ∧
    (beginProbe p d s).dsl = s.dsl ∧ (beginProbe p d s).sched = s.sched ∧
    (beginProbe p d s).tracker = s.tracker ∧ (beginProbe p d s).ring = s.ring ∧
    (beginProbe p d s).engine = s.engine ∧ (beginProbe p d s).faults = s.faults ∧
    (beginProbe p d s).power = s.power ∧ (beginProbe p d s).store = s.store ∧
    (beginProbe p d s).occasion = s.occasion := by
  have h : butRelaysPorts (beginProbe p d s) = butRelaysPorts s := by
    unfold beginProbe; simp [butRelaysPorts]
  simpa [butRelaysPorts] using h

@[simp] theorem markActive_frame (i : SlotId) (s : State) :
    (markActive i s).pending = s.pending ∧ (markActive i s).phase = s.phase ∧
    (markActive i s).clock = s.clock ∧ (markActive i s).pins = s.pins ∧
    (markActive i s).twoPorts = s.twoPorts ∧ (markActive i s).gateway = s.gateway ∧
    (markActive i s).modem = s.modem ∧ (markActive i s).channels = s.channels ∧
    (markActive i s).lines = s.lines ∧ (markActive i s).relays = s.relays ∧
    (markActive i s).settles = s.settles ∧ (markActive i s).dsl = s.dsl ∧
    (markActive i s).tracker = s.tracker ∧ (markActive i s).ports = s.ports ∧ (markActive i s).ring = s.ring ∧
    (markActive i s).engine = s.engine ∧ (markActive i s).faults = s.faults ∧
    (markActive i s).power = s.power ∧ (markActive i s).store = s.store ∧
    (markActive i s).occasion = s.occasion := by
  have h : butSched (markActive i s) = butSched s := by
    unfold markActive; (repeat' split) <;> simp [butSched]
  simpa [butSched] using h

@[simp] theorem judgeRingFault_frame (s : State) :
    (judgeRingFault s).pending = s.pending ∧ (judgeRingFault s).phase = s.phase ∧
    (judgeRingFault s).clock = s.clock ∧ (judgeRingFault s).pins = s.pins ∧
    (judgeRingFault s).twoPorts = s.twoPorts ∧ (judgeRingFault s).gateway = s.gateway ∧
    (judgeRingFault s).modem = s.modem ∧ (judgeRingFault s).channels = s.channels ∧
    (judgeRingFault s).lines = s.lines ∧ (judgeRingFault s).relays = s.relays ∧
    (judgeRingFault s).settles = s.settles ∧ (judgeRingFault s).dsl = s.dsl ∧
    (judgeRingFault s).sched = s.sched ∧ (judgeRingFault s).tracker = s.tracker ∧
    (judgeRingFault s).ports = s.ports ∧ (judgeRingFault s).engine = s.engine ∧
    (judgeRingFault s).faults = s.faults ∧ (judgeRingFault s).power = s.power ∧
    (judgeRingFault s).store = s.store ∧ (judgeRingFault s).occasion = s.occasion := by
  have h : butRing (judgeRingFault s) = butRing s := by
    unfold judgeRingFault; (repeat' split) <;> simp [butRing]
  simpa [butRing] using h

@[simp] theorem post_frame (n : Notice) (receives : Channel → Bool) (s : State) :
    (post n receives s).pending = s.pending ∧ (post n receives s).phase = s.phase ∧
    (post n receives s).clock = s.clock ∧ (post n receives s).pins = s.pins ∧
    (post n receives s).twoPorts = s.twoPorts ∧ (post n receives s).gateway = s.gateway ∧
    (post n receives s).modem = s.modem ∧ (post n receives s).lines = s.lines ∧
    (post n receives s).relays = s.relays ∧ (post n receives s).settles = s.settles ∧
    (post n receives s).dsl = s.dsl ∧ (post n receives s).sched = s.sched ∧
    (post n receives s).tracker = s.tracker ∧ (post n receives s).ports = s.ports ∧
    (post n receives s).ring = s.ring ∧ (post n receives s).engine = s.engine ∧
    (post n receives s).faults = s.faults ∧ (post n receives s).power = s.power ∧
    (post n receives s).store = s.store ∧ (post n receives s).occasion = s.occasion := by
  have h : butChannels (post n receives s) = butChannels s := by
    unfold post; dsimp only; (repeat' split) <;> simp [butChannels]
  simpa [butChannels] using h

@[simp] theorem decideChannel_frame (cls : FaultClass) (level : Nat) (source : Option Nat) (st : Stored)
      (c : Channel) (s : State) :
    (decideChannel cls level source st c s).pending = s.pending ∧
    (decideChannel cls level source st c s).phase = s.phase ∧
    (decideChannel cls level source st c s).clock = s.clock ∧
    (decideChannel cls level source st c s).pins = s.pins ∧
    (decideChannel cls level source st c s).twoPorts = s.twoPorts ∧
    (decideChannel cls level source st c s).gateway = s.gateway ∧
    (decideChannel cls level source st c s).modem = s.modem ∧
    (decideChannel cls level source st c s).channels = s.channels ∧
    (decideChannel cls level source st c s).lines = s.lines ∧
    (decideChannel cls level source st c s).relays = s.relays ∧
    (decideChannel cls level source st c s).settles = s.settles ∧
    (decideChannel cls level source st c s).dsl = s.dsl ∧
    (decideChannel cls level source st c s).sched = s.sched ∧
    (decideChannel cls level source st c s).tracker = s.tracker ∧
    (decideChannel cls level source st c s).ports = s.ports ∧
    (decideChannel cls level source st c s).ring = s.ring ∧
    (decideChannel cls level source st c s).engine = s.engine ∧
    (decideChannel cls level source st c s).power = s.power ∧
    (decideChannel cls level source st c s).store = s.store ∧
    (decideChannel cls level source st c s).occasion = s.occasion := by
  have h : butFaults (decideChannel cls level source st c s) = butFaults s := by
    unfold decideChannel; (repeat' split) <;> simp [butFaults]
  simpa [butFaults] using h

@[simp] theorem checkCount_frame (s : State) :
    (checkCount s).pending = s.pending ∧ (checkCount s).phase = s.phase ∧ (checkCount s).clock = s.clock ∧
    (checkCount s).pins = s.pins ∧ (checkCount s).twoPorts = s.twoPorts ∧ (checkCount s).gateway = s.gateway ∧
    (checkCount s).modem = s.modem ∧ (checkCount s).channels = s.channels ∧ (checkCount s).lines = s.lines ∧
    (checkCount s).relays = s.relays ∧ (checkCount s).settles = s.settles ∧ (checkCount s).dsl = s.dsl ∧
    (checkCount s).sched = s.sched ∧ (checkCount s).ports = s.ports ∧ (checkCount s).ring = s.ring ∧
    (checkCount s).engine = s.engine ∧ (checkCount s).faults = s.faults ∧ (checkCount s).power = s.power ∧
    (checkCount s).store = s.store ∧ (checkCount s).occasion = s.occasion := by
  have h : butTracker (checkCount s) = butTracker s := by
    unfold checkCount; simp [butTracker]
  simpa [butTracker] using h

@[simp] theorem startMeasure_frame (s : State) :
    (startMeasure s).pending = s.pending ∧ (startMeasure s).phase = s.phase ∧
    (startMeasure s).clock = s.clock ∧ (startMeasure s).pins = s.pins ∧
    (startMeasure s).twoPorts = s.twoPorts ∧ (startMeasure s).gateway = s.gateway ∧
    (startMeasure s).modem = s.modem ∧ (startMeasure s).channels = s.channels ∧
    (startMeasure s).lines = s.lines ∧ (startMeasure s).relays = s.relays ∧
    (startMeasure s).settles = s.settles ∧ (startMeasure s).dsl = s.dsl ∧ (startMeasure s).sched = s.sched ∧
    (startMeasure s).tracker = s.tracker ∧ (startMeasure s).ports = s.ports ∧ (startMeasure s).ring = s.ring ∧
    (startMeasure s).faults = s.faults ∧ (startMeasure s).power = s.power ∧ (startMeasure s).store = s.store ∧
    (startMeasure s).occasion = s.occasion := by
  have h : butEngine (startMeasure s) = butEngine s := by
    unfold startMeasure; (repeat' split) <;> simp [butEngine]
  simpa [butEngine] using h

@[simp] theorem judgeTrip_frame (p : Port) (s : State) :
    (judgeTrip p s).pending = s.pending ∧ (judgeTrip p s).phase = s.phase ∧ (judgeTrip p s).clock = s.clock ∧
    (judgeTrip p s).pins = s.pins ∧ (judgeTrip p s).twoPorts = s.twoPorts ∧
    (judgeTrip p s).gateway = s.gateway ∧ (judgeTrip p s).modem = s.modem ∧
    (judgeTrip p s).channels = s.channels ∧ (judgeTrip p s).lines = s.lines ∧
    (judgeTrip p s).relays = s.relays ∧ (judgeTrip p s).settles = s.settles ∧ (judgeTrip p s).dsl = s.dsl ∧
    (judgeTrip p s).sched = s.sched ∧ (judgeTrip p s).tracker = s.tracker ∧ (judgeTrip p s).ports = s.ports ∧
    (judgeTrip p s).engine = s.engine ∧ (judgeTrip p s).faults = s.faults ∧ (judgeTrip p s).power = s.power ∧
    (judgeTrip p s).store = s.store ∧ (judgeTrip p s).occasion = s.occasion := by
  have h : butRing (judgeTrip p s) = butRing s := by
    unfold judgeTrip; (repeat' split) <;> simp [butRing]
  simpa [butRing] using h

@[simp] theorem mask_frame (p : Port) (s : State) :
    (mask p s).pending = s.pending ∧ (mask p s).phase = s.phase ∧ (mask p s).clock = s.clock ∧
    (mask p s).pins = s.pins ∧ (mask p s).twoPorts = s.twoPorts ∧ (mask p s).gateway = s.gateway ∧
    (mask p s).modem = s.modem ∧ (mask p s).channels = s.channels ∧ (mask p s).lines = s.lines ∧
    (mask p s).relays = s.relays ∧ (mask p s).settles = s.settles ∧ (mask p s).dsl = s.dsl ∧
    (mask p s).sched = s.sched ∧ (mask p s).tracker = s.tracker ∧ (mask p s).ring = s.ring ∧
    (mask p s).engine = s.engine ∧ (mask p s).faults = s.faults ∧ (mask p s).power = s.power ∧
    (mask p s).store = s.store ∧ (mask p s).occasion = s.occasion := by
  have h : butPorts (mask p s) = butPorts s := by
    unfold mask; simp [butPorts]
  simpa [butPorts] using h

@[simp] theorem replacePreTest_frame (c : Coupling) (s : State) :
    (replacePreTest c s).pending = s.pending ∧ (replacePreTest c s).phase = s.phase ∧
    (replacePreTest c s).clock = s.clock ∧ (replacePreTest c s).pins = s.pins ∧
    (replacePreTest c s).twoPorts = s.twoPorts ∧ (replacePreTest c s).gateway = s.gateway ∧
    (replacePreTest c s).modem = s.modem ∧ (replacePreTest c s).channels = s.channels ∧
    (replacePreTest c s).lines = s.lines ∧ (replacePreTest c s).relays = s.relays ∧
    (replacePreTest c s).settles = s.settles ∧ (replacePreTest c s).dsl = s.dsl ∧
    (replacePreTest c s).sched = s.sched ∧ (replacePreTest c s).tracker = s.tracker ∧
    (replacePreTest c s).ports = s.ports ∧ (replacePreTest c s).ring = s.ring ∧
    (replacePreTest c s).faults = s.faults ∧ (replacePreTest c s).power = s.power ∧
    (replacePreTest c s).store = s.store ∧ (replacePreTest c s).occasion = s.occasion := by
  have h : butEngine (replacePreTest c s) = butEngine s := by
    unfold replacePreTest; simp [butEngine]
  simpa [butEngine] using h

@[simp] theorem purge_frame (s : State) :
    (purge s).pending = s.pending ∧ (purge s).phase = s.phase ∧ (purge s).clock = s.clock ∧
    (purge s).pins = s.pins ∧ (purge s).twoPorts = s.twoPorts ∧ (purge s).gateway = s.gateway ∧
    (purge s).modem = s.modem ∧ (purge s).channels = s.channels ∧ (purge s).lines = s.lines ∧
    (purge s).relays = s.relays ∧ (purge s).settles = s.settles ∧ (purge s).dsl = s.dsl ∧
    (purge s).ports = s.ports ∧ (purge s).ring = s.ring ∧ (purge s).engine = s.engine ∧
    (purge s).faults = s.faults ∧ (purge s).power = s.power ∧ (purge s).store = s.store ∧
    (purge s).occasion = s.occasion := by
  have h : butSchedTracker (purge s) = butSchedTracker s := by
    unfold purge; simp [butSchedTracker]
  simpa [butSchedTracker] using h

@[simp] theorem restartQuiet_frame (p : Port) (s : State) :
    (restartQuiet p s).pending = s.pending ∧ (restartQuiet p s).phase = s.phase ∧
    (restartQuiet p s).clock = s.clock ∧ (restartQuiet p s).pins = s.pins ∧
    (restartQuiet p s).twoPorts = s.twoPorts ∧ (restartQuiet p s).gateway = s.gateway ∧
    (restartQuiet p s).modem = s.modem ∧ (restartQuiet p s).channels = s.channels ∧
    (restartQuiet p s).lines = s.lines ∧ (restartQuiet p s).relays = s.relays ∧
    (restartQuiet p s).settles = s.settles ∧ (restartQuiet p s).dsl = s.dsl ∧
    (restartQuiet p s).sched = s.sched ∧ (restartQuiet p s).tracker = s.tracker ∧
    (restartQuiet p s).ring = s.ring ∧ (restartQuiet p s).engine = s.engine ∧
    (restartQuiet p s).faults = s.faults ∧ (restartQuiet p s).power = s.power ∧
    (restartQuiet p s).store = s.store ∧ (restartQuiet p s).occasion = s.occasion := by
  have h : butPorts (restartQuiet p s) = butPorts s := by
    unfold restartQuiet; simp [butPorts]
  simpa [butPorts] using h

@[simp] theorem placeLineBreak_frame (c : Contact) (s : State) :
    (placeLineBreak c s).pending = s.pending ∧ (placeLineBreak c s).phase = s.phase ∧
    (placeLineBreak c s).clock = s.clock ∧ (placeLineBreak c s).pins = s.pins ∧
    (placeLineBreak c s).twoPorts = s.twoPorts ∧ (placeLineBreak c s).gateway = s.gateway ∧
    (placeLineBreak c s).modem = s.modem ∧ (placeLineBreak c s).channels = s.channels ∧
    (placeLineBreak c s).lines = s.lines ∧ (placeLineBreak c s).dsl = s.dsl ∧
    (placeLineBreak c s).sched = s.sched ∧ (placeLineBreak c s).tracker = s.tracker ∧
    (placeLineBreak c s).ports = s.ports ∧ (placeLineBreak c s).ring = s.ring ∧
    (placeLineBreak c s).engine = s.engine ∧ (placeLineBreak c s).faults = s.faults ∧
    (placeLineBreak c s).power = s.power ∧ (placeLineBreak c s).store = s.store ∧
    (placeLineBreak c s).occasion = s.occasion := by
  have h : butRelaysSettles (placeLineBreak c s) = butRelaysSettles s := by
    unfold placeLineBreak; simp [butRelaysSettles]
  simpa [butRelaysSettles] using h

@[simp] theorem notifyFault_frame (f : Raised) (level : Nat) (st : Stored) (s : State) :
    (notifyFault f level st s).pending = s.pending ∧ (notifyFault f level st s).phase = s.phase ∧
    (notifyFault f level st s).clock = s.clock ∧ (notifyFault f level st s).pins = s.pins ∧
    (notifyFault f level st s).twoPorts = s.twoPorts ∧ (notifyFault f level st s).gateway = s.gateway ∧
    (notifyFault f level st s).modem = s.modem ∧ (notifyFault f level st s).lines = s.lines ∧
    (notifyFault f level st s).relays = s.relays ∧ (notifyFault f level st s).settles = s.settles ∧
    (notifyFault f level st s).dsl = s.dsl ∧ (notifyFault f level st s).sched = s.sched ∧
    (notifyFault f level st s).tracker = s.tracker ∧ (notifyFault f level st s).ports = s.ports ∧
    (notifyFault f level st s).ring = s.ring ∧ (notifyFault f level st s).engine = s.engine ∧
    (notifyFault f level st s).power = s.power ∧ (notifyFault f level st s).store = s.store ∧
    (notifyFault f level st s).occasion = s.occasion := by
  have h : butChannelsFaults (notifyFault f level st s) = butChannelsFaults s := by
    unfold notifyFault; dsimp only; split <;> simp [butChannelsFaults]
  simpa [butChannelsFaults] using h

@[simp] theorem judgeSuspended_frame (c : Change) (a : Asker) (p : Port) (s : State) :
    (judgeSuspended c a p s).pending = s.pending ∧ (judgeSuspended c a p s).phase = s.phase ∧
    (judgeSuspended c a p s).clock = s.clock ∧ (judgeSuspended c a p s).pins = s.pins ∧
    (judgeSuspended c a p s).twoPorts = s.twoPorts ∧ (judgeSuspended c a p s).gateway = s.gateway ∧
    (judgeSuspended c a p s).modem = s.modem ∧ (judgeSuspended c a p s).channels = s.channels ∧
    (judgeSuspended c a p s).lines = s.lines ∧ (judgeSuspended c a p s).relays = s.relays ∧
    (judgeSuspended c a p s).settles = s.settles ∧ (judgeSuspended c a p s).dsl = s.dsl ∧
    (judgeSuspended c a p s).sched = s.sched ∧ (judgeSuspended c a p s).tracker = s.tracker ∧
    (judgeSuspended c a p s).ring = s.ring ∧ (judgeSuspended c a p s).engine = s.engine ∧
    (judgeSuspended c a p s).faults = s.faults ∧ (judgeSuspended c a p s).power = s.power ∧
    (judgeSuspended c a p s).store = s.store ∧ (judgeSuspended c a p s).occasion = s.occasion := by
  have h : butPorts (judgeSuspended c a p s) = butPorts s := by
    unfold judgeSuspended; (repeat' split) <;> simp [butPorts]
  simpa [butPorts] using h

@[simp] theorem addWindow_frame (w : Window) (s : State) :
    (addWindow w s).pending = s.pending ∧ (addWindow w s).phase = s.phase ∧ (addWindow w s).clock = s.clock ∧
    (addWindow w s).pins = s.pins ∧ (addWindow w s).twoPorts = s.twoPorts ∧
    (addWindow w s).gateway = s.gateway ∧ (addWindow w s).modem = s.modem ∧
    (addWindow w s).channels = s.channels ∧ (addWindow w s).lines = s.lines ∧
    (addWindow w s).relays = s.relays ∧ (addWindow w s).settles = s.settles ∧ (addWindow w s).dsl = s.dsl ∧
    (addWindow w s).ports = s.ports ∧ (addWindow w s).ring = s.ring ∧ (addWindow w s).engine = s.engine ∧
    (addWindow w s).faults = s.faults ∧ (addWindow w s).power = s.power ∧ (addWindow w s).store = s.store ∧
    (addWindow w s).occasion = s.occasion := by
  have h : butSchedTracker (addWindow w s) = butSchedTracker s := by
    unfold addWindow; dsimp only; (repeat' split) <;> simp [butSchedTracker]
  simpa [butSchedTracker] using h

@[simp] theorem hazardCheck_frame (s : State) :
    (hazardCheck s).pending = s.pending ∧ (hazardCheck s).phase = s.phase ∧ (hazardCheck s).clock = s.clock ∧
    (hazardCheck s).pins = s.pins ∧ (hazardCheck s).twoPorts = s.twoPorts ∧
    (hazardCheck s).gateway = s.gateway ∧ (hazardCheck s).modem = s.modem ∧
    (hazardCheck s).channels = s.channels ∧ (hazardCheck s).lines = s.lines ∧ (hazardCheck s).dsl = s.dsl ∧
    (hazardCheck s).sched = s.sched ∧ (hazardCheck s).tracker = s.tracker ∧ (hazardCheck s).ports = s.ports ∧
    (hazardCheck s).ring = s.ring ∧ (hazardCheck s).engine = s.engine ∧ (hazardCheck s).power = s.power ∧
    (hazardCheck s).store = s.store ∧ (hazardCheck s).occasion = s.occasion := by
  have h : butRelaysSettlesFaults (hazardCheck s) = butRelaysSettlesFaults s := by
    unfold hazardCheck; dsimp only; (repeat' split) <;> simp [butRelaysSettlesFaults]
  simpa [butRelaysSettlesFaults] using h

@[simp] theorem postSubscribed_frame (n : Notice) (s : State) :
    (postSubscribed n s).pending = s.pending ∧ (postSubscribed n s).phase = s.phase ∧
    (postSubscribed n s).clock = s.clock ∧ (postSubscribed n s).pins = s.pins ∧
    (postSubscribed n s).twoPorts = s.twoPorts ∧ (postSubscribed n s).gateway = s.gateway ∧
    (postSubscribed n s).modem = s.modem ∧ (postSubscribed n s).lines = s.lines ∧
    (postSubscribed n s).relays = s.relays ∧ (postSubscribed n s).settles = s.settles ∧
    (postSubscribed n s).dsl = s.dsl ∧ (postSubscribed n s).sched = s.sched ∧
    (postSubscribed n s).tracker = s.tracker ∧ (postSubscribed n s).ports = s.ports ∧
    (postSubscribed n s).ring = s.ring ∧ (postSubscribed n s).engine = s.engine ∧
    (postSubscribed n s).faults = s.faults ∧ (postSubscribed n s).power = s.power ∧
    (postSubscribed n s).store = s.store ∧ (postSubscribed n s).occasion = s.occasion := by
  have h : butChannels (postSubscribed n s) = butChannels s := by
    unfold postSubscribed; simp [butChannels]
  simpa [butChannels] using h

@[simp] theorem closeStanding_frame (l : List WindowKey) (s : State) :
    (closeStanding l s).pending = s.pending ∧ (closeStanding l s).phase = s.phase ∧
    (closeStanding l s).clock = s.clock ∧ (closeStanding l s).pins = s.pins ∧
    (closeStanding l s).twoPorts = s.twoPorts ∧ (closeStanding l s).gateway = s.gateway ∧
    (closeStanding l s).modem = s.modem ∧ (closeStanding l s).channels = s.channels ∧
    (closeStanding l s).lines = s.lines ∧ (closeStanding l s).relays = s.relays ∧
    (closeStanding l s).settles = s.settles ∧ (closeStanding l s).dsl = s.dsl ∧
    (closeStanding l s).tracker = s.tracker ∧ (closeStanding l s).ports = s.ports ∧
    (closeStanding l s).ring = s.ring ∧ (closeStanding l s).faults = s.faults ∧
    (closeStanding l s).power = s.power ∧ (closeStanding l s).store = s.store ∧
    (closeStanding l s).occasion = s.occasion := by
  have h : butSchedEngine (closeStanding l s) = butSchedEngine s := by
    induction l generalizing s with
    | nil => rfl
    | cons k rest ih => rw [closeStanding, ih]; simp [butSchedEngine]
  simpa [butSchedEngine] using h

@[simp] theorem handWindow_frame (src : WindowSource) (p : Option Port) (id : Option Byte) (t : Time)
      (tail : Option Nat) (s : State) :
    (handWindow src p id t tail s).pending = s.pending ∧ (handWindow src p id t tail s).phase = s.phase ∧
    (handWindow src p id t tail s).clock = s.clock ∧ (handWindow src p id t tail s).pins = s.pins ∧
    (handWindow src p id t tail s).twoPorts = s.twoPorts ∧ (handWindow src p id t tail s).gateway = s.gateway ∧
    (handWindow src p id t tail s).modem = s.modem ∧ (handWindow src p id t tail s).channels = s.channels ∧
    (handWindow src p id t tail s).lines = s.lines ∧ (handWindow src p id t tail s).relays = s.relays ∧
    (handWindow src p id t tail s).settles = s.settles ∧ (handWindow src p id t tail s).dsl = s.dsl ∧
    (handWindow src p id t tail s).ports = s.ports ∧ (handWindow src p id t tail s).ring = s.ring ∧
    (handWindow src p id t tail s).faults = s.faults ∧ (handWindow src p id t tail s).power = s.power ∧
    (handWindow src p id t tail s).store = s.store ∧ (handWindow src p id t tail s).occasion = s.occasion := by
  have h : butSchedTrackerEngine (handWindow src p id t tail s) = butSchedTrackerEngine s := by
    unfold handWindow; (repeat' split) <;> simp [butSchedTrackerEngine]
  simpa [butSchedTrackerEngine] using h

@[simp] theorem recompute_frame (s : State) :
    (recompute s).pending = s.pending ∧ (recompute s).phase = s.phase ∧ (recompute s).clock = s.clock ∧
    (recompute s).pins = s.pins ∧ (recompute s).twoPorts = s.twoPorts ∧ (recompute s).gateway = s.gateway ∧
    (recompute s).modem = s.modem ∧ (recompute s).lines = s.lines ∧ (recompute s).relays = s.relays ∧
    (recompute s).settles = s.settles ∧ (recompute s).dsl = s.dsl ∧ (recompute s).sched = s.sched ∧
    (recompute s).ports = s.ports ∧ (recompute s).ring = s.ring ∧ (recompute s).faults = s.faults ∧
    (recompute s).power = s.power ∧ (recompute s).store = s.store ∧ (recompute s).occasion = s.occasion := by
  have h : butChannelsTrackerEngine (recompute s) = butChannelsTrackerEngine s := by
    unfold recompute; simp [butChannelsTrackerEngine]
  simpa [butChannelsTrackerEngine] using h

@[simp] theorem takeFault_frame (f : Raised) (s : State) :
    (takeFault f s).pending = s.pending ∧ (takeFault f s).phase = s.phase ∧ (takeFault f s).clock = s.clock ∧
    (takeFault f s).pins = s.pins ∧ (takeFault f s).twoPorts = s.twoPorts ∧
    (takeFault f s).gateway = s.gateway ∧ (takeFault f s).modem = s.modem ∧ (takeFault f s).lines = s.lines ∧
    (takeFault f s).relays = s.relays ∧ (takeFault f s).settles = s.settles ∧ (takeFault f s).dsl = s.dsl ∧
    (takeFault f s).sched = s.sched ∧ (takeFault f s).tracker = s.tracker ∧ (takeFault f s).ports = s.ports ∧
    (takeFault f s).ring = s.ring ∧ (takeFault f s).engine = s.engine ∧ (takeFault f s).power = s.power ∧
    (takeFault f s).store = s.store ∧ (takeFault f s).occasion = s.occasion := by
  have h : butChannelsFaults (takeFault f s) = butChannelsFaults s := by
    unfold takeFault; dsimp only; (repeat' split) <;> simp [butChannelsFaults]
  simpa [butChannelsFaults] using h

@[simp] theorem isolationNotice_frame (why : IsolationReason) (s : State) :
    (isolationNotice why s).pending = s.pending ∧ (isolationNotice why s).phase = s.phase ∧
    (isolationNotice why s).clock = s.clock ∧ (isolationNotice why s).pins = s.pins ∧
    (isolationNotice why s).twoPorts = s.twoPorts ∧ (isolationNotice why s).gateway = s.gateway ∧
    (isolationNotice why s).modem = s.modem ∧ (isolationNotice why s).lines = s.lines ∧
    (isolationNotice why s).relays = s.relays ∧ (isolationNotice why s).settles = s.settles ∧
    (isolationNotice why s).dsl = s.dsl ∧ (isolationNotice why s).sched = s.sched ∧
    (isolationNotice why s).tracker = s.tracker ∧ (isolationNotice why s).ports = s.ports ∧
    (isolationNotice why s).ring = s.ring ∧ (isolationNotice why s).engine = s.engine ∧
    (isolationNotice why s).faults = s.faults ∧ (isolationNotice why s).power = s.power ∧
    (isolationNotice why s).store = s.store ∧ (isolationNotice why s).occasion = s.occasion := by
  have h : butChannels (isolationNotice why s) = butChannels s := by
    unfold isolationNotice; simp [butChannels]
  simpa [butChannels] using h

@[simp] theorem postCompletion_frame (n : Notice) (concerned : Channel) (s : State) :
    (postCompletion n concerned s).pending = s.pending ∧ (postCompletion n concerned s).phase = s.phase ∧
    (postCompletion n concerned s).clock = s.clock ∧ (postCompletion n concerned s).pins = s.pins ∧
    (postCompletion n concerned s).twoPorts = s.twoPorts ∧ (postCompletion n concerned s).gateway = s.gateway ∧
    (postCompletion n concerned s).modem = s.modem ∧ (postCompletion n concerned s).lines = s.lines ∧
    (postCompletion n concerned s).relays = s.relays ∧ (postCompletion n concerned s).settles = s.settles ∧
    (postCompletion n concerned s).dsl = s.dsl ∧ (postCompletion n concerned s).sched = s.sched ∧
    (postCompletion n concerned s).tracker = s.tracker ∧ (postCompletion n concerned s).ports = s.ports ∧
    (postCompletion n concerned s).ring = s.ring ∧ (postCompletion n concerned s).engine = s.engine ∧
    (postCompletion n concerned s).faults = s.faults ∧ (postCompletion n concerned s).power = s.power ∧
    (postCompletion n concerned s).store = s.store ∧ (postCompletion n concerned s).occasion = s.occasion := by
  have h : butChannels (postCompletion n concerned s) = butChannels s := by
    unfold postCompletion; simp [butChannels]
  simpa [butChannels] using h

@[simp] theorem expiredNotice_frame (e : ClaimEntry) (why : Nat) (newLevel : Nat) (s : State) :
    (expiredNotice e why newLevel s).pending = s.pending ∧ (expiredNotice e why newLevel s).phase = s.phase ∧
    (expiredNotice e why newLevel s).clock = s.clock ∧ (expiredNotice e why newLevel s).pins = s.pins ∧
    (expiredNotice e why newLevel s).twoPorts = s.twoPorts ∧
    (expiredNotice e why newLevel s).gateway = s.gateway ∧ (expiredNotice e why newLevel s).modem = s.modem ∧
    (expiredNotice e why newLevel s).lines = s.lines ∧ (expiredNotice e why newLevel s).relays = s.relays ∧
    (expiredNotice e why newLevel s).settles = s.settles ∧ (expiredNotice e why newLevel s).dsl = s.dsl ∧
    (expiredNotice e why newLevel s).sched = s.sched ∧ (expiredNotice e why newLevel s).tracker = s.tracker ∧
    (expiredNotice e why newLevel s).ports = s.ports ∧ (expiredNotice e why newLevel s).ring = s.ring ∧
    (expiredNotice e why newLevel s).engine = s.engine ∧ (expiredNotice e why newLevel s).faults = s.faults ∧
    (expiredNotice e why newLevel s).power = s.power ∧ (expiredNotice e why newLevel s).store = s.store ∧
    (expiredNotice e why newLevel s).occasion = s.occasion := by
  have h : butChannels (expiredNotice e why newLevel s) = butChannels s := by
    unfold expiredNotice; simp [butChannels]
  simpa [butChannels] using h

@[simp] theorem startBurst_frame (p : Port) (x : RingSession) (s : State) :
    (startBurst p x s).pending = s.pending ∧ (startBurst p x s).phase = s.phase ∧
    (startBurst p x s).clock = s.clock ∧ (startBurst p x s).pins = s.pins ∧
    (startBurst p x s).twoPorts = s.twoPorts ∧ (startBurst p x s).gateway = s.gateway ∧
    (startBurst p x s).modem = s.modem ∧ (startBurst p x s).channels = s.channels ∧
    (startBurst p x s).lines = s.lines ∧ (startBurst p x s).relays = s.relays ∧
    (startBurst p x s).settles = s.settles ∧ (startBurst p x s).dsl = s.dsl ∧
    (startBurst p x s).faults = s.faults ∧ (startBurst p x s).power = s.power ∧
    (startBurst p x s).store = s.store ∧ (startBurst p x s).occasion = s.occasion := by
  have h : butSchedTrackerPortsRingEngine (startBurst p x s) = butSchedTrackerPortsRingEngine s := by
    unfold startBurst; simp [butSchedTrackerPortsRingEngine]
  simpa [butSchedTrackerPortsRingEngine] using h

@[simp] theorem classifySearch_frame (t : Time) (s : State) :
    (classifySearch t s).pending = s.pending ∧ (classifySearch t s).phase = s.phase ∧
    (classifySearch t s).clock = s.clock ∧ (classifySearch t s).pins = s.pins ∧
    (classifySearch t s).twoPorts = s.twoPorts ∧ (classifySearch t s).gateway = s.gateway ∧
    (classifySearch t s).modem = s.modem ∧ (classifySearch t s).lines = s.lines ∧
    (classifySearch t s).relays = s.relays ∧ (classifySearch t s).settles = s.settles ∧
    (classifySearch t s).dsl = s.dsl ∧ (classifySearch t s).sched = s.sched ∧
    (classifySearch t s).ports = s.ports ∧ (classifySearch t s).ring = s.ring ∧
    (classifySearch t s).faults = s.faults ∧ (classifySearch t s).power = s.power ∧
    (classifySearch t s).store = s.store ∧ (classifySearch t s).occasion = s.occasion := by
  have h : butChannelsTrackerEngine (classifySearch t s) = butChannelsTrackerEngine s := by
    unfold classifySearch; simp [butChannelsTrackerEngine]
  simpa [butChannelsTrackerEngine] using h

@[simp] theorem acquireLapse_frame (s : State) :
    (acquireLapse s).pending = s.pending ∧ (acquireLapse s).phase = s.phase ∧
    (acquireLapse s).clock = s.clock ∧ (acquireLapse s).pins = s.pins ∧
    (acquireLapse s).twoPorts = s.twoPorts ∧ (acquireLapse s).gateway = s.gateway ∧
    (acquireLapse s).modem = s.modem ∧ (acquireLapse s).lines = s.lines ∧ (acquireLapse s).relays = s.relays ∧
    (acquireLapse s).settles = s.settles ∧ (acquireLapse s).dsl = s.dsl ∧ (acquireLapse s).sched = s.sched ∧
    (acquireLapse s).ports = s.ports ∧ (acquireLapse s).ring = s.ring ∧ (acquireLapse s).faults = s.faults ∧
    (acquireLapse s).power = s.power ∧ (acquireLapse s).store = s.store ∧
    (acquireLapse s).occasion = s.occasion := by
  have h : butChannelsTrackerEngine (acquireLapse s) = butChannelsTrackerEngine s := by
    unfold acquireLapse; simp [butChannelsTrackerEngine]
  simpa [butChannelsTrackerEngine] using h

@[simp] theorem endCall_frame (why : Nat) (p : Option Port) (s : State) :
    (endCall why p s).pending = s.pending ∧ (endCall why p s).phase = s.phase ∧
    (endCall why p s).clock = s.clock ∧ (endCall why p s).pins = s.pins ∧
    (endCall why p s).twoPorts = s.twoPorts ∧ (endCall why p s).gateway = s.gateway ∧
    (endCall why p s).modem = s.modem ∧ (endCall why p s).lines = s.lines ∧
    (endCall why p s).relays = s.relays ∧ (endCall why p s).settles = s.settles ∧
    (endCall why p s).dsl = s.dsl ∧ (endCall why p s).sched = s.sched ∧ (endCall why p s).tracker = s.tracker ∧
    (endCall why p s).ports = s.ports ∧ (endCall why p s).engine = s.engine ∧
    (endCall why p s).faults = s.faults ∧ (endCall why p s).power = s.power ∧
    (endCall why p s).store = s.store ∧ (endCall why p s).occasion = s.occasion := by
  have h : butChannelsRing (endCall why p s) = butChannelsRing s := by
    unfold endCall; simp [butChannelsRing]
  simpa [butChannelsRing] using h

@[simp] theorem digitNotice_frame (p : Port) (error : Bool) (flash : Bool) (unrecorded : Bool) (value :
      Nat) (count : Nat) (s : State) :
    (digitNotice p error flash unrecorded value count s).pending = s.pending ∧
    (digitNotice p error flash unrecorded value count s).phase = s.phase ∧
    (digitNotice p error flash unrecorded value count s).clock = s.clock ∧
    (digitNotice p error flash unrecorded value count s).pins = s.pins ∧
    (digitNotice p error flash unrecorded value count s).twoPorts = s.twoPorts ∧
    (digitNotice p error flash unrecorded value count s).gateway = s.gateway ∧
    (digitNotice p error flash unrecorded value count s).modem = s.modem ∧
    (digitNotice p error flash unrecorded value count s).lines = s.lines ∧
    (digitNotice p error flash unrecorded value count s).relays = s.relays ∧
    (digitNotice p error flash unrecorded value count s).settles = s.settles ∧
    (digitNotice p error flash unrecorded value count s).dsl = s.dsl ∧
    (digitNotice p error flash unrecorded value count s).sched = s.sched ∧
    (digitNotice p error flash unrecorded value count s).tracker = s.tracker ∧
    (digitNotice p error flash unrecorded value count s).ports = s.ports ∧
    (digitNotice p error flash unrecorded value count s).ring = s.ring ∧
    (digitNotice p error flash unrecorded value count s).engine = s.engine ∧
    (digitNotice p error flash unrecorded value count s).faults = s.faults ∧
    (digitNotice p error flash unrecorded value count s).power = s.power ∧
    (digitNotice p error flash unrecorded value count s).store = s.store ∧
    (digitNotice p error flash unrecorded value count s).occasion = s.occasion := by
  have h : butChannels (digitNotice p error flash unrecorded value count s) = butChannels s := by
    unfold digitNotice; simp [butChannels]
  simpa [butChannels] using h

@[simp] theorem trackNotice_frame (why : TrackReason) (missesBefore : Nat) (s : State) :
    (trackNotice why missesBefore s).pending = s.pending ∧ (trackNotice why missesBefore s).phase = s.phase ∧
    (trackNotice why missesBefore s).clock = s.clock ∧ (trackNotice why missesBefore s).pins = s.pins ∧
    (trackNotice why missesBefore s).twoPorts = s.twoPorts ∧
    (trackNotice why missesBefore s).gateway = s.gateway ∧ (trackNotice why missesBefore s).modem = s.modem ∧
    (trackNotice why missesBefore s).lines = s.lines ∧ (trackNotice why missesBefore s).relays = s.relays ∧
    (trackNotice why missesBefore s).settles = s.settles ∧ (trackNotice why missesBefore s).dsl = s.dsl ∧
    (trackNotice why missesBefore s).sched = s.sched ∧ (trackNotice why missesBefore s).tracker = s.tracker ∧
    (trackNotice why missesBefore s).ports = s.ports ∧ (trackNotice why missesBefore s).ring = s.ring ∧
    (trackNotice why missesBefore s).engine = s.engine ∧ (trackNotice why missesBefore s).faults = s.faults ∧
    (trackNotice why missesBefore s).power = s.power ∧ (trackNotice why missesBefore s).store = s.store ∧
    (trackNotice why missesBefore s).occasion = s.occasion := by
  have h : butChannels (trackNotice why missesBefore s) = butChannels s := by
    unfold trackNotice; simp [butChannels]
  simpa [butChannels] using h

@[simp] theorem endSlot_frame (i : SlotId) (s : State) :
    (endSlot i s).pending = s.pending ∧ (endSlot i s).phase = s.phase ∧ (endSlot i s).clock = s.clock ∧
    (endSlot i s).pins = s.pins ∧ (endSlot i s).twoPorts = s.twoPorts ∧ (endSlot i s).gateway = s.gateway ∧
    (endSlot i s).modem = s.modem ∧ (endSlot i s).lines = s.lines ∧ (endSlot i s).relays = s.relays ∧
    (endSlot i s).settles = s.settles ∧ (endSlot i s).dsl = s.dsl ∧ (endSlot i s).tracker = s.tracker ∧
    (endSlot i s).ports = s.ports ∧ (endSlot i s).ring = s.ring ∧ (endSlot i s).engine = s.engine ∧
    (endSlot i s).faults = s.faults ∧ (endSlot i s).power = s.power ∧ (endSlot i s).store = s.store ∧
    (endSlot i s).occasion = s.occasion := by
  have h : butChannelsSched (endSlot i s) = butChannelsSched s := by
    unfold endSlot; (repeat' split) <;> simp [butChannelsSched]
  simpa [butChannelsSched] using h

@[simp] theorem enableTracker_frame (s : State) :
    (enableTracker s).pending = s.pending ∧ (enableTracker s).phase = s.phase ∧
    (enableTracker s).clock = s.clock ∧ (enableTracker s).pins = s.pins ∧
    (enableTracker s).twoPorts = s.twoPorts ∧ (enableTracker s).gateway = s.gateway ∧
    (enableTracker s).modem = s.modem ∧ (enableTracker s).lines = s.lines ∧
    (enableTracker s).relays = s.relays ∧ (enableTracker s).settles = s.settles ∧
    (enableTracker s).dsl = s.dsl ∧ (enableTracker s).sched = s.sched ∧ (enableTracker s).ports = s.ports ∧
    (enableTracker s).ring = s.ring ∧ (enableTracker s).faults = s.faults ∧ (enableTracker s).power = s.power ∧
    (enableTracker s).store = s.store ∧ (enableTracker s).occasion = s.occasion := by
  have h : butChannelsTrackerEngine (enableTracker s) = butChannelsTrackerEngine s := by
    unfold enableTracker; simp [butChannelsTrackerEngine]
  simpa [butChannelsTrackerEngine] using h

@[simp] theorem judgeWatch_frame (s : State) :
    (judgeWatch s).pending = s.pending ∧ (judgeWatch s).phase = s.phase ∧ (judgeWatch s).clock = s.clock ∧
    (judgeWatch s).pins = s.pins ∧ (judgeWatch s).twoPorts = s.twoPorts ∧ (judgeWatch s).gateway = s.gateway ∧
    (judgeWatch s).modem = s.modem ∧ (judgeWatch s).channels = s.channels ∧ (judgeWatch s).lines = s.lines ∧
    (judgeWatch s).relays = s.relays ∧ (judgeWatch s).settles = s.settles ∧ (judgeWatch s).dsl = s.dsl ∧
    (judgeWatch s).sched = s.sched ∧ (judgeWatch s).tracker = s.tracker ∧ (judgeWatch s).ports = s.ports ∧
    (judgeWatch s).ring = s.ring ∧ (judgeWatch s).engine = s.engine ∧ (judgeWatch s).power = s.power ∧
    (judgeWatch s).store = s.store ∧ (judgeWatch s).occasion = s.occasion := by
  have h : butFaults (judgeWatch s) = butFaults s := by
    unfold judgeWatch; (repeat' split) <;> simp [butFaults]
  simpa [butFaults] using h

@[simp] theorem hookNotice_frame (p : Port) (offHook : Bool) (why : HookReason) (detail : Time) (s : State) :
    (hookNotice p offHook why detail s).pending = s.pending ∧
    (hookNotice p offHook why detail s).phase = s.phase ∧ (hookNotice p offHook why detail s).clock = s.clock ∧
    (hookNotice p offHook why detail s).pins = s.pins ∧
    (hookNotice p offHook why detail s).twoPorts = s.twoPorts ∧
    (hookNotice p offHook why detail s).gateway = s.gateway ∧
    (hookNotice p offHook why detail s).modem = s.modem ∧ (hookNotice p offHook why detail s).lines = s.lines ∧
    (hookNotice p offHook why detail s).relays = s.relays ∧
    (hookNotice p offHook why detail s).settles = s.settles ∧ (hookNotice p offHook why detail s).dsl = s.dsl ∧
    (hookNotice p offHook why detail s).sched = s.sched ∧
    (hookNotice p offHook why detail s).tracker = s.tracker ∧
    (hookNotice p offHook why detail s).ports = s.ports ∧ (hookNotice p offHook why detail s).ring = s.ring ∧
    (hookNotice p offHook why detail s).engine = s.engine ∧
    (hookNotice p offHook why detail s).faults = s.faults ∧
    (hookNotice p offHook why detail s).power = s.power ∧ (hookNotice p offHook why detail s).store = s.store ∧
    (hookNotice p offHook why detail s).occasion = s.occasion := by
  have h : butChannels (hookNotice p offHook why detail s) = butChannels s := by
    unfold hookNotice; simp [butChannels]
  simpa [butChannels] using h

@[simp] theorem unplanned_frame (k : Unplanned) (p : Option Port) (b8 : Nat) (s : State) :
    (unplanned k p b8 s).pending = s.pending ∧ (unplanned k p b8 s).phase = s.phase ∧
    (unplanned k p b8 s).clock = s.clock ∧ (unplanned k p b8 s).pins = s.pins ∧
    (unplanned k p b8 s).twoPorts = s.twoPorts ∧ (unplanned k p b8 s).gateway = s.gateway ∧
    (unplanned k p b8 s).modem = s.modem ∧ (unplanned k p b8 s).lines = s.lines ∧
    (unplanned k p b8 s).relays = s.relays ∧ (unplanned k p b8 s).settles = s.settles ∧
    (unplanned k p b8 s).dsl = s.dsl ∧ (unplanned k p b8 s).sched = s.sched ∧
    (unplanned k p b8 s).tracker = s.tracker ∧ (unplanned k p b8 s).ports = s.ports ∧
    (unplanned k p b8 s).ring = s.ring ∧ (unplanned k p b8 s).engine = s.engine ∧
    (unplanned k p b8 s).faults = s.faults ∧ (unplanned k p b8 s).power = s.power ∧
    (unplanned k p b8 s).store = s.store ∧ (unplanned k p b8 s).occasion = s.occasion := by
  have h : butChannels (unplanned k p b8 s) = butChannels s := by
    unfold unplanned; simp [butChannels]
  simpa [butChannels] using h

@[simp] theorem revokedNotice_frame (f : Func) (h : Hold) (why : Nat) (value : Nat) (s : State) :
    (revokedNotice f h why value s).pending = s.pending ∧ (revokedNotice f h why value s).phase = s.phase ∧
    (revokedNotice f h why value s).clock = s.clock ∧ (revokedNotice f h why value s).pins = s.pins ∧
    (revokedNotice f h why value s).twoPorts = s.twoPorts ∧
    (revokedNotice f h why value s).gateway = s.gateway ∧ (revokedNotice f h why value s).modem = s.modem ∧
    (revokedNotice f h why value s).lines = s.lines ∧ (revokedNotice f h why value s).relays = s.relays ∧
    (revokedNotice f h why value s).settles = s.settles ∧ (revokedNotice f h why value s).dsl = s.dsl ∧
    (revokedNotice f h why value s).sched = s.sched ∧ (revokedNotice f h why value s).tracker = s.tracker ∧
    (revokedNotice f h why value s).ports = s.ports ∧ (revokedNotice f h why value s).ring = s.ring ∧
    (revokedNotice f h why value s).engine = s.engine ∧ (revokedNotice f h why value s).faults = s.faults ∧
    (revokedNotice f h why value s).power = s.power ∧ (revokedNotice f h why value s).store = s.store ∧
    (revokedNotice f h why value s).occasion = s.occasion := by
  have h : butChannels (revokedNotice f h why value s) = butChannels s := by
    unfold revokedNotice; simp [butChannels]
  simpa [butChannels] using h

@[simp] theorem resetPinCheck_frame (s : State) :
    (resetPinCheck s).pending = s.pending ∧ (resetPinCheck s).phase = s.phase ∧
    (resetPinCheck s).clock = s.clock ∧ (resetPinCheck s).pins = s.pins ∧
    (resetPinCheck s).twoPorts = s.twoPorts ∧ (resetPinCheck s).gateway = s.gateway ∧
    (resetPinCheck s).modem = s.modem ∧ (resetPinCheck s).channels = s.channels ∧
    (resetPinCheck s).lines = s.lines ∧ (resetPinCheck s).dsl = s.dsl ∧ (resetPinCheck s).sched = s.sched ∧
    (resetPinCheck s).tracker = s.tracker ∧ (resetPinCheck s).ports = s.ports ∧
    (resetPinCheck s).ring = s.ring ∧ (resetPinCheck s).engine = s.engine ∧ (resetPinCheck s).power = s.power ∧
    (resetPinCheck s).store = s.store ∧ (resetPinCheck s).occasion = s.occasion := by
  have h : butRelaysSettlesFaults (resetPinCheck s) = butRelaysSettlesFaults s := by
    unfold resetPinCheck; (repeat' split) <;> simp [butRelaysSettlesFaults]
  simpa [butRelaysSettlesFaults] using h

@[simp] theorem beginBreak_frame (p : Port) (s : State) :
    (beginBreak p s).pending = s.pending ∧ (beginBreak p s).phase = s.phase ∧
    (beginBreak p s).clock = s.clock ∧ (beginBreak p s).pins = s.pins ∧
    (beginBreak p s).twoPorts = s.twoPorts ∧ (beginBreak p s).gateway = s.gateway ∧
    (beginBreak p s).modem = s.modem ∧ (beginBreak p s).channels = s.channels ∧
    (beginBreak p s).lines = s.lines ∧ (beginBreak p s).relays = s.relays ∧
    (beginBreak p s).settles = s.settles ∧ (beginBreak p s).dsl = s.dsl ∧ (beginBreak p s).sched = s.sched ∧
    (beginBreak p s).tracker = s.tracker ∧ (beginBreak p s).ring = s.ring ∧
    (beginBreak p s).engine = s.engine ∧ (beginBreak p s).power = s.power ∧ (beginBreak p s).store = s.store ∧
    (beginBreak p s).occasion = s.occasion := by
  have h : butPortsFaults (beginBreak p s) = butPortsFaults s := by
    unfold beginBreak; simp [butPortsFaults]
  simpa [butPortsFaults] using h

@[simp] theorem detachedDone_frame (s : State) :
    (detachedDone s).pending = s.pending ∧ (detachedDone s).phase = s.phase ∧
    (detachedDone s).clock = s.clock ∧ (detachedDone s).pins = s.pins ∧
    (detachedDone s).twoPorts = s.twoPorts ∧ (detachedDone s).gateway = s.gateway ∧
    (detachedDone s).modem = s.modem ∧ (detachedDone s).lines = s.lines ∧ (detachedDone s).relays = s.relays ∧
    (detachedDone s).settles = s.settles ∧ (detachedDone s).dsl = s.dsl ∧
    (detachedDone s).tracker = s.tracker ∧ (detachedDone s).ports = s.ports ∧ (detachedDone s).ring = s.ring ∧
    (detachedDone s).faults = s.faults ∧ (detachedDone s).power = s.power ∧ (detachedDone s).store = s.store ∧
    (detachedDone s).occasion = s.occasion := by
  have h : butChannelsSchedEngine (detachedDone s) = butChannelsSchedEngine s := by
    unfold detachedDone; (repeat' split) <;> simp [butChannelsSchedEngine]
  simpa [butChannelsSchedEngine] using h

@[simp] theorem hitEdge_frame (t : Time) (n : Nat) (e : Int) (s : State) :
    (hitEdge t n e s).pending = s.pending ∧ (hitEdge t n e s).phase = s.phase ∧
    (hitEdge t n e s).clock = s.clock ∧ (hitEdge t n e s).pins = s.pins ∧
    (hitEdge t n e s).twoPorts = s.twoPorts ∧ (hitEdge t n e s).gateway = s.gateway ∧
    (hitEdge t n e s).modem = s.modem ∧ (hitEdge t n e s).lines = s.lines ∧
    (hitEdge t n e s).relays = s.relays ∧ (hitEdge t n e s).settles = s.settles ∧
    (hitEdge t n e s).dsl = s.dsl ∧ (hitEdge t n e s).sched = s.sched ∧ (hitEdge t n e s).ports = s.ports ∧
    (hitEdge t n e s).ring = s.ring ∧ (hitEdge t n e s).faults = s.faults ∧ (hitEdge t n e s).power = s.power ∧
    (hitEdge t n e s).store = s.store ∧ (hitEdge t n e s).occasion = s.occasion := by
  have h : butChannelsTrackerEngine (hitEdge t n e s) = butChannelsTrackerEngine s := by
    unfold hitEdge; dsimp only; (repeat' split) <;> simp [butChannelsTrackerEngine]
  simpa [butChannelsTrackerEngine] using h

@[simp] theorem releaseFrom_frame (c : Channel) (l : List Latch) (s : State) :
    (releaseFrom c l s).pending = s.pending ∧ (releaseFrom c l s).phase = s.phase ∧
    (releaseFrom c l s).clock = s.clock ∧ (releaseFrom c l s).pins = s.pins ∧
    (releaseFrom c l s).twoPorts = s.twoPorts ∧ (releaseFrom c l s).gateway = s.gateway ∧
    (releaseFrom c l s).modem = s.modem ∧ (releaseFrom c l s).lines = s.lines ∧
    (releaseFrom c l s).relays = s.relays ∧ (releaseFrom c l s).settles = s.settles ∧
    (releaseFrom c l s).dsl = s.dsl ∧ (releaseFrom c l s).sched = s.sched ∧
    (releaseFrom c l s).tracker = s.tracker ∧ (releaseFrom c l s).ports = s.ports ∧
    (releaseFrom c l s).ring = s.ring ∧ (releaseFrom c l s).engine = s.engine ∧
    (releaseFrom c l s).power = s.power ∧ (releaseFrom c l s).store = s.store ∧
    (releaseFrom c l s).occasion = s.occasion := by
  have h : butChannelsFaults (releaseFrom c l s) = butChannelsFaults s := by
    induction l generalizing s with
    | nil => rfl
    | cons x rest ih => rw [releaseFrom]; split <;> (rw [ih]; try simp [butChannelsFaults])
  simpa [butChannelsFaults] using h

@[simp] theorem releaseLatches_frame (c : Channel) (s : State) :
    (releaseLatches c s).pending = s.pending ∧ (releaseLatches c s).phase = s.phase ∧
    (releaseLatches c s).clock = s.clock ∧ (releaseLatches c s).pins = s.pins ∧
    (releaseLatches c s).twoPorts = s.twoPorts ∧ (releaseLatches c s).gateway = s.gateway ∧
    (releaseLatches c s).modem = s.modem ∧ (releaseLatches c s).lines = s.lines ∧
    (releaseLatches c s).relays = s.relays ∧ (releaseLatches c s).settles = s.settles ∧
    (releaseLatches c s).dsl = s.dsl ∧ (releaseLatches c s).sched = s.sched ∧
    (releaseLatches c s).tracker = s.tracker ∧ (releaseLatches c s).ports = s.ports ∧
    (releaseLatches c s).ring = s.ring ∧ (releaseLatches c s).engine = s.engine ∧
    (releaseLatches c s).power = s.power ∧ (releaseLatches c s).store = s.store ∧
    (releaseLatches c s).occasion = s.occasion := by
  have h : butChannelsFaults (releaseLatches c s) = butChannelsFaults s := by
    unfold releaseLatches; simp [butChannelsFaults]
  simpa [butChannelsFaults] using h

@[simp] theorem raiseFault_frame (f : Raised) (s : State) :
    (raiseFault f s).pending = s.pending ∧ (raiseFault f s).phase = s.phase ∧
    (raiseFault f s).clock = s.clock ∧ (raiseFault f s).pins = s.pins ∧
    (raiseFault f s).twoPorts = s.twoPorts ∧ (raiseFault f s).gateway = s.gateway ∧
    (raiseFault f s).modem = s.modem ∧ (raiseFault f s).lines = s.lines ∧ (raiseFault f s).relays = s.relays ∧
    (raiseFault f s).settles = s.settles ∧ (raiseFault f s).dsl = s.dsl ∧ (raiseFault f s).sched = s.sched ∧
    (raiseFault f s).tracker = s.tracker ∧ (raiseFault f s).ports = s.ports ∧ (raiseFault f s).ring = s.ring ∧
    (raiseFault f s).engine = s.engine ∧ (raiseFault f s).power = s.power ∧ (raiseFault f s).store = s.store ∧
    (raiseFault f s).occasion = s.occasion := by
  have h : butChannelsFaults (raiseFault f s) = butChannelsFaults s := by
    unfold raiseFault; (repeat' split) <;> simp [butChannelsFaults]
  simpa [butChannelsFaults] using h

@[simp] theorem checkDecide_frame (s : State) :
    (checkDecide s).pending = s.pending ∧ (checkDecide s).phase = s.phase ∧ (checkDecide s).clock = s.clock ∧
    (checkDecide s).pins = s.pins ∧ (checkDecide s).twoPorts = s.twoPorts ∧
    (checkDecide s).gateway = s.gateway ∧ (checkDecide s).modem = s.modem ∧ (checkDecide s).lines = s.lines ∧
    (checkDecide s).relays = s.relays ∧ (checkDecide s).settles = s.settles ∧ (checkDecide s).dsl = s.dsl ∧
    (checkDecide s).sched = s.sched ∧ (checkDecide s).ports = s.ports ∧ (checkDecide s).ring = s.ring ∧
    (checkDecide s).power = s.power ∧ (checkDecide s).store = s.store ∧ (checkDecide s).occasion =
          s.occasion := by
  have h : butChannelsTrackerEngineFaults (checkDecide s) = butChannelsTrackerEngineFaults s := by
    unfold checkDecide; dsimp only; (repeat' split) <;> simp [butChannelsTrackerEngineFaults]
  simpa [butChannelsTrackerEngineFaults] using h

@[simp] theorem grantedNotice_frame (f : Func) (e : ClaimEntry) (s : State) :
    (grantedNotice f e s).pending = s.pending ∧ (grantedNotice f e s).phase = s.phase ∧
    (grantedNotice f e s).clock = s.clock ∧ (grantedNotice f e s).pins = s.pins ∧
    (grantedNotice f e s).twoPorts = s.twoPorts ∧ (grantedNotice f e s).gateway = s.gateway ∧
    (grantedNotice f e s).modem = s.modem ∧ (grantedNotice f e s).lines = s.lines ∧
    (grantedNotice f e s).relays = s.relays ∧ (grantedNotice f e s).settles = s.settles ∧
    (grantedNotice f e s).dsl = s.dsl ∧ (grantedNotice f e s).sched = s.sched ∧
    (grantedNotice f e s).tracker = s.tracker ∧ (grantedNotice f e s).ports = s.ports ∧
    (grantedNotice f e s).ring = s.ring ∧ (grantedNotice f e s).engine = s.engine ∧
    (grantedNotice f e s).faults = s.faults ∧ (grantedNotice f e s).power = s.power ∧
    (grantedNotice f e s).store = s.store ∧ (grantedNotice f e s).occasion = s.occasion := by
  have h : butChannels (grantedNotice f e s) = butChannels s := by
    unfold grantedNotice; simp [butChannels]
  simpa [butChannels] using h

@[simp] theorem raisePower_frame (old : PowerState) (new : PowerState) (s : State) :
    (raisePower old new s).pending = s.pending ∧ (raisePower old new s).phase = s.phase ∧
    (raisePower old new s).clock = s.clock ∧ (raisePower old new s).pins = s.pins ∧
    (raisePower old new s).twoPorts = s.twoPorts ∧ (raisePower old new s).gateway = s.gateway ∧
    (raisePower old new s).modem = s.modem ∧ (raisePower old new s).lines = s.lines ∧
    (raisePower old new s).relays = s.relays ∧ (raisePower old new s).settles = s.settles ∧
    (raisePower old new s).dsl = s.dsl ∧ (raisePower old new s).sched = s.sched ∧
    (raisePower old new s).tracker = s.tracker ∧ (raisePower old new s).ports = s.ports ∧
    (raisePower old new s).ring = s.ring ∧ (raisePower old new s).engine = s.engine ∧
    (raisePower old new s).power = s.power ∧ (raisePower old new s).store = s.store ∧
    (raisePower old new s).occasion = s.occasion := by
  have h : butChannelsFaults (raisePower old new s) = butChannelsFaults s := by
    unfold raisePower; (repeat' split) <;> simp [butChannelsFaults]
  simpa [butChannelsFaults] using h

@[simp] theorem disableTracker_frame (s : State) :
    (disableTracker s).pending = s.pending ∧ (disableTracker s).phase = s.phase ∧
    (disableTracker s).clock = s.clock ∧ (disableTracker s).pins = s.pins ∧
    (disableTracker s).twoPorts = s.twoPorts ∧ (disableTracker s).gateway = s.gateway ∧
    (disableTracker s).modem = s.modem ∧ (disableTracker s).lines = s.lines ∧
    (disableTracker s).relays = s.relays ∧ (disableTracker s).settles = s.settles ∧
    (disableTracker s).dsl = s.dsl ∧ (disableTracker s).sched = s.sched ∧ (disableTracker s).ports = s.ports ∧
    (disableTracker s).ring = s.ring ∧ (disableTracker s).faults = s.faults ∧
    (disableTracker s).power = s.power ∧ (disableTracker s).store = s.store ∧
    (disableTracker s).occasion = s.occasion := by
  have h : butChannelsTrackerEngine (disableTracker s) = butChannelsTrackerEngine s := by
    unfold disableTracker; simp [butChannelsTrackerEngine]
  simpa [butChannelsTrackerEngine] using h

@[simp] theorem writeEnds_frame (success : Bool) (x : Save) (s : State) :
    (writeEnds success x s).pending = s.pending ∧ (writeEnds success x s).phase = s.phase ∧
    (writeEnds success x s).clock = s.clock ∧ (writeEnds success x s).pins = s.pins ∧
    (writeEnds success x s).twoPorts = s.twoPorts ∧ (writeEnds success x s).gateway = s.gateway ∧
    (writeEnds success x s).modem = s.modem ∧ (writeEnds success x s).lines = s.lines ∧
    (writeEnds success x s).relays = s.relays ∧ (writeEnds success x s).settles = s.settles ∧
    (writeEnds success x s).dsl = s.dsl ∧ (writeEnds success x s).sched = s.sched ∧
    (writeEnds success x s).tracker = s.tracker ∧ (writeEnds success x s).ports = s.ports ∧
    (writeEnds success x s).ring = s.ring ∧ (writeEnds success x s).engine = s.engine ∧
    (writeEnds success x s).power = s.power ∧ (writeEnds success x s).occasion = s.occasion := by
  have h : butChannelsFaultsStore (writeEnds success x s) = butChannelsFaultsStore s := by
    unfold writeEnds; (repeat' split) <;> simp [butChannelsFaultsStore]
  simpa [butChannelsFaultsStore] using h

@[simp] theorem onsetRecord_frame (s : State) :
    (onsetRecord s).pending = s.pending ∧ (onsetRecord s).phase = s.phase ∧ (onsetRecord s).clock = s.clock ∧
    (onsetRecord s).pins = s.pins ∧ (onsetRecord s).twoPorts = s.twoPorts ∧
    (onsetRecord s).gateway = s.gateway ∧ (onsetRecord s).modem = s.modem ∧ (onsetRecord s).lines = s.lines ∧
    (onsetRecord s).relays = s.relays ∧ (onsetRecord s).settles = s.settles ∧ (onsetRecord s).dsl = s.dsl ∧
    (onsetRecord s).ports = s.ports ∧ (onsetRecord s).faults = s.faults ∧ (onsetRecord s).power = s.power ∧
    (onsetRecord s).store = s.store ∧ (onsetRecord s).occasion = s.occasion := by
  have h : butChannelsSchedTrackerRingEngine (onsetRecord s) = butChannelsSchedTrackerRingEngine s := by
    unfold onsetRecord; dsimp only; (repeat' split) <;> simp [butChannelsSchedTrackerRingEngine]
  simpa [butChannelsSchedTrackerRingEngine] using h

@[simp] theorem recordEntry_frame (p : Port) (e : DialEntry) (count : Nat) (s : State) :
    (recordEntry p e count s).pending = s.pending ∧ (recordEntry p e count s).phase = s.phase ∧
    (recordEntry p e count s).clock = s.clock ∧ (recordEntry p e count s).pins = s.pins ∧
    (recordEntry p e count s).twoPorts = s.twoPorts ∧ (recordEntry p e count s).gateway = s.gateway ∧
    (recordEntry p e count s).modem = s.modem ∧ (recordEntry p e count s).lines = s.lines ∧
    (recordEntry p e count s).relays = s.relays ∧ (recordEntry p e count s).settles = s.settles ∧
    (recordEntry p e count s).dsl = s.dsl ∧ (recordEntry p e count s).sched = s.sched ∧
    (recordEntry p e count s).tracker = s.tracker ∧ (recordEntry p e count s).ring = s.ring ∧
    (recordEntry p e count s).engine = s.engine ∧ (recordEntry p e count s).faults = s.faults ∧
    (recordEntry p e count s).power = s.power ∧ (recordEntry p e count s).store = s.store ∧
    (recordEntry p e count s).occasion = s.occasion := by
  have h : butChannelsPorts (recordEntry p e count s) = butChannelsPorts s := by
    unfold recordEntry; (repeat' split) <;> simp [butChannelsPorts]
  simpa [butChannelsPorts] using h

@[simp] theorem freezeDenied_frame (p : Port) (s : State) :
    (freezeDenied p s).pending = s.pending ∧ (freezeDenied p s).phase = s.phase ∧
    (freezeDenied p s).clock = s.clock ∧ (freezeDenied p s).pins = s.pins ∧
    (freezeDenied p s).twoPorts = s.twoPorts ∧ (freezeDenied p s).gateway = s.gateway ∧
    (freezeDenied p s).modem = s.modem ∧ (freezeDenied p s).lines = s.lines ∧
    (freezeDenied p s).relays = s.relays ∧ (freezeDenied p s).settles = s.settles ∧
    (freezeDenied p s).dsl = s.dsl ∧ (freezeDenied p s).sched = s.sched ∧
    (freezeDenied p s).tracker = s.tracker ∧ (freezeDenied p s).ring = s.ring ∧
    (freezeDenied p s).engine = s.engine ∧ (freezeDenied p s).power = s.power ∧
    (freezeDenied p s).store = s.store ∧ (freezeDenied p s).occasion = s.occasion := by
  have h : butChannelsPortsFaults (freezeDenied p s) = butChannelsPortsFaults s := by
    unfold freezeDenied; dsimp only; (repeat' split) <;> simp [butChannelsPortsFaults]
  simpa [butChannelsPortsFaults] using h

@[simp] theorem strayEdge_frame (t : Time) (s : State) :
    (strayEdge t s).pending = s.pending ∧ (strayEdge t s).phase = s.phase ∧ (strayEdge t s).clock = s.clock ∧
    (strayEdge t s).pins = s.pins ∧ (strayEdge t s).twoPorts = s.twoPorts ∧
    (strayEdge t s).gateway = s.gateway ∧ (strayEdge t s).modem = s.modem ∧ (strayEdge t s).lines = s.lines ∧
    (strayEdge t s).relays = s.relays ∧ (strayEdge t s).settles = s.settles ∧ (strayEdge t s).dsl = s.dsl ∧
    (strayEdge t s).sched = s.sched ∧ (strayEdge t s).ports = s.ports ∧ (strayEdge t s).ring = s.ring ∧
    (strayEdge t s).engine = s.engine ∧ (strayEdge t s).power = s.power ∧ (strayEdge t s).store = s.store ∧
    (strayEdge t s).occasion = s.occasion := by
  have h : butChannelsTrackerFaults (strayEdge t s) = butChannelsTrackerFaults s := by
    unfold strayEdge; dsimp only; (repeat' split) <;> simp [butChannelsTrackerFaults]
  simpa [butChannelsTrackerFaults] using h

@[simp] theorem releasePort_frame (p : Port) (s : State) :
    (releasePort p s).pending = s.pending ∧ (releasePort p s).phase = s.phase ∧
    (releasePort p s).clock = s.clock ∧ (releasePort p s).pins = s.pins ∧
    (releasePort p s).twoPorts = s.twoPorts ∧ (releasePort p s).gateway = s.gateway ∧
    (releasePort p s).modem = s.modem ∧ (releasePort p s).lines = s.lines ∧
    (releasePort p s).relays = s.relays ∧ (releasePort p s).settles = s.settles ∧
    (releasePort p s).dsl = s.dsl ∧ (releasePort p s).sched = s.sched ∧ (releasePort p s).tracker = s.tracker ∧
    (releasePort p s).ring = s.ring ∧ (releasePort p s).engine = s.engine ∧ (releasePort p s).power = s.power ∧
    (releasePort p s).store = s.store ∧ (releasePort p s).occasion = s.occasion := by
  have h : butChannelsPortsFaults (releasePort p s) = butChannelsPortsFaults s := by
    unfold releasePort; dsimp only; (repeat' split) <;> simp [butChannelsPortsFaults]
  simpa [butChannelsPortsFaults] using h

@[simp] theorem takeAll_frame (l : List Raised) (s : State) :
    (takeAll l s).pending = s.pending ∧ (takeAll l s).phase = s.phase ∧ (takeAll l s).clock = s.clock ∧
    (takeAll l s).pins = s.pins ∧ (takeAll l s).twoPorts = s.twoPorts ∧ (takeAll l s).gateway = s.gateway ∧
    (takeAll l s).modem = s.modem ∧ (takeAll l s).lines = s.lines ∧ (takeAll l s).relays = s.relays ∧
    (takeAll l s).settles = s.settles ∧ (takeAll l s).dsl = s.dsl ∧ (takeAll l s).sched = s.sched ∧
    (takeAll l s).tracker = s.tracker ∧ (takeAll l s).ports = s.ports ∧ (takeAll l s).ring = s.ring ∧
    (takeAll l s).engine = s.engine ∧ (takeAll l s).power = s.power ∧ (takeAll l s).store = s.store ∧
    (takeAll l s).occasion = s.occasion := by
  have h : butChannelsFaults (takeAll l s) = butChannelsFaults s := by
    induction l generalizing s with
    | nil => rfl
    | cons f rest ih => rw [takeAll, ih]; simp [butChannelsFaults]
  simpa [butChannelsFaults] using h

@[simp] theorem finishTaking_frame (s : State) :
    (finishTaking s).pending = s.pending ∧ (finishTaking s).phase = s.phase ∧
    (finishTaking s).clock = s.clock ∧ (finishTaking s).pins = s.pins ∧
    (finishTaking s).twoPorts = s.twoPorts ∧ (finishTaking s).gateway = s.gateway ∧
    (finishTaking s).modem = s.modem ∧ (finishTaking s).lines = s.lines ∧ (finishTaking s).relays = s.relays ∧
    (finishTaking s).settles = s.settles ∧ (finishTaking s).dsl = s.dsl ∧ (finishTaking s).sched = s.sched ∧
    (finishTaking s).tracker = s.tracker ∧ (finishTaking s).ports = s.ports ∧ (finishTaking s).ring = s.ring ∧
    (finishTaking s).engine = s.engine ∧ (finishTaking s).power = s.power ∧ (finishTaking s).store = s.store ∧
    (finishTaking s).occasion = s.occasion := by
  have h : butChannelsFaults (finishTaking s) = butChannelsFaults s := by
    unfold finishTaking; simp [butChannelsFaults]
  simpa [butChannelsFaults] using h

@[simp] theorem lockOn_frame (t : Time) (pe : Nat) (jitter : Nat) (s : State) :
    (lockOn t pe jitter s).pending = s.pending ∧ (lockOn t pe jitter s).phase = s.phase ∧
    (lockOn t pe jitter s).clock = s.clock ∧ (lockOn t pe jitter s).pins = s.pins ∧
    (lockOn t pe jitter s).twoPorts = s.twoPorts ∧ (lockOn t pe jitter s).gateway = s.gateway ∧
    (lockOn t pe jitter s).modem = s.modem ∧ (lockOn t pe jitter s).lines = s.lines ∧
    (lockOn t pe jitter s).relays = s.relays ∧ (lockOn t pe jitter s).settles = s.settles ∧
    (lockOn t pe jitter s).dsl = s.dsl ∧ (lockOn t pe jitter s).sched = s.sched ∧
    (lockOn t pe jitter s).ports = s.ports ∧ (lockOn t pe jitter s).ring = s.ring ∧
    (lockOn t pe jitter s).faults = s.faults ∧ (lockOn t pe jitter s).power = s.power ∧
    (lockOn t pe jitter s).store = s.store ∧ (lockOn t pe jitter s).occasion = s.occasion := by
  have h : butChannelsTrackerEngine (lockOn t pe jitter s) = butChannelsTrackerEngine s := by
    unfold lockOn; simp [butChannelsTrackerEngine]
  simpa [butChannelsTrackerEngine] using h

@[simp] theorem classifyAcquire_frame (t : Time) (s : State) :
    (classifyAcquire t s).pending = s.pending ∧ (classifyAcquire t s).phase = s.phase ∧
    (classifyAcquire t s).clock = s.clock ∧ (classifyAcquire t s).pins = s.pins ∧
    (classifyAcquire t s).twoPorts = s.twoPorts ∧ (classifyAcquire t s).gateway = s.gateway ∧
    (classifyAcquire t s).modem = s.modem ∧ (classifyAcquire t s).lines = s.lines ∧
    (classifyAcquire t s).relays = s.relays ∧ (classifyAcquire t s).settles = s.settles ∧
    (classifyAcquire t s).dsl = s.dsl ∧ (classifyAcquire t s).sched = s.sched ∧
    (classifyAcquire t s).ports = s.ports ∧ (classifyAcquire t s).ring = s.ring ∧
    (classifyAcquire t s).faults = s.faults ∧ (classifyAcquire t s).power = s.power ∧
    (classifyAcquire t s).store = s.store ∧ (classifyAcquire t s).occasion = s.occasion := by
  have h : butChannelsTrackerEngine (classifyAcquire t s) = butChannelsTrackerEngine s := by
    unfold classifyAcquire; dsimp only; (repeat' split) <;> simp [butChannelsTrackerEngine]
  simpa [butChannelsTrackerEngine] using h

@[simp] theorem endDsl_frame (o : DslOutcome) (s : State) :
    (endDsl o s).pending = s.pending ∧ (endDsl o s).phase = s.phase ∧ (endDsl o s).clock = s.clock ∧
    (endDsl o s).pins = s.pins ∧ (endDsl o s).twoPorts = s.twoPorts ∧ (endDsl o s).gateway = s.gateway ∧
    (endDsl o s).modem = s.modem ∧ (endDsl o s).lines = s.lines ∧ (endDsl o s).relays = s.relays ∧
    (endDsl o s).settles = s.settles ∧ (endDsl o s).tracker = s.tracker ∧ (endDsl o s).ports = s.ports ∧
    (endDsl o s).ring = s.ring ∧ (endDsl o s).engine = s.engine ∧ (endDsl o s).faults = s.faults ∧
    (endDsl o s).power = s.power ∧ (endDsl o s).store = s.store ∧ (endDsl o s).occasion = s.occasion := by
  have h : butChannelsDslSched (endDsl o s) = butChannelsDslSched s := by
    unfold endDsl; (repeat' split) <;> simp [butChannelsDslSched]
  simpa [butChannelsDslSched] using h

@[simp] theorem quietEnds_frame (s : State) :
    (quietEnds s).pending = s.pending ∧ (quietEnds s).phase = s.phase ∧ (quietEnds s).clock = s.clock ∧
    (quietEnds s).pins = s.pins ∧ (quietEnds s).twoPorts = s.twoPorts ∧ (quietEnds s).gateway = s.gateway ∧
    (quietEnds s).modem = s.modem ∧ (quietEnds s).lines = s.lines ∧ (quietEnds s).relays = s.relays ∧
    (quietEnds s).settles = s.settles ∧ (quietEnds s).dsl = s.dsl ∧ (quietEnds s).sched = s.sched ∧
    (quietEnds s).tracker = s.tracker ∧ (quietEnds s).ports = s.ports ∧ (quietEnds s).ring = s.ring ∧
    (quietEnds s).engine = s.engine ∧ (quietEnds s).power = s.power ∧ (quietEnds s).store = s.store ∧
    (quietEnds s).occasion = s.occasion := by
  have h : butChannelsFaults (quietEnds s) = butChannelsFaults s := by
    unfold quietEnds; simp [butChannelsFaults]
  simpa [butChannelsFaults] using h

@[simp] theorem grantNext_frame (f : Func) (s : State) :
    (grantNext f s).pending = s.pending ∧ (grantNext f s).phase = s.phase ∧ (grantNext f s).clock = s.clock ∧
    (grantNext f s).pins = s.pins ∧ (grantNext f s).twoPorts = s.twoPorts ∧
    (grantNext f s).gateway = s.gateway ∧ (grantNext f s).modem = s.modem ∧ (grantNext f s).relays = s.relays ∧
    (grantNext f s).settles = s.settles ∧ (grantNext f s).dsl = s.dsl ∧ (grantNext f s).sched = s.sched ∧
    (grantNext f s).tracker = s.tracker ∧ (grantNext f s).ports = s.ports ∧ (grantNext f s).ring = s.ring ∧
    (grantNext f s).engine = s.engine ∧ (grantNext f s).faults = s.faults ∧ (grantNext f s).power = s.power ∧
    (grantNext f s).store = s.store ∧ (grantNext f s).occasion = s.occasion := by
  have h : butChannelsLines (grantNext f s) = butChannelsLines s := by
    unfold grantNext; (repeat' split) <;> simp [butChannelsLines]
  simpa [butChannelsLines] using h

@[simp] theorem makeAgain_frame (p : Port) (s : State) :
    (makeAgain p s).pending = s.pending ∧ (makeAgain p s).phase = s.phase ∧ (makeAgain p s).clock = s.clock ∧
    (makeAgain p s).pins = s.pins ∧ (makeAgain p s).twoPorts = s.twoPorts ∧
    (makeAgain p s).gateway = s.gateway ∧ (makeAgain p s).modem = s.modem ∧
    (makeAgain p s).channels = s.channels ∧ (makeAgain p s).lines = s.lines ∧
    (makeAgain p s).relays = s.relays ∧ (makeAgain p s).settles = s.settles ∧ (makeAgain p s).dsl = s.dsl ∧
    (makeAgain p s).sched = s.sched ∧ (makeAgain p s).tracker = s.tracker ∧ (makeAgain p s).ring = s.ring ∧
    (makeAgain p s).engine = s.engine ∧ (makeAgain p s).power = s.power ∧ (makeAgain p s).store = s.store ∧
    (makeAgain p s).occasion = s.occasion := by
  have h : butPortsFaults (makeAgain p s) = butPortsFaults s := by
    unfold makeAgain; simp [butPortsFaults]
  simpa [butPortsFaults] using h

@[simp] theorem completeDigit_frame (p : Port) (s : State) :
    (completeDigit p s).pending = s.pending ∧ (completeDigit p s).phase = s.phase ∧
    (completeDigit p s).clock = s.clock ∧ (completeDigit p s).pins = s.pins ∧
    (completeDigit p s).twoPorts = s.twoPorts ∧ (completeDigit p s).gateway = s.gateway ∧
    (completeDigit p s).modem = s.modem ∧ (completeDigit p s).lines = s.lines ∧
    (completeDigit p s).relays = s.relays ∧ (completeDigit p s).settles = s.settles ∧
    (completeDigit p s).dsl = s.dsl ∧ (completeDigit p s).sched = s.sched ∧
    (completeDigit p s).tracker = s.tracker ∧ (completeDigit p s).ring = s.ring ∧
    (completeDigit p s).engine = s.engine ∧ (completeDigit p s).faults = s.faults ∧
    (completeDigit p s).power = s.power ∧ (completeDigit p s).store = s.store ∧
    (completeDigit p s).occasion = s.occasion := by
  have h : butChannelsPorts (completeDigit p s) = butChannelsPorts s := by
    unfold completeDigit; dsimp only; (repeat' split) <;> simp [butChannelsPorts]
  simpa [butChannelsPorts] using h

@[simp] theorem raiseTestFail_frame (t : Test) (s : State) :
    (raiseTestFail t s).pending = s.pending ∧ (raiseTestFail t s).phase = s.phase ∧
    (raiseTestFail t s).clock = s.clock ∧ (raiseTestFail t s).pins = s.pins ∧
    (raiseTestFail t s).twoPorts = s.twoPorts ∧ (raiseTestFail t s).gateway = s.gateway ∧
    (raiseTestFail t s).modem = s.modem ∧ (raiseTestFail t s).lines = s.lines ∧
    (raiseTestFail t s).relays = s.relays ∧ (raiseTestFail t s).settles = s.settles ∧
    (raiseTestFail t s).dsl = s.dsl ∧ (raiseTestFail t s).sched = s.sched ∧
    (raiseTestFail t s).tracker = s.tracker ∧ (raiseTestFail t s).ports = s.ports ∧
    (raiseTestFail t s).ring = s.ring ∧ (raiseTestFail t s).engine = s.engine ∧
    (raiseTestFail t s).power = s.power ∧ (raiseTestFail t s).store = s.store ∧
    (raiseTestFail t s).occasion = s.occasion := by
  have h : butChannelsFaults (raiseTestFail t s) = butChannelsFaults s := by
    unfold raiseTestFail; (repeat' split) <;> simp [butChannelsFaults]
  simpa [butChannelsFaults] using h

@[simp] theorem dslSettled_frame (s : State) :
    (dslSettled s).pending = s.pending ∧ (dslSettled s).phase = s.phase ∧ (dslSettled s).clock = s.clock ∧
    (dslSettled s).pins = s.pins ∧ (dslSettled s).twoPorts = s.twoPorts ∧ (dslSettled s).gateway = s.gateway ∧
    (dslSettled s).modem = s.modem ∧ (dslSettled s).lines = s.lines ∧ (dslSettled s).relays = s.relays ∧
    (dslSettled s).settles = s.settles ∧ (dslSettled s).tracker = s.tracker ∧ (dslSettled s).ports = s.ports ∧
    (dslSettled s).ring = s.ring ∧ (dslSettled s).faults = s.faults ∧ (dslSettled s).power = s.power ∧
    (dslSettled s).store = s.store ∧ (dslSettled s).occasion = s.occasion := by
  have h : butChannelsDslSchedEngine (dslSettled s) = butChannelsDslSchedEngine s := by
    unfold dslSettled; (repeat' split) <;> simp [butChannelsDslSchedEngine]
  simpa [butChannelsDslSchedEngine] using h

@[simp] theorem classifyHeld_frame (t : Time) (s : State) :
    (classifyHeld t s).pending = s.pending ∧ (classifyHeld t s).phase = s.phase ∧
    (classifyHeld t s).clock = s.clock ∧ (classifyHeld t s).pins = s.pins ∧
    (classifyHeld t s).twoPorts = s.twoPorts ∧ (classifyHeld t s).gateway = s.gateway ∧
    (classifyHeld t s).modem = s.modem ∧ (classifyHeld t s).lines = s.lines ∧
    (classifyHeld t s).relays = s.relays ∧ (classifyHeld t s).settles = s.settles ∧
    (classifyHeld t s).dsl = s.dsl ∧ (classifyHeld t s).sched = s.sched ∧ (classifyHeld t s).ports = s.ports ∧
    (classifyHeld t s).ring = s.ring ∧ (classifyHeld t s).power = s.power ∧
    (classifyHeld t s).store = s.store ∧ (classifyHeld t s).occasion = s.occasion := by
  have h : butChannelsTrackerEngineFaults (classifyHeld t s) = butChannelsTrackerEngineFaults s := by
    unfold classifyHeld; dsimp only; (repeat' split) <;> simp [butChannelsTrackerEngineFaults]
  simpa [butChannelsTrackerEngineFaults] using h

@[simp] theorem classify_frame (t : Time) (s : State) :
    (classify t s).pending = s.pending ∧ (classify t s).phase = s.phase ∧ (classify t s).clock = s.clock ∧
    (classify t s).pins = s.pins ∧ (classify t s).twoPorts = s.twoPorts ∧ (classify t s).gateway = s.gateway ∧
    (classify t s).modem = s.modem ∧ (classify t s).lines = s.lines ∧ (classify t s).relays = s.relays ∧
    (classify t s).settles = s.settles ∧ (classify t s).dsl = s.dsl ∧ (classify t s).sched = s.sched ∧
    (classify t s).ports = s.ports ∧ (classify t s).ring = s.ring ∧ (classify t s).power = s.power ∧
    (classify t s).store = s.store ∧ (classify t s).occasion = s.occasion := by
  have h : butChannelsTrackerEngineFaults (classify t s) = butChannelsTrackerEngineFaults s := by
    unfold classify; (repeat' split) <;> simp [butChannelsTrackerEngineFaults]
  simpa [butChannelsTrackerEngineFaults] using h

@[simp] theorem classifyHead_frame (s : State) :
    (classifyHead s).pending = s.pending ∧ (classifyHead s).phase = s.phase ∧
    (classifyHead s).clock = s.clock ∧ (classifyHead s).pins = s.pins ∧
    (classifyHead s).twoPorts = s.twoPorts ∧ (classifyHead s).gateway = s.gateway ∧
    (classifyHead s).modem = s.modem ∧ (classifyHead s).lines = s.lines ∧ (classifyHead s).relays = s.relays ∧
    (classifyHead s).settles = s.settles ∧ (classifyHead s).dsl = s.dsl ∧ (classifyHead s).sched = s.sched ∧
    (classifyHead s).ports = s.ports ∧ (classifyHead s).ring = s.ring ∧ (classifyHead s).power = s.power ∧
    (classifyHead s).store = s.store ∧ (classifyHead s).occasion = s.occasion := by
  have h : butChannelsTrackerEngineFaults (classifyHead s) = butChannelsTrackerEngineFaults s := by
    unfold classifyHead; (repeat' split) <;> simp [butChannelsTrackerEngineFaults]
  simpa [butChannelsTrackerEngineFaults] using h

@[simp] theorem acquireExpires_frame (s : State) :
    (acquireExpires s).pending = s.pending ∧ (acquireExpires s).phase = s.phase ∧
    (acquireExpires s).clock = s.clock ∧ (acquireExpires s).pins = s.pins ∧
    (acquireExpires s).twoPorts = s.twoPorts ∧ (acquireExpires s).gateway = s.gateway ∧
    (acquireExpires s).modem = s.modem ∧ (acquireExpires s).lines = s.lines ∧
    (acquireExpires s).relays = s.relays ∧ (acquireExpires s).settles = s.settles ∧
    (acquireExpires s).dsl = s.dsl ∧ (acquireExpires s).sched = s.sched ∧ (acquireExpires s).ports = s.ports ∧
    (acquireExpires s).ring = s.ring ∧ (acquireExpires s).power = s.power ∧
    (acquireExpires s).store = s.store ∧ (acquireExpires s).occasion = s.occasion := by
  have h : butChannelsTrackerEngineFaults (acquireExpires s) = butChannelsTrackerEngineFaults s := by
    unfold acquireExpires; dsimp only; (repeat' split) <;> simp [butChannelsTrackerEngineFaults]
  simpa [butChannelsTrackerEngineFaults] using h

@[simp] theorem endBreak_frame (p : Port) (s : State) :
    (endBreak p s).pending = s.pending ∧ (endBreak p s).phase = s.phase ∧ (endBreak p s).clock = s.clock ∧
    (endBreak p s).pins = s.pins ∧ (endBreak p s).twoPorts = s.twoPorts ∧ (endBreak p s).gateway = s.gateway ∧
    (endBreak p s).modem = s.modem ∧ (endBreak p s).lines = s.lines ∧ (endBreak p s).relays = s.relays ∧
    (endBreak p s).settles = s.settles ∧ (endBreak p s).dsl = s.dsl ∧ (endBreak p s).sched = s.sched ∧
    (endBreak p s).tracker = s.tracker ∧ (endBreak p s).ring = s.ring ∧ (endBreak p s).engine = s.engine ∧
    (endBreak p s).power = s.power ∧ (endBreak p s).store = s.store ∧ (endBreak p s).occasion = s.occasion := by
  have h : butChannelsPortsFaults (endBreak p s) = butChannelsPortsFaults s := by
    unfold endBreak; dsimp only; (repeat' split) <;> simp [butChannelsPortsFaults]
  simpa [butChannelsPortsFaults] using h

@[simp] theorem takeLoop_frame (p : Port) (present : Bool) (s : State) :
    (takeLoop p present s).pending = s.pending ∧ (takeLoop p present s).phase = s.phase ∧
    (takeLoop p present s).clock = s.clock ∧ (takeLoop p present s).pins = s.pins ∧
    (takeLoop p present s).twoPorts = s.twoPorts ∧ (takeLoop p present s).gateway = s.gateway ∧
    (takeLoop p present s).modem = s.modem ∧ (takeLoop p present s).lines = s.lines ∧
    (takeLoop p present s).relays = s.relays ∧ (takeLoop p present s).settles = s.settles ∧
    (takeLoop p present s).dsl = s.dsl ∧ (takeLoop p present s).ring = s.ring ∧
    (takeLoop p present s).power = s.power ∧ (takeLoop p present s).store = s.store ∧
    (takeLoop p present s).occasion = s.occasion := by
  have h : butChannelsSchedTrackerPortsEngineFaults (takeLoop p present s) =
        butChannelsSchedTrackerPortsEngineFaults s := by
    unfold takeLoop; dsimp only; (repeat' split) <;> simp [butChannelsSchedTrackerPortsEngineFaults]
  simpa [butChannelsSchedTrackerPortsEngineFaults] using h

@[simp] theorem senseLoop_frame (p : Port) (s : State) :
    (senseLoop p s).pending = s.pending ∧ (senseLoop p s).phase = s.phase ∧ (senseLoop p s).clock = s.clock ∧
    (senseLoop p s).pins = s.pins ∧ (senseLoop p s).twoPorts = s.twoPorts ∧
    (senseLoop p s).gateway = s.gateway ∧ (senseLoop p s).modem = s.modem ∧ (senseLoop p s).lines = s.lines ∧
    (senseLoop p s).relays = s.relays ∧ (senseLoop p s).settles = s.settles ∧ (senseLoop p s).dsl = s.dsl ∧
    (senseLoop p s).ring = s.ring ∧ (senseLoop p s).power = s.power ∧ (senseLoop p s).store = s.store ∧
    (senseLoop p s).occasion = s.occasion := by
  have h : butChannelsSchedTrackerPortsEngineFaults (senseLoop p s) =
        butChannelsSchedTrackerPortsEngineFaults s := by
    unfold senseLoop; (repeat' split) <;> simp [butChannelsSchedTrackerPortsEngineFaults]
  simpa [butChannelsSchedTrackerPortsEngineFaults] using h

@[simp] theorem windowChecked_frame (s : State) :
    (windowChecked s).pending = s.pending ∧ (windowChecked s).phase = s.phase ∧
    (windowChecked s).clock = s.clock ∧ (windowChecked s).pins = s.pins ∧
    (windowChecked s).twoPorts = s.twoPorts ∧ (windowChecked s).gateway = s.gateway ∧
    (windowChecked s).modem = s.modem ∧ (windowChecked s).lines = s.lines ∧
    (windowChecked s).relays = s.relays ∧ (windowChecked s).settles = s.settles ∧
    (windowChecked s).dsl = s.dsl ∧ (windowChecked s).sched = s.sched ∧ (windowChecked s).ports = s.ports ∧
    (windowChecked s).ring = s.ring ∧ (windowChecked s).power = s.power ∧ (windowChecked s).store = s.store ∧
    (windowChecked s).occasion = s.occasion := by
  have h : butChannelsTrackerEngineFaults (windowChecked s) = butChannelsTrackerEngineFaults s := by
    unfold windowChecked; dsimp only; (repeat' split) <;> simp [butChannelsTrackerEngineFaults]
  simpa [butChannelsTrackerEngineFaults] using h

@[simp] theorem portAfterChange_frame (c : Change) (a : Asker) (p : Port) (s : State) :
    (portAfterChange c a p s).pending = s.pending ∧ (portAfterChange c a p s).phase = s.phase ∧
    (portAfterChange c a p s).clock = s.clock ∧ (portAfterChange c a p s).pins = s.pins ∧
    (portAfterChange c a p s).twoPorts = s.twoPorts ∧ (portAfterChange c a p s).gateway = s.gateway ∧
    (portAfterChange c a p s).modem = s.modem ∧ (portAfterChange c a p s).lines = s.lines ∧
    (portAfterChange c a p s).relays = s.relays ∧ (portAfterChange c a p s).settles = s.settles ∧
    (portAfterChange c a p s).dsl = s.dsl ∧ (portAfterChange c a p s).ring = s.ring ∧
    (portAfterChange c a p s).power = s.power ∧ (portAfterChange c a p s).store = s.store ∧
    (portAfterChange c a p s).occasion = s.occasion := by
  have h : butChannelsSchedTrackerPortsEngineFaults (portAfterChange c a p s) =
        butChannelsSchedTrackerPortsEngineFaults s := by
    unfold portAfterChange; simp [butChannelsSchedTrackerPortsEngineFaults]
  simpa [butChannelsSchedTrackerPortsEngineFaults] using h

@[simp] theorem unmask_frame (p : Port) (s : State) :
    (unmask p s).pending = s.pending ∧ (unmask p s).phase = s.phase ∧ (unmask p s).clock = s.clock ∧
    (unmask p s).pins = s.pins ∧ (unmask p s).twoPorts = s.twoPorts ∧ (unmask p s).gateway = s.gateway ∧
    (unmask p s).modem = s.modem ∧ (unmask p s).lines = s.lines ∧ (unmask p s).relays = s.relays ∧
    (unmask p s).settles = s.settles ∧ (unmask p s).dsl = s.dsl ∧ (unmask p s).ring = s.ring ∧
    (unmask p s).power = s.power ∧ (unmask p s).store = s.store ∧ (unmask p s).occasion = s.occasion := by
  have h : butChannelsSchedTrackerPortsEngineFaults (unmask p s) =
        butChannelsSchedTrackerPortsEngineFaults s := by
    unfold unmask; (repeat' split) <;> simp [butChannelsSchedTrackerPortsEngineFaults]
  simpa [butChannelsSchedTrackerPortsEngineFaults] using h

@[simp] theorem restart_frame (p : Port) (why : Option HookReason) (s : State) :
    (restart p why s).pending = s.pending ∧ (restart p why s).phase = s.phase ∧
    (restart p why s).clock = s.clock ∧ (restart p why s).pins = s.pins ∧
    (restart p why s).twoPorts = s.twoPorts ∧ (restart p why s).gateway = s.gateway ∧
    (restart p why s).modem = s.modem ∧ (restart p why s).lines = s.lines ∧
    (restart p why s).relays = s.relays ∧ (restart p why s).settles = s.settles ∧
    (restart p why s).dsl = s.dsl ∧ (restart p why s).ring = s.ring ∧ (restart p why s).power = s.power ∧
    (restart p why s).store = s.store ∧ (restart p why s).occasion = s.occasion := by
  have h : butChannelsSchedTrackerPortsEngineFaults (restart p why s) =
        butChannelsSchedTrackerPortsEngineFaults s := by
    unfold restart; dsimp only; (repeat' split) <;> simp [butChannelsSchedTrackerPortsEngineFaults]
  simpa [butChannelsSchedTrackerPortsEngineFaults] using h

theorem applyChange_frame {c : Change} {a : Asker} {id : Byte} {s : State} {t : State} (h : applyChange c
      a id s = some t) :
    (t).pending = s.pending ∧ (t).phase = s.phase ∧ (t).clock = s.clock ∧ (t).pins = s.pins ∧
    (t).twoPorts = s.twoPorts ∧ (t).gateway = s.gateway ∧ (t).modem = s.modem ∧ (t).lines = s.lines ∧
    (t).dsl = s.dsl ∧ (t).ring = s.ring ∧ (t).power = s.power ∧ (t).store = s.store ∧ (t).occasion =
          s.occasion := by
  unfold applyChange at h
  dsimp only at h
  split at h
  · cases h
  · cases h; simp

@[simp] theorem fallbackRelays_frame (s : State) :
    (fallbackRelays s).pending = s.pending ∧ (fallbackRelays s).phase = s.phase ∧
    (fallbackRelays s).clock = s.clock ∧ (fallbackRelays s).pins = s.pins ∧
    (fallbackRelays s).twoPorts = s.twoPorts ∧ (fallbackRelays s).gateway = s.gateway ∧
    (fallbackRelays s).modem = s.modem ∧ (fallbackRelays s).lines = s.lines ∧ (fallbackRelays s).dsl = s.dsl ∧
    (fallbackRelays s).ring = s.ring ∧ (fallbackRelays s).power = s.power ∧
    (fallbackRelays s).store = s.store ∧ (fallbackRelays s).occasion = s.occasion := by
  have h : butChannelsRelaysSettlesSchedTrackerPortsEngineFaults (fallbackRelays s) =
        butChannelsRelaysSettlesSchedTrackerPortsEngineFaults s := by
    unfold fallbackRelays; simp
          [butChannelsRelaysSettlesSchedTrackerPortsEngineFaults]
  simpa [butChannelsRelaysSettlesSchedTrackerPortsEngineFaults] using h

@[simp] theorem homeTestEnded_frame (p : Port) (s : State) :
    (homeTestEnded p s).pending = s.pending ∧ (homeTestEnded p s).phase = s.phase ∧
    (homeTestEnded p s).clock = s.clock ∧ (homeTestEnded p s).pins = s.pins ∧
    (homeTestEnded p s).twoPorts = s.twoPorts ∧ (homeTestEnded p s).gateway = s.gateway ∧
    (homeTestEnded p s).modem = s.modem ∧ (homeTestEnded p s).lines = s.lines ∧
    (homeTestEnded p s).relays = s.relays ∧ (homeTestEnded p s).settles = s.settles ∧
    (homeTestEnded p s).dsl = s.dsl ∧ (homeTestEnded p s).ring = s.ring ∧ (homeTestEnded p s).power = s.power ∧
    (homeTestEnded p s).store = s.store ∧ (homeTestEnded p s).occasion = s.occasion := by
  have h : butChannelsSchedTrackerPortsEngineFaults (homeTestEnded p s) =
        butChannelsSchedTrackerPortsEngineFaults s := by
    unfold homeTestEnded; dsimp only; (repeat' split) <;> simp [butChannelsSchedTrackerPortsEngineFaults]
  simpa [butChannelsSchedTrackerPortsEngineFaults] using h

@[simp] theorem reserveFallback_frame (s : State) :
    (reserveFallback s).pending = s.pending ∧ (reserveFallback s).phase = s.phase ∧
    (reserveFallback s).clock = s.clock ∧ (reserveFallback s).pins = s.pins ∧
    (reserveFallback s).twoPorts = s.twoPorts ∧ (reserveFallback s).gateway = s.gateway ∧
    (reserveFallback s).modem = s.modem ∧ (reserveFallback s).lines = s.lines ∧
    (reserveFallback s).dsl = s.dsl ∧ (reserveFallback s).ring = s.ring ∧ (reserveFallback s).power = s.power ∧
    (reserveFallback s).store = s.store ∧ (reserveFallback s).occasion = s.occasion := by
  have h : butChannelsRelaysSettlesSchedTrackerPortsEngineFaults (reserveFallback s) =
        butChannelsRelaysSettlesSchedTrackerPortsEngineFaults s := by
    unfold reserveFallback; simp [butChannelsRelaysSettlesSchedTrackerPortsEngineFaults]
  simpa [butChannelsRelaysSettlesSchedTrackerPortsEngineFaults] using h

@[simp] theorem finishProbe_frame (p : Port) (d : Denial) (s : State) :
    (finishProbe p d s).pending = s.pending ∧ (finishProbe p d s).phase = s.phase ∧
    (finishProbe p d s).clock = s.clock ∧ (finishProbe p d s).pins = s.pins ∧
    (finishProbe p d s).twoPorts = s.twoPorts ∧ (finishProbe p d s).gateway = s.gateway ∧
    (finishProbe p d s).modem = s.modem ∧ (finishProbe p d s).lines = s.lines ∧
    (finishProbe p d s).settles = s.settles ∧ (finishProbe p d s).dsl = s.dsl ∧
    (finishProbe p d s).ring = s.ring ∧ (finishProbe p d s).power = s.power ∧
    (finishProbe p d s).store = s.store ∧ (finishProbe p d s).occasion = s.occasion := by
  have h : butChannelsRelaysSchedTrackerPortsEngineFaults (finishProbe p d s) =
        butChannelsRelaysSchedTrackerPortsEngineFaults s := by
    unfold finishProbe; dsimp only; (repeat' split) <;> simp [butChannelsRelaysSchedTrackerPortsEngineFaults]
  simpa [butChannelsRelaysSchedTrackerPortsEngineFaults] using h

@[simp] theorem endBurst_frame (p : Port) (next : RingState) (s : State) :
    (endBurst p next s).pending = s.pending ∧ (endBurst p next s).phase = s.phase ∧
    (endBurst p next s).clock = s.clock ∧ (endBurst p next s).pins = s.pins ∧
    (endBurst p next s).twoPorts = s.twoPorts ∧ (endBurst p next s).gateway = s.gateway ∧
    (endBurst p next s).modem = s.modem ∧ (endBurst p next s).lines = s.lines ∧
    (endBurst p next s).relays = s.relays ∧ (endBurst p next s).settles = s.settles ∧
    (endBurst p next s).dsl = s.dsl ∧ (endBurst p next s).power = s.power ∧
    (endBurst p next s).store = s.store ∧ (endBurst p next s).occasion = s.occasion := by
  have h : butChannelsSchedTrackerPortsRingEngineFaults (endBurst p next s) =
        butChannelsSchedTrackerPortsRingEngineFaults s := by
    unfold endBurst; simp [butChannelsSchedTrackerPortsRingEngineFaults]
  simpa [butChannelsSchedTrackerPortsRingEngineFaults] using h

@[simp] theorem endSwitch_frame (p : Port) (standing : PlainMode) (o : SwitchOutcome) (s : State) :
    (endSwitch p standing o s).pending = s.pending ∧ (endSwitch p standing o s).phase = s.phase ∧
    (endSwitch p standing o s).clock = s.clock ∧ (endSwitch p standing o s).pins = s.pins ∧
    (endSwitch p standing o s).twoPorts = s.twoPorts ∧ (endSwitch p standing o s).gateway = s.gateway ∧
    (endSwitch p standing o s).modem = s.modem ∧ (endSwitch p standing o s).lines = s.lines ∧
    (endSwitch p standing o s).relays = s.relays ∧ (endSwitch p standing o s).settles = s.settles ∧
    (endSwitch p standing o s).dsl = s.dsl ∧ (endSwitch p standing o s).ring = s.ring ∧
    (endSwitch p standing o s).power = s.power ∧ (endSwitch p standing o s).store = s.store ∧
    (endSwitch p standing o s).occasion = s.occasion := by
  have h : butChannelsSchedTrackerPortsEngineFaults (endSwitch p standing o s) =
        butChannelsSchedTrackerPortsEngineFaults s := by
    unfold endSwitch; dsimp only; (repeat' split) <;> simp [butChannelsSchedTrackerPortsEngineFaults]
  simpa [butChannelsSchedTrackerPortsEngineFaults] using h

@[simp] theorem onTimeEnds_frame (p : Port) (s : State) :
    (onTimeEnds p s).pending = s.pending ∧ (onTimeEnds p s).phase = s.phase ∧
    (onTimeEnds p s).clock = s.clock ∧ (onTimeEnds p s).pins = s.pins ∧
    (onTimeEnds p s).twoPorts = s.twoPorts ∧ (onTimeEnds p s).gateway = s.gateway ∧
    (onTimeEnds p s).modem = s.modem ∧ (onTimeEnds p s).lines = s.lines ∧ (onTimeEnds p s).relays = s.relays ∧
    (onTimeEnds p s).settles = s.settles ∧ (onTimeEnds p s).dsl = s.dsl ∧ (onTimeEnds p s).power = s.power ∧
    (onTimeEnds p s).store = s.store ∧ (onTimeEnds p s).occasion = s.occasion := by
  have h : butChannelsSchedTrackerPortsRingEngineFaults (onTimeEnds p s) =
        butChannelsSchedTrackerPortsRingEngineFaults s := by
    unfold onTimeEnds; (repeat' split) <;> simp [butChannelsSchedTrackerPortsRingEngineFaults]
  simpa [butChannelsSchedTrackerPortsRingEngineFaults] using h

@[simp] theorem connectTest_frame (s : State) :
    (connectTest s).pending = s.pending ∧ (connectTest s).phase = s.phase ∧ (connectTest s).clock = s.clock ∧
    (connectTest s).pins = s.pins ∧ (connectTest s).twoPorts = s.twoPorts ∧
    (connectTest s).gateway = s.gateway ∧ (connectTest s).modem = s.modem ∧ (connectTest s).lines = s.lines ∧
    (connectTest s).dsl = s.dsl ∧ (connectTest s).ring = s.ring ∧ (connectTest s).power = s.power ∧
    (connectTest s).store = s.store ∧ (connectTest s).occasion = s.occasion := by
  have h : butChannelsRelaysSettlesSchedTrackerPortsEngineFaults (connectTest s) =
        butChannelsRelaysSettlesSchedTrackerPortsEngineFaults s := by
    unfold connectTest; dsimp only; (repeat' split) <;> (try have hf := applyChange_frame ‹applyChange _ _
          _ _ = some _›) <;> simp [butChannelsRelaysSettlesSchedTrackerPortsEngineFaults, *]
  simpa [butChannelsRelaysSettlesSchedTrackerPortsEngineFaults] using h

@[simp] theorem applyRelease_frame (a : Asker) (t : Test) (s : State) :
    (applyRelease a t s).pending = s.pending ∧ (applyRelease a t s).phase = s.phase ∧
    (applyRelease a t s).clock = s.clock ∧ (applyRelease a t s).pins = s.pins ∧
    (applyRelease a t s).twoPorts = s.twoPorts ∧ (applyRelease a t s).gateway = s.gateway ∧
    (applyRelease a t s).modem = s.modem ∧ (applyRelease a t s).lines = s.lines ∧
    (applyRelease a t s).dsl = s.dsl ∧ (applyRelease a t s).ring = s.ring ∧
    (applyRelease a t s).power = s.power ∧ (applyRelease a t s).store = s.store ∧
    (applyRelease a t s).occasion = s.occasion := by
  have h : butChannelsRelaysSettlesSchedTrackerPortsEngineFaults (applyRelease a t s) =
        butChannelsRelaysSettlesSchedTrackerPortsEngineFaults s := by
    unfold applyRelease; (repeat' split) <;> (try have hf := applyChange_frame ‹applyChange _ _ _ _ = some
          _›) <;> simp [butChannelsRelaysSettlesSchedTrackerPortsEngineFaults, *]
  simpa [butChannelsRelaysSettlesSchedTrackerPortsEngineFaults] using h

@[simp] theorem activateDsl_frame (s : State) :
    (activateDsl s).pending = s.pending ∧ (activateDsl s).phase = s.phase ∧ (activateDsl s).clock = s.clock ∧
    (activateDsl s).pins = s.pins ∧ (activateDsl s).twoPorts = s.twoPorts ∧
    (activateDsl s).gateway = s.gateway ∧ (activateDsl s).modem = s.modem ∧ (activateDsl s).lines = s.lines ∧
    (activateDsl s).ring = s.ring ∧ (activateDsl s).power = s.power ∧ (activateDsl s).store = s.store ∧
    (activateDsl s).occasion = s.occasion := by
  have h : butChannelsRelaysSettlesDslSchedTrackerPortsEngineFaults (activateDsl s) =
        butChannelsRelaysSettlesDslSchedTrackerPortsEngineFaults s := by
    unfold activateDsl; dsimp only; (repeat' split) <;> (try have hf := applyChange_frame ‹applyChange _ _
          _ _ = some _›) <;> simp [butChannelsRelaysSettlesDslSchedTrackerPortsEngineFaults, *]
  simpa [butChannelsRelaysSettlesDslSchedTrackerPortsEngineFaults] using h

@[simp] theorem cutBurst_frame (p : Port) (s : State) :
    (cutBurst p s).pending = s.pending ∧ (cutBurst p s).phase = s.phase ∧ (cutBurst p s).clock = s.clock ∧
    (cutBurst p s).pins = s.pins ∧ (cutBurst p s).twoPorts = s.twoPorts ∧ (cutBurst p s).gateway = s.gateway ∧
    (cutBurst p s).modem = s.modem ∧ (cutBurst p s).lines = s.lines ∧ (cutBurst p s).relays = s.relays ∧
    (cutBurst p s).settles = s.settles ∧ (cutBurst p s).dsl = s.dsl ∧ (cutBurst p s).power = s.power ∧
    (cutBurst p s).store = s.store ∧ (cutBurst p s).occasion = s.occasion := by
  have h : butChannelsSchedTrackerPortsRingEngineFaults (cutBurst p s) =
        butChannelsSchedTrackerPortsRingEngineFaults s := by
    unfold cutBurst; simp [butChannelsSchedTrackerPortsRingEngineFaults]
  simpa [butChannelsSchedTrackerPortsRingEngineFaults] using h

@[simp] theorem onTime_frame (p : Port) (s : State) :
    (onTime p s).pending = s.pending ∧ (onTime p s).phase = s.phase ∧ (onTime p s).clock = s.clock ∧
    (onTime p s).pins = s.pins ∧ (onTime p s).twoPorts = s.twoPorts ∧ (onTime p s).gateway = s.gateway ∧
    (onTime p s).modem = s.modem ∧ (onTime p s).lines = s.lines ∧ (onTime p s).relays = s.relays ∧
    (onTime p s).settles = s.settles ∧ (onTime p s).dsl = s.dsl ∧ (onTime p s).power = s.power ∧
    (onTime p s).store = s.store ∧ (onTime p s).occasion = s.occasion := by
  have h : butChannelsSchedTrackerPortsRingEngineFaults (onTime p s) =
        butChannelsSchedTrackerPortsRingEngineFaults s := by
    unfold onTime; (repeat' split) <;> simp [butChannelsSchedTrackerPortsRingEngineFaults]
  simpa [butChannelsSchedTrackerPortsRingEngineFaults] using h

@[simp] theorem activateSwitch_frame (p : Port) (s : State) :
    (activateSwitch p s).pending = s.pending ∧ (activateSwitch p s).phase = s.phase ∧
    (activateSwitch p s).clock = s.clock ∧ (activateSwitch p s).pins = s.pins ∧
    (activateSwitch p s).twoPorts = s.twoPorts ∧ (activateSwitch p s).gateway = s.gateway ∧
    (activateSwitch p s).modem = s.modem ∧ (activateSwitch p s).lines = s.lines ∧
    (activateSwitch p s).dsl = s.dsl ∧ (activateSwitch p s).ring = s.ring ∧
    (activateSwitch p s).power = s.power ∧ (activateSwitch p s).store = s.store ∧
    (activateSwitch p s).occasion = s.occasion := by
  have h : butChannelsRelaysSettlesSchedTrackerPortsEngineFaults (activateSwitch p s) =
        butChannelsRelaysSettlesSchedTrackerPortsEngineFaults s := by
    unfold activateSwitch; dsimp only; (repeat' split) <;> first
      | rfl
      | (cases hq : applyChange _ _ _ _ <;> (try have hf := applyChange_frame hq) <;> simp
            [butChannelsRelaysSettlesSchedTrackerPortsEngineFaults, *])
  simpa [butChannelsRelaysSettlesSchedTrackerPortsEngineFaults] using h

@[simp] theorem fallbackPort_frame (p : Port) (s : State) :
    (fallbackPort p s).pending = s.pending ∧ (fallbackPort p s).phase = s.phase ∧
    (fallbackPort p s).clock = s.clock ∧ (fallbackPort p s).pins = s.pins ∧
    (fallbackPort p s).twoPorts = s.twoPorts ∧ (fallbackPort p s).gateway = s.gateway ∧
    (fallbackPort p s).modem = s.modem ∧ (fallbackPort p s).lines = s.lines ∧
    (fallbackPort p s).relays = s.relays ∧ (fallbackPort p s).settles = s.settles ∧
    (fallbackPort p s).dsl = s.dsl ∧ (fallbackPort p s).ring = s.ring ∧ (fallbackPort p s).power = s.power ∧
    (fallbackPort p s).store = s.store ∧ (fallbackPort p s).occasion = s.occasion := by
  have h : butChannelsSchedTrackerPortsEngineFaults (fallbackPort p s) =
        butChannelsSchedTrackerPortsEngineFaults s := by
    unfold fallbackPort; dsimp only; (repeat' split) <;> simp [butChannelsSchedTrackerPortsEngineFaults]
  simpa [butChannelsSchedTrackerPortsEngineFaults] using h

@[simp] theorem batteryCut_frame (s : State) :
    (batteryCut s).pending = s.pending ∧ (batteryCut s).phase = s.phase ∧ (batteryCut s).clock = s.clock ∧
    (batteryCut s).pins = s.pins ∧ (batteryCut s).twoPorts = s.twoPorts ∧ (batteryCut s).gateway = s.gateway ∧
    (batteryCut s).modem = s.modem ∧ (batteryCut s).lines = s.lines ∧ (batteryCut s).relays = s.relays ∧
    (batteryCut s).settles = s.settles ∧ (batteryCut s).dsl = s.dsl ∧ (batteryCut s).power = s.power ∧
    (batteryCut s).store = s.store ∧ (batteryCut s).occasion = s.occasion := by
  have h : butChannelsSchedTrackerPortsRingEngineFaults (batteryCut s) =
        butChannelsSchedTrackerPortsRingEngineFaults s := by
    unfold batteryCut; (repeat' split) <;> simp [butChannelsSchedTrackerPortsRingEngineFaults]
  simpa [butChannelsSchedTrackerPortsRingEngineFaults] using h

@[simp] theorem enterRelease_frame (s : State) :
    (enterRelease s).pending = s.pending ∧ (enterRelease s).phase = s.phase ∧
    (enterRelease s).clock = s.clock ∧ (enterRelease s).pins = s.pins ∧
    (enterRelease s).twoPorts = s.twoPorts ∧ (enterRelease s).gateway = s.gateway ∧
    (enterRelease s).modem = s.modem ∧ (enterRelease s).lines = s.lines ∧ (enterRelease s).dsl = s.dsl ∧
    (enterRelease s).ring = s.ring ∧ (enterRelease s).power = s.power ∧ (enterRelease s).store = s.store ∧
    (enterRelease s).occasion = s.occasion := by
  have h : butChannelsRelaysSettlesSchedTrackerPortsEngineFaults (enterRelease s) =
        butChannelsRelaysSettlesSchedTrackerPortsEngineFaults s := by
    unfold enterRelease; (repeat' split) <;> simp [butChannelsRelaysSettlesSchedTrackerPortsEngineFaults]
  simpa [butChannelsRelaysSettlesSchedTrackerPortsEngineFaults] using h

@[simp] theorem endSession_frame (p : Port) (why : RingReason) (cause : Nat) (s : State) :
    (endSession p why cause s).pending = s.pending ∧ (endSession p why cause s).phase = s.phase ∧
    (endSession p why cause s).clock = s.clock ∧ (endSession p why cause s).pins = s.pins ∧
    (endSession p why cause s).twoPorts = s.twoPorts ∧ (endSession p why cause s).gateway = s.gateway ∧
    (endSession p why cause s).modem = s.modem ∧ (endSession p why cause s).lines = s.lines ∧
    (endSession p why cause s).relays = s.relays ∧ (endSession p why cause s).settles = s.settles ∧
    (endSession p why cause s).dsl = s.dsl ∧ (endSession p why cause s).power = s.power ∧
    (endSession p why cause s).store = s.store ∧ (endSession p why cause s).occasion = s.occasion := by
  have h : butChannelsSchedTrackerPortsRingEngineFaults (endSession p why cause s) =
        butChannelsSchedTrackerPortsRingEngineFaults s := by
    unfold endSession; (repeat' split) <;> simp [butChannelsSchedTrackerPortsRingEngineFaults]
  simpa [butChannelsSchedTrackerPortsRingEngineFaults] using h

theorem cancelSlot_frame {i : SlotId} {s : State} {t : State} (h : cancelSlot i s = some t) :
    (t).pending = s.pending ∧ (t).phase = s.phase ∧ (t).clock = s.clock ∧ (t).pins = s.pins ∧
    (t).twoPorts = s.twoPorts ∧ (t).gateway = s.gateway ∧ (t).modem = s.modem ∧ (t).lines = s.lines ∧
    (t).relays = s.relays ∧ (t).settles = s.settles ∧ (t).dsl = s.dsl ∧ (t).tracker = s.tracker ∧
    (t).ports = s.ports ∧ (t).ring = s.ring ∧ (t).engine = s.engine ∧ (t).faults = s.faults ∧
    (t).power = s.power ∧ (t).store = s.store ∧ (t).occasion = s.occasion := by
  unfold cancelSlot at h
  split at h
  · cases h
  · cases h; simp

@[simp] theorem switchSeized_frame (p : Port) (s : State) :
    (switchSeized p s).pending = s.pending ∧ (switchSeized p s).phase = s.phase ∧
    (switchSeized p s).clock = s.clock ∧ (switchSeized p s).pins = s.pins ∧
    (switchSeized p s).twoPorts = s.twoPorts ∧ (switchSeized p s).gateway = s.gateway ∧
    (switchSeized p s).modem = s.modem ∧ (switchSeized p s).lines = s.lines ∧
    (switchSeized p s).relays = s.relays ∧ (switchSeized p s).settles = s.settles ∧
    (switchSeized p s).dsl = s.dsl ∧ (switchSeized p s).ring = s.ring ∧ (switchSeized p s).power = s.power ∧
    (switchSeized p s).store = s.store ∧ (switchSeized p s).occasion = s.occasion := by
  have h : butChannelsSchedTrackerPortsEngineFaults (switchSeized p s) =
        butChannelsSchedTrackerPortsEngineFaults s := by
    unfold switchSeized; (repeat' split) <;> (try have hf := cancelSlot_frame ‹cancelSlot _ _ = some _›)
          <;> simp_all [butChannelsSchedTrackerPortsEngineFaults]
  simpa [butChannelsSchedTrackerPortsEngineFaults] using h

@[simp] theorem ringFaultPort_frame (p : Port) (s : State) :
    (ringFaultPort p s).pending = s.pending ∧ (ringFaultPort p s).phase = s.phase ∧
    (ringFaultPort p s).clock = s.clock ∧ (ringFaultPort p s).pins = s.pins ∧
    (ringFaultPort p s).twoPorts = s.twoPorts ∧ (ringFaultPort p s).gateway = s.gateway ∧
    (ringFaultPort p s).modem = s.modem ∧ (ringFaultPort p s).lines = s.lines ∧
    (ringFaultPort p s).relays = s.relays ∧ (ringFaultPort p s).settles = s.settles ∧
    (ringFaultPort p s).dsl = s.dsl ∧ (ringFaultPort p s).power = s.power ∧
    (ringFaultPort p s).store = s.store ∧ (ringFaultPort p s).occasion = s.occasion := by
  have h : butChannelsSchedTrackerPortsRingEngineFaults (ringFaultPort p s) =
        butChannelsSchedTrackerPortsRingEngineFaults s := by
    unfold ringFaultPort; (repeat' split) <;> simp [butChannelsSchedTrackerPortsRingEngineFaults]
  simpa [butChannelsSchedTrackerPortsRingEngineFaults] using h

@[simp] theorem switchSettled_frame (p : Port) (s : State) :
    (switchSettled p s).pending = s.pending ∧ (switchSettled p s).phase = s.phase ∧
    (switchSettled p s).clock = s.clock ∧ (switchSettled p s).pins = s.pins ∧
    (switchSettled p s).twoPorts = s.twoPorts ∧ (switchSettled p s).gateway = s.gateway ∧
    (switchSettled p s).modem = s.modem ∧ (switchSettled p s).lines = s.lines ∧
    (switchSettled p s).dsl = s.dsl ∧ (switchSettled p s).ring = s.ring ∧ (switchSettled p s).power = s.power ∧
    (switchSettled p s).store = s.store ∧ (switchSettled p s).occasion = s.occasion := by
  have h : butChannelsRelaysSettlesSchedTrackerPortsEngineFaults (switchSettled p s) =
        butChannelsRelaysSettlesSchedTrackerPortsEngineFaults s := by
    unfold switchSettled; dsimp only; (repeat' split) <;> (try have hf := applyChange_frame ‹applyChange _
          _ _ _ = some _›) <;> simp [butChannelsRelaysSettlesSchedTrackerPortsEngineFaults, *]
  simpa [butChannelsRelaysSettlesSchedTrackerPortsEngineFaults] using h

@[simp] theorem offTimeEnds_frame (p : Port) (x : RingSession) (s : State) :
    (offTimeEnds p x s).pending = s.pending ∧ (offTimeEnds p x s).phase = s.phase ∧
    (offTimeEnds p x s).clock = s.clock ∧ (offTimeEnds p x s).pins = s.pins ∧
    (offTimeEnds p x s).twoPorts = s.twoPorts ∧ (offTimeEnds p x s).gateway = s.gateway ∧
    (offTimeEnds p x s).modem = s.modem ∧ (offTimeEnds p x s).lines = s.lines ∧
    (offTimeEnds p x s).relays = s.relays ∧ (offTimeEnds p x s).settles = s.settles ∧
    (offTimeEnds p x s).dsl = s.dsl ∧ (offTimeEnds p x s).power = s.power ∧
    (offTimeEnds p x s).store = s.store ∧ (offTimeEnds p x s).occasion = s.occasion := by
  have h : butChannelsSchedTrackerPortsRingEngineFaults (offTimeEnds p x s) =
        butChannelsSchedTrackerPortsRingEngineFaults s := by
    unfold offTimeEnds; dsimp only; (repeat' split) <;> simp [butChannelsSchedTrackerPortsRingEngineFaults]
  simpa [butChannelsSchedTrackerPortsRingEngineFaults] using h

@[simp] theorem answerSession_frame (p : Port) (flags : Nat) (s : State) :
    (answerSession p flags s).pending = s.pending ∧ (answerSession p flags s).phase = s.phase ∧
    (answerSession p flags s).clock = s.clock ∧ (answerSession p flags s).pins = s.pins ∧
    (answerSession p flags s).twoPorts = s.twoPorts ∧ (answerSession p flags s).gateway = s.gateway ∧
    (answerSession p flags s).modem = s.modem ∧ (answerSession p flags s).lines = s.lines ∧
    (answerSession p flags s).relays = s.relays ∧ (answerSession p flags s).settles = s.settles ∧
    (answerSession p flags s).dsl = s.dsl ∧ (answerSession p flags s).power = s.power ∧
    (answerSession p flags s).store = s.store ∧ (answerSession p flags s).occasion = s.occasion := by
  have h : butChannelsSchedTrackerPortsRingEngineFaults (answerSession p flags s) =
        butChannelsSchedTrackerPortsRingEngineFaults s := by
    unfold answerSession; (repeat' split) <;> simp [butChannelsSchedTrackerPortsRingEngineFaults]
  simpa [butChannelsSchedTrackerPortsRingEngineFaults] using h

@[simp] theorem ownerStart_frame (i : SlotId) (s : State) :
    (ownerStart i s).pending = s.pending ∧ (ownerStart i s).phase = s.phase ∧
    (ownerStart i s).clock = s.clock ∧ (ownerStart i s).pins = s.pins ∧
    (ownerStart i s).twoPorts = s.twoPorts ∧ (ownerStart i s).gateway = s.gateway ∧
    (ownerStart i s).modem = s.modem ∧ (ownerStart i s).lines = s.lines ∧ (ownerStart i s).power = s.power ∧
    (ownerStart i s).store = s.store ∧ (ownerStart i s).occasion = s.occasion := by
  have h : butChannelsRelaysSettlesDslSchedTrackerPortsRingEngineFaults (ownerStart i s) =
        butChannelsRelaysSettlesDslSchedTrackerPortsRingEngineFaults s := by
    unfold ownerStart; (repeat' split) <;> simp [butChannelsRelaysSettlesDslSchedTrackerPortsRingEngineFaults]
  simpa [butChannelsRelaysSettlesDslSchedTrackerPortsRingEngineFaults] using h

@[simp] theorem ringLosesHold_frame (f : Func) (holder : Channel) (s : State) :
    (ringLosesHold f holder s).pending = s.pending ∧ (ringLosesHold f holder s).phase = s.phase ∧
    (ringLosesHold f holder s).clock = s.clock ∧ (ringLosesHold f holder s).pins = s.pins ∧
    (ringLosesHold f holder s).twoPorts = s.twoPorts ∧ (ringLosesHold f holder s).gateway = s.gateway ∧
    (ringLosesHold f holder s).modem = s.modem ∧ (ringLosesHold f holder s).lines = s.lines ∧
    (ringLosesHold f holder s).relays = s.relays ∧ (ringLosesHold f holder s).settles = s.settles ∧
    (ringLosesHold f holder s).dsl = s.dsl ∧ (ringLosesHold f holder s).power = s.power ∧
    (ringLosesHold f holder s).store = s.store ∧ (ringLosesHold f holder s).occasion = s.occasion := by
  have h : butChannelsSchedTrackerPortsRingEngineFaults (ringLosesHold f holder s) =
        butChannelsSchedTrackerPortsRingEngineFaults s := by
    unfold ringLosesHold; (repeat' split) <;> simp [butChannelsSchedTrackerPortsRingEngineFaults]
  simpa [butChannelsSchedTrackerPortsRingEngineFaults] using h

@[simp] theorem ringSeized_frame (p : Port) (throughPass : Bool) (s : State) :
    (ringSeized p throughPass s).pending = s.pending ∧ (ringSeized p throughPass s).phase = s.phase ∧
    (ringSeized p throughPass s).clock = s.clock ∧ (ringSeized p throughPass s).pins = s.pins ∧
    (ringSeized p throughPass s).twoPorts = s.twoPorts ∧ (ringSeized p throughPass s).gateway = s.gateway ∧
    (ringSeized p throughPass s).modem = s.modem ∧ (ringSeized p throughPass s).lines = s.lines ∧
    (ringSeized p throughPass s).relays = s.relays ∧ (ringSeized p throughPass s).settles = s.settles ∧
    (ringSeized p throughPass s).dsl = s.dsl ∧ (ringSeized p throughPass s).power = s.power ∧
    (ringSeized p throughPass s).store = s.store ∧ (ringSeized p throughPass s).occasion = s.occasion := by
  have h : butChannelsSchedTrackerPortsRingEngineFaults (ringSeized p throughPass s) =
        butChannelsSchedTrackerPortsRingEngineFaults s := by
    unfold ringSeized; dsimp only; (repeat' split) <;> simp [butChannelsSchedTrackerPortsRingEngineFaults]
  simpa [butChannelsSchedTrackerPortsRingEngineFaults] using h

@[simp] theorem gatedRelease_frame (f : Func) (c : Channel) (gate : Nat) (s : State) :
    (gatedRelease f c gate s).pending = s.pending ∧ (gatedRelease f c gate s).phase = s.phase ∧
    (gatedRelease f c gate s).clock = s.clock ∧ (gatedRelease f c gate s).pins = s.pins ∧
    (gatedRelease f c gate s).twoPorts = s.twoPorts ∧ (gatedRelease f c gate s).gateway = s.gateway ∧
    (gatedRelease f c gate s).modem = s.modem ∧ (gatedRelease f c gate s).relays = s.relays ∧
    (gatedRelease f c gate s).settles = s.settles ∧ (gatedRelease f c gate s).dsl = s.dsl ∧
    (gatedRelease f c gate s).power = s.power ∧ (gatedRelease f c gate s).store = s.store ∧
    (gatedRelease f c gate s).occasion = s.occasion := by
  have h : butChannelsLinesSchedTrackerPortsRingEngineFaults (gatedRelease f c gate s) =
        butChannelsLinesSchedTrackerPortsRingEngineFaults s := by
    unfold gatedRelease; (repeat' split) <;> simp [butChannelsLinesSchedTrackerPortsRingEngineFaults]
  simpa [butChannelsLinesSchedTrackerPortsRingEngineFaults] using h

@[simp] theorem phaseEnds_frame (p : Port) (s : State) :
    (phaseEnds p s).pending = s.pending ∧ (phaseEnds p s).phase = s.phase ∧ (phaseEnds p s).clock = s.clock ∧
    (phaseEnds p s).pins = s.pins ∧ (phaseEnds p s).twoPorts = s.twoPorts ∧
    (phaseEnds p s).gateway = s.gateway ∧ (phaseEnds p s).modem = s.modem ∧ (phaseEnds p s).lines = s.lines ∧
    (phaseEnds p s).relays = s.relays ∧ (phaseEnds p s).settles = s.settles ∧ (phaseEnds p s).dsl = s.dsl ∧
    (phaseEnds p s).power = s.power ∧ (phaseEnds p s).store = s.store ∧ (phaseEnds p s).occasion =
          s.occasion := by
  have h : butChannelsSchedTrackerPortsRingEngineFaults (phaseEnds p s) =
        butChannelsSchedTrackerPortsRingEngineFaults s := by
    unfold phaseEnds; (repeat' split) <;> simp [butChannelsSchedTrackerPortsRingEngineFaults]
  simpa [butChannelsSchedTrackerPortsRingEngineFaults] using h

@[simp] theorem ringFaultExpires_frame (s : State) :
    (ringFaultExpires s).pending = s.pending ∧ (ringFaultExpires s).phase = s.phase ∧
    (ringFaultExpires s).clock = s.clock ∧ (ringFaultExpires s).pins = s.pins ∧
    (ringFaultExpires s).twoPorts = s.twoPorts ∧ (ringFaultExpires s).gateway = s.gateway ∧
    (ringFaultExpires s).modem = s.modem ∧ (ringFaultExpires s).lines = s.lines ∧
    (ringFaultExpires s).relays = s.relays ∧ (ringFaultExpires s).settles = s.settles ∧
    (ringFaultExpires s).dsl = s.dsl ∧ (ringFaultExpires s).power = s.power ∧
    (ringFaultExpires s).store = s.store ∧ (ringFaultExpires s).occasion = s.occasion := by
  have h : butChannelsSchedTrackerPortsRingEngineFaults (ringFaultExpires s) =
        butChannelsSchedTrackerPortsRingEngineFaults s := by
    unfold ringFaultExpires; dsimp only; (repeat' split) <;> simp [butChannelsSchedTrackerPortsRingEngineFaults]
  simpa [butChannelsSchedTrackerPortsRingEngineFaults] using h

@[simp] theorem endMeasure_frame (clean : Nat) (values : Option (List Measurement)) (short : Bool) (s : State) :
    (endMeasure clean values short s).pending = s.pending ∧ (endMeasure clean values short s).phase = s.phase ∧
    (endMeasure clean values short s).clock = s.clock ∧ (endMeasure clean values short s).pins = s.pins ∧
    (endMeasure clean values short s).twoPorts = s.twoPorts ∧
    (endMeasure clean values short s).gateway = s.gateway ∧ (endMeasure clean values short s).modem = s.modem ∧
    (endMeasure clean values short s).lines = s.lines ∧ (endMeasure clean values short s).dsl = s.dsl ∧
    (endMeasure clean values short s).ring = s.ring ∧ (endMeasure clean values short s).power = s.power ∧
    (endMeasure clean values short s).store = s.store ∧ (endMeasure clean values short s).occasion =
          s.occasion := by
  have h : butChannelsRelaysSettlesSchedTrackerPortsEngineFaults (endMeasure clean values short s) =
        butChannelsRelaysSettlesSchedTrackerPortsEngineFaults s := by
    unfold endMeasure; simp [butChannelsRelaysSettlesSchedTrackerPortsEngineFaults]
  simpa [butChannelsRelaysSettlesSchedTrackerPortsEngineFaults] using h

@[simp] theorem endAllSessions_frame (why : RingReason) (s : State) :
    (endAllSessions why s).pending = s.pending ∧ (endAllSessions why s).phase = s.phase ∧
    (endAllSessions why s).clock = s.clock ∧ (endAllSessions why s).pins = s.pins ∧
    (endAllSessions why s).twoPorts = s.twoPorts ∧ (endAllSessions why s).gateway = s.gateway ∧
    (endAllSessions why s).modem = s.modem ∧ (endAllSessions why s).lines = s.lines ∧
    (endAllSessions why s).relays = s.relays ∧ (endAllSessions why s).settles = s.settles ∧
    (endAllSessions why s).dsl = s.dsl ∧ (endAllSessions why s).power = s.power ∧
    (endAllSessions why s).store = s.store ∧ (endAllSessions why s).occasion = s.occasion := by
  have h : butChannelsSchedTrackerPortsRingEngineFaults (endAllSessions why s) =
        butChannelsSchedTrackerPortsRingEngineFaults s := by
    unfold endAllSessions; simp [butChannelsSchedTrackerPortsRingEngineFaults]
  simpa [butChannelsSchedTrackerPortsRingEngineFaults] using h

@[simp] theorem denyFeed_frame (p : Port) (since : Time) (s : State) :
    (denyFeed p since s).pending = s.pending ∧ (denyFeed p since s).phase = s.phase ∧
    (denyFeed p since s).clock = s.clock ∧ (denyFeed p since s).pins = s.pins ∧
    (denyFeed p since s).twoPorts = s.twoPorts ∧ (denyFeed p since s).gateway = s.gateway ∧
    (denyFeed p since s).modem = s.modem ∧ (denyFeed p since s).lines = s.lines ∧
    (denyFeed p since s).settles = s.settles ∧ (denyFeed p since s).dsl = s.dsl ∧
    (denyFeed p since s).power = s.power ∧ (denyFeed p since s).store = s.store ∧
    (denyFeed p since s).occasion = s.occasion := by
  have h : butChannelsRelaysSchedTrackerPortsRingEngineFaults (denyFeed p since s) =
        butChannelsRelaysSchedTrackerPortsRingEngineFaults s := by
    unfold denyFeed; simp [butChannelsRelaysSchedTrackerPortsRingEngineFaults]
  simpa [butChannelsRelaysSchedTrackerPortsRingEngineFaults] using h

@[simp] theorem endTest_frame (s : State) :
    (endTest s).pending = s.pending ∧ (endTest s).phase = s.phase ∧ (endTest s).clock = s.clock ∧
    (endTest s).pins = s.pins ∧ (endTest s).twoPorts = s.twoPorts ∧ (endTest s).gateway = s.gateway ∧
    (endTest s).modem = s.modem ∧ (endTest s).relays = s.relays ∧ (endTest s).settles = s.settles ∧
    (endTest s).dsl = s.dsl ∧ (endTest s).power = s.power ∧ (endTest s).store = s.store ∧
    (endTest s).occasion = s.occasion := by
  have h : butChannelsLinesSchedTrackerPortsRingEngineFaults (endTest s) =
        butChannelsLinesSchedTrackerPortsRingEngineFaults s := by
    unfold endTest; (repeat' split) <;> simp [butChannelsLinesSchedTrackerPortsRingEngineFaults]
  simpa [butChannelsLinesSchedTrackerPortsRingEngineFaults] using h

@[simp] theorem wallReached_frame (r : Readings) (s : State) :
    (wallReached r s).pending = s.pending ∧ (wallReached r s).phase = s.phase ∧
    (wallReached r s).clock = s.clock ∧ (wallReached r s).pins = s.pins ∧
    (wallReached r s).twoPorts = s.twoPorts ∧ (wallReached r s).gateway = s.gateway ∧
    (wallReached r s).modem = s.modem ∧ (wallReached r s).lines = s.lines ∧ (wallReached r s).dsl = s.dsl ∧
    (wallReached r s).ring = s.ring ∧ (wallReached r s).power = s.power ∧ (wallReached r s).store = s.store ∧
    (wallReached r s).occasion = s.occasion := by
  have h : butChannelsRelaysSettlesSchedTrackerPortsEngineFaults (wallReached r s) =
        butChannelsRelaysSettlesSchedTrackerPortsEngineFaults s := by
    unfold wallReached; dsimp only; (repeat' split) <;> simp
          [butChannelsRelaysSettlesSchedTrackerPortsEngineFaults]
  simpa [butChannelsRelaysSettlesSchedTrackerPortsEngineFaults] using h

@[simp] theorem abortByPower_frame (t : Test) (s : State) :
    (abortByPower t s).pending = s.pending ∧ (abortByPower t s).phase = s.phase ∧
    (abortByPower t s).clock = s.clock ∧ (abortByPower t s).pins = s.pins ∧
    (abortByPower t s).twoPorts = s.twoPorts ∧ (abortByPower t s).gateway = s.gateway ∧
    (abortByPower t s).modem = s.modem ∧ (abortByPower t s).relays = s.relays ∧
    (abortByPower t s).settles = s.settles ∧ (abortByPower t s).dsl = s.dsl ∧
    (abortByPower t s).power = s.power ∧ (abortByPower t s).store = s.store ∧
    (abortByPower t s).occasion = s.occasion := by
  have h : butChannelsLinesSchedTrackerPortsRingEngineFaults (abortByPower t s) =
        butChannelsLinesSchedTrackerPortsRingEngineFaults s := by
    unfold abortByPower; simp [butChannelsLinesSchedTrackerPortsRingEngineFaults]
  simpa [butChannelsLinesSchedTrackerPortsRingEngineFaults] using h

@[simp] theorem activate_frame (i : SlotId) (s : State) :
    (activate i s).pending = s.pending ∧ (activate i s).phase = s.phase ∧ (activate i s).clock = s.clock ∧
    (activate i s).pins = s.pins ∧ (activate i s).twoPorts = s.twoPorts ∧ (activate i s).gateway = s.gateway ∧
    (activate i s).modem = s.modem ∧ (activate i s).lines = s.lines ∧ (activate i s).power = s.power ∧
    (activate i s).store = s.store ∧ (activate i s).occasion = s.occasion := by
  have h : butChannelsRelaysSettlesDslSchedTrackerPortsRingEngineFaults (activate i s) =
        butChannelsRelaysSettlesDslSchedTrackerPortsRingEngineFaults s := by
    unfold activate; simp [butChannelsRelaysSettlesDslSchedTrackerPortsRingEngineFaults]
  simpa [butChannelsRelaysSettlesDslSchedTrackerPortsRingEngineFaults] using h

@[simp] theorem cleanReached_frame (r : Readings) (s : State) :
    (cleanReached r s).pending = s.pending ∧ (cleanReached r s).phase = s.phase ∧
    (cleanReached r s).clock = s.clock ∧ (cleanReached r s).pins = s.pins ∧
    (cleanReached r s).twoPorts = s.twoPorts ∧ (cleanReached r s).gateway = s.gateway ∧
    (cleanReached r s).modem = s.modem ∧ (cleanReached r s).lines = s.lines ∧ (cleanReached r s).dsl = s.dsl ∧
    (cleanReached r s).ring = s.ring ∧ (cleanReached r s).power = s.power ∧
    (cleanReached r s).store = s.store ∧ (cleanReached r s).occasion = s.occasion := by
  have h : butChannelsRelaysSettlesSchedTrackerPortsEngineFaults (cleanReached r s) =
        butChannelsRelaysSettlesSchedTrackerPortsEngineFaults s := by
    unfold cleanReached; (repeat' split) <;> simp [butChannelsRelaysSettlesSchedTrackerPortsEngineFaults]
  simpa [butChannelsRelaysSettlesSchedTrackerPortsEngineFaults] using h

@[simp] theorem abortInNotify_frame (t : Test) (s : State) :
    (abortInNotify t s).pending = s.pending ∧ (abortInNotify t s).phase = s.phase ∧
    (abortInNotify t s).clock = s.clock ∧ (abortInNotify t s).pins = s.pins ∧
    (abortInNotify t s).twoPorts = s.twoPorts ∧ (abortInNotify t s).gateway = s.gateway ∧
    (abortInNotify t s).modem = s.modem ∧ (abortInNotify t s).relays = s.relays ∧
    (abortInNotify t s).settles = s.settles ∧ (abortInNotify t s).dsl = s.dsl ∧
    (abortInNotify t s).power = s.power ∧ (abortInNotify t s).store = s.store ∧
    (abortInNotify t s).occasion = s.occasion := by
  have h : butChannelsLinesSchedTrackerPortsRingEngineFaults (abortInNotify t s) =
        butChannelsLinesSchedTrackerPortsRingEngineFaults s := by
    unfold abortInNotify
    cases hq : cancelSlot (targetSlot t.target) s <;> (try have hf := cancelSlot_frame hq) <;> simp
          [butChannelsLinesSchedTrackerPortsRingEngineFaults, *]
  simpa [butChannelsLinesSchedTrackerPortsRingEngineFaults] using h

@[simp] theorem abortDetached_frame (t : Test) (s : State) :
    (abortDetached t s).pending = s.pending ∧ (abortDetached t s).phase = s.phase ∧
    (abortDetached t s).clock = s.clock ∧ (abortDetached t s).pins = s.pins ∧
    (abortDetached t s).twoPorts = s.twoPorts ∧ (abortDetached t s).gateway = s.gateway ∧
    (abortDetached t s).modem = s.modem ∧ (abortDetached t s).dsl = s.dsl ∧
    (abortDetached t s).power = s.power ∧ (abortDetached t s).store = s.store ∧
    (abortDetached t s).occasion = s.occasion := by
  have h : butChannelsLinesRelaysSettlesSchedTrackerPortsRingEngineFaults (abortDetached t s) =
        butChannelsLinesRelaysSettlesSchedTrackerPortsRingEngineFaults s := by
    unfold abortDetached; (repeat' split) <;> simp
          [butChannelsLinesRelaysSettlesSchedTrackerPortsRingEngineFaults]
  simpa [butChannelsLinesRelaysSettlesSchedTrackerPortsRingEngineFaults] using h

@[simp] theorem startIfActive_frame (i : SlotId) (s : State) :
    (startIfActive i s).pending = s.pending ∧ (startIfActive i s).phase = s.phase ∧
    (startIfActive i s).clock = s.clock ∧ (startIfActive i s).pins = s.pins ∧
    (startIfActive i s).twoPorts = s.twoPorts ∧ (startIfActive i s).gateway = s.gateway ∧
    (startIfActive i s).modem = s.modem ∧ (startIfActive i s).lines = s.lines ∧
    (startIfActive i s).power = s.power ∧ (startIfActive i s).store = s.store ∧
    (startIfActive i s).occasion = s.occasion := by
  have h : butChannelsRelaysSettlesDslSchedTrackerPortsRingEngineFaults (startIfActive i s) =
        butChannelsRelaysSettlesDslSchedTrackerPortsRingEngineFaults s := by
    unfold startIfActive; (repeat' split) <;> simp
          [butChannelsRelaysSettlesDslSchedTrackerPortsRingEngineFaults]
  simpa [butChannelsRelaysSettlesDslSchedTrackerPortsRingEngineFaults] using h

@[simp] theorem releaseComplete_frame (s : State) :
    (releaseComplete s).pending = s.pending ∧ (releaseComplete s).phase = s.phase ∧
    (releaseComplete s).clock = s.clock ∧ (releaseComplete s).pins = s.pins ∧
    (releaseComplete s).twoPorts = s.twoPorts ∧ (releaseComplete s).gateway = s.gateway ∧
    (releaseComplete s).modem = s.modem ∧ (releaseComplete s).relays = s.relays ∧
    (releaseComplete s).settles = s.settles ∧ (releaseComplete s).dsl = s.dsl ∧
    (releaseComplete s).power = s.power ∧ (releaseComplete s).store = s.store ∧
    (releaseComplete s).occasion = s.occasion := by
  have h : butChannelsLinesSchedTrackerPortsRingEngineFaults (releaseComplete s) =
        butChannelsLinesSchedTrackerPortsRingEngineFaults s := by
    unfold releaseComplete; (repeat' split) <;> simp [butChannelsLinesSchedTrackerPortsRingEngineFaults]
  simpa [butChannelsLinesSchedTrackerPortsRingEngineFaults] using h

@[simp] theorem abortByRelease_frame (t : Test) (s : State) :
    (abortByRelease t s).pending = s.pending ∧ (abortByRelease t s).phase = s.phase ∧
    (abortByRelease t s).clock = s.clock ∧ (abortByRelease t s).pins = s.pins ∧
    (abortByRelease t s).twoPorts = s.twoPorts ∧ (abortByRelease t s).gateway = s.gateway ∧
    (abortByRelease t s).modem = s.modem ∧ (abortByRelease t s).dsl = s.dsl ∧
    (abortByRelease t s).power = s.power ∧ (abortByRelease t s).store = s.store ∧
    (abortByRelease t s).occasion = s.occasion := by
  have h : butChannelsLinesRelaysSettlesSchedTrackerPortsRingEngineFaults (abortByRelease t s) =
        butChannelsLinesRelaysSettlesSchedTrackerPortsRingEngineFaults s := by
    unfold abortByRelease; (repeat' split) <;> simp
          [butChannelsLinesRelaysSettlesSchedTrackerPortsRingEngineFaults]
  simpa [butChannelsLinesRelaysSettlesSchedTrackerPortsRingEngineFaults] using h

@[simp] theorem settled_frame (a : Asker) (s : State) :
    (settled a s).pending = s.pending ∧ (settled a s).phase = s.phase ∧ (settled a s).clock = s.clock ∧
    (settled a s).pins = s.pins ∧ (settled a s).twoPorts = s.twoPorts ∧ (settled a s).gateway = s.gateway ∧
    (settled a s).modem = s.modem ∧ (settled a s).power = s.power ∧ (settled a s).store = s.store ∧
    (settled a s).occasion = s.occasion := by
  have h : butChannelsLinesRelaysSettlesDslSchedTrackerPortsRingEngineFaults (settled a s) =
        butChannelsLinesRelaysSettlesDslSchedTrackerPortsRingEngineFaults s := by
    unfold settled; (repeat' split) <;> simp [butChannelsLinesRelaysSettlesDslSchedTrackerPortsRingEngineFaults]
  simpa [butChannelsLinesRelaysSettlesDslSchedTrackerPortsRingEngineFaults] using h

@[simp] theorem actOnAbort_frame (why : AbortReason) (t : Test) (s : State) :
    (actOnAbort why t s).pending = s.pending ∧ (actOnAbort why t s).phase = s.phase ∧
    (actOnAbort why t s).clock = s.clock ∧ (actOnAbort why t s).pins = s.pins ∧
    (actOnAbort why t s).twoPorts = s.twoPorts ∧ (actOnAbort why t s).gateway = s.gateway ∧
    (actOnAbort why t s).modem = s.modem ∧ (actOnAbort why t s).dsl = s.dsl ∧
    (actOnAbort why t s).power = s.power ∧ (actOnAbort why t s).store = s.store ∧
    (actOnAbort why t s).occasion = s.occasion := by
  have h : butChannelsLinesRelaysSettlesSchedTrackerPortsRingEngineFaults (actOnAbort why t s) =
        butChannelsLinesRelaysSettlesSchedTrackerPortsRingEngineFaults s := by
    unfold actOnAbort; (repeat' split) <;> simp [butChannelsLinesRelaysSettlesSchedTrackerPortsRingEngineFaults]
  simpa [butChannelsLinesRelaysSettlesSchedTrackerPortsRingEngineFaults] using h

@[simp] theorem abortTest_frame (why : AbortReason) (s : State) :
    (abortTest why s).pending = s.pending ∧ (abortTest why s).phase = s.phase ∧
    (abortTest why s).clock = s.clock ∧ (abortTest why s).pins = s.pins ∧
    (abortTest why s).twoPorts = s.twoPorts ∧ (abortTest why s).gateway = s.gateway ∧
    (abortTest why s).modem = s.modem ∧ (abortTest why s).dsl = s.dsl ∧ (abortTest why s).power = s.power ∧
    (abortTest why s).store = s.store ∧ (abortTest why s).occasion = s.occasion := by
  have h : butChannelsLinesRelaysSettlesSchedTrackerPortsRingEngineFaults (abortTest why s) =
        butChannelsLinesRelaysSettlesSchedTrackerPortsRingEngineFaults s := by
    unfold abortTest; (repeat' split) <;> simp [butChannelsLinesRelaysSettlesSchedTrackerPortsRingEngineFaults]
  simpa [butChannelsLinesRelaysSettlesSchedTrackerPortsRingEngineFaults] using h

@[simp] theorem engineReset_frame (covered : List Channel) (s : State) :
    (engineReset covered s).pending = s.pending ∧ (engineReset covered s).phase = s.phase ∧
    (engineReset covered s).clock = s.clock ∧ (engineReset covered s).pins = s.pins ∧
    (engineReset covered s).twoPorts = s.twoPorts ∧ (engineReset covered s).gateway = s.gateway ∧
    (engineReset covered s).modem = s.modem ∧ (engineReset covered s).dsl = s.dsl ∧
    (engineReset covered s).power = s.power ∧ (engineReset covered s).store = s.store ∧
    (engineReset covered s).occasion = s.occasion := by
  have h : butChannelsLinesRelaysSettlesSchedTrackerPortsRingEngineFaults (engineReset covered s) =
        butChannelsLinesRelaysSettlesSchedTrackerPortsRingEngineFaults s := by
    unfold engineReset; (repeat' split) <;> simp
          [butChannelsLinesRelaysSettlesSchedTrackerPortsRingEngineFaults]
  simpa [butChannelsLinesRelaysSettlesSchedTrackerPortsRingEngineFaults] using h

@[simp] theorem engineOnset_frame (s : State) :
    (engineOnset s).pending = s.pending ∧ (engineOnset s).phase = s.phase ∧ (engineOnset s).clock = s.clock ∧
    (engineOnset s).pins = s.pins ∧ (engineOnset s).twoPorts = s.twoPorts ∧
    (engineOnset s).gateway = s.gateway ∧ (engineOnset s).modem = s.modem ∧ (engineOnset s).dsl = s.dsl ∧
    (engineOnset s).power = s.power ∧ (engineOnset s).store = s.store ∧ (engineOnset s).occasion =
          s.occasion := by
  have h : butChannelsLinesRelaysSettlesSchedTrackerPortsRingEngineFaults (engineOnset s) =
        butChannelsLinesRelaysSettlesSchedTrackerPortsRingEngineFaults s := by
    unfold engineOnset; (repeat' split) <;> simp
          [butChannelsLinesRelaysSettlesSchedTrackerPortsRingEngineFaults]
  simpa [butChannelsLinesRelaysSettlesSchedTrackerPortsRingEngineFaults] using h

@[simp] theorem raiseHard_frame (c : FaultClass) (d1 : Nat) (d2 : Nat) (s : State) :
    (raiseHard c d1 d2 s).pending = s.pending ∧ (raiseHard c d1 d2 s).phase = s.phase ∧
    (raiseHard c d1 d2 s).clock = s.clock ∧ (raiseHard c d1 d2 s).pins = s.pins ∧
    (raiseHard c d1 d2 s).twoPorts = s.twoPorts ∧ (raiseHard c d1 d2 s).gateway = s.gateway ∧
    (raiseHard c d1 d2 s).modem = s.modem ∧ (raiseHard c d1 d2 s).dsl = s.dsl ∧
    (raiseHard c d1 d2 s).power = s.power ∧ (raiseHard c d1 d2 s).store = s.store ∧
    (raiseHard c d1 d2 s).occasion = s.occasion := by
  have h : butChannelsLinesRelaysSettlesSchedTrackerPortsRingEngineFaults (raiseHard c d1 d2 s) =
        butChannelsLinesRelaysSettlesSchedTrackerPortsRingEngineFaults s := by
    unfold raiseHard; simp [butChannelsLinesRelaysSettlesSchedTrackerPortsRingEngineFaults]
  simpa [butChannelsLinesRelaysSettlesSchedTrackerPortsRingEngineFaults] using h

@[simp] theorem startUpIsolation_frame (s : State) :
    (startUpIsolation s).pending = s.pending ∧ (startUpIsolation s).phase = s.phase ∧
    (startUpIsolation s).clock = s.clock ∧ (startUpIsolation s).pins = s.pins ∧
    (startUpIsolation s).twoPorts = s.twoPorts ∧ (startUpIsolation s).gateway = s.gateway ∧
    (startUpIsolation s).modem = s.modem ∧ (startUpIsolation s).dsl = s.dsl ∧
    (startUpIsolation s).power = s.power ∧ (startUpIsolation s).store = s.store ∧
    (startUpIsolation s).occasion = s.occasion := by
  have h : butChannelsLinesRelaysSettlesSchedTrackerPortsRingEngineFaults (startUpIsolation s) =
        butChannelsLinesRelaysSettlesSchedTrackerPortsRingEngineFaults s := by
    unfold startUpIsolation; (repeat' split) <;> simp
          [butChannelsLinesRelaysSettlesSchedTrackerPortsRingEngineFaults]
  simpa [butChannelsLinesRelaysSettlesSchedTrackerPortsRingEngineFaults] using h

@[simp] theorem engineSeizure_frame (p : Port) (lifeline : Bool) (s : State) :
    (engineSeizure p lifeline s).pending = s.pending ∧ (engineSeizure p lifeline s).phase = s.phase ∧
    (engineSeizure p lifeline s).clock = s.clock ∧ (engineSeizure p lifeline s).pins = s.pins ∧
    (engineSeizure p lifeline s).twoPorts = s.twoPorts ∧ (engineSeizure p lifeline s).gateway = s.gateway ∧
    (engineSeizure p lifeline s).modem = s.modem ∧ (engineSeizure p lifeline s).dsl = s.dsl ∧
    (engineSeizure p lifeline s).power = s.power ∧ (engineSeizure p lifeline s).store = s.store ∧
    (engineSeizure p lifeline s).occasion = s.occasion := by
  have h : butChannelsLinesRelaysSettlesSchedTrackerPortsRingEngineFaults (engineSeizure p lifeline s) =
        butChannelsLinesRelaysSettlesSchedTrackerPortsRingEngineFaults s := by
    unfold engineSeizure; (repeat' split) <;> simp
          [butChannelsLinesRelaysSettlesSchedTrackerPortsRingEngineFaults]
  simpa [butChannelsLinesRelaysSettlesSchedTrackerPortsRingEngineFaults] using h

@[simp] theorem tellPower_frame (old : PowerState) (new : PowerState) (s : State) :
    (tellPower old new s).pending = s.pending ∧ (tellPower old new s).phase = s.phase ∧
    (tellPower old new s).clock = s.clock ∧ (tellPower old new s).pins = s.pins ∧
    (tellPower old new s).twoPorts = s.twoPorts ∧ (tellPower old new s).gateway = s.gateway ∧
    (tellPower old new s).modem = s.modem ∧ (tellPower old new s).power = s.power ∧
    (tellPower old new s).store = s.store ∧ (tellPower old new s).occasion = s.occasion := by
  have h : butChannelsLinesRelaysSettlesDslSchedTrackerPortsRingEngineFaults (tellPower old new s) =
        butChannelsLinesRelaysSettlesDslSchedTrackerPortsRingEngineFaults s := by
    unfold tellPower; (repeat' split) <;> simp
          [butChannelsLinesRelaysSettlesDslSchedTrackerPortsRingEngineFaults]
  simpa [butChannelsLinesRelaysSettlesDslSchedTrackerPortsRingEngineFaults] using h

@[simp] theorem engineHoldLost_frame (f : Func) (s : State) :
    (engineHoldLost f s).pending = s.pending ∧ (engineHoldLost f s).phase = s.phase ∧
    (engineHoldLost f s).clock = s.clock ∧ (engineHoldLost f s).pins = s.pins ∧
    (engineHoldLost f s).twoPorts = s.twoPorts ∧ (engineHoldLost f s).gateway = s.gateway ∧
    (engineHoldLost f s).modem = s.modem ∧ (engineHoldLost f s).dsl = s.dsl ∧
    (engineHoldLost f s).power = s.power ∧ (engineHoldLost f s).store = s.store ∧
    (engineHoldLost f s).occasion = s.occasion := by
  have h : butChannelsLinesRelaysSettlesSchedTrackerPortsRingEngineFaults (engineHoldLost f s) =
        butChannelsLinesRelaysSettlesSchedTrackerPortsRingEngineFaults s := by
    unfold engineHoldLost; (repeat' split) <;> simp
          [butChannelsLinesRelaysSettlesSchedTrackerPortsRingEngineFaults]
  simpa [butChannelsLinesRelaysSettlesSchedTrackerPortsRingEngineFaults] using h

@[simp] theorem seize_frame (p : Port) (why : HookReason) (s : State) :
    (seize p why s).pending = s.pending ∧ (seize p why s).phase = s.phase ∧ (seize p why s).clock = s.clock ∧
    (seize p why s).pins = s.pins ∧ (seize p why s).twoPorts = s.twoPorts ∧
    (seize p why s).gateway = s.gateway ∧ (seize p why s).modem = s.modem ∧ (seize p why s).dsl = s.dsl ∧
    (seize p why s).power = s.power ∧ (seize p why s).store = s.store ∧ (seize p why s).occasion =
          s.occasion := by
  have h : butChannelsLinesRelaysSettlesSchedTrackerPortsRingEngineFaults (seize p why s) =
        butChannelsLinesRelaysSettlesSchedTrackerPortsRingEngineFaults s := by
    unfold seize; dsimp only; (repeat' split) <;> simp
          [butChannelsLinesRelaysSettlesSchedTrackerPortsRingEngineFaults]
  simpa [butChannelsLinesRelaysSettlesSchedTrackerPortsRingEngineFaults] using h

@[simp] theorem enterLockout_frame (why : LockoutCause) (reason : IsolationReason) (cause : FaultClass)
      (since : BitVec 32) (d2 : Nat) (s : State) :
    (enterLockout why reason cause since d2 s).pending = s.pending ∧
    (enterLockout why reason cause since d2 s).phase = s.phase ∧
    (enterLockout why reason cause since d2 s).clock = s.clock ∧
    (enterLockout why reason cause since d2 s).pins = s.pins ∧
    (enterLockout why reason cause since d2 s).twoPorts = s.twoPorts ∧
    (enterLockout why reason cause since d2 s).gateway = s.gateway ∧
    (enterLockout why reason cause since d2 s).modem = s.modem ∧
    (enterLockout why reason cause since d2 s).dsl = s.dsl ∧
    (enterLockout why reason cause since d2 s).power = s.power ∧
    (enterLockout why reason cause since d2 s).store = s.store ∧
    (enterLockout why reason cause since d2 s).occasion = s.occasion := by
  have h : butChannelsLinesRelaysSettlesSchedTrackerPortsRingEngineFaults (enterLockout why reason cause
        since d2 s) = butChannelsLinesRelaysSettlesSchedTrackerPortsRingEngineFaults s := by
    unfold enterLockout; simp [butChannelsLinesRelaysSettlesSchedTrackerPortsRingEngineFaults]
  simpa [butChannelsLinesRelaysSettlesSchedTrackerPortsRingEngineFaults] using h

@[simp] theorem holdLost_frame (f : Func) (holder : Channel) (s : State) :
    (holdLost f holder s).pending = s.pending ∧ (holdLost f holder s).phase = s.phase ∧
    (holdLost f holder s).clock = s.clock ∧ (holdLost f holder s).pins = s.pins ∧
    (holdLost f holder s).twoPorts = s.twoPorts ∧ (holdLost f holder s).gateway = s.gateway ∧
    (holdLost f holder s).modem = s.modem ∧ (holdLost f holder s).dsl = s.dsl ∧
    (holdLost f holder s).power = s.power ∧ (holdLost f holder s).store = s.store ∧
    (holdLost f holder s).occasion = s.occasion := by
  have h : butChannelsLinesRelaysSettlesSchedTrackerPortsRingEngineFaults (holdLost f holder s) =
        butChannelsLinesRelaysSettlesSchedTrackerPortsRingEngineFaults s := by
    unfold holdLost; simp [butChannelsLinesRelaysSettlesSchedTrackerPortsRingEngineFaults]
  simpa [butChannelsLinesRelaysSettlesSchedTrackerPortsRingEngineFaults] using h

@[simp] theorem powerMoves_frame (old : PowerState) (new : PowerState) (s : State) :
    (powerMoves old new s).pending = s.pending ∧ (powerMoves old new s).phase = s.phase ∧
    (powerMoves old new s).clock = s.clock ∧ (powerMoves old new s).pins = s.pins ∧
    (powerMoves old new s).twoPorts = s.twoPorts ∧ (powerMoves old new s).gateway = s.gateway ∧
    (powerMoves old new s).modem = s.modem ∧ (powerMoves old new s).store = s.store ∧
    (powerMoves old new s).occasion = s.occasion := by
  have h : butChannelsLinesRelaysSettlesDslSchedTrackerPortsRingEngineFaultsPower (powerMoves old new s) =
        butChannelsLinesRelaysSettlesDslSchedTrackerPortsRingEngineFaultsPower s := by
    unfold powerMoves; (repeat' split) <;> simp
          [butChannelsLinesRelaysSettlesDslSchedTrackerPortsRingEngineFaultsPower]
  simpa [butChannelsLinesRelaysSettlesDslSchedTrackerPortsRingEngineFaultsPower] using h

@[simp] theorem ringOnset_frame (s : State) :
    (ringOnset s).pending = s.pending ∧ (ringOnset s).phase = s.phase ∧ (ringOnset s).clock = s.clock ∧
    (ringOnset s).pins = s.pins ∧ (ringOnset s).twoPorts = s.twoPorts ∧ (ringOnset s).gateway = s.gateway ∧
    (ringOnset s).modem = s.modem ∧ (ringOnset s).dsl = s.dsl ∧ (ringOnset s).power = s.power ∧
    (ringOnset s).store = s.store ∧ (ringOnset s).occasion = s.occasion := by
  have h : butChannelsLinesRelaysSettlesSchedTrackerPortsRingEngineFaults (ringOnset s) =
        butChannelsLinesRelaysSettlesSchedTrackerPortsRingEngineFaults s := by
    unfold ringOnset; simp [butChannelsLinesRelaysSettlesSchedTrackerPortsRingEngineFaults]
  simpa [butChannelsLinesRelaysSettlesSchedTrackerPortsRingEngineFaults] using h

@[simp] theorem lineBreakSeen_frame (s : State) :
    (lineBreakSeen s).pending = s.pending ∧ (lineBreakSeen s).phase = s.phase ∧
    (lineBreakSeen s).clock = s.clock ∧ (lineBreakSeen s).pins = s.pins ∧
    (lineBreakSeen s).twoPorts = s.twoPorts ∧ (lineBreakSeen s).gateway = s.gateway ∧
    (lineBreakSeen s).modem = s.modem ∧ (lineBreakSeen s).dsl = s.dsl ∧ (lineBreakSeen s).power = s.power ∧
    (lineBreakSeen s).store = s.store ∧ (lineBreakSeen s).occasion = s.occasion := by
  have h : butChannelsLinesRelaysSettlesSchedTrackerPortsRingEngineFaults (lineBreakSeen s) =
        butChannelsLinesRelaysSettlesSchedTrackerPortsRingEngineFaults s := by
    unfold lineBreakSeen; (repeat' split) <;> simp
          [butChannelsLinesRelaysSettlesSchedTrackerPortsRingEngineFaults]
  simpa [butChannelsLinesRelaysSettlesSchedTrackerPortsRingEngineFaults] using h

@[simp] theorem tripPort_frame (p : Port) (s : State) :
    (tripPort p s).pending = s.pending ∧ (tripPort p s).phase = s.phase ∧ (tripPort p s).clock = s.clock ∧
    (tripPort p s).pins = s.pins ∧ (tripPort p s).twoPorts = s.twoPorts ∧ (tripPort p s).gateway = s.gateway ∧
    (tripPort p s).modem = s.modem ∧ (tripPort p s).dsl = s.dsl ∧ (tripPort p s).power = s.power ∧
    (tripPort p s).store = s.store ∧ (tripPort p s).occasion = s.occasion := by
  have h : butChannelsLinesRelaysSettlesSchedTrackerPortsRingEngineFaults (tripPort p s) =
        butChannelsLinesRelaysSettlesSchedTrackerPortsRingEngineFaults s := by
    unfold tripPort; dsimp only; (repeat' split) <;> simp
          [butChannelsLinesRelaysSettlesSchedTrackerPortsRingEngineFaults]
  simpa [butChannelsLinesRelaysSettlesSchedTrackerPortsRingEngineFaults] using h

@[simp] theorem takeInputs_frame (s : State) :
    (takeInputs s).pending = s.pending ∧ (takeInputs s).phase = s.phase ∧ (takeInputs s).clock = s.clock ∧
    (takeInputs s).pins = s.pins ∧ (takeInputs s).twoPorts = s.twoPorts ∧ (takeInputs s).gateway = s.gateway ∧
    (takeInputs s).modem = s.modem ∧ (takeInputs s).dsl = s.dsl ∧ (takeInputs s).power = s.power ∧
    (takeInputs s).store = s.store ∧ (takeInputs s).occasion = s.occasion := by
  have h : butChannelsLinesRelaysSettlesSchedTrackerPortsRingEngineFaults (takeInputs s) =
        butChannelsLinesRelaysSettlesSchedTrackerPortsRingEngineFaults s := by
    unfold takeInputs; (repeat' split) <;> simp [butChannelsLinesRelaysSettlesSchedTrackerPortsRingEngineFaults]
  simpa [butChannelsLinesRelaysSettlesSchedTrackerPortsRingEngineFaults] using h

@[simp] theorem seizeFunc_frame (f : Func) (h : Hold) (c : Channel) (level : Nat) (s : State) :
    (seizeFunc f h c level s).pending = s.pending ∧ (seizeFunc f h c level s).phase = s.phase ∧
    (seizeFunc f h c level s).clock = s.clock ∧ (seizeFunc f h c level s).pins = s.pins ∧
    (seizeFunc f h c level s).twoPorts = s.twoPorts ∧ (seizeFunc f h c level s).gateway = s.gateway ∧
    (seizeFunc f h c level s).modem = s.modem ∧ (seizeFunc f h c level s).dsl = s.dsl ∧
    (seizeFunc f h c level s).power = s.power ∧ (seizeFunc f h c level s).store = s.store ∧
    (seizeFunc f h c level s).occasion = s.occasion := by
  have h : butChannelsLinesRelaysSettlesSchedTrackerPortsRingEngineFaults (seizeFunc f h c level s) =
        butChannelsLinesRelaysSettlesSchedTrackerPortsRingEngineFaults s := by
    unfold seizeFunc; simp [butChannelsLinesRelaysSettlesSchedTrackerPortsRingEngineFaults]
  simpa [butChannelsLinesRelaysSettlesSchedTrackerPortsRingEngineFaults] using h

@[simp] theorem powerInputs_frame (s : State) :
    (powerInputs s).pending = s.pending ∧ (powerInputs s).phase = s.phase ∧ (powerInputs s).clock = s.clock ∧
    (powerInputs s).pins = s.pins ∧ (powerInputs s).twoPorts = s.twoPorts ∧
    (powerInputs s).gateway = s.gateway ∧ (powerInputs s).modem = s.modem ∧ (powerInputs s).store = s.store ∧
    (powerInputs s).occasion = s.occasion := by
  have h : butChannelsLinesRelaysSettlesDslSchedTrackerPortsRingEngineFaultsPower (powerInputs s) =
        butChannelsLinesRelaysSettlesDslSchedTrackerPortsRingEngineFaultsPower s := by
    unfold powerInputs; dsimp only; (repeat' split) <;> simp
          [butChannelsLinesRelaysSettlesDslSchedTrackerPortsRingEngineFaultsPower]
  simpa [butChannelsLinesRelaysSettlesDslSchedTrackerPortsRingEngineFaultsPower] using h

@[simp] theorem moveLineBreak_frame (c : Contact) (s : State) :
    (moveLineBreak c s).pending = s.pending ∧ (moveLineBreak c s).phase = s.phase ∧
    (moveLineBreak c s).clock = s.clock ∧ (moveLineBreak c s).pins = s.pins ∧
    (moveLineBreak c s).twoPorts = s.twoPorts ∧ (moveLineBreak c s).gateway = s.gateway ∧
    (moveLineBreak c s).modem = s.modem ∧ (moveLineBreak c s).dsl = s.dsl ∧
    (moveLineBreak c s).power = s.power ∧ (moveLineBreak c s).store = s.store ∧
    (moveLineBreak c s).occasion = s.occasion := by
  have h : butChannelsLinesRelaysSettlesSchedTrackerPortsRingEngineFaults (moveLineBreak c s) =
        butChannelsLinesRelaysSettlesSchedTrackerPortsRingEngineFaults s := by
    unfold moveLineBreak; simp [butChannelsLinesRelaysSettlesSchedTrackerPortsRingEngineFaults]
  simpa [butChannelsLinesRelaysSettlesSchedTrackerPortsRingEngineFaults] using h

@[simp] theorem releaseFunc_frame (f : Func) (s : State) :
    (releaseFunc f s).pending = s.pending ∧ (releaseFunc f s).phase = s.phase ∧
    (releaseFunc f s).clock = s.clock ∧ (releaseFunc f s).pins = s.pins ∧
    (releaseFunc f s).twoPorts = s.twoPorts ∧ (releaseFunc f s).gateway = s.gateway ∧
    (releaseFunc f s).modem = s.modem ∧ (releaseFunc f s).dsl = s.dsl ∧ (releaseFunc f s).power = s.power ∧
    (releaseFunc f s).store = s.store ∧ (releaseFunc f s).occasion = s.occasion := by
  have h : butChannelsLinesRelaysSettlesSchedTrackerPortsRingEngineFaults (releaseFunc f s) =
        butChannelsLinesRelaysSettlesSchedTrackerPortsRingEngineFaults s := by
    unfold releaseFunc; (repeat' split) <;> simp
          [butChannelsLinesRelaysSettlesSchedTrackerPortsRingEngineFaults]
  simpa [butChannelsLinesRelaysSettlesSchedTrackerPortsRingEngineFaults] using h

@[simp] theorem revokeFunc_frame (f : Func) (h : Hold) (newLevel : Nat) (s : State) :
    (revokeFunc f h newLevel s).pending = s.pending ∧ (revokeFunc f h newLevel s).phase = s.phase ∧
    (revokeFunc f h newLevel s).clock = s.clock ∧ (revokeFunc f h newLevel s).pins = s.pins ∧
    (revokeFunc f h newLevel s).twoPorts = s.twoPorts ∧ (revokeFunc f h newLevel s).gateway = s.gateway ∧
    (revokeFunc f h newLevel s).modem = s.modem ∧ (revokeFunc f h newLevel s).dsl = s.dsl ∧
    (revokeFunc f h newLevel s).power = s.power ∧ (revokeFunc f h newLevel s).store = s.store ∧
    (revokeFunc f h newLevel s).occasion = s.occasion := by
  have h : butChannelsLinesRelaysSettlesSchedTrackerPortsRingEngineFaults (revokeFunc f h newLevel s) =
        butChannelsLinesRelaysSettlesSchedTrackerPortsRingEngineFaults s := by
    unfold revokeFunc; simp [butChannelsLinesRelaysSettlesSchedTrackerPortsRingEngineFaults]
  simpa [butChannelsLinesRelaysSettlesSchedTrackerPortsRingEngineFaults] using h

@[simp] theorem endIsolation_frame (why : IsolationReason) (b8 : Nat) (s : State) :
    (endIsolation why b8 s).pending = s.pending ∧ (endIsolation why b8 s).phase = s.phase ∧
    (endIsolation why b8 s).clock = s.clock ∧ (endIsolation why b8 s).pins = s.pins ∧
    (endIsolation why b8 s).twoPorts = s.twoPorts ∧ (endIsolation why b8 s).gateway = s.gateway ∧
    (endIsolation why b8 s).modem = s.modem ∧ (endIsolation why b8 s).dsl = s.dsl ∧
    (endIsolation why b8 s).power = s.power ∧ (endIsolation why b8 s).store = s.store ∧
    (endIsolation why b8 s).occasion = s.occasion := by
  have h : butChannelsLinesRelaysSettlesSchedTrackerPortsRingEngineFaults (endIsolation why b8 s) =
        butChannelsLinesRelaysSettlesSchedTrackerPortsRingEngineFaults s := by
    unfold endIsolation; simp [butChannelsLinesRelaysSettlesSchedTrackerPortsRingEngineFaults]
  simpa [butChannelsLinesRelaysSettlesSchedTrackerPortsRingEngineFaults] using h

@[simp] theorem isolate_frame (c : FaultClass) (s : State) :
    (isolate c s).pending = s.pending ∧ (isolate c s).phase = s.phase ∧ (isolate c s).clock = s.clock ∧
    (isolate c s).pins = s.pins ∧ (isolate c s).twoPorts = s.twoPorts ∧ (isolate c s).gateway = s.gateway ∧
    (isolate c s).modem = s.modem ∧ (isolate c s).dsl = s.dsl ∧ (isolate c s).power = s.power ∧
    (isolate c s).store = s.store ∧ (isolate c s).occasion = s.occasion := by
  have h : butChannelsLinesRelaysSettlesSchedTrackerPortsRingEngineFaults (isolate c s) =
        butChannelsLinesRelaysSettlesSchedTrackerPortsRingEngineFaults s := by
    unfold isolate; (repeat' split) <;> simp [butChannelsLinesRelaysSettlesSchedTrackerPortsRingEngineFaults]
  simpa [butChannelsLinesRelaysSettlesSchedTrackerPortsRingEngineFaults] using h

@[simp] theorem hardEvent_frame (c : FaultClass) (d2 : Nat) (s : State) :
    (hardEvent c d2 s).pending = s.pending ∧ (hardEvent c d2 s).phase = s.phase ∧
    (hardEvent c d2 s).clock = s.clock ∧ (hardEvent c d2 s).pins = s.pins ∧
    (hardEvent c d2 s).twoPorts = s.twoPorts ∧ (hardEvent c d2 s).gateway = s.gateway ∧
    (hardEvent c d2 s).modem = s.modem ∧ (hardEvent c d2 s).dsl = s.dsl ∧ (hardEvent c d2 s).power = s.power ∧
    (hardEvent c d2 s).store = s.store ∧ (hardEvent c d2 s).occasion = s.occasion := by
  have h : butChannelsLinesRelaysSettlesSchedTrackerPortsRingEngineFaults (hardEvent c d2 s) =
        butChannelsLinesRelaysSettlesSchedTrackerPortsRingEngineFaults s := by
    unfold hardEvent; simp [butChannelsLinesRelaysSettlesSchedTrackerPortsRingEngineFaults]
  simpa [butChannelsLinesRelaysSettlesSchedTrackerPortsRingEngineFaults] using h

@[simp] theorem dwellEnds_frame (dwell : Nat) (cause : FaultClass) (since : BitVec 32) (s : State) :
    (dwellEnds dwell cause since s).pending = s.pending ∧ (dwellEnds dwell cause since s).phase = s.phase ∧
    (dwellEnds dwell cause since s).clock = s.clock ∧ (dwellEnds dwell cause since s).pins = s.pins ∧
    (dwellEnds dwell cause since s).twoPorts = s.twoPorts ∧
    (dwellEnds dwell cause since s).gateway = s.gateway ∧ (dwellEnds dwell cause since s).modem = s.modem ∧
    (dwellEnds dwell cause since s).dsl = s.dsl ∧ (dwellEnds dwell cause since s).power = s.power ∧
    (dwellEnds dwell cause since s).store = s.store ∧ (dwellEnds dwell cause since s).occasion =
          s.occasion := by
  have h : butChannelsLinesRelaysSettlesSchedTrackerPortsRingEngineFaults (dwellEnds dwell cause since s)
        = butChannelsLinesRelaysSettlesSchedTrackerPortsRingEngineFaults s := by
    unfold dwellEnds; (repeat' split) <;> simp [butChannelsLinesRelaysSettlesSchedTrackerPortsRingEngineFaults]
  simpa [butChannelsLinesRelaysSettlesSchedTrackerPortsRingEngineFaults] using h

@[simp] theorem expireAll_frame (newLevel : Nat) (l : List ClaimEntry) (s : State) :
    (expireAll newLevel l s).pending = s.pending ∧ (expireAll newLevel l s).phase = s.phase ∧
    (expireAll newLevel l s).clock = s.clock ∧ (expireAll newLevel l s).pins = s.pins ∧
    (expireAll newLevel l s).twoPorts = s.twoPorts ∧ (expireAll newLevel l s).gateway = s.gateway ∧
    (expireAll newLevel l s).modem = s.modem ∧ (expireAll newLevel l s).relays = s.relays ∧
    (expireAll newLevel l s).settles = s.settles ∧ (expireAll newLevel l s).dsl = s.dsl ∧
    (expireAll newLevel l s).sched = s.sched ∧ (expireAll newLevel l s).tracker = s.tracker ∧
    (expireAll newLevel l s).ports = s.ports ∧ (expireAll newLevel l s).ring = s.ring ∧
    (expireAll newLevel l s).engine = s.engine ∧ (expireAll newLevel l s).faults = s.faults ∧
    (expireAll newLevel l s).power = s.power ∧ (expireAll newLevel l s).store = s.store ∧
    (expireAll newLevel l s).occasion = s.occasion := by
  have h : butChannelsLines (expireAll newLevel l s) = butChannelsLines s := by
    induction l generalizing s with
    | nil => rfl
    | cons e rest ih => rw [expireAll, ih]; simp [butChannelsLines]
  simpa [butChannelsLines] using h

@[simp] theorem freshChannels_frame (l : List Channel) (s : State) :
    (freshChannels l s).pending = s.pending ∧ (freshChannels l s).phase = s.phase ∧
    (freshChannels l s).clock = s.clock ∧ (freshChannels l s).pins = s.pins ∧
    (freshChannels l s).twoPorts = s.twoPorts ∧ (freshChannels l s).gateway = s.gateway ∧
    (freshChannels l s).modem = s.modem ∧ (freshChannels l s).lines = s.lines ∧
    (freshChannels l s).relays = s.relays ∧ (freshChannels l s).settles = s.settles ∧
    (freshChannels l s).dsl = s.dsl ∧ (freshChannels l s).sched = s.sched ∧
    (freshChannels l s).tracker = s.tracker ∧ (freshChannels l s).ports = s.ports ∧
    (freshChannels l s).ring = s.ring ∧ (freshChannels l s).engine = s.engine ∧
    (freshChannels l s).faults = s.faults ∧ (freshChannels l s).power = s.power ∧
    (freshChannels l s).store = s.store ∧ (freshChannels l s).occasion = s.occasion := by
  have h : butChannels (freshChannels l s) = butChannels s := by
    induction l generalizing s with
    | nil => rfl
    | cons c rest ih => rw [freshChannels, ih]; simp [butChannels]
  simpa [butChannels] using h

@[simp] theorem freshFaultChannels_frame (l : List Channel) (s : State) :
    (freshFaultChannels l s).pending = s.pending ∧ (freshFaultChannels l s).phase = s.phase ∧
    (freshFaultChannels l s).clock = s.clock ∧ (freshFaultChannels l s).pins = s.pins ∧
    (freshFaultChannels l s).twoPorts = s.twoPorts ∧ (freshFaultChannels l s).gateway = s.gateway ∧
    (freshFaultChannels l s).modem = s.modem ∧ (freshFaultChannels l s).channels = s.channels ∧
    (freshFaultChannels l s).lines = s.lines ∧ (freshFaultChannels l s).relays = s.relays ∧
    (freshFaultChannels l s).settles = s.settles ∧ (freshFaultChannels l s).dsl = s.dsl ∧
    (freshFaultChannels l s).sched = s.sched ∧ (freshFaultChannels l s).tracker = s.tracker ∧
    (freshFaultChannels l s).ports = s.ports ∧ (freshFaultChannels l s).ring = s.ring ∧
    (freshFaultChannels l s).engine = s.engine ∧ (freshFaultChannels l s).power = s.power ∧
    (freshFaultChannels l s).store = s.store ∧ (freshFaultChannels l s).occasion = s.occasion := by
  have h : butFaults (freshFaultChannels l s) = butFaults s := by
    induction l generalizing s with
    | nil => rfl
    | cons c rest ih => rw [freshFaultChannels, ih]; simp [butFaults]
  simpa [butFaults] using h

@[simp] theorem releaseCovered_frame (covered : List Channel) (l : List Func) (s : State) :
    (releaseCovered covered l s).pending = s.pending ∧ (releaseCovered covered l s).phase = s.phase ∧
    (releaseCovered covered l s).clock = s.clock ∧ (releaseCovered covered l s).pins = s.pins ∧
    (releaseCovered covered l s).twoPorts = s.twoPorts ∧ (releaseCovered covered l s).gateway = s.gateway ∧
    (releaseCovered covered l s).modem = s.modem ∧ (releaseCovered covered l s).dsl = s.dsl ∧
    (releaseCovered covered l s).power = s.power ∧ (releaseCovered covered l s).store = s.store ∧
    (releaseCovered covered l s).occasion = s.occasion := by
  have h : butChannelsLinesRelaysSettlesSchedTrackerPortsRingEngineFaults (releaseCovered covered l s) =
        butChannelsLinesRelaysSettlesSchedTrackerPortsRingEngineFaults s := by
    induction l generalizing s with
    | nil => rfl
    | cons f rest ih => rw [releaseCovered]; (repeat' split) <;> (rw [ih]; try simp
          [butChannelsLinesRelaysSettlesSchedTrackerPortsRingEngineFaults])
  simpa [butChannelsLinesRelaysSettlesSchedTrackerPortsRingEngineFaults] using h

@[simp] theorem resetHolds_frame (covered : List Channel) (s : State) :
    (resetHolds covered s).pending = s.pending ∧ (resetHolds covered s).phase = s.phase ∧
    (resetHolds covered s).clock = s.clock ∧ (resetHolds covered s).pins = s.pins ∧
    (resetHolds covered s).twoPorts = s.twoPorts ∧ (resetHolds covered s).gateway = s.gateway ∧
    (resetHolds covered s).modem = s.modem ∧ (resetHolds covered s).dsl = s.dsl ∧
    (resetHolds covered s).power = s.power ∧ (resetHolds covered s).store = s.store ∧
    (resetHolds covered s).occasion = s.occasion := by
  have h : butChannelsLinesRelaysSettlesSchedTrackerPortsRingEngineFaults (resetHolds covered s) =
        butChannelsLinesRelaysSettlesSchedTrackerPortsRingEngineFaults s := by
    unfold resetHolds; simp [butChannelsLinesRelaysSettlesSchedTrackerPortsRingEngineFaults]
  simpa [butChannelsLinesRelaysSettlesSchedTrackerPortsRingEngineFaults] using h

@[simp] theorem channelReset_frame (covered : List Channel) (s : State) :
    (channelReset covered s).pending = s.pending ∧ (channelReset covered s).phase = s.phase ∧
    (channelReset covered s).clock = s.clock ∧ (channelReset covered s).pins = s.pins ∧
    (channelReset covered s).twoPorts = s.twoPorts ∧ (channelReset covered s).gateway = s.gateway ∧
    (channelReset covered s).modem = s.modem ∧ (channelReset covered s).dsl = s.dsl ∧
    (channelReset covered s).power = s.power ∧ (channelReset covered s).store = s.store ∧
    (channelReset covered s).occasion = s.occasion := by
  have h : butChannelsLinesRelaysSettlesSchedTrackerPortsRingEngineFaults (channelReset covered s) =
        butChannelsLinesRelaysSettlesSchedTrackerPortsRingEngineFaults s := by
    unfold channelReset; simp [butChannelsLinesRelaysSettlesSchedTrackerPortsRingEngineFaults]
  simpa [butChannelsLinesRelaysSettlesSchedTrackerPortsRingEngineFaults] using h

end Sys2Proof.Machine
end

