-- ==== Sys2Proof/Laws/PerInstr.lean ====
section
/-! SUPPORT. The family Parts of LAWS.json: the operand bytes that `requestParts` writes for a well-formed request
are read back by `decodeRequest` as that request (R7, R8). One lemma per command; an event has no parts. -/

namespace Sys2Proof

/-! ## Fields -/

/-- A 2-byte field read back from its bytes. -/
theorem half_halfBytes (x : Half) : half (x.extractLsb' 0 8) (x.extractLsb' 8 8) = x := by
  unfold half
  rw [BitVec.extractLsb'_append_extractLsb'_eq_extractLsb' (by rfl)]
  simp

/-- A 4-byte field read back from its bytes. -/
theorem word_wordBytes (x : BitVec 32) :
    word (x.extractLsb' 0 8) (x.extractLsb' 8 8) (x.extractLsb' 16 8) (x.extractLsb' 24 8) = x := by
  unfold word
  rw [BitVec.extractLsb'_append_extractLsb'_eq_extractLsb' (by rfl),
    BitVec.extractLsb'_append_extractLsb'_eq_extractLsb' (by rfl),
    BitVec.extractLsb'_append_extractLsb'_eq_extractLsb' (by rfl)]
  simp

/-- Limit entries read back from their bytes. -/
theorem decodeLimits_limitBytes (l : List LimitArg) : decodeLimits (limitBytes l) = some l := by
  induction l with
  | nil => rfl
  | cons a rest ih => simp [limitBytes, wordBytes, decodeLimits, ih, word_wordBytes]

/-- Cadence steps read back from their bytes. -/
theorem decodeSteps_stepBytes (l : List StepArg) : decodeSteps (stepBytes l) = some l := by
  induction l with
  | nil => rfl
  | cons a rest ih => simp [stepBytes, halfBytes, decodeSteps, ih, half_halfBytes]

namespace Laws.Parts

/-- A well-formed request's parts are read back as the request. -/
def Statement (i : Instr) : Prop :=
  i.wellFormed = true → ∀ r code ops, requestParts i = some (r, code, ops) →
    decodeRequest r code.toNat ops = some i

/-- What the lemma of a request comes to. -/
theorem of_parts {i : Instr} {r : Req} {code : Byte} {ops : List Byte} (h : requestParts i = some (r, code, ops))
    (hd : i.wellFormed = true → decodeRequest r code.toNat ops = some i) : Statement i := by
  intro hw r' code' ops' h'
  rw [h] at h'
  cases h'
  exact hd hw

/-- What the lemma of an event comes to. -/
theorem of_none {i : Instr} (h : requestParts i = none) : Statement i := by
  intro _ r code ops h'
  rw [h] at h'
  cases h'

theorem powerOnReset (straps : Straps) : Statement (.powerOnReset straps) := of_none rfl
theorem settingsLoadComplete (readCompleted : Bool) : Statement (.settingsLoadComplete readCompleted) :=
  of_none rfl
theorem resetPinAssert : Statement .resetPinAssert := of_none rfl
theorem resetPinRelease (straps : Straps) : Statement (.resetPinRelease straps) := of_none rfl
theorem gatewayTransfer (bytes : List Byte) : Statement (.gatewayTransfer bytes) := of_none rfl
theorem modemFrame (bytes : List Byte) : Statement (.modemFrame bytes) := of_none rfl
theorem modemByteGapTimeout (bytes : List Byte) : Statement (.modemByteGapTimeout bytes) := of_none rfl
theorem modemStopBitError (bytes : List Byte) : Statement (.modemStopBitError bytes) := of_none rfl
theorem modemResponseSent : Statement .modemResponseSent := of_none rfl
theorem portResetAssert (port : PhysPort) : Statement (.portResetAssert port) := of_none rfl
theorem portResetRelease (port : PhysPort) : Statement (.portResetRelease port) := of_none rfl
theorem identify (r : Req) : Statement (.identify r) := of_parts rfl (fun _ => rfl)
theorem fetchNotices (r : Req) (limit : Byte) : Statement (.fetchNotices r limit) :=
  of_parts rfl (fun _ => rfl)
theorem subscribe (r : Req) (kinds : BitVec 32) : Statement (.subscribe r kinds) := of_parts rfl (fun _ => by
    simp [decodeRequest, subscribeOperands, wordBytes, word_wordBytes])
theorem channelReset (r : Req) : Statement (.channelReset r) := of_parts rfl (fun _ => rfl)
theorem readTime (r : Req) : Statement (.readTime r) := of_parts rfl (fun _ => rfl)
theorem claim (r : Req) (function : Byte) (wait : Half) (seize : Byte) :
    Statement (.claim r function wait seize) :=
  of_parts rfl (fun _ => by
    simp [decodeRequest, claimOperands, halfBytes, half_halfBytes])
theorem release (r : Req) (function : Byte) : Statement (.release r function) := of_parts rfl (fun _ => rfl)
theorem queryFunction (r : Req) (function : Byte) : Statement (.queryFunction r function) :=
  of_parts rfl (fun _ => rfl)
theorem tighten (r : Req) (function newLevel revoke : Byte) :
    Statement (.tighten r function newLevel revoke) :=
  of_parts rfl (fun _ => rfl)
theorem readFunctions (r : Req) : Statement (.readFunctions r) := of_parts rfl (fun _ => rfl)
theorem setDsl (r : Req) (coupling : Byte) : Statement (.setDsl r coupling) := of_parts rfl (fun _ => rfl)
theorem claimDeadlineExpiry (channel : Channel) (function : Func) :
    Statement (.claimDeadlineExpiry channel function) :=
  of_none rfl
theorem changeSetComplete (asker : Asker) : Statement (.changeSetComplete asker) := of_none rfl
theorem braced (r : Req) (id : Byte) : Statement (.braced r id) := of_parts rfl (fun _ => rfl)
theorem defer (r : Req) (id extra : Byte) : Statement (.defer r id extra) := of_parts rfl (fun _ => rfl)
theorem leadExpiry (slot : SlotId) : Statement (.leadExpiry slot) := of_none rfl
theorem setLead (r : Req) (lead : Half) : Statement (.setLead r lead) := of_parts rfl (fun _ => by
    simp [decodeRequest, oneHalf, halfBytes, half_halfBytes])
theorem readDisturbances (r : Req) (part : Byte) : Statement (.readDisturbances r part) :=
  of_parts rfl (fun _ => rfl)
theorem blankingWindowRemoval : Statement .blankingWindowRemoval := of_none rfl
theorem impulseEdge : Statement .impulseEdge := of_none rfl
theorem deadTimeExpiry : Statement .deadTimeExpiry := of_none rfl
theorem edgeClassification : Statement .edgeClassification := of_none rfl
theorem acquireExpiry : Statement .acquireExpiry := of_none rfl
theorem windowCheck : Statement .windowCheck := of_none rfl
theorem trackerConfig (r : Req) (enable : Byte) (deadTime : Half) :
    Statement (.trackerConfig r enable deadTime) :=
  of_parts rfl (fun _ => by
    simp [decodeRequest, trackerConfigOperands, halfBytes, half_halfBytes])
theorem trackerRestart (r : Req) : Statement (.trackerRestart r) := of_parts rfl (fun _ => rfl)
theorem readTracker (r : Req) : Statement (.readTracker r) := of_parts rfl (fun _ => rfl)
theorem readForecast (r : Req) : Statement (.readForecast r) := of_parts rfl (fun _ => rfl)
theorem readAndClearEdgeCounts (r : Req) : Statement (.readAndClearEdgeCounts r) :=
  of_parts rfl (fun _ => rfl)
theorem setMode (r : Req) (port mode force : Byte) : Statement (.setMode r port mode force) :=
  of_parts rfl (fun _ => rfl)
theorem readPort (r : Req) (port : Byte) : Statement (.readPort r port) := of_parts rfl (fun _ => rfl)
theorem feedOverLimitChange (p : Port) (asserted : Bool) : Statement (.feedOverLimitChange p asserted) :=
  of_none rfl
theorem feedDenial (p : Port) : Statement (.feedDenial p) := of_none rfl
theorem probeStart (p : Port) : Statement (.probeStart p) := of_none rfl
theorem probeEnd (p : Port) : Statement (.probeEnd p) := of_none rfl
theorem setHookTiming (r : Req) (port : Byte) (seize glitch pulseMax flashMax digitGap : Half) :
    Statement (.setHookTiming r port seize glitch pulseMax flashMax digitGap) :=
  of_parts rfl (fun _ => by
    simp [decodeRequest, hookTimingOperands, halfBytes, half_halfBytes])
theorem readDial (r : Req) (port : Byte) : Statement (.readDial r port) := of_parts rfl (fun _ => rfl)
theorem clearDial (r : Req) (port : Byte) : Statement (.clearDial r port) := of_parts rfl (fun _ => rfl)
theorem loopChange (p : Port) (sense : LoopSense) (present : Bool) :
    Statement (.loopChange p sense present) :=
  of_none rfl
theorem seizeTimerExpiry (p : Port) : Statement (.seizeTimerExpiry p) := of_none rfl
theorem breakTimerExpiry (p : Port) : Statement (.breakTimerExpiry p) := of_none rfl
theorem digitGapExpiry (p : Port) : Statement (.digitGapExpiry p) := of_none rfl
theorem ring (r : Req) (port cadence cycles : Byte) : Statement (.ring r port cadence cycles) :=
  of_parts rfl (fun _ => rfl)
theorem stopRing (r : Req) (port : Byte) : Statement (.stopRing r port) := of_parts rfl (fun _ => rfl)
theorem setCadence (r : Req) (entry stepCount : Byte) (steps : List StepArg) :
    Statement (.setCadence r entry stepCount steps) :=
  of_parts rfl (fun hw => by
    have h : steps.length ≤ 3 := by simpa [Instr.wellFormed] using hw
    simp [decodeRequest, cadenceOperands, decodeSteps_stepBytes, atMost, h])
theorem setExchangeRingCount (r : Req) (n : Byte) : Statement (.setExchangeRingCount r n) :=
  of_parts rfl (fun _ => rfl)
theorem readRing (r : Req) (part : Byte) : Statement (.readRing r part) := of_parts rfl (fun _ => rfl)
theorem ringPhaseTimerExpiry (p : Port) : Statement (.ringPhaseTimerExpiry p) := of_none rfl
theorem ringTripInputChange (p : Port) (asserted : Bool) : Statement (.ringTripInputChange p asserted) :=
  of_none rfl
theorem tripTimerExpiry (p : Port) : Statement (.tripTimerExpiry p) := of_none rfl
theorem ringCurrentLimitChange (asserted : Bool) : Statement (.ringCurrentLimitChange asserted) := of_none rfl
theorem ringFaultTimerExpiry : Statement .ringFaultTimerExpiry := of_none rfl
theorem exchangeRingOnset : Statement .exchangeRingOnset := of_none rfl
theorem exchangeRingOffset : Statement .exchangeRingOffset := of_none rfl
theorem callGapExpiry : Statement .callGapExpiry := of_none rfl
theorem runTest (r : Req) (kind target force : Byte) (limits : List LimitArg) :
    Statement (.runTest r kind target force limits) :=
  of_parts rfl (fun hw => by
    have h : limits.length ≤ 4 := by simpa [Instr.wellFormed] using hw
    simp [decodeRequest, runTestOperands, decodeLimits_limitBytes, atMost, h])
theorem runGatedTest (r : Req) (gate : Byte) : Statement (.runGatedTest r gate) := of_parts rfl (fun _ => rfl)
theorem abortTest (r : Req) : Statement (.abortTest r) := of_parts rfl (fun _ => rfl)
theorem readTestResult (r : Req) : Statement (.readTestResult r) := of_parts rfl (fun _ => rfl)
theorem installGate (r : Req) (gate gateLevel kind target : Byte) (limits : List LimitArg) :
    Statement (.installGate r gate gateLevel kind target limits) :=
  of_parts rfl (fun hw => by
    have h : limits.length ≤ 4 := by simpa [Instr.wellFormed] using hw
    simp [decodeRequest, installGateOperands, decodeLimits_limitBytes, atMost, h])
theorem removeGate (r : Req) (gate : Byte) : Statement (.removeGate r gate) := of_parts rfl (fun _ => rfl)
theorem setCable (r : Req) (constant : Half) : Statement (.setCable r constant) := of_parts rfl (fun _ => by
    simp [decodeRequest, oneHalf, halfBytes, half_halfBytes])
theorem readGates (r : Req) (gate : Byte) : Statement (.readGates r gate) := of_parts rfl (fun _ => rfl)
theorem cleanTimerExpiry (readings : Readings) : Statement (.cleanTimerExpiry readings) := of_none rfl
theorem wallTimerExpiry (readings : Readings) : Statement (.wallTimerExpiry readings) := of_none rfl
theorem setClassLevel (r : Req) (cls level : Byte) : Statement (.setClassLevel r cls level) :=
  of_parts rfl (fun _ => rfl)
theorem releaseLockout (r : Req) : Statement (.releaseLockout r) := of_parts rfl (fun _ => rfl)
theorem readIsolation (r : Req) : Statement (.readIsolation r) := of_parts rfl (fun _ => rfl)
theorem surge : Statement .surge := of_none rfl
theorem hazardAssert : Statement .hazardAssert := of_none rfl
theorem dwellExpiry : Statement .dwellExpiry := of_none rfl
theorem thermalAssert : Statement .thermalAssert := of_none rfl
theorem thermalDeassert : Statement .thermalDeassert := of_none rfl
theorem exchangeDcLowChange (low : Bool) : Statement (.exchangeDcLowChange low) := of_none rfl
theorem batteryWatchExpiry : Statement .batteryWatchExpiry := of_none rfl
theorem readLog (r : Req) (fromSeq : BitVec 32) (form : Byte) : Statement (.readLog r fromSeq form) :=
  of_parts rfl (fun _ => by
    simp [decodeRequest, readLogOperands, wordBytes, word_wordBytes])
theorem clearLog (r : Req) : Statement (.clearLog r) := of_parts rfl (fun _ => rfl)
theorem setLogPolicy (r : Req) (policy : Byte) : Statement (.setLogPolicy r policy) :=
  of_parts rfl (fun _ => rfl)
theorem readCapture (r : Req) : Statement (.readCapture r) := of_parts rfl (fun _ => rfl)
theorem clearCapture (r : Req) : Statement (.clearCapture r) := of_parts rfl (fun _ => rfl)
theorem setMasks (r : Req) (masks : Half) : Statement (.setMasks r masks) := of_parts rfl (fun _ => by
    simp [decodeRequest, oneHalf, halfBytes, half_halfBytes])
theorem setThreshold (r : Req) (threshold : Byte) : Statement (.setThreshold r threshold) :=
  of_parts rfl (fun _ => rfl)
theorem clearPending (r : Req) (classes : Half) : Statement (.clearPending r classes) :=
  of_parts rfl (fun _ => by
    simp [decodeRequest, oneHalf, halfBytes, half_halfBytes])
theorem startQuiet (r : Req) (seconds : Half) : Statement (.startQuiet r seconds) := of_parts rfl (fun _ => by
    simp [decodeRequest, oneHalf, halfBytes, half_halfBytes])
theorem endQuiet (r : Req) : Statement (.endQuiet r) := of_parts rfl (fun _ => rfl)
theorem quietExpiry : Statement .quietExpiry := of_none rfl
theorem mainsInputChange (asserted : Bool) : Statement (.mainsInputChange asserted) := of_none rfl
theorem reserveInputChange (asserted : Bool) : Statement (.reserveInputChange asserted) := of_none rfl
theorem readPower (r : Req) : Statement (.readPower r) := of_parts rfl (fun _ => rfl)
theorem saveSettings (r : Req) : Statement (.saveSettings r) := of_parts rfl (fun _ => rfl)
theorem writeCompletion (success : Bool) : Statement (.writeCompletion success) := of_none rfl
theorem hazardDeassert : Statement .hazardDeassert := of_none rfl
theorem supplyLoss : Statement .supplyLoss := of_none rfl
theorem modemBadLength (length : Byte) : Statement (.modemBadLength length) := of_none rfl

end Laws.Parts

end Sys2Proof
end

