-- ==== Sys2Proof/Laws/Requests.lean ====
section
/-! SUPPORT. Serving a request, said once: what `arrive` does where the frame is taken and where it is not
(R2, R4, R5, R6, R8, R10), and the same for each request's meaning. -/

namespace Sys2Proof.Machine

/-- A request whose frame is taken: its owner's answer enters its port. -/
theorem arrive_of_taken {i : Instr} {serve : Server} {s : State} (h : frameTaken i s) :
    arrive i serve s =
      answered i (serve (frameIn i s)).2.outcome (serve (frameIn i s)).2.results (serve (frameIn i s)).1 := by
  unfold frameTaken frameShape at h
  cases hq : requestParts i with
  | none => simp [hq] at h
  | some q =>
    obtain ⟨r, code, ops⟩ := q
    simp only [hq, Option.map_some] at h
    cases hp : r.channel.physPort with
    | gateway =>
      simp only [hp, portOpen] at h
      obtain ⟨h1, h2, h3⟩ := h
      have hs : s.gateway.shiftOut (4 + ops.length) = shiftedOut (4 + ops.length) s.gateway := by
        cases hh : s.gateway.held with
        | none => simp [GatewayPort.shiftOut, shiftedOut, GatewayPort.listens, h1, h2, hh]
        | some b => simp [GatewayPort.shiftOut, shiftedOut, GatewayPort.listens, h1, h2, hh, h3 b hh]
      have hf : frameIn i s = s.updGateway (·.shiftOut (4 + ops.length)) := by
        simp [frameIn, frameShape, hq, hp, State.updGateway, hs]
      have ht : (frameIn i s).gateway.takes = true := by
        simp [frameIn, frameShape, hq, hp, GatewayPort.takes, GatewayPort.listens, shiftedOut, h1, h2]
      simp only [arrive, hq, hp, gatewayTake, ← hf, ht, if_true]
      simp [respond, answered, frameShape, hq, hp, responseTo, responseFrame, State.updGateway]
    | modem =>
      simp only [hp, portOpen] at h
      obtain ⟨h1, h2, h3⟩ := h
      have hf : frameIn i s = s := by simp [frameIn, frameShape, hq, hp]
      have ht : s.modem.takes = true := by simp [ModemPort.takes, h1, h2, h3]
      simp only [arrive, hq, hp, modemTake, ht, if_true, hf]
      simp [respond, answered, frameShape, hq, hp, responseTo, responseFrame, State.updModem]

/-- A request whose frame is not taken has no effect but what its gateway transfer shifts out. -/
theorem arrive_not_taken {i : Instr} {serve : Server} {s : State} (h : ¬frameTaken i s) :
    arrive i serve s = s ∨
      ∃ n, frameShape i = some (.gateway, n) ∧ arrive i serve s = s.updGateway (·.shiftOut n) := by
  unfold frameTaken frameShape at h
  cases hq : requestParts i with
  | none => exact .inl (by simp [arrive, hq])
  | some q =>
    obtain ⟨r, code, ops⟩ := q
    simp only [hq, Option.map_some] at h
    cases hp : r.channel.physPort with
    | gateway =>
      refine .inr ⟨4 + ops.length, by simp [frameShape, hq, hp], ?_⟩
      have ht : (s.gateway.shiftOut (4 + ops.length)).takes = false := by
        simp only [hp, portOpen] at h
        by_cases hl : s.gateway.listens = true
        · cases hh : s.gateway.held with
          | none =>
            exfalso; apply h
            simp [GatewayPort.listens] at hl
            exact ⟨hl.1, hl.2, by simp [hh]⟩
          | some b =>
            have hn : ¬ b.length ≤ 4 + ops.length := fun hb => h (by
              simp [GatewayPort.listens] at hl
              exact ⟨hl.1, hl.2, fun x hx => by rw [hh] at hx; cases hx; exact hb⟩)
            simp [GatewayPort.shiftOut, hl, hh, hn, GatewayPort.takes]
        · simp [GatewayPort.shiftOut, hl, GatewayPort.takes]
          intro hx; exact absurd hx hl
      simp only [arrive, hq, hp, gatewayTake]
      simp [ht]
    | modem =>
      refine .inl ?_
      simp only [hp, portOpen] at h
      have ht : s.modem.takes = false := by
        by_contra hc
        simp [ModemPort.takes] at hc
        exact h ⟨hc.1, hc.2.1, hc.2.2⟩
      simp [arrive, hq, hp, modemTake, ht]

end Sys2Proof.Machine
end

