-- ==== Sys2Proof/Tests/Slice0.lean ====
section
/-! SUPPORT. Tests: ill-formed commands refused, worked examples of spec/ in small steps, and for every statement
with hypotheses a state and operands that meet them, clause by clause, at boundary values. -/

namespace Sys2Proof.Tests

open Sys2Proof Sys2Proof.Machine

/-! ## Helpers -/

/-- Requests of the three channels at their ceilings. -/
def gw : Req := ⟨.gateway, 1, 7⟩
def mm : Req := ⟨.management, 0, 7⟩
def md : Req := ⟨.modem, 2, 7⟩

/-- The state after a command. -/
def after (i : Instr) (s : State) : State :=
  match exec i s with
  | .next t => t
  | _ => s

/-- The gateway's response read, so that its port takes any frame again. -/
def drained (s : State) : State := s.updGateway (fun g => { g with held := none })

/-- The part running after a load that finds a blank image. -/
def up : State := after (.settingsLoadComplete true) State.reset

/-- At a timebase value. -/
def at_ (n : Nat) (s : State) : State := s.updClock (fun c => { c with timebase := BitVec.ofNat 32 n })

/-- A function held by a channel. -/
def held (f : Func) (c : Channel) (level : Nat) (s : State) : State := makeHold f c level none s

/-- Port 1 in LOCAL and held by GATEWAY. -/
def local1 : State :=
  (held .port1 .gateway 1 (up.updPort .p1 (fun q => { q with mode := .local_ }))).setRelays
    { up.relays with pass := ⟨.open_, .closed⟩, feed := ⟨.on, .off⟩ }

/-- Port 1 waiting to ring one cycle of cadence 1. -/
def rung : State := drained (after (.ring gw 1 1 1) local1)

/-- Port 1 in a burst. -/
def burst : State := after (.braced ⟨.modem, 2, 7⟩ 0) rung

/-- A CAPACITANCE test of GATEWAY waiting in NOTIFY. -/
def tested : State := drained (after (.runTest gw 4 0 0 []) (held .test .gateway 1 up))

/-- The same test in CONNECT. -/
def connected : State := after (.braced ⟨.modem, 2, 7⟩ 0) tested

/-- The same test in MEASURE. -/
def measuring : State := after (.changeSetComplete .testConnect) (at_ 20000 connected)

/-- A mode switch of port 1 to LOCAL in stage LEAD. -/
def switching : State := drained (after (.setMode gw 1 1 0) (held .port1 .gateway 1 up))

/-- The same switch in stage BREAK. -/
def broken : State := after (.braced ⟨.modem, 2, 7⟩ 0) switching

/-- Isolated by a surge. -/
def isolated : State := after .surge up

/-- Locked out by a second one. -/
def locked : State := after .surge isolated

/-- The tracker locked at 1 s with anchor 0, its first check due at 1.0405 s. -/
def lockedOn : State := up.updTracker (fun k => { k with
  state := .locked, anchor := 0, intervals := 4, period := 16000000, checkDue := some (us 1040500) })

/-- A feed in denial, waiting for its first probe. -/
def denied : State := after (.feedDenial .p1) (at_ 100000 (local1.updPort .p1 (fun q => { q with overload := some 0 })))

/-- A probe in progress. -/
def probing1 : State := after (.probeStart .p1) (at_ 10100000 denied)

/-- A DSL switch to COUPLED in its lead when an exchange test connects. -/
def coupling : State := setSlot .dsl (some ⟨1, .dslSwitch, none, .notified (us 40000), some 20, true⟩)
  (connected.setDsl (some ⟨.gateway, .coupled, 1⟩))

/-- Whether the port takes the request's frame, as a Bool. -/
def takes (i : Instr) (s : State) : Bool :=
  match frameShape i with
  | some (.gateway, n) =>
    s.gateway.ready && !s.gateway.resetInput && (s.gateway.held.all (fun h => decide (h.length ≤ n)))
  | some (.modem, _) => s.modem.ready && !s.modem.resetInput && decide (s.modem.responses.length < 4)
  | none => false

theorem taken {i : Instr} {s : State} (h : takes i s = true) : frameTaken i s := by
  unfold takes at h
  unfold frameTaken
  cases hf : frameShape i with
  | none => simp [hf] at h
  | some q =>
    obtain ⟨p, n⟩ := q
    cases p with
    | gateway =>
      simp only [hf, Bool.and_eq_true, Bool.not_eq_true'] at h
      exact ⟨h.1.1, h.1.2, fun b hb => by simpa [hb] using h.2⟩
    | modem =>
      simp only [hf, Bool.and_eq_true, Bool.not_eq_true', decide_eq_true_eq] at h
      exact ⟨h.1.1, h.1.2, h.2⟩

/-- The outcome code a taken request is answered with. -/
def outcome (i : Instr) (s : State) : Option Nat :=
  match frameShape i with
  | some (.gateway, _) => (after i s).gateway.held.map (fun l => (l.getD 2 0).toNat)
  | some (.modem, _) => (after i s).modem.responses.getLast?.map (fun l => (l.getD 2 0).toNat)
  | none => none

/-- The notices of a sort in a channel's queue. -/
def queued (c : Channel) (sort : Notice → Bool) (s : State) : List Notice := (s.channels.get c).queue.filter sort

/-! ## Well-formed commands -/

theorem test_wellFormed_transfer : (Instr.gatewayTransfer []).wellFormed = false := by decide
theorem test_wellFormed_modemFrame : (Instr.modemFrame [4, 1, 0]).wellFormed = false := by decide
theorem test_wellFormed_byteGap : (Instr.modemByteGapTimeout [4, 1, 0, 0]).wellFormed = false := by decide
theorem test_wellFormed_stopBit : (Instr.modemStopBitError [3]).wellFormed = false := by decide
theorem test_wellFormed_badLength : (Instr.modemBadLength 64).wellFormed = false := by decide
theorem test_wellFormed_cadence :
    (Instr.setCadence gw 0 4 (List.replicate 4 ⟨100, 100⟩)).wellFormed = false := by decide
theorem test_wellFormed_runTest :
    (Instr.runTest gw 1 0 0 (List.replicate 5 ⟨1, 0, 1⟩)).wellFormed = false := by decide
theorem test_wellFormed_installGate :
    (Instr.installGate mm 0 0 1 0 (List.replicate 5 ⟨1, 0, 1⟩)).wellFormed = false := by decide

/-! ## Frames (R7) -/

/-- DEFER of disturbance 0x11 by 50 ms from MODEM at level 2 with tag 9: 6 bytes, code 0x21. -/
theorem test_decode_defer : decodeFrame .modem [6, 0x21, 0x02, 9, 0x11, 50] = some (.defer ⟨.modem, 2, 9⟩ 0x11 50) := by
  decide

/-- CLAIM of TEST with a wait of 500 ms, least significant byte first. -/
theorem test_decode_claim :
    decodeFrame .gateway [8, 0x10, 0x01, 5, 3, 0xF4, 0x01, 0] = some (.claim ⟨.gateway, 1, 5⟩ 3 500 0) := by decide

/-- Bits 5-4 of the level byte are MANAGEMENT; a length that the request does not accept is refused. -/
theorem test_decode_channel : decodeFrame .modem [4, 0x98, 0x10, 1] = none ∧
    decodeFrame .modem [6, 0x98, 0x10, 1, 60, 0] = some (.startQuiet ⟨.management, 0, 1⟩ 60) := by decide

/-! ## Reset and supply -/

/-- A power-on with these pins and a blank memory is the reset state. -/
theorem test_powerOn_is_reset : exec (.powerOnReset .twoPorts) State.reset = .next State.reset := rfl

/-- The load of a blank image puts the factory values in force and asserts both ready outputs (R183, R186). -/
theorem test_load : settingsOf up = factorySettings ∧ up.store.loadResult = .blank ∧ up.gateway.ready = true ∧
    up.modem.ready = true ∧ up.phase = .running := by decide

/-- A read that is not completed loads every function at level 0 and logs STORE_FAULT at level 5 (R183). -/
theorem test_load_failed :
    let t := after (.settingsLoadComplete false) State.reset
    t.lines.table.tracker.level = 0 ∧ t.faults.log.map (fun x => (x.cls, x.level)) = [(.storeFault, 5)] := by decide

/-! ## Worked examples of the rules -/

/-- R121: an on time of 425 becomes 450, 412 becomes 400, 30 becomes 100, an off time of 9 000 becomes 6 000. -/
theorem test_cadence_rounding :
    (stepUsed ⟨425, 9000⟩, stepUsed ⟨412, 100⟩, stepUsed ⟨30, 100⟩) =
      (⟨450, 6000⟩, ⟨400, 100⟩, ⟨100, 100⟩) := by decide

/-- R108: pulse-max 200 with flash-max 200 is refused with OUT_OF_RANGE. -/
theorem test_hookTiming_outOfRange : outcome (.setHookTiming gw 1 30 20 200 200 300) local1 = some 21 := by decide

/-- R136: a capacitance of 2 150 with the constant 500 gives 4 300 m; 20 000 with 800 gives 25 000 m, saturated;
20 000 with 300 gives 65 535 m. -/
theorem test_length :
    (takeMeasurements .capacitance ⟨2150, 0, 0, 0⟩ 500 false).map (·.value) = [2150, 4300] ∧
    (takeMeasurements .capacitance ⟨30000, 0, 0, 0⟩ 800 false).map (fun m => (m.value, m.saturated)) =
      [(20000, true), (25000, true)] ∧
    (takeMeasurements .capacitance ⟨20000, 0, 0, 0⟩ 300 false).map (fun m => (m.value, m.saturated)) =
      [(20000, false), (65535, true)] := by decide

/-- R126: of two bursts on a change to BATTERY, the one that began later is cut. -/
theorem test_batteryCut :
    let two := setSession .p2 ((session burst .p1).map (fun x => { x with state := .burst 5 })) burst
    let t := after (.mainsInputChange false) (at_ 10 two)
    (inBurst t .p1, inBurst t .p2) = (true, false) := by decide

/-- R162, R163: a surge opens the line-break for a dwell of 2 000 ms; a second gives LOCKOUT. -/
theorem test_isolation : isolated.relays.lineBreak = .open_ ∧
    isolated.faults.isolation = .isolating 1 (some (us 2000000)) .surge 0 ∧
    locked.faults.isolation = .lockout .secondFault .surge 0 := by decide

/-- R51, R96: BRACED starts the switch: pass-through 1 opens and the supervisor is frozen. -/
theorem test_switch_breaks : broken.relays.pass.p1 = .open_ ∧ broken.ports.p1.sup.frozen = some .onHook ∧
    broken.ports.p1.mode = .toLocal := by decide

/-- R78: an unobscured window's check counts a miss; the check of the third such window in LOCKED gives COAST. -/
theorem test_windowCheck :
    let s := lockedOn.updTracker (fun k => { k with misses := 2, checked := 2, checkDue := some (us 3040500) })
    (after .windowCheck (at_ 3040500 s)).tracker.state = .coast := by decide

/-- R124, R125: the session's first burst starts at its activation and drives the generator. -/
theorem test_burst : inBurst burst .p1 = true ∧ burst.ring.generator = ⟨true, false⟩ ∧
    burst.ports.p1.sup.masked = true := by decide

/-- R141: the connect change set of an exchange test opens both pass-throughs and decouples the DSL path. -/
theorem test_connect : connected.relays.bus = .exchange ∧ connected.relays.pass = ⟨.open_, .open_⟩ ∧
    connected.relays.dsl = .decoupled ∧ measuring.engine.wallDue = some (us 620000) := by decide

/-! ## Witnesses: the queue and frames -/

theorem test_witness_StepRunsFrontCommand : (up.setPending [.surge]).pending = .surge :: [] := by decide

theorem test_witness_TimePassesOnAnEmptyQueue :
    (after .supplyLoss up).pending = [] ∧ (after .supplyLoss up).phase = .unpowered ∧
    (after .resetPinAssert up).pending = [] ∧ (after .resetPinAssert up).phase = .inReset ∧
    up.pending = [] ∧ up.phase = .running ∧ up.clock.subsecond < 999999 ∧
    ¬((up.updClock (fun c => { c with subsecond := 999999 })).clock.subsecond < 999999) := by decide

theorem test_witness_FrameRoundTrip : (Instr.readDial gw 2).wellFormed = true ∧
    requestParts (.readDial gw 2) = some (gw, 0x51, [2]) := by decide

theorem test_witness_FramesServeTheirRequest :
    encodeFrame (.readTime gw) = some [4, 5, 1, 7] ∧ gw.channel = .gateway ∧ up.gateway.partialFrame = [] ∧
    encodeFrame (.readTime md) = some [4, 5, 2, 7] ∧ md.channel ≠ .gateway ∧ up.modem.partialFrame = [] := by decide

/-- An unready port; a response not clocked out whole; a first byte 0x00; a frame of 3 bytes and one of 65; one
that no request has; on the modem port a channel field of 2 and an unknown code; a response to send. -/
theorem test_witness_PortsAnswerMalformedFrames :
    State.reset.gateway.ready = false ∧ State.reset.gateway.partialFrame = [] ∧
    (after (.readTime gw) up).gateway.held.map (·.length) = some 12 ∧ ([0] : List Byte).length < 12 ∧
    up.gateway.held = none ∧ ([0] : List Byte).headD 0 = 0 ∧ ([3, 1, 1] : List Byte).length < 4 ∧
    64 < (List.replicate 65 (1 : Byte)).length ∧ decodeFrame .gateway [4, 0xFF, 1, 7] = none ∧
    up.modem.responses.length < 4 ∧ 2 ≤ ((0x20 : Byte).toNat / 16 % 4) ∧ ((0x10 : Byte).toNat / 16 % 4) ≤ 1 ∧
    decodeFrame .modem [4, 0xFF, 0x10, 7] = none ∧
    (after (.readTime md) up).modem.responses.length = 1 := by decide

theorem test_witness_EachRequestIsAnsweredOnce :
    (isRequest (.identify gw) = true ∧ frameTaken (.identify gw) up) ∧
    (isRequest (.identify gw) = true ∧ ¬frameTaken (.identify gw) State.reset) ∧
    (isRequest (.identify md) = true ∧ ¬frameTaken (.identify md) State.reset) :=
  ⟨⟨rfl, taken (by decide)⟩, ⟨rfl, fun h => absurd h.1 (by decide)⟩, ⟨rfl, fun h => absurd h.1 (by decide)⟩⟩

theorem test_witness_ResponsesFitTheirFrame : isRequest (.readFunctions gw) = true ∧
    (Instr.readFunctions gw).wellFormed = true ∧ listsBounded up ∧ frameTaken (.readFunctions gw) up := by
  refine ⟨rfl, rfl, ⟨by decide, by decide, by decide, by decide, by decide, ?_, ?_, ?_⟩, taken (by decide)⟩
  · intro x h
    exact absurd h (by rw [show up.engine.result = none by decide]; nofun)
  · intro t l h
    exact absurd h (by rw [show up.engine.test = none by decide]; nofun)
  · intro n g h
    have hq : up.engine.gates = ⟨none, none, none, none⟩ := by decide
    rw [hq] at h
    match n with
    | 0 | 1 | 2 | _ + 3 => exact absurd h nofun

theorem test_witness_ReadsAnswerTheirFields : (readable (.readDial gw 2) up ∧ frameTaken (.readDial gw 2) up) ∧
    (readable (.queryFunction md 4) up ∧ frameTaken (.queryFunction md 4) up) ∧
    (readable (.readGates mm 3) up ∧ frameTaken (.readGates mm 3) up) ∧
    frameTaken (.identify gw) up ∧ frameTaken (.readTime gw) up ∧
    (((4 : Byte).toNat = funcNum .tracker) ∧ frameTaken (.queryFunction gw 4) up) ∧
    frameTaken (.readCapture gw) up ∧ frameTaken (.readPower gw) up ∧
    (frameTaken (.readPort gw 3) up ∧ readRefusal (.readPort gw 3) up = some .badRequest) ∧
    (frameTaken (.queryFunction gw 5) up ∧ readRefusal (.queryFunction gw 5) up = some .badFunction) ∧
    (frameTaken (.readDial gw 2) (up.setTwoPorts false) ∧
      readRefusal (.readDial gw 2) (up.setTwoPorts false) = some .notFitted) :=
  ⟨⟨.inr ⟨rfl, by decide⟩, taken (by decide)⟩, ⟨Nat.le_refl 4, taken (by decide)⟩, ⟨Nat.le_refl 3, taken (by decide)⟩,
    taken (by decide), taken (by decide), ⟨rfl, taken (by decide)⟩, taken (by decide), taken (by decide),
    ⟨taken (by decide), by decide⟩, ⟨taken (by decide), by decide⟩, ⟨taken (by decide), by decide⟩⟩

theorem test_witness_FetchTakesTheHead : frameTaken (.fetchNotices gw 255) up := taken (by decide)

theorem test_witness_SubscribeReplacesTheSet : frameTaken (.subscribe gw 0xFFFFFFFF) up := taken (by decide)

/-- A queue that holds a FORECAST; one of 15 notices; a full queue. -/
theorem test_witness_NoticesReachTheirChannels :
    let f : Notice := ⟨.forecast, 5, 0, 0, 0, 0⟩
    let h : Notice := ⟨.hook, 6, 1, 1, 0, 0⟩
    (f.kind = .forecast ∧ (⟨0, [] ++ f :: [], false⟩ : ChannelRec).queue = [] ++ f :: [] ∧ f.kind = f.kind) ∧
      ((⟨0, List.replicate 15 h, false⟩ : ChannelRec).queue.length < 16 ∧ f.kind.supersedes = true ∧
        (∀ x ∈ List.replicate 15 h, x.kind ≠ f.kind) ∧ inQueueOrder (List.replicate 15 h)) ∧
      ((⟨0, List.replicate 15 h ++ [h], false⟩ : ChannelRec).queue.length = 16 ∧ ¬(h.kind.supersedes = true)) ∧
      outranks h h = false ∧ outranks ⟨.disturb, 9, 0, 0, 0, 0⟩ h = true := by
  unfold inQueueOrder
  decide

/-- R15, R17: a HOOK joins between a DISTURB and a FORECAST; a full queue of HOOK gives its last up for a DISTURB. -/
theorem test_enqueue :
    let n (k : Kind) : Notice := ⟨k, k.level, 0, 0, 0, 0⟩
    (enqueue (n .hook) ⟨0, [n .disturb, n .forecast], false⟩).queue = [n .disturb, n .hook, n .forecast] ∧
      (enqueue (n .disturb) ⟨0, List.replicate 16 (n .hook), false⟩) =
        ⟨0, n .disturb :: List.replicate 15 (n .hook), true⟩ := by decide

/-- A ready port with one notice on MODEM; nothing in flight; a running part. -/
theorem test_witness_AttentionFollowsTheQueues :
    let s := up.updChannel .modem (fun c => { c with queue := [⟨.hook, 6, 1, 1, 0, 0⟩] })
    frameTaken (.fetchNotices md 1) s ∧ frameTaken (.fetchNotices md 0) s ∧ frameTaken (.channelReset md) s ∧
      attention s .modem = true ∧ attention s .gateway = false ∧ attention (after (.fetchNotices md 1) s) .modem = false ∧
      attention (after (.fetchNotices md 0) s) .modem = true ∧
      (s.lines.claims = [] ∧ s.engine.test = none ∧ ∀ p ∈ bothPorts, session s p = none) ∧
      s.phase = .running ∧ s.phase ≠ .unpowered := by
  refine ⟨taken (by decide), taken (by decide), taken (by decide), ?_⟩
  decide

/-- A released function with a claim of another channel for it, a free one, and one that another channel holds; a test
whose hold the reset takes, and one of the channel without the hold. -/
theorem test_witness_ChannelResetsReleaseEverything :
    let s := setClaims [⟨.management, .test, 0, 0⟩] (held .dsl .management 0 (held .test .gateway 1 up))
    frameTaken (.channelReset gw) s ∧ holderOf s .test = some .gateway ∧ holderOf s .tracker = none ∧
      holderOf s .dsl = some .management ∧ holderOf (after (.channelReset gw) s) .test = some .management ∧
      (after (.channelReset gw) s).lines.claims = [] ∧ up.phase = .running ∧ State.reset.phase = .loading ∧
      (tested.engine.test.map (·.phase) = some .notify ∧ holderOf tested .test = some .gateway) ∧
      ((connected.updLines (fun _ => up.lines)).engine.test.map (fun x => (x.requester, x.phase)) =
        some (.gateway, .connect) ∧ holderOf (connected.updLines (fun _ => up.lines)) .test = none) := by
  refine ⟨taken (by decide), ?_⟩
  decide

/-! ## Witnesses: line functions -/

/-- Function 5 is none; PORT2 not fitted; a level above the descriptor's; free; held by the channel; held by
another with no wait, with a wait, already waiting, and with a full queue. -/
theorem test_witness_ClaimIsDecidedInOrder :
    let busy := held .test .management 0 up
    let entry (f : Func) (n : Nat) : ClaimEntry := ⟨.gateway, f, n, 0⟩
    let full := setClaims (List.replicate 8 (entry .dsl 0)) busy
    frameTaken (.claim gw 3 500 0) up ∧ frameTaken (.claim gw 3 500 0) busy ∧
      (4 < (5 : Byte).toNat) ∧ (3 : Byte).toNat = funcNum .test ∧
      ((up.setTwoPorts false).twoPorts = false) ∧ (up.lines.table.get .test).level < effLevel md ∧
      effLevel gw ≤ (up.lines.table.get .test).level ∧ (up.lines.table.get .test).hold = none ∧
      holderOf (held .test .gateway 1 up) .test = some gw.channel ∧
      (holderOf busy .test = some .management ∧ (min (0 : Half).toNat 10000 = 0) ∧ min (500 : Half).toNat 10000 ≠ 0) ∧
      (entry .test 1 ∈ (setClaims [entry .test 1] busy).lines.claims) ∧
      (8 ≤ full.lines.claims.length ∧ full.lines.claims.all (fun x => !isClaim .gateway .test x) = true) ∧
      (setClaims (List.replicate 7 (entry .dsl 0)) busy).lines.claims.length < 8 ∧
      claimsOrdered (setClaims [entry .dsl 0, entry .dsl 1, entry .dsl 2] busy) := by
  refine ⟨taken (by decide), taken (by decide), ?_⟩
  unfold claimsOrdered
  decide

/-- A seize from MODEM; and one from GATEWAY with its test in NOTIFY under the hold, and in MEASURE. -/
theorem test_witness_SeizePassesTheFunction :
    let s := held .test .modem 2 up
    let h : Hold := ⟨.modem, 2, 0, none⟩
    frameTaken (.claim gw 3 0 1) s ∧ (3 : Byte).toNat = funcNum .test ∧
      effLevel gw ≤ (s.lines.table.get .test).level ∧ (s.lines.table.get .test).hold = some h ∧
      h.holder ≠ gw.channel ∧ (1 : Byte) ≠ 0 ∧ effLevel gw < h.level ∧
      (holderOf tested .test = some .gateway ∧ tested.engine.test.map (fun x => (targetFunc x.target, x.phase)) =
        some (.test, .notify)) ∧
      measuring.engine.test.map (fun x => (targetFunc x.target, x.phase, x.abort)) = some (.test, .measure, none) := by
  refine ⟨taken (by decide), ?_⟩
  decide

theorem test_witness_ReleasesAndDeadlinesMoveTheQueue :
    let e : ClaimEntry := ⟨.management, .test, 0, us 500000⟩
    let s := setClaims [e] (held .test .gateway 1 up)
    frameTaken (.release gw 5) s ∧ frameTaken (.release gw 3) s ∧ (4 < (5 : Byte).toNat) ∧
      holderOf s .test = some gw.channel ∧ holderOf up .test ≠ some gw.channel ∧
      s.lines.claims.find? (isClaim .management .test) = some e ∧
      reached (at_ 500000 s).now e.deadline = true ∧ reached (at_ 499999 s).now e.deadline = false := by
  refine ⟨taken (by decide), taken (by decide), ?_⟩
  decide

theorem test_witness_TightenLowersTheDescriptorLevel :
    let h : Hold := ⟨.gateway, 1, 0, none⟩
    let s := held .test .gateway 1 up
    frameTaken (.tighten mm 3 0 1) s ∧ effLevel mm = 0 ∧ 0 < effLevel gw ∧ (4 < (5 : Byte).toNat) ∧
      3 < (4 : Byte).toNat ∧ (3 : Byte).toNat = funcNum .test ∧
      (s.lines.table.get .test).level ≤ (1 : Byte).toNat ∧ (0 : Byte).toNat < (s.lines.table.get .test).level ∧
      claimsSound s ∧ (s.lines.table.get .test).hold = some h ∧ (1 : Byte) ≠ 0 ∧ (0 : Byte).toNat < h.level := by
  refine ⟨taken (by decide), by decide, by decide, by decide, by decide, by decide, by decide, by decide, ?_, ?_⟩
  · refine ⟨by decide, by decide, ?_⟩
    intro e h
    exact absurd h (by rw [show (held .test .gateway 1 up).lines.claims = [] by decide]; nofun)
  · decide

/-- The checks of SET DSL, and a DSL switch whose settle ends at 20 ms. -/
theorem test_witness_DslSwitchRuns :
    let s := held .dsl .gateway 1 up
    let a := after (.setDsl gw 0) s
    let b := at_ 60000 (after (.leadExpiry .dsl) (at_ 40000 a))
    let c := at_ 20000 (after .surge up)
    frameTaken (.setDsl gw 0) s ∧ (1 < (2 : Byte).toNat) ∧ (0 : Byte).toNat = couplingCode .decoupled ∧
      holderOf up .dsl ≠ some gw.channel ∧ holderOf s .dsl = some gw.channel ∧ connected.relays.bus = .exchange ∧
      s.relays.bus ≠ .exchange ∧ a.dsl.isSome = true ∧ s.dsl = none ∧
      ((s.setPower ⟨.reserve, false, true, some 0⟩).power.state = .reserve) ∧ s.relays.dsl = .coupled ∧
      s.relays.dsl ≠ .decoupled ∧ s.sched.slots.dsl = none ∧
      takeSettle b.now .dslSwitch b.settles = some [] ∧ b.dsl = some ⟨.gateway, .decoupled, 0⟩ ∧
      takeSettle up.now .dslSwitch up.settles = none ∧ takeSettle c.now .lineBreak c.settles = some [] := by
  refine ⟨taken (by decide), ?_⟩
  decide

theorem test_witness_ChangeSetsKeepTheBusRule :
    let c : Change := { noChange with pass := ⟨some .closed, none⟩ }
    ({ noChange with bus := some .exchange } : Change).bus = some .exchange ∧
      (c.bus = none ∧ connected.relays.bus = .exchange ∧ c.pass.p1 = some .closed) ∧
      (c.bus ≠ some .exchange ∧ up.relays.bus ≠ .exchange) ∧ connected.sched.windows.length + 3 ≤ 8 := by decide

/-- R59, R118, R141: the windows of a switch's break change set at 0, of an exchange test's CONNECT at 0, and of a loop
change at 9 ms with the pass-through CLOSED. -/
theorem test_windows_opened :
    let hook := after (.loopChange .p1 .passThrough true) (at_ 9000 up)
    broken.sched.windows = [⟨0 - us 5000, some (us 70000), 0 - us 5000, .relay, none, some 0, [], false⟩] ∧
      connected.sched.windows = [⟨0 - us 5000, none, 0 - us 5000, .test, none, some 0, [.test], false⟩,
        ⟨0 - us 5000, some (us 70000), 0 - us 5000, .relay, none, some 0, [], false⟩] ∧
      hook.sched.windows = [⟨us 4000, some (us 39000), us 4000, .hook, some .p1, none, [], false⟩] := by decide

/-- R141, R144: an exchange test with port 1 in LOCAL leaves the bus: its pass-through stays OPEN, port 2's
closes, no feed moves, and the DSL path is coupled as before the test. -/
theorem test_release_relays :
    let s := after (.abortTest gw) (drained (connected.updPort .p1 (fun q => { q with mode := .local_ })))
    connected.engine.test.bind (·.preTest) = some .coupled ∧ connected.relays.dsl = .decoupled ∧
      s.relays = ⟨.closed, ⟨.open_, .closed⟩, ⟨.off, .off⟩, .coupled, .disconnected⟩ := by decide

/-! ## Witnesses: settings -/

theorem test_witness_SettingsAndTablesTakeTheirValues :
    frameTaken (.setLead gw 501) up ∧ frameTaken (.setCable gw 299) up ∧
      frameTaken (.setExchangeRingCount gw 16) up ∧ frameTaken (.setClassLevel gw 13 8) up ∧
      frameTaken (.setLogPolicy gw 2) up ∧ frameTaken (.setCadence gw 3 1 [⟨425, 9000⟩]) up ∧
      frameTaken (.setCadence gw 4 0 []) up ∧ frameTaken (.installGate mm 3 3 5 2 []) up ∧
      frameTaken (.installGate mm 4 0 5 2 []) up ∧ frameTaken (.removeGate mm 3) up ∧
      1 < effLevel md ∧ effLevel gw ≤ 1 ∧ (2 : Byte).toNat < 3 ∧
      13 < (14 : Byte).toNat ∧ FaultClass.ringFault.num = (13 : Byte).toNat ∧ 3 ≤ FaultClass.ringFault.num ∧
      1 < (2 : Byte).toNat ∧ (1 : Byte).toNat ≤ 1 ∧ 3 < (4 : Byte).toNat ∧
      ([⟨425, 9000⟩] : List StepArg).length = (1 : Byte).toNat ∧ effLevel mm = 0 ∧ 0 < effLevel gw ∧
      orderOf 6 0 [] = none ∧ orderOf 5 2 [] = some (.homeRingers, .home .p2, []) ∧
      (up.setTwoPorts false).twoPorts = false ∧ up.twoPorts = true := by
  refine ⟨taken (by decide), taken (by decide), taken (by decide), taken (by decide), taken (by decide),
    taken (by decide), taken (by decide), taken (by decide), taken (by decide), taken (by decide), ?_⟩
  decide

/-! ## Witnesses: disturbances and blanking -/

/-- The switch's record 0 is NOTIFIED and deferrable; deferred once it is DEFERRED; braced it is ACTIVE; a forced
switch's is not deferrable; id 9 is none's. -/
theorem test_witness_DeferMovesTheDeadlineOnce :
    let forced := after (.setMode gw 1 1 1) (held .port1 .gateway 1 up)
    let deferred := after (.defer md 0 50) switching
    frameTaken (.defer md 0 50) switching ∧ frameTaken (.defer gw 0 50) (at_ 1 up) ∧ md.channel = .modem ∧
      gw.channel ≠ .modem ∧
      slotRec switching .port1 = some ⟨0, .modeSwitch, some .p1, .notified (us 40000), some 40, true⟩ ∧
      slotRec deferred .port1 = some ⟨0, .modeSwitch, some .p1, .deferred (us 90000), some 40, true⟩ ∧
      slotRec broken .port1 = some ⟨0, .modeSwitch, some .p1, .active 0, some 40, true⟩ ∧
      slotRec forced .port1 = some ⟨0, .modeSwitch, some .p1, .notified (us 40000), some 40, false⟩ ∧
      allSlots.all (fun j => j = .port1 || slotRec switching j = none) = true ∧
      slotWithId switching 9 = none := by
  refine ⟨taken (by decide), taken (by decide), ?_⟩
  decide

/-- A switch's record in its lead and after it; a DSL switch to COUPLED whose lead runs out under an exchange test. -/
theorem test_witness_RecordsBecomeActiveOnce :
    let d : Disturbance := ⟨0, .modeSwitch, some .p1, .notified (us 40000), some 40, true⟩
    frameTaken (.braced md 0) switching ∧ frameTaken (.braced md 0) broken ∧
      slotRec switching .port1 = some d ∧ isActive d = false ∧ leadDeadline d = some (us 40000) ∧
      reached (at_ 40000 switching).now (us 40000) = true ∧ reached (at_ 39999 switching).now (us 40000) = false ∧
      (slotRec broken .port1).all isActive = true ∧ (slotRec up .dsl).isNone = true ∧
      (coupling.dsl = some ⟨.gateway, .coupled, 1⟩ ∧ coupling.relays.bus = .exchange ∧
        slotRec coupling .dsl = some ⟨1, .dslSwitch, none, .notified (us 40000), some 20, true⟩ ∧
        slotRec (after (.leadExpiry .dsl) (at_ 40000 coupling)) .dsl = none) := by
  refine ⟨taken (by decide), taken (by decide), ?_⟩
  decide

theorem test_witness_RecordsOpenAndEnd :
    (slotRec switching .port1).isSome = true ∧ slotRec up .port1 = none ∧
    slotRec broken .port1 = some ⟨0, .modeSwitch, some .p1, .active 0, some 40, true⟩ ∧
    (slotRec switching .port1).all (fun d => !isActive d) = true := by decide

theorem test_witness_DepartingWindowsMarkPredictions :
    let w : Window := ⟨0, some 100, 100, .hook, none, none, [], false⟩
    let s := up.updSched (fun k => { k with windows := [w] })
    s.sched.windows = [] ++ w :: [] ∧ w.stop = some 100 ∧ offset (at_ 40101 s).now 100 ≤ -40001 ∧
      removable (at_ 40100 s).now w = false := by decide

/-! ## Witnesses: the tracker -/

theorem test_witness_EdgesAreMergedQueuedOrDropped :
    let one := after .impulseEdge up
    let full := up.updTracker (fun k => { k with edges := List.replicate 16 0 })
    up.phase = .running ∧ up.tracker.enable = true ∧
      (up.updTracker (fun k => { k with enable := false })).tracker.enable = false ∧
      one.tracker.deadTimer.isSome = true ∧ up.tracker.deadTimer = none ∧ up.tracker.edges.length < 16 ∧
      16 ≤ full.tracker.edges.length ∧ timerDue (at_ 2000 one).now one.tracker.deadTimer = true ∧
      timerDue (at_ 1999 one).now one.tracker.deadTimer = false := by decide

/-- An edge queued at 0 is due at 40 000; the states SEARCH and ACQUIRE; intervals at both ends of their bands. -/
theorem test_witness_EdgesTeachTheTracker :
    let one := at_ 40000 (after .impulseEdge up)
    let acq (i c : Nat) : State := one.updTracker (fun k => { k with
      state := .acquire, anchor := 0 - us i, intervals := c, period := 16000000 })
    one.tracker.edges = 0 :: [] ∧ reached one.now (0 + us 40000) = true ∧
      reached (at_ 39999 one).now (0 + us 40000) = false ∧ blankedAt one 0 = false ∧
      blankedAt (one.updSched (fun k => { k with windows := [⟨0, none, 0, .test, none, none, [.test], false⟩] })) 0 = true ∧
      one.tracker.state = .search ∧ (acq 299999 0).tracker.state = .acquire ∧
      ((0 : Time) - (acq 299999 0).tracker.anchor).toNat < 300000 ∧
      300000 ≤ ((0 : Time) - (acq 300000 0).tracker.anchor).toNat ∧
      4000000 < ((0 : Time) - (acq 4000001 0).tracker.anchor).toNat ∧
      ((0 : Time) - (acq 500000 1).tracker.anchor).toNat + (acq 500000 1).tracker.tolerance <
        (acq 500000 1).tracker.periodUs ∧
      (acq 1000000 1).tracker.periodUs + (acq 1000000 1).tracker.tolerance <
        ((0 : Time) - (acq 2000000 1).tracker.anchor).toNat ∧
      ((0 : Time) - (acq 1000000 3).tracker.anchor).toNat = (acq 1000000 3).tracker.periodUs ∧
      (acq 1000000 3).tracker.intervals + 1 = 4 ∧ (acq 1000000 2).tracker.intervals + 1 < 4 := by decide

/-- A hit on the second predicted pulse, and a stray midway, in LOCKED. -/
theorem test_witness_EdgesHoldTheLock :
    let hit := at_ 2040000 (lockedOn.updTracker (fun k => { k with edges := [us 2000000] }))
    let off := at_ 1540000 (lockedOn.updTracker (fun k => { k with edges := [us 1500000], strayRun := 7 }))
    hit.tracker.edges = us 2000000 :: [] ∧ hit.tracker.state = .locked ∧
      reached hit.now (us 2000000 + us 40000) = true ∧ blankedAt hit (us 2000000) = false ∧
      off.tracker.edges = us 1500000 :: [] ∧ reached off.now (us 1500000 + us 40000) = true ∧
      off.tracker.strayRun = 7 ∧ off.tracker.halfWidth = 500 := by decide

theorem test_witness_TrackerTimersExpire :
    let acq := up.updTracker (fun k => { k with state := .acquire, acquireDue := some (us 4040000) })
    let last := lockedOn.updTracker (fun k => { k with checked := 7, misses := 7, checkDue := some (us 8040500) })
    timerDue (at_ 4040000 acq).now acq.tracker.acquireDue = true ∧
      timerDue (at_ 4039999 acq).now acq.tracker.acquireDue = false ∧ acq.tracker.edges.head? = none ∧
      timerDue (at_ 1040500 lockedOn).now lockedOn.tracker.checkDue = true ∧
      timerDue (at_ 1040499 lockedOn).now lockedOn.tracker.checkDue = false ∧ lockedOn.tracker.state = .locked ∧
      (4800000 ≤ last.tracker.period ∧ last.tracker.period ≤ 64000000 ∧ last.tracker.checked ≤ 7 ∧
        last.tracker.misses ≤ last.tracker.checked) ∧ last.tracker.checked + 1 = 8 ∧
      timerDue (at_ 8040500 last).now last.tracker.checkDue = true := by decide

/-- The last clause of TrackerTimersExpire: an edge on the last instant of the first window, and its check due. -/
theorem test_witness_TrackerTimersExpire_edge :
    let s := at_ 1040500 (lockedOn.updTracker (fun k => { k with edges := [us 1000500] }))
    trackerSound s.tracker ∧ s.tracker.state = .locked ∧
      s.tracker.edges = s.tracker.windowStop (s.tracker.checked + 1) :: [] ∧
      s.tracker.checkDue = some (s.tracker.checkTime (s.tracker.checked + 1)) ∧
      reached s.now (s.tracker.checkTime (s.tracker.checked + 1)) = true ∧
      blankedAt s (s.tracker.windowStop (s.tracker.checked + 1)) = false := by
  refine ⟨?_, by decide⟩
  exact ⟨by decide, by decide, by decide, by decide⟩

/-- An edge exactly at L + 4 000 000 with the ACQUIRE expiry due, and the same edge blanked. -/
theorem test_witness_TrackerTimersExpire_acquire :
    let s := at_ 4040000 (up.updTracker (fun k => { k with
      state := .acquire, acquireDue := some (us 4040000), edges := [us 4000000] }))
    let b := s.updSched (fun k => { k with windows := [⟨0, none, us 4000000, .test, none, none, [.test], false⟩] })
    trackerSound s.tracker ∧ s.tracker.state = .acquire ∧ s.tracker.anchor = 0 ∧
      s.tracker.acquireDue = some (0 + us 4000000 + us 40000) ∧ reached s.now (0 + us 4000000 + us 40000) = true ∧
      s.tracker.edges = (0 + us 4000000) :: [] ∧ blankedAt s (0 + us 4000000) = false ∧
      b.tracker = s.tracker ∧ blankedAt b (0 + us 4000000) = true :=
  ⟨⟨by decide, .inl (by decide)⟩, by decide⟩

/-- An edge that begins learning, a hit, and a stray; an expiry and a check that are due; the TRACKER holder's
requests, among them a restart with enable OFF in LOCKED. -/
theorem test_witness_ForecastFollowsTheTracker :
    let hit := at_ 2040000 (lockedOn.updTracker (fun k => { k with edges := [us 2000000] }))
    let stray := at_ 1540000 (lockedOn.updTracker (fun k => { k with edges := [us 1500000] }))
    let one := at_ 40000 (after .impulseEdge up)
    let acq := at_ 4040000 (up.updTracker (fun k => { k with state := .acquire, acquireDue := some (us 4040000) }))
    let own := held .tracker .gateway 1 up
    let off := held .tracker .gateway 1 (lockedOn.updTracker (fun k => { k with enable := false }))
    (reached hit.now (us 2000000 + us 40000) = true ∧
      (after .edgeClassification hit).tracker.counts.hit ≠ hit.tracker.counts.hit) ∧
    (after .edgeClassification stray).tracker.counts.hit = stray.tracker.counts.hit ∧
    (after .edgeClassification one).tracker.state ≠ one.tracker.state ∧
    (timerDue acq.now acq.tracker.acquireDue = true ∧ (after .acquireExpiry acq).tracker.state = .search) ∧
    timerDue (at_ 1040500 lockedOn).now lockedOn.tracker.checkDue = true ∧
    (frameTaken (.trackerConfig gw 0 500) own ∧ (0 : Byte).toNat ≤ 1 ∧ holderOf own .tracker = some gw.channel ∧
      own.tracker.enable ≠ decide ((0 : Byte).toNat = 1)) ∧
    (frameTaken (.trackerRestart gw) own ∧ own.tracker.enable = true) ∧
    (frameTaken (.trackerRestart gw) off ∧ off.tracker.enable = false ∧ off.tracker.state ≠ .search) ∧
    ((own.channels.get .modem).subs.getLsbD 14 = true ∧ (own.channels.get .modem).queue.length ≤ 12) := by
  refine ⟨by decide, by decide, by decide, by decide, by decide, ⟨taken (by decide), by decide⟩,
    ⟨taken (by decide), by decide⟩, ⟨taken (by decide), by decide⟩, by decide⟩

/-- R81: locked with anchor 0, period 1 s and half-width 500 µs, the table holds W_1 to W_4; after the check of W_5 it
holds W_6 to W_8. -/
theorem test_forecast :
    let s := at_ 5040500 (lockedOn.updTracker (fun k => { k with checked := 4, checkDue := some (us 5040500) }))
    (forecastFor 0 lockedOn.tracker).map (fun w => (w.number, w.start, w.stop)) =
      [(1, us 999500, us 1000500), (2, us 1999500, us 2000500), (3, us 2999500, us 3000500),
        (4, us 3999500, us 4000500)] ∧
      (after .windowCheck s).tracker.forecast.map (·.number) = [6, 7, 8] := by decide

/-- R81, R87: a restart with enable OFF that finds the tracker locked empties the table. -/
theorem test_restart_off :
    let s := held .tracker .gateway 1 (lockedOn.updTracker (fun k => { k with
      enable := false, forecast := forecastFor 0 lockedOn.tracker }))
    s.tracker.forecast.length = 4 ∧ (after (.trackerRestart gw) s).tracker.forecast = [] ∧
      (after (.trackerRestart gw) s).tracker.state = .search := by decide

theorem test_witness_TrackerRequestsAct :
    let s := held .tracker .gateway 1 up
    frameTaken (.trackerConfig gw 0 10001) s ∧ frameTaken (.trackerRestart gw) s ∧
      frameTaken (.readAndClearEdgeCounts gw) s ∧ 1 < (2 : Byte).toNat ∧ holderOf up .tracker ≠ some gw.channel ∧
      holderOf s .tracker = some gw.channel ∧ s.tracker.enable = decide ((1 : Byte).toNat = 1) ∧
      s.tracker.enable ≠ decide ((0 : Byte).toNat = 1) := by
  refine ⟨taken (by decide), taken (by decide), taken (by decide), ?_⟩
  decide

/-! ## Witnesses: ports and hook supervision -/

/-- Each refusal of SET MODE for port 1, and an acceptance with a lead and with a lead of 0. -/
theorem test_witness_SetModeIsDecidedInOrder :
    let s := held .port1 .gateway 1 up
    let off := s.updSup .p1 (fun u => { u with state := .offHook })
    frameTaken (.setMode gw 1 1 0) s ∧ frameTaken (.setMode gw 3 1 0) s ∧ 2 < (3 : Byte).toNat ∧
      1 < (2 : Byte).toNat ∧ (1 : Byte).toNat = portNum .p1 ∧ (1 : Byte).toNat = PlainMode.local_.code ∧
      (up.setTwoPorts false).twoPorts = false ∧ holderOf up .port1 ≠ some gw.channel ∧
      holderOf s .port1 = some gw.channel ∧ local1.ports.p1.mode = .local_ ∧ s.ports.p1.mode ≠ .local_ ∧
      switching.ports.p1.switch.isSome = true ∧ s.ports.p1.switch = none ∧
      (s.setPower ⟨.reserve, false, true, some 0⟩).power.state = .reserve ∧ s.power.state ≠ .reserve ∧
      connected.relays.bus = .exchange ∧ s.ports.p1.underTest = false ∧ off.ports.p1.sup.state ≠ .onHook ∧
      1 < effLevel md ∧ (session s .p1).isSome = false ∧ slotRec s .port1 = none ∧
      (session rung .p1).isSome = true ∧ rung.ports.p1.switch = none ∧ rung.ports.p1.mode ≠ .lifeline ∧
      s.sched.lead ≠ 0 ∧ (s.updSched (fun k => { k with lead := 0 })).sched.lead = 0 := by
  refine ⟨taken (by decide), taken (by decide), ?_⟩
  decide

/-- A switch to LOCAL at its break and at its make; one to LIFELINE at its break, under the bus and not. -/
theorem test_witness_SwitchRunsBreakBeforeMake :
    let b := at_ 20000 broken
    let m := at_ 40000 (after (.changeSetComplete (.modeSwitch .p1)) b)
    let home := b.updPort .p1 (fun q => { q with switch := q.switch.map (fun w => { w with target := .lifeline }) })
    takeSettle b.now (.modeSwitch .p1) b.settles = some [] ∧
      b.ports.p1.switch = some ⟨.lifeline, .local_, .gateway, false, 0, .break_⟩ ∧ portFitted b .p1 = true ∧
      (slotRec b .port1).map (·.id) = some 0 ∧ takeSettle m.now (.modeSwitch .p1) m.settles = some [] ∧
      m.ports.p1.switch.map (·.stage) = some .make ∧ m.relays.feed.p1 = .on ∧
      home.ports.p1.switch.map (·.target) = some .lifeline ∧ home.relays.bus ≠ .exchange ∧
      (home.setRelays { home.relays with bus := .exchange }).relays.bus = .exchange := by decide

/-- R100 step 5: a supervisor that an ACTIVE switch froze off hook is forced to ON_HOOK and stays frozen. -/
theorem test_denial_of_a_frozen_supervisor :
    let s := at_ 100000 ((local1.updPort .p1 (fun q => { q with overload := some 0 })).updSup .p1
      (fun u => { u with state := .offHook, frozen := some .offHook }))
    let t := after (.feedDenial .p1) s
    (t.ports.p1.sup.state, t.ports.p1.sup.frozen) = (.onHook, some .offHook) ∧
      (t.channels.get .gateway).queue.all (fun n => n.kind ≠ .hook) = true := by decide

theorem test_witness_OverloadDeniesAndProbes :
    let s := local1.updPort .p1 (fun q => { q with overload := some 0 })
    let d : Denial := ⟨us 100000, .waiting (us 10100000), 0⟩
    let e : Denial := ⟨us 100000, .probing (us 10300000), 0⟩
    up.phase = .running ∧ portFitted up .p1 = true ∧ s.ports.p1.overload = some 0 ∧
      reached (at_ 100000 s).now (0 + ms 100) = true ∧ reached (at_ 99999 s).now (0 + ms 100) = false ∧
      denied.ports.p1.denial = some d ∧ reached (at_ 10100000 denied).now (us 10100000) = true ∧
      reached (at_ 10099999 denied).now (us 10100000) = false ∧ probing1.ports.p1.denial = some e ∧
      reached (at_ 10300000 probing1).now (us 10300000) = true ∧
      reached (at_ 10299999 probing1).now (us 10300000) = false ∧ probing1.pins.overLimit.p1 = false ∧
      (probing1.updPins (fun x => { x with overLimit := ⟨true, false⟩ })).pins.overLimit.p1 = true := by decide

theorem test_witness_HookTimingAndDialRequests :
    frameTaken (.setHookTiming gw 1 9 4 200 201 201) local1 ∧ frameTaken (.clearDial gw 1) local1 ∧
      frameTaken (.clearDial gw 0) local1 ∧ (0 : Byte).toNat = 0 ∧ 2 < (3 : Byte).toNat ∧
      (1 : Byte).toNat = portNum .p1 ∧ (up.setTwoPorts false).twoPorts = false ∧
      holderOf up .port1 ≠ some gw.channel ∧ holderOf local1 .port1 = some gw.channel ∧
      ((clampTiming 9 4 200 201 201).consistent = true) ∧ (clampTiming 9 4 200 200 201).consistent = false := by
  refine ⟨taken (by decide), taken (by decide), taken (by decide), ?_⟩
  decide

/-- The hook states with the loop the other way, and breaks of 19 999, 20 000, 120 000, 120 001, 899 999 and 900 000 µs
against glitch 20, pulse-max 120 and flash-max 900 ms. -/
theorem test_witness_LoopChangesMoveTheHookState :
    let brk (n : Nat) : State := at_ n (up.updSup .p1 (fun u => { u with state := .break_ }))
    let made (s : State) : State := s.updPins (fun x => { x with loopPass := ⟨true, false⟩ })
    let len (n : Nat) : Nat := ((brk n).now - (brk n).ports.p1.sup.breakStart).toNat
    up.phase = .running ∧ portFitted up .p1 = true ∧ up.ports.p1.sup.frozen = none ∧
      up.ports.p1.sup.masked = false ∧ loopSource up .p1 ≠ none ∧
      loopReading (made up) .p1 ≠ up.ports.p1.sup.loop ∧ loopReading up .p1 = up.ports.p1.sup.loop ∧
      up.ports.p1.sup.state = .onHook ∧ (brk 5).ports.p1.sup.state = .break_ ∧ len 19999 < 20 * 1000 ∧
      20 * 1000 ≤ len 20000 ∧ len 120000 ≤ 120 * 1000 ∧ 120 * 1000 < len 120001 ∧ len 899999 < 900 * 1000 ∧
      900 * 1000 ≤ len 900000 ∧ (brk 5).ports.p1.sup.breakTiming = ⟨30, 20, 120, 900, 300⟩ ∧
      up.relays.pass.p1 = .closed ∧ local1.relays.pass.p1 = .open_ ∧ up.sched.windows.length + 1 ≤ 8 := by decide

theorem test_witness_HookTimersExpire :
    let z := up.updSup .p1 (fun u => { u with
      seizeTimer := .running (ms 30), breakTimer := .running (ms 30), gapTimer := .running (ms 30), pulses := 10 })
    let q (n : Nat) := ((at_ n z).port .p1).sup
    (q 29999).seizeTimer.isDue (at_ 29999 z).now = false ∧ (q 29999).breakTimer.isDue (at_ 29999 z).now = false ∧
      (q 29999).gapTimer.isDue (at_ 29999 z).now = false ∧ (q 30000).seizeTimer.isDue (at_ 30000 z).now = true ∧
      (q 30000).breakTimer.isDue (at_ 30000 z).now = true ∧ (q 30000).gapTimer.isDue (at_ 30000 z).now = true ∧
      z.engine.test = none ∧ (z.port .p1).switch = none := by decide

/-- A seizure with an ordinary switch of the port in LEAD; with a non-forced exchange test in NOTIFY, CONNECT and
MEASURE while the port is in the lifeline condition; and with a forced one, which it does not reach. -/
theorem test_witness_HookTimersExpire_reaches :
    let z (s : State) : State := at_ 30000 (s.updSup .p1 (fun u => { u with state := .seizing, seizeTimer := .running (ms 30) }))
    let x := tested.engine.test.getD (newTest ⟨.capacitance, .exchange, [], .gateway, none, false, false⟩ 0)
    ((z switching).ports.p1.switch = some ⟨.lifeline, .local_, .gateway, false, 0, .lead⟩ ∧
      (slotRec (z switching) .port1).map (fun d => (d.id, isActive d)) = some (0, false) ∧
      ((z switching).channels.get .gateway).queue.length ≤ 9 ∧ (z switching).engine.test = none) ∧
    ((z tested).engine.test = some x ∧ x.phase = .notify ∧ x.abort = none ∧
      x.target = .exchange ∧ x.forced = false ∧ lifelineCond (z tested) .p1 = true) ∧
    ((z connected).engine.test.map (fun y => (y.phase, y.abort)) = some (.connect, none) ∧
      lifelineCond (z connected) .p1 = true) ∧
    (measuring.engine.test.map (fun y => (y.phase, y.abort)) = some (.measure, none) ∧
      lifelineCond measuring .p1 = true) ∧
    ¬({ x with forced := true } : Test).forced = false := by decide

/-- R95, R118, R146: the seizure cancels the switch, and takes the connected exchange test off the bus. -/
theorem test_seizure :
    let z (s : State) : State := at_ 30000 (s.updSup .p1 (fun u => { u with state := .seizing, seizeTimer := .running (ms 30) }))
    (after (.seizeTimerExpiry .p1) (z switching)).ports.p1.switch = none ∧
      (after (.seizeTimerExpiry .p1) (z switching)).ports.p1.mode = .lifeline ∧
      (after (.seizeTimerExpiry .p1) (z connected)).relays.bus = .disconnected ∧
      (after (.seizeTimerExpiry .p1) (z tested)).engine.result.map (·.abort) = some (some .hookAbort) := by decide

/-! ## Witnesses: ringing -/

theorem test_witness_RingRequestsAct :
    let thermal := local1.updPins (fun x => { x with thermal := true })
    frameTaken (.ring gw 1 1 1) local1 ∧ frameTaken (.stopRing gw 1) rung ∧ frameTaken (.ring gw 3 1 1) local1 ∧
      2 < (3 : Byte).toNat ∧ (1 : Byte).toNat = portNum .p1 ∧ (up.setTwoPorts false).twoPorts = false ∧
      holderOf up .port1 ≠ some gw.channel ∧ holderOf local1 .port1 = some gw.channel ∧ 3 < (4 : Byte).toNat ∧
      local1.ring.cadences.get 2 = [] ∧ local1.ring.cadences.get 1 ≠ [] ∧ up.ports.p1.mode ≠ .local_ ∧
      local1.ports.p1.mode = .local_ ∧ local1.ports.p1.underTest = false ∧
      (local1.updPort .p1 (fun q => { q with underTest := true })).ports.p1.underTest = true ∧
      (local1.setPower ⟨.reserve, false, true, some 0⟩).power.state = .reserve ∧ local1.power.state ≠ .reserve ∧
      thermal.pins.thermal = true ∧ local1.pins.thermal = false ∧ denied.ports.p1.denial.isSome = true ∧
      local1.ports.p1.sup.state = .onHook ∧ local1.ports.p1.denial = none ∧ (session rung .p1).isSome = true ∧
      session local1 .p1 = none ∧ slotRec local1 .port1 = none := by
  refine ⟨taken (by decide), taken (by decide), taken (by decide), ?_⟩
  decide

/-- The burst of cadence 1 ends at 1 000 ms; its off time at 5 000 ms ends the session's one cycle; a session of two
cycles and of two steps goes on, with and without a free generator. -/
theorem test_witness_RingSessionsRun :
    let off := after (.ringPhaseTimerExpiry .p1) (at_ 1000000 burst)
    let x := (session off .p1).getD ⟨.notifying, [], 0, 0, none, 0, 0, .modem, 0, none, none⟩
    (session burst .p1).bind (·.phaseDue) = some (us 1000000) ∧
      reached (at_ 1000000 burst).now (us 1000000) = true ∧ reached (at_ 999999 burst).now (us 1000000) = false ∧
      inBurst burst .p1 = true ∧ session off .p1 = some x ∧ x.state = .silent false ∧
      x.phaseDue = some (us 5000000) ∧ x.steps.length ≤ x.stepIndex ∧ x.cyclesLeft = some 1 ∧
      (({ x with cyclesLeft := some 2 } : RingSession).cyclesLeft = some 2) ∧
      (({ x with steps := x.steps ++ x.steps } : RingSession).stepIndex < (x.steps ++ x.steps).length) ∧
      off.power.state = .mains ∧ inBurst (setSession .p2 (session burst .p1) off) .p2 = true := by decide

/-- R125: on BATTERY an on time of port 1 that falls due at the instant at which port 2's burst began. -/
theorem test_witness_RingSessionsRun_together :
    let s := at_ 5000000 (after (.mainsInputChange false) (after (.ringPhaseTimerExpiry .p1) (at_ 1000000 burst)))
    let s := (setSession .p1 ((session s .p1).map (fun x => { x with cyclesLeft := some 2 })) s)
    let two := setSession .p2 ((session burst .p1).map (fun x => { x with state := .burst (us 5000000) })) s
    let t := after (.ringPhaseTimerExpiry .p1) two
    two.power.state = .battery ∧ (session two .p1).bind (·.phaseDue) = some (us 5000000) ∧
      (session two .p1).map (·.state) = some (.silent false) ∧ inBurst two .p2 = true ∧
      (inBurst t .p1, inBurst t .p2) = (true, false) ∧
      (session t .p2).map (fun x => (x.state, x.skipped)) = some (.silent true, 1) := by decide

theorem test_witness_TripsAndRingFaultsEndSessions :
    let t := after (.ringTripInputChange .p1 true) burst
    let f := after (.ringCurrentLimitChange true) burst
    burst.phase = .running ∧ (session t .p1).bind (·.tripDue) = some (us 40000) ∧
      reached (at_ 40000 t).now (us 40000) = true ∧ reached (at_ 39999 t).now (us 40000) = false ∧
      inBurst (at_ 40000 t) .p1 = true ∧ t.engine.test = none ∧ (t.port .p1).sup.state = .onHook ∧
      timerDue (at_ 200000 f).now f.ring.faultDue = true ∧ timerDue (at_ 199999 f).now f.ring.faultDue = false ∧
      inBurst f .p1 = true ∧ inBurst f .p2 = false := by decide

/-- The trip of a port under a seizure that reaches a test: a home test of port 1 in NOTIFY. -/
theorem test_witness_TripsAndRingFaultsEndSessions_reaches :
    let t := at_ 40000 (after (.ringTripInputChange .p1 true) burst)
    let x := newTest ⟨.homeRingers, .home .p1, [], .gateway, none, false, false⟩ 0
    let s := t.updEngine (fun e => { e with test := some x })
    s.engine.test = some x ∧ x.target = .home .p1 ∧ x.phase = .notify ∧ x.abort = none ∧
      inBurst s .p1 = true ∧ (s.port .p1).sup.state = .onHook ∧ (session s .p1).bind (·.tripDue) = some (us 40000) := by decide

theorem test_witness_ExchangeRingingIsCounted :
    let on := after .exchangeRingOnset up
    let off := after .exchangeRingOffset on
    up.phase = .running ∧ isolated.relays.lineBreak = .open_ ∧ up.relays.lineBreak = .closed ∧
      ordinaryExchangeTest up = false ∧ ordinaryExchangeTest tested = true ∧ up.ring.exchange.burstOn = false ∧
      on.ring.exchange.burstOn = true ∧
      (on.sched.windows.length ≤ 8 ∧ on.sched.windows.map (fun w => (w.keys, w.stop)) = [([.exchangeBurst], none)]) ∧
      timerDue (at_ 8000000 off).now off.ring.exchange.gapDue = true ∧
      timerDue (at_ 7999999 off).now off.ring.exchange.gapDue = false := by decide

/-! ## Witnesses: tests -/

theorem test_witness_RunTestIsDecidedInOrder :
    let s := held .test .gateway 1 up
    let off := s.updSup .p1 (fun u => { u with state := .offHook })
    let home := held .port1 .gateway 1 up
    frameTaken (.runTest gw 4 0 0 []) s ∧ frameTaken (.runTest gw 5 1 0 []) home ∧ tested.engine.test.isSome = true ∧
      s.engine.test = none ∧ orderOf 0 0 [] = none ∧ orderOf 4 0 [] = some (.capacitance, .exchange, []) ∧
      orderOf 5 1 [] = some (.homeRingers, .home .p1, []) ∧ (up.setTwoPorts false).twoPorts = false ∧
      (s.setPower ⟨.reserve, false, true, some 0⟩).power.state = .reserve ∧ s.power.state ≠ .reserve ∧
      isolated.faults.isolation ≠ .normal ∧ s.faults.isolation = .normal ∧
      holderOf up .test ≠ some gw.channel ∧ holderOf s .test = some gw.channel ∧ 0 < effLevel gw ∧
      (portFitted off .p1 = true ∧ lifelineCond off .p1 = true ∧ (off.port .p1).sup.state = .offHook) ∧
      (∀ p ∈ bothPorts, (s.port p).sup.state = .onHook) ∧ s.ring.exchange.ringing = false ∧
      switching.ports.p1.switch.isSome = true ∧ home.ports.p1.switch = none ∧ session home .p1 = none ∧
      (slotRec tested .test).isSome = true ∧ slotRec s .test = none ∧ slotRec home .port1 = none := by
  refine ⟨taken (by decide), taken (by decide), ?_⟩
  decide

theorem test_witness_GatedTestsUseTheirGate :
    let g : Gate := ⟨2, .capacitance, .exchange, []⟩
    let s := setGate 3 (some g) up
    let own := held .test .gateway 1 s
    let other := held .test .management 0 s
    frameTaken (.runGatedTest gw 3) s ∧ frameTaken (.runGatedTest gw 3) own ∧ frameTaken (.runGatedTest gw 3) other ∧
      3 < (4 : Byte).toNat ∧ (3 : Byte).toNat ≤ 3 ∧ up.engine.gates.get 3 = none ∧ s.engine.gates.get 3 = some g ∧
      ((⟨0, .capacitance, .exchange, []⟩ : Gate).level < effLevel gw) ∧ effLevel gw ≤ g.level ∧
      s.engine.test = none ∧ tested.engine.test.isSome = true ∧ s.power.state ≠ .reserve ∧
      s.faults.isolation = .normal ∧ (s.lines.table.get .test).hold = none ∧
      (s.lines.table.get .test).level < effLevel md ∧ effLevel gw ≤ (s.lines.table.get .test).level ∧
      holderOf own .test = some gw.channel ∧ holderOf other .test = some .management ∧
      slotRec s .test = none := by
  refine ⟨taken (by decide), taken (by decide), taken (by decide), ?_⟩
  decide

/-- ABORT TEST in every phase; the clean timer at S + 300 ms and the wall timer at S + 600 ms with S = 20 ms, with
clean times of M, of M / 2 and below it; two intervals in order, which touch. -/
theorem test_witness_TestsAreAbortedOrMeasured :
    let release := drained (after (.abortTest gw) measuring)
    let x := measuring.engine.test.getD (newTest ⟨.capacitance, .exchange, [], .gateway, none, false, false⟩ 0)
    let y (m : Nat) : Test := { x with exclusions := [(0, m)] }
    frameTaken (.abortTest gw) up ∧ frameTaken (.abortTest gw) release ∧ frameTaken (.abortTest gw) tested ∧
      frameTaken (.abortTest gw) connected ∧ frameTaken (.abortTest gw) measuring ∧ up.engine.test = none ∧
      (md.channel ≠ x.requester ∧ 0 < effLevel md) ∧ gw.channel = x.requester ∧
      release.engine.test.map (·.phase) = some .release ∧
      tested.engine.test.map (fun t => (t.phase, t.abort)) = some (.notify, none) ∧
      connected.engine.test.map (fun t => (t.phase, t.abort)) = some (.connect, none) ∧
      measuring.engine.test = some x ∧ x.phase = .measure ∧ x.abort = none ∧
      timerDue (at_ 320000 measuring).now measuring.engine.cleanDue = true ∧
      timerDue (at_ 319999 measuring).now measuring.engine.cleanDue = false ∧
      timerDue (at_ 620000 measuring).now measuring.engine.wallDue = true ∧
      timerDue (at_ 619999 measuring).now measuring.engine.wallDue = false ∧
      cleanOver (y 300000).exclusions none 600000 = 300000 ∧ cleanOver (y 450000).exclusions none 600000 = 150000 ∧
      cleanOver (y 450001).exclusions none 600000 = 149999 ∧
      ((∀ i ∈ [(2, 5), (5, 9)], i.1 ≤ i.2) ∧ [(2, 5), (5, 9)].Pairwise (fun a b : Nat × Nat => a.2 ≤ b.1) ∧
        cleanOver [(2, 5), (5, 9)] (some 11) 12 = 4) := by
  refine ⟨taken (by decide), taken (by decide), taken (by decide), taken (by decide), taken (by decide), ?_⟩
  decide

/-- Every window of the connected test, read at the completion of its change set, runs forward. -/
theorem test_windows_forward : windowsForward (at_ 20000 connected) := by
  have h : ∀ w ∈ (at_ 20000 connected).sched.windows,
      w.stop.all (fun stop => decide (offset (at_ 20000 connected).now w.start ≤ offset (at_ 20000 connected).now stop)) =
        true := by decide
  refine ⟨by decide, fun w hw stop hs => ?_⟩
  have h' := h w hw
  rw [hs] at h'
  exact of_decide_eq_true h'

/-- An exchange test whose connect change set completes, with an empty record and every window forward; the same in
MEASURE, which a completion ignores. -/
theorem test_witness_TestChangeSetsComplete :
    let c := at_ 20000 connected
    let late := measuring.setSettles [⟨.testConnect, 0⟩]
    windowsForward c ∧ takeSettle c.now .testConnect c.settles = some [] ∧
      c.engine.test.map (fun x => (x.phase, x.exclusions)) = some (.connect, []) ∧
      c.tracker.forecast.length ≤ 4 ∧ c.sched.windows.length ≤ 8 ∧
      takeSettle late.now .testConnect late.settles = some [] ∧
      late.engine.test.map (·.phase) = some .measure :=
  ⟨test_windows_forward, by decide⟩

/-- A state in which the change set that takes a test off the bus is complete. -/
def releasing (x : Test) : State :=
  at_ 1000000 ((up.updEngine (fun e => { e with test := some { x with phase := .release } })).setSettles
    [⟨.testRelease, 0⟩])

/-- A test in RELEASE, ungated, and gated by gate 3 with the grant held; a detached release, and none. -/
theorem test_witness_TestChangeSetsComplete_release :
    let own := releasing (newTest ⟨.capacitance, .exchange, [], .gateway, none, false, false⟩ 0)
    let gone := held .test .gateway 1 (releasing (newTest ⟨.capacitance, .exchange, [], .gateway, some 3, true, false⟩ 0))
    let det := (own.updEngine (fun e => { e with test := none, detached := some ⟨true⟩ })).setSettles
      [⟨.detachedRelease, 0⟩]
    (takeSettle own.now .testRelease own.settles = some [] ∧ own.engine.test.map (·.phase) = some .release ∧
      own.engine.test.map (·.granted) = some false) ∧
    (takeSettle gone.now .testRelease gone.settles = some [] ∧
      gone.engine.test.map (fun x => (x.phase, x.granted, x.viaGate)) = some (.release, true, some 3) ∧
      (gone.lines.table.get .test).hold.map (·.holder) = some .gateway) ∧
    (takeSettle det.now .detachedRelease det.settles = some [] ∧ det.engine.detached = some ⟨true⟩) ∧
    up.engine.detached = none := by decide

/-- R143 to R145: a LOOP value of 500 against limits of 0 to 499 is FAIL, against 0 to 500 PASS, and the test is over. -/
theorem test_release_outcomes :
    let x (high : Int) : Test := newTest ⟨.loopDc, .exchange, [⟨1, 0, high⟩], .gateway, none, false, false⟩ 0
    let y (high : Int) : Test := { x high with values := some [⟨1, 500, false, false, none⟩] }
    let t (high : Int) : State := after (.changeSetComplete .testRelease) (releasing (y high))
    (t 499).engine.result.map (·.outcome) = some .fail ∧ (t 500).engine.result.map (·.outcome) = some .pass ∧
      (t 499).faults.log.map (·.cls) = [.testFail] ∧ (t 500).faults.log = [] ∧ (t 500).engine.test = none := by decide

/-! ## Witnesses: faults, power and reset -/

theorem test_witness_IsolationFollowsHardFaults :
    let second := after .dwellExpiry (at_ 2000000 (isolated.updPins (fun x => { x with hazard := true })))
    frameTaken (.releaseLockout mm) locked ∧ frameTaken (.releaseLockout mm) up ∧ up.phase = .running ∧
      up.faults.isolation = .normal ∧ isolated.faults.isolation = .isolating 1 (some (us 2000000)) .surge 0 ∧
      locked.faults.isolation = .lockout .secondFault .surge 0 ∧
      timerDue (at_ 2000000 isolated).now (some (us 2000000)) = true ∧
      timerDue (at_ 1999999 isolated).now (some (us 2000000)) = false ∧ isolated.pins.hazard = false ∧
      second.faults.isolation = .isolating 2 (some (us 4000000)) .surge 0 ∧ second.pins.hazard = true ∧
      0 < effLevel gw ∧ effLevel mm = 0 ∧ locked.pins.hazard = false := by
  refine ⟨taken (by decide), taken (by decide), ?_⟩
  decide

theorem test_witness_DetectorsRaiseTheirFaults :
    let low := after (.exchangeDcLowChange true) up
    up.phase = .running ∧ (session burst .p1).isSome = true ∧ session up .p1 = none ∧
      low.faults.watch.started = some 0 ∧ up.faults.watch.started = none ∧
      reached (at_ 5000000 low).now (0 + ms 5000) = true ∧
      reached (at_ 4999999 low).now (0 + ms 5000) = false := by decide

/-- A coalescing record 10 s old and one 11 s old; a full log under both policies; a level-0 class; a held class. -/
theorem test_witness_FaultsAreLoggedAndNoticed :
    let f : Raised := ⟨.thermal, none, some 0, some 0, 0⟩
    let one := takeFault f up
    let full := one.updFaults (fun u => { u with log := List.replicate 32 (newRecord 1 0 3 { f with cls := .mainsLost }) })
    let off := up.updFaults (fun u => { u with levels := { u.levels with thermal := 0 } })
    up.faults.taking = false ∧ isolated.faults.taking = false ∧ (beginTaking up).faults.taking = true ∧
      levelOf off.faults.levels f.cls = 0 ∧ levelOf up.faults.levels f.cls ≠ 0 ∧
      one.faults.log.length = 1 ∧ ((10 : BitVec 32) - 0).toNat ≤ 10 ∧ ¬(((11 : BitVec 32) - 0).toNat ≤ 10) ∧
      full.faults.log.length = 32 ∧ up.faults.policy = .keepNewest ∧
      (up.faults.channels.get .modem).masks.getLsbD FaultClass.thermal.num = true ∧
      (up.faults.channels.get .gateway).masks.getLsbD FaultClass.thermal.num = false := by decide

/-- R176: the end of the quiet period hands the latch it held as a latched FAULT and keeps a masked one. -/
theorem test_latch_release :
    let l (c : FaultClass) : Latch := ⟨c, 9, 4, none, false, false⟩
    let s := (updFaultChannel .modem (fun k => { k with latches := [l .strayRun, l .thermal] }) up).updFaults
      (fun u => { u with quiet := some 60 })
    let t := after (.endQuiet mm) s
    (t.channels.get .modem).queue = [latchNotice 0 (l .strayRun)] ∧
      (t.faults.channels.get .modem).latches = [l .thermal] := by decide

theorem test_witness_FaultSettingsAct :
    let q := after (.startQuiet gw 60) up
    frameTaken (.setMasks gw 0) up ∧ frameTaken (.setThreshold gw 8) up ∧ frameTaken (.clearPending gw 0xFFFF) up ∧
      frameTaken (.startQuiet gw 0) up ∧ frameTaken (.endQuiet mm) q ∧ frameTaken (.endQuiet gw) up ∧
      frameTaken (.clearLog gw) up ∧ frameTaken (.clearCapture gw) up ∧ 1 < effLevel md ∧ effLevel gw ≤ 1 ∧
      up.faults.quiet = none ∧ q.faults.quiet = some 60 ∧
      timerDue (q.updClock (fun c => { c with uptime := 60 })).uptime q.faults.quiet = true ∧
      timerDue (q.updClock (fun c => { c with uptime := 59 })).uptime q.faults.quiet = false ∧
      ((takeFault ⟨.thermal, none, none, none, 0⟩ q).faults.channels.get .modem).latches.map (·.cls) = [.thermal] ∧
      (q.faults.channels.get .modem).masks.getLsbD FaultClass.thermal.num = true := by
  refine ⟨taken (by decide), taken (by decide), taken (by decide), taken (by decide), taken (by decide),
    taken (by decide), taken (by decide), taken (by decide), ?_⟩
  decide

/-- R103, R106, R110 (log entry 46): at the fallback port 1 in LOCAL stands in BREAK since 200 ms or 900 ms and the
pass-through finds the loop: a flash, and a release, before the restart at SEIZING. -/
theorem test_fallback_break :
    let s := (local1.updSup .p1 (fun u => { u with state := .break_ })).updPins (fun x => { x with
      loopPass := x.loopPass.set .p1 true })
    let t (n : Nat) := after (.mainsInputChange false) (after (.reserveInputChange true) (at_ n s))
    (queued .gateway (hookOf .p1 5) (t 200000), queued .gateway (hookOf .p1 1) (t 200000)) =
        ([⟨.hook, 6, 1, 0x52, us 200000, 0⟩], []) ∧
      (t 200000).ports.p1.dial = [.flash] ∧ (t 200000).ports.p1.sup.state = .seizing ∧
      (queued .gateway (hookOf .p1 5) (t 900000), queued .gateway (hookOf .p1 1) (t 900000)) =
        ([], [⟨.hook, 6, 1, 0x10, us 900000, 0⟩]) := by decide

/-- Every entry of the table of R179 from MAINS, BATTERY and RESERVE; two bursts on MAINS; a port with none; a DSL
switch under way. -/
theorem test_witness_PowerInputsMoveTheState :
    let two := setSession .p2 ((session burst .p1).map (fun x => { x with state := .burst 5 })) burst
    let battery := after (.mainsInputChange false) up
    let reserve := after (.reserveInputChange true) battery
    up.phase = .running ∧ up.power.state = .mains ∧ battery.power.state = .battery ∧
      reserve.power.state = .reserve ∧ (after (.reserveInputChange true) up).power.state = .mains ∧
      (after (.mainsInputChange true) battery).power.state = .mains ∧
      (after (.mainsInputChange true) reserve).power = ⟨.mains, true, true, none⟩ ∧
      (after (.reserveInputChange false) reserve).power = ⟨.battery, false, false, some 0⟩ ∧
      (two.power.state = .mains ∧ burstBegan two .p1 = some 0 ∧ burstBegan two .p2 = some 5) ∧
      (∀ p ∈ bothPorts, inBurst local1 p = false) ∧ local1.ports.p1.mode = .local_ ∧ coupling.dsl.isSome = true ∧
      dslSlotted coupling := by
  unfold dslSlotted
  decide

theorem test_witness_SavesWriteTheCopy :
    let save := after (.saveSettings gw) up
    frameTaken (.saveSettings gw) up ∧ 1 < effLevel md ∧ effLevel gw ≤ 1 ∧
      (up.setPower ⟨.reserve, false, true, some 0⟩).power.state = .reserve ∧ up.power.state ≠ .reserve ∧
      save.store.saving = some ⟨settingsOf up, .gateway, 0⟩ ∧ up.store.saving = none := by
  refine ⟨taken (by decide), ?_⟩
  decide

/-- R167, R183, R186: a power-on with the hazard input asserted, and an image of disagreeing bytes: ISOLATION START_UP
at the load's end with 2 000 ms of dwell, STORE_FAULT and HAZARD_VOLTAGE in the log. -/
theorem test_startUp :
    let s := after (.powerOnReset .twoPorts) ((State.reset.updPins (fun x => { x with hazard := true })).updStore
      (fun x => { x with image := .disagreeing }))
    let t := after (.settingsLoadComplete true) (at_ 9 s)
    s.faults.isolation = .isolating 1 none .hazardVoltage 0 ∧ s.engine.test = none ∧ faultsIdle s ∧
      t.faults.isolation = .isolating 1 (some (us 2000009)) .hazardVoltage 0 ∧
      queued .gateway (unplannedOf 4) t = [⟨.unplanned, 7, 4, 0, us 9, 1⟩] ∧
      queued .management (ofKind .isolation) t = [⟨.isolation, 8, 1, 7, us 9, 0x0101⟩] ∧
      t.store.loadResult = .checkFailed ∧ t.faults.log.map (·.cls) = [.storeFault, .hazardVoltage] := by
  unfold faultsIdle
  decide

/-- A part that loads, found in order and not; in reset with the hazard input asserted and not, and in LOCKOUT. -/
theorem test_witness_SupplyAndResetsRestartThePart :
    let bad : Settings := { factorySettings with lead := 501 }
    up.phase ≠ .loading ∧ State.reset.phase = .loading ∧ State.reset.store.image = .blank ∧
      factorySettings.valid = true ∧ bad.valid = false ∧ (after .supplyLoss up).phase = .unpowered ∧
      (after .resetPinAssert up).phase = .inReset ∧ up.phase ≠ .inReset ∧ up.faults.isolation = .normal ∧
      (after .resetPinAssert locked).faults.isolation = .lockout .secondFault .surge 0 ∧
      State.reset.faults.isolation = .normal ∧
      ((after .resetPinAssert up).updPins (fun x => { x with hazard := true })).pins.hazard = true := by decide

/-! ## Notices handed, from the tables of the rules -/

/-- R34: RELEASE of TEST at 7 µs grants it to MANAGEMENT's claim at level 0; GATEWAY's seize from MODEM at level 2
tells MODEM, reason SEIZED, by channel 2. No queue has lost a notice, as `hands` asks. -/
theorem test_notices_line :
    let s := setClaims [⟨.management, .test, 0, us 500000⟩] (held .test .gateway 1 (at_ 7 up))
    let t := after (.release gw 3) s
    let u := after (.claim gw 3 0 1) (held .test .modem 2 (at_ 7 up))
    queued .management (ofKind .claimGranted) t = [⟨.claimGranted, 6, 3, 0, us 7, 0⟩] ∧
      queued .modem (ofKind .holdRevoked) u = [⟨.holdRevoked, 6, 3, 1, us 7, 0x0202⟩] ∧
      (∀ c ∈ allChannels, (t.channels.get c).lost = false ∧ (u.channels.get c).lost = false) := by decide

/-- R57, R158, R162, R164: a surge at 7 µs in NORMAL: UNPLANNED ISOLATION_OPEN and ISOLATION OPENED, dwell 1, of class
0, and one record of SURGE; a second one is LOCKOUT_FAULT, and LOCKOUT, class 2, is logged before it. -/
theorem test_notices_isolation :
    let s := after .surge (at_ 7 up)
    queued .gateway (unplannedOf 4) s = [⟨.unplanned, 7, 4, 0, us 7, 0⟩] ∧
      queued .management (ofKind .isolation) s = [⟨.isolation, 8, 1, 1, us 7, 0x0100⟩] ∧
      queued .management (ofKind .isolation) (after .surge s) =
        [⟨.isolation, 8, 1, 1, us 7, 0x0100⟩, ⟨.isolation, 8, 2, 4, us 7, 0⟩] ∧
      s.faults.log.map (·.cls) = [.surge] ∧ (after .surge s).faults.log.map (·.cls) = [.surge, .lockout, .surge] ∧
      (∀ c ∈ allChannels, (s.channels.get c).lost = false) ∧ faultsIdle up ∧ faultsIdle s := by
  unfold faultsIdle
  decide

/-- R110, R111, R117: port 1 in LOCAL, three pulses counted, the loop made after a break of 200 ms: DIGIT 3 as entry 1,
then FLASH as entry 2. -/
theorem test_notices_flash :
    let s := at_ 200000 (local1.updSup .p1 (fun u => { u with state := .break_, pulses := 3 }))
    let t := after (.loopChange .p1 .feedCurrent true) s
    lifelineCond s .p1 = false ∧ t.ports.p1.dial = [.digit 3, .flash] ∧
      queued .gateway (ofKind .digit) t = [⟨.digit, 3, 1, 0, us 200000, 0x010303⟩,
        ⟨.digit, 3, 1, 2, us 200000, 0x02000A⟩] := by decide

/-- R127, R129: a trip at 40 ms of a session of GATEWAY with record id 0: HOOK TRIP off hook, ANSWERED TRIP, RING_END
ANSWERED. -/
theorem test_notices_trip :
    let t := after (.tripTimerExpiry .p1) (at_ 40000 (after (.ringTripInputChange .p1 true) burst))
    queued .gateway (hookOf .p1 2) t = [⟨.hook, 6, 1, 0x21, us 40000, 0⟩] ∧
      (queued .gateway (ofKind .answered) t).map (fun n => (n.subject, n.flags, n.timestamp)) = [(1, 1, us 40000)] ∧
      (queued .gateway (ofKind .ringEnd) t).map (fun n => (n.subject, n.flags, n.timestamp)) = [(1, 3, us 40000)] ∧
      (∀ c ∈ allChannels, (t.channels.get c).lost = false) := by decide

/-- R83, R84: the eighth window, missed with seven misses before: TRACK_STATE LOST with 8 misses at 1 s, and TRACK_LOST. -/
theorem test_notices_lost :
    let t := after .windowCheck (at_ 8040500 (lockedOn.updTracker (fun k => { k with
      checked := 7, misses := 7, checkDue := some (us 8040500) })))
    queued .gateway (ofKind .trackState) t = [⟨.trackState, 4, 0, 4, us 8040500, 0x080F4240⟩] ∧
      t.faults.log.map (fun r => (r.cls, r.detail1, r.detail2)) = [(.trackLost, some 1000000, some 8)] := by decide

/-- R98, R116, R180: the reserve fallback of port 1 in LOCAL and off hook at 7 µs: UNPLANNED RESERVE_FALLBACK, HOOK
POWER, and MAINS_LOST before BATTERY_RESERVE. -/
theorem test_notices_reserve :
    let s := at_ 7 (local1.updSup .p1 (fun u => { u with state := .offHook }))
    let t := after (.mainsInputChange false) (after (.reserveInputChange true) s)
    queued .gateway (unplannedOf 6) t = [⟨.unplanned, 7, 6, 0, us 7, 0⟩] ∧
      queued .gateway (hookOf .p1 5) t = [⟨.hook, 6, 1, 0x52, us 7, 0⟩] ∧
      t.faults.log.map (·.cls) = [.mainsLost, .batteryReserve] ∧
      (∀ c ∈ allChannels, (t.channels.get c).lost = false) := by decide

/-! ## Witnesses: the conditions every step keeps -/

/-- A state with one command waiting steps to what the command makes of it. -/
theorem step_after {c : Instr} {s t : State} (h : exec c (s.setPending []) = .next t) :
    step (s.setPending [c]) = .next (after c (s.setPending [])) := by
  have h' : step (s.setPending [c]) = .next t := h
  rw [h', after, h]

/-- Queues that hold DISTURB and UNPLANNED, before a surge hands more. -/
theorem test_witness_NoticeQueuesStaySound :
    queuesSound (connected.setPending [.surge]) ∧ (connected.channels.get .gateway).queue ≠ [] ∧
      step (connected.setPending [.surge]) = .next (after .surge (connected.setPending [])) := by
  refine ⟨fun c => ?_, by decide, rfl⟩
  cases c <;> refine ⟨by decide, by unfold inQueueOrder; decide, fun k hk => ?_⟩ <;> cases k <;>
    first | exact absurd hk (by decide) | decide

/-- The test bus at EXCHANGE; the line isolated; a DSL switch in its lead. -/
theorem test_witness_RelaysStaySafe :
    (busSafe (connected.setPending [.surge]) ∧ connected.relays.bus = .exchange ∧
      step (connected.setPending [.surge]) = .next (after .surge (connected.setPending []))) ∧
    (breakOpen (isolated.setPending [.surge]) ∧ isolated.faults.isolation ≠ .normal ∧
      step (isolated.setPending [.surge]) = .next (after .surge (isolated.setPending []))) ∧
    (dslSlotted (coupling.setPending [.surge]) ∧ coupling.dsl.isSome = true ∧
      step (coupling.setPending [.surge]) = .next (after .surge (coupling.setPending []))) :=
  ⟨⟨fun _ => by decide, by decide, rfl⟩, ⟨fun _ => by decide, by decide, rfl⟩, ⟨fun _ => by decide, by decide, rfl⟩⟩

/-- GATEWAY waits for a function that MANAGEMENT holds and now releases. -/
theorem test_witness_ClaimQueueStaysSound :
    let s := setClaims [⟨.gateway, .test, 1, 500000⟩] (held .test .management 0 up)
    claimsSound (s.setPending [.release mm 3]) ∧ claimsOrdered (s.setPending [.release mm 3]) ∧
      step (s.setPending [.release mm 3]) = .next (after (.release mm 3) (s.setPending [])) := by
  refine ⟨⟨by decide, by decide, fun e he => ⟨.management, ?_⟩⟩, by unfold claimsOrdered; decide, rfl⟩
  obtain rfl : e = ⟨.gateway, .test, 1, 500000⟩ := by simpa [setClaims, State.setPending, State.updLines] using he
  decide

/-- A locked tracker, before a check that is due. -/
theorem test_witness_TrackerStaysSound :
    let s := at_ 1040500 lockedOn
    countsSum s.tracker.counts ∧ trackerSound s.tracker ∧ s.tracker.state = .locked ∧
      step (s.setPending [.windowCheck]) = .next (after .windowCheck (s.setPending [])) :=
  ⟨by unfold countsSum; decide, by show 4800000 ≤ 16000000 ∧ 16000000 ≤ 64000000 ∧ 0 ≤ 7 ∧ 0 ≤ 0; decide, by decide, rfl⟩

/-- A log that holds a SURGE, the factory settings, and latches in natural order. -/
theorem test_witness_LogAndSettingsStaySound :
    latchesOrdered (takeFault ⟨.thermal, none, none, none, 0⟩ (takeFault ⟨.strayRun, none, none, none, 0⟩ up)) ∧
      latchesOrdered isolated ∧ logSound isolated.faults ∧ isolated.faults.log ≠ [] ∧ settingsSound isolated ∧ faultsIdle isolated ∧
      step (isolated.setPending [.surge]) = .next (after .surge (isolated.setPending [])) := by
  refine ⟨fun c => by cases c <;> decide, fun c => by cases c <;> decide, ⟨by decide, ?_, by decide⟩, by decide,
    by unfold settingsSound; decide, ⟨by decide, by decide⟩, rfl⟩
  show consecutive isolated.faults.nextSeq [_]
  unfold consecutive
  decide

/-- Port 1 in a burst on BATTERY with its trip timer running, its supervisor masked, before the reserve input asserts. -/
theorem test_witness_RingingStaysPowered :
    let s := after (.ringTripInputChange .p1 true) (after (.mainsInputChange false) burst)
    ringPowered s ∧ s.power.state = .battery ∧ inBurst s .p1 = true ∧ supervisorsStill s ∧ tripsInBurst s ∧
      (session s .p1).bind (·.tripDue) = some (us 40000) ∧
      step (s.setPending [.reserveInputChange true]) =
        .next (after (.reserveInputChange true) (s.setPending [])) := by
  refine ⟨?_, by decide, by decide, fun p _ => ?_, fun p x h _ => ?_, by decide, step_after rfl⟩
  · rw [ringPowered,
      show (after (.ringTripInputChange .p1 true) (after (.mainsInputChange false) burst)).power.state = .battery by
        decide]
    decide
  · cases p <;> decide
  · cases p with
    | p1 => decide
    | p2 =>
      rw [show session (after (.ringTripInputChange .p1 true) (after (.mainsInputChange false) burst)) .p2 = none by
        decide] at h
      exact absurd h nofun

/-- A list with a closed and an open window, before a window more. -/
theorem test_witness_WindowsAndListsStayBounded :
    windowsSound connected.sched.windows ∧ connected.sched.windows ≠ [] ∧ listsBounded connected ∧
      step (connected.setPending [.surge]) = .next (after .surge (connected.setPending [])) := by
  refine ⟨⟨by decide, by decide, by decide⟩, by decide,
    ⟨by decide, by decide, by decide, by decide, by decide, ?_, ?_, ?_⟩, rfl⟩
  · intro x h
    exact absurd h (by rw [show connected.engine.result = none by decide]; nofun)
  · intro t l h hv
    have ht : connected.engine.test.bind (·.values) = none := by decide
    rw [h, Option.bind_some, hv] at ht
    exact absurd ht nofun
  · intro n g h
    have hq : connected.engine.gates = ⟨none, none, none, none⟩ := by decide
    rw [hq] at h
    match n with
    | 0 | 1 | 2 | _ + 3 => exact absurd h nofun

end Sys2Proof.Tests
end

