-- ==== Sys2Proof/Proofs/NoticeQueues.lean ====
section
/-! The notice queues (R14 to R17): queue order as a weak order, what `enqueue` and `post` do to a queue, and the
relation "some notices of these kinds were queued" that every operation on the state is measured by. -/

namespace Sys2Proof.Machine

/-! ## Queue order (R15) -/

/-- The third key of queue order: a FAULT notice's class number, nothing for the other kinds (R15). -/
def faultKey (n : Notice) : Nat := if n.kind = .fault then n.subject.toNat else 0

theorem Kind.code_injective : Function.Injective Kind.code := fun a b => by
  cases a <;> cases b <;> simp [Kind.code]

/-- Queue order compares level, kind code and fault class, in this order. -/
theorem outranks_iff (a b : Notice) :
    outranks a b = true ↔ b.level < a.level ∨ a.level = b.level ∧
      (a.kind.code < b.kind.code ∨ a.kind.code = b.kind.code ∧ faultKey a < faultKey b) := by
  unfold outranks faultKey
  by_cases hl : a.level = b.level
  · by_cases hc : a.kind.code = b.kind.code
    · simp [hl, Kind.code_injective hc]
      split <;> simp [*]
    · simp [hl, hc]
  · simp [hl]

theorem outranks_asymm {a b : Notice} (h : outranks a b = true) : outranks b a = false := by
  rw [Bool.eq_false_iff, Ne, outranks_iff]
  rw [outranks_iff] at h
  omega

/-- Where `n` ranks above `x` and `y` does not, `n` ranks above `y`. -/
theorem outranks_of_not_outranks {n x y : Notice} (h : outranks n x = true) (hy : outranks y x = false) :
    outranks n y = true := by
  rw [Bool.eq_false_iff, Ne, outranks_iff] at hy
  rw [outranks_iff] at h ⊢
  omega

/-! ## Inserting and removing a notice -/

/-- A notice goes behind those it does not outrank and ahead of the first it does. -/
theorem insertNotice_split (n : Notice) (q : List Notice) :
    ∃ ahead behind, q = ahead ++ behind ∧ insertNotice n q = ahead ++ n :: behind ∧
      (∀ x ∈ ahead, outranks n x = false) ∧ ∀ x ∈ behind.head?, outranks n x = true := by
  induction q with
  | nil => exact ⟨[], [], rfl, rfl, by simp, by simp⟩
  | cons x rest ih =>
    by_cases hx : outranks n x = true
    · exact ⟨[], x :: rest, rfl, by simp [insertNotice, hx], by simp, by simpa using hx⟩
    · obtain ⟨ahead, behind, hq, hi, ha, hb⟩ := ih
      exact ⟨x :: ahead, behind, by simp [hq], by simp [insertNotice, hx, hi], by simp_all, hb⟩

theorem insertNotice_perm (n : Notice) (q : List Notice) : (insertNotice n q).Perm (n :: q) := by
  obtain ⟨ahead, behind, rfl, hi, -, -⟩ := insertNotice_split n q
  rw [hi]
  exact List.perm_middle

theorem insertNotice_length (n : Notice) (q : List Notice) : (insertNotice n q).length = q.length + 1 :=
  (insertNotice_perm n q).length_eq

/-- In an ordered queue the new notice ranks above every notice behind it (R15). -/
theorem insertNotice_split_ordered (n : Notice) {q : List Notice} (h : inQueueOrder q) :
    ∃ ahead behind, q = ahead ++ behind ∧ insertNotice n q = ahead ++ n :: behind ∧
      (∀ x ∈ ahead, outranks n x = false) ∧ ∀ x ∈ behind, outranks n x = true := by
  obtain ⟨ahead, behind, rfl, hi, ha, hb⟩ := insertNotice_split n q
  refine ⟨ahead, behind, rfl, hi, ha, ?_⟩
  have hbehind : inQueueOrder behind := (List.pairwise_append.1 h).2.1
  cases behind with
  | nil => simp
  | cons x rest =>
    have hx : outranks n x = true := hb x rfl
    intro y hy
    rcases List.mem_cons.1 hy with rfl | hy
    · exact hx
    · exact outranks_of_not_outranks hx ((List.pairwise_cons.1 hbehind).1 y hy)

theorem insertNotice_ordered (n : Notice) {q : List Notice} (h : inQueueOrder q) : inQueueOrder (insertNotice n q) := by
  obtain ⟨ahead, behind, rfl, hi, ha, hb⟩ := insertNotice_split_ordered n h
  obtain ⟨h1, h2, h3⟩ := List.pairwise_append.1 h
  rw [hi]
  refine List.pairwise_append.2 ⟨h1, List.pairwise_cons.2 ⟨fun y hy => outranks_asymm (hb y hy), h2⟩, ?_⟩
  intro x hx y hy
  rcases List.mem_cons.1 hy with rfl | hy
  · exact ha x hx
  · exact h3 x hx y hy

theorem removeKind_eq {k : Kind} {held : Notice} {a b : List Notice} (hk : held.kind = k)
    (ha : ∀ x ∈ a, x.kind ≠ k) : removeKind k (a ++ held :: b) = a ++ b := by
  induction a with
  | nil => simp [removeKind, hk]
  | cons x rest ih => simp_all [removeKind]

theorem hasKind_iff (k : Kind) (q : List Notice) : hasKind k q = true ↔ ∃ x ∈ q, x.kind = k := by
  simp [hasKind]

/-- A queue that holds a kind, at its first notice of the kind. -/
theorem exists_first_of_kind {k : Kind} {q : List Notice} (h : hasKind k q = true) :
    ∃ a held b, q = a ++ held :: b ∧ held.kind = k ∧ ∀ x ∈ a, x.kind ≠ k := by
  induction q with
  | nil => simp [hasKind] at h
  | cons x rest ih =>
    by_cases hx : x.kind = k
    · exact ⟨[], x, rest, rfl, hx, by simp⟩
    · obtain ⟨a, held, b, rfl, hk, ha⟩ := ih (by simpa [hasKind, hx] using h)
      exact ⟨x :: a, held, b, rfl, hk, by simp_all⟩

/-! ## Queueing one notice to one channel -/

@[simp] theorem enqueue_subs (n : Notice) (c : ChannelRec) : (enqueue n c).subs = c.subs := by
  unfold enqueue
  (repeat' split) <;> rfl

/-- A superseding notice takes the place of the held one of its kind (R16). -/
theorem enqueue_of_supersedes {n : Notice} {c : ChannelRec} (hs : n.kind.supersedes = true)
    (hh : hasKind n.kind c.queue = true) :
    enqueue n c = { c with queue := insertNotice n (removeKind n.kind c.queue) } := by
  simp [enqueue, hs, hh]

/-- Any other notice joins a queue with room (R15). -/
theorem enqueue_of_room {n : Notice} {c : ChannelRec} (hs : ¬(n.kind.supersedes = true ∧ hasKind n.kind c.queue = true))
    (hl : c.queue.length < 16) : enqueue n c = { c with queue := insertNotice n c.queue } := by
  simp [enqueue, hl, hs]

/-- At a full queue the notice that is last in order leaves or the new one is discarded, and the flag is set (R17). -/
theorem enqueue_of_full {n last : Notice} {c : ChannelRec} {front : List Notice}
    (hs : ¬(n.kind.supersedes = true ∧ hasKind n.kind c.queue = true)) (hl : ¬c.queue.length < 16)
    (hq : c.queue = front ++ [last]) :
    enqueue n c = if outranks n last = true then { c with queue := insertNotice n front, lost := true }
      else { c with lost := true } := by
  have hlast : c.queue.getLast? = some last := by simp [hq]
  have hdrop : c.queue.dropLast = front := by simp [hq]
  simp [enqueue, hl, hs, hlast, hdrop]

/-- What queueing one notice can do: it replaces the held one of its kind, joins, pushes the last one out, or is
discarded. -/
theorem enqueue_cases (n : Notice) (c : ChannelRec) :
    (∃ a held b, c.queue = a ++ held :: b ∧ held.kind = n.kind ∧ n.kind.supersedes = true ∧ (∀ x ∈ a, x.kind ≠ n.kind) ∧
        enqueue n c = { c with queue := insertNotice n (a ++ b) }) ∨
      (¬(n.kind.supersedes = true ∧ hasKind n.kind c.queue = true) ∧
        (c.queue.length < 16 ∧ enqueue n c = { c with queue := insertNotice n c.queue } ∨
          (∃ front last, c.queue = front ++ [last] ∧ outranks n last = true ∧
            enqueue n c = { c with queue := insertNotice n front, lost := true }) ∨
          enqueue n c = { c with lost := true })) := by
  by_cases hs : n.kind.supersedes = true ∧ hasKind n.kind c.queue = true
  · obtain ⟨a, held, b, hq, hk, ha⟩ := exists_first_of_kind hs.2
    refine .inl ⟨a, held, b, hq, hk, hs.1, ha, ?_⟩
    rw [enqueue_of_supersedes hs.1 hs.2, hq, removeKind_eq hk ha]
  · refine .inr ⟨hs, ?_⟩
    by_cases hl : c.queue.length < 16
    · exact .inl ⟨hl, enqueue_of_room hs hl⟩
    · refine .inr ?_
      obtain ⟨front, last, hq⟩ : ∃ front last, c.queue = front ++ [last] :=
        (List.eq_nil_or_concat' c.queue).resolve_left (by rintro h; simp [h] at hl)
      rw [enqueue_of_full hs hl hq]
      by_cases ho : outranks n last = true
      · exact .inl ⟨front, last, hq, ho, if_pos ho⟩
      · exact .inr (if_neg ho)

/-- The lost flag is never cleared by a notice (R17). -/
theorem lost_of_enqueue {n : Notice} {c : ChannelRec} (h : (enqueue n c).lost = false) : c.lost = false := by
  unfold enqueue at h
  (repeat' split at h) <;> simp_all

/-- A sound queue stays sound under every notice (R15 to R17). -/
theorem queueSound_enqueue {n : Notice} {c : ChannelRec} (h : queueSound c) : queueSound (enqueue n c) := by
  obtain ⟨hlen, hord, hone⟩ := h
  obtain ⟨a, held, b, hq, hk, hs, ha, he⟩ | ⟨hs, ⟨hl, he⟩ | ⟨front, last, hq, -, he⟩ | he⟩ := enqueue_cases n c
  · have hsub : (a ++ b).Sublist c.queue := by rw [hq]; simp
    rw [he]
    refine ⟨?_, insertNotice_ordered n (hord.sublist hsub), fun k hks => ?_⟩
    · simpa [insertNotice_length, hq, Nat.add_assoc] using hlen
    · have := hone k hks
      rw [hq] at this
      rw [(insertNotice_perm n _).countP_eq]
      simpa [List.countP_append, List.countP_cons, hk, Nat.add_assoc] using this
  · rw [he]
    refine ⟨by simpa [insertNotice_length] using hl, insertNotice_ordered n hord, fun k hks => ?_⟩
    rw [(insertNotice_perm n _).countP_eq, List.countP_cons]
    split
    · next hk =>
      have hk : n.kind = k := by simpa using hk
      have hno : c.queue.countP (fun n => decide (n.kind = k)) = 0 := by
        rw [List.countP_eq_zero]
        intro x hx hxk
        exact hs ⟨hk ▸ hks, (hasKind_iff _ _).2 ⟨x, hx, by simpa [hk] using hxk⟩⟩
      omega
    · simpa using hone k hks
  · have hsub : front.Sublist c.queue := by rw [hq]; simp
    rw [he]
    refine ⟨by simpa [insertNotice_length, hq] using hlen, insertNotice_ordered n (hord.sublist hsub), fun k hks => ?_⟩
    rw [(insertNotice_perm n _).countP_eq, List.countP_cons]
    split
    · next hk =>
      have hk : n.kind = k := by simpa using hk
      have hno : front.countP (fun n => decide (n.kind = k)) = 0 := by
        rw [List.countP_eq_zero]
        intro x hx hxk
        exact hs ⟨hk ▸ hks, (hasKind_iff _ _).2 ⟨x, hsub.subset hx, by simpa [hk] using hxk⟩⟩
      omega
    · exact (hsub.countP_le).trans (hone k hks)
  · rw [he]
    exact ⟨hlen, hord, hone⟩

/-! ## Queueing a notice to the channels -/

/-- One copy to each channel that receives it, and nothing else (R14). -/
theorem post_channels_get (n : Notice) (receives : Channel → Bool) (s : State) (c : Channel) :
    (post n receives s).channels.get c =
      if receives c = true then enqueue n (s.channels.get c) else s.channels.get c := by
  unfold post
  by_cases h1 : receives .modem = true <;> by_cases h2 : receives .management = true <;>
    by_cases h3 : receives .gateway = true <;> cases c <;> simp [h1, h2, h3]

@[simp] theorem notice_kind (k : Kind) (subject flags : Byte) (t : Time) (detail : BitVec 32) :
    (notice k subject flags t detail).kind = k := rfl

/-- Some notices, of kinds in `K` only, make the channels `b` of the channels `a`, each queued as it was handed. -/
structure Queued (K : Kind → Bool) (a b : PerChan ChannelRec) : Prop where
  each : ∀ c, Relation.ReflTransGen (fun x y => ∃ n : Notice, K n.kind = true ∧ y = enqueue n x) (a.get c) (b.get c)

section
variable {K : Kind → Bool} {a b : PerChan ChannelRec} {s : State}

@[simp] theorem Queued.refl : Queued K a a := ⟨fun _ => .refl⟩

theorem Queued.trans {d : PerChan ChannelRec} (h : Queued K a b) (h' : Queued K b d) : Queued K a d :=
  ⟨fun c => (h.each c).trans (h'.each c)⟩

theorem post_queued {n : Notice} {receives : Channel → Bool} (hn : K n.kind = true) (h : Queued K a s.channels) :
    Queued K a (post n receives s).channels := by
  refine ⟨fun c => ?_⟩
  rw [post_channels_get]
  split
  · exact (h.each c).tail ⟨n, hn, rfl⟩
  · exact h.each c

@[simp] theorem postSubscribed_queued {n : Notice} (hn : K n.kind = true) (h : Queued K a s.channels) :
    Queued K a (postSubscribed n s).channels := post_queued hn h

@[simp] theorem postCompletion_queued {n : Notice} {c : Channel} (hn : K n.kind = true) (h : Queued K a s.channels) :
    Queued K a (postCompletion n c s).channels := post_queued hn h

/-- What every notice keeps of a channel's record, notices of these kinds keep. -/
theorem Queued.induction {P : ChannelRec → Prop} (hP : ∀ n x, K n.kind = true → P x → P (enqueue n x))
    (h : Queued K a b) (c : Channel) (hc : P (a.get c)) : P (b.get c) := by
  have hg := h.each c
  generalize b.get c = y at hg
  induction hg with
  | refl => exact hc
  | tail _ hstep ih =>
    obtain ⟨n, hn, rfl⟩ := hstep
    exact hP n _ hn ih

theorem Queued.queueSound (h : Queued K a b) (c : Channel) (hc : queueSound (a.get c)) : queueSound (b.get c) :=
  h.induction (fun _ _ _ => queueSound_enqueue) c hc

end

end Sys2Proof.Machine
end

