-- ==== Sys2Proof/Proofs/NoticesHanded.lean ====
section
namespace Sys2Proof.Machine

/-! ## What the blocks hand (R14), the hook supervisors and the scheduler first -/

/-- The kinds that end no claim, no hold, no session and no test. -/
def Kind.minor : Kind → Bool
  | .claimGranted | .claimExpired | .holdRevoked | .ringEnd | .testDone => false
  | _ => true

theorem allowed_of_minor {K : Kind → Bool} (hK : Kind.minor ≤ K) {k : Kind} (hk : k.minor = true) : K k = true :=
  hK k hk

section
variable {K : Kind → Bool} {a : PerChan ChannelRec} {s : State}

section
variable (hK : Kind.minor ≤ K) (h : Queued K a s.channels)
include hK h

@[simp] theorem unplanned_queued (k : Unplanned) (p : Option Port) (n : Nat) :
    Queued K a (unplanned k p n s).channels :=
  postSubscribed_queued (allowed_of_minor hK rfl) h

@[simp] theorem hookNotice_queued (p : Port) (off : Bool) (why : HookReason) (d : Time) :
    Queued K a (hookNotice p off why d s).channels :=
  postSubscribed_queued (allowed_of_minor hK rfl) h

@[simp] theorem digitNotice_queued (p : Port) (e f u : Bool) (v n : Nat) :
    Queued K a (digitNotice p e f u v n s).channels :=
  postSubscribed_queued (allowed_of_minor hK rfl) h

@[simp] theorem recordEntry_queued (p : Port) (e : DialEntry) (n : Nat) :
    Queued K a (recordEntry p e n s).channels := by
  unfold recordEntry
  split <;> simp -implicitDefEqProofs [hK, h]

@[simp] theorem completeDigit_queued (p : Port) :
    Queued K a (completeDigit p s).channels := by
  unfold completeDigit
  dsimp only
  (repeat' split) <;> simp -implicitDefEqProofs [hK, h]

@[simp] theorem releasePort_queued (p : Port) :
    Queued K a (releasePort p s).channels := by
  unfold releasePort
  dsimp only
  (repeat' split) <;> simp -implicitDefEqProofs [hK, h]

@[simp] theorem endBreak_queued (p : Port) :
    Queued K a (endBreak p s).channels := by
  unfold endBreak
  dsimp only
  (repeat' split) <;> simp -implicitDefEqProofs [hK, h]

@[simp] theorem takeLoop_queued (p : Port) (b : Bool) :
    Queued K a (takeLoop p b s).channels := by
  unfold takeLoop
  dsimp only
  (repeat' split) <;> simp -implicitDefEqProofs [hK, h]

@[simp] theorem senseLoop_queued (p : Port) :
    Queued K a (senseLoop p s).channels := by
  unfold senseLoop
  split <;> simp -implicitDefEqProofs [hK, h]

@[simp] theorem restart_queued (p : Port) (why : Option HookReason) :
    Queued K a (restart p why s).channels := by
  unfold restart
  dsimp only
  (repeat' split) <;> simp -implicitDefEqProofs [hK, h]

@[simp] theorem unmask_queued (p : Port) : Queued K a (unmask p s).channels := by
  unfold unmask
  (repeat' split) <;> simp -implicitDefEqProofs [hK, h]

@[simp] theorem endSlot_queued (i : SlotId) : Queued K a (endSlot i s).channels := by
  unfold endSlot
  split
  · exact postSubscribed_queued (allowed_of_minor hK rfl) (by simpa using h)
  · exact h

@[simp] theorem notifyFault_queued (f : Raised) (n : Nat) (st : Stored) :
    Queued K a (notifyFault f n st s).channels := by
  unfold notifyFault
  dsimp only
  split
  · exact post_queued (allowed_of_minor hK rfl) h
  · exact post_queued (allowed_of_minor hK rfl) (by simpa using h)

@[simp] theorem takeFault_queued (f : Raised) : Queued K a (takeFault f s).channels := by
  unfold takeFault
  dsimp only
  split
  · exact h
  · split <;> simp -implicitDefEqProofs [hK, h]

@[simp] theorem raiseFault_queued (f : Raised) : Queued K a (raiseFault f s).channels := by
  unfold raiseFault
  split <;> simp -implicitDefEqProofs [hK, h]

@[simp] theorem portAfterChange_queued (c : Change) (x : Asker) (p : Port) :
    Queued K a (portAfterChange c x p s).channels := by
  unfold portAfterChange
  simp -implicitDefEqProofs [hK, h]

theorem applyChange_queued {c : Change} {x : Asker} {id : Byte} {t : State} (ht : applyChange c x id s = some t) :
    Queued K a t.channels := by
  unfold applyChange at ht
  dsimp only at ht
  split at ht
  · cases ht
  · cases ht
    simp -implicitDefEqProofs [hK, h]

theorem cancelSlot_queued {i : SlotId} {t : State} (ht : cancelSlot i s = some t) : Queued K a t.channels := by
  unfold cancelSlot at ht
  split at ht
  · cases ht
  · cases ht
    exact endSlot_queued hK h i

theorem openSlot_queued {i : SlotId} {w : WorkKind} {p : Option Port} {d : Option Nat} {b : Bool} {t : State}
    {id : Byte} (ht : openSlot i w p d b s = some (t, id)) : Queued K a t.channels := by
  unfold openSlot at ht
  split at ht
  · cases ht
  · dsimp only at ht
    split at ht <;> cases ht <;>
      simpa using postSubscribed_queued (allowed_of_minor hK rfl) (by simpa using h)

@[simp] theorem fallbackRelays_queued : Queued K a (fallbackRelays s).channels := by
  unfold fallbackRelays
  simp -implicitDefEqProofs [hK, h]

@[simp] theorem endBurst_queued (p : Port) (x : RingState) : Queued K a (endBurst p x s).channels := by
  unfold endBurst
  simp -implicitDefEqProofs [hK, h]

@[simp] theorem cutBurst_queued (p : Port) : Queued K a (cutBurst p s).channels := by
  unfold cutBurst
  simp -implicitDefEqProofs [hK, h]

@[simp] theorem onTime_queued (p : Port) : Queued K a (onTime p s).channels := by
  unfold onTime
  (repeat' split) <;> simp -implicitDefEqProofs [hK, h]

@[simp] theorem onTimeEnds_queued (p : Port) : Queued K a (onTimeEnds p s).channels := by
  unfold onTimeEnds
  split <;> simp -implicitDefEqProofs [hK, h]

@[simp] theorem batteryCut_queued : Queued K a (batteryCut s).channels := by
  unfold batteryCut
  (repeat' split) <;> simp -implicitDefEqProofs [hK, h]

@[simp] theorem onsetRecord_queued : Queued K a (onsetRecord s).channels := by
  have hx : K .exchangeRings = true := allowed_of_minor hK rfl
  unfold onsetRecord
  dsimp only
  (repeat' split) <;> simp -implicitDefEqProofs [hK, h, hx]

@[simp] theorem endCall_queued (n : Nat) (p : Option Port) : Queued K a (endCall n p s).channels := by
  have hx : K .exchangeCallEnd = true := allowed_of_minor hK rfl
  unfold endCall
  simp -implicitDefEqProofs [h, hx]

@[simp] theorem applyRelease_queued (x : Asker) (t : Test) : Queued K a (applyRelease x t s).channels := by
  unfold applyRelease
  split
  · next ht => exact applyChange_queued hK h ht
  · exact h

@[simp] theorem enterRelease_queued : Queued K a (enterRelease s).channels := by
  unfold enterRelease
  split <;> simp -implicitDefEqProofs [hK, h]

@[simp] theorem connectTest_queued : Queued K a (connectTest s).channels := by
  unfold connectTest
  split
  · split
    · dsimp only
      split
      · next ht => exact applyChange_queued hK (by simpa using h) ht
      · simpa using h
    · exact h
  · exact h

@[simp] theorem raiseTestFail_queued (t : Test) : Queued K a (raiseTestFail t s).channels := by
  unfold raiseTestFail
  split <;> simp -implicitDefEqProofs [hK, h]

@[simp] theorem homeTestEnded_queued (p : Port) : Queued K a (homeTestEnded p s).channels := by
  unfold homeTestEnded
  dsimp only
  split <;> simp -implicitDefEqProofs [hK, h]

@[simp] theorem detachedDone_queued : Queued K a (detachedDone s).channels := by
  unfold detachedDone
  (repeat' split) <;> simp -implicitDefEqProofs [hK, h]

@[simp] theorem endMeasure_queued (n : Nat) (v : Option (List Measurement)) (b : Bool) :
    Queued K a (endMeasure n v b s).channels := by
  unfold endMeasure
  simp -implicitDefEqProofs [hK, h]

@[simp] theorem cleanReached_queued (r : Readings) : Queued K a (cleanReached r s).channels := by
  unfold cleanReached
  split <;> simp -implicitDefEqProofs [hK, h]

@[simp] theorem wallReached_queued (r : Readings) : Queued K a (wallReached r s).channels := by
  unfold wallReached
  dsimp only
  (repeat' split) <;> simp -implicitDefEqProofs [hK, h]

@[simp] theorem endSwitch_queued (p : Port) (m : PlainMode) (o : SwitchOutcome) :
    Queued K a (endSwitch p m o s).channels := by
  have hx : K .modeDone = true := allowed_of_minor hK rfl
  unfold endSwitch
  split
  · exact h
  · refine postCompletion_queued hx ?_
    (repeat' split) <;> simp -implicitDefEqProofs [hK, h]

@[simp] theorem activateSwitch_queued (p : Port) : Queued K a (activateSwitch p s).channels := by
  unfold activateSwitch
  split
  · exact h
  · split
    · dsimp only
      cases ht : applyChange _ _ _ _ with
      | none => simpa using h
      | some t => exact applyChange_queued hK (by simpa using h) ht
    · exact h

@[simp] theorem switchSettled_queued (p : Port) : Queued K a (switchSettled p s).channels := by
  unfold switchSettled
  split
  · exact h
  · split
    · exact h
    · dsimp only
      split
      · next ht => exact applyChange_queued hK (by simpa using h) ht
      · simp -implicitDefEqProofs [hK, h]
    · split <;> simp [hK, h]

@[simp] theorem switchSeized_queued (p : Port) : Queued K a (switchSeized p s).channels := by
  unfold switchSeized
  split
  · exact h
  · split
    · split
      · next ht => exact endSwitch_queued hK (cancelSlot_queued hK h ht) _ _ _
      · exact h
    · exact h

@[simp] theorem freezeDenied_queued (p : Port) : Queued K a (freezeDenied p s).channels := by
  unfold freezeDenied
  dsimp only
  split <;> simp -implicitDefEqProofs [hK, h]

@[simp] theorem finishProbe_queued (p : Port) (d : Denial) : Queued K a (finishProbe p d s).channels := by
  unfold finishProbe
  dsimp only
  (repeat' split) <;> simp -implicitDefEqProofs [hK, h]

@[simp] theorem fallbackPort_queued (p : Port) : Queued K a (fallbackPort p s).channels := by
  unfold fallbackPort
  dsimp only
  split <;> simp -implicitDefEqProofs [hK, h]

@[simp] theorem endDsl_queued (o : DslOutcome) : Queued K a (endDsl o s).channels := by
  have hx : K .modeDone = true := allowed_of_minor hK rfl
  unfold endDsl
  (repeat' split) <;> simp -implicitDefEqProofs [hK, h, hx]

@[simp] theorem activateDsl_queued : Queued K a (activateDsl s).channels := by
  unfold activateDsl
  split
  · exact h
  · split
    · next ht => exact applyChange_queued hK h ht
    · simp [hK, h]

@[simp] theorem dslSettled_queued : Queued K a (dslSettled s).channels := by
  unfold dslSettled
  (repeat' split) <;> simp -implicitDefEqProofs [hK, h]

@[simp] theorem ownerStart_queued (i : SlotId) : Queued K a (ownerStart i s).channels := by
  unfold ownerStart
  (repeat' split) <;> simp -implicitDefEqProofs [hK, h]

@[simp] theorem activate_queued (i : SlotId) : Queued K a (activate i s).channels := by
  unfold activate
  simp -implicitDefEqProofs [hK, h]

@[simp] theorem startIfActive_queued (i : SlotId) : Queued K a (startIfActive i s).channels := by
  unfold startIfActive
  split <;> simp -implicitDefEqProofs [hK, h]

@[simp] theorem isolationNotice_queued (why : IsolationReason) : Queued K a (isolationNotice why s).channels := by
  exact postSubscribed_queued (allowed_of_minor hK rfl) h

@[simp] theorem reserveFallback_queued : Queued K a (reserveFallback s).channels := by
  have hf := fallbackRelays_queued hK h
  exact unplanned_queued hK (detachedDone_queued hK hf) ..

@[simp] theorem raisePower_queued (o n : PowerState) : Queued K a (raisePower o n s).channels := by
  unfold raisePower
  (repeat' split) <;> simp -implicitDefEqProofs [hK, h]

@[simp] theorem trackNotice_queued (why : TrackReason) (n : Nat) : Queued K a (trackNotice why n s).channels := by
  exact postSubscribed_queued (allowed_of_minor hK rfl) h

omit hK h in

@[simp] theorem forecastNotice_kind (now : Time) (k : Tracker) : (forecastNotice now k).kind = .forecast := by
  unfold forecastNotice
  dsimp only
  split <;> rfl

@[simp] theorem recompute_queued : Queued K a (recompute s).channels := by
  have hx : K .forecast = true := allowed_of_minor hK rfl
  unfold recompute
  simp -implicitDefEqProofs [h, hx]

@[simp] theorem classifySearch_queued (t : Time) : Queued K a (classifySearch t s).channels := by
  unfold classifySearch
  simp -implicitDefEqProofs [hK, h]

@[simp] theorem lockOn_queued (t : Time) (p j : Nat) : Queued K a (lockOn t p j s).channels := by
  unfold lockOn
  simp -implicitDefEqProofs [hK, h]

@[simp] theorem classifyAcquire_queued (t : Time) : Queued K a (classifyAcquire t s).channels := by
  unfold classifyAcquire
  dsimp only
  (repeat' split) <;> simp -implicitDefEqProofs [hK, h]

@[simp] theorem hitEdge_queued (t : Time) (n : Nat) (e : Int) : Queued K a (hitEdge t n e s).channels := by
  unfold hitEdge
  dsimp only
  split <;> simp -implicitDefEqProofs [hK, h]

@[simp] theorem strayEdge_queued (t : Time) : Queued K a (strayEdge t s).channels := by
  unfold strayEdge
  dsimp only
  split <;> simp -implicitDefEqProofs [hK, h]

@[simp] theorem classifyHeld_queued (t : Time) : Queued K a (classifyHeld t s).channels := by
  unfold classifyHeld
  dsimp only
  split <;> simp -implicitDefEqProofs [hK, h]

@[simp] theorem classify_queued (t : Time) : Queued K a (classify t s).channels := by
  unfold classify
  (repeat' split) <;> simp -implicitDefEqProofs [hK, h]

@[simp] theorem classifyHead_queued : Queued K a (classifyHead s).channels := by
  unfold classifyHead
  split <;> simp -implicitDefEqProofs [hK, h]

@[simp] theorem acquireLapse_queued : Queued K a (acquireLapse s).channels := by
  unfold acquireLapse
  simp -implicitDefEqProofs [hK, h]

@[simp] theorem acquireExpires_queued : Queued K a (acquireExpires s).channels := by
  unfold acquireExpires
  dsimp only
  (repeat' split) <;> simp -implicitDefEqProofs [hK, h]

@[simp] theorem checkDecide_queued : Queued K a (checkDecide s).channels := by
  unfold checkDecide
  dsimp only
  split
  · split
    · exact recompute_queued hK (trackNotice_queued hK (raiseFault_queued hK (by simpa using h) _) _ _)
    · simp -implicitDefEqProofs [hK, h]
  · split <;> simp -implicitDefEqProofs [hK, h]

@[simp] theorem windowChecked_queued : Queued K a (windowChecked s).channels := by
  unfold windowChecked
  dsimp only
  (repeat' split) <;> simp -implicitDefEqProofs [hK, h]

@[simp] theorem disableTracker_queued : Queued K a (disableTracker s).channels := by
  unfold disableTracker
  simp -implicitDefEqProofs [hK, h]

@[simp] theorem enableTracker_queued : Queued K a (enableTracker s).channels := by
  unfold enableTracker
  simp -implicitDefEqProofs [hK, h]

@[simp] theorem writeEnds_queued (b : Bool) (x : Save) : Queued K a (writeEnds b x s).channels := by
  have hx : K .saveDone = true := allowed_of_minor hK rfl
  unfold writeEnds
  (repeat' split) <;> simp -implicitDefEqProofs [hK, h, hx, saveDone]

end

end

end Sys2Proof.Machine
end

