-- ==== Sys2Proof/Proofs/NoticesOfReleases.lean ====
section
namespace Sys2Proof.Machine
variable {K : Kind → Bool} {a : PerChan ChannelRec}

/-! ## Lists of faults and latches -/

theorem takeAll_queued (hK : Kind.minor ≤ K) (l : List Raised) :
    ∀ {s : State}, Queued K a s.channels → Queued K a (takeAll l s).channels := by
  induction l with
  | nil => exact fun h => h
  | cons f rest ih => exact fun h => ih (takeFault_queued hK h f)

@[simp] theorem finishTaking_queued {s : State} (hK : Kind.minor ≤ K) (h : Queued K a s.channels) :
    Queued K a (finishTaking s).channels :=
  takeAll_queued hK _ h

theorem releaseFrom_queued (hK : Kind.minor ≤ K) (c : Channel) (l : List Latch) :
    ∀ {s : State}, Queued K a s.channels → Queued K a (releaseFrom c l s).channels := by
  induction l with
  | nil => exact fun h => h
  | cons x rest ih =>
    intro s h
    rw [releaseFrom]
    split
    · exact ih h
    · exact ih (by simpa using post_queued (allowed_of_minor hK rfl) h)

@[simp] theorem releaseLatches_queued {s : State} (hK : Kind.minor ≤ K) (h : Queued K a s.channels) (c : Channel) :
    Queued K a (releaseLatches c s).channels :=
  releaseFrom_queued hK c _ h

@[simp] theorem quietEnds_queued {s : State} (hK : Kind.minor ≤ K) (h : Queued K a s.channels) :
    Queued K a (quietEnds s).channels := by
  unfold quietEnds
  exact releaseLatches_queued hK (releaseLatches_queued hK (releaseLatches_queued hK (by simpa using h) _) _) _

/-! ## Ring sessions -/

section
variable {s : State} (hK : Kind.minor ≤ K) (hr : K .ringEnd = true) (h : Queued K a s.channels)
include hK hr h

@[simp] theorem endSession_queued (p : Port) (why : RingReason) (cause : Nat) :
    Queued K a (endSession p why cause s).channels := by
  unfold endSession
  split
  · exact h
  · have hb : Queued K a (if inBurst s p then endBurst p (.silent false) s else s).channels := by
      split <;> simp [hK, h]
    dsimp only
    generalize (if inBurst s p then endBurst p (.silent false) s else s) = u at hb ⊢
    simp -implicitDefEqProofs [hK, hr, hb]

@[simp] theorem answerSession_queued (p : Port) (flags : Nat) : Queued K a (answerSession p flags s).channels := by
  have hx : K .answered = true := allowed_of_minor hK rfl
  unfold answerSession
  split <;> simp -implicitDefEqProofs [hK, hr, hx, h]

@[simp] theorem endAllSessions_queued (why : RingReason) : Queued K a (endAllSessions why s).channels := by
  simp -implicitDefEqProofs [endAllSessions, hK, hr, h]

@[simp] theorem offTimeEnds_queued (p : Port) (x : RingSession) : Queued K a (offTimeEnds p x s).channels := by
  unfold offTimeEnds
  dsimp only
  (repeat' split) <;> simp -implicitDefEqProofs [hK, hr, h]

@[simp] theorem phaseEnds_queued (p : Port) : Queued K a (phaseEnds p s).channels := by
  unfold phaseEnds
  (repeat' split) <;> simp -implicitDefEqProofs [hK, hr, h]

@[simp] theorem ringFaultPort_queued (p : Port) : Queued K a (ringFaultPort p s).channels := by
  unfold ringFaultPort
  split <;> simp -implicitDefEqProofs [hK, hr, h]

@[simp] theorem ringFaultExpires_queued : Queued K a (ringFaultExpires s).channels := by
  unfold ringFaultExpires
  dsimp only
  (repeat' split) <;> simp -implicitDefEqProofs [hK, hr, h]

@[simp] theorem ringLosesHold_queued (f : Func) (holder : Channel) :
    Queued K a (ringLosesHold f holder s).channels := by
  unfold ringLosesHold
  (repeat' split) <;> simp -implicitDefEqProofs [hK, hr, h]

@[simp] theorem ringSeized_queued (p : Port) (through : Bool) : Queued K a (ringSeized p through s).channels := by
  unfold ringSeized
  dsimp only
  (repeat' split) <;> simp -implicitDefEqProofs [hK, hr, h]

@[simp] theorem denyFeed_queued (p : Port) (since : Time) : Queued K a (denyFeed p since s).channels := by
  unfold denyFeed
  dsimp only
  refine endSession_queued hK hr (freezeDenied_queued hK (unplanned_queued hK (raiseFault_queued hK ?_ _) ..) _) ..
  simpa using h

end

/-! ## Holds, tests and seizures: notices of every kind -/

section
variable {s : State} (h : Queued ⊤ a s.channels)
include h

@[simp] theorem grantedNotice_queued (f : Func) (e : ClaimEntry) : Queued ⊤ a (grantedNotice f e s).channels :=
  postCompletion_queued rfl h

@[simp] theorem expiredNotice_queued (e : ClaimEntry) (why n : Nat) : Queued ⊤ a (expiredNotice e why n s).channels :=
  postCompletion_queued rfl h

@[simp] theorem revokedNotice_queued (f : Func) (x : Hold) (why n : Nat) :
    Queued ⊤ a (revokedNotice f x why n s).channels :=
  postCompletion_queued rfl h

@[simp] theorem grantNext_queued (f : Func) : Queued ⊤ a (grantNext f s).channels := by
  unfold grantNext
  split <;> simp -implicitDefEqProofs [h]

@[simp] theorem gatedRelease_queued (f : Func) (c : Channel) (gate : Nat) :
    Queued ⊤ a (gatedRelease f c gate s).channels := by
  unfold gatedRelease
  (repeat' split) <;> simp -implicitDefEqProofs [h]

@[simp] theorem endTest_queued : Queued ⊤ a (endTest s).channels := by
  unfold endTest
  split
  · exact h
  · next t _ =>
    have ht : Queued ⊤ a (if outcomeOf t = .fail then raiseTestFail t
        (s.updEngine (fun e => { e with result := some (resultOf t s.now) }))
        else s.updEngine (fun e => { e with result := some (resultOf t s.now) })).channels := by
      split <;> simp -implicitDefEqProofs [h]
    dsimp only
    generalize (if outcomeOf t = .fail then raiseTestFail t _ else _) = u at ht ⊢
    have hd : Queued ⊤ a (postCompletion (testDone t u.now) t.requester u).channels := postCompletion_queued rfl ht
    generalize postCompletion (testDone t u.now) t.requester u = v at hd ⊢
    (repeat' split) <;> simp -implicitDefEqProofs [hd]

theorem cancelled_queued (i : SlotId) : Queued ⊤ a ((cancelSlot i s).getD s).channels := by
  cases hc : cancelSlot i s with
  | none => exact h
  | some t => exact cancelSlot_queued le_top h hc

@[simp] theorem abortInNotify_queued (t : Test) : Queued ⊤ a (abortInNotify t s).channels :=
  endTest_queued (cancelled_queued h _)

@[simp] theorem abortByRelease_queued (t : Test) : Queued ⊤ a (abortByRelease t s).channels := by
  unfold abortByRelease
  split <;> simp -implicitDefEqProofs [h]

@[simp] theorem abortDetached_queued (t : Test) : Queued ⊤ a (abortDetached t s).channels := by
  unfold abortDetached
  dsimp only
  split <;> simp -implicitDefEqProofs [h]

@[simp] theorem abortByPower_queued (t : Test) : Queued ⊤ a (abortByPower t s).channels := by
  simp -implicitDefEqProofs [abortByPower, h]

@[simp] theorem actOnAbort_queued (why : AbortReason) (t : Test) : Queued ⊤ a (actOnAbort why t s).channels := by
  unfold actOnAbort
  (repeat' split) <;> simp [h]

@[simp] theorem abortTest_queued (why : AbortReason) : Queued ⊤ a (abortTest why s).channels := by
  unfold abortTest
  dsimp only
  (repeat' split) <;> simp -implicitDefEqProofs [h]

@[simp] theorem releaseComplete_queued : Queued ⊤ a (releaseComplete s).channels := by
  unfold releaseComplete
  (repeat' split) <;> simp -implicitDefEqProofs [h]

@[simp] theorem engineSeizure_queued (p : Port) (b : Bool) : Queued ⊤ a (engineSeizure p b s).channels := by
  unfold engineSeizure
  split <;> simp [h]

@[simp] theorem engineOnset_queued : Queued ⊤ a (engineOnset s).channels := by
  unfold engineOnset
  split <;> simp [h]

@[simp] theorem engineHoldLost_queued (f : Func) : Queued ⊤ a (engineHoldLost f s).channels := by
  unfold engineHoldLost
  (repeat' split) <;> simp [h]

@[simp] theorem engineReset_queued (l : List Channel) : Queued ⊤ a (engineReset l s).channels := by
  unfold engineReset
  (repeat' split) <;> simp [h]

@[simp] theorem holdLost_queued (f : Func) (holder : Channel) : Queued ⊤ a (holdLost f holder s).channels := by
  simp [holdLost, h]

@[simp] theorem releaseFunc_queued (f : Func) : Queued ⊤ a (releaseFunc f s).channels := by
  unfold releaseFunc
  split <;> simp -implicitDefEqProofs [h]

@[simp] theorem seize_queued (p : Port) (why : HookReason) : Queued ⊤ a (seize p why s).channels := by
  unfold seize
  dsimp only
  refine engineSeizure_queued ?_ _ _
  have hn := hookNotice_queued le_top (s := s.updPort p (fun q => { q with
    dial := [], overflow := false
    sup := { q.sup with
      state := .offHook, masked := false, seizeTimer := .stopped, pulses := 0, gapTimer := .stopped } }))
    (by simpa using h) p true why (if why = .loop then (s.port p).sup.breakStart else 0)
  generalize hookNotice p true why _ _ = u at hn ⊢
  have hu : Queued ⊤ a (if lifelineCond u p = true then unplanned .hookSeize (some p) 0 u else u).channels := by
    split <;> simp -implicitDefEqProofs [hn]
  generalize (if lifelineCond u p = true then unplanned .hookSeize (some p) 0 u else u) = v at hu ⊢
  split <;> simp -implicitDefEqProofs [hu]

@[simp] theorem tripPort_queued (p : Port) : Queued ⊤ a (tripPort p s).channels := by
  have hb : Queued ⊤ a (endBurst p (.silent false) s).channels := endBurst_queued le_top h _ _
  unfold tripPort
  dsimp only
  split <;> simp -implicitDefEqProofs [hb]

@[simp] theorem settled_queued (x : Asker) : Queued ⊤ a (settled x s).channels := by
  unfold settled
  split <;> simp [h]

@[simp] theorem ringOnset_queued : Queued ⊤ a (ringOnset s).channels := by
  simp [ringOnset, h]

/-- What every start and every line-break change ends with. -/
theorem senseBoth_queued : Queued ⊤ a (judgeWatch (senseLoop .p2 (senseLoop .p1 s))).channels := by
  simp -implicitDefEqProofs [h]

@[simp] theorem lineBreakSeen_queued : Queued ⊤ a (lineBreakSeen s).channels := by
  unfold lineBreakSeen
  refine senseBoth_queued ?_
  (repeat' split) <;> simp [h]

@[simp] theorem moveLineBreak_queued (c : Contact) : Queued ⊤ a (moveLineBreak c s).channels := by
  simp -implicitDefEqProofs [moveLineBreak, h]

@[simp] theorem raiseHard_queued (c : FaultClass) (d1 d2 : Nat) : Queued ⊤ a (raiseHard c d1 d2 s).channels := by
  simp -implicitDefEqProofs [raiseHard, h]

@[simp] theorem enterLockout_queued (why : LockoutCause) (reason : IsolationReason) (cause : FaultClass)
    (since : BitVec 32) (d2 : Nat) : Queued ⊤ a (enterLockout why reason cause since d2 s).channels := by
  simp -implicitDefEqProofs [enterLockout, h]

@[simp] theorem isolate_queued (c : FaultClass) : Queued ⊤ a (isolate c s).channels := by
  have hm : Queued ⊤ a (moveLineBreak .open_ s).channels := by simp [h]
  unfold isolate
  split <;> simp -implicitDefEqProofs [h, hm]

@[simp] theorem hardEvent_queued (c : FaultClass) (d2 : Nat) : Queued ⊤ a (hardEvent c d2 s).channels := by
  have hi : Queued ⊤ a (isolate c (beginTaking s)).channels := by simp -implicitDefEqProofs [h]
  simp -implicitDefEqProofs [hardEvent, hi]

@[simp] theorem endIsolation_queued (why : IsolationReason) (n : Nat) : Queued ⊤ a (endIsolation why n s).channels := by
  have hm : Queued ⊤ a (moveLineBreak .closed (setIsolation .normal s)).channels := by simp -implicitDefEqProofs [h]
  simp -implicitDefEqProofs [endIsolation, hm]

@[simp] theorem dwellEnds_queued (dwell : Nat) (cause : FaultClass) (since : BitVec 32) :
    Queued ⊤ a (dwellEnds dwell cause since s).channels := by
  unfold dwellEnds
  (repeat' split) <;> simp -implicitDefEqProofs [h]

@[simp] theorem startUpIsolation_queued : Queued ⊤ a (startUpIsolation s).channels := by
  unfold startUpIsolation
  split
  · dsimp only
    refine finishTaking_queued le_top (raiseHard_queued ?_ _ _ _)
    simp -implicitDefEqProofs [h]
  · exact h

@[simp] theorem tellPower_queued (o n : PowerState) : Queued ⊤ a (tellPower o n s).channels := by
  have hf : Queued ⊤ a (fallbackPort .p2 (fallbackPort .p1 (endAllSessions .power s))).channels :=
    fallbackPort_queued le_top (fallbackPort_queued le_top (endAllSessions_queued le_top rfl h _) _) _
  unfold tellPower
  split
  · simp [h]
  · exact endDsl_queued le_top (abortTest_queued hf _) _
  · exact h

@[simp] theorem powerMoves_queued (o n : PowerState) : Queued ⊤ a (powerMoves o n s).channels := by
  unfold powerMoves
  refine raisePower_queued le_top (tellPower_queued ?_ _ _) _ _
  by_cases hn : n = .reserve <;> simp -implicitDefEqProofs [hn, h]

@[simp] theorem powerInputs_queued : Queued ⊤ a (powerInputs s).channels := by
  unfold powerInputs
  dsimp only
  split <;> simp -implicitDefEqProofs [h]

@[simp] theorem takeInputs_queued : Queued ⊤ a (takeInputs s).channels := by
  unfold takeInputs
  refine senseBoth_queued ?_
  split <;> simp [h]

@[simp] theorem seizeFunc_queued (f : Func) (x : Hold) (c : Channel) (level : Nat) :
    Queued ⊤ a (seizeFunc f x c level s).channels := by
  simp -implicitDefEqProofs [seizeFunc, h]

@[simp] theorem revokeFunc_queued (f : Func) (x : Hold) (level : Nat) :
    Queued ⊤ a (revokeFunc f x level s).channels := by
  have hr : Queued ⊤ a (revokedNotice f x 2 level (removeHold f s)).channels := by simp -implicitDefEqProofs [h]
  simp -implicitDefEqProofs [revokeFunc, hr]

end

theorem expireAll_queued (level : Nat) (l : List ClaimEntry) :
    ∀ {s : State}, Queued ⊤ a s.channels → Queued ⊤ a (expireAll level l s).channels := by
  induction l with
  | nil => exact fun h => h
  | cons e rest ih => exact fun h => ih (by simp -implicitDefEqProofs [h])

theorem releaseCovered_queued (covered : List Channel) (l : List Func) :
    ∀ {s : State}, Queued ⊤ a s.channels → Queued ⊤ a (releaseCovered covered l s).channels := by
  induction l with
  | nil => exact fun h => h
  | cons f rest ih =>
    intro s h
    rw [releaseCovered]
    split
    · refine ih ?_
      split <;> simp [h]
    · exact ih h

end Sys2Proof.Machine
end

