-- ==== Sys2Proof/Proofs/RequestAnswers.lean ====
section
namespace Sys2Proof.Machine

/-! ## Requests -/

/-- A request is served by its owner's answer. -/
theorem exec_request {i : Instr} (h : isRequest i = true) (s : State) : exec i s = .next (arrive i (answer i) s) := by
  cases i <;> first | rfl | cases h

/-- Opening a slot leaves the ports alone. -/
theorem openSlot_ports {i : SlotId} {w : WorkKind} {p : Option Port} {d : Option Nat} {b : Bool} {s : State}
    {t : State} {id : Byte} (h : openSlot i w p d b s = some (t, id)) : t.gateway = s.gateway ∧ t.modem = s.modem := by
  unfold openSlot at h
  split at h
  · cases h
  · dsimp only at h
    split at h <;> cases h <;> simp

/-- CHANNEL RESET, FETCH NOTICES and SUBSCRIBE are the requests that change a channel's record beside its queueing of
notices (R19, R20, R22). -/
def editsChannel : Instr → Bool
  | .fetchNotices _ _ | .subscribe _ _ | .channelReset _ => true
  | _ => false

/-! ## What an owner's answer can be (R7, R10) -/

/-- An owner's answer leaves the ports to the port block, refuses without results and without effect, fits its frame,
and (unless it edits a channel's record) does no more to the channels than hand them notices. -/
structure Served (edits : Bool) (s : State) (x : State × Reply) : Prop where
  gateway : x.1.gateway = s.gateway
  modem : x.1.modem = s.modem
  refusal : x.2.outcome.accepts = false → x.2.results = [] ∧ x.1 = s
  fits : listsBounded s → x.2.results.length ≤ 60
  queued : edits = false → Queued ⊤ s.channels x.1.channels

section
variable {edits : Bool} {s : State}

@[simp] theorem served_iff {t : State} {o : Code} {l : List Byte} :
    Served edits s (t, ⟨o, l⟩) ↔ t.gateway = s.gateway ∧ t.modem = s.modem ∧ (o.accepts = false → l = [] ∧ t = s) ∧
      (listsBounded s → l.length ≤ 60) ∧ (edits = false → Queued ⊤ s.channels t.channels) :=
  ⟨fun ⟨h1, h2, h3, h4, h5⟩ => ⟨h1, h2, h3, h4, h5⟩, fun ⟨h1, h2, h3, h4, h5⟩ => ⟨h1, h2, h3, h4, h5⟩⟩

@[simp] theorem refuse_served (o : Code) : Served edits s (refuse o s) := by
  simp [refuse, served_iff]

@[simp] theorem report_served_iff {l : List Byte} :
    Served edits s (report l s) ↔ (listsBounded s → l.length ≤ 60) := by
  simp [report, Code.accepts]

@[simp] theorem Code.accepts_ok : Code.ok.accepts = true := rfl
@[simp] theorem Code.accepts_accepted : Code.accepted.accepts = true := rfl
@[simp] theorem Code.accepts_queued : Code.queued.accepts = true := rfl

theorem withPort_served {b : Byte} {serve : Port → Server} (hs : ∀ p, Served edits s (serve p s)) :
    Served edits s (withPort b serve s) := by
  unfold withPort
  split
  · simp
  · split
    · exact hs _
    · simp

end

/-! ## The lengths of the fields (R7) -/

@[simp] theorem halfBytes_length (x : Half) : (halfBytes x).length = 2 := rfl
@[simp] theorem half16_length (n : Nat) : (half16 n).length = 2 := rfl
@[simp] theorem wordBytes_length (x : BitVec 32) : (wordBytes x).length = 4 := rfl
@[simp] theorem claimResults_length (f : Func) (a b c : Nat) : (claimResults f a b c).length = 5 := rfl
@[simp] theorem noticeBytes_length (n : Notice) : (noticeBytes n).length = 12 := rfl
@[simp] theorem holdBytes_length (s : State) (f : Func) : (holdBytes s f).length = 3 := rfl
@[simp] theorem functionBytes_length (s : State) (f : Func) : (functionBytes s f).length = 4 := rfl
@[simp] theorem relayBytes_length (x : Relays) : (relayBytes x).length = 7 := rfl
@[simp] theorem claimBytes_length (now : Time) (e : ClaimEntry) : (claimBytes now e).length = 4 := rfl
@[simp] theorem windowBytes_length (w : Window) : (windowBytes w).length = 7 := rfl
@[simp] theorem forecastBytes_length (w : ForecastWindow) : (forecastBytes w).length = 10 := rfl
@[simp] theorem countBytes_length (n : EdgeCounts) : (countBytes n).length = 32 := rfl
@[simp] theorem timingBytes_length (t : HookTiming) : (timingBytes t).length = 10 := rfl
@[simp] theorem exchangeBytes_length (now : Time) (x : ExchangeRing) : (exchangeBytes now x).length = 6 := rfl
@[simp] theorem measurementBytes_length (m : Measurement) : (measurementBytes m).length = 6 := rfl
@[simp] theorem limitEntry_length (l : Limit) : (limitEntry l).length = 9 := rfl
@[simp] theorem isolationBytes_length (now : Time) (i : Isolation) : (isolationBytes now i).length = 10 := rfl
@[simp] theorem briefRecord_length (x : LogRecord) : (briefRecord x).length = 12 := rfl
@[simp] theorem fullRecord_length (x : LogRecord) : (fullRecord x).length = 24 := rfl

@[simp] theorem slotBytes_length (now : Time) (d : Option Disturbance) : (slotBytes now d).length = 9 := by
  cases d <;> rfl

@[simp] theorem switchBytes_length (w : Option ModeSwitch) : (switchBytes w).length = 4 := by
  cases w <;> rfl

@[simp] theorem denialBytes_length (d : Option Denial) : (denialBytes d).length = 6 := by
  cases d <;> rfl

@[simp] theorem sessionBytes_length (x : Option RingSession) : (sessionBytes x).length = 9 := by
  cases x <;> rfl

@[simp] theorem testBytes_length (now : Time) (t : Option Test) : (testBytes now t).length = 9 := by
  cases t <;> rfl

@[simp] theorem captureBytes_length (c : Option Capture) : (captureBytes c).length = 23 := by
  cases c <;> rfl

@[simp] theorem cadenceBytes_length (l : List CadenceStep) : (cadenceBytes l).length = 4 * l.length := by
  simp [cadenceBytes, Nat.mul_comm]

@[simp] theorem entryBytes_length (l : List CadenceStep) : (entryBytes l).length = 13 := by
  simp [entryBytes]

/-! ## Every owner's answer -/

section
variable (r : Req) (s : State)

theorem answerFetchNotices_served (limit : Byte) : Served true s (answerFetchNotices r limit s) := by
  have hl : min limit.toNat (min 4 (s.channels.get r.channel).queue.length) ≤ 4 := by omega
  simp [answerFetchNotices]
  omega

theorem answerChannelReset_served : Served true s (answerChannelReset r s) := by
  simp [answerChannelReset]

theorem answerClaim_served (f : Byte) (wait : Half) (seize : Byte) : Served false s (answerClaim r f wait seize s) := by
  have hwait : ∀ f used, Served false s (waitFor f r.channel (effLevel r) used s) := by
    intro f used
    unfold waitFor
    (repeat' split) <;> simp [enterClaim]
  unfold answerClaim
  dsimp only
  (repeat' split) <;> simp [hwait]

theorem answerTighten_served (f level revoke : Byte) : Served false s (answerTighten r f level revoke s) := by
  have hlower : ∀ f n b, Served false s (lowerLevel f n b s) := by
    intro f n b
    have hq := expireAll_queued (a := s.channels) n ((updFunc f (fun x => { x with level := n }) s).lines.claims.filter
      (fun e => decide (e.function = f) && decide (n < e.level)))
      (s := updFunc f (fun x => { x with level := n }) s) (by simp)
    unfold lowerLevel
    dsimp only
    (repeat' split) <;> simp -implicitDefEqProofs [hq]
  unfold answerTighten
  (repeat' split) <;> simp [hlower]

theorem answerReadFunctions_served : Served false s (answerReadFunctions s) := by
  rw [answerReadFunctions, report_served_iff]
  rintro ⟨hclaims, -⟩
  simp [allFuncs]
  omega

theorem acceptDsl_served (c : Channel) (x : Coupling) : Served false s (acceptDsl c x s) := by
  unfold acceptDsl
  split
  · simp
  · next t id ho =>
    have hq := openSlot_queued (K := ⊤) le_top .refl ho
    obtain ⟨hg, hm⟩ := openSlot_ports ho
    simp -implicitDefEqProofs [hg, hm, hq]

theorem answerSetDsl_served (b : Byte) : Served false s (answerSetDsl r b s) := by
  unfold answerSetDsl
  (repeat' split) <;> simp [acceptDsl_served]

theorem answerReadDisturbances_served (part : Byte) : Served false s (answerReadDisturbances part s) := by
  unfold answerReadDisturbances
  split
  · simp [allSlots]
  · rw [report_served_iff]
    rintro ⟨-, hwindows, -⟩
    simp
    omega
  · simp

theorem answerReadForecast_served : Served false s (answerReadForecast s) := by
  rw [answerReadForecast, report_served_iff]
  rintro ⟨-, -, hforecast, -⟩
  simp
  omega

/-- The end of a session empties its port's slot (R129). -/
theorem endSession_empties_slot {p : Port} (why : RingReason) (cause : Nat) (h : (session s p).isSome = true) :
    slotRec (endSession p why cause s) (portSlot p) = none := by
  obtain ⟨x, hx⟩ := Option.isSome_iff_exists.1 h
  unfold endSession
  simp only [hx]
  generalize (if inBurst s p = true then endBurst p (.silent false) s else s) = u
  generalize updSession p (fun y => { y with phaseDue := none }) u = v
  have hv : slotRec (endSlot (portSlot p) v) (portSlot p) = none := by
    unfold endSlot
    split
    · simp [slotRec, setSlot]
    · assumption
  simpa [slotRec] using hv

theorem acceptSwitch_served (p : Port) (m : PlainMode) (c : Channel) (b : Bool) :
    Served false s (acceptSwitch p m c b s) := by
  have he := endSession_queued (K := ⊤) (s := s) le_top rfl .refl p .mode 0
  unfold acceptSwitch
  dsimp only
  split
  · next ho =>
    have hs : session s p = none := by
      by_contra hs
      have hslot := endSession_empties_slot s .mode 0 (Option.isSome_iff_ne_none.2 hs)
      unfold openSlot at ho
      rw [hslot] at ho
      dsimp only at ho
      split at ho <;> cases ho
    simp [endSession, hs]
  · next t id ho =>
    have hq := openSlot_queued (K := ⊤) le_top he ho
    obtain ⟨hg, hm⟩ := openSlot_ports ho
    simp -implicitDefEqProofs [hg, hm, hq]

theorem answerSetMode_served (port mode force : Byte) : Served false s (answerSetMode r port mode force s) := by
  unfold answerSetMode
  split
  · refine withPort_served fun p => ?_
    unfold decideMode
    dsimp only
    (repeat' split) <;> simp [acceptSwitch_served]
  · simp

theorem answerReadPort_served (port : Byte) : Served false s (answerReadPort port s) :=
  withPort_served fun p => by simp

theorem answerSetHookTiming_served (port : Byte) (a b c d e : Half) :
    Served false s (answerSetHookTiming r port a b c d e s) := by
  refine withPort_served fun p => ?_
  dsimp only
  (repeat' split) <;> simp

theorem answerReadDial_served (port : Byte) : Served false s (answerReadDial port s) := by
  refine withPort_served fun p => ?_
  rw [report_served_iff]
  rintro ⟨-, -, -, hdial1, hdial2, -⟩
  cases p <;> simp [State.port, PerPort.get] <;> omega

theorem answerClearDial_served (port : Byte) : Served false s (answerClearDial r port s) := by
  refine withPort_served fun p => ?_
  split <;> simp

theorem acceptRing_served (p : Port) (c : Channel) (n k : Nat) (l : List CadenceStep) :
    Served false s (acceptRing p c n k l s) := by
  unfold acceptRing
  split
  · simp
  · next t id ho =>
    have hq := openSlot_queued (K := ⊤) le_top .refl ho
    obtain ⟨hg, hm⟩ := openSlot_ports ho
    simp -implicitDefEqProofs [hg, hm, hq]

theorem answerRing_served (port cadence cycles : Byte) : Served false s (answerRing r port cadence cycles s) := by
  refine withPort_served fun p => ?_
  unfold decideRing
  dsimp only
  (repeat' split) <;> simp [acceptRing_served]

theorem answerStopRing_served (port : Byte) : Served false s (answerStopRing r port s) := by
  refine withPort_served fun p => ?_
  (repeat' split) <;> simp

theorem answerSetCadence_served (e n : Byte) (steps : List StepArg) :
    Served false s (answerSetCadence r e n steps s) := by
  unfold answerSetCadence
  split
  · simp
  · split
    · simp
    · simp
      omega

theorem answerReadRing_served (part : Byte) : Served false s (answerReadRing part s) := by
  unfold answerReadRing
  split <;> simp [Quad.toList]

/-- A test is started in a state that differs from the one before it in no port and no channel. -/
theorem startTest_served (o : Order) {u : State} (hg : u.gateway = s.gateway) (hm : u.modem = s.modem)
    (hc : u.channels = s.channels) : Served false s (startTest o u s) := by
  unfold startTest acceptTest
  cases ho : openSlot (targetSlot o.target) .testConnect (targetPort o.target) (some (2 * o.kind.measureMs + 40))
      (!o.forced) (markUnderTest o.target u) with
  | none => simp
  | some x =>
    obtain ⟨t, id⟩ := x
    have hq := openSlot_queued (K := ⊤) (a := s.channels) le_top (by simp [hc]) ho
    obtain ⟨hg', hm'⟩ := openSlot_ports ho
    simp -implicitDefEqProofs [hg', hm', hq, hg, hm]

theorem answerRunTest_served (k t f : Byte) (l : List LimitArg) : Served false s (answerRunTest r k t f l s) := by
  unfold answerRunTest
  split
  · simp
  · split
    · simp
    · dsimp only
      (repeat' split) <;> first | exact refuse_served _ | exact startTest_served s _ rfl rfl rfl

theorem answerRunGatedTest_served (g : Byte) : Served false s (answerRunGatedTest r g s) := by
  have hgrant : ∀ f c level gate, (gatedGrant f c level gate s).1.gateway = s.gateway ∧
      (gatedGrant f c level gate s).1.modem = s.modem ∧ (gatedGrant f c level gate s).1.channels = s.channels := by
    intro f c level gate
    unfold gatedGrant
    (repeat' split) <;> simp
  have hrun : ∀ x n c b u, u.gateway = s.gateway ∧ u.modem = s.modem ∧ u.channels = s.channels →
      Served false s (runGate x n c b u s) := by
    rintro x n c b u ⟨hg, hm, hc⟩
    unfold runGate
    (repeat' split) <;> simp [startTest_served, hg, hm, hc]
  unfold answerRunGatedTest
  split
  · simp
  · split
    · simp
    · next x _ =>
      have hx := hgrant (targetFunc x.target) r.channel (effLevel r) g.toNat
      (repeat' split) <;> simp_all

theorem answerReadTestResult_served : Served false s (answerReadTestResult s) := by
  rw [answerReadTestResult, report_served_iff]
  rintro ⟨-, -, -, -, -, hresult, -⟩
  cases hx : s.engine.result with
  | none => simp [resultBytes]
  | some x =>
    have := hresult x hx
    simp [resultBytes]
    omega

theorem answerReadGates_served (g : Byte) : Served false s (answerReadGates g s) := by
  unfold answerReadGates
  split
  · simp
  · rw [report_served_iff]
    rintro ⟨-, -, -, -, -, -, -, hgates⟩
    cases hx : s.engine.gates.get g.toNat with
    | none => simp [gateBytes]
    | some x =>
      have := hgates _ x hx
      simp [gateBytes]
      omega

theorem answerReadIsolation_served : Served false s (answerReadIsolation s) := by
  simp [answerReadIsolation, allClasses]

theorem answerReadLog_served (n : BitVec 32) (form : Byte) : Served false s (answerReadLog n form s) := by
  unfold answerReadLog
  dsimp only
  split <;> simp <;> omega

end
/-- No request's answer is more than R7 and R10 allow. -/
theorem answer_served {i : Instr} (s : State) (hr : isRequest i = true) : Served (editsChannel i) s (answer i s) := by
  cases i with
  | identify r => simp [answer, answerIdentify]
  | fetchNotices r limit => exact answerFetchNotices_served r s limit
  | subscribe r kinds => simp [answer, answerSubscribe, editsChannel]
  | channelReset r => exact answerChannelReset_served r s
  | readTime r => simp [answer, answerReadTime]
  | claim r f w z => exact answerClaim_served r s f w z
  | release r f =>
    simp only [answer, answerRelease]
    (repeat' split) <;> simp [editsChannel]
  | queryFunction r f =>
    simp only [answer, answerQueryFunction]
    split <;> simp
  | tighten r f v k => exact answerTighten_served r s f v k
  | readFunctions r => exact answerReadFunctions_served s
  | setDsl r c => exact answerSetDsl_served r s c
  | braced r id =>
    simp only [answer, answerBraced]
    (repeat' split) <;> simp [editsChannel]
  | defer r id extra =>
    simp only [answer, answerDefer]
    (repeat' split) <;> simp [editsChannel]
  | setLead r lead =>
    simp only [answer, answerSetLead]
    split <;> simp
  | readDisturbances r part => exact answerReadDisturbances_served s part
  | trackerConfig r e d =>
    simp only [answer, answerTrackerConfig]
    (repeat' split) <;> simp -implicitDefEqProofs
  | trackerRestart r =>
    simp only [answer, answerTrackerRestart]
    (repeat' split) <;> simp -implicitDefEqProofs
  | readTracker r => simp [answer, answerReadTracker]
  | readForecast r => exact answerReadForecast_served s
  | readAndClearEdgeCounts r => simp [answer, answerReadAndClear]
  | setMode r p m f => exact answerSetMode_served r s p m f
  | readPort r p => exact answerReadPort_served s p
  | setHookTiming r p a b c d e => exact answerSetHookTiming_served r s p a b c d e
  | readDial r p => exact answerReadDial_served s p
  | clearDial r p => exact answerClearDial_served r s p
  | ring r p c n => exact answerRing_served r s p c n
  | stopRing r p => exact answerStopRing_served r s p
  | setCadence r e n steps => exact answerSetCadence_served r s e n steps
  | setExchangeRingCount r n =>
    simp only [answer, answerSetExchangeRingCount]
    split <;> simp
  | readRing r part => exact answerReadRing_served s part
  | runTest r k t f limits => exact answerRunTest_served r s k t f limits
  | runGatedTest r g => exact answerRunGatedTest_served r s g
  | abortTest r =>
    simp only [answer, answerAbortTest]
    (repeat' split) <;> simp
  | readTestResult r => exact answerReadTestResult_served s
  | installGate r g v k t limits =>
    simp only [answer, answerInstallGate]
    (repeat' split) <;> simp
  | removeGate r g =>
    simp only [answer, answerRemoveGate]
    (repeat' split) <;> simp
  | setCable r c =>
    simp only [answer, answerSetCable]
    split <;> simp
  | readGates r g => exact answerReadGates_served s g
  | setClassLevel r c v =>
    simp only [answer, answerSetClassLevel]
    (repeat' split) <;> simp
  | releaseLockout r =>
    simp only [answer, answerReleaseLockout]
    (repeat' split) <;> simp
  | readIsolation r => exact answerReadIsolation_served s
  | readLog r f form => exact answerReadLog_served s f form
  | clearLog r =>
    simp only [answer, answerClearLog]
    split <;> simp
  | setLogPolicy r p =>
    simp only [answer, answerSetLogPolicy]
    (repeat' split) <;> simp
  | readCapture r => simp [answer, answerReadCapture]
  | clearCapture r =>
    simp only [answer, answerClearCapture]
    split <;> simp
  | setMasks r m => simp -implicitDefEqProofs [answer, answerSetMasks]
  | setThreshold r t => simp -implicitDefEqProofs [answer, answerSetThreshold]
  | clearPending r c => simp [answer, answerClearPending]
  | startQuiet r n =>
    simp only [answer, answerStartQuiet]
    split <;> simp
  | endQuiet r =>
    simp only [answer, answerEndQuiet]
    (repeat' split) <;> simp
  | saveSettings r =>
    simp only [answer, answerSaveSettings]
    (repeat' split) <;> simp
  | readPower r => simp [answer, answerReadPower]
  | _ => cases hr

end Sys2Proof.Machine
end

