-- ==== Sys2Proof/Proofs/QueueInvariant.lean ====
section
namespace Sys2Proof.Machine

/-! ## A frame reads back as a request (R8) -/

/-- What was read, if anything was, is a request and no event. -/
def ReadsRequest (x : Option Instr) : Prop := ∀ i, x = some i → isRequest i = true

section
variable {ops : List Byte}

@[simp] theorem none_readsRequest : ReadsRequest none := fun _ h => nomatch h

@[simp] theorem some_readsRequest {i : Instr} : ReadsRequest (some i) ↔ isRequest i = true := by
  simp [ReadsRequest]

@[simp] theorem map_readsRequest {α : Type} {x : Option α} {f : α → Instr} (h : ∀ a, isRequest (f a) = true) :
    ReadsRequest (x.map f) := by
  cases x <;> simp [h]

@[simp] theorem noOperands_readsRequest {i : Instr} (h : isRequest i = true) : ReadsRequest (noOperands i ops) := by
  unfold noOperands
  split <;> simp [h]

@[simp] theorem oneByte_readsRequest {i : Byte → Instr} (h : ∀ a, isRequest (i a) = true) :
    ReadsRequest (oneByte i ops) := by
  unfold oneByte
  split <;> simp [h]

@[simp] theorem twoBytes_readsRequest {i : Byte → Byte → Instr} (h : ∀ a b, isRequest (i a b) = true) :
    ReadsRequest (twoBytes i ops) := by
  unfold twoBytes
  split <;> simp [h]

@[simp] theorem threeBytes_readsRequest {i : Byte → Byte → Byte → Instr} (h : ∀ a b c, isRequest (i a b c) = true) :
    ReadsRequest (threeBytes i ops) := by
  unfold threeBytes
  split <;> simp [h]

@[simp] theorem oneHalf_readsRequest {i : Half → Instr} (h : ∀ a, isRequest (i a) = true) :
    ReadsRequest (oneHalf i ops) := by
  unfold oneHalf
  split <;> simp [h]

@[simp] theorem subscribeOperands_readsRequest (r : Req) : ReadsRequest (subscribeOperands r ops) := by
  unfold subscribeOperands
  split <;> simp -implicitDefEqProofs [isRequest, requestParts]

@[simp] theorem claimOperands_readsRequest (r : Req) : ReadsRequest (claimOperands r ops) := by
  unfold claimOperands
  split <;> simp -implicitDefEqProofs [isRequest, requestParts]

@[simp] theorem trackerConfigOperands_readsRequest (r : Req) : ReadsRequest (trackerConfigOperands r ops) := by
  unfold trackerConfigOperands
  split <;> simp -implicitDefEqProofs [isRequest, requestParts]

@[simp] theorem hookTimingOperands_readsRequest (r : Req) : ReadsRequest (hookTimingOperands r ops) := by
  unfold hookTimingOperands
  split <;> simp -implicitDefEqProofs [isRequest, requestParts]

@[simp] theorem cadenceOperands_readsRequest (r : Req) : ReadsRequest (cadenceOperands r ops) := by
  unfold cadenceOperands
  split <;> simp -implicitDefEqProofs [isRequest, requestParts]

@[simp] theorem runTestOperands_readsRequest (r : Req) : ReadsRequest (runTestOperands r ops) := by
  unfold runTestOperands
  split <;> simp -implicitDefEqProofs [isRequest, requestParts]

@[simp] theorem installGateOperands_readsRequest (r : Req) : ReadsRequest (installGateOperands r ops) := by
  unfold installGateOperands
  split <;> simp -implicitDefEqProofs [isRequest, requestParts]

@[simp] theorem readLogOperands_readsRequest (r : Req) : ReadsRequest (readLogOperands r ops) := by
  unfold readLogOperands
  split <;> simp -implicitDefEqProofs [isRequest, requestParts]

end

theorem decodeRequest_readsRequest (r : Req) (code : Nat) (ops : List Byte) :
    ReadsRequest (decodeRequest r code ops) := by
  unfold decodeRequest
  split <;> simp -implicitDefEqProofs [isRequest, requestParts]

theorem decodeFrame_readsRequest (port : PhysPort) (bytes : List Byte) : ReadsRequest (decodeFrame port bytes) := by
  unfold decodeFrame
  (repeat' split) <;> simp [decodeRequest_readsRequest]

/-! ## The queues stay sound (R15 to R17) -/

theorem queuesSound_of_queued {s t : State} (h : Queued ⊤ s.channels t.channels) (hs : queuesSound s) :
    queuesSound t :=
  fun c => h.queueSound c (hs c)

theorem queuesSound_of_channels_eq {s t : State} (h : t.channels = s.channels) (hs : queuesSound s) :
    queuesSound t := by
  intro c
  rw [h]
  exact hs c

/-- The queues of every channel after a reset are sound: they are empty. -/
theorem queueSound_of_empty {c : ChannelRec} (h : c.queue = []) : queueSound c := by
  simp [queueSound, inQueueOrder, h]

theorem queueSound_of_queue_eq {c d : ChannelRec} (h : d.queue = c.queue) (hc : queueSound c) : queueSound d := by
  unfold queueSound at hc ⊢
  rwa [h]

theorem freshChannels_queuesSound (l : List Channel) :
    ∀ {s : State}, queuesSound s → queuesSound (freshChannels l s) := by
  induction l with
  | nil => exact fun h => h
  | cons c rest ih =>
    refine fun h => ih fun d => ?_
    by_cases hd : d = c
    · subst hd
      simpa [State.updChannel] using queueSound_of_empty (c := freshChannel d) rfl
    · simpa [State.updChannel, hd] using h d

theorem channelReset_queued (l : List Channel) (s : State) :
    Queued ⊤ (freshChannels l s).channels (channelReset l s).channels := by
  have hr := releaseCovered_queued (a := (freshChannels l s).channels) l allFuncs (s := setClaims
    ((freshChannels l s).lines.claims.filter (fun e => !l.contains e.channel)) (freshChannels l s)) (by simp)
  exact engineReset_queued (by simpa [resetHolds] using hr) _

theorem channelReset_queuesSound (l : List Channel) {s : State} (h : queuesSound s) : queuesSound (channelReset l s) :=
  queuesSound_of_queued (channelReset_queued l s) (freshChannels_queuesSound l h)

theorem answerFetchNotices_queuesSound (r : Req) (limit : Byte) {s : State} (h : queuesSound s) :
    queuesSound (answerFetchNotices r limit s).1 := by
  intro c
  by_cases hc : c = r.channel
  · obtain ⟨hlen, hord, hone⟩ := h c
    subst hc
    have hsub := List.drop_sublist (min limit.toNat 4) (s.channels.get r.channel).queue
    simp only [answerFetchNotices, State.updChannel, PerChan.get_set_same]
    exact ⟨hsub.length_le.trans hlen, hord.sublist hsub, fun k hk => hsub.countP_le.trans (hone k hk)⟩
  · simpa [answerFetchNotices, State.updChannel, hc] using h c

theorem answerSubscribe_queuesSound (r : Req) (kinds : BitVec 32) {s : State} (h : queuesSound s) :
    queuesSound (answerSubscribe r kinds s).1 := by
  intro c
  by_cases hc : c = r.channel
  · subst hc
    have hq : ((answerSubscribe r kinds s).1.channels.get r.channel).queue = (s.channels.get r.channel).queue := by
      simp [answerSubscribe, State.updChannel]
    exact queueSound_of_queue_eq hq (h r.channel)
  · simpa [answerSubscribe, State.updChannel, hc] using h c

/-- Every owner's answer keeps the queues sound. -/
theorem answer_queuesSound {i : Instr} (hr : isRequest i = true) {s : State} (h : queuesSound s) :
    queuesSound (answer i s).1 := by
  by_cases he : editsChannel i = true
  · cases i with
    | fetchNotices r limit => exact answerFetchNotices_queuesSound r limit h
    | subscribe r kinds => exact answerSubscribe_queuesSound r kinds h
    | channelReset r => exact channelReset_queuesSound _ h
    | _ => cases he
  · exact queuesSound_of_queued ((answer_served s hr).queued (by simpa using he)) h

theorem gatewayTake_queuesSound {n : Nat} {serve : State → State × List Byte}
    (hserve : ∀ s, queuesSound s → queuesSound (serve s).1) {s : State} (h : queuesSound s) :
    queuesSound (gatewayTake n serve s) := by
  unfold gatewayTake
  dsimp only
  split
  · exact queuesSound_of_channels_eq rfl (hserve _ h)
  · exact h

theorem modemTake_queuesSound {serve : State → State × List Byte}
    (hserve : ∀ s, queuesSound s → queuesSound (serve s).1) {s : State} (h : queuesSound s) :
    queuesSound (modemTake serve s) := by
  unfold modemTake
  split
  · exact queuesSound_of_channels_eq rfl (hserve _ h)
  · exact h

theorem arrive_queuesSound {i : Instr} (hr : isRequest i = true) {s : State} (h : queuesSound s) :
    queuesSound (arrive i (answer i) s) := by
  have hserve : ∀ (code tag : Byte) u, queuesSound u → queuesSound (respond code tag (answer i) u).1 :=
    fun _ _ _ hu => answer_queuesSound hr hu
  unfold arrive
  split
  · exact h
  · split
    · exact gatewayTake_queuesSound (hserve _ _) h
    · exact modemTake_queuesSound (hserve _ _) h

theorem serveFrame_queuesSound (port : PhysPort) (bytes : List Byte) {s : State} (h : queuesSound s) :
    queuesSound (serveFrame port bytes s).1 := by
  unfold serveFrame
  split
  · split
    · next i hi => exact answer_queuesSound (decodeFrame_readsRequest port bytes i hi) h
    · exact h
  · exact h

end Sys2Proof.Machine
end

section
namespace Sys2Proof.Machine

/-! ## Every command keeps the queues sound -/

theorem loadCompletes_queued (b : Bool) (s : State) : Queued ⊤ s.channels (loadCompletes b s).channels := by
  have hp : Queued ⊤ s.channels ((putInForce (loaded s.store.image b).1 s).updStore
      (fun k => { k with loadResult := (loaded s.store.image b).2 })).channels := by simp [putInForce]
  unfold loadCompletes
  dsimp only
  refine startUpIsolation_queued ?_
  split
  · exact raiseFault_queued le_top hp _
  · exact hp

/-- The events that do no more to the channels than hand them notices: all but the frames, the starts and the assertion
of a port-reset. -/
def handsOnly : Instr → Bool
  | .powerOnReset _ | .resetPinAssert | .resetPinRelease _ | .supplyLoss | .portResetAssert _ | .gatewayTransfer _
  | .modemFrame _ | .modemByteGapTimeout _ | .modemStopBitError _ => false
  | i => !isRequest i

theorem exec_queued {i : Instr} (hi : handsOnly i = true) (s : State) :
    ∃ t, exec i s = .next t ∧ Queued ⊤ s.channels t.channels := by
  cases i
  case settingsLoadComplete b =>
    refine ⟨_, rfl, ?_⟩
    split
    · exact loadCompletes_queued b s
    · simp
  case modemResponseSent | thermalDeassert | hazardDeassert | modemBadLength =>
    exact ⟨_, rfl, by simp⟩
  case claimDeadlineExpiry | changeSetComplete | leadExpiry | blankingWindowRemoval | impulseEdge |
      deadTimeExpiry | edgeClassification | acquireExpiry | windowCheck | feedOverLimitChange | feedDenial |
      probeStart | probeEnd | loopChange | seizeTimerExpiry | breakTimerExpiry | digitGapExpiry |
      ringPhaseTimerExpiry | ringTripInputChange | tripTimerExpiry | ringCurrentLimitChange |
      ringFaultTimerExpiry | exchangeRingOnset | exchangeRingOffset | callGapExpiry | cleanTimerExpiry |
      wallTimerExpiry | surge | hazardAssert | dwellExpiry | thermalAssert | exchangeDcLowChange |
      batteryWatchExpiry | quietExpiry | mainsInputChange | reserveInputChange | writeCompletion |
      portResetRelease =>
    refine ⟨_, rfl, ?_⟩
    (repeat' split) <;> simp -implicitDefEqProofs
  all_goals cases hi

/-- The queues of a part that starts are empty, but for the notices of its first readings. -/
theorem freshQueues_sound {s t : State}
    (h : s.channels = ⟨freshChannel .modem, freshChannel .management, freshChannel .gateway⟩)
    (ht : Queued ⊤ s.channels t.channels) : queuesSound t := by
  refine queuesSound_of_queued ht fun c => queueSound_of_empty ?_
  rw [h]
  cases c <;> rfl

theorem powerOn_queuesSound (x : Straps) (s : State) : queuesSound (powerOn x s) := by
  refine freshQueues_sound (s := powerOnValues s) rfl ?_
  simp -implicitDefEqProofs [powerOn, sampleStraps]

theorem resetPinRestart_queuesSound (x : Straps) (s : State) : queuesSound (resetPinRestart x s) := by
  refine freshQueues_sound (s := resetPinValues s) rfl ?_
  simp -implicitDefEqProofs [resetPinRestart, sampleStraps]

theorem exec_queuesSound {i : Instr} {s t : State} (h : queuesSound s) (he : exec i s = .next t) : queuesSound t := by
  by_cases hr : isRequest i = true
  · rw [exec_request hr] at he
    cases he
    exact arrive_queuesSound hr h
  by_cases hi : handsOnly i = true
  · obtain ⟨t', he', ht⟩ := exec_queued hi s
    rw [he'] at he
    cases he
    exact queuesSound_of_queued ht h
  cases i with
  | powerOnReset x =>
    cases he
    exact powerOn_queuesSound x s
  | resetPinAssert =>
    cases he
    split
    · exact h
    · exact freshQueues_sound (s := resetPinValues s) rfl .refl
  | resetPinRelease x =>
    cases he
    split
    · exact resetPinRestart_queuesSound x s
    · exact h
  | supplyLoss =>
    cases he
    exact freshQueues_sound (s := powerOnValues s) rfl .refl
  | portResetAssert port =>
    cases he
    have keep {u : State} (hu : u.channels = s.channels) :
        queuesSound (if awake u then channelReset (channelsOf port) u else u) := by
      split
      · exact channelReset_queuesSound _ (queuesSound_of_channels_eq hu h)
      · exact queuesSound_of_channels_eq hu h
    exact keep (by cases port <;> rfl)
  | gatewayTransfer bytes =>
    cases he
    split
    · exact queuesSound_of_channels_eq rfl h
    · exact gatewayTake_queuesSound (fun _ => serveFrame_queuesSound _ _) h
  | modemFrame bytes =>
    cases he
    exact modemTake_queuesSound (fun _ => serveFrame_queuesSound _ _) h
  | modemByteGapTimeout bytes =>
    cases he
    exact modemTake_queuesSound (fun _ => id) h
  | modemStopBitError bytes =>
    cases he
    exact modemTake_queuesSound (fun _ => id) h
  | _ => exact absurd (by simp [handsOnly, isRequest, requestParts] at hr hi ⊢) hi

/-- The passing of time hands no notice. -/
theorem tick_channels (s : State) : (tick s).channels = s.channels := by
  unfold tick
  split <;> rfl

/-- Settles O53: a notice keeps a sound queue sound whatever its kind, and the commands that edit a queue take notices
off its front or empty it. -/
theorem noticeQueuesStaySound : Obligations.NoticeQueuesStaySound := by
  intro s t h hstep
  unfold step takeFront at hstep
  split at hstep
  · cases hstep
    exact queuesSound_of_channels_eq (tick_channels s) h
  · next c rest _ => exact exec_queuesSound (s := s.setPending rest) h hstep

end Sys2Proof.Machine
end

