-- ==== Sys2Proof/Proofs/Requests.lean ====
section
namespace Sys2Proof.Machine

/-! ## Requests taken and not taken -/

theorem exec_of_taken {i : Instr} {s : State} (h : frameTaken i s) (hr : isRequest i = true) :
    exec i s = .next (answered i (answer i (frameIn i s)).2.outcome (answer i (frameIn i s)).2.results
      (answer i (frameIn i s)).1) := by
  rw [exec_request hr, arrive_of_taken h]

/-- A transfer that the gateway port does not take changes no more than the bytes it shifts out (R1, R2). -/
theorem shiftOut_of_not_open {n : Nat} {s : State} (h : ¬portOpen .gateway n s) :
    ∃ out, s.gateway.shiftOut n = { s.gateway with out := out } := by
  unfold GatewayPort.shiftOut
  split
  · next hl =>
    obtain ⟨hready, hreset⟩ : s.gateway.ready = true ∧ s.gateway.resetInput = false := by
      simpa [GatewayPort.listens] using hl
    split
    · next b hb =>
      have hlong : ¬b.length ≤ n := fun hn => h ⟨hready, hreset, fun x hx => by simp_all⟩
      exact ⟨(b ++ List.replicate n 0).take n, by rw [if_neg hlong, ← hb]⟩
    · exact ⟨_, rfl⟩
  · exact ⟨_, rfl⟩

/-- Settles O7: the answer to a taken request is `answer_served`'s, and a frame that is not taken only shifts out. -/
theorem eachRequestIsAnsweredOnce : Obligations.EachRequestIsAnsweredOnce := by
  refine fun i s hr => ⟨fun ht => ?_, fun hn => ?_⟩
  · have hs := answer_served (frameIn i s) hr
    exact ⟨_, _, _, exec_of_taken ht hr, hs.gateway, hs.modem, hs.refusal⟩
  · rw [exec_request hr]
    obtain ha | ⟨n, hshape, ha⟩ := arrive_not_taken (serve := answer i) hn
    · exact ⟨s.gateway.out, by rw [ha], .inl rfl⟩
    · obtain ⟨out, ho⟩ := shiftOut_of_not_open (s := s) (n := n) (by simpa [frameTaken, hshape] using hn)
      exact ⟨out, by rw [ha, State.updGateway, ho], .inr (by rw [hshape]; rfl)⟩

/-! ## Responses (R7) -/

theorem responseTo_length {i : Instr} (hr : isRequest i = true) (o : Code) (results : List Byte) :
    (responseTo i o results).length = 4 + results.length := by
  obtain ⟨⟨r, code, ops⟩, hq⟩ := Option.isSome_iff_exists.1 hr
  simp [responseTo, hq]
  omega

theorem responseTo_headD {i : Instr} (hr : isRequest i = true) (o : Code) (results : List Byte) :
    (responseTo i o results).headD 0 = byte (4 + results.length) := by
  obtain ⟨⟨r, code, ops⟩, hq⟩ := Option.isSome_iff_exists.1 hr
  simp [responseTo, hq]

theorem listsBounded_frameIn {i : Instr} {s : State} (h : listsBounded s) : listsBounded (frameIn i s) := by
  unfold frameIn
  split <;> exact h

/-- Settles O8: no owner answers with more than 60 result bytes (`Served.fits`). -/
theorem responsesFitTheirFrame : Obligations.ResponsesFitTheirFrame := by
  intro i s hr _ hb ht
  have hfit := (answer_served (frameIn i s) hr).fits (listsBounded_frameIn hb)
  refine ⟨_, _, _, exec_of_taken ht hr, ?_, ?_, ?_⟩
  · rw [responseTo_length hr]
    omega
  · rw [responseTo_length hr]
    omega
  · rw [responseTo_length hr, responseTo_headD hr, byte, BitVec.toNat_ofNat]
    omega

/-! ## FETCH NOTICES and SUBSCRIBE (R19, R20) -/

@[simp] theorem frameIn_channels (i : Instr) (s : State) : (frameIn i s).channels = s.channels := by
  unfold frameIn
  split <;> rfl

/-- Settles O10. -/
theorem fetchTakesTheHead : Obligations.FetchTakesTheHead := by
  intro r limit s ht
  dsimp only
  rw [exec_of_taken ht rfl]
  simp [answer, answerFetchNotices, State.updChannel, byte, flagByte]

/-- The kinds that can be subscribed are codes 1 and 3 to 19 (R20). -/
theorem subscribable_getLsbD (k : Nat) : subscribable.getLsbD k = decide (k = 1 ∨ 3 ≤ k ∧ k ≤ 19) := by
  by_cases hk : k < 32
  · revert k
    decide
  · rw [BitVec.getLsbD_of_ge _ _ (by omega)]
    symm
    simp
    omega

/-- Settles O11. -/
theorem subscribeReplacesTheSet : Obligations.SubscribeReplacesTheSet := by
  intro r kinds s ht
  dsimp only
  refine ⟨kinds &&& subscribable, fun k => by rw [BitVec.getLsbD_and, subscribable_getLsbD], ?_⟩
  rw [exec_of_taken ht rfl]
  rfl

end Sys2Proof.Machine
end

