-- ==== Sys2Proof/Proofs/Frames.lean ====
section
namespace Sys2Proof.Laws.Parts

/-- Every request's operands are read back: the family Parts, in one statement. -/
theorem readBack (i : Instr) : Statement i := by
  cases i with
  | identify r => exact identify r
  | fetchNotices r limit => exact fetchNotices r limit
  | subscribe r kinds => exact subscribe r kinds
  | channelReset r => exact channelReset r
  | readTime r => exact readTime r
  | claim r function wait seize => exact claim r function wait seize
  | release r function => exact release r function
  | queryFunction r function => exact queryFunction r function
  | tighten r function newLevel revoke => exact tighten r function newLevel revoke
  | readFunctions r => exact readFunctions r
  | setDsl r coupling => exact setDsl r coupling
  | braced r id => exact braced r id
  | defer r id extra => exact defer r id extra
  | setLead r lead => exact setLead r lead
  | readDisturbances r part => exact readDisturbances r part
  | trackerConfig r enable deadTime => exact trackerConfig r enable deadTime
  | trackerRestart r => exact trackerRestart r
  | readTracker r => exact readTracker r
  | readForecast r => exact readForecast r
  | readAndClearEdgeCounts r => exact readAndClearEdgeCounts r
  | setMode r port mode force => exact setMode r port mode force
  | readPort r port => exact readPort r port
  | setHookTiming r port seize glitch pulseMax flashMax digitGap =>
    exact setHookTiming r port seize glitch pulseMax flashMax digitGap
  | readDial r port => exact readDial r port
  | clearDial r port => exact clearDial r port
  | ring r port cadence cycles => exact ring r port cadence cycles
  | stopRing r port => exact stopRing r port
  | setCadence r entry stepCount steps => exact setCadence r entry stepCount steps
  | setExchangeRingCount r n => exact setExchangeRingCount r n
  | readRing r part => exact readRing r part
  | runTest r kind target force limits => exact runTest r kind target force limits
  | runGatedTest r gate => exact runGatedTest r gate
  | abortTest r => exact abortTest r
  | readTestResult r => exact readTestResult r
  | installGate r gate gateLevel kind target limits => exact installGate r gate gateLevel kind target limits
  | removeGate r gate => exact removeGate r gate
  | setCable r constant => exact setCable r constant
  | readGates r gate => exact readGates r gate
  | setClassLevel r cls level => exact setClassLevel r cls level
  | releaseLockout r => exact releaseLockout r
  | readIsolation r => exact readIsolation r
  | readLog r fromSeq form => exact readLog r fromSeq form
  | clearLog r => exact clearLog r
  | setLogPolicy r policy => exact setLogPolicy r policy
  | readCapture r => exact readCapture r
  | clearCapture r => exact clearCapture r
  | setMasks r masks => exact setMasks r masks
  | setThreshold r threshold => exact setThreshold r threshold
  | clearPending r classes => exact clearPending r classes
  | startQuiet r seconds => exact startQuiet r seconds
  | endQuiet r => exact endQuiet r
  | readPower r => exact readPower r
  | saveSettings r => exact saveSettings r
  | _ => exact of_none rfl

end Sys2Proof.Laws.Parts

namespace Sys2Proof.Machine

/-! ## A request's frame (R7, R8) -/

@[simp] theorem limitBytes_length (l : List LimitArg) : (limitBytes l).length = 9 * l.length := by
  induction l with
  | nil => rfl
  | cons x rest ih => simp [limitBytes, ih]; omega

@[simp] theorem stepBytes_length (l : List StepArg) : (stepBytes l).length = 4 * l.length := by
  induction l with
  | nil => rfl
  | cons x rest ih => simp [stepBytes, ih]; omega

/-- A well-formed request's operands fit a frame of 64 bytes (R7). -/
theorem operands_length_le {i : Instr} {r : Req} {code : Byte} {ops : List Byte} (hw : i.wellFormed = true)
    (h : requestParts i = some (r, code, ops)) : ops.length ≤ 60 := by
  cases i with
  | setCadence _ _ _ steps =>
    cases h
    have : steps.length ≤ 3 := by simpa [Instr.wellFormed] using hw
    simp
    omega
  | runTest _ _ _ _ limits =>
    cases h
    have : limits.length ≤ 4 := by simpa [Instr.wellFormed] using hw
    simp
    omega
  | installGate _ _ _ _ _ limits =>
    cases h
    have : limits.length ≤ 4 := by simpa [Instr.wellFormed] using hw
    simp
    omega
  | _ => cases h <;> simp

theorem encodeFrame_eq {i : Instr} {r : Req} {code : Byte} {ops : List Byte}
    (h : requestParts i = some (r, code, ops)) :
    encodeFrame i = some (byte (4 + ops.length) :: code :: levelByte r :: r.tag :: ops) := by
  simp [encodeFrame, h, byte]

/-- Byte 2 of a request frame carries the channel field and the level (R7). -/
theorem levelByte_fields (channel level : BitVec 2) :
    ((0#2 ++ channel) ++ (0#2 ++ level)).extractLsb' 4 2 = channel ∧
      ((0#2 ++ channel) ++ (0#2 ++ level)).extractLsb' 0 2 = level := by
  revert channel level
  decide

theorem level_of_levelByte (r : Req) : (levelByte r).extractLsb' 0 2 = r.level :=
  (levelByte_fields _ r.level).2

/-- Byte 2 of a request's frame names its channel on the channel's port. -/
theorem frameChannel_levelByte (r : Req) : frameChannel r.channel.physPort (levelByte r) = some r.channel := by
  unfold frameChannel levelByte
  cases hc : r.channel
  · simp only [Channel.physPort, (levelByte_fields _ r.level).1]
    rfl
  · simp only [Channel.physPort, (levelByte_fields _ r.level).1]
    rfl
  · rfl

section
variable {i : Instr} {r : Req} {code : Byte} {ops : List Byte}

theorem decodeFrame_of_parts (hw : i.wellFormed = true) (h : requestParts i = some (r, code, ops)) (b : Byte) :
    decodeFrame r.channel.physPort (b :: code :: levelByte r :: r.tag :: ops) = some i := by
  simp only [decodeFrame, frameChannel_levelByte, level_of_levelByte]
  exact Laws.Parts.readBack i hw r code ops h

theorem formOk_of_parts (hl : ops.length ≤ 60) :
    formOk r.channel.physPort (byte (4 + ops.length) :: code :: levelByte r :: r.tag :: ops) = true := by
  simp [formOk, frameLength, byte, frameByte, frameChannel_levelByte]
  omega

/-- Settles O4: the family Parts reads every request's operands back, and byte 2 its channel and level. -/
theorem frameRoundTrip : Obligations.FrameRoundTrip := by
  intro i r code ops hw h
  have hl := operands_length_le hw h
  refine ⟨_, encodeFrame_eq h, ?_, ?_, formOk_of_parts hl, decodeFrame_of_parts hw h _⟩
  · simp
  · simp
    omega

/-- With no partial frame there is nothing to discard. -/
theorem setGatewayPartial_of_empty {s : State} (h : s.gateway.partialFrame = []) : setGatewayPartial [] s = s := by
  simp [setGatewayPartial, State.updGateway, ← h]

theorem setModemPartial_of_empty {s : State} (h : s.modem.partialFrame = []) : setModemPartial [] s = s := by
  simp [setModemPartial, State.updModem, ← h]

/-- The checks of R8 pass a request's frame to its owner. -/
theorem serveFrame_of_parts (hw : i.wellFormed = true) (h : requestParts i = some (r, code, ops)) :
    serveFrame r.channel.physPort (byte (4 + ops.length) :: code :: levelByte r :: r.tag :: ops) =
      respond code r.tag (answer i) := by
  funext s
  simp only [serveFrame, formOk_of_parts (operands_length_le hw h), if_true, decodeFrame_of_parts hw h]
  rfl

end

/-- Settles O5: both ways the port takes the same number of bytes, and `serveFrame_of_parts`. -/
theorem framesServeTheirRequest : Obligations.FramesServeTheirRequest := by
  intro i r code ops bytes s hw h hb
  obtain rfl : byte (4 + ops.length) :: code :: levelByte r :: r.tag :: ops = bytes := by
    simpa [encodeFrame_eq h] using hb
  have hserve := serveFrame_of_parts hw h
  have hexec := exec_request (i := i) (by simp [isRequest, h]) s
  refine ⟨fun hc hp => ⟨_, ?_, hexec⟩, fun hc hp => ⟨_, ?_, hexec⟩⟩
  · have hport : r.channel.physPort = .gateway := by simp [hc, Channel.physPort]
    have hl := operands_length_le hw h
    have hlength : byte (4 + ops.length) ≠ 0#8 := by
      intro h0
      have := congrArg BitVec.toNat h0
      simp [byte] at this
      omega
    rw [hport] at hserve
    have hn : ops.length + 1 + 1 + 1 + 1 = 4 + ops.length := by omega
    simp [exec, execGatewayTransfer, done, hp, setGatewayPartial_of_empty, hserve, arrive, h, hport, hn, hlength]
  · have hport : r.channel.physPort = .modem := by cases hr : r.channel <;> simp_all [Channel.physPort]
    rw [hport] at hserve
    simp [exec, execModemFrame, done, hp, setModemPartial_of_empty, hserve, arrive, h, hport]

end Sys2Proof.Machine
end

