-- ==== Sys2Proof/Proofs/Ports.lean ====
section
namespace Sys2Proof.Machine

/-! ## The gateway port's transfers (R1, R2) -/

/-- A port that exchanges no bytes shifts out zeros (R1, R6). -/
theorem shiftOut_of_not_listens {n : Nat} {g : GatewayPort} (h : g.listens = false) :
    g.shiftOut n = { g with out := List.replicate n 0 } := by
  simp [GatewayPort.shiftOut, h]

/-- A transfer too short for the held response clocks out its head (R2). -/
theorem shiftOut_of_held_long {n : Nat} {g : GatewayPort} {b : List Byte} (h : g.listens = true) (hb : g.held = some b)
    (hn : n < b.length) : g.shiftOut n = { g with out := b.take n } := by
  have hlong : ¬b.length ≤ n := by omega
  have htake : (b ++ List.replicate n (0 : Byte)).take n = b.take n := List.take_append_of_le_length (by omega)
  simp only [GatewayPort.shiftOut, h, hb, if_true, if_neg hlong, htake]

/-- A transfer long enough for what is held clocks it out whole, then zeros (R1, R2). -/
theorem shiftOut_of_open {n : Nat} {s : State} (h : portOpen .gateway n s) :
    s.gateway.shiftOut n = shiftedOut n s.gateway := by
  obtain ⟨hready, hreset, hheld⟩ := h
  cases hb : s.gateway.held with
  | none => simp [GatewayPort.shiftOut, shiftedOut, GatewayPort.listens, hready, hreset, hb]
  | some b => simp [GatewayPort.shiftOut, shiftedOut, GatewayPort.listens, hready, hreset, hb, hheld b hb]

theorem gatewayTake_of_not_takes {n : Nat} {serve : State → State × List Byte} {s : State}
    (h : (s.gateway.shiftOut n).takes = false) : gatewayTake n serve s = s.updGateway (·.shiftOut n) := by
  simp [gatewayTake, h]

/-- A transfer that the port takes is served once what it held is clocked out. -/
theorem gatewayTake_of_open {n : Nat} {serve : State → State × List Byte} {s : State} (h : portOpen .gateway n s) :
    gatewayTake n serve s =
      (serve { s with gateway := shiftedOut n s.gateway }).1.updGateway
        (fun g => { g with held := some (serve { s with gateway := shiftedOut n s.gateway }).2 }) := by
  have ht : (shiftedOut n s.gateway).takes = true := by
    simp [shiftedOut, GatewayPort.takes, GatewayPort.listens, h.1, h.2.1]
  simp [gatewayTake, State.updGateway, shiftOut_of_open h, ht]

/-- A transfer on a port with no partial frame: its first byte tells whether it carries a request (R1). -/
theorem exec_gatewayTransfer {bytes : List Byte} {s : State} (h : s.gateway.partialFrame = []) :
    exec (.gatewayTransfer bytes) s = .next (if bytes.headD 0 = 0 then s.updGateway (·.shiftOut bytes.length)
      else gatewayTake bytes.length (serveFrame .gateway bytes) s) := by
  simp [exec, execGatewayTransfer, done, h, setGatewayPartial_of_empty]

/-- Whatever a transfer carries, one that is not taken only shifts out. -/
theorem exec_gatewayTransfer_of_not_takes {bytes : List Byte} {s : State} (h : s.gateway.partialFrame = [])
    (ht : (s.gateway.shiftOut bytes.length).takes = false) :
    exec (.gatewayTransfer bytes) s = .next (s.updGateway (·.shiftOut bytes.length)) := by
  simp [exec_gatewayTransfer h, gatewayTake_of_not_takes ht]

/-! ## The three checks (R8) -/

theorem serveFrame_of_bad_form {port : PhysPort} {bytes : List Byte} (h : formOk port bytes = false) (s : State) :
    serveFrame port bytes s = (s, [4, bytes.getD 1 0, 2, bytes.getD 3 0]) := by
  simp [serveFrame, h]
  rfl

theorem serveFrame_of_no_request {port : PhysPort} {bytes : List Byte} (h : formOk port bytes = true)
    (hd : decodeFrame port bytes = none) (s : State) :
    serveFrame port bytes s = (s, [4, bytes.getD 1 0, 3, bytes.getD 3 0]) := by
  simp [serveFrame, h, hd]
  rfl

theorem formOk_iff {port : PhysPort} {bytes : List Byte} :
    formOk port bytes = true ↔ 4 ≤ bytes.length ∧ bytes.length ≤ 64 ∧ (bytes.headD 0).toNat = bytes.length ∧
      (frameChannel port (bytes.getD 2 0)).isSome = true := by
  simp [formOk, frameLength, frameByte, and_assoc]

/-- On the modem port bits 5 and 4 of byte 2 name a channel where they are 0 or 1 (R7, R8). -/
theorem frameChannel_modem_isSome (level : Byte) :
    (frameChannel .modem level).isSome = true ↔ level.toNat / 16 % 4 ≤ 1 := by
  have hbits : (level.extractLsb' 4 2).toNat = level.toNat / 16 % 4 := by
    simp [BitVec.extractLsb'_toNat, Nat.shiftRight_eq_div_pow]
  unfold frameChannel
  rw [hbits]
  dsimp only
  split
  · simp_all
  · simp_all
  · next _ h0 h1 =>
    have : level.toNat / 16 % 4 ≠ 0 ∧ level.toNat / 16 % 4 ≠ 1 := ⟨h0, h1⟩
    simp only [Option.isSome_none, Bool.false_eq_true, false_iff]
    omega

/-! ## What the ports answer -/

section
variable {bytes : List Byte} {s : State}

/-- A port that is not ready or is held in reset takes nothing (R5, R6). -/
theorem gatewayTransfer_off (hp : s.gateway.partialFrame = [])
    (hoff : s.gateway.ready = false ∨ s.gateway.resetInput = true) :
    exec (.gatewayTransfer bytes) s =
      .next { s with gateway := { s.gateway with out := List.replicate bytes.length 0 } } := by
  have hl : s.gateway.listens = false := by
    rcases hoff with hoff | hoff <;> simp [GatewayPort.listens, hoff]
  have hs := shiftOut_of_not_listens (n := bytes.length) hl
  have ht : (s.gateway.shiftOut bytes.length).takes = false := by
    rw [hs, GatewayPort.takes]
    exact Bool.and_eq_false_imp.2 fun hx => absurd (hl.symm.trans hx) (by decide)
  rw [exec_gatewayTransfer_of_not_takes hp ht, State.updGateway, hs]

/-- A response that is not clocked out whole keeps the port from taking a request (R2). -/
theorem gatewayTransfer_held {h : List Byte} (hp : s.gateway.partialFrame = []) (hready : s.gateway.ready = true)
    (hreset : s.gateway.resetInput = false) (hh : s.gateway.held = some h) (hlong : bytes.length < h.length) :
    exec (.gatewayTransfer bytes) s = .next { s with gateway := { s.gateway with out := h.take bytes.length } } := by
  have hl : s.gateway.listens = true := by simp [GatewayPort.listens, hready, hreset]
  have hs := shiftOut_of_held_long hl hh hlong
  have ht : (s.gateway.shiftOut bytes.length).takes = false := by simp [hs, GatewayPort.takes, hh]
  rw [exec_gatewayTransfer_of_not_takes hp ht, State.updGateway, hs]

/-- A transfer whose first byte is 0x00 carries no request (R1). -/
theorem gatewayTransfer_zero (hp : s.gateway.partialFrame = []) (hopen : portOpen .gateway bytes.length s)
    (h0 : bytes.headD 0 = 0) :
    exec (.gatewayTransfer bytes) s = .next { s with gateway := shiftedOut bytes.length s.gateway } := by
  rw [exec_gatewayTransfer hp, if_pos h0, State.updGateway, shiftOut_of_open hopen]

/-- A taken frame is answered with what the checks of R8 say of it. -/
theorem gatewayTransfer_answered {frame : List Byte} (hp : s.gateway.partialFrame = [])
    (hopen : portOpen .gateway bytes.length s) (h0 : bytes.headD 0 ≠ 0)
    (hserve : ∀ u, serveFrame .gateway bytes u = (u, frame)) :
    exec (.gatewayTransfer bytes) s =
      .next { s with gateway := { shiftedOut bytes.length s.gateway with held := some frame } } := by
  rw [exec_gatewayTransfer hp, if_neg h0, gatewayTake_of_open hopen, hserve]
  rfl

/-- A frame cut short is answered BAD_FRAME where the modem port takes it (R3, R8). -/
theorem modemTake_malformed (frame : List Byte) (s : State) :
    modemTake (serveMalformed frame) (setModemPartial [] s) =
      if s.modem.ready = true ∧ s.modem.resetInput = false ∧ s.modem.responses.length < 4 then
        { s with modem := { s.modem with
          partialFrame := [], responses := s.modem.responses ++ [[4, frame.getD 1 0, 2, frame.getD 3 0]] } }
      else { s with modem := { s.modem with partialFrame := [] } } := by
  have ht : (setModemPartial [] s).modem.takes = true ↔
      s.modem.ready = true ∧ s.modem.resetInput = false ∧ s.modem.responses.length < 4 := by
    change s.modem.takes = true ↔ _
    simp [ModemPort.takes, and_assoc]
  simp only [modemTake, ht]
  rfl

/-- A whole frame on an open modem port is answered with what the checks of R8 say of it. -/
theorem modemFrame_answered {frame : List Byte} (hp : s.modem.partialFrame = [])
    (hopen : portOpen .modem bytes.length s) (hserve : ∀ u, serveFrame .modem bytes u = (u, frame)) :
    exec (.modemFrame bytes) s =
      .next { s with modem := { s.modem with responses := s.modem.responses ++ [frame] } } := by
  obtain ⟨hready, hreset, hroom⟩ := hopen
  have ht : s.modem.takes = true := by simp [ModemPort.takes, hready, hreset, hroom]
  have hexec : exec (.modemFrame bytes) s = .next (modemTake (serveFrame .modem bytes) s) := by
    simp [exec, execModemFrame, done, hp, setModemPartial_of_empty]
  rw [hexec, modemTake, if_pos ht, hserve]
  rfl

end

/-- Settles O6, each clause by the lemma about its port and its check. -/
theorem portsAnswerMalformedFrames : Obligations.PortsAnswerMalformedFrames := by
  refine ⟨fun bytes s hp => ⟨gatewayTransfer_off hp, fun hready hreset => ⟨fun h hh hlong => ?_, fun hwhole => ?_⟩⟩,
    fun bytes s => ?_, fun bytes s hp hready hreset hroom h4 h64 hn => ⟨fun hc => ?_, fun hc hd => ?_⟩,
    fun length s => rfl, fun f rest s hr => ?_⟩
  · exact gatewayTransfer_held hp hready hreset hh hlong
  · have hopen : portOpen .gateway bytes.length s := ⟨hready, hreset, hwhole⟩
    refine ⟨gatewayTransfer_zero hp hopen, fun h0 => ⟨fun hbad => ?_, fun h4 h64 hn hd => ?_⟩⟩
    · have hf : formOk .gateway bytes = false := by
        rw [Bool.eq_false_iff, Ne, formOk_iff]
        omega
      exact gatewayTransfer_answered hp hopen h0 (serveFrame_of_bad_form hf)
    · have hf : formOk .gateway bytes = true := formOk_iff.2 ⟨h4, h64, hn, rfl⟩
      exact gatewayTransfer_answered hp hopen h0 (serveFrame_of_no_request hf hd)
  · exact ⟨congrArg Host.Outcome.next (modemTake_malformed _ s), congrArg Host.Outcome.next (modemTake_malformed _ s)⟩
  · have hf : formOk .modem bytes = false := by
      rw [Bool.eq_false_iff, Ne, formOk_iff, frameChannel_modem_isSome]
      omega
    exact modemFrame_answered hp ⟨hready, hreset, hroom⟩ (serveFrame_of_bad_form hf)
  · have hf : formOk .modem bytes = true := formOk_iff.2 ⟨h4, h64, hn, (frameChannel_modem_isSome _).2 hc⟩
    exact modemFrame_answered hp ⟨hready, hreset, hroom⟩ (serveFrame_of_no_request hf hd)
  · simp [exec, execModemResponseSent, done, State.updModem, hr]

end Sys2Proof.Machine
end

