-- ==== Sys2Proof/Proofs/NoticeDelivery.lean ====
section
namespace Sys2Proof.Machine

/-! ## Which channels a notice reaches, and what it does there (R14 to R17) -/

theorem post_eq (n : Notice) (receives : Channel → Bool) (s : State) :
    post n receives s = { s with channels := (post n receives s).channels } := by
  unfold post
  dsimp only
  (repeat' split) <;> rfl

theorem Kind.supersedes_iff (k : Kind) : k.supersedes = true ↔ k = .forecast ∨ k = .trackState := by
  cases k <;> decide

/-- A superseding notice takes the place of the held one of its kind (R16). -/
theorem enqueue_superseding {n held : Notice} {c : ChannelRec} {a b : List Notice} (hs : n.kind.supersedes = true)
    (hq : c.queue = a ++ held :: b) (hk : held.kind = n.kind) (ha : ∀ x ∈ a, x.kind ≠ n.kind) :
    enqueue n c = { c with queue := insertNotice n (a ++ b) } := by
  have hh : hasKind n.kind c.queue = true := (hasKind_iff _ _).2 ⟨held, by simp [hq], hk⟩
  rw [enqueue_of_supersedes hs hh, hq, removeKind_eq hk ha]

/-- What a notice that joins `q` does: it stands in the queue once, in order where the queue is in order (R15). -/
theorem insertNotice_joins {n : Notice} {q c : List Notice} (hsub : q.Sublist c) :
    (insertNotice n q).Perm (n :: q) ∧ (inQueueOrder c → inQueueOrder (insertNotice n q) ∧
      ∃ ahead behind, q = ahead ++ behind ∧ insertNotice n q = ahead ++ n :: behind ∧
        (∀ x ∈ ahead, outranks n x = false) ∧ ∀ x ∈ behind, outranks n x = true) :=
  ⟨insertNotice_perm n q, fun h => ⟨insertNotice_ordered n (h.sublist hsub),
    insertNotice_split_ordered n (h.sublist hsub)⟩⟩

/-- Settles O12 from the rules of `post`, `enqueue` and `insertNotice`. -/
theorem noticesReachTheirChannels : Obligations.NoticesReachTheirChannels := by
  refine ⟨fun n receives s => ⟨post_channels_get n receives s, post_eq n receives s⟩, fun n s => rfl, fun n c s => rfl,
    fun n held c a b hk hq hh ha => ?_, fun n c hs => ⟨enqueue_subs n c, fun hl => ?_, fun front last hq hl => ?_⟩⟩
  · rw [enqueue_superseding ((Kind.supersedes_iff _).2 hk) hq hh ha]
    have hsub : (a ++ b).Sublist c.queue := by rw [hq]; simp
    refine ⟨insertNotice_perm n _, ?_, rfl, rfl, fun ho => insertNotice_ordered n (ho.sublist hsub)⟩
    simp [insertNotice_length, hq]
    omega
  · rw [enqueue_of_room (by simpa [hasKind_iff] using hs) hl]
    exact ⟨insertNotice_joins (List.Sublist.refl _), rfl⟩
  · have hsub : front.Sublist c.queue := by rw [hq]; simp
    have he := enqueue_of_full (by simpa [hasKind_iff] using hs) (by omega) hq
    by_cases ho : outranks n last = true
    · rw [he, if_pos ho]
      exact ⟨rfl, fun _ => insertNotice_joins hsub, fun hn => absurd ho (by simp [hn])⟩
    · rw [he, if_neg ho]
      exact ⟨rfl, fun hy => absurd hy ho, fun _ => rfl⟩

end Sys2Proof.Machine
end

