-- ==== Sys2Proof/Proofs/ResetState.lean ====
section
namespace Sys2Proof.Machine

/-! ## The state after reset -/

theorem reset_channels_get (c : Channel) : State.reset.channels.get c = ⟨defaultSubs c, [], false⟩ := by
  cases c <;> rfl

theorem reset_hold (f : Func) : (State.reset.lines.table.get f).hold = none := by
  cases f <;> rfl

theorem reset_slotRec (i : SlotId) : slotRec State.reset i = none := by
  cases i <;> rfl

theorem reset_session (p : Port) : session State.reset p = none := by
  cases p <;> rfl

theorem reset_port (p : Port) : State.reset.port p = freshPort factoryTiming := by
  cases p <;> rfl

theorem reset_faultChannels_get (c : Channel) : State.reset.faults.channels.get c = ⟨defaultMasks c, 0, []⟩ := by
  cases c <;> rfl

theorem reset_gates_get (n : Nat) : State.reset.engine.gates.get n = none := by
  unfold Quad.get
  split <;> rfl

/-- Settles O3. -/
theorem resetLeavesEveryBlockFresh : Obligations.ResetLeavesEveryBlockFresh := by
  unfold Obligations.ResetLeavesEveryBlockFresh
  simp only [reset_channels_get, reset_hold, reset_slotRec, reset_session, reset_port, reset_faultChannels_get]
  simp [State.reset, freshLines, defaultRelays, freshScheduler, freshTracker, freshPort, freshRing, freshEngine,
    freshFaults, freshSupervisor, freshExchange]
  rfl

/-- The factory settings, in force after reset, lie in their ranges. -/
theorem reset_settingsSound : settingsSound State.reset := by
  unfold settingsSound
  decide

/-- Settles O60: after reset every list is empty, no block is at work and the factory settings are in force. -/
theorem resetMeetsEveryCondition : Obligations.ResetMeetsEveryCondition := by
  have hqueues : queuesSound State.reset := fun c => queueSound_of_empty (by rw [reset_channels_get])
  refine ⟨hqueues, fun h => (nomatch h), fun h => absurd rfl h, by simp [dslSlotted, reset_slotRec], ?_, .nil, rfl,
    trivial,
    ?_, reset_settingsSound, ⟨rfl, rfl⟩, fun c => ?_, trivial, fun p => ?_, fun p x h => ?_, ?_, ?_⟩
  · simp [claimsSound, State.reset, freshLines]
  · simp [logSound, State.reset, freshFaults, consecutive]
  · simp [reset_faultChannels_get]
  · simp [supervisorStill, reset_port, freshPort, freshSupervisor, Timer.isRunning]
  · simp [reset_session] at h
  · simp [windowsSound, State.reset, freshScheduler]
  · refine ⟨by decide, by decide, by decide, by decide, by decide, fun x h => (nomatch h),
      fun t l h => (nomatch h), fun n g h => ?_⟩
    rw [reset_gates_get] at h
    cases h

end Sys2Proof.Machine
end

