-- ==== Sys2Proof/Proofs/Time.lean ====
section
namespace Sys2Proof.Machine

/-! ## The expiries due at an instant -/

@[simp] theorem mem_dueIf {b : Bool} {c i : Instr} : c ∈ dueIf b i ↔ b = true ∧ c = i := by
  cases b <;> simp [dueIf]

theorem timerDue_iff {now : Time} {t : Option Time} :
    timerDue now t = true ↔ ∃ due, t = some due ∧ reached now due = true := by
  cases t <;> simp [timerDue]

theorem timerDue_map_iff {α : Type} {now : Time} {x : Option α} {f : α → Time} :
    timerDue now (x.map f) = true ↔ ∃ y, x = some y ∧ reached now (f y) = true := by
  cases x <;> simp [timerDue]

theorem timerDue_bind_iff {α : Type} {now : Time} {x : Option α} {f : α → Option Time} :
    timerDue now (x.bind f) = true ↔ ∃ y due, x = some y ∧ f y = some due ∧ reached now due = true := by
  cases x <;> simp [timerDue_iff]

theorem isDue_iff {now : Time} {t : Timer} :
    t.isDue now = true ↔ ∃ due, t = .running due ∧ reached now due = true := by
  cases t <;> simp [Timer.isDue]

theorem timerDue_retryDue_iff {now : Time} {q : PhonePort} :
    timerDue now (retryDue q) = true ↔
      ∃ d due, q.denial = some d ∧ d.stage = .waiting due ∧ reached now due = true := by
  unfold retryDue
  cases q.denial with
  | none => simp [timerDue]
  | some d => cases hd : d.stage <;> simp [timerDue, hd]

theorem timerDue_probeDue_iff {now : Time} {q : PhonePort} :
    timerDue now (probeDue q) = true ↔
      ∃ d due, q.denial = some d ∧ d.stage = .probing due ∧ reached now due = true := by
  unfold probeDue
  cases q.denial with
  | none => simp [timerDue]
  | some d => cases hd : d.stage <;> simp [timerDue, hd]

theorem timerDue_dwellTimer_iff {now : Time} {i : Isolation} :
    timerDue now (dwellTimer i) = true ↔
      ∃ dwell due cause since, i = .isolating dwell (some due) cause since ∧ reached now due = true := by
  cases i with
  | isolating dwell timer cause since => cases timer <;> simp [dwellTimer, timerDue]
  | _ => simp [dwellTimer, timerDue]

/-- The commands that are due: each expiry with its timer. -/
def DueNow (s : State) : Instr → Prop
  | .claimDeadlineExpiry c f => ∃ e ∈ s.lines.claims, e.channel = c ∧ e.function = f ∧ reached s.now e.deadline = true
  | .changeSetComplete a => ∃ x ∈ s.settles, x.asker = a ∧ reached s.now x.due = true
  | .leadExpiry i => timerDue s.now ((slotRec s i).bind leadDeadline) = true
  | .blankingWindowRemoval => ∃ w ∈ s.sched.windows, removable s.now w = true
  | .deadTimeExpiry => timerDue s.now s.tracker.deadTimer = true
  | .edgeClassification => ∃ e ∈ s.tracker.edges, reached s.now (e + us 40000) = true
  | .acquireExpiry => timerDue s.now s.tracker.acquireDue = true
  | .windowCheck => timerDue s.now s.tracker.checkDue = true
  | .feedDenial p => timerDue s.now ((s.port p).overload.map (fun t => t + ms 100)) = true
  | .probeStart p => timerDue s.now (retryDue (s.port p)) = true
  | .probeEnd p => timerDue s.now (probeDue (s.port p)) = true
  | .seizeTimerExpiry p => (s.port p).sup.seizeTimer.isDue s.now = true
  | .breakTimerExpiry p => (s.port p).sup.breakTimer.isDue s.now = true
  | .digitGapExpiry p => (s.port p).sup.gapTimer.isDue s.now = true
  | .ringPhaseTimerExpiry p => timerDue s.now ((session s p).bind (·.phaseDue)) = true
  | .tripTimerExpiry p => timerDue s.now ((session s p).bind (·.tripDue)) = true
  | .ringFaultTimerExpiry => timerDue s.now s.ring.faultDue = true
  | .callGapExpiry => timerDue s.now s.ring.exchange.gapDue = true
  | .cleanTimerExpiry r => r = freeReadings s.occasion ∧ timerDue s.now s.engine.cleanDue = true
  | .wallTimerExpiry r => r = freeReadings s.occasion ∧ timerDue s.now s.engine.wallDue = true
  | .dwellExpiry => timerDue s.now (dwellTimer s.faults.isolation) = true
  | .batteryWatchExpiry => timerDue s.now (watchDue s.faults.watch) = true
  | .quietExpiry => timerDue s.uptime s.faults.quiet = true
  | _ => False

theorem mem_dueCommands (s : State) (c : Instr) : c ∈ dueCommands s ↔ DueNow s c := by
  simp only [dueCommands, dueLineWork, dueTracker, duePort, dueRing, dueOther, allSlots, List.mem_append, List.mem_map,
    List.mem_filter, List.mem_flatMap, mem_dueIf]
  cases c
  case leadExpiry i => cases i <;> simp [DueNow]
  case feedDenial p | probeStart p | probeEnd p | seizeTimerExpiry p | breakTimerExpiry p | digitGapExpiry p
      | ringPhaseTimerExpiry p | tripTimerExpiry p => cases p <;> simp [DueNow]
  case claimDeadlineExpiry | changeSetComplete | cleanTimerExpiry | wallTimerExpiry =>
    simp [DueNow, and_assoc, and_comm, and_left_comm]
  all_goals simp [DueNow]

theorem isExpiry_of_dueNow {s : State} {c : Instr} (h : DueNow s c) : isExpiry c = true := by
  cases c <;> first | rfl | exact h.elim

/-! ## The passing of time -/

/-- The state at whose time the expiries are judged: the clock and the bound on open windows have moved. -/
def ticked (s : State) : State :=
  (s.updClock tickClock).updSched (fun k =>
    { k with windows := k.windows.map (slideWindow (s.updClock tickClock).now) })

theorem tickUptime_cases (c : Clock) :
    if c.subsecond < 999999 then (tickUptime c).uptime = c.uptime ∧ (tickUptime c).subsecond = c.subsecond + 1
    else (tickUptime c).uptime = c.uptime + 1 ∧ (tickUptime c).subsecond = 0 := by
  by_cases h : c.subsecond < 999999
  · have h' : ¬999999 ≤ c.subsecond := by omega
    simp [tickUptime, h, h']
  · have h' : 999999 ≤ c.subsecond := by omega
    simp [tickUptime, h, h']

theorem mem_tickRunning_pending {s : State} (h : s.pending = []) (c : Instr) :
    c ∈ (tickRunning s).pending ↔ DueNow (ticked s) c := by
  rw [← mem_dueCommands]
  have : (tickRunning s).pending = s.pending ++ dueCommands (ticked s) := rfl
  rw [this, h, List.nil_append]

/-- What the running part's microsecond does (log entry 1). -/
theorem tick_of_running {s : State} (hu : s.phase ≠ .unpowered) (hr : s.phase ≠ .inReset) : tick s = tickRunning s := by
  unfold tick
  split <;> simp_all

/-- Settles O2: `mem_dueCommands` tells the expiries queued, timer by timer. -/
theorem timePassesOnAnEmptyQueue : Obligations.TimePassesOnAnEmptyQueue := by
  intro s hq
  have hstep : step s = .next (tick s) := by simp [step, takeFront, hq]
  refine ⟨fun hu => by rw [hstep, tick, hu], fun hu => ⟨tick s, hstep, ?_, fun hr => ?_, fun hr => ?_⟩⟩
  · have hclock : (tick s).clock.uptime = (tickUptime s.clock).uptime ∧
        (tick s).clock.subsecond = (tickUptime s.clock).subsecond := by
      unfold tick
      split
      · contradiction
      · exact ⟨rfl, rfl⟩
      · exact ⟨rfl, rfl⟩
      · exact ⟨rfl, rfl⟩
    rw [hclock.1, hclock.2]
    exact tickUptime_cases s.clock
  · have ht : tick s = s.updClock tickUptime := by rw [tick, hr]
    rw [ht]
    refine ⟨?_, rfl⟩
    simp only [State.updClock, tickUptime]
    split <;> rfl
  · have hdue := mem_tickRunning_pending hq
    rw [tick_of_running hu hr]
    exact ⟨rfl, rfl, fun c hc => isExpiry_of_dueNow ((hdue c).1 hc), fun _ _ => hdue _, fun _ => hdue _,
      fun i => (hdue _).trans timerDue_bind_iff, hdue _, hdue _, hdue _, hdue _, hdue _,
      fun p => (hdue _).trans timerDue_map_iff, fun p => (hdue _).trans timerDue_retryDue_iff,
      fun p => (hdue _).trans timerDue_probeDue_iff, fun p => (hdue _).trans isDue_iff,
      fun p => (hdue _).trans isDue_iff, fun p => (hdue _).trans isDue_iff,
      fun p => (hdue _).trans timerDue_bind_iff, fun p => (hdue _).trans timerDue_bind_iff, hdue _, hdue _,
      (exists_congr fun r => hdue _).trans exists_eq_left, (exists_congr fun r => hdue _).trans exists_eq_left,
      (hdue _).trans timerDue_dwellTimer_iff, (hdue _).trans timerDue_map_iff, hdue _⟩

end Sys2Proof.Machine
end

