-- ==== Sys2Proof/Proofs/NoticesReceived.lean ====
section
namespace Sys2Proof.Machine

/-! ## Handing exactly these notices of a kind -/

/-- Of the notices of a kind that supersedes nothing, a channel was handed exactly those given: a full queue may have
lost some, which its lost flag then says (R15, R17). -/
structure Received (k : Kind) (given : List Notice) (x y : ChannelRec) : Prop where
  subs : y.subs = x.subs
  lost : y.lost = false → x.lost = false
  only : ∀ n ∈ y.queue, n.kind = k → n ∈ x.queue ∨ n ∈ given
  all : y.lost = false → (y.queue.filter (ofKind k)).Perm (x.queue.filter (ofKind k) ++ given)

section
variable {k : Kind} {x y z : ChannelRec}

theorem Received.refl : Received k [] x x := ⟨rfl, id, fun _ h _ => .inl h, fun _ => by simp⟩

theorem Received.trans {l m : List Notice} (h : Received k l x y) (h' : Received k m y z) :
    Received k (l ++ m) x z where
  subs := h'.subs.trans h.subs
  lost := fun hz => h.lost (h'.lost hz)
  only := fun n hn hk => by
    rcases h'.only n hn hk with hy | hm
    · rcases h.only n hy hk with hx | hl
      · exact .inl hx
      · exact .inr (List.mem_append_left _ hl)
    · exact .inr (List.mem_append_right _ hm)
  all := fun hz => by
    rw [← List.append_assoc]
    exact (h'.all hz).trans ((h.all (h'.lost hz)).append_right m)

theorem filter_insertNotice (n : Notice) (q : List Notice) (p : Notice → Bool) :
    ((insertNotice n q).filter p).Perm (if p n = true then n :: q.filter p else q.filter p) := by
  have := (insertNotice_perm n q).filter p
  rwa [List.filter_cons] at this

/-- A notice of another kind. -/
theorem received_other {n : Notice} (hn : n.kind ≠ k) : Received k [] x (enqueue n x) where
  subs := enqueue_subs n x
  lost := lost_of_enqueue
  only := fun m hm hk => by
    have hmn : m ≠ n := fun h => hn (h ▸ hk)
    left
    obtain ⟨a, held, b, hq, -, -, -, he⟩ | ⟨-, ⟨-, he⟩ | ⟨front, last, hq, -, he⟩ | he⟩ := enqueue_cases n x <;>
      rw [he] at hm
    · have := ((insertNotice_perm n _).mem_iff.1 hm)
      rw [hq]
      simp_all
      tauto
    · simpa [hmn] using (insertNotice_perm n _).mem_iff.1 hm
    · have := (insertNotice_perm n _).mem_iff.1 hm
      rw [hq]
      simp_all
    · exact hm
  all := fun hl => by
    have hf : ofKind k n = false := by simpa [ofKind] using hn
    rw [List.append_nil]
    obtain ⟨a, held, b, hq, hk, -, -, he⟩ | ⟨-, ⟨-, he⟩ | ⟨front, last, hq, -, he⟩ | he⟩ := enqueue_cases n x <;>
      rw [he] at hl ⊢
    · have hh : ofKind k held = false := by simpa [ofKind, hk] using hn
      simpa [hf, hq, hh] using filter_insertNotice n (a ++ b) (ofKind k)
    · simpa [hf] using filter_insertNotice n x.queue (ofKind k)
    · cases hl

/-- A notice of the kind. -/
theorem received_one {n : Notice} (hn : n.kind = k) (hs : k.supersedes = false) : Received k [n] x (enqueue n x) where
  subs := enqueue_subs n x
  lost := lost_of_enqueue
  only := fun m hm _ => by
    obtain ⟨a, held, b, -, -, hsup, -⟩ | ⟨-, ⟨-, he⟩ | ⟨front, last, hq, -, he⟩ | he⟩ := enqueue_cases n x
    · simp [hn, hs] at hsup
    · rw [he] at hm
      exact (List.mem_cons.1 ((insertNotice_perm n _).mem_iff.1 hm)).symm.imp_right (by simp)
    · rw [he] at hm
      rw [hq]
      have := List.mem_cons.1 ((insertNotice_perm n _).mem_iff.1 hm)
      simp
      tauto
    · rw [he] at hm
      exact .inl hm
  all := fun hl => by
    have hf : ofKind k n = true := by simpa [ofKind] using hn
    obtain ⟨a, held, b, -, -, hsup, -⟩ | ⟨-, ⟨-, he⟩ | ⟨front, last, hq, -, he⟩ | he⟩ := enqueue_cases n x
    · simp [hn, hs] at hsup
    · rw [he]
      have := filter_insertNotice n x.queue (ofKind k)
      rw [if_pos hf] at this
      exact this.trans (List.perm_append_singleton n _).symm
    · rw [he] at hl
      cases hl
    · rw [he] at hl
      cases hl

end

/-- Of the notices of a kind that supersedes nothing, the channels were handed exactly `l`. -/
def Handed (k : Kind) (l : List Handing) (a b : PerChan ChannelRec) : Prop :=
  ∀ c, Received k (told c (a.get c).subs l) (a.get c) (b.get c)

section
variable {k : Kind} {a b d : PerChan ChannelRec} {l m : List Handing} {s t : State}

theorem Handed.refl : Handed k [] a a := fun _ => .refl

theorem told_append (c : Channel) (subs : BitVec 32) (l m : List Handing) :
    told c subs (l ++ m) = told c subs l ++ told c subs m := by
  simp [told]

theorem Handed.trans (h : Handed k l a b) (h' : Handed k m b d) : Handed k (l ++ m) a d := fun c => by
  have hm := h' c
  rw [(h c).subs] at hm
  rw [told_append]
  exact (h c).trans hm

/-- Nothing more of the kind was handed. -/
theorem Handed.trans_nil (h : Handed k l a b) (h' : Handed k [] b d) : Handed k l a d := by
  simpa using h.trans h'

/-- Nothing of the kind had been handed before. -/
theorem Handed.nil_trans (h : Handed k [] a b) (h' : Handed k l b d) : Handed k l a d := by
  simpa using h.trans h'

/-- Notices of other kinds. -/
theorem Queued.handed {K : Kind → Bool} (h : Queued K a b) (hk : K k = false) : Handed k [] a b := fun c => by
  have hg := h.each c
  show Received k [] _ _
  generalize b.get c = y at hg
  induction hg with
  | refl => exact .refl
  | tail _ hstep ih =>
    obtain ⟨n, hn, rfl⟩ := hstep
    exact ih.trans (received_other fun h => by simp [h, hk] at hn)

/-- The notice handed to the channel concerned and the other subscribed channels. -/
theorem postCompletion_handed {n : Notice} {c : Channel} (hn : n.kind = k) (hs : k.supersedes = false) :
    Handed k [(n, some c)] s.channels (postCompletion n c s).channels := fun d => by
  rw [postCompletion, post_channels_get]
  by_cases hd : d = c ∨ subscribed (s.channels.get d) n.kind = true
  · have ht : told d (s.channels.get d).subs [(n, some c)] = [n] := by
      rcases hd with rfl | hd
      · simp [told]
      · simp only [subscribed] at hd
        simp [told, hd]
    rw [ht, if_pos (by simpa using hd)]
    exact received_one hn hs
  · have ht : told d (s.channels.get d).subs [(n, some c)] = [] := by
      obtain ⟨hdc, hsub⟩ := not_or.1 hd
      simp only [subscribed] at hsub
      simp [told, hsub, Ne.symm hdc]
    rw [ht, if_neg (by simpa using hd)]
    exact .refl

theorem Handed.hands (h : Handed k l s.channels t.channels) : hands (ofKind k) l s t := fun c =>
  ⟨fun n hn hs => (h c).only n hn (by simpa [ofKind] using hs), (h c).all⟩

end

end Sys2Proof.Machine
end

