-- ==== Sys2Proof/Proofs/HoldsPassOn.lean ====
section
namespace Sys2Proof.Machine

/-! ## A released function passes on (R30, R47) -/

theorem PerFunc.set_set {α : Type} (x : PerFunc α) (f : Func) (a b : α) : (x.set f a).set f b = x.set f b := by
  cases f <;> rfl

/-- Who holds a function. -/
def holderIn (l : LineFunctions) (f : Func) : Option Channel := ((l.table.get f).hold).map (·.holder)

/-- The first claim for a function. -/
def firstClaim (l : LineFunctions) (f : Func) : Option ClaimEntry := l.claims.find? (fun e => decide (e.function = f))

/-- The table and the queue after a function has been released: its first claim is granted. -/
def passOn (uptime : BitVec 32) (f : Func) (l : LineFunctions) : LineFunctions :=
  match firstClaim l f with
  | some e =>
    { table := l.table.set f { l.table.get f with hold := some ⟨e.channel, e.level, uptime, none⟩ }
      claims := l.claims.filter (fun x => !isClaim e.channel f x) }
  | none => { l with table := l.table.set f { l.table.get f with hold := none } }

section
variable {uptime : BitVec 32} {f g : Func} {l : LineFunctions}

theorem firstClaim_function {e : ClaimEntry} (h : firstClaim l f = some e) : e.function = f := by
  simpa using List.find?_some h

theorem passOn_get_other (h : g ≠ f) : (passOn uptime f l).table.get g = l.table.get g := by
  unfold passOn
  split <;> simp [h]

theorem passOn_level : ((passOn uptime f l).table.get g).level = (l.table.get g).level := by
  by_cases h : g = f
  · subst h
    unfold passOn
    split <;> simp
  · rw [passOn_get_other h]

/-- The hold passes to the channel of the first claim, at the claim's level. -/
theorem passOn_hold : ((passOn uptime f l).table.get f).hold =
    (firstClaim l f).map (fun e => ⟨e.channel, e.level, uptime, none⟩) := by
  unfold passOn
  split <;> simp [*]

/-- The granted claim leaves the queue. -/
theorem passOn_claims : (passOn uptime f l).claims = l.claims.filter (fun e =>
    !(decide (e.function = f) && decide ((firstClaim l f).map (·.channel) = some e.channel))) := by
  unfold passOn
  split
  · next e he => simp [he, isClaim, Bool.and_comm, eq_comm]
  · next he =>
    simp [he]

/-- The first claim for another function stays the first. -/
theorem firstClaim_passOn (h : g ≠ f) : firstClaim (passOn uptime f l) g = firstClaim l g := by
  rw [firstClaim, passOn_claims, List.find?_filter]
  refine List.find?_congr fun e _ => ?_
  by_cases hg : e.function = g
  · simp [hg, h]
  · simp [hg]

theorem holderIn_passOn (h : g ≠ f) : holderIn (passOn uptime f l) g = holderIn l g := by
  rw [holderIn, passOn_get_other h, holderIn]

end

/-! ## Every function of the covered channels (R47) -/

/-- A covered channel holds the function. -/
def freedIn (covered : List Channel) (l : LineFunctions) (f : Func) : Bool :=
  covered.any (fun c => decide (holderIn l f = some c))

/-- The functions of a list are released in turn, where a covered channel holds them. -/
def passAll (covered : List Channel) (uptime : BitVec 32) (fs : List Func) (l : LineFunctions) : LineFunctions :=
  fs.foldl (fun l f => if freedIn covered l f = true then passOn uptime f l else l) l

section
variable {covered : List Channel} {uptime : BitVec 32} {f g : Func} {fs : List Func} {l : LineFunctions}

/-- One function's release leaves what the next ones see. -/
theorem freedIn_step (h : g ≠ f) :
    freedIn covered (if freedIn covered l f = true then passOn uptime f l else l) g = freedIn covered l g := by
  split
  · rw [freedIn, holderIn_passOn h, freedIn]
  · rfl

theorem firstClaim_step (h : g ≠ f) :
    firstClaim (if freedIn covered l f = true then passOn uptime f l else l) g = firstClaim l g := by
  split
  · exact firstClaim_passOn h
  · rfl

theorem passAll_get_of_not_mem (h : g ∉ fs) : (passAll covered uptime fs l).table.get g = l.table.get g := by
  induction fs generalizing l with
  | nil => rfl
  | cons f rest ih =>
    obtain ⟨hf, hrest⟩ : g ≠ f ∧ g ∉ rest := by simpa using h
    rw [passAll, List.foldl_cons, ← passAll, ih hrest]
    split
    · exact passOn_get_other hf
    · rfl

theorem passAll_get_of_not_freed (h : freedIn covered l g = false) :
    (passAll covered uptime fs l).table.get g = l.table.get g := by
  induction fs generalizing l with
  | nil => rfl
  | cons f rest ih =>
    rw [passAll, List.foldl_cons, ← passAll]
    by_cases hf : g = f
    · subst hf
      simp only [h, Bool.false_eq_true, if_false]
      exact ih h
    · rw [ih (by rw [freedIn_step hf, h])]
      split
      · exact passOn_get_other hf
      · rfl

theorem passAll_level : ((passAll covered uptime fs l).table.get g).level = (l.table.get g).level := by
  induction fs generalizing l with
  | nil => rfl
  | cons f rest ih =>
    rw [passAll, List.foldl_cons, ← passAll, ih]
    split
    · exact passOn_level
    · rfl

/-- A function that a covered channel held is held by the channel of its first claim, or is free. -/
theorem passAll_hold (hd : fs.Nodup) (hg : g ∈ fs) (h : freedIn covered l g = true) :
    ((passAll covered uptime fs l).table.get g).hold =
      (firstClaim l g).map (fun e => ⟨e.channel, e.level, uptime, none⟩) := by
  induction fs generalizing l with
  | nil => cases hg
  | cons f rest ih =>
    obtain ⟨hf, hd⟩ := List.nodup_cons.1 hd
    rw [passAll, List.foldl_cons, ← passAll]
    by_cases hgf : g = f
    · subst hgf
      rw [passAll_get_of_not_mem hf, if_pos h, passOn_hold]
    · rw [ih hd ((List.mem_cons.1 hg).resolve_left hgf) (by rw [freedIn_step hgf, h]), firstClaim_step hgf]

/-- The claims that are granted leave the queue, and the others keep their order. -/
theorem passAll_claims (hd : fs.Nodup) : (passAll covered uptime fs l).claims = l.claims.filter (fun e =>
    !(decide (e.function ∈ fs) && freedIn covered l e.function &&
      decide ((firstClaim l e.function).map (·.channel) = some e.channel))) := by
  induction fs generalizing l with
  | nil => simp [passAll]
  | cons f rest ih =>
    obtain ⟨hf, hd⟩ := List.nodup_cons.1 hd
    have hstep : (if freedIn covered l f = true then passOn uptime f l else l).claims = l.claims.filter (fun e =>
        !(decide (e.function = f) && freedIn covered l f &&
          decide ((firstClaim l f).map (·.channel) = some e.channel))) := by
      split
      · next h => simp [h, passOn_claims]
      · next h => simp [h]
    rw [passAll, List.foldl_cons, ← passAll, ih hd, hstep, List.filter_filter]
    refine List.filter_congr fun e _ => ?_
    by_cases he : e.function = f
    · simp [he, hf]
    · simp [he, freedIn_step he, firstClaim_step he]

end

end Sys2Proof.Machine
end

