-- ==== Sys2Proof/Proofs/SteadyParts.lean ====
section
namespace Sys2Proof.Machine

/-! ## What the end of a burst and the hook supervisors leave alone -/

/-- A test without what its readings found, which are taken in MEASURE alone (R142). -/
def forgetReadings (x : Test) : Test :=
  if x.phase = .measure then { x with exclusions := [], openMark := none } else x

/-- What stands while bursts end, loops change and notices are handed: each port's resting positions, the fault unit but
for its battery watch, the test but for its readings, and the result record. -/
structure Steady where
  rest : Port → Contact × Feed
  faults : FaultUnit
  test : Option Test
  result : Option TestResult

/-- The fault unit but for its battery watch. -/
def unwatched (u : FaultUnit) : FaultUnit := { u with watch := ⟨none, false⟩ }

def steady (s : State) : Steady where
  rest := fun p => (restingPass s p, restingFeed s p)
  faults := unwatched s.faults
  test := s.engine.test.map forgetReadings
  result := s.engine.result

/-- An operation that touches no port, no fault and no test. -/
theorem steady_of_frame {s t : State} (hp : t.ports = s.ports) (he : t.engine = s.engine) (hf : t.faults = s.faults) :
    steady t = steady s := by
  have hport (p : Port) : t.port p = s.port p := by cases p <;> simp [State.port, hp]
  simp [steady, restingPass, restingFeed, hport, he, hf]

section
variable {s : State}

@[simp] theorem updSched_steady (f : Scheduler → Scheduler) : steady (s.updSched f) = steady s := rfl
@[simp] theorem updRing_steady (f : RingUnit → RingUnit) : steady (s.updRing f) = steady s := rfl
@[simp] theorem updTracker_steady (f : Tracker → Tracker) : steady (s.updTracker f) = steady s := rfl
@[simp] theorem updLines_steady (f : LineFunctions → LineFunctions) : steady (s.updLines f) = steady s := rfl
@[simp] theorem setRelays_steady (r : Relays) : steady (s.setRelays r) = steady s := rfl
@[simp] theorem setSettles_steady (l : List Settle) : steady (s.setSettles l) = steady s := rfl

/-- A port's resting positions follow its mode, its switch and its denial (R92). -/
theorem updPort_steady {p : Port} {f : PhonePort → PhonePort}
    (hf : restingMode (f (s.port p)) = restingMode (s.port p) ∧
      (restingMode (s.port p) = .local_ → (f (s.port p)).denial = (s.port p).denial)) :
    steady (s.updPort p f) = steady s := by
  have hrest (q : Port) : (restingPass (s.updPort p f) q, restingFeed (s.updPort p f) q) =
      (restingPass s q, restingFeed s q) := by
    by_cases hq : q = p
    · subst hq
      obtain ⟨hmode, hdenial⟩ := hf
      simp only [restingPass, restingFeed, State.updPort_port_same, hmode]
      cases hm : restingMode (s.port q) <;> simp [hdenial, hm]
    · simp [restingPass, restingFeed, hq]
  simp [steady, hrest]

@[simp] theorem updSup_steady (p : Port) (f : Supervisor → Supervisor) : steady (s.updSup p f) = steady s :=
  updPort_steady ⟨rfl, fun _ => rfl⟩

@[simp] theorem post_steady (n : Notice) (r : Channel → Bool) : steady (post n r s) = steady s :=
  steady_of_frame (by simp) (by simp) (by simp)

@[simp] theorem postSubscribed_steady (n : Notice) : steady (postSubscribed n s) = steady s := post_steady n _

@[simp] theorem postCompletion_steady (n : Notice) (c : Channel) : steady (postCompletion n c s) = steady s :=
  post_steady n _

@[simp] theorem judgeWatch_steady : steady (judgeWatch s) = steady s := by
  unfold judgeWatch
  (repeat' split) <;> rfl

@[simp] theorem judgeOverload_steady (p : Port) : steady (judgeOverload p s) = steady s := by
  unfold judgeOverload
  (repeat' split)
  · rfl
  · exact updPort_steady ⟨rfl, fun _ => rfl⟩
  · exact updPort_steady ⟨rfl, fun _ => rfl⟩

@[simp] theorem reading_steady : steady (reading s) = steady s := by
  unfold reading
  (repeat' split)
  · next t _ ht _ _ _ hp _ =>
    simp only [steady, State.updEngine_engine, Option.map_some, forgetReadings, ht, hp, if_true]
    rfl
  · rfl
  · rfl

@[simp] theorem closeWindow_steady (k : WindowKey) (t : Time) : steady (closeWindow k t s) = steady s := by
  unfold closeWindow
  split <;> simp

@[simp] theorem closeStanding_steady (l : List WindowKey) : steady (closeStanding l s) = steady s := by
  induction l generalizing s with
  | nil => rfl
  | cons k rest ih => simp [closeStanding, ih]

@[simp] theorem addWindow_steady (w : Window) : steady (addWindow w s) = steady s :=
  steady_of_frame (by simp) (by simp) (by simp)

@[simp] theorem handWindow_steady (src : WindowSource) (p : Option Port) (id : Option Byte) (t : Time)
    (tail : Option Nat) : steady (handWindow src p id t tail s) = steady s := by
  simp [handWindow]

@[simp] theorem hookNotice_steady (p : Port) (off : Bool) (why : HookReason) (d : Time) :
    steady (hookNotice p off why d s) = steady s := by
  simp [hookNotice]

@[simp] theorem digitNotice_steady (p : Port) (e f u : Bool) (v n : Nat) :
    steady (digitNotice p e f u v n s) = steady s := by
  simp [digitNotice]

@[simp] theorem unplanned_steady (k : Unplanned) (p : Option Port) (n : Nat) :
    steady (unplanned k p n s) = steady s := by
  simp [unplanned]

@[simp] theorem recordEntry_steady (p : Port) (e : DialEntry) (n : Nat) : steady (recordEntry p e n s) = steady s := by
  unfold recordEntry
  dsimp only
  split
  · rfl
  · rw [digitNotice_steady]
    refine updPort_steady ?_
    split <;> exact ⟨rfl, fun _ => rfl⟩

@[simp] theorem completeDigit_steady (p : Port) : steady (completeDigit p s) = steady s := by
  unfold completeDigit
  dsimp only
  (repeat' split) <;> simp

@[simp] theorem releasePort_steady (p : Port) : steady (releasePort p s) = steady s := by
  unfold releasePort
  dsimp only
  split <;> simp

@[simp] theorem beginSeizing_steady (p : Port) : steady (beginSeizing p s) = steady s :=
  updPort_steady ⟨rfl, fun _ => rfl⟩

@[simp] theorem beginBreak_steady (p : Port) : steady (beginBreak p s) = steady s := by
  rw [beginBreak, judgeWatch_steady]
  exact updPort_steady ⟨rfl, fun _ => rfl⟩

@[simp] theorem makeAgain_steady (p : Port) : steady (makeAgain p s) = steady s := by
  simp [makeAgain]

@[simp] theorem endBreak_steady (p : Port) : steady (endBreak p s) = steady s := by
  unfold endBreak
  dsimp only
  (repeat' split)
  · simp
  · rw [makeAgain_steady]
    exact updPort_steady ⟨rfl, fun _ => rfl⟩
  · simp
  · simp
  · simp

@[simp] theorem takeLoop_steady (p : Port) (b : Bool) : steady (takeLoop p b s) = steady s := by
  unfold takeLoop
  dsimp only
  (repeat' split) <;> simp

@[simp] theorem senseLoop_steady (p : Port) : steady (senseLoop p s) = steady s := by
  unfold senseLoop
  split <;> simp

@[simp] theorem unmask_steady (p : Port) : steady (unmask p s) = steady s := by
  unfold unmask
  (repeat' split) <;> simp

@[simp] theorem restart_steady (p : Port) (why : Option HookReason) : steady (restart p why s) = steady s := by
  unfold restart restartQuiet
  dsimp only
  (repeat' split) <;> simp

@[simp] theorem endSlot_steady (i : SlotId) : steady (endSlot i s) = steady s := by
  unfold endSlot setSlot
  split <;> simp

theorem cancelSlot_steady (i : SlotId) : steady ((cancelSlot i s).getD s) = steady s := by
  unfold cancelSlot
  split <;> simp

@[simp] theorem judgeRingFault_steady : steady (judgeRingFault s) = steady s := by
  unfold judgeRingFault
  (repeat' split) <;> simp

@[simp] theorem endBurst_steady (p : Port) (x : RingState) : steady (endBurst p x s) = steady s := by
  simp [endBurst, updSession, setSession]

@[simp] theorem endSession_steady (p : Port) (why : RingReason) (cause : Nat) :
    steady (endSession p why cause s) = steady s := by
  unfold endSession updSession setSession
  dsimp only
  (repeat' split) <;> simp

@[simp] theorem ringLosesHold_steady (f : Func) (holder : Channel) : steady (ringLosesHold f holder s) = steady s := by
  unfold ringLosesHold
  (repeat' split) <;> simp

@[simp] theorem grantNext_steady (f : Func) : steady (grantNext f s) = steady s :=
  steady_of_frame (by simp) (by simp) (by simp)

@[simp] theorem removeHold_steady (f : Func) : steady (removeHold f s) = steady s := rfl

@[simp] theorem homeTestEnded_steady (p : Port) : steady (homeTestEnded p s) = steady s := by
  have hp : steady (s.updPort p (fun q => { q with underTest := false })) = steady s :=
    updPort_steady ⟨rfl, fun _ => rfl⟩
  unfold homeTestEnded
  dsimp only
  split <;> simp [hp]

end

end Sys2Proof.Machine
end

