-- ==== Sys2Proof/Proofs/FaultRaised.lean ====
section
namespace Sys2Proof.Machine

/-! ## What raising a fault does to the fault unit (R156, R169, R174) -/

/-- The log after a fault was raised at an uptime (R156, R169). -/
def loggedBy (f : Raised) (uptime : BitVec 32) (u : FaultUnit) : List LogRecord :=
  if u.taking = true ∨ levelOf u.levels f.cls = 0 then u.log else (logStore uptime (levelOf u.levels f.cls) f u).1.log

theorem logStore_channels (uptime : BitVec 32) (level : Nat) (f : Raised) (u : FaultUnit) :
    (logStore uptime level f u).1.channels = u.channels := by
  unfold logStore
  dsimp only
  (repeat' split) <;> rfl

theorem offerCapture_log (uptime : BitVec 32) (level : Nat) (seq : BitVec 32) (f : Raised) (u : FaultUnit) :
    (offerCapture uptime level seq f u).log = u.log := by
  unfold offerCapture
  (repeat' split) <;> rfl

theorem offerCapture_channels (uptime : BitVec 32) (level : Nat) (seq : BitVec 32) (f : Raised) (u : FaultUnit) :
    (offerCapture uptime level seq f u).channels = u.channels := by
  unfold offerCapture
  (repeat' split) <;> rfl

theorem decideChannel_log (cls : FaultClass) (level : Nat) (source : Option Nat) (st : Stored) (c : Channel)
    (s : State) : (decideChannel cls level source st c s).faults.log = s.faults.log := by
  unfold decideChannel
  split <;> rfl

theorem notifyFault_log (f : Raised) (level : Nat) (st : Stored) (s : State) :
    (notifyFault f level st s).faults.log = s.faults.log := by
  unfold notifyFault
  dsimp only
  split <;> simp [decideChannel_log]

theorem raiseFault_log (f : Raised) (s : State) : (raiseFault f s).faults.log = loggedBy f s.uptime s.faults := by
  unfold raiseFault loggedBy
  by_cases ht : s.faults.taking = true
  · simp [ht]
  · by_cases hl : levelOf s.faults.levels f.cls = 0
    · simp [ht, hl, takeFault]
    · simp only [ht, hl, takeFault, if_false, or_self, Bool.false_eq_true, notifyFault_log]
      simp only [State.updFaults]
      split
      · exact offerCapture_log ..
      · rfl

/-- What is kept for the channels and the battery watch have no part in the log. -/
theorem loggedBy_of_eq {f : Raised} {uptime : BitVec 32} {u v : FaultUnit}
    (h : v = { u with channels := v.channels, watch := v.watch }) : loggedBy f uptime v = loggedBy f uptime u := by
  rw [h]
  unfold loggedBy logStore
  dsimp only
  (repeat' split) <;> rfl

/-- A channel's mask and threshold (R174). -/
def heldBy (u : FaultUnit) (c : Channel) : Half × Nat := ((u.channels.get c).masks, (u.channels.get c).threshold)

@[simp] theorem updFaultChannel_heldBy {c : Channel} {g : FaultChannel → FaultChannel} {s : State}
    (hg : ∀ k, (g k).masks = k.masks ∧ (g k).threshold = k.threshold) :
    heldBy (updFaultChannel c g s).faults = heldBy s.faults := by
  funext d
  by_cases hd : d = c
  · subst hd
    simp [heldBy, updFaultChannel, hg]
  · simp [heldBy, updFaultChannel, hd]

theorem decideChannel_heldBy (cls : FaultClass) (level : Nat) (source : Option Nat) (st : Stored) (c : Channel)
    (s : State) : heldBy (decideChannel cls level source st c s).faults = heldBy s.faults := by
  unfold decideChannel
  split
  · exact updFaultChannel_heldBy fun k => ⟨rfl, rfl⟩
  · exact updFaultChannel_heldBy fun k => ⟨rfl, rfl⟩

theorem raiseFault_heldBy (f : Raised) (s : State) : heldBy (raiseFault f s).faults = heldBy s.faults := by
  unfold raiseFault takeFault
  dsimp only
  split
  · rfl
  · split
    · rfl
    · have hstored : heldBy (if (logStore s.uptime (levelOf s.faults.levels f.cls) f s.faults).2.logged = true then
          offerCapture s.uptime (levelOf s.faults.levels f.cls)
            (logStore s.uptime (levelOf s.faults.levels f.cls) f s.faults).2.sequence f
            (logStore s.uptime (levelOf s.faults.levels f.cls) f s.faults).1
          else (logStore s.uptime (levelOf s.faults.levels f.cls) f s.faults).1) = heldBy s.faults := by
        funext c
        unfold heldBy
        split
        · rw [offerCapture_channels, logStore_channels]
        · rw [logStore_channels]
      unfold notifyFault
      dsimp only
      split
      · simpa using hstored
      · simpa [decideChannel_heldBy] using hstored

end Sys2Proof.Machine
end

