-- ==== Sys2Proof/Proofs/TestAborts.lean ====
section
namespace Sys2Proof.Machine

/-! ## Aborts for a lost hold or a reset requester (R145 to R147) -/

/-- Neither the requester of the test in flight nor anyone for it holds the test's function, so no gated release follows
the test's end (R38). -/
def gateless (s : State) : Prop :=
  ∀ x h, s.engine.test = some x → (s.lines.table.get (targetFunc x.target)).hold = some h → h.holder ≠ x.requester

theorem gatedRelease_of_not_holder {f : Func} {c : Channel} {gate : Nat} {s : State}
    (h : ∀ x, (s.lines.table.get f).hold = some x → x.holder ≠ c) : gatedRelease f c gate s = s := by
  unfold gatedRelease funcRec
  split
  · next x hx => simp [h x hx]
  · rfl

/-- The test with its abort reason; the first one stands (R146). -/
def withAbort (why : AbortReason) (x : Test) : Test := { x with abort := some (x.abort.getD why) }

/-- TEST_ABORTED of a test (R146). -/
def abortFault (why : AbortReason) (x : Test) (s : State) : Raised :=
  raisedAt s .testAborted (some x.kind.code) why.code (phaseCode (some x))

/-- A test outside RELEASE has its reason, and TEST_ABORTED is raised (R146). -/
def abortRaised (why : AbortReason) (x : Test) (s : State) : State :=
  raiseFault (abortFault why x s) (s.updEngine (fun e => { e with test := some (withAbort why x) }))

/-- A test that ends has its result record, and TEST_DONE is handed (R145). -/
def doneHanded (x : Test) (s : State) : State :=
  postCompletion (testDone x s.now) x.requester (s.updEngine (fun e => { e with result := some (resultOf x s.now) }))

/-- An aborted test ends (R145). -/
def abortedEnd (x : Test) (s : State) : State :=
  let s := match targetPort x.target with
    | some p => homeTestEnded p (doneHanded x s)
    | none => doneHanded x s
  s.updEngine (fun e => { e with test := none, wallDue := none, cleanDue := none })

section
variable {why : AbortReason} {x : Test} {s : State}

theorem outcomeOf_of_abort (ha : x.abort.isSome = true) : outcomeOf x = .aborted := by
  obtain ⟨r, hr⟩ := Option.isSome_iff_exists.1 ha
  simp [outcomeOf, hr]

theorem endTest_of_aborted (hx : s.engine.test = some x) (ha : x.abort.isSome = true) (hg : gateless s) :
    endTest s = abortedEnd x s := by
  have hgate (gate : Nat) (u : State) (hu : u.lines = s.lines) :
      gatedRelease (targetFunc x.target) x.requester gate u = u :=
    gatedRelease_of_not_holder fun h hh => hg x h hx (by rw [← hu, hh])
  unfold endTest abortedEnd
  simp only [hx, outcomeOf_of_abort ha, reduceCtorEq, if_false]
  cases x.viaGate with
  | none => rfl
  | some gate =>
    cases x.granted
    · rfl
    · simp only [if_true]
      rw [hgate gate _ (by simp)]
      rfl

section
variable (hw : why = .holdLost ∨ why = .requesterReset) (hx : s.engine.test = some x)
include hw hx

theorem abortTest_of_release (hp : x.phase = .release) : abortTest why s = s := by
  rcases hw with rfl | rfl <;> simp [abortTest, hx, hp, actOnAbort, abortByRelease]

/-- An abort outside RELEASE acts once the reason stands and the fault is raised (R147). -/
theorem abortTest_of_flight (hp : x.phase ≠ .release) :
    abortTest why s = abortByRelease (withAbort why x) (abortRaised why x s) := by
  have hact (y : Test) (u : State) : actOnAbort why y u = abortByRelease y u := by
    unfold actOnAbort
    split
    · next hn => simp [abortByRelease, hn]
    · rcases hw with rfl | rfl <;> rfl
  rw [← hact]
  unfold abortTest
  simp only [hx, if_neg hp]
  rfl

end

/-! ### Relays and resting positions (R92, R144) -/

theorem restingPass_eq_closed_iff {p : Port} : restingPass s p = .closed ↔ restingMode (s.port p) = .lifeline := by
  unfold restingPass
  cases restingMode (s.port p) <;> simp

theorem portAfterChange_steady {c : Change} {a : Asker} {p : Port}
    (h : c.feed.get p = some .off → restingPass s p = .closed) : steady (portAfterChange c a p s) = steady s := by
  have hd : steady (endDenialByFeed c p s) = steady s := by
    unfold endDenialByFeed
    split
    · next hf =>
      have hm := restingPass_eq_closed_iff.1 (h hf)
      exact updPort_steady ⟨rfl, fun hl => by simp [hm] at hl⟩
    · rfl
  have hs (u : State) : steady (judgeSuspended c a p u) = steady u := by
    unfold judgeSuspended
    (repeat' split)
    · exact updPort_steady ⟨rfl, fun _ => rfl⟩
    · exact updPort_steady ⟨rfl, fun _ => rfl⟩
    · rfl
  simp [portAfterChange, hs, hd]

/-- A release drives a feed OFF only on a port that rests on the lifeline (R92, R144). -/
theorem releaseChange_feed_off {p : Port} (h : (releaseChange s x).feed.get p = some .off) :
    restingPass s p = .closed := by
  unfold releaseChange at h
  cases hx : x.target with
  | exchange => cases p <;> simp [hx, noChange, PerPort.get] at h
  | home q =>
    rw [hx] at h
    by_cases hq : p = q
    · subst hq
      have hf : restingFeed s p = .off := by simpa using h
      rw [restingPass_eq_closed_iff]
      cases hm : restingMode (s.port p) with
      | lifeline => rfl
      | local_ => cases hd : (s.port p).denial.isSome <;> simp [restingFeed, hm, hd] at hf
    · simp only [PerPort.get_set_other _ _ _ _ hq] at h
      cases p <;> cases h

/-- The test bus never refuses a release (R44, R144). -/
theorem applyRelease_eq {a : Asker} : applyRelease a x s =
    judgeWatch (portAfterChange (releaseChange s x) a .p2 (portAfterChange (releaseChange s x) a .p1
      (handWindow .relay none (some x.id) s.now (some 70)
        (startSettle a (s.setRelays (moveRelays s.relays (releaseChange s x))))))) := by
  have hbus : (releaseChange s x).bus = some .disconnected := by
    unfold releaseChange
    split <;> rfl
  have hwiden : widen (releaseChange s x) = releaseChange s x := by simp [widen, hbus]
  simp [applyRelease, applyChange, hwiden, refusedByBus, hbus]
  rfl

theorem restingPass_of_steady {t : State} (h : steady t = steady s) (p : Port) : restingPass t p = restingPass s p :=
  congrArg (fun k => (k.rest p).1) h

theorem applyRelease_steady {a : Asker} : steady (applyRelease a x s) = steady s := by
  have h1 : steady (handWindow .relay none (some x.id) s.now (some 70)
      (startSettle a (s.setRelays (moveRelays s.relays (releaseChange s x))))) = steady s := by
    simp [startSettle]
  have h2 := portAfterChange_steady (a := a) (p := .p1) (fun h =>
    (restingPass_of_steady h1 .p1).trans (releaseChange_feed_off (x := x) h))
  rw [applyRelease_eq, judgeWatch_steady, portAfterChange_steady, h2, h1]
  exact fun h => (restingPass_of_steady (h2.trans h1) .p2).trans (releaseChange_feed_off h)

@[simp] theorem applyRelease_relays {a : Asker} :
    (applyRelease a x s).relays = moveRelays s.relays (releaseChange s x) := by
  simp [applyRelease_eq, startSettle]

/-- What a release makes of the relays, in the terms of the statement (R144). -/
theorem moveRelays_releaseChange (r : Relays) : moveRelays r (releaseChange s x) = releasedRelays x s r := by
  unfold releaseChange releasedRelays
  cases x.target with
  | exchange =>
    have hpass (p : Port) : releasePass s p =
        if portFitted s p = true ∧ lifelineCond s p = false then .open_ else .closed := by
      unfold releasePass lifelineCond restingPass
      cases portFitted s p <;> cases restingMode (s.port p) <;> rfl
    simp [moveRelays, noChange, hpass]
  | home p =>
    have hpass : restingPass s p = if lifelineCond s p = true then .closed else .open_ := by
      unfold lifelineCond restingPass
      cases restingMode (s.port p) <;> rfl
    have hfeed : restingFeed s p =
        if lifelineCond s p = true then .off else if (s.port p).denial.isSome = true then .denied else .on := by
      unfold restingFeed lifelineCond restingPass
      cases restingMode (s.port p) <;> rfl
    dsimp only
    rw [← hpass, ← hfeed]
    cases p <;> rfl

/-! ### What an abort leaves -/

theorem resultOf_withAbort (ha : x.abort = none) (now : Time) : resultOf (withAbort why x) now =
    ⟨x.kind, x.target, x.requester, x.viaGate, x.forced, .aborted, some why, [], x.clean, now⟩ := by
  simp [resultOf, withAbort, outcomeOf, listedMeasurements, ha]

/-- What an abort of a test outside RELEASE leaves (R145 to R147). -/
structure Aborted (why : AbortReason) (x : Test) (s t : State) : Prop where
  lines : t.lines = s.lines
  ring : t.ring = s.ring
  faults : unwatched t.faults = unwatched (abortRaised why x s).faults
  queued : ∀ K : Kind → Bool, Kind.minor ≤ K → K .testDone = true → Queued K s.channels t.channels
  ended : x.phase = .notify → t.engine.test = none ∧ t.engine.result = some (resultOf (withAbort why x) s.now) ∧
    Handed .testDone [(testDone (withAbort why x) s.now, some x.requester)] s.channels t.channels
  releasing : x.phase ≠ .notify → t.relays = releasedRelays x t s.relays ∧ Handed .testDone [] s.channels t.channels ∧
    t.engine.test.map forgetReadings = some (forgetReadings { withAbort why x with
      phase := .release, clean := if x.phase = .measure then cleanSoFar x s.now else x.clean })

section
variable {y : Test}

theorem doneHanded_queued {K : Kind → Bool} (hd : K .testDone = true) : Queued K s.channels (doneHanded y s).channels :=
  postCompletion_queued hd .refl

theorem doneHanded_handed :
    Handed .testDone [(testDone y s.now, some y.requester)] s.channels (doneHanded y s).channels :=
  postCompletion_handed (s := s.updEngine _) rfl rfl

/-- After TEST_DONE only a home test's port can hand notices: its supervisor's. -/
theorem abortedEnd_queued {K : Kind → Bool} (hK : Kind.minor ≤ K) :
    Queued K (doneHanded y s).channels (abortedEnd y s).channels := by
  unfold abortedEnd
  dsimp only
  split <;> simp -implicitDefEqProofs [hK]

theorem abortedEnd_lines : (abortedEnd y s).lines = s.lines := by
  unfold abortedEnd doneHanded
  dsimp only
  split <;> simp

theorem abortedEnd_ring : (abortedEnd y s).ring = s.ring := by
  unfold abortedEnd doneHanded
  dsimp only
  split <;> simp

theorem abortedEnd_steady : steady (abortedEnd y s) =
    { steady s with test := none, result := some (resultOf y s.now) } := by
  have hdone : steady (match targetPort y.target with
        | some p => homeTestEnded p (doneHanded y s)
        | none => doneHanded y s) =
      { steady s with result := some (resultOf y s.now) } := by
    split <;> simp only [homeTestEnded_steady, doneHanded, postCompletion_steady] <;> rfl
  have hend (u : State) :
      steady (u.updEngine (fun e => { e with test := none, wallDue := none, cleanDue := none })) =
        { steady u with test := none } := rfl
  unfold abortedEnd
  rw [hend, hdone]

end

/-- The engine enters RELEASE, and nothing else of the test changes (R144). -/
theorem enterRelease_steady {y : Test} (hy : s.engine.test = some y) : steady (enterRelease s) =
    { steady s with test := some (forgetReadings { y with phase := .release }) } := by
  simp only [enterRelease, hy, applyRelease_steady]
  simp [steady, updTest, hy]
  rfl

theorem enterRelease_relays {y : Test} (hy : s.engine.test = some y) :
    (enterRelease s).relays = releasedRelays y s s.relays := by
  simp only [enterRelease, hy, applyRelease_relays, moveRelays_releaseChange]
  rfl

/-- The relays that a release gives follow the resting positions alone (R92, R144). -/
theorem releasedRelays_of_rest {t : State} (ht : t.twoPorts = s.twoPorts) (hr : (steady t).rest = (steady s).rest)
    (r : Relays) : releasedRelays x t r = releasedRelays x s r := by
  have hpass (p : Port) : restingPass t p = restingPass s p := congrArg (fun k => (k p).1) hr
  have hfeed (p : Port) : restingFeed t p = restingFeed s p := congrArg (fun k => (k p).2) hr
  have hfit (p : Port) : portFitted t p = portFitted s p := by cases p <;> simp [portFitted, ht]
  rw [← moveRelays_releaseChange, ← moveRelays_releaseChange]
  simp only [releaseChange, releasePass, hpass, hfeed, hfit]

/-! ### The state in which the fault is raised -/

@[simp] theorem abortRaised_test : (abortRaised why x s).engine.test = some (withAbort why x) := by
  simp [abortRaised]

theorem abortRaised_queued {K : Kind → Bool} (hK : Kind.minor ≤ K) :
    Queued K s.channels (abortRaised why x s).channels :=
  raiseFault_queued hK (by simp) _

@[simp] theorem abortRaised_frame : (abortRaised why x s).clock = s.clock ∧ (abortRaised why x s).lines = s.lines ∧
    (abortRaised why x s).relays = s.relays ∧ (abortRaised why x s).twoPorts = s.twoPorts ∧
    (abortRaised why x s).ring = s.ring := by
  simp [abortRaised]

end

/-! ### An abort, phase by phase -/

section
variable {s : State}

theorem cancelled_frame (i : SlotId) : ((cancelSlot i s).getD s).engine.test = s.engine.test ∧
    ((cancelSlot i s).getD s).lines = s.lines ∧ ((cancelSlot i s).getD s).clock = s.clock ∧
    ((cancelSlot i s).getD s).ring = s.ring := by
  unfold cancelSlot
  split <;> simp

theorem cancelled_queued_minor {K : Kind → Bool} (hK : Kind.minor ≤ K) (i : SlotId) :
    Queued K s.channels ((cancelSlot i s).getD s).channels := by
  cases hc : cancelSlot i s with
  | none => exact .refl
  | some t => exact cancelSlot_queued hK .refl hc

end

section
variable {why : AbortReason} {x : Test} {s : State}
  (hw : why = .holdLost ∨ why = .requesterReset) (hx : s.engine.test = some x)
include hw hx

theorem abortTest_of_notify (hg : gateless s) (hp : x.phase = .notify) : Aborted why x s (abortTest why s) := by
  let y := withAbort why x
  let v := (cancelSlot (targetSlot x.target) (abortRaised why x s)).getD (abortRaised why x s)
  obtain ⟨hclock, hlines, -, -, hring⟩ := abortRaised_frame (why := why) (x := x) (s := s)
  obtain ⟨hvtest, hvlines, hvclock, hvring⟩ := cancelled_frame (s := abortRaised why x s) (targetSlot x.target)
  have hvt : v.engine.test = some y := by rw [hvtest, abortRaised_test]
  have hvl : v.lines = s.lines := by rw [hvlines, hlines]
  have hvn : v.now = s.now := by rw [State.now, hvclock, hclock, State.now]
  have hgv : gateless v := fun z h hz hh => by
    rw [hvt] at hz
    cases hz
    exact hg x h hx (by rwa [← hvl])
  have ht : abortTest why s = abortedEnd y v := by
    rw [abortTest_of_flight hw hx (by simp [hp]), abortByRelease, show (withAbort why x).phase = .notify from hp]
    exact endTest_of_aborted hvt rfl hgv
  have hsteady : steady (abortedEnd y v) =
      { steady (abortRaised why x s) with test := none, result := some (resultOf y s.now) } := by
    rw [abortedEnd_steady, cancelSlot_steady, hvn]
  have hqv {K : Kind → Bool} (hK : Kind.minor ≤ K) : Queued K s.channels v.channels :=
    (abortRaised_queued hK).trans (cancelled_queued_minor hK _)
  have hhanded := ((hqv le_rfl).handed (k := .testDone) rfl).nil_trans
    (doneHanded_handed.trans_nil ((abortedEnd_queued (y := y) le_rfl).handed rfl))
  rw [hvn] at hhanded
  rw [ht]
  exact ⟨abortedEnd_lines.trans hvl, by rw [abortedEnd_ring, hvring, hring], congrArg Steady.faults hsteady,
    fun K hK hd => ((hqv hK).trans (doneHanded_queued hd)).trans (abortedEnd_queued hK),
    fun _ => ⟨rfl, congrArg Steady.result hsteady, hhanded⟩, fun hn => absurd hp hn⟩

/-- In CONNECT and in MEASURE the engine enters RELEASE with the clean time fixed (R147). -/
theorem abortTest_enters_release (hp : x.phase = .connect ∨ x.phase = .measure) :
    ∃ w, abortTest why s = enterRelease w ∧
      w.engine.test = some { withAbort why x with
        clean := if x.phase = .measure then cleanSoFar x s.now else x.clean } ∧
      unwatched w.faults = unwatched (abortRaised why x s).faults ∧
      w.lines = s.lines ∧ w.relays = s.relays ∧ w.twoPorts = s.twoPorts ∧ w.ring = s.ring ∧
      w.channels = (abortRaised why x s).channels := by
  obtain ⟨hclock, hlines, hrelays, htwo, hring⟩ := abortRaised_frame (why := why) (x := x) (s := s)
  have hflight := abortTest_of_flight hw hx (by rcases hp with hp | hp <;> simp [hp])
  rcases hp with hp | hp
  · refine ⟨dropSettle .testConnect (abortRaised why x s), ?_, ?_, rfl, hlines, hrelays, htwo, hring, rfl⟩
    · rw [hflight, abortByRelease, show (withAbort why x).phase = .connect from hp]
    · simp [hp, dropSettle, withAbort]
  · have htest : (stopTestTimers (abortRaised why x s)).engine.test = some (withAbort why x) := abortRaised_test
    refine ⟨fixClean (abortRaised why x s), ?_, ?_, rfl, hlines, hrelays, htwo, hring, rfl⟩
    · rw [hflight, abortByRelease, show (withAbort why x).phase = .measure from hp]
    · have hnow : (abortRaised why x s).now = s.now := by rw [State.now, hclock, State.now]
      simp only [fixClean, updTest, State.updEngine_engine, htest, Option.map_some, hp, if_true,
        show (withAbort why x).phase = .measure from hp]
      rw [hnow]
      rfl

theorem abortTest_of_connected (hp : x.phase = .connect ∨ x.phase = .measure) : Aborted why x s (abortTest why s) := by
  obtain ⟨w, ht, htest, hfaults, hlines, hrelays, htwo, hring, hchan⟩ := abortTest_enters_release hw hx hp
  have hsteady := enterRelease_steady htest
  have hq {K : Kind → Bool} (hK : Kind.minor ≤ K) : Queued K s.channels (enterRelease w).channels := by
    refine (abortRaised_queued (why := why) (x := x) hK).trans ?_
    rw [← hchan]
    exact enterRelease_queued hK .refl
  rw [ht]
  refine ⟨by simp [hlines], by simp [hring], (congrArg Steady.faults hsteady).trans hfaults, fun K hK _ => hq hK,
    fun hn => by simp [hn] at hp, fun _ => ⟨?_, (hq le_rfl).handed rfl, congrArg Steady.test hsteady⟩⟩
  rw [enterRelease_relays htest, hrelays,
    ← releasedRelays_of_rest (t := enterRelease w) (s := w) (by simp) (by rw [hsteady])]
  rfl

theorem abortTest_aborted (hg : gateless s) (hp : x.phase ≠ .release) : Aborted why x s (abortTest why s) := by
  cases h : x.phase with
  | notify => exact abortTest_of_notify hw hx hg h
  | connect => exact abortTest_of_connected hw hx (.inl h)
  | measure => exact abortTest_of_connected hw hx (.inr h)
  | release => exact absurd h hp

end

end Sys2Proof.Machine
end

