-- ==== Sys2Proof/Proofs/SessionEnds.lean ====
section
namespace Sys2Proof.Machine

/-! ## The end of a session whose hold is lost (R33, R129) -/

theorem byte_toNat (b : Byte) : byte b.toNat = b := by simp [byte]

/-- A session that ends has its burst ended, its phase timer stopped and its disturbance record ended (R129). -/
def sessionQuiet (p : Port) (s : State) : State :=
  endSlot (portSlot p) (updSession p (fun y => { y with phaseDue := none })
    (if inBurst s p = true then endBurst p (.silent false) s else s))

section
variable {s : State} {p q : Port}

theorem endSession_eq {x : RingSession} (hx : session s p = some x) (why : RingReason) (cause : Nat) :
    endSession p why cause s =
      setSession p none (postCompletion (ringEndOf s.now p x why.code cause).1 x.issuer (sessionQuiet p s)) := by
  have hnow : (sessionQuiet p s).now = s.now := by
    unfold sessionQuiet
    split <;> simp [State.now]
  unfold endSession
  simp only [hx]
  rw [← hnow]
  simp [sessionQuiet, ringEndOf, notice, detail4, byte_toNat]
  rfl

theorem sessionQuiet_queued {K : Kind → Bool} (hK : Kind.minor ≤ K) :
    Queued K s.channels (sessionQuiet p s).channels := by
  unfold sessionQuiet
  split <;> simp -implicitDefEqProofs [hK]

theorem endSession_handed {x : RingSession} (hx : session s p = some x) (why : RingReason) (cause : Nat) :
    Handed .ringEnd [ringEndOf s.now p x why.code cause] s.channels (endSession p why cause s).channels := by
  rw [endSession_eq hx]
  exact ((sessionQuiet_queued le_rfl).handed rfl).nil_trans (postCompletion_handed rfl rfl)

@[simp] theorem session_setSession_same (x : Option RingSession) : session (setSession p x s) p = x := by
  simp [session, setSession]

theorem session_setSession_other (x : Option RingSession) (h : q ≠ p) : session (setSession p x s) q = session s q := by
  simp [session, setSession, h]

theorem endBurst_session_other (x : RingState) (h : q ≠ p) : session (endBurst p x s) q = session s q := by
  have hj (u : State) : session (judgeRingFault u) q = session u q := by
    unfold judgeRingFault
    (repeat' split) <;> rfl
  have hc (k : WindowKey) (t : Time) (u : State) : session (closeWindow k t u) q = session u q := by simp [session]
  have hm (u : State) : session (unmask p u) q = session u q := by simp [session]
  rw [endBurst, hj, hm, hc]
  exact session_setSession_other _ h

theorem endSession_session (why : RingReason) (cause : Nat) :
    session (endSession p why cause s) q = if q = p then none else session s q := by
  cases hx : session s p with
  | none =>
    have hs : endSession p why cause s = s := by simp [endSession, hx]
    split
    · next h => rw [hs, h, hx]
    · rw [hs]
  | some x =>
    rw [endSession_eq hx]
    split
    · next h => rw [h, session_setSession_same]
    · next h =>
      rw [session_setSession_other _ h]
      have hend (u : State) : session (endSlot (portSlot p) u) q = session u q := by simp [session]
      have hpost (n : Notice) (c : Channel) (u : State) : session (postCompletion n c u) q = session u q := by
        simp [session]
      rw [hpost, sessionQuiet, hend, updSession, session_setSession_other _ h]
      split
      · exact endBurst_session_other _ h
      · rfl

/-- With no burst the end of a session takes no reading. -/
theorem endSession_engine (h : inBurst s p = false) (why : RingReason) (cause : Nat) :
    (endSession p why cause s).engine = s.engine := by
  unfold endSession
  simp only [h]
  split <;> simp [updSession, setSession]

/-! ### The ring unit's part in the loss of a hold -/

section
variable {f : Func} {holder : Channel}

theorem funcPort_eq_some : funcPort f = some p ↔ portFunc p = f := by
  cases f <;> cases p <;> decide

/-- The session of a port issued by the channel that loses the function's hold. -/
def losesSession (f : Func) (holder : Channel) (s : State) (p : Port) : Bool :=
  (session s p).any (fun x => decide (portFunc p = f ∧ x.issuer = holder))

theorem losesSession_of_other (h : funcPort f ≠ some p) : losesSession f holder s p = false := by
  have hp : portFunc p ≠ f := fun hp => h (funcPort_eq_some.2 hp)
  cases hx : session s p <;> simp [losesSession, hx, hp]

theorem ringLosesHold_of_port (h : funcPort f = some p) :
    ringLosesHold f holder s = if losesSession f holder s p = true then endSession p .holdLost 0 s else s := by
  have hp := funcPort_eq_some.1 h
  cases hx : session s p <;> simp [ringLosesHold, losesSession, h, hx, hp]

theorem ringLosesHold_session : session (ringLosesHold f holder s) p =
    if losesSession f holder s p = true then none else session s p := by
  cases hf : funcPort f with
  | none =>
    rw [losesSession_of_other (by simp [hf])]
    simp [ringLosesHold, hf]
  | some q =>
    rw [ringLosesHold_of_port hf]
    by_cases hp : p = q
    · subst hp
      split
      · simp [endSession_session]
      · rfl
    · rw [losesSession_of_other (p := p) (by simpa [hf] using Ne.symm hp)]
      split
      · simp [endSession_session, hp]
      · rfl

/-- What a port's session is told. -/
theorem sessionLost_eq : sessionLost f holder s = [Port.p1, Port.p2].flatMap (fun p =>
    if losesSession f holder s p = true then (session s p).toList.map (fun x => ringEndOf s.now p x 4 0) else []) := by
  unfold sessionLost losesSession
  congr 1
  funext p
  cases session s p with
  | none => rfl
  | some x => by_cases h : portFunc p = f ∧ x.issuer = holder <;> simp [Option.filter, h]

theorem ringLosesHold_handed :
    Handed .ringEnd (sessionLost f holder s) s.channels (ringLosesHold f holder s).channels := by
  have hother (q : Port) (h : funcPort f ≠ some q) := losesSession_of_other (holder := holder) (s := s) h
  cases hf : funcPort f with
  | none =>
    rw [sessionLost_eq]
    simpa [hother, hf, ringLosesHold] using Handed.refl
  | some q =>
    have hlost : sessionLost f holder s = if losesSession f holder s q = true then
        (session s q).toList.map (fun x => ringEndOf s.now q x 4 0) else [] := by
      rw [sessionLost_eq]
      cases q <;> simp [hother, hf]
    rw [hlost, ringLosesHold_of_port hf]
    split
    · next h =>
      obtain ⟨x, hx⟩ : ∃ x, session s q = some x := by
        cases hx : session s q with
        | none => simp [losesSession, hx] at h
        | some x => exact ⟨x, rfl⟩
      rw [hx]
      exact endSession_handed hx .holdLost 0
    · exact .refl

theorem inBurst_of_session {t : State} (h : session t p = session s p) : inBurst t p = inBurst s p := by
  simp [inBurst, h]

/-- Bursts only end. -/
theorem ringLosesHold_inBurst (h : inBurst s p = false) : inBurst (ringLosesHold f holder s) p = false := by
  have hs := ringLosesHold_session (f := f) (holder := holder) (s := s) (p := p)
  split at hs
  · simp [inBurst, hs]
  · rw [inBurst_of_session hs, h]

theorem ringLosesHold_engine (h : ∀ p, inBurst s p = false) : (ringLosesHold f holder s).engine = s.engine := by
  cases hf : funcPort f with
  | none => simp [ringLosesHold, hf]
  | some q =>
    rw [ringLosesHold_of_port hf]
    split
    · exact endSession_engine (h q) _ _
    · rfl

end

end

end Sys2Proof.Machine
end

