-- ==== Sys2Proof/Proofs/Releases.lean ====
section
namespace Sys2Proof.Machine

/-! ## A function passes on (R30, R47) -/

section
variable {s : State} {f g : Func}

/-- The first claim for the function is told CLAIM_GRANTED. -/
theorem grantNext_handed : Handed .claimGranted ((firstClaim s.lines f).toList.map (claimGrantedOf s.now)) s.channels
    (grantNext f s).channels := by
  unfold grantNext
  cases hc : firstClaim s.lines f with
  | none =>
    unfold firstClaim at hc
    rw [hc]
    exact .refl
  | some e =>
    have hf := firstClaim_function hc
    unfold firstClaim at hc
    rw [hc]
    subst hf
    exact postCompletion_handed (s := makeHold _ _ _ _ (dropClaim _ _ s)) rfl rfl

theorem grantNext_queued_of {K : Kind → Bool} (hK : K .claimGranted = true) :
    Queued K s.channels (grantNext f s).channels := by
  unfold grantNext
  split
  · exact postCompletion_queued hK .refl
  · exact .refl

theorem grantNext_lines (h : (s.lines.table.get f).hold = none) :
    (grantNext f s).lines = passOn s.uptime f s.lines := by
  unfold grantNext passOn firstClaim
  cases hc : s.lines.claims.find? (fun e => decide (e.function = f)) with
  | none =>
    have hf : ({ s.lines.table.get f with hold := none } : FuncRec) = s.lines.table.get f := by rw [← h]
    simp only [hf]
    have hset : s.lines.table.set f (s.lines.table.get f) = s.lines.table := by cases f <;> rfl
    rw [hset]
  | some e =>
    simp [grantedNotice, makeHold, dropClaim, updFunc, setClaims]
    rfl

theorem removeHold_hold : ((removeHold f s).lines.table.get f).hold = none := by
  simp [removeHold, updFunc]

theorem passOn_removeHold (uptime : BitVec 32) : passOn uptime f (removeHold f s).lines = passOn uptime f s.lines := by
  have hfirst : firstClaim (removeHold f s).lines f = firstClaim s.lines f := rfl
  have hget : (removeHold f s).lines.table.get f = { s.lines.table.get f with hold := none } := by
    simp [removeHold, updFunc]
  have hset (r : FuncRec) : (removeHold f s).lines.table.set f r = s.lines.table.set f r := PerFunc.set_set _ _ _ _
  unfold passOn
  rw [hfirst]
  split
  · rw [hget, hset]
    rfl
  · rw [hget, hset]
    rfl

end

/-! ## The loss of a hold at the test engine (R33, R146) -/

section
variable {s : State} {f : Func}

/-- The test in flight, if there is one, is not under the function's hold, or it is in RELEASE already. -/
def untouchedBy (f : Func) (s : State) : Prop :=
  ∀ x, s.engine.test = some x → targetFunc x.target = f → x.phase = .release

/-- Readings change neither what a test is under nor its phase, nor anything else of it but what they found. -/
theorem eq_of_forgetReadings {x y : Test} (h : forgetReadings y = forgetReadings x) :
    y = { x with exclusions := y.exclusions, openMark := y.openMark } := by
  unfold forgetReadings at h
  cases x
  cases y
  split at h <;> split at h <;> simp_all

theorem exists_test_of_steady {t : State} {x : Test} (h : (steady t).test = (steady s).test)
    (hx : s.engine.test = some x) : ∃ y, t.engine.test = some y ∧ forgetReadings y = forgetReadings x := by
  refine Option.map_eq_some_iff.1 ?_
  rw [show t.engine.test.map forgetReadings = (steady t).test from rfl, h]
  simp [steady, hx]

theorem untouchedBy_of_steady {t : State} (h : (steady t).test = (steady s).test) (hu : untouchedBy f s) :
    untouchedBy f t := fun x hx hf => by
  obtain ⟨y, hy, hyx⟩ := exists_test_of_steady h.symm hx
  have htarget : y.target = x.target := by rw [eq_of_forgetReadings hyx]
  have hphase : y.phase = x.phase := by rw [eq_of_forgetReadings hyx]
  rw [← hphase]
  exact hu y hy (by rw [htarget, hf])

theorem engineHoldLost_of_untouched (h : untouchedBy f s) : engineHoldLost f s = s := by
  unfold engineHoldLost
  split
  · next x hx =>
    split
    · next hf => exact abortTest_of_release (.inl rfl) hx (h x hx hf)
    · rfl
  · rfl

/-- Where no one holds the test's function any more, its abort leaves the claims and holds alone. -/
theorem gateless_of_free (h : (s.lines.table.get f).hold = none)
    (hf : ∀ x, s.engine.test = some x → targetFunc x.target = f) : gateless s := fun x hold hx hh => by
  rw [hf x hx, h] at hh
  cases hh

theorem engineHoldLost_aborts {x : Test} (h : (s.lines.table.get f).hold = none) (hx : s.engine.test = some x)
    (hf : targetFunc x.target = f) (hp : x.phase ≠ .release) : Aborted .holdLost x s (engineHoldLost f s) := by
  have hg : gateless s := gateless_of_free h fun y hy => by
    rw [hx] at hy
    cases hy
    exact hf
  simpa [engineHoldLost, hx, hf] using abortTest_aborted (.inl rfl) hx hg hp

theorem engineHoldLost_cases (h : (s.lines.table.get f).hold = none) :
    engineHoldLost f s = s ∨ ∃ x, Aborted .holdLost x s (engineHoldLost f s) := by
  by_cases hu : untouchedBy f s
  · exact .inl (engineHoldLost_of_untouched hu)
  · simp only [untouchedBy, not_forall] at hu
    obtain ⟨x, hx, hf, hp⟩ := hu
    exact .inr ⟨x, engineHoldLost_aborts h hx hf hp⟩

/-- What the engine does at the loss of a hold, whether or not it aborts its test. -/
theorem engineHoldLost_lines (h : (s.lines.table.get f).hold = none) : (engineHoldLost f s).lines = s.lines := by
  rcases engineHoldLost_cases h with he | ⟨x, ha⟩
  · rw [he]
  · exact ha.lines

theorem engineHoldLost_ring (h : (s.lines.table.get f).hold = none) : (engineHoldLost f s).ring = s.ring := by
  rcases engineHoldLost_cases h with he | ⟨x, ha⟩
  · rw [he]
  · exact ha.ring

theorem engineHoldLost_queued_of {K : Kind → Bool} (h : (s.lines.table.get f).hold = none) (hK : Kind.minor ≤ K)
    (hd : K .testDone = true) : Queued K s.channels (engineHoldLost f s).channels := by
  rcases engineHoldLost_cases h with he | ⟨x, ha⟩
  · rw [he]
    exact .refl
  · exact ha.queued K hK hd

theorem heldBy_of_unwatched {u v : FaultUnit} (h : unwatched u = unwatched v) : heldBy u = heldBy v := by
  have hc : (unwatched u).channels = (unwatched v).channels := by rw [h]
  funext c
  exact congrArg (fun k => ((k.get c).masks, (k.get c).threshold)) hc

theorem heldBy_of_steady {t : State} (h : steady t = steady s) : heldBy t.faults = heldBy s.faults :=
  heldBy_of_unwatched (congrArg Steady.faults h)

theorem Aborted.heldBy {why : AbortReason} {x : Test} {t : State} (h : Aborted why x s t) :
    heldBy t.faults = heldBy s.faults := by
  rw [heldBy_of_unwatched h.faults, abortRaised, raiseFault_heldBy]
  rfl

end

/-! ## A release (R32, R33, R47) -/

section
variable {s : State} {f : Func} {c : Channel}

/-- The state in which the engine is told of a loss: the hold is gone, and so is the session under it (R33). -/
def unheld (f : Func) (c : Channel) (s : State) : State := ringLosesHold f c (removeHold f s)

theorem unheld_lines : (unheld f c s).lines = (removeHold f s).lines := by simp [unheld]

theorem unheld_clock : (unheld f c s).clock = s.clock := by simp [unheld]

theorem unheld_hold : ((unheld f c s).lines.table.get f).hold = none := by
  rw [unheld_lines]
  exact removeHold_hold

theorem unheld_steady : steady (unheld f c s) = steady s := by simp [unheld]

theorem unheld_queued {K : Kind → Bool} (hK : Kind.minor ≤ K) (hr : K .ringEnd = true) :
    Queued K s.channels (unheld f c s).channels :=
  ringLosesHold_queued hK hr (by simp) f c

theorem holderIn_eq_some : holderIn s.lines f = some c ↔ ∃ h, (s.lines.table.get f).hold = some h ∧ h.holder = c := by
  simp [holderIn]

section
variable (hc : holderIn s.lines f = some c)
include hc

theorem releaseFunc_eq : releaseFunc f s = grantNext f (engineHoldLost f (unheld f c s)) := by
  obtain ⟨h, hh, rfl⟩ := holderIn_eq_some.1 hc
  simp [releaseFunc, funcRec, hh, holdLost, unheld]

theorem releaseFunc_lines : (releaseFunc f s).lines = passOn s.uptime f s.lines := by
  have hlines := engineHoldLost_lines (unheld_hold (f := f) (c := c) (s := s))
  rw [releaseFunc_eq hc, grantNext_lines (by rw [hlines]; exact unheld_hold), hlines, unheld_lines, passOn_removeHold]
  simp [State.uptime, unheld]

theorem releaseFunc_session (p : Port) :
    session (releaseFunc f s) p = if losesSession f c s p = true then none else session s p := by
  have hring : (releaseFunc f s).ring = (unheld f c s).ring := by
    rw [releaseFunc_eq hc]
    simp [engineHoldLost_ring unheld_hold]
  have hs : session (releaseFunc f s) p = session (unheld f c s) p := by simp [session, hring]
  rw [hs, unheld, ringLosesHold_session]
  rfl

/-- The grant is handed to the first claim, and nothing else of its kind. -/
theorem releaseFunc_claimGranted : Handed .claimGranted ((firstClaim s.lines f).toList.map (claimGrantedOf s.now))
    s.channels (releaseFunc f s).channels := by
  let K : Kind → Bool := fun k => k.minor || decide (k = .ringEnd) || decide (k = .testDone)
  have hK : Kind.minor ≤ K := fun k hk => by simp [K, hk]
  have hq : Queued K s.channels (engineHoldLost f (unheld f c s)).channels :=
    (unheld_queued hK rfl).trans (engineHoldLost_queued_of unheld_hold hK rfl)
  have hg := grantNext_handed (f := f) (s := engineHoldLost f (unheld f c s))
  have hnow : (engineHoldLost f (unheld f c s)).now = s.now := by simp [State.now, unheld]
  have hfirst : firstClaim (engineHoldLost f (unheld f c s)).lines f = firstClaim s.lines f := by
    rw [engineHoldLost_lines unheld_hold, unheld_lines]
    rfl
  rw [hnow, hfirst] at hg
  rw [releaseFunc_eq hc]
  exact (hq.handed rfl).nil_trans hg

/-- No hold is revoked by a release. -/
theorem releaseFunc_holdRevoked : Handed .holdRevoked [] s.channels (releaseFunc f s).channels := by
  let K : Kind → Bool := fun k => !decide (k = .holdRevoked)
  have hK : Kind.minor ≤ K := fun k hk => by cases k <;> first | rfl | cases hk
  have hq : Queued K s.channels (releaseFunc f s).channels := by
    rw [releaseFunc_eq hc]
    exact ((unheld_queued hK rfl).trans (engineHoldLost_queued_of unheld_hold hK rfl)).trans (grantNext_queued_of rfl)
  exact hq.handed rfl

/-- The session under the hold is told RING_END, and no other. -/
theorem releaseFunc_ringEnd : Handed .ringEnd (sessionLost f c s) s.channels (releaseFunc f s).channels := by
  let K : Kind → Bool := fun k => !decide (k = .ringEnd)
  have hK : Kind.minor ≤ K := fun k hk => by cases k <;> first | rfl | cases hk
  have hq : Queued K (unheld f c s).channels (releaseFunc f s).channels := by
    rw [releaseFunc_eq hc]
    exact (engineHoldLost_queued_of unheld_hold hK rfl).trans (grantNext_queued_of rfl)
  exact (ringLosesHold_handed (s := removeHold f s)).trans_nil (hq.handed rfl)

theorem releaseFunc_heldBy : heldBy (releaseFunc f s).faults = heldBy s.faults := by
  have hu : heldBy (unheld f c s).faults = heldBy s.faults := heldBy_of_steady unheld_steady
  have hg (u : State) : (grantNext f u).faults = u.faults := by simp
  rw [releaseFunc_eq hc, ← hu, hg]
  rcases engineHoldLost_cases (unheld_hold (f := f) (c := c) (s := s)) with he | ⟨x, ha⟩
  · rw [he]
  · exact ha.heldBy

/-! ### A release that does not reach the test -/

section
variable (hu : untouchedBy f s)
include hu

theorem releaseFunc_eq_of_untouched : releaseFunc f s = grantNext f (unheld f c s) := by
  rw [releaseFunc_eq hc, engineHoldLost_of_untouched (untouchedBy_of_steady (by rw [unheld_steady]) hu)]

end

end

/-- A release that aborts the test: the abort comes after the ring session's end and before the grant. -/
theorem releaseFunc_aborts {x : Test} (hx : s.engine.test = some x) (hf : targetFunc x.target = f)
    (hp : x.phase ≠ .release) : ∃ y, (unheld f c s).engine.test = some y ∧ forgetReadings y = forgetReadings x ∧
      Aborted .holdLost y (unheld f c s) (engineHoldLost f (unheld f c s)) := by
  obtain ⟨y, hy, hyx⟩ := exists_test_of_steady (t := unheld f c s) (by rw [unheld_steady]) hx
  have htarget : y.target = x.target := by rw [eq_of_forgetReadings hyx]
  have hphase : y.phase = x.phase := by rw [eq_of_forgetReadings hyx]
  exact ⟨y, hy, hyx, engineHoldLost_aborts unheld_hold hy (by rw [htarget, hf]) (by rwa [hphase])⟩

end

end Sys2Proof.Machine
end

