-- ==== Sys2Proof/Proofs/CoveredReleases.lean ====
section
namespace Sys2Proof.Machine

/-! ## Releasing the functions of the covered channels in turn (R47) -/

/-- What CLAIM_GRANTED notices the release of these functions hands. -/
def grantsOf (covered : List Channel) (fs : List Func) (s : State) : List Handing :=
  (fs.filter (freedIn covered s.lines)).flatMap (fun f => (firstClaim s.lines f).toList.map (claimGrantedOf s.now))

/-- What RING_END notices the release of these functions hands. -/
def lostOf (covered : List Channel) (fs : List Func) (s : State) : List Handing :=
  (fs.filter (freedIn covered s.lines)).flatMap (fun f =>
    (holderIn s.lines f).toList.flatMap (fun c => sessionLost f c s))

/-- What the release of a list of functions does whatever test is in flight. -/
structure Released (covered : List Channel) (fs : List Func) (s t : State) : Prop where
  lines : t.lines = passAll covered s.uptime fs s.lines
  clock : t.clock = s.clock
  sessions : ∀ p, portFunc p ∉ fs → session t p = session s p
  claimGranted : Handed .claimGranted (grantsOf covered fs s) s.channels t.channels
  holdRevoked : Handed .holdRevoked [] s.channels t.channels
  ringEnd : Handed .ringEnd (lostOf covered fs s) s.channels t.channels
  heldBy : heldBy t.faults = heldBy s.faults

section
variable {covered : List Channel} {fs gs : List Func} {f g : Func} {s t u : State}

theorem freedIn_passAll {uptime : BitVec 32} {l : LineFunctions} (h : g ∉ fs) :
    freedIn covered (passAll covered uptime fs l) g = freedIn covered l g := by
  rw [freedIn, holderIn, passAll_get_of_not_mem h]
  rfl

theorem firstClaim_passAll {uptime : BitVec 32} {l : LineFunctions} (h : g ∉ fs) :
    firstClaim (passAll covered uptime fs l) g = firstClaim l g := by
  induction fs generalizing l with
  | nil => rfl
  | cons f rest ih =>
    obtain ⟨hf, hrest⟩ : g ≠ f ∧ g ∉ rest := by simpa using h
    rw [passAll, List.foldl_cons, ← passAll, ih hrest, firstClaim_step hf]

theorem sessionLost_congr {c : Channel} (hs : ∀ p, portFunc p = g → session t p = session s p) (hn : t.now = s.now) :
    sessionLost g c t = sessionLost g c s := by
  unfold sessionLost
  congr 1
  funext p
  by_cases hp : portFunc p = g
  · rw [hs p hp, hn]
  · cases session s p <;> cases session t p <;> simp [Option.filter, hp]

theorem Released.refl : Released covered [] s s :=
  ⟨rfl, rfl, fun _ _ => rfl, .refl, .refl, .refl, rfl⟩

theorem grantsOf_append : grantsOf covered (fs ++ gs) s = grantsOf covered fs s ++ grantsOf covered gs s := by
  simp [grantsOf]

theorem lostOf_append : lostOf covered (fs ++ gs) s = lostOf covered fs s ++ lostOf covered gs s := by
  simp [lostOf]

/-- The release of other functions leaves the grants that these functions will bring. -/
theorem Released.grantsOf_eq (h : Released covered fs s t) (hd : ∀ g ∈ gs, g ∉ fs) :
    grantsOf covered gs t = grantsOf covered gs s := by
  have hnow : t.now = s.now := congrArg Clock.timebase h.clock
  unfold grantsOf
  rw [h.lines, hnow, List.filter_congr fun g hg => freedIn_passAll (hd g hg)]
  exact List.flatMap_congr fun g hg => by rw [firstClaim_passAll (hd g (List.mem_of_mem_filter hg))]

theorem Released.lostOf_eq (h : Released covered fs s t) (hd : ∀ g ∈ gs, g ∉ fs) :
    lostOf covered gs t = lostOf covered gs s := by
  have hnow : t.now = s.now := congrArg Clock.timebase h.clock
  unfold lostOf
  rw [h.lines, List.filter_congr fun g hg => freedIn_passAll (hd g hg)]
  refine List.flatMap_congr fun g hg => ?_
  have hgf := hd g (List.mem_of_mem_filter hg)
  rw [holderIn, passAll_get_of_not_mem hgf, ← holderIn]
  exact List.flatMap_congr fun c _ => sessionLost_congr (fun p hp => h.sessions p (by rwa [hp])) hnow

theorem Released.trans (h : Released covered fs s t) (h' : Released covered gs t u) (hd : ∀ g ∈ gs, g ∉ fs) :
    Released covered (fs ++ gs) s u where
  lines := by
    have hup : t.uptime = s.uptime := congrArg Clock.uptime h.clock
    rw [h'.lines, h.lines, hup, passAll, passAll, passAll, List.foldl_append]
  clock := h'.clock.trans h.clock
  sessions := fun p hp => by
    obtain ⟨hf, hg⟩ : portFunc p ∉ fs ∧ portFunc p ∉ gs := by simpa [not_or] using hp
    rw [h'.sessions p hg, h.sessions p hf]
  claimGranted := by
    rw [grantsOf_append, ← h.grantsOf_eq hd]
    exact h.claimGranted.trans h'.claimGranted
  holdRevoked := h.holdRevoked.trans h'.holdRevoked
  ringEnd := by
    rw [lostOf_append, ← h.lostOf_eq hd]
    exact h.ringEnd.trans h'.ringEnd
  heldBy := h'.heldBy.trans h.heldBy

/-- A function of the list, released where a covered channel holds it. -/
def releaseStep (covered : List Channel) (f : Func) (s : State) : State :=
  if freedIn covered s.lines f = true then releaseFunc f s else s

theorem freedIn_iff {l : LineFunctions} : freedIn covered l f = true ↔ ∃ c ∈ covered, holderIn l f = some c := by
  simp [freedIn]

theorem releaseCovered_cons :
    releaseCovered covered (f :: fs) s = releaseCovered covered fs (releaseStep covered f s) := by
  have hh : holderOf s f = holderIn s.lines f := rfl
  rw [releaseCovered, releaseStep, hh]
  cases hc : holderIn s.lines f with
  | none => simp [freedIn, hc]
  | some c =>
    have hf : freedIn covered s.lines f = covered.contains c := by
      rw [Bool.eq_iff_iff, freedIn_iff, hc]
      simp
    rw [hf]

theorem releaseCovered_append : releaseCovered covered (fs ++ gs) s =
    releaseCovered covered gs (releaseCovered covered fs s) := by
  induction fs generalizing s with
  | nil => rfl
  | cons f rest ih => rw [List.cons_append, releaseCovered_cons, ih, releaseCovered_cons]

theorem releaseStep_released : Released covered [f] s (releaseStep covered f s) := by
  unfold releaseStep
  by_cases hf : freedIn covered s.lines f = true
  · obtain ⟨c, -, hc⟩ := freedIn_iff.1 hf
    rw [if_pos hf]
    refine ⟨?_, by simp, fun p hp => ?_, ?_, releaseFunc_holdRevoked hc, ?_, releaseFunc_heldBy hc⟩
    · simp [passAll, hf, releaseFunc_lines hc]
    · rw [releaseFunc_session hc, losesSession_of_other]
      · rfl
      · rw [Ne, funcPort_eq_some]
        simpa using hp
    · simpa [grantsOf, hf] using releaseFunc_claimGranted hc
    · simpa [lostOf, hf, hc] using releaseFunc_ringEnd hc
  · rw [if_neg hf]
    refine ⟨by simp [passAll, hf], rfl, fun _ _ => rfl, ?_, .refl, ?_, rfl⟩
    · simpa [grantsOf, hf] using Handed.refl
    · simpa [lostOf, hf] using Handed.refl

theorem releaseCovered_released (hd : fs.Nodup) : Released covered fs s (releaseCovered covered fs s) := by
  induction fs generalizing s with
  | nil => exact .refl
  | cons f rest ih =>
    obtain ⟨hf, hd⟩ := List.nodup_cons.1 hd
    rw [releaseCovered_cons]
    refine releaseStep_released.trans (ih hd) fun g hg => ?_
    rw [List.mem_singleton]
    rintro rfl
    exact hf hg

end

/-! ## What stands beside an abort -/

/-- The test, its relays, the log and the ports' resting positions stand, and no TEST_DONE is handed. -/
structure Calm (s t : State) : Prop where
  clock : t.clock = s.clock
  twoPorts : t.twoPorts = s.twoPorts
  relays : t.relays = s.relays
  rest : (steady t).rest = (steady s).rest
  test : (steady t).test = (steady s).test
  result : t.engine.result = s.engine.result
  faults : t.faults = { s.faults with channels := t.faults.channels, watch := t.faults.watch }
  testDone : Handed .testDone [] s.channels t.channels
  engine : (∀ p, inBurst s p = false) → t.engine = s.engine ∧ ∀ p, inBurst t p = false

section
variable {covered : List Channel} {fs gs : List Func} {f g : Func} {s t u : State}

theorem Calm.refl : Calm s s := ⟨rfl, rfl, rfl, rfl, rfl, rfl, rfl, .refl, fun h => ⟨rfl, h⟩⟩

theorem Calm.trans (h : Calm s t) (h' : Calm t u) : Calm s u where
  clock := h'.clock.trans h.clock
  twoPorts := h'.twoPorts.trans h.twoPorts
  relays := h'.relays.trans h.relays
  rest := h'.rest.trans h.rest
  test := h'.test.trans h.test
  result := h'.result.trans h.result
  faults := by
    rw [h'.faults, h.faults]
  testDone := h.testDone.trans h'.testDone
  engine := fun hb => by
    obtain ⟨he, ht⟩ := h.engine hb
    obtain ⟨he', hu⟩ := h'.engine ht
    exact ⟨he'.trans he, hu⟩

/-- What is steady, with the relays, is calm where no TEST_DONE is handed. -/
theorem calm_of_steady (hs : steady t = steady s) (hc : t.clock = s.clock) (h2 : t.twoPorts = s.twoPorts)
    (hr : t.relays = s.relays) (hd : Handed .testDone [] s.channels t.channels)
    (he : (∀ p, inBurst s p = false) → t.engine = s.engine ∧ ∀ p, inBurst t p = false) : Calm s t where
  clock := hc
  twoPorts := h2
  relays := hr
  rest := by rw [hs]
  test := by rw [hs]
  result := congrArg Steady.result hs
  faults := by
    have hf : unwatched t.faults = unwatched s.faults := congrArg Steady.faults hs
    have : t.faults = { unwatched t.faults with watch := t.faults.watch } := rfl
    rw [this, hf]
    rfl
  testDone := hd
  engine := he

theorem unheld_calm {c : Channel} : Calm s (unheld f c s) := by
  refine calm_of_steady unheld_steady unheld_clock (by simp [unheld]) (by simp [unheld]) ?_ fun hb => ?_
  · let K : Kind → Bool := fun k => k.minor || decide (k = .ringEnd)
    exact (unheld_queued (K := K) (fun k hk => by simp [K, hk]) rfl).handed rfl
  · exact ⟨ringLosesHold_engine (s := removeHold f s) hb, fun p => ringLosesHold_inBurst (s := removeHold f s) (hb p)⟩

theorem grantNext_calm : Calm s (grantNext f s) := by
  refine calm_of_steady (grantNext_steady f) (by simp) (by simp) (by simp) ?_ fun hb => ⟨by simp, fun p => ?_⟩
  · exact (grantNext_queued_of (K := fun k => decide (k = .claimGranted)) rfl).handed rfl
  · rw [inBurst_of_session (s := s) (by simp [session]), hb]

theorem releaseStep_calm (hu : freedIn covered s.lines f = true → untouchedBy f s) :
    Calm s (releaseStep covered f s) := by
  unfold releaseStep
  split
  · next hf =>
    obtain ⟨c, -, hc⟩ := freedIn_iff.1 hf
    rw [releaseFunc_eq_of_untouched hc (hu hf)]
    exact unheld_calm.trans grantNext_calm
  · exact .refl

/-- Releases that do not reach the test leave it alone. -/
theorem releaseCovered_calm (hd : fs.Nodup) (hu : ∀ f ∈ fs, freedIn covered s.lines f = true → untouchedBy f s) :
    Calm s (releaseCovered covered fs s) := by
  induction fs generalizing s with
  | nil => exact .refl
  | cons f rest ih =>
    obtain ⟨hf, hd⟩ := List.nodup_cons.1 hd
    have hstep := releaseStep_calm (hu f List.mem_cons_self)
    rw [releaseCovered_cons]
    refine hstep.trans (ih hd fun g hg hfreed => untouchedBy_of_steady hstep.test (hu g (List.mem_cons_of_mem f hg) ?_))
    rwa [releaseStep_released.lines, freedIn_passAll] at hfreed
    rw [List.mem_singleton]
    rintro rfl
    exact hf hg

end

end Sys2Proof.Machine
end

