-- ==== Sys2Proof/Proofs/AbortTerms.lean ====
section
namespace Sys2Proof.Machine

/-! ## The statement's terms for an abort (R145 to R147) -/

section
variable {why : AbortReason} {x y : Test} {a b c t : State}

theorem abortCode_eq (why : AbortReason) : abortCode why = why.code := by cases why <;> rfl

/-- TEST_ABORTED in the terms of the statement. -/
theorem abortFaults_eq (hx : a.engine.test = some x) (hp : x.phase ≠ .release) :
    abortFaults (abortCode why) a = [abortFault why x a] := by
  unfold abortFaults abortFault raisedAt phaseCode
  rw [abortCode_eq, hx]
  cases h : x.phase <;> simp_all

/-- TEST_DONE of an aborted test in the terms of the statement. -/
theorem testDone_withAbort (ha : x.abort = none) (now : Time) :
    (testDone (withAbort why x) now, some x.requester) = abortDoneOf now x why := by
  have houtcome : outcomeOf (withAbort why x) = .aborted := outcomeOf_of_abort rfl
  unfold testDone abortDoneOf
  rw [houtcome, abortCode_eq]
  cases ht : x.target with
  | exchange => simp [withAbort, ha, ht, TestOutcome.code, targetCode, bitOf, notice, Kind.level]
  | home p => cases p <;> simp [withAbort, ha, ht, TestOutcome.code, targetCode, bitOf, notice, Kind.level]

theorem cleanSoFar_eq (hp : x.phase = .measure) (now : Time) : cleanSoFar x now = cleanAt x now := by
  unfold cleanSoFar cleanAt
  rw [hp]
  cases x.start <;> rfl

/-- A clean time outside MEASURE is what the test holds. -/
theorem cleanAt_of_not_measure (hp : x.phase ≠ .measure) (now : Time) : cleanAt x now = x.clean := by
  unfold cleanAt
  split
  · contradiction
  · rfl

/-- The fault unit may have kept other latches, and the battery watch run on, before TEST_ABORTED is raised. -/
theorem abortRaised_log (hx : a.engine.test = some x) (hp : x.phase ≠ .release) (hab : Calm a b)
    (hyx : forgetReadings y = forgetReadings x) : (abortRaised why y b).faults.log =
      (faultsTaken (abortFaults (abortCode why) a) a).faults.log := by
  have hfault : abortFault why y b = abortFault why x a := by
    have hnow : b.now = a.now := congrArg Clock.timebase hab.clock
    rw [eq_of_forgetReadings hyx]
    simp [abortFault, raisedAt, hnow, phaseCode]
  have hup : b.uptime = a.uptime := congrArg Clock.uptime hab.clock
  rw [abortFaults_eq hx hp]
  show _ = (raiseFault (abortFault why x a) a).faults.log
  rw [raiseFault_log, abortRaised, raiseFault_log, hfault]
  show loggedBy _ b.uptime b.faults = _
  rw [hup, loggedBy_of_eq hab.faults]

/-- A test in RELEASE stays as it is. -/
theorem testAborted_of_release (hx : a.engine.test = some x) (hp : x.phase = .release) (h : Calm a t) :
    testAborted why x a t := by
  refine ⟨fun _ => ⟨?_, ?_, h.testDone.hands⟩, fun hn => absurd hp hn⟩
  · obtain ⟨y, hy, hyx⟩ := exists_test_of_steady h.test hx
    have hyp : y.phase = .release := by rw [eq_of_forgetReadings hyx, hp]
    rw [hy, show y = x by simpa [forgetReadings, hp, hyp] using hyx]
  · rw [h.faults]

/-- A test outside RELEASE is aborted once, with nothing but calm before and after. -/
theorem testAborted_of_calm (hx : a.engine.test = some x) (hp : x.phase ≠ .release) (hab : Calm a b)
    (hy : b.engine.test = some y) (hbc : Aborted why y b c) (hct : Calm c t) :
    testAborted why x a t := by
  obtain ⟨y', hy', hyx⟩ := exists_test_of_steady hab.test hx
  rw [hy] at hy'
  cases hy'
  have hphase : y.phase = x.phase := by rw [eq_of_forgetReadings hyx]
  have hnow : b.now = a.now := congrArg Clock.timebase hab.clock
  refine ⟨fun h => absurd h hp, fun _ hnone => ⟨?_, fun hn => ?_, fun hn => ?_⟩⟩
  · have hlog : c.faults.log = (abortRaised why y b).faults.log := by
      show (unwatched c.faults).log = (unwatched (abortRaised why y b).faults).log
      rw [hbc.faults]
    rw [hct.faults, ← abortRaised_log hx hp hab hyx, ← hlog]
  · have hyx' : y = x := by simpa [forgetReadings, hphase, hn] using hyx
    subst hyx'
    obtain ⟨htest, hresult, hdone⟩ := hbc.ended hn
    refine ⟨?_, ?_, ?_⟩
    · have := hct.test
      simpa [steady, htest] using this
    · rw [hct.result, hresult, resultOf_withAbort hnone, hnow]
    · rw [testDone_withAbort hnone, hnow] at hdone
      exact ((hab.testDone.nil_trans hdone).trans_nil hct.testDone).hands
  · obtain ⟨hrelays, hdone, htest⟩ := hbc.releasing (by rwa [hphase])
    refine ⟨?_, ((hab.testDone.trans_nil hdone).trans_nil hct.testDone).hands, ?_⟩
    · rw [hct.relays, hrelays, hab.relays, releasedRelays_of_rest hct.twoPorts hct.rest, eq_of_forgetReadings hyx]
      rfl
    · have hz : t.engine.test.map forgetReadings = some (forgetReadings { withAbort why y with
          phase := .release, clean := if y.phase = .measure then cleanSoFar y b.now else y.clean }) := by
        rw [← htest]
        exact hct.test
      obtain ⟨z, hz, hzy⟩ := Option.map_eq_some_iff.1 hz
      have hyid : y.id = x.id := by rw [eq_of_forgetReadings hyx]
      have hyabort : y.abort = x.abort := by rw [eq_of_forgetReadings hyx]
      refine ⟨z, hz, by rw [eq_of_forgetReadings hzy], ?_, ?_, fun _ hb => ?_⟩
      · rw [eq_of_forgetReadings hzy]
        simp [withAbort, hyabort, hnone]
      · rw [eq_of_forgetReadings hzy]
        exact hyid
      · have hyeq : y = x := by
          have := (hab.engine hb).1
          rw [this, hx] at hy
          exact (Option.some.inj hy).symm
        subst hyeq
        rw [eq_of_forgetReadings hzy]
        by_cases hm : y.phase = .measure
        · simp [hm, cleanSoFar_eq hm, hnow]
        · simp [hm, cleanAt_of_not_measure hm]

end

end Sys2Proof.Machine
end

