-- ==== Sys2Proof/Proofs/ResetSteps.lean ====
section
namespace Sys2Proof.Machine

/-! ## The steps of a channel reset (R21, R47) -/

theorem allFuncs_nodup : allFuncs.Nodup := by decide

theorem mem_allFuncs (f : Func) : f ∈ allFuncs := by cases f <;> decide

/-- What the releases start from: the covered channels' queues, subscriptions and claims are gone. -/
def stripped (covered : List Channel) (s : State) : State :=
  setClaims (s.lines.claims.filter (fun e => !covered.contains e.channel)) (freshChannels covered s)

/-- The state in which the engine acts, the last of the owners. -/
def beforeEngine (covered : List Channel) (s : State) : State :=
  freshFaultChannels covered (releaseCovered covered allFuncs (stripped covered s))

section
variable {covered : List Channel} {s t : State} {c : Channel} {f : Func}

theorem channelReset_eq : channelReset covered s = engineReset covered (beforeEngine covered s) := by
  simp [channelReset, resetHolds, beforeEngine, stripped]

/-! ### The port block and the fault unit -/

theorem freshChannels_get :
    (freshChannels covered s).channels.get c = if c ∈ covered then freshChannel c else s.channels.get c := by
  induction covered generalizing s with
  | nil => rfl
  | cons d rest ih =>
    rw [freshChannels, ih]
    by_cases hc : c = d
    · subst hc
      simp
    · simp [hc]

theorem stripped_channels_get :
    (stripped covered s).channels.get c = if c ∈ covered then freshChannel c else s.channels.get c :=
  freshChannels_get

theorem freshFaultChannels_faults : (freshFaultChannels covered s).faults =
    { s.faults with channels := (freshFaultChannels covered s).faults.channels } := by
  induction covered generalizing s with
  | nil => rfl
  | cons d rest ih =>
    rw [freshFaultChannels, ih]
    rfl

theorem freshFaultChannels_get : (freshFaultChannels covered s).faults.channels.get c =
    if c ∈ covered then freshFaultChannel c else s.faults.channels.get c := by
  induction covered generalizing s with
  | nil => rfl
  | cons d rest ih =>
    rw [freshFaultChannels, ih]
    by_cases hc : c = d
    · subst hc
      simp [updFaultChannel]
    · simp [updFaultChannel, hc]

theorem freshFaultChannels_calm : Calm s (freshFaultChannels covered s) where
  clock := by simp
  twoPorts := by simp
  relays := by simp
  rest := by
    have hport (p : Port) : (freshFaultChannels covered s).port p = s.port p := by cases p <;> simp [State.port]
    simp [steady, restingPass, restingFeed, hport]
  test := by simp [steady]
  result := by simp
  faults := by
    conv_lhs => rw [freshFaultChannels_faults]
    rw [freshFaultChannels_faults]
  testDone := by simpa using Handed.refl
  engine := fun hb => ⟨by simp, fun p => by rw [inBurst_of_session (s := s) (by simp [session]), hb]⟩

/-! ### Lines and holds -/

theorem stripped_lines : (stripped covered s).lines =
    { s.lines with claims := s.lines.claims.filter (fun e => !covered.contains e.channel) } := by
  simp [stripped, setClaims]

theorem beforeEngine_lines :
    (beforeEngine covered s).lines = passAll covered s.uptime allFuncs (stripped covered s).lines := by
  have hup : (stripped covered s).uptime = s.uptime := by simp [stripped, State.uptime, setClaims]
  have hlines (u : State) : (freshFaultChannels covered u).lines = u.lines := by simp
  rw [beforeEngine, hlines, (releaseCovered_released allFuncs_nodup).lines, hup]

/-- No covered channel holds a function once all functions have passed on: it had no claim left. -/
theorem holderIn_beforeEngine (hc : c ∈ covered) : holderIn (beforeEngine covered s).lines f ≠ some c := by
  rw [beforeEngine_lines]
  cases hf : freedIn covered (stripped covered s).lines f with
  | false =>
    rw [holderIn, passAll_get_of_not_freed hf]
    exact fun h => by simpa [hf] using freedIn_iff.2 ⟨c, hc, h⟩
  | true =>
    rw [holderIn, passAll_hold allFuncs_nodup (mem_allFuncs f) hf]
    cases he : firstClaim (stripped covered s).lines f with
    | none => simp
    | some e =>
      have hmem : e ∈ (stripped covered s).lines.claims := List.mem_of_find?_eq_some he
      have hkept : e.channel ∉ covered := by
        rw [stripped_lines] at hmem
        simpa using (List.mem_filter.1 hmem).2
      rintro h
      obtain rfl : e.channel = c := by simpa using h
      exact hkept hc

/-! ### The engine -/

theorem engineReset_of_not_covered (h : ∀ x, s.engine.test = some x → x.phase ≠ .release → x.requester ∉ covered) :
    engineReset covered s = s := by
  unfold engineReset
  split
  · next x hx =>
    split
    · next hc =>
      by_cases hp : x.phase = .release
      · exact abortTest_of_release (.inr rfl) hx hp
      · exact absurd (List.contains_iff_mem.1 hc) (h x hx hp)
    · rfl
  · rfl

/-- A test whose requester is covered is aborted; no gated release follows, as the requester holds nothing more. -/
theorem engineReset_aborts {x : Test} (hx : s.engine.test = some x) (hp : x.phase ≠ .release)
    (hc : x.requester ∈ covered) (hheld : ∀ c ∈ covered, ∀ f, holderIn s.lines f ≠ some c) :
    Aborted .requesterReset x s (engineReset covered s) := by
  have hg : gateless s := fun y h hy hh hholder => by
    rw [hx] at hy
    cases hy
    exact hheld _ hc _ (holderIn_eq_some.2 ⟨h, hh, hholder⟩)
  simpa [engineReset, hx, hc] using abortTest_aborted (.inr rfl) hx hg hp

theorem engineReset_cases (hheld : ∀ c ∈ covered, ∀ f, holderIn s.lines f ≠ some c) :
    engineReset covered s = s ∨ ∃ x, Aborted .requesterReset x s (engineReset covered s) := by
  by_cases h : ∀ x, s.engine.test = some x → x.phase ≠ .release → x.requester ∉ covered
  · exact .inl (engineReset_of_not_covered h)
  · push Not at h
    obtain ⟨x, hx, hp, hc⟩ := h
    exact .inr ⟨x, engineReset_aborts hx hp hc hheld⟩

end

/-! ## What a channel reset leaves of channels, holds and settings -/

section
variable {covered : List Channel} {s : State} {c : Channel}

theorem channelReset_cases : channelReset covered s = beforeEngine covered s ∨
    ∃ x, Aborted .requesterReset x (beforeEngine covered s) (channelReset covered s) := by
  rw [channelReset_eq]
  exact engineReset_cases fun c hc f => holderIn_beforeEngine hc

theorem channelReset_lines :
    (channelReset covered s).lines = passAll covered s.uptime allFuncs (stripped covered s).lines := by
  rw [← beforeEngine_lines]
  rcases channelReset_cases with h | ⟨x, h⟩
  · rw [h]
  · exact h.lines

theorem channelReset_heldBy : heldBy (channelReset covered s).faults c =
    if c ∈ covered then (defaultMasks c, 0) else heldBy s.faults c := by
  have hb : heldBy (channelReset covered s).faults = heldBy (beforeEngine covered s).faults := by
    rcases channelReset_cases (covered := covered) (s := s) with h | ⟨x, h⟩
    · rw [h]
    · exact h.heldBy
  have hs : heldBy (stripped covered s).faults = heldBy s.faults := by simp [stripped, setClaims]
  have hr := (releaseCovered_released (covered := covered) (s := stripped covered s) allFuncs_nodup).heldBy
  rw [hb, beforeEngine, heldBy, freshFaultChannels_get]
  split
  · rfl
  · rw [← heldBy, hr, hs]

/-- The engine's part hands nothing of a kind that is neither a hook supervisor's nor TEST_DONE. -/
theorem channelReset_handed {k : Kind} {l : List Handing} (hk : k.minor = false) (hd : k ≠ .testDone)
    (h : Handed k l (stripped covered s).channels (releaseCovered covered allFuncs (stripped covered s)).channels) :
    Handed k l (stripped covered s).channels (channelReset covered s).channels := by
  have hc : (beforeEngine covered s).channels = (releaseCovered covered allFuncs (stripped covered s)).channels := by
    simp [beforeEngine]
  rw [← hc] at h
  rcases channelReset_cases (covered := covered) (s := s) with he | ⟨x, ha⟩
  · rwa [he]
  · let K : Kind → Bool := fun k => k.minor || decide (k = .testDone)
    exact h.trans_nil ((ha.queued K (fun k hk => by simp [K, hk]) rfl).handed (by simp [K, hk, hd]))

theorem channelReset_claimGranted : Handed .claimGranted (grantsOf covered allFuncs (stripped covered s))
    (stripped covered s).channels (channelReset covered s).channels :=
  channelReset_handed rfl (by decide) (releaseCovered_released allFuncs_nodup).claimGranted

theorem channelReset_holdRevoked :
    Handed .holdRevoked [] (stripped covered s).channels (channelReset covered s).channels :=
  channelReset_handed rfl (by decide) (releaseCovered_released allFuncs_nodup).holdRevoked

theorem channelReset_ringEnd : Handed .ringEnd (lostOf covered allFuncs (stripped covered s))
    (stripped covered s).channels (channelReset covered s).channels :=
  channelReset_handed rfl (by decide) (releaseCovered_released allFuncs_nodup).ringEnd

end

end Sys2Proof.Machine
end

