-- ==== Sys2Proof/Proofs/ResetTest.lean ====
section
namespace Sys2Proof.Machine

/-! ## The test of a channel reset (R33, R146) -/

section
variable {covered : List Channel} {s t a : State} {x y : Test} {f : Func}

/-- The covered channels' queues and claims go, and everything else is calm. -/
theorem stripped_calm (ha : a =
    { s with gateway := a.gateway, modem := a.modem, channels := (stripped covered s).channels }) :
    Calm a (stripped covered s) := by
  have hports : (stripped covered s).ports = a.ports := by rw [ha]; simp [stripped, setClaims]
  have hengine : (stripped covered s).engine = a.engine := by rw [ha]; simp [stripped, setClaims]
  have hfaults : (stripped covered s).faults = a.faults := by rw [ha]; simp [stripped, setClaims]
  have hring : (stripped covered s).ring = a.ring := by rw [ha]; simp [stripped, setClaims]
  have hchannels : (stripped covered s).channels = a.channels := by rw [ha]
  refine calm_of_steady (steady_of_frame hports hengine hfaults) ?_ ?_ ?_ ?_ fun hb => ⟨hengine, fun p => ?_⟩
  · rw [ha]; simp [stripped, setClaims]
  · rw [ha]; simp [stripped, setClaims]
  · rw [ha]; simp [stripped, setClaims]
  · rw [hchannels]
    exact .refl
  · rw [inBurst_of_session (s := a) (by simp [session, hring]), hb]

/-- With no test that a release or the engine's own part reaches, the whole reset is calm. -/
theorem channelReset_calm
    (hf : ∀ f, freedIn covered (stripped covered s).lines f = true → untouchedBy f (stripped covered s))
    (hr : ∀ x, s.engine.test = some x → x.phase ≠ .release → x.requester ∉ covered) :
    Calm (stripped covered s) (channelReset covered s) := by
  have hcalm : Calm (stripped covered s) (beforeEngine covered s) :=
    (releaseCovered_calm allFuncs_nodup fun f _ => hf f).trans freshFaultChannels_calm
  rw [channelReset_eq, engineReset_of_not_covered]
  · exact hcalm
  · intro y hy
    obtain ⟨x, hx, hxy⟩ := exists_test_of_steady hcalm.test.symm hy
    have hx' : s.engine.test = some x := by simpa [stripped, setClaims] using hx
    rw [show y.phase = x.phase by rw [eq_of_forgetReadings hxy],
      show y.requester = x.requester by rw [eq_of_forgetReadings hxy]]
    exact hr x hx'

theorem stripped_test (hx : s.engine.test = some x) : (stripped covered s).engine.test = some x := by
  simpa [stripped, setClaims] using hx

/-- An aborted test has ended or is in RELEASE. -/
theorem Aborted.inRelease {why : AbortReason} (h : Aborted why x s t) :
    ∀ z, t.engine.test = some z → z.phase = .release := fun z hz => by
  by_cases hp : x.phase = .notify
  · rw [(h.ended hp).1] at hz
    cases hz
  · have htest := (h.releasing hp).2.2
    rw [hz] at htest
    rw [eq_of_forgetReadings (Option.some.inj htest)]

/-- What stays calm keeps a test in RELEASE. -/
theorem Calm.inRelease (h : Calm s t) (hs : ∀ z, s.engine.test = some z → z.phase = .release) :
    ∀ z, t.engine.test = some z → z.phase = .release := fun z hz => by
  obtain ⟨y, hy, hyz⟩ := exists_test_of_steady h.test.symm hz
  rw [← hs y hy, eq_of_forgetReadings hyz]

/-- The loss of its hold aborts the test in the middle of the releases: the functions before its own and those after it
leave it alone, and so does the engine's own part. -/
theorem channelReset_holdLost (hx : s.engine.test = some x) (hp : x.phase ≠ .release)
    (hf : freedIn covered (stripped covered s).lines (targetFunc x.target) = true) :
    ∃ b y c, Calm (stripped covered s) b ∧ b.engine.test = some y ∧ Aborted .holdLost y b c ∧
      Calm c (channelReset covered s) := by
  obtain ⟨before, after, hsplit⟩ := List.append_of_mem (mem_allFuncs (targetFunc x.target))
  obtain ⟨hbefore, hafter, hdisjoint⟩ := List.nodup_append.1 (hsplit ▸ allFuncs_nodup)
  obtain ⟨-, hafter⟩ := List.nodup_cons.1 hafter
  have hfirst : targetFunc x.target ∉ before := fun h => hdisjoint _ h _ List.mem_cons_self rfl
  let u := releaseCovered covered before (stripped covered s)
  have hu : Calm (stripped covered s) u := releaseCovered_calm hbefore fun f hmem _ z hz hzf => by
    rw [stripped_test hx] at hz
    cases hz
    exact absurd (hzf ▸ hmem) hfirst
  have hfu : freedIn covered u.lines (targetFunc x.target) = true := by
    rw [(releaseCovered_released hbefore).lines, freedIn_passAll hfirst, hf]
  obtain ⟨holder, -, hholder⟩ := freedIn_iff.1 hfu
  obtain ⟨w, hw, hwx⟩ := exists_test_of_steady hu.test (stripped_test hx)
  obtain ⟨y, hy, -, hab⟩ := releaseFunc_aborts (c := holder) hw
    (show targetFunc w.target = targetFunc x.target by rw [eq_of_forgetReadings hwx])
    (show w.phase ≠ .release by rwa [show w.phase = x.phase by rw [eq_of_forgetReadings hwx]])
  let v := releaseFunc (targetFunc x.target) u
  have hv : Calm (engineHoldLost (targetFunc x.target) (unheld (targetFunc x.target) holder u)) v := by
    rw [show v = _ from releaseFunc_eq hholder]
    exact grantNext_calm
  have hd : Calm v (beforeEngine covered s) := by
    have heq : releaseCovered covered allFuncs (stripped covered s) = releaseCovered covered after v := by
      rw [hsplit, releaseCovered_append, releaseCovered_cons, releaseStep, if_pos hfu]
    rw [beforeEngine, heq]
    exact (releaseCovered_calm hafter fun f _ _ z hz _ => hv.inRelease hab.inRelease z hz).trans freshFaultChannels_calm
  have hend : channelReset covered s = beforeEngine covered s := by
    rw [channelReset_eq]
    exact engineReset_of_not_covered fun z hz hzp => absurd ((hv.trans hd).inRelease hab.inRelease z hz) hzp
  exact ⟨_, y, _, hu.trans unheld_calm, hy, hab, hend ▸ hv.trans hd⟩

/-- With its hold kept, a test whose requester is covered is aborted by the engine's own part, after the releases. -/
theorem channelReset_requesterReset (hx : s.engine.test = some x) (hp : x.phase ≠ .release)
    (hf : freedIn covered (stripped covered s).lines (targetFunc x.target) = false) (hc : x.requester ∈ covered) :
    ∃ b y c, Calm (stripped covered s) b ∧ b.engine.test = some y ∧ Aborted .requesterReset y b c ∧
      Calm c (channelReset covered s) := by
  have hb : Calm (stripped covered s) (beforeEngine covered s) := by
    refine Calm.trans (releaseCovered_calm allFuncs_nodup fun f _ hfreed z hz hzf => ?_) freshFaultChannels_calm
    rw [stripped_test hx] at hz
    cases hz
    rw [hzf, hfreed] at hf
    cases hf
  obtain ⟨y, hy, hyx⟩ := exists_test_of_steady hb.test (stripped_test hx)
  have hyp : y.phase ≠ .release := by rwa [show y.phase = x.phase by rw [eq_of_forgetReadings hyx]]
  have hyc : y.requester ∈ covered := by rwa [show y.requester = x.requester by rw [eq_of_forgetReadings hyx]]
  refine ⟨_, y, _, hb, hy, engineReset_aborts hy hyp hyc fun c hc f => holderIn_beforeEngine hc, ?_⟩
  rw [channelReset_eq]
  exact .refl

/-- The test of a channel reset in the terms of the statement. -/
theorem channelReset_test (ha : Calm a (stripped covered s)) (ht : Calm (channelReset covered s) t)
    (hax : a.engine.test = s.engine.test) (hx : s.engine.test = some x)
    (h : freedIn covered (stripped covered s).lines (targetFunc x.target) = true ∨ x.requester ∈ covered) :
    testAborted (if freedIn covered (stripped covered s).lines (targetFunc x.target) = true then .holdLost
      else .requesterReset) x a t := by
  by_cases hp : x.phase = .release
  · refine testAborted_of_release (hax.trans hx) hp ((ha.trans (channelReset_calm ?_ ?_)).trans ht)
    · intro f _ z hz _
      rw [stripped_test hx] at hz
      cases hz
      exact hp
    · intro z hz hzp
      rw [hx] at hz
      cases hz
      exact absurd hp hzp
  · split
    · next hf =>
      obtain ⟨b, y, c, hb, hy, hab, hc⟩ := channelReset_holdLost hx hp hf
      exact testAborted_of_calm (hax.trans hx) hp (ha.trans hb) hy hab (hc.trans ht)
    · next hf =>
      obtain ⟨b, y, c, hb, hy, hab, hc⟩ := channelReset_requesterReset hx hp (by simpa using hf) (h.resolve_left hf)
      exact testAborted_of_calm (hax.trans hx) hp (ha.trans hb) hy hab (hc.trans ht)

end

end Sys2Proof.Machine
end

