-- ==== Sys2Proof/Proofs/IdleReset.lean ====
section
namespace Sys2Proof.Machine

/-! ## A channel reset with no session and no test in flight -/

theorem PerChan.eq_of_get {α : Type} {a b : PerChan α} (h : ∀ c, a.get c = b.get c) : a = b := by
  cases a
  cases b
  rw [PerChan.mk.injEq]
  exact ⟨h .modem, h .management, h .gateway⟩

section
variable {s t u : State}

/-- What a notice makes of the queues follows the queues alone. -/
theorem post_channels_congr (h : s.channels = t.channels) (n : Notice) (receives : Channel → Bool) :
    (post n receives s).channels = (post n receives t).channels :=
  PerChan.eq_of_get fun c => by rw [post_channels_get, post_channels_get, h]

theorem handAll_channels_congr (h : s.channels = t.channels) (l : List Handing) :
    (handAll l s).channels = (handAll l t).channels := by
  induction l generalizing s t with
  | nil => exact h
  | cons x rest ih =>
    obtain ⟨n, concerned⟩ := x
    refine ih ?_
    cases concerned with
    | none => simpa only [postSubscribed, h] using post_channels_congr h n _
    | some c => simpa only [postCompletion, h] using post_channels_congr h n _

theorem handAll_append (l m : List Handing) (s : State) : handAll (l ++ m) s = handAll m (handAll l s) :=
  List.foldl_append ..

/-- No session and no test is in flight. -/
def idle (s : State) : Prop := s.engine.test = none ∧ ∀ p, session s p = none

theorem idle_of_eq (he : t.engine = s.engine) (hr : t.ring = s.ring) (h : idle s) : idle t := by
  obtain ⟨htest, hsession⟩ := h
  exact ⟨by rw [he, htest], fun p => by rw [session, hr]; exact hsession p⟩

theorem ringLosesHold_of_idle {f : Func} {c : Channel} (h : idle s) : ringLosesHold f c s = s := by
  unfold ringLosesHold
  split
  · next p _ => simp [h.2 p]
  · rfl

/-- A release then hands the function over, and does nothing else. -/
theorem releaseFunc_of_idle {f : Func} {c : Channel} (h : idle s) (hc : holderIn s.lines f = some c) :
    releaseFunc f s = grantNext f (removeHold f s) := by
  have hu : untouchedBy f s := fun x hx => by rw [h.1] at hx; cases hx
  rw [releaseFunc_eq_of_untouched hc hu, unheld, ringLosesHold_of_idle (s := removeHold f s) h]

theorem grantNext_channels {f : Func} : (grantNext f s).channels =
    (handAll ((firstClaim s.lines f).toList.map (claimGrantedOf s.now)) s).channels := by
  unfold grantNext
  cases hc : firstClaim s.lines f with
  | none =>
    unfold firstClaim at hc
    rw [hc]
    rfl
  | some e =>
    obtain rfl := firstClaim_function hc
    unfold firstClaim at hc
    rw [hc]
    let granted := makeHold e.function e.channel e.level none (dropClaim e.channel e.function s)
    exact handAll_channels_congr (s := granted) (t := s) rfl [claimGrantedOf s.now e]

theorem releaseStep_idle {covered : List Channel} {f : Func} (h : idle s) : idle (releaseStep covered f s) ∧
    (releaseStep covered f s).channels = (handAll (grantsOf covered [f] s) s).channels := by
  unfold releaseStep
  by_cases hf : freedIn covered s.lines f = true
  · obtain ⟨c, -, hc⟩ := freedIn_iff.1 hf
    rw [if_pos hf, releaseFunc_of_idle h hc]
    refine ⟨idle_of_eq (by simp) (by simp) h, ?_⟩
    rw [grantNext_channels]
    have hgrants : grantsOf covered [f] s = (firstClaim s.lines f).toList.map (claimGrantedOf s.now) := by
      simp [grantsOf, hf]
    rw [hgrants]
    exact handAll_channels_congr (s := removeHold f s) (t := s) rfl _
  · rw [if_neg hf]
    exact ⟨h, by simp [grantsOf, hf, handAll]⟩

/-- The grants, in the order of the function numbers, are then all that is handed (R47). -/
theorem releaseCovered_idle {covered : List Channel} {fs : List Func} (hd : fs.Nodup) (h : idle s) :
    (releaseCovered covered fs s).channels = (handAll (grantsOf covered fs s) s).channels := by
  induction fs generalizing s with
  | nil => rfl
  | cons f rest ih =>
    obtain ⟨hf, hd⟩ := List.nodup_cons.1 hd
    obtain ⟨hidle, hchannels⟩ := releaseStep_idle (covered := covered) (f := f) h
    have hgrants : grantsOf covered rest (releaseStep covered f s) = grantsOf covered rest s :=
      releaseStep_released.grantsOf_eq fun g hg => by
        rw [List.mem_singleton]
        rintro rfl
        exact hf hg
    rw [releaseCovered_cons, ih hd hidle, hgrants, handAll_channels_congr hchannels,
      ← handAll_append, ← grantsOf_append, List.singleton_append]

theorem channelReset_idle {covered : List Channel} (h : idle s) :
    (channelReset covered s).channels =
      (handAll (grantsOf covered allFuncs (stripped covered s)) (stripped covered s)).channels ∧
    ∀ c ∈ covered, ((channelReset covered s).faults.channels.get c).latches = [] := by
  have hs : idle (stripped covered s) := idle_of_eq (by simp [stripped, setClaims]) (by simp [stripped, setClaims]) h
  have htest : (beforeEngine covered s).engine.test = none := by
    have hcalm := (releaseCovered_calm (covered := covered) (s := stripped covered s) allFuncs_nodup
      (fun f _ _ x hx => by rw [hs.1] at hx; cases hx)).trans (freshFaultChannels_calm (covered := covered))
    exact Option.map_eq_none_iff.1 (hcalm.test.trans (by simp [steady, hs.1]))
  have hreset : channelReset covered s = beforeEngine covered s := by
    rw [channelReset_eq]
    exact engineReset_of_not_covered fun x hx => by rw [htest] at hx; cases hx
  rw [hreset]
  refine ⟨?_, fun c hc => ?_⟩
  · rw [← releaseCovered_idle allFuncs_nodup hs]
    simp [beforeEngine]
  · rw [beforeEngine, freshFaultChannels_get, if_pos hc]
    rfl

end

end Sys2Proof.Machine
end

