-- ==== Sys2Proof/Proofs/ChannelResets.lean ====
section
namespace Sys2Proof.Machine

/-! ## Channel resets (R21, R22, R47) -/

section
variable {covered : List Channel} {s u t : State}

/-- A channel reset in the terms of the statement; what the ports hold, before and after, has no part in it. -/
theorem channelReset_wasReset (hu : u = { s with gateway := u.gateway, modem := u.modem })
    (ht : t = { channelReset covered u with gateway := t.gateway, modem := t.modem }) : wasReset covered s t := by
  unfold wasReset
  intro kept first freed chan cleared grants lost
  have hstripped : (stripped covered u).lines = { s.lines with claims := kept } := by rw [stripped_lines, hu]
  have hclock : (stripped covered u).clock = s.clock := by rw [hu]; simp [stripped, setClaims]
  have hup : u.uptime = s.uptime := by rw [hu]; rfl
  have hnow : (stripped covered u).now = s.now := congrArg Clock.timebase hclock
  have hring : (stripped covered u).ring = s.ring := by rw [hu]; simp [stripped, setClaims]
  have hengine : u.engine = s.engine := by rw [hu]
  have hfreed : freedIn covered (stripped covered u).lines = freed := by rw [hstripped]; rfl
  have hfirst : firstClaim (stripped covered u).lines = first := by rw [hstripped]; rfl
  have hholder : holderIn (stripped covered u).lines = holderOf s := by rw [hstripped]; rfl
  have hget (f : Func) : (stripped covered u).lines.table.get f = s.lines.table.get f := by rw [hstripped]
  have hcleared : (stripped covered u).channels = cleared.channels :=
    PerChan.eq_of_get fun c => by rw [stripped_channels_get, hu]; cases c <;> rfl
  have hgrants : grantsOf covered allFuncs (stripped covered u) = grants := by
    rw [grantsOf, hfreed, hfirst, hnow]
  have hlost : lostOf covered allFuncs (stripped covered u) = lost := by
    have hsession (f : Func) (c : Channel) : sessionLost f c (stripped covered u) = sessionLost f c s :=
      sessionLost_congr (fun p _ => by rw [session, hring]; rfl) hnow
    simp only [lostOf, hfreed, hholder, hsession]
    rfl
  have hcalm : Calm cleared (stripped covered u) := stripped_calm (by rw [hcleared, hu])
  have hend : Calm (channelReset covered u) t := by rw [ht]; exact { Calm.refl with }
  have hchannels : t.channels = (channelReset covered u).channels := by rw [ht]
  have hlines : t.lines = passAll covered s.uptime allFuncs (stripped covered u).lines := by
    rw [ht, ← hup]
    exact channelReset_lines
  have hheldBy (c : Channel) : heldBy t.faults c = if c ∈ covered then (defaultMasks c, 0) else heldBy s.faults c := by
    have hf : s.faults = u.faults := by rw [hu]
    rw [ht, hf]
    exact channelReset_heldBy
  have hsubs (c : Channel) : (t.channels.get c).subs = ((stripped covered u).channels.get c).subs := by
    rw [hchannels]
    exact (channelReset_holdRevoked c).subs
  refine ⟨fun c hc => ?_, fun c hc => ?_, fun f hf => ?_, fun f => ?_, fun f hf => ?_, ?_, ?_, ?_, ?_, fun hx hs => ?_,
    fun x hx hf => ?_, fun hx => ?_, ?_⟩
  · have h := hheldBy c
    rw [if_pos hc] at h
    refine ⟨?_, congrArg Prod.fst h, congrArg Prod.snd h, fun f => ?_⟩
    · rw [hsubs, stripped_channels_get, if_pos hc]
      rfl
    · have := holderIn_beforeEngine (s := u) (f := f) hc
      rwa [beforeEngine_lines, hup, ← hlines] at this
  · have h := hheldBy c
    rw [if_neg hc] at h
    refine ⟨?_, congrArg Prod.fst h, congrArg Prod.snd h, fun f hf => ?_⟩
    · rw [hsubs, stripped_channels_get, if_neg hc, hu]
    · have hne : ∀ d ∈ covered, c ≠ d := fun d hd h => hc (h ▸ hd)
      rw [hlines, passAll_get_of_not_freed, hget]
      rw [hfreed]
      simpa [freed, hf] using hne
  · rw [hlines, passAll_get_of_not_freed, hget]
    rw [hfreed]
    simp [freed, hf]
  · rw [hlines, passAll_level, hget]
  · rw [hlines, passAll_hold allFuncs_nodup (mem_allFuncs f) (by rw [hfreed, hf]), hfirst]
  · rw [hlines, passAll_claims allFuncs_nodup, hfreed, hfirst, hstripped]
    exact List.filter_congr fun e _ => by simp [mem_allFuncs]
  · have h := channelReset_claimGranted (covered := covered) (s := u)
    rw [hgrants, hcleared, ← hchannels] at h
    exact h.hands
  · have h := channelReset_holdRevoked (covered := covered) (s := u)
    rw [hcleared, ← hchannels] at h
    exact h.hands
  · have h := channelReset_ringEnd (covered := covered) (s := u)
    rw [hlost, hcleared, ← hchannels] at h
    exact h.hands
  · have hidle : idle u := idle_of_eq hengine (by rw [hu]) ⟨hx, hs⟩
    obtain ⟨hhanded, hlatches⟩ := channelReset_idle (covered := covered) hidle
    rw [hgrants, ← hchannels] at hhanded
    refine ⟨hhanded.trans (handAll_channels_congr hcleared _), fun c hc => ?_⟩
    rw [ht]
    exact hlatches c hc
  · rw [← hfreed] at hf ⊢
    exact channelReset_test hcalm hend (by rw [hengine]) (by rw [hengine, hx]) hf
  · have hreset : Calm (stripped covered u) (channelReset covered u) := by
      refine channelReset_calm (fun f hf x hx' hxf => ?_) fun x hx' _ => (hx x (by rw [← hengine, hx'])).2
      have hx'' : s.engine.test = some x := by simpa [stripped, setClaims, hengine] using hx'
      rw [hfreed, ← hxf, (hx x hx'').1] at hf
      cases hf
    rw [((hcalm.trans hreset).trans hend).faults]
  · obtain ⟨hpending, hphase, hclock, hpins, htwoPorts, -, -, hdsl, hpower, hstore, hoccasion⟩ :=
      channelReset_frame covered u
    rw [ht]
    dsimp only
    rw [hpending, hphase, hclock, hpins, htwoPorts, hdsl, hpower, hstore, hoccasion, hu]

end

/-! ## CHANNEL RESET and the port-reset inputs (R6, R22) -/

theorem frameIn_ports (i : Instr) (s : State) :
    frameIn i s = { s with gateway := (frameIn i s).gateway, modem := (frameIn i s).modem } := by
  unfold frameIn
  split <;> rfl

theorem answered_ports (i : Instr) (o : Code) (results : List Byte) (s : State) : answered i o results s =
    { s with gateway := (answered i o results s).gateway, modem := (answered i o results s).modem } := by
  unfold answered
  split <;> rfl

theorem respondedWith_of_ports {i : Instr} {o : Code} {results : List Byte} {s u : State}
    (hg : u.gateway = (frameIn i s).gateway) (hm : u.modem = (frameIn i s).modem) :
    respondedWith i o results s (answered i o results u) := by
  unfold respondedWith answered
  split <;> simp [hg, hm]

/-- The port as the assertion of its port-reset input leaves it: its bytes and responses are gone (R6). -/
def heldInReset (port : PhysPort) (s : State) : State :=
  match port with
  | .gateway => s.updGateway (fun g => { g with partialFrame := [], held := none, resetInput := true })
  | .modem => s.updModem (fun m => { m with partialFrame := [], responses := [], resetInput := true })

theorem exec_portResetAssert {port : PhysPort} {s : State} (h : s.phase = .loading ∨ s.phase = .running) :
    exec (.portResetAssert port) s = .next (channelReset (channelsOf port) (heldInReset port s)) := by
  have hawake : awake (heldInReset port s) = true := by
    cases port <;> rcases h with h | h <;> simp [awake, heldInReset, h]
  have hexec : exec (.portResetAssert port) s = .next (if awake (heldInReset port s) = true then
      channelReset (channelsOf port) (heldInReset port s) else heldInReset port s) := by
    cases port <;> rfl
  rw [hexec, if_pos hawake]

theorem exec_channelReset {r : Req} {s : State} (h : frameTaken (.channelReset r) s) :
    exec (.channelReset r) s = .next (answered (.channelReset r) .ok
      [BitVec.ofNat 8 (s.channels.get r.channel).queue.length, if (s.channels.get r.channel).lost then 1 else 0]
      (channelReset [r.channel] (frameIn (.channelReset r) s))) := by
  rw [exec_of_taken h rfl]
  simp [answer, answerChannelReset, byte, flagByte]

/-- Settles O14: both commands are `channelReset` between changes of the ports. -/
theorem channelResetsReleaseEverything : Obligations.ChannelResetsReleaseEverything := by
  refine ⟨fun r s ht => ?_, fun port s hphase => ?_, fun s => ⟨rfl, rfl⟩⟩
  · exact ⟨_, exec_channelReset ht, respondedWith_of_ports (by simp) (by simp),
      channelReset_wasReset (frameIn_ports (.channelReset r) s) (answered_ports ..)⟩
  · refine ⟨_, exec_portResetAssert hphase, ?_, ?_, channelReset_wasReset ?_ rfl⟩
    · cases port <;> simp [heldInReset]
    · cases port <;> simp [heldInReset]
    · cases port <;> rfl

end Sys2Proof.Machine
end

