-- ==== Sys2Proof/Proofs/Attention.lean ====
section
namespace Sys2Proof.Machine

/-! ## Attention (R5, R18) -/

/-- A port's ready output (R5). -/
def portReady (s : State) (port : PhysPort) : Bool :=
  match port with
  | .gateway => s.gateway.ready
  | .modem => s.modem.ready

section
variable {s t : State} {port : PhysPort} {c : Channel}

theorem mem_channelsOf : c ∈ channelsOf port ↔ c.physPort = port := by
  cases port <;> cases c <;> decide

theorem attention_iff : attention s port = true ↔
    portReady s port = true ∧ ∃ c : Channel, c.physPort = port ∧ (s.channels.get c).queue ≠ [] := by
  simp only [attention, Bool.and_eq_true, List.any_eq_true, decide_eq_true_eq, mem_channelsOf]
  exact Iff.rfl

/-- Attention follows the ready output and which of the port's queues are empty. -/
theorem attention_congr (hr : portReady t port = portReady s port)
    (hq : ∀ c : Channel, c.physPort = port → (t.channels.get c).queue = (s.channels.get c).queue) :
    attention t port = attention s port := by
  rw [Bool.eq_iff_iff, attention_iff, attention_iff, hr]
  exact and_congr_right fun _ => exists_congr fun c => and_congr_right fun hc => by rw [hq c hc]

theorem attention_of_unready (h : portReady s port = false) : attention s port = false := by
  simpa [h] using (attention_iff (s := s) (port := port)).not

/-- Queueing a notice leaves a queue that is not empty. -/
theorem enqueue_ne_nil (n : Notice) (x : ChannelRec) : (enqueue n x).queue ≠ [] := by
  have hinsert (q : List Notice) : insertNotice n q ≠ [] := fun h => by
    have := (insertNotice_perm n q).length_eq
    simp [h] at this
  by_cases hx : x.queue = []
  · rw [enqueue_of_room (by simp [hx, hasKind]) (by simp [hx])]
    exact hinsert _
  · obtain ⟨a, held, b, -, -, -, -, he⟩ | ⟨-, ⟨-, he⟩ | ⟨front, last, -, -, he⟩ | he⟩ := enqueue_cases n x <;> rw [he]
    · exact hinsert _
    · exact hinsert _
    · exact hinsert _
    · exact hx

theorem portReady_post (n : Notice) (receives : Channel → Bool) :
    portReady (post n receives s) port = portReady s port := by
  cases port <;> simp [portReady]

/-- A notice that a channel receives asserts the attention of a ready port. -/
theorem attention_post {n : Notice} {receives : Channel → Bool} (h : receives c = true) :
    attention (post n receives s) c.physPort = portReady s c.physPort := by
  have hc : ((post n receives s).channels.get c).queue ≠ [] := by
    rw [post_channels_get, if_pos h]
    exact enqueue_ne_nil _ _
  rw [Bool.eq_iff_iff, attention_iff, portReady_post]
  exact ⟨fun h => h.1, fun h => ⟨h, c, rfl, hc⟩⟩

/-! ### Commands that empty queues -/

theorem portReady_answered {i : Instr} {o : Code} {results : List Byte} :
    portReady (answered i o results s) port = portReady s port := by
  unfold answered
  split <;> cases port <;> rfl

theorem portReady_frameIn {i : Instr} : portReady (frameIn i s) port = portReady s port := by
  unfold frameIn
  split <;> cases port <;> rfl

@[simp] theorem answered_channels {i : Instr} {o : Code} {results : List Byte} :
    (answered i o results s).channels = s.channels := by
  rw [answered_ports]

theorem portReady_of_open {n : Nat} (h : portOpen port n s) : portReady s port = true := by
  cases port <;> exact h.1

/-- On a ready port a channel's queue and the others of the port decide. -/
theorem attention_iff_of_channel (hready : portReady t c.physPort = true)
    (hothers : ∀ d, d ≠ c → (t.channels.get d).queue = (s.channels.get d).queue) :
    attention t c.physPort = true ↔ (t.channels.get c).queue ≠ [] ∨
      ∃ d : Channel, d ≠ c ∧ d.physPort = c.physPort ∧ (s.channels.get d).queue ≠ [] := by
  rw [attention_iff]
  constructor
  · rintro ⟨-, d, hd, hq⟩
    by_cases hdc : d = c
    · exact .inl (hdc ▸ hq)
    · exact .inr ⟨d, hdc, hd, hothers d hdc ▸ hq⟩
  · rintro (hq | ⟨d, hdc, hd, hq⟩)
    · exact ⟨hready, c, rfl, hq⟩
    · exact ⟨hready, d, hd, (hothers d hdc).symm ▸ hq⟩

/-- FETCH NOTICES takes its channel's first notices, and leaves the other queues and the ready outputs. -/
theorem exec_fetchNotices {r : Req} {limit : Byte} (h : frameTaken (.fetchNotices r limit) s) :
    ∃ t, exec (.fetchNotices r limit) s = .next t ∧ (∀ p, portReady t p = portReady s p) ∧
      (t.channels.get r.channel).queue = (s.channels.get r.channel).queue.drop (min limit.toNat 4) ∧
      ∀ d, d ≠ r.channel → t.channels.get d = s.channels.get d := by
  refine ⟨_, exec_of_taken h rfl, fun p => ?_, ?_, fun d hd => ?_⟩
  · rw [portReady_answered]
    exact portReady_frameIn
  · simp [answer, answerFetchNotices]
  · simp [answer, answerFetchNotices, hd]

/-- With no claims there is no grant, so a reset of idle channels only empties their queues. -/
theorem channelReset_queues {covered : List Channel} (hclaims : s.lines.claims = []) (h : idle s) :
    ((channelReset covered s).channels.get c).queue = if c ∈ covered then [] else (s.channels.get c).queue := by
  have hgrants : grantsOf covered allFuncs (stripped covered s) = [] := by
    simp [grantsOf, firstClaim, stripped_lines, hclaims]
  rw [(channelReset_idle h).1, hgrants, handAll, List.foldl_nil, stripped_channels_get]
  split <;> rfl

theorem portReady_channelReset {covered : List Channel} :
    portReady (channelReset covered s) port = portReady s port := by
  cases port <;> simp [portReady]

/-! ### The resets (R186, R187) -/

theorem portReady_powerOn (x : Straps) : portReady (powerOn x s) port = false := by
  cases port <;> simp [portReady, powerOn, powerOnValues]

end

/-- Settles O13. -/
theorem attentionFollowsTheQueues : Obligations.AttentionFollowsTheQueues := by
  unfold Obligations.AttentionFollowsTheQueues
  intro quiet
  refine ⟨fun port s => attention_iff, fun n receives c s h => attention_post h, fun r limit s ht => ?_,
    fun r s ht hquiet => ?_, fun port s hphase hquiet => ?_, fun x port s => ⟨?_, ?_, fun hphase => ?_⟩⟩
  · obtain ⟨t, hexec, hready, hleft, hothers⟩ := exec_fetchNotices ht
    refine ⟨t, hexec, ?_, fun other hne => ?_⟩
    · rw [attention_iff_of_channel (s := s) ((hready _).trans (portReady_of_open ht)) fun d hd => by
        rw [hothers d hd], hleft]
    · refine attention_congr (hready other) fun d hd => ?_
      rw [hothers d]
      rintro rfl
      exact hne hd.symm
  · obtain ⟨hclaims, hidle⟩ := hquiet
    have hu : idle (frameIn (.channelReset r) s) := by rw [frameIn_ports]; exact hidle
    have huclaims : (frameIn (.channelReset r) s).lines.claims = [] := by rw [frameIn_ports]; exact hclaims
    refine ⟨_, exec_channelReset ht, ?_⟩
    rw [attention_iff_of_channel (s := s)]
    · simp [channelReset_queues huclaims hu]
    · rw [portReady_answered, portReady_channelReset, portReady_frameIn]
      exact portReady_of_open ht
    · intro d hd
      simp [channelReset_queues huclaims hu, hd]
  · obtain ⟨hclaims, hidle⟩ := hquiet
    have hu : idle (heldInReset port s) := by cases port <;> exact hidle
    have huclaims : (heldInReset port s).lines.claims = [] := by cases port <;> exact hclaims
    refine ⟨_, exec_portResetAssert hphase, ?_⟩
    rw [← Bool.not_eq_true, attention_iff]
    rintro ⟨-, c, hc, hq⟩
    rw [channelReset_queues huclaims hu, if_pos (mem_channelsOf.2 hc)] at hq
    exact hq rfl
  · exact ⟨_, rfl, attention_of_unready (by cases port <;> rfl)⟩
  · exact ⟨_, rfl, attention_of_unready (portReady_powerOn x)⟩
  · have hexec : exec .resetPinAssert s = .next (if s.phase = .unpowered then s else resetPinValues s) := rfl
    rw [if_neg hphase] at hexec
    exact ⟨_, hexec, attention_of_unready (by cases port <;> rfl)⟩

end Sys2Proof.Machine
end

