-- ==== Sys2Proof/Proofs/WindowList.lean ====
section
/-! The blanking-window list (R58 to R62): what placing, merging, removing and closing windows makes of it, and that
each of them keeps the list's conditions. -/

namespace Sys2Proof.Machine

/-! ## The list as a list -/

section
variable {now t : Time} {k : WindowKey} {w x y target : Window} {l m : List Window}

theorem insertWindow_perm : (insertWindow now w l).Perm (w :: l) := by
  induction l with
  | nil => exact .refl _
  | cons x rest ih =>
    unfold insertWindow
    split
    · exact .refl _
    · exact (ih.cons x).trans (.swap w x rest)

@[simp] theorem insertWindow_length : (insertWindow now w l).length = l.length + 1 := by
  simpa using (insertWindow_perm (now := now) (w := w) (l := l)).length_eq

@[simp] theorem mem_insertWindow : x ∈ insertWindow now w l ↔ x = w ∨ x ∈ l := by
  simp [insertWindow_perm.mem_iff]

/-- The conditions do not depend on the order. -/
theorem windowsSound_perm (h : l.Perm m) : windowsSound l ↔ windowsSound m := by
  have hsymm : ∀ {a b : Window}, (∀ k ∈ a.keys, k ∉ b.keys) → ∀ k ∈ b.keys, k ∉ a.keys := fun h k hb ha => h k ha hb
  simp only [windowsSound, h.length_eq, h.mem_iff, h.pairwise_iff hsymm]

theorem windowsSound_cons : windowsSound (w :: l) ↔ l.length < 8 ∧ (w.keys = [] ↔ w.stop.isSome = true) ∧
    (∀ x ∈ l, ∀ k ∈ w.keys, k ∉ x.keys) ∧ windowsSound l := by
  simp only [windowsSound, List.length_cons, List.forall_mem_cons, List.pairwise_cons]
  constructor
  · rintro ⟨h1, ⟨h2, h3⟩, h4, h5⟩
    exact ⟨by omega, h2, h4, by omega, h3, h5⟩
  · rintro ⟨h1, h2, h4, -, h3, h5⟩
    exact ⟨by omega, ⟨h2, h3⟩, h4, h5⟩

theorem windowsSound_sublist (h : l.Sublist m) (hm : windowsSound m) : windowsSound l :=
  ⟨h.length_le.trans hm.1, fun w hw => hm.2.1 w (h.subset hw), hm.2.2.sublist h⟩

/-! ### Merging (R62) -/

theorem mem_unionKeys {a b : List WindowKey} : k ∈ unionKeys a b ↔ k ∈ a ∨ k ∈ b := by
  simp only [unionKeys, List.mem_append, List.mem_filter, List.contains_iff_mem, Bool.not_eq_eq_eq_not, Bool.not_true,
    ← Bool.not_eq_true]
  tauto

theorem mergeWindow_keys : (mergeWindow now target w).keys = unionKeys target.keys w.keys := rfl

/-- A merged window is open exactly while a key holds it. -/
theorem mergeWindow_stop :
    (mergeWindow now target w).keys = [] ↔ (mergeWindow now target w).stop.isSome = true := by
  simp only [mergeWindow]
  split <;> simp_all

/-! ### Closing a key (R60) -/

theorem closeKey_of_absent (h : ∀ w ∈ l, k ∉ w.keys) : closeKey now k t l = l := by
  induction l with
  | nil => rfl
  | cons w rest ih =>
    obtain ⟨hw, hrest⟩ := List.forall_mem_cons.1 h
    simp [closeKey, hw, ih hrest]

@[simp] theorem closeKey_length : (closeKey now k t l).length = l.length := by
  induction l with
  | nil => rfl
  | cons w rest ih =>
    unfold closeKey
    split <;> simp [ih]

/-- Closing a key gives no window a key that it had not. -/
theorem exists_of_mem_closeKey (h : x ∈ closeKey now k t l) : ∃ y ∈ l, ∀ j ∈ x.keys, j ∈ y.keys := by
  induction l with
  | nil => cases h
  | cons w rest ih =>
    unfold closeKey at h
    split at h
    · obtain rfl | h := List.mem_cons.1 h
      · exact ⟨w, by simp, fun j hj => (List.mem_filter.1 hj).1⟩
      · exact ⟨x, by simp [h], fun _ => id⟩
    · obtain rfl | h := List.mem_cons.1 h
      · exact ⟨x, by simp, fun _ => id⟩
      · obtain ⟨y, hy, hk⟩ := ih h
        exact ⟨y, by simp [hy], hk⟩

theorem closeKey_sound (h : windowsSound l) : windowsSound (closeKey now k t l) := by
  induction l with
  | nil => exact h
  | cons w rest ih =>
    obtain ⟨hlen, hstop, hkeys, hrest⟩ := windowsSound_cons.1 h
    unfold closeKey
    split
    · refine windowsSound_cons.2 ⟨hlen, ?_, fun x hx j hj => hkeys x hx j (List.mem_filter.1 hj).1, hrest⟩
      dsimp only
      split
      · simp_all
      · next hk hne =>
        have hw : w.keys ≠ [] := fun he => by simp [he] at hk
        exact iff_of_false hne (hstop.not.1 hw)
    · refine windowsSound_cons.2 ⟨by simpa using hlen, hstop, fun x hx j hj => ?_, ih hrest⟩
      obtain ⟨y, hy, hk⟩ := exists_of_mem_closeKey hx
      exact fun hjx => hkeys y hy j hj (hk j hjx)

/-- In a sound list a key that was closed stands open nowhere. -/
theorem absent_of_closeKey (h : windowsSound l) : ∀ x ∈ closeKey now k t l, k ∉ x.keys := by
  induction l with
  | nil => simp [closeKey]
  | cons w rest ih =>
    obtain ⟨-, -, hkeys, hrest⟩ := windowsSound_cons.1 h
    unfold closeKey
    split
    · next hk =>
      simp only [List.contains_iff_mem] at hk
      exact List.forall_mem_cons.2 ⟨by simp, fun x hx => hkeys x hx k hk⟩
    · next hk => exact List.forall_mem_cons.2 ⟨by simpa using hk, ih hrest⟩

/-- The bound on an open window's start and reach touches neither keys nor ends (R58). -/
theorem slideWindows_sound (h : windowsSound l) : windowsSound (l.map (slideWindow now)) := by
  have hkeys : ∀ w, (slideWindow now w).keys = w.keys := fun w => by unfold slideWindow; split <;> rfl
  have hstop : ∀ w, (slideWindow now w).stop = w.stop := fun w => by
    unfold slideWindow
    split
    · rfl
    · simp_all
  obtain ⟨hlen, hopen, hone⟩ := h
  refine ⟨by simpa using hlen, ?_, ?_⟩
  · simpa [hkeys, hstop] using hopen
  · simpa [List.pairwise_map, hkeys] using hone

/-- The windows that stay are those before and after the one removed (R61). -/
theorem takeRemovable_eq {r : Window × List Window} (h : takeRemovable now l = some r) :
    removable now r.1 = true ∧ ∃ a b, l = a ++ r.1 :: b ∧ r.2 = a ++ b := by
  induction l generalizing r with
  | nil => cases h
  | cons w rest ih =>
    unfold takeRemovable at h
    split at h
    · next hw =>
      cases h
      exact ⟨hw, [], rest, rfl, rfl⟩
    · obtain ⟨q, hq, rfl⟩ := Option.map_eq_some_iff.1 h
      obtain ⟨hr, a, b, ha, hb⟩ := ih hq
      exact ⟨hr, w :: a, b, by simp [← ha], by simp [hb]⟩

theorem takeRemovable_sublist {r : Window × List Window} (h : takeRemovable now l = some r) : r.2.Sublist l := by
  obtain ⟨-, a, b, rfl, hr⟩ := takeRemovable_eq h
  rw [hr]
  exact (List.Sublist.refl a).append (List.sublist_cons_self r.1 b)

end

/-! ## The list in the state -/

section
variable {s : State} {k : WindowKey} {w : Window}

theorem removeOne_windows : (removeOne s).sched.windows =
    ((takeRemovable s.now s.sched.windows).map (·.2)).getD s.sched.windows := by
  unfold removeOne
  split <;> simp_all [State.updSched]

/-- A list that is full is purged; otherwise nothing leaves it (R62). -/
def roomFor (s : State) : State := if s.sched.windows.length < 8 then s else purge s

theorem purge_windows : (purge s).sched.windows = s.sched.windows.filter (fun w => !removable s.now w) := by
  simp [purge, State.updSched]

theorem roomFor_sublist : (roomFor s).sched.windows.Sublist s.sched.windows := by
  unfold roomFor
  split
  · exact .refl _
  · rw [purge_windows]
    exact List.filter_sublist

/-- A new window stands at its place in a list with room, or is merged into the last of a full one (R62). -/
theorem addWindow_windows : (addWindow w s).sched.windows =
    if (roomFor s).sched.windows.length < 8 then insertWindow s.now w (roomFor s).sched.windows
    else match (roomFor s).sched.windows.getLast? with
      | some target => insertWindow s.now (mergeWindow s.now target w) (roomFor s).sched.windows.dropLast
      | none => (roomFor s).sched.windows := by
  have hnow : (purge s).now = s.now := by simp [State.now]
  unfold addWindow roomFor
  dsimp only
  split
  · simp [State.updSched]
  · split
    · simp [State.updSched, hnow]
    · split <;> simp_all [State.updSched]

theorem addWindow_length (h : s.sched.windows.length ≤ 8) : (addWindow w s).sched.windows.length ≤ 8 := by
  have hle := (roomFor_sublist (s := s)).length_le
  rw [addWindow_windows]
  split
  · simp; omega
  · split <;> simp <;> omega

/-- A new window under keys that stand open nowhere keeps the list's conditions. -/
theorem addWindow_sound (hw : w.keys = [] ↔ w.stop.isSome = true) (hk : ∀ x ∈ s.sched.windows, ∀ k ∈ w.keys, k ∉ x.keys)
    (h : windowsSound s.sched.windows) : windowsSound (addWindow w s).sched.windows := by
  have hroom := windowsSound_sublist roomFor_sublist h
  have hfresh : ∀ x ∈ (roomFor s).sched.windows, ∀ k ∈ w.keys, k ∉ x.keys :=
    fun x hx => hk x (roomFor_sublist.subset hx)
  rw [addWindow_windows]
  split
  · next hlen => exact (windowsSound_perm insertWindow_perm).2 (windowsSound_cons.2 ⟨hlen, hw, hfresh, hroom⟩)
  · split
    · next target hlast =>
      obtain ⟨front, hfront⟩ := List.getLast?_eq_some_iff.1 hlast
      rw [hfront] at hroom hfresh ⊢
      rw [windowsSound_perm (List.perm_append_comm (l₂ := [target])), List.singleton_append, windowsSound_cons] at hroom
      obtain ⟨hlen, -, htarget, hsound⟩ := hroom
      rw [List.dropLast_concat, windowsSound_perm insertWindow_perm, windowsSound_cons]
      refine ⟨hlen, mergeWindow_stop, fun x hx k hkx => ?_, hsound⟩
      rw [mergeWindow_keys, mem_unionKeys] at hkx
      exact hkx.elim (htarget x hx k) (hfresh x (by simp [hx]) k)
    · exact hroom

theorem keyOpen_iff : keyOpen s k = true ↔ ∃ w ∈ s.sched.windows, k ∈ w.keys := by
  simp [keyOpen]

theorem closeWindow_windows (t : Time) :
    (closeWindow k t s).sched.windows = closeKey s.now k t s.sched.windows := by
  unfold closeWindow
  split
  · simp [State.updSched]
  · next h =>
    rw [keyOpen_iff] at h
    push Not at h
    rw [closeKey_of_absent h]

theorem closeWindow_sound (t : Time) (h : windowsSound s.sched.windows) :
    windowsSound (closeWindow k t s).sched.windows := by
  rw [closeWindow_windows]
  exact closeKey_sound h

theorem closeStanding_sound (l : List WindowKey) (h : windowsSound s.sched.windows) :
    windowsSound (closeStanding l s).sched.windows := by
  induction l generalizing s with
  | nil => exact h
  | cons k rest ih => exact ih (closeWindow_sound s.now h)

theorem closeStanding_length (l : List WindowKey) :
    (closeStanding l s).sched.windows.length = s.sched.windows.length := by
  induction l generalizing s with
  | nil => rfl
  | cons k rest ih => rw [closeStanding, ih, closeWindow_windows, closeKey_length]

/-- The key of a source that hands its window again stands open nowhere by then (R60). -/
theorem absent_of_closeStanding (src : WindowSource) (p : Option Port) (h : windowsSound s.sched.windows) :
    ∀ x ∈ (closeStanding (keyFor src p) s).sched.windows, ∀ k ∈ keyFor src p, k ∉ x.keys := by
  have hone : ∀ key, ∀ x ∈ (closeStanding [key] s).sched.windows, ∀ k ∈ [key], k ∉ x.keys := fun key x hx k hk => by
    rw [List.mem_singleton.1 hk]
    rw [closeStanding, closeStanding, closeWindow_windows] at hx
    exact absent_of_closeKey h x hx
  unfold keyFor
  split
  · exact hone _
  · exact hone _
  · exact hone _
  · simp

section
variable {src : WindowSource} {p : Option Port} {id : Option Byte} {t : Time} {tail : Option Nat}

/-- The window that a source hands in: with an end, or open under its key (R59). -/
def handed (src : WindowSource) (p : Option Port) (id : Option Byte) (t : Time) (tail : Option Nat) : Window where
  start := t - ms 5
  stop := tail.map (fun n => t + ms n)
  reach := t - ms 5
  source := src
  port := p
  id := id
  keys := match tail with
    | some _ => []
    | none => keyFor src p
  merged := false

theorem handWindow_eq : handWindow src p id t tail s =
    reading (addWindow (handed src p id t tail) (closeStanding (handed src p id t tail).keys s)) := rfl

theorem handWindow_sched : (handWindow src p id t tail s).sched =
    (addWindow (handed src p id t tail) (closeStanding (handed src p id t tail).keys s)).sched := by
  simp [handWindow_eq]

theorem handWindow_length (h : s.sched.windows.length ≤ 8) :
    (handWindow src p id t tail s).sched.windows.length ≤ 8 := by
  rw [handWindow_sched]
  exact addWindow_length (by rwa [closeStanding_length])

/-- A window that is handed open is one of a source with a key. -/
theorem handWindow_sound (hkey : tail = none → keyFor src p ≠ []) (h : windowsSound s.sched.windows) :
    windowsSound (handWindow src p id t tail s).sched.windows := by
  rw [handWindow_sched]
  refine addWindow_sound ?_ ?_ (closeStanding_sound _ h)
  · cases tail with
    | none => simpa [handed] using hkey rfl
    | some n => simp [handed]
  · cases tail with
    | none => exact absent_of_closeStanding src p h
    | some n => simp [handed]

end

end

end Sys2Proof.Machine
end

