-- ==== Sys2Proof/Proofs/Guarded.lean ====
section
namespace Sys2Proof.Machine

/-! ## The parts that the conditions on relays, claims, windows and lists speak of -/

/-- What O54, O55 and O59 speak of: the relays and the isolation state, the DSL switch and its slot, the table and the
claims, and the lists a response reports. -/
structure Guarded where
  relays : Relays
  isolation : Isolation
  switching : Bool
  slotted : Bool
  lines : LineFunctions
  windows : List Window
  forecast : List ForecastWindow
  dial : Port → List DialEntry
  result : Option TestResult
  values : Option (List Measurement)
  gates : Quad (Option Gate)

def guarded (s : State) : Guarded where
  relays := s.relays
  isolation := s.faults.isolation
  switching := s.dsl.isSome
  slotted := (slotRec s .dsl).isSome
  lines := s.lines
  windows := s.sched.windows
  forecast := s.tracker.forecast
  dial := fun p => (s.port p).dial
  result := s.engine.result
  values := s.engine.test.bind (·.values)
  gates := s.engine.gates

/-- The relays keep the test bus rule (R44). -/
def Relays.busSafe (r : Relays) : Prop :=
  r.bus = .exchange → r.pass.p1 = .open_ ∧ r.pass.p2 = .open_ ∧ r.dsl = .decoupled

/-- Every claim is for a function that another channel holds, but for functions of which a hold is being passed on
(R29). -/
def Waiting (passing : Func → Prop) (l : LineFunctions) : Prop :=
  ∀ e ∈ l.claims, passing e.function ∨ ∃ c, holderIn l e.function = some c ∧ c ≠ e.channel

/-- The measurements of a test and of a result are at most 4 (R135). -/
def Guarded.measured (g : Guarded) : Prop :=
  (∀ x, g.result = some x → x.measurements.length ≤ 4) ∧ ∀ l, g.values = some l → l.length ≤ 4

/-- What an operation that leaves the line-break and the isolation state alone, and takes no claim and no gate in, does
to the conditions: it keeps them. -/
structure Keeps (a b : Guarded) : Prop where
  lineBreak : b.relays.lineBreak = a.relays.lineBreak
  isolation : b.isolation = a.isolation
  bus : a.relays.busSafe → b.relays.busSafe
  slotted : (a.slotted = true → a.switching = true) → b.slotted = true → b.switching = true
  claims : b.lines.claims.Sublist a.lines.claims
  waiting : ∀ passing, Waiting passing a.lines → Waiting passing b.lines
  windows : windowsSound a.windows → windowsSound b.windows
  room : a.windows.length ≤ 8 → b.windows.length ≤ 8
  forecast : a.forecast.length ≤ 4 → b.forecast.length ≤ 4
  dial : ∀ p, (a.dial p).length ≤ 24 → (b.dial p).length ≤ 24
  measured : a.measured → b.measured
  gates : b.gates = a.gates

section
variable {a b c : Guarded} {s t : State}

@[simp] theorem Keeps.refl : Keeps a a :=
  ⟨rfl, rfl, id, id, .refl _, fun _ => id, id, id, id, fun _ => id, id, rfl⟩

theorem Keeps.trans (h : Keeps a b) (h' : Keeps b c) : Keeps a c where
  lineBreak := h'.lineBreak.trans h.lineBreak
  isolation := h'.isolation.trans h.isolation
  bus := h'.bus ∘ h.bus
  slotted := h'.slotted ∘ h.slotted
  claims := h'.claims.trans h.claims
  waiting := fun x => h'.waiting x ∘ h.waiting x
  windows := h'.windows ∘ h.windows
  room := h'.room ∘ h.room
  forecast := h'.forecast ∘ h.forecast
  dial := fun p => h'.dial p ∘ h.dial p
  measured := h'.measured ∘ h.measured
  gates := h'.gates.trans h.gates

/-! ### Operations on other parts -/

theorem guarded_congr (hr : t.relays = s.relays) (hi : t.faults.isolation = s.faults.isolation)
    (hd : t.dsl = s.dsl) (hs : t.sched = s.sched) (hl : t.lines = s.lines)
    (hf : t.tracker.forecast = s.tracker.forecast) (hp : ∀ p, (t.port p).dial = (s.port p).dial)
    (he : t.engine.result = s.engine.result ∧ t.engine.test.bind (·.values) = s.engine.test.bind (·.values) ∧
      t.engine.gates = s.engine.gates) : guarded t = guarded s := by
  obtain ⟨hres, hval, hgat⟩ := he
  simp only [guarded, slotRec, hr, hi, hd, hs, hl, hf, hp, hres, hval, hgat]

/-- An operation that touches none of the parts at all. -/
theorem guarded_of_frame (hr : t.relays = s.relays) (hi : t.faults = s.faults) (hd : t.dsl = s.dsl)
    (hs : t.sched = s.sched) (hl : t.lines = s.lines) (hf : t.tracker = s.tracker) (hp : t.ports = s.ports)
    (he : t.engine = s.engine) : guarded t = guarded s :=
  guarded_congr hr (by rw [hi]) hd hs hl (by rw [hf]) (fun p => by rw [State.port, hp, State.port]) (by simp [he])

@[simp] theorem setPending_guarded (q : List Instr) : guarded (s.setPending q) = guarded s := rfl
@[simp] theorem setPhase_guarded (v : Phase) : guarded (s.setPhase v) = guarded s := rfl
@[simp] theorem setOccasion_guarded (n : Nat) : guarded (s.setOccasion n) = guarded s := rfl
@[simp] theorem setTwoPorts_guarded (b : Bool) : guarded (s.setTwoPorts b) = guarded s := rfl
@[simp] theorem setSettles_guarded (l : List Settle) : guarded (s.setSettles l) = guarded s := rfl
@[simp] theorem setPower_guarded (x : PowerRec) : guarded (s.setPower x) = guarded s := rfl
@[simp] theorem updClock_guarded (f : Clock → Clock) : guarded (s.updClock f) = guarded s := rfl
@[simp] theorem updPins_guarded (f : Pins → Pins) : guarded (s.updPins f) = guarded s := rfl
@[simp] theorem updGateway_guarded (f : GatewayPort → GatewayPort) : guarded (s.updGateway f) = guarded s := rfl
@[simp] theorem updModem_guarded (f : ModemPort → ModemPort) : guarded (s.updModem f) = guarded s := rfl
@[simp] theorem updChannel_guarded (c : Channel) (f : ChannelRec → ChannelRec) :
    guarded (s.updChannel c f) = guarded s := rfl
@[simp] theorem updRing_guarded (f : RingUnit → RingUnit) : guarded (s.updRing f) = guarded s := rfl
@[simp] theorem updStore_guarded (f : Store → Store) : guarded (s.updStore f) = guarded s := rfl

@[simp] theorem updTracker_guarded {f : Tracker → Tracker} (hf : (f s.tracker).forecast = s.tracker.forecast) :
    guarded (s.updTracker f) = guarded s := by
  simp [guarded, State.updTracker, slotRec, State.port, hf]

@[simp] theorem updFaults_guarded {f : FaultUnit → FaultUnit} (hf : (f s.faults).isolation = s.faults.isolation) :
    guarded (s.updFaults f) = guarded s := by
  simp [guarded, State.updFaults, slotRec, State.port, hf]

@[simp] theorem updPort_guarded {p : Port} {f : PhonePort → PhonePort} (hf : (f (s.port p)).dial = (s.port p).dial) :
    guarded (s.updPort p f) = guarded s := by
  refine guarded_congr rfl rfl rfl rfl rfl rfl (fun q => ?_) ⟨rfl, rfl, rfl⟩
  by_cases hq : q = p
  · subst hq
    simpa [State.updPort, State.port] using hf
  · simp [State.updPort, State.port, hq]

@[simp] theorem updSup_guarded (p : Port) (f : Supervisor → Supervisor) : guarded (s.updSup p f) = guarded s :=
  updPort_guarded rfl

@[simp] theorem updEngine_guarded {f : Engine → Engine} (hf : (f s.engine).result = s.engine.result ∧
    (f s.engine).test.bind (·.values) = s.engine.test.bind (·.values) ∧ (f s.engine).gates = s.engine.gates) :
    guarded (s.updEngine f) = guarded s :=
  guarded_congr rfl rfl rfl rfl rfl rfl (fun _ => rfl) hf

@[simp] theorem updTest_guarded {f : Test → Test} (hf : ∀ x, (f x).values = x.values) :
    guarded (updTest f s) = guarded s := by
  unfold updTest
  refine updEngine_guarded ⟨rfl, ?_, rfl⟩
  cases h : s.engine.test <;> simp [hf]

/-! ### Notices, readings, watches and timers -/

@[simp] theorem post_guarded (n : Notice) (r : Channel → Bool) : guarded (post n r s) = guarded s :=
  guarded_of_frame (by simp) (by simp) (by simp) (by simp) (by simp) (by simp) (by simp) (by simp)

@[simp] theorem postSubscribed_guarded (n : Notice) : guarded (postSubscribed n s) = guarded s := post_guarded n _

@[simp] theorem postCompletion_guarded (n : Notice) (c : Channel) : guarded (postCompletion n c s) = guarded s :=
  post_guarded n _

@[simp] theorem unplanned_guarded (k : Unplanned) (p : Option Port) (n : Nat) :
    guarded (unplanned k p n s) = guarded s := postSubscribed_guarded _

@[simp] theorem hookNotice_guarded (p : Port) (off : Bool) (why : HookReason) (d : Time) :
    guarded (hookNotice p off why d s) = guarded s := postSubscribed_guarded _

@[simp] theorem digitNotice_guarded (p : Port) (e f u : Bool) (v n : Nat) :
    guarded (digitNotice p e f u v n s) = guarded s := postSubscribed_guarded _

@[simp] theorem isolationNotice_guarded (why : IsolationReason) : guarded (isolationNotice why s) = guarded s :=
  postSubscribed_guarded _

@[simp] theorem trackNotice_guarded (why : TrackReason) (n : Nat) : guarded (trackNotice why n s) = guarded s :=
  postSubscribed_guarded _

@[simp] theorem grantedNotice_guarded (f : Func) (e : ClaimEntry) : guarded (grantedNotice f e s) = guarded s :=
  postCompletion_guarded _ _

@[simp] theorem expiredNotice_guarded (e : ClaimEntry) (why n : Nat) :
    guarded (expiredNotice e why n s) = guarded s := postCompletion_guarded _ _

@[simp] theorem revokedNotice_guarded (f : Func) (h : Hold) (why n : Nat) :
    guarded (revokedNotice f h why n s) = guarded s := postCompletion_guarded _ _

@[simp] theorem reading_guarded : guarded (reading s) = guarded s := by
  unfold reading
  split
  · next x hx =>
    split
    · exact updEngine_guarded (by simp [hx])
    · rfl
  · rfl

@[simp] theorem judgeWatch_guarded : guarded (judgeWatch s) = guarded s := by
  unfold judgeWatch
  (repeat' split) <;> simp

@[simp] theorem judgeOverload_guarded (p : Port) : guarded (judgeOverload p s) = guarded s := by
  unfold judgeOverload
  (repeat' split) <;> simp

@[simp] theorem startSettle_guarded (x : Asker) : guarded (startSettle x s) = guarded s := rfl
@[simp] theorem dropSettle_guarded (x : Asker) : guarded (dropSettle x s) = guarded s := rfl

@[simp] theorem setSession_guarded (p : Port) (x : Option RingSession) : guarded (setSession p x s) = guarded s := rfl
@[simp] theorem updSession_guarded (p : Port) (f : RingSession → RingSession) :
    guarded (updSession p f s) = guarded s := rfl
@[simp] theorem updExchange_guarded (f : ExchangeRing → ExchangeRing) : guarded (updExchange f s) = guarded s := rfl
@[simp] theorem judgeTrip_guarded (p : Port) : guarded (judgeTrip p s) = guarded s := rfl
@[simp] theorem skipBurst_guarded (p : Port) (x : RingSession) : guarded (skipBurst p x s) = guarded s := rfl

@[simp] theorem judgeRingFault_guarded : guarded (judgeRingFault s) = guarded s := by
  unfold judgeRingFault
  (repeat' split) <;> simp

@[simp] theorem endCall_guarded (n : Nat) (p : Option Port) : guarded (endCall n p s) = guarded s := by
  simp [endCall]

/-! ### Faults -/

@[simp] theorem setIsolation_isolation (i : Isolation) : (setIsolation i s).faults.isolation = i := rfl

theorem logStore_isolation (uptime : BitVec 32) (level : Nat) (f : Raised) (u : FaultUnit) :
    (logStore uptime level f u).1.isolation = u.isolation := by
  unfold logStore
  dsimp only
  (repeat' split) <;> rfl

theorem offerCapture_isolation (uptime : BitVec 32) (level : Nat) (seq : BitVec 32) (f : Raised) (u : FaultUnit) :
    (offerCapture uptime level seq f u).isolation = u.isolation := by
  unfold offerCapture
  (repeat' split) <;> rfl

@[simp] theorem updFaultChannel_guarded (c : Channel) (f : FaultChannel → FaultChannel) :
    guarded (updFaultChannel c f s) = guarded s := updFaults_guarded rfl

@[simp] theorem decideChannel_guarded (cls : FaultClass) (level : Nat) (source : Option Nat) (st : Stored)
    (c : Channel) : guarded (decideChannel cls level source st c s) = guarded s := by
  unfold decideChannel
  split <;> simp

@[simp] theorem notifyFault_guarded (f : Raised) (level : Nat) (st : Stored) :
    guarded (notifyFault f level st s) = guarded s := by
  unfold notifyFault
  dsimp only
  split <;> simp

@[simp] theorem takeFault_guarded (f : Raised) : guarded (takeFault f s) = guarded s := by
  unfold takeFault
  dsimp only
  split
  · rfl
  · rw [notifyFault_guarded]
    refine updFaults_guarded ?_
    split
    · rw [offerCapture_isolation, logStore_isolation]
    · rw [logStore_isolation]

@[simp] theorem raiseFault_guarded (f : Raised) : guarded (raiseFault f s) = guarded s := by
  unfold raiseFault
  split <;> simp

@[simp] theorem takeAll_guarded (l : List Raised) : guarded (takeAll l s) = guarded s := by
  induction l generalizing s with
  | nil => rfl
  | cons f rest ih => rw [takeAll, ih, takeFault_guarded]

@[simp] theorem beginTaking_guarded : guarded (beginTaking s) = guarded s := updFaults_guarded rfl

@[simp] theorem finishTaking_guarded : guarded (finishTaking s) = guarded s := by
  simp [finishTaking]

@[simp] theorem releaseFrom_guarded (c : Channel) (l : List Latch) : guarded (releaseFrom c l s) = guarded s := by
  induction l generalizing s with
  | nil => rfl
  | cons x rest ih =>
    unfold releaseFrom
    split <;> simp [ih]

@[simp] theorem releaseLatches_guarded (c : Channel) : guarded (releaseLatches c s) = guarded s :=
  releaseFrom_guarded c _

@[simp] theorem quietEnds_guarded : guarded (quietEnds s) = guarded s := by
  simp [quietEnds]

@[simp] theorem raiseTestFail_guarded (x : Test) : guarded (raiseTestFail x s) = guarded s := by
  unfold raiseTestFail
  split <;> simp

@[simp] theorem raisePower_guarded (o n : PowerState) : guarded (raisePower o n s) = guarded s := by
  unfold raisePower
  dsimp only
  (repeat' split) <;> simp

@[simp] theorem writeEnds_guarded (b : Bool) (x : Save) : guarded (writeEnds b x s) = guarded s := by
  unfold writeEnds
  dsimp only
  split <;> simp

@[simp] theorem freshFaultChannels_guarded (l : List Channel) : guarded (freshFaultChannels l s) = guarded s := by
  induction l generalizing s with
  | nil => rfl
  | cons c rest ih => rw [freshFaultChannels, ih, updFaultChannel_guarded]

@[simp] theorem freshChannels_guarded (l : List Channel) : guarded (freshChannels l s) = guarded s := by
  induction l generalizing s with
  | nil => rfl
  | cons c rest ih => rw [freshChannels, ih, updChannel_guarded]

/-! ### Supervisors and switches -/

@[simp] theorem beginSeizing_guarded (p : Port) : guarded (beginSeizing p s) = guarded s := updPort_guarded rfl

@[simp] theorem beginBreak_guarded (p : Port) : guarded (beginBreak p s) = guarded s := by
  simp [beginBreak]

@[simp] theorem makeAgain_guarded (p : Port) : guarded (makeAgain p s) = guarded s := by
  simp [makeAgain]

@[simp] theorem releasePort_guarded (p : Port) : guarded (releasePort p s) = guarded s := by
  unfold releasePort
  dsimp only
  split <;> simp

@[simp] theorem freeze_guarded (p : Port) : guarded (freeze p s) = guarded s := updSup_guarded p _
@[simp] theorem mask_guarded (p : Port) : guarded (mask p s) = guarded s := updSup_guarded p _
@[simp] theorem restartQuiet_guarded (p : Port) : guarded (restartQuiet p s) = guarded s := updSup_guarded p _

@[simp] theorem freezeDenied_guarded (p : Port) : guarded (freezeDenied p s) = guarded s := by
  unfold freezeDenied
  dsimp only
  split <;> simp

@[simp] theorem setStage_guarded (p : Port) (g : SwitchStage) : guarded (setStage p g s) = guarded s :=
  updPort_guarded rfl

@[simp] theorem endDenial_guarded (p : Port) : guarded (endDenial p s) = guarded s := updPort_guarded rfl

@[simp] theorem endDenialByFeed_guarded (c : Change) (p : Port) : guarded (endDenialByFeed c p s) = guarded s := by
  unfold endDenialByFeed
  split <;> simp

@[simp] theorem judgeSuspended_guarded (c : Change) (x : Asker) (p : Port) :
    guarded (judgeSuspended c x p s) = guarded s := by
  unfold judgeSuspended
  (repeat' split) <;> simp

@[simp] theorem markUnderTest_guarded (x : Target) : guarded (markUnderTest x s) = guarded s := by
  unfold markUnderTest
  split <;> simp

/-! ### The engine's timers -/

@[simp] theorem stopTestTimers_guarded : guarded (stopTestTimers s) = guarded s := rfl

@[simp] theorem fixClean_guarded : guarded (fixClean s) = guarded s := by
  unfold fixClean
  rw [updTest_guarded, stopTestTimers_guarded]
  intro x
  split <;> rfl

@[simp] theorem replacePreTest_guarded (c : Coupling) : guarded (replacePreTest c s) = guarded s := by
  refine updTest_guarded fun x => ?_
  split <;> rfl

@[simp] theorem startMeasure_guarded : guarded (startMeasure s) = guarded s := by
  unfold startMeasure
  split
  · split
    · simp
    · rfl
  · rfl

/-! ### The tracker, but for its forecast -/

@[simp] theorem departWindow_guarded (x y : Time) : guarded (departWindow x y s) = guarded s := by
  unfold departWindow
  split <;> simp

@[simp] theorem count_guarded (c : EdgeClass) : guarded (count c s) = guarded s := updTracker_guarded rfl
@[simp] theorem setDeadTime_guarded (n : Nat) : guarded (setDeadTime n s) = guarded s := updTracker_guarded rfl
@[simp] theorem checkCount_guarded : guarded (checkCount s) = guarded s := updTracker_guarded rfl

@[simp] theorem learnEdge_guarded (x : Time) (n m : Nat) : guarded (learnEdge x n m s) = guarded s := by
  simp [learnEdge]

@[simp] theorem mergeEdge_guarded : guarded (mergeEdge s) = guarded s := by
  simp [mergeEdge]

@[simp] theorem queueEdge_guarded : guarded (queueEdge s) = guarded s := by
  unfold queueEdge
  dsimp only
  split
  · simp
  · rw [updTracker_guarded rfl, updTracker_guarded rfl]

@[simp] theorem takeEdge_guarded : guarded (takeEdge s) = guarded s := by
  unfold takeEdge
  (repeat' split) <;> simp

@[simp] theorem strayEdge_guarded (x : Time) : guarded (strayEdge x s) = guarded s := by
  unfold strayEdge
  dsimp only
  split <;> simp

end

end Sys2Proof.Machine
end

