-- ==== Sys2Proof/Proofs/Keeping.lean ====
section
namespace Sys2Proof.Machine

/-! ## Operations that keep the conditions, part by part -/

section
variable {s : State}

@[simp] theorem keyFor_ringBurst (p : Port) : keyFor .ringBurst (some p) = [.ringBurst p] := rfl
@[simp] theorem keyFor_exchangeBurst (p : Option Port) : keyFor .exchangeBurst p = [.exchangeBurst] := rfl
@[simp] theorem keyFor_test (p : Option Port) : keyFor .test p = [.test] := rfl

theorem updSched_guarded {f : Scheduler → Scheduler} (hf : (f s.sched).slots = s.sched.slots) :
    guarded (s.updSched f) = { guarded s with windows := (f s.sched).windows } := by
  simp [guarded, State.updSched, slotRec, State.port, hf]

@[simp] theorem departAll_guarded (l : List Window) : guarded (departAll l s) = guarded s := by
  induction l generalizing s with
  | nil => rfl
  | cons w rest ih => rw [departAll, ih, departWindow_guarded]

theorem purge_guarded : guarded (purge s) = { guarded s with windows := (purge s).sched.windows } := by
  rw [purge_windows, purge, departAll_guarded, updSched_guarded rfl]

/-- Of the parts that the conditions speak of, a new window changes the list alone. -/
theorem addWindow_guarded (w : Window) :
    guarded (addWindow w s) = { guarded s with windows := (addWindow w s).sched.windows } := by
  unfold addWindow
  dsimp only
  (repeat' split) <;> simp only [updSched_guarded, purge_guarded] <;> rfl

theorem closeWindow_guarded (k : WindowKey) (x : Time) :
    guarded (closeWindow k x s) = { guarded s with windows := closeKey s.now k x s.sched.windows } := by
  unfold closeWindow
  split
  · rw [reading_guarded, updSched_guarded rfl]
  · next hk =>
    rw [keyOpen_iff] at hk
    push Not at hk
    rw [closeKey_of_absent hk]
    rfl

theorem closeStanding_guarded (l : List WindowKey) :
    guarded (closeStanding l s) = { guarded s with windows := (closeStanding l s).sched.windows } := by
  induction l generalizing s with
  | nil => rfl
  | cons k rest ih => rw [closeStanding, ih, closeWindow_guarded]

theorem handWindow_guarded (src : WindowSource) (p : Option Port) (id : Option Byte) (x : Time) (tail : Option Nat) :
    guarded (handWindow src p id x tail s) =
      { guarded s with windows := (handWindow src p id x tail s).sched.windows } := by
  rw [handWindow_sched, handWindow_eq, reading_guarded, addWindow_guarded, closeStanding_guarded]

end

section
variable {a : Guarded} {s t : State} (h : Keeps a (guarded s))
include h

theorem Keeps.windowsOnly {l : List Window} (hw : windowsSound s.sched.windows → windowsSound l)
    (hl : s.sched.windows.length ≤ 8 → l.length ≤ 8) : Keeps a { guarded s with windows := l } :=
  h.trans ⟨rfl, rfl, id, id, .refl _, fun _ => id, hw, hl, id, fun _ => id, id, rfl⟩

/-- Of the slots the conditions speak of the DSL path's, and only of its being occupied. -/
theorem Keeps.slotsOnly {f : Scheduler → Scheduler} (hw : (f s.sched).windows = s.sched.windows)
    (hd : ((f s.sched).slots.get .dsl).isSome = true → (slotRec s .dsl).isSome = true) :
    Keeps a (guarded (s.updSched f)) :=
  h.trans ⟨rfl, rfl, id, fun hs hb => hs (hd hb), .refl _, fun _ => id, fun hs => by simpa [guarded, State.updSched, hw],
    fun hs => by simpa [guarded, State.updSched, hw], id, fun _ => id, id, rfl⟩

theorem Keeps.relaysOnly {r : Relays} (hb : r.lineBreak = s.relays.lineBreak)
    (hr : s.relays.busSafe → r.busSafe) : Keeps a (guarded (s.setRelays r)) :=
  h.trans ⟨hb, rfl, hr, id, .refl _, fun _ => id, id, id, id, fun _ => id, id, rfl⟩

theorem Keeps.dialOnly {p : Port} {f : PhonePort → PhonePort}
    (hf : (s.port p).dial.length ≤ 24 → (f (s.port p)).dial.length ≤ 24) : Keeps a (guarded (s.updPort p f)) := by
  refine h.trans ⟨rfl, rfl, id, id, .refl _, fun _ => id, id, id, id, fun q hq => ?_, id, rfl⟩
  by_cases hqp : q = p
  · subst hqp
    simpa [guarded, State.updPort, State.port] using hf hq
  · simpa [guarded, State.updPort, State.port, hqp] using hq

theorem Keeps.engineOnly {f : Engine → Engine} (hg : (f s.engine).gates = s.engine.gates)
    (hm : (guarded s).measured → (guarded (s.updEngine f)).measured) : Keeps a (guarded (s.updEngine f)) :=
  h.trans ⟨rfl, rfl, id, id, .refl _, fun _ => id, id, id, id, fun _ => id, hm, hg⟩

/-! ### Windows -/

@[simp] theorem removeOne_keeps : Keeps a (guarded (removeOne s)) := by
  unfold removeOne
  split
  · next w rest hr =>
    have hsub := takeRemovable_sublist hr
    rw [departWindow_guarded, updSched_guarded rfl]
    exact h.windowsOnly (windowsSound_sublist hsub) (hsub.length_le.trans ·)
  · exact h

@[simp] theorem closeWindow_keeps (k : WindowKey) (x : Time) : Keeps a (guarded (closeWindow k x s)) := by
  rw [closeWindow_guarded]
  exact h.windowsOnly closeKey_sound (by simp)

@[simp] theorem handWindow_keeps {src : WindowSource} {p : Option Port} {id : Option Byte} {x : Time}
    {tail : Option Nat} (hkey : tail = none → keyFor src p ≠ []) :
    Keeps a (guarded (handWindow src p id x tail s)) := by
  rw [handWindow_guarded]
  exact h.windowsOnly (handWindow_sound hkey) handWindow_length

/-! ### Slots -/

@[simp] theorem setSlot_none_keeps (i : SlotId) : Keeps a (guarded (setSlot i none s)) := by
  refine h.slotsOnly rfl ?_
  cases i <;> simp [slotRec, PerSlot.get, PerSlot.set]

/-- A record that takes a record's place leaves the slot occupied. -/
theorem setSlot_some_keeps {i : SlotId} {d : Disturbance} (hi : (slotRec s i).isSome = true ∨ i ≠ .dsl) :
    Keeps a (guarded (setSlot i (some d) s)) := by
  refine h.slotsOnly rfl fun hd => ?_
  cases i <;> simp_all [slotRec, PerSlot.get, PerSlot.set]

@[simp] theorem markActive_keeps (i : SlotId) : Keeps a (guarded (markActive i s)) := by
  unfold markActive
  split
  · next d hd => exact setSlot_some_keeps h (.inl (by simp [hd]))
  · exact h

@[simp] theorem endSlot_keeps (i : SlotId) : Keeps a (guarded (endSlot i s)) := by
  unfold endSlot
  split <;> simp [h]

@[simp] theorem cancelSlot_keeps (i : SlotId) : Keeps a (guarded ((cancelSlot i s).getD s)) := by
  unfold cancelSlot
  split <;> simp [h]

theorem openSlot_keeps {i : SlotId} {w : WorkKind} {p : Option Port} {d : Option Nat} {b : Bool} {id : Byte}
    (hi : i ≠ .dsl) (ht : openSlot i w p d b s = some (t, id)) : Keeps a (guarded t) := by
  have hset : ∀ (u : State) (x : Disturbance), Keeps a (guarded u) → Keeps a (guarded (setSlot i (some x) u)) :=
    fun u x hu => setSlot_some_keeps hu (.inr hi)
  have hnext : ∀ (u : State) (n : Byte), guarded (u.updSched (fun k => { k with nextId := n })) = guarded u :=
    fun u n => updSched_guarded rfl
  unfold openSlot at ht
  split at ht
  · cases ht
  · dsimp only at ht
    split at ht <;> cases ht
    · exact hset _ _ (by simpa [hnext] using hset _ _ h)
    · simpa [hnext] using hset _ _ h

/-! ### Dialling and hook supervision -/

@[simp] theorem recordEntry_keeps (p : Port) (e : DialEntry) (n : Nat) : Keeps a (guarded (recordEntry p e n s)) := by
  unfold recordEntry
  split
  · exact h
  · rw [digitNotice_guarded]
    refine h.dialOnly fun hp => ?_
    split <;> simp_all

@[simp] theorem completeDigit_keeps (p : Port) : Keeps a (guarded (completeDigit p s)) := by
  unfold completeDigit
  dsimp only
  (repeat' split) <;> simp [h]

@[simp] theorem endBreak_keeps (p : Port) : Keeps a (guarded (endBreak p s)) := by
  unfold endBreak
  dsimp only
  (repeat' split) <;> simp [h]

@[simp] theorem takeLoop_keeps (p : Port) (b : Bool) : Keeps a (guarded (takeLoop p b s)) := by
  unfold takeLoop
  dsimp only
  (repeat' split) <;> simp [h]

@[simp] theorem senseLoop_keeps (p : Port) : Keeps a (guarded (senseLoop p s)) := by
  unfold senseLoop
  split <;> simp [h]

@[simp] theorem restart_keeps (p : Port) (why : Option HookReason) : Keeps a (guarded (restart p why s)) := by
  unfold restart
  dsimp only
  (repeat' split) <;> simp [h]

@[simp] theorem unmask_keeps (p : Port) : Keeps a (guarded (unmask p s)) := by
  unfold unmask
  (repeat' split) <;> simp [h]

/-! ### Relays (R44) -/

end

/-- A change set that the test bus does not refuse keeps its rule (R44). -/
theorem moveRelays_busSafe {r : Relays} {c : Change} (hc : refusedByBus r (widen c) = false) (hr : r.busSafe) :
    (moveRelays r (widen c)).busSafe := by
  unfold widen at hc ⊢
  split at hc
  · next hbus =>
    intro
    simp [moveRelays, hbus]
  · next hbus =>
    intro hto
    rw [if_neg hbus] at hto ⊢
    have hstays : c.bus = none ∧ r.bus = .exchange := by
      cases hb : c.bus with
      | none => exact ⟨rfl, by simpa [moveRelays, hb] using hto⟩
      | some b =>
        rw [hb] at hbus
        exact absurd (by simpa [moveRelays, hb] using hto) fun he => hbus (congrArg some he)
    obtain ⟨hnone, hexch⟩ := hstays
    obtain ⟨h1, h2, hd⟩ := hr hexch
    simp only [refusedByBus, hexch, hnone, decide_true, Option.isNone_none, Bool.and_self, Bool.true_and,
      Bool.or_eq_false_iff, decide_eq_false_iff_not] at hc
    obtain ⟨⟨hc1, hc2⟩, hcd⟩ := hc
    refine ⟨?_, ?_, ?_⟩
    · rcases hp : c.pass.p1 with _ | _ | _ <;> simp_all [moveRelays]
    · rcases hp : c.pass.p2 with _ | _ | _ <;> simp_all [moveRelays]
    · rcases hp : c.dsl with _ | _ | _ <;> simp_all [moveRelays]

section
variable {a : Guarded} {s t : State} (h : Keeps a (guarded s))
include h

@[simp] theorem driveFeed_keeps (p : Port) (f : Feed) : Keeps a (guarded (driveFeed p f s)) :=
  h.relaysOnly rfl id

@[simp] theorem portAfterChange_keeps (c : Change) (x : Asker) (p : Port) :
    Keeps a (guarded (portAfterChange c x p s)) := by
  simp [portAfterChange, h]

theorem applyChange_keeps {c : Change} {x : Asker} {id : Byte} (ht : applyChange c x id s = some t) :
    Keeps a (guarded t) := by
  unfold applyChange at ht
  dsimp only at ht
  split at ht
  · cases ht
  · next hc =>
    cases ht
    have hm : Keeps a (guarded (startSettle x (s.setRelays (moveRelays s.relays (widen c))))) :=
      h.relaysOnly rfl (moveRelays_busSafe (by simpa using hc))
    rw [judgeWatch_guarded]
    exact portAfterChange_keeps (portAfterChange_keeps (handWindow_keeps hm (by simp)) _ _ _) _ _ _

theorem applyChange_getD_keeps (c : Change) (x : Asker) (id : Byte) :
    Keeps a (guarded ((applyChange c x id s).getD s)) := by
  cases hc : applyChange c x id s with
  | none => exact h
  | some t => exact applyChange_keeps h hc

@[simp] theorem fallbackRelays_keeps : Keeps a (guarded (fallbackRelays s)) := by
  have hm : Keeps a (guarded ((s.setRelays (defaultRelays s.relays.lineBreak)).setSettles [])) :=
    h.relaysOnly rfl nofun
  unfold fallbackRelays
  rw [judgeWatch_guarded]
  exact senseLoop_keeps (senseLoop_keeps (handWindow_keeps hm (by simp)) _) _

/-! ### The ring unit -/

@[simp] theorem startBurst_keeps (p : Port) (x : RingSession) : Keeps a (guarded (startBurst p x s)) := by
  simp -implicitDefEqProofs [startBurst, h]

@[simp] theorem endBurst_keeps (p : Port) (x : RingState) : Keeps a (guarded (endBurst p x s)) := by
  simp -implicitDefEqProofs [endBurst, h]

@[simp] theorem cutBurst_keeps (p : Port) : Keeps a (guarded (cutBurst p s)) := by
  simp [cutBurst, h]

@[simp] theorem onTime_keeps (p : Port) : Keeps a (guarded (onTime p s)) := by
  unfold onTime
  (repeat' split) <;> simp [h]

@[simp] theorem endSession_keeps (p : Port) (why : RingReason) (cause : Nat) :
    Keeps a (guarded (endSession p why cause s)) := by
  unfold endSession
  dsimp only
  split
  · exact h
  · have hend : Keeps a (guarded (if inBurst s p = true then endBurst p (.silent false) s else s)) := by
      split <;> simp [h]
    rw [setSession_guarded, postCompletion_guarded]
    exact endSlot_keeps (by simpa using hend) _

@[simp] theorem answerSession_keeps (p : Port) (flags : Nat) : Keeps a (guarded (answerSession p flags s)) := by
  unfold answerSession
  split <;> simp [h]

@[simp] theorem endAllSessions_keeps (why : RingReason) : Keeps a (guarded (endAllSessions why s)) := by
  simp [endAllSessions, h]

@[simp] theorem onTimeEnds_keeps (p : Port) : Keeps a (guarded (onTimeEnds p s)) := by
  unfold onTimeEnds
  dsimp only
  split <;> simp [h]

@[simp] theorem offTimeEnds_keeps (p : Port) (x : RingSession) : Keeps a (guarded (offTimeEnds p x s)) := by
  unfold offTimeEnds
  dsimp only
  (repeat' split) <;> simp -implicitDefEqProofs [h]

@[simp] theorem phaseEnds_keeps (p : Port) : Keeps a (guarded (phaseEnds p s)) := by
  unfold phaseEnds
  (repeat' split) <;> simp [h]

@[simp] theorem batteryCut_keeps : Keeps a (guarded (batteryCut s)) := by
  unfold batteryCut
  (repeat' split) <;> simp [h]

@[simp] theorem onsetRecord_keeps : Keeps a (guarded (onsetRecord s)) := by
  unfold onsetRecord
  dsimp only
  (repeat' split) <;> simp -implicitDefEqProofs [h]

@[simp] theorem offsetRecord_keeps : Keeps a (guarded (offsetRecord s)) := by
  unfold offsetRecord
  dsimp only
  split <;> simp -implicitDefEqProofs [h]

@[simp] theorem ringLosesHold_keeps (f : Func) (c : Channel) : Keeps a (guarded (ringLosesHold f c s)) := by
  unfold ringLosesHold
  (repeat' split) <;> simp [h]

@[simp] theorem ringSeized_keeps (p : Port) (b : Bool) : Keeps a (guarded (ringSeized p b s)) := by
  unfold ringSeized
  dsimp only
  (repeat' split) <;> simp [h]

/-! ### The tracker -/

omit h in
@[simp] theorem toSearch_forecast (k : Tracker) : (toSearch k).forecast = k.forecast := rfl

omit h in
theorem forecastFor_length (now : Time) (k : Tracker) : (forecastFor now k).length ≤ 4 := by
  unfold forecastFor
  split
  · simp
  · simp
  · exact List.length_take_le _ _
  · exact List.length_take_le _ _

@[simp] theorem recompute_keeps : Keeps a (guarded (recompute s)) := by
  unfold recompute
  dsimp only
  rw [reading_guarded, postSubscribed_guarded]
  exact h.trans ⟨rfl, rfl, id, id, .refl _, fun _ => id, id, id, fun _ => forecastFor_length _ _, fun _ => id, id, rfl⟩

@[simp] theorem classifySearch_keeps (x : Time) : Keeps a (guarded (classifySearch x s)) := by
  simp [classifySearch, h]

@[simp] theorem lockOn_keeps (x : Time) (n m : Nat) : Keeps a (guarded (lockOn x n m s)) := by
  simp [lockOn, h]

@[simp] theorem classifyAcquire_keeps (x : Time) : Keeps a (guarded (classifyAcquire x s)) := by
  unfold classifyAcquire
  dsimp only
  (repeat' split) <;> simp [h]

@[simp] theorem hitEdge_keeps (x : Time) (n : Nat) (e : Int) : Keeps a (guarded (hitEdge x n e s)) := by
  unfold hitEdge
  dsimp only
  split <;> simp [h]

@[simp] theorem classifyHeld_keeps (x : Time) : Keeps a (guarded (classifyHeld x s)) := by
  unfold classifyHeld
  dsimp only
  split <;> simp [h]

@[simp] theorem classify_keeps (x : Time) : Keeps a (guarded (classify x s)) := by
  unfold classify
  (repeat' split) <;> simp [h]

@[simp] theorem classifyHead_keeps : Keeps a (guarded (classifyHead s)) := by
  unfold classifyHead
  split <;> simp [h]

@[simp] theorem acquireLapse_keeps : Keeps a (guarded (acquireLapse s)) := by
  simp [acquireLapse, h]

@[simp] theorem acquireExpires_keeps : Keeps a (guarded (acquireExpires s)) := by
  unfold acquireExpires
  dsimp only
  (repeat' split) <;> simp [h]

@[simp] theorem checkDecide_keeps : Keeps a (guarded (checkDecide s)) := by
  unfold checkDecide
  dsimp only
  (repeat' split) <;> simp -implicitDefEqProofs [h]

@[simp] theorem windowChecked_keeps : Keeps a (guarded (windowChecked s)) := by
  unfold windowChecked
  dsimp only
  (repeat' split) <;> simp [h]

@[simp] theorem enableTracker_keeps : Keeps a (guarded (enableTracker s)) := by
  simp [enableTracker, h]

@[simp] theorem disableTracker_keeps : Keeps a (guarded (disableTracker s)) := by
  simp [disableTracker, h]

end

end Sys2Proof.Machine
end

