-- ==== Sys2Proof/Proofs/KeepingBlocks.lean ====
section
namespace Sys2Proof.Machine

/-! ## Claims and holds (R29, R30, R32, R38) -/

section
variable {s u : State} {f : Func} {passing : Func → Prop}

/-- The claims for a function whose hold is taken away wait for no holder. -/
theorem waiting_removeHold (h : Waiting passing s.lines) :
    Waiting (fun g => passing g ∨ g = f) (removeHold f s).lines := by
  intro e he
  obtain hp | ⟨c, hc, hne⟩ := h e he
  · exact .inl (.inl hp)
  · by_cases hf : e.function = f
    · exact .inl (.inr hf)
    · exact .inr ⟨c, by simpa [holderIn, removeHold, updFunc, State.updLines, hf] using hc, hne⟩

/-- A channel whose claim is gone and who is made the holder lets the other claims for the function wait for it. -/
theorem waiting_makeHold (c : Channel) (level : Nat) (gate : Option Nat)
    (h : Waiting (fun g => passing g ∨ g = f) s.lines) :
    Waiting passing (makeHold f c level gate (dropClaim c f s)).lines := by
  intro e he
  obtain ⟨he, hdrop⟩ : e ∈ s.lines.claims ∧ (¬e.channel = c ∨ ¬e.function = f) := by
    simpa [makeHold, updFunc, dropClaim, setClaims, State.updLines, isClaim] using he
  by_cases hf : e.function = f
  · refine .inr ⟨c, ?_, fun hc => hdrop.elim (· hc.symm) (· hf)⟩
    simp [holderIn, makeHold, updFunc, dropClaim, setClaims, State.updLines, hf]
  · obtain hp | ⟨d, hd, hne⟩ := h e he
    · exact .inl (hp.resolve_right hf)
    · exact .inr ⟨d, by simpa [holderIn, makeHold, updFunc, dropClaim, setClaims, State.updLines, hf] using hd, hne⟩

theorem waiting_grantNext (h : Waiting (fun g => passing g ∨ g = f) s.lines) :
    Waiting passing (grantNext f s).lines := by
  unfold grantNext
  split
  · have hnotice (e : ClaimEntry) (u : State) : (grantedNotice f e u).lines = u.lines := by simp
    rw [hnotice]
    exact waiting_makeHold _ _ _ h
  · next hnone =>
    have hf : ∀ e ∈ s.lines.claims, e.function ≠ f := by simpa using hnone
    exact fun e he => (h e he).imp_left (·.resolve_right (hf e he))

theorem grantNext_claims_sublist : (grantNext f s).lines.claims.Sublist s.lines.claims := by
  unfold grantNext
  split
  · simp [makeHold, updFunc, dropClaim, setClaims, State.updLines]
  · exact .refl _

theorem grantNext_guarded : guarded (grantNext f s) = { guarded s with lines := (grantNext f s).lines } := by
  unfold grantNext
  split
  · rw [grantedNotice_guarded]
    simp [guarded, makeHold, updFunc, dropClaim, setClaims, State.updLines, slotRec, State.port]
  · rfl

/-- A hold that is taken away and passed on, with work that keeps the conditions between the two. -/
theorem passing_keeps (h : Keeps (guarded (removeHold f s)) (guarded u)) :
    Keeps (guarded s) (guarded (grantNext f u)) := by
  rw [grantNext_guarded]
  exact ⟨h.lineBreak, h.isolation, h.bus, h.slotted, grantNext_claims_sublist.trans h.claims,
    fun _ hw => waiting_grantNext (h.waiting _ (waiting_removeHold hw)), h.windows, h.room, h.forecast, h.dial,
    h.measured, h.gates⟩

/-- A hold that is taken away and given to a channel, whose claim goes. -/
theorem seizing_keeps (c : Channel) (level : Nat) (h : Keeps (guarded (removeHold f s)) (guarded u)) :
    Keeps (guarded s) (guarded (makeHold f c level none (dropClaim c f u))) :=
  ⟨h.lineBreak, h.isolation, h.bus, h.slotted, List.filter_sublist.trans h.claims,
    fun _ hw => waiting_makeHold c level none (h.waiting _ (waiting_removeHold hw)), h.windows, h.room, h.forecast,
    h.dial, h.measured, h.gates⟩

end

/-! ## The engine -/

section
variable {a : Guarded} {s t : State}

theorem takeMeasurements_length (k : TestKind) (r : Readings) (cable : Nat) (short : Bool) :
    (takeMeasurements k r cable short).length ≤ 4 := by
  cases k <;> simp [takeMeasurements, measuredValues, numberFrom]

theorem listedMeasurements_length {x : Test} (h : ∀ l, x.values = some l → l.length ≤ 4) :
    (listedMeasurements x).length ≤ 4 := by
  unfold listedMeasurements
  split
  · next l _ hl => simpa [judged] using h l hl
  · simp

/-- The coupling that a test finds, where it takes the exchange pair (R141). -/
def couplingBefore (x : Test) (s : State) : Option Coupling :=
  match x.target with
  | .exchange => some s.relays.dsl
  | .home _ => none

/-- A test in CONNECT, its TEST window handed, before its change set is applied (R141). -/
def testConnecting (x : Test) (s : State) : State :=
  (handWindow .test (targetPort x.target) (some x.id) s.now none
    (updTest (fun t => { t with phase := .connect, preTest := couplingBefore x s }) s)).updEngine
    (fun e => { e with detached := e.detached.map (fun _ => ⟨false⟩) })

theorem connectTest_eq {x : Test} (hx : s.engine.test = some x) (hp : x.phase = .notify) : connectTest s =
    (applyChange (connectChange (testConnecting x s) x.target) .testConnect x.id (testConnecting x s)).getD
      (testConnecting x s) := by
  have hu : ∀ (o : Option State) (u : State), (match o with | some s' => s' | none => u) = o.getD u :=
    fun o u => by cases o <;> rfl
  unfold connectTest
  simp only [hx, hp, if_true]
  exact hu _ _

/-- The port with the mode standing at its switch's end (R98). -/
def standingIn (p : Port) (m : PlainMode) (o : SwitchOutcome) (s : State) : State :=
  s.updPort p (fun q => { q with mode := m.mode, suspended := suspendedAfter o m q.suspended })

/-- The port after its switch, with the record ended, before the supervisor is restarted (R98). -/
def switchOver (p : Port) (w : ModeSwitch) (m : PlainMode) (o : SwitchOutcome) (s : State) : State :=
  (if (slotRec (standingIn p m o s) (portSlot p)).map (·.id) = some w.id then
      endSlot (portSlot p) (standingIn p m o s)
    else standingIn p m o s).updPort p (fun q => { q with switch := none })

/-- The supervisor restarted at its switch's end (R98). -/
def switchRestarted (p : Port) (w : ModeSwitch) (m : PlainMode) (o : SwitchOutcome) (s : State) : State :=
  if w.stage ≠ .lead ∧ o ≠ .power ∧ ((switchOver p w m o s).port p).denial.isNone then
    restart p (some .mode) (switchOver p w m o s)
  else switchOver p w m o s

theorem endSwitch_eq {p : Port} {w : ModeSwitch} (hw : (s.port p).switch = some w) (m : PlainMode)
    (o : SwitchOutcome) : endSwitch p m o s =
      postCompletion (modeDone p o m w ((switchRestarted p w m o s).port p).suspended (switchRestarted p w m o s).now)
        w.requester (switchRestarted p w m o s) := by
  unfold endSwitch
  rw [hw]
  rfl

section
variable (h : Keeps a (guarded s))
include h

@[simp] theorem gatedRelease_keeps (f : Func) (c : Channel) (gate : Nat) :
    Keeps a (guarded (gatedRelease f c gate s)) := by
  unfold gatedRelease
  split
  · split
    · exact h.trans (passing_keeps (by simp))
    · exact h
  · exact h

@[simp] theorem homeTestEnded_keeps (p : Port) : Keeps a (guarded (homeTestEnded p s)) := by
  unfold homeTestEnded
  dsimp only
  split <;> simp [h]

/-- The result record of a test lists what the test measured. -/
theorem resultRecorded_keeps {x : Test} (hx : s.engine.test = some x) (now : Time) :
    Keeps a (guarded (s.updEngine (fun e => { e with result := some (resultOf x now) }))) := by
  refine h.engineOnly rfl fun ⟨_, hv⟩ => ⟨fun y hy => ?_, hv⟩
  cases hy
  exact listedMeasurements_length fun l hl => hv l (by simp [guarded, hx, hl])

@[simp] theorem testGone_keeps :
    Keeps a (guarded (s.updEngine (fun e => { e with test := none, wallDue := none, cleanDue := none }))) :=
  h.engineOnly rfl fun ⟨hr, _⟩ => ⟨hr, nofun⟩

@[simp] theorem endTest_keeps : Keeps a (guarded (endTest s)) := by
  unfold endTest
  split
  · exact h
  · next x hx =>
    have hr := resultRecorded_keeps h hx s.now
    dsimp only
    refine testGone_keeps ?_
    (repeat' split) <;> simp [hr]

@[simp] theorem applyRelease_keeps (x : Asker) (y : Test) : Keeps a (guarded (applyRelease x y s)) := by
  unfold applyRelease
  split
  · next u hu => exact applyChange_keeps h hu
  · exact h

@[simp] theorem enterRelease_keeps : Keeps a (guarded (enterRelease s)) := by
  unfold enterRelease
  split <;> simp [h]

@[simp] theorem testConnecting_keeps (x : Test) : Keeps a (guarded (testConnecting x s)) := by
  unfold testConnecting
  rw [updEngine_guarded ⟨rfl, rfl, rfl⟩]
  exact handWindow_keeps (by simpa using h) (by simp)

@[simp] theorem connectTest_keeps : Keeps a (guarded (connectTest s)) := by
  cases hx : s.engine.test with
  | none => simpa [connectTest, hx] using h
  | some x =>
    by_cases hp : x.phase = .notify
    · rw [connectTest_eq hx hp]
      exact applyChange_getD_keeps (testConnecting_keeps h x) _ _ _
    · simpa [connectTest, hx, hp] using h

@[simp] theorem detachedDone_keeps : Keeps a (guarded (detachedDone s)) := by
  unfold detachedDone
  split
  · refine endSlot_keeps ?_ _
    rw [updEngine_guarded ⟨rfl, rfl, rfl⟩]
    split <;> simp [h]
  · exact h

@[simp] theorem releaseComplete_keeps : Keeps a (guarded (releaseComplete s)) := by
  unfold releaseComplete
  split
  · split
    · exact endTest_keeps (endSlot_keeps (closeWindow_keeps h _ _) _)
    · exact h
  · exact h

/-- MEASURE ends with at most 4 values. -/
theorem endMeasure_keeps {n : Nat} {v : Option (List Measurement)} {b : Bool} (hv : ∀ l, v = some l → l.length ≤ 4) :
    Keeps a (guarded (endMeasure n v b s)) := by
  unfold endMeasure
  refine enterRelease_keeps (Keeps.engineOnly (by simpa using h) rfl fun ⟨hr, _⟩ => ⟨hr, fun l hl => ?_⟩)
  obtain ⟨y, hy, hyl⟩ := Option.bind_eq_some_iff.1 hl
  obtain ⟨x, -, rfl⟩ := Option.map_eq_some_iff.1 hy
  exact hv l hyl

@[simp] theorem cleanReached_keeps (r : Readings) : Keeps a (guarded (cleanReached r s)) := by
  unfold cleanReached
  split
  · exact endMeasure_keeps h fun l hl => Option.some_inj.1 hl ▸ takeMeasurements_length _ _ _ _
  · exact h

@[simp] theorem wallReached_keeps (r : Readings) : Keeps a (guarded (wallReached r s)) := by
  unfold wallReached
  split
  · dsimp only
    (repeat' split)
    · exact endMeasure_keeps h fun l hl => Option.some_inj.1 hl ▸ takeMeasurements_length _ _ _ _
    · exact endMeasure_keeps h fun l hl => Option.some_inj.1 hl ▸ takeMeasurements_length _ _ _ _
    · exact endMeasure_keeps h nofun
  · exact h

/-! ### Aborts -/

@[simp] theorem abortInNotify_keeps (x : Test) : Keeps a (guarded (abortInNotify x s)) := by
  simp [abortInNotify, h]

@[simp] theorem abortByRelease_keeps (x : Test) : Keeps a (guarded (abortByRelease x s)) := by
  unfold abortByRelease
  split <;> simp -implicitDefEqProofs [h]

@[simp] theorem abortDetached_keeps (x : Test) : Keeps a (guarded (abortDetached x s)) := by
  unfold abortDetached
  dsimp only
  refine endTest_keeps ?_
  rw [updEngine_guarded ⟨rfl, rfl, rfl⟩]
  split <;> simp -implicitDefEqProofs [h]

@[simp] theorem abortByPower_keeps (x : Test) : Keeps a (guarded (abortByPower x s)) := by
  unfold abortByPower
  exact endTest_keeps (endSlot_keeps (closeWindow_keeps (by simpa using h) _ _) _)

@[simp] theorem actOnAbort_keeps (why : AbortReason) (x : Test) : Keeps a (guarded (actOnAbort why x s)) := by
  unfold actOnAbort
  (repeat' split) <;> simp [h]

@[simp] theorem abortTest_keeps (why : AbortReason) : Keeps a (guarded (abortTest why s)) := by
  unfold abortTest
  split
  · exact h
  · next x hx =>
    split
    · simp [h]
    · dsimp only
      refine actOnAbort_keeps ?_ _ _
      rw [raiseFault_guarded, updEngine_guarded ⟨rfl, by simp [hx], rfl⟩]
      exact h

@[simp] theorem engineSeizure_keeps (p : Port) (b : Bool) : Keeps a (guarded (engineSeizure p b s)) := by
  unfold engineSeizure
  split <;> simp [h]

@[simp] theorem engineOnset_keeps : Keeps a (guarded (engineOnset s)) := by
  unfold engineOnset
  split <;> simp [h]

@[simp] theorem engineHoldLost_keeps (f : Func) : Keeps a (guarded (engineHoldLost f s)) := by
  unfold engineHoldLost
  (repeat' split) <;> simp [h]

@[simp] theorem engineReset_keeps (l : List Channel) : Keeps a (guarded (engineReset l s)) := by
  unfold engineReset
  (repeat' split) <;> simp [h]

/-! ## Loss of holds -/

@[simp] theorem holdLost_keeps (f : Func) (c : Channel) : Keeps a (guarded (holdLost f c s)) := by
  simp [holdLost, h]

@[simp] theorem releaseFunc_keeps (f : Func) : Keeps a (guarded (releaseFunc f s)) := by
  unfold releaseFunc
  split
  · exact h.trans (passing_keeps (by simp))
  · exact h

@[simp] theorem revokeFunc_keeps (f : Func) (x : Hold) (n : Nat) : Keeps a (guarded (revokeFunc f x n s)) :=
  h.trans (passing_keeps (by simp))

@[simp] theorem seizeFunc_keeps (f : Func) (x : Hold) (c : Channel) (n : Nat) :
    Keeps a (guarded (seizeFunc f x c n s)) :=
  h.trans (seizing_keeps c n (by simp))

@[simp] theorem releaseCovered_keeps (covered : List Channel) (l : List Func) :
    Keeps a (guarded (releaseCovered covered l s)) := by
  induction l generalizing s with
  | nil => exact h
  | cons f rest ih =>
    unfold releaseCovered
    split
    · refine ih ?_
      split <;> simp [h]
    · exact ih h

/-- A filtered claim queue. -/
theorem setClaims_filter_keeps (p : ClaimEntry → Bool) : Keeps a (guarded (setClaims (s.lines.claims.filter p) s)) :=
  h.trans ⟨rfl, rfl, id, id, List.filter_sublist, fun _ hw e he => hw e (List.mem_of_mem_filter he), id, id, id,
    fun _ => id, id, rfl⟩

@[simp] theorem dropClaim_keeps (c : Channel) (f : Func) : Keeps a (guarded (dropClaim c f s)) :=
  setClaims_filter_keeps h _

@[simp] theorem expireAll_keeps (n : Nat) (l : List ClaimEntry) : Keeps a (guarded (expireAll n l s)) := by
  induction l generalizing s with
  | nil => exact h
  | cons e rest ih => exact ih (by simp [h])

@[simp] theorem channelReset_keeps (covered : List Channel) : Keeps a (guarded (channelReset covered s)) := by
  have hs : Keeps a (guarded (freshChannels covered s)) := by simpa using h
  unfold channelReset resetHolds
  refine engineReset_keeps ?_ _
  rw [freshFaultChannels_guarded]
  exact releaseCovered_keeps (setClaims_filter_keeps hs _) _ _

/-! ## Switches, denials and seizures -/

@[simp] theorem switchOver_keeps (p : Port) (w : ModeSwitch) (m : PlainMode) (o : SwitchOutcome) :
    Keeps a (guarded (switchOver p w m o s)) := by
  unfold switchOver
  rw [updPort_guarded rfl]
  split <;> simp [h, standingIn]

@[simp] theorem endSwitch_keeps (p : Port) (m : PlainMode) (o : SwitchOutcome) :
    Keeps a (guarded (endSwitch p m o s)) := by
  cases hw : (s.port p).switch with
  | none => simpa [endSwitch, hw] using h
  | some w =>
    rw [endSwitch_eq hw, postCompletion_guarded, switchRestarted]
    split <;> simp [h]

@[simp] theorem activateSwitch_keeps (p : Port) : Keeps a (guarded (activateSwitch p s)) := by
  unfold activateSwitch
  split
  · exact h
  · split
    · exact applyChange_getD_keeps (by simpa using h) _ _ _
    · exact h

@[simp] theorem switchSettled_keeps (p : Port) : Keeps a (guarded (switchSettled p s)) := by
  unfold switchSettled
  split
  · exact h
  · split
    · exact h
    · dsimp only
      split
      · next u hu => exact applyChange_keeps (by simpa using h) hu
      · simp [h]
    · split <;> simp [h]

@[simp] theorem switchSeized_keeps (p : Port) : Keeps a (guarded (switchSeized p s)) := by
  unfold switchSeized
  split
  · exact h
  · split
    · split
      · next u hu =>
        have hc := cancelSlot_keeps h (portSlot p)
        rw [hu] at hc
        exact endSwitch_keeps hc _ _ _
      · exact h
    · exact h

@[simp] theorem denyFeed_keeps (p : Port) (since : Time) : Keeps a (guarded (denyFeed p since s)) := by
  unfold denyFeed
  dsimp only
  refine endSession_keeps ?_ _ _ _
  simp [h]

@[simp] theorem beginProbe_keeps (p : Port) (d : Denial) : Keeps a (guarded (beginProbe p d s)) := by
  simp [beginProbe, h]

@[simp] theorem finishProbe_keeps (p : Port) (d : Denial) : Keeps a (guarded (finishProbe p d s)) := by
  unfold finishProbe
  dsimp only
  (repeat' split) <;> simp [h]

@[simp] theorem fallbackPort_keeps (p : Port) : Keeps a (guarded (fallbackPort p s)) := by
  unfold fallbackPort
  dsimp only
  split <;> simp [h]

@[simp] theorem seize_keeps (p : Port) (why : HookReason) : Keeps a (guarded (seize p why s)) := by
  unfold seize
  dsimp only
  refine engineSeizure_keeps ?_ _ _
  have hd : Keeps a (guarded (s.updPort p (fun q => { q with
      dial := [], overflow := false
      sup := { q.sup with
        state := .offHook, masked := false, seizeTimer := .stopped, pulses := 0, gapTimer := .stopped } }))) :=
    h.dialOnly (by simp)
  (repeat' split) <;> simp [hd]

@[simp] theorem tripPort_keeps (p : Port) : Keeps a (guarded (tripPort p s)) := by
  unfold tripPort
  dsimp only
  refine answerSession_keeps ?_ _ _
  split <;> simp [h]

/-! ## The DSL switch, activations and completions -/

omit h in
theorem slotRec_endSlot (i : SlotId) : slotRec (endSlot i s) i = none := by
  unfold endSlot
  split
  · simp [slotRec, setSlot, State.updSched]
  · assumption

/-- The switch is over once its slot is empty. -/
theorem setDsl_none_keeps (hs : slotRec s .dsl = none) : Keeps a (guarded (s.setDsl none)) :=
  h.trans ⟨rfl, rfl, id, fun _ hd => absurd hd (by simpa [guarded, slotRec, State.setDsl] using hs), .refl _,
    fun _ => id, id, id, id, fun _ => id, id, rfl⟩

@[simp] theorem endDsl_keeps (o : DslOutcome) : Keeps a (guarded (endDsl o s)) := by
  unfold endDsl
  split
  · exact h
  · refine setDsl_none_keeps (by simp [h]) ?_
    simpa [slotRec] using slotRec_endSlot (s := s) .dsl

@[simp] theorem activateDsl_keeps : Keeps a (guarded (activateDsl s)) := by
  unfold activateDsl
  split
  · exact h
  · split
    · next u hu => exact applyChange_keeps h hu
    · simp [h]

@[simp] theorem dslSettled_keeps : Keeps a (guarded (dslSettled s)) := by
  unfold dslSettled
  (repeat' split) <;> simp [h]

@[simp] theorem ownerStart_keeps (i : SlotId) : Keeps a (guarded (ownerStart i s)) := by
  unfold ownerStart
  (repeat' split) <;> simp [h]

@[simp] theorem activate_keeps (i : SlotId) : Keeps a (guarded (activate i s)) := by
  simp [activate, h]

@[simp] theorem startIfActive_keeps (i : SlotId) : Keeps a (guarded (startIfActive i s)) := by
  unfold startIfActive
  split <;> simp [h]

@[simp] theorem settled_keeps (x : Asker) : Keeps a (guarded (settled x s)) := by
  unfold settled
  split <;> simp [h]

/-! ## Detectors and power -/

@[simp] theorem ringOnset_keeps : Keeps a (guarded (ringOnset s)) := by
  simp [ringOnset, h]

theorem senseBoth_keeps : Keeps a (guarded (judgeWatch (senseLoop .p2 (senseLoop .p1 s)))) := by
  simp [h]

@[simp] theorem lineBreakSeen_keeps : Keeps a (guarded (lineBreakSeen s)) := by
  unfold lineBreakSeen
  refine senseBoth_keeps ?_
  (repeat' split) <;> simp [h]

@[simp] theorem takeInputs_keeps : Keeps a (guarded (takeInputs s)) := by
  unfold takeInputs
  refine senseBoth_keeps ?_
  split <;> simp [h]

@[simp] theorem raiseHard_keeps (c : FaultClass) (n m : Nat) : Keeps a (guarded (raiseHard c n m s)) := by
  simp [raiseHard, h]

@[simp] theorem ringFaultPort_keeps (p : Port) : Keeps a (guarded (ringFaultPort p s)) := by
  unfold ringFaultPort
  split <;> simp [h]

@[simp] theorem ringFaultExpires_keeps : Keeps a (guarded (ringFaultExpires s)) := by
  unfold ringFaultExpires
  dsimp only
  (repeat' split) <;> simp -implicitDefEqProofs [h]

@[simp] theorem reserveFallback_keeps : Keeps a (guarded (reserveFallback s)) := by
  simp [reserveFallback, h]

@[simp] theorem tellPower_keeps (o n : PowerState) : Keeps a (guarded (tellPower o n s)) := by
  unfold tellPower
  split
  · simp [h]
  · have hp := fallbackPort_keeps (fallbackPort_keeps (endAllSessions_keeps h .power) .p1) .p2
    simp [hp]
  · exact h

@[simp] theorem powerMoves_keeps (o n : PowerState) : Keeps a (guarded (powerMoves o n s)) := by
  unfold powerMoves
  dsimp only
  (repeat' split) <;> simp -implicitDefEqProofs [h]

@[simp] theorem powerInputs_keeps : Keeps a (guarded (powerInputs s)) := by
  unfold powerInputs
  dsimp only
  split <;> simp -implicitDefEqProofs [h]

end
end

end Sys2Proof.Machine
end

