-- ==== Sys2Proof/Proofs/Conditions.lean ====
section
namespace Sys2Proof.Machine

/-! ## The conditions on the parts they speak of -/

namespace Guarded

/-- R161. -/
def breakOpen (g : Guarded) : Prop := g.isolation ≠ .normal → g.relays.lineBreak = .open_

/-- R29. -/
def claimsSound (g : Guarded) : Prop :=
  g.lines.claims.length ≤ 8 ∧
    g.lines.claims.Pairwise (fun a b => ¬(a.channel = b.channel ∧ a.function = b.function)) ∧
    Waiting (fun _ => False) g.lines

/-- R29. -/
def claimsOrdered (g : Guarded) : Prop := g.lines.claims.Pairwise (fun a b => a.level ≤ b.level)

/-- R151. -/
def gatesBounded (g : Guarded) : Prop := ∀ n x, g.gates.get n = some x → x.limits.length ≤ 4

/-- R29, R58, R81, R114, R135, R151. -/
def bounded (g : Guarded) : Prop :=
  g.lines.claims.length ≤ 8 ∧ g.windows.length ≤ 8 ∧ g.forecast.length ≤ 4 ∧ (∀ p, (g.dial p).length ≤ 24) ∧
    g.measured ∧ g.gatesBounded

end Guarded

theorem claimsSound_iff {s : State} : claimsSound s ↔ (guarded s).claimsSound := by
  simp [claimsSound, Guarded.claimsSound, Waiting, guarded, holderIn, holderOf]

theorem listsBounded_iff {s : State} : listsBounded s ↔ (guarded s).bounded := by
  have hports : (∀ p, ((guarded s).dial p).length ≤ 24) ↔
      s.ports.p1.dial.length ≤ 24 ∧ s.ports.p2.dial.length ≤ 24 :=
    ⟨fun h => ⟨h .p1, h .p2⟩, fun ⟨h1, h2⟩ p => by cases p <;> assumption⟩
  have htest : (∀ t l, s.engine.test = some t → t.values = some l → l.length ≤ 4) ↔
      ∀ l, (guarded s).values = some l → l.length ≤ 4 := by
    simp only [guarded, Option.bind_eq_some_iff]
    exact ⟨fun h l ⟨t, ht, hl⟩ => h t l ht hl, fun h t l ht hl => h l ⟨t, ht, hl⟩⟩
  simp only [listsBounded, Guarded.bounded, Guarded.measured, Guarded.gatesBounded, hports, htest, and_assoc]
  rfl

/-- Every condition but R161's that holds before holds after. -/
structure Upholds (a b : Guarded) : Prop where
  bus : a.relays.busSafe → b.relays.busSafe
  slotted : (a.slotted = true → a.switching = true) → b.slotted = true → b.switching = true
  claims : a.claimsSound → b.claimsSound
  ordered : a.claimsOrdered → b.claimsOrdered
  windows : windowsSound a.windows → windowsSound b.windows
  bounded : a.bounded → b.bounded

/-- Every condition that holds before holds after. -/
structure UpholdsAll (a b : Guarded) : Prop extends Upholds a b where
  lineBreak : a.breakOpen → b.breakOpen

section
variable {a b c : Guarded}

theorem Upholds.refl : Upholds a a := ⟨id, id, id, id, id, id⟩

theorem UpholdsAll.refl : UpholdsAll a a := ⟨.refl, id⟩

theorem Upholds.trans (h : Upholds a b) (h' : Upholds b c) : Upholds a c :=
  ⟨h'.bus ∘ h.bus, h'.slotted ∘ h.slotted, h'.claims ∘ h.claims, h'.ordered ∘ h.ordered, h'.windows ∘ h.windows,
    h'.bounded ∘ h.bounded⟩

theorem UpholdsAll.trans (h : UpholdsAll a b) (h' : UpholdsAll b c) : UpholdsAll a c :=
  ⟨h.toUpholds.trans h'.toUpholds, h'.lineBreak ∘ h.lineBreak⟩

theorem Keeps.upholds (h : Keeps a b) : Upholds a b where
  bus := h.bus
  slotted := h.slotted
  claims := fun ⟨hl, hp, hw⟩ => ⟨h.claims.length_le.trans hl, hp.sublist h.claims, h.waiting _ hw⟩
  ordered := fun ho => ho.sublist h.claims
  windows := h.windows
  bounded := fun ⟨hc, hw, hf, hd, hm, hg⟩ => ⟨h.claims.length_le.trans hc, h.room hw, h.forecast hf,
    fun p => h.dial p (hd p), h.measured hm, fun n x hx => hg n x (h.gates ▸ hx)⟩

theorem Keeps.upholdsAll (h : Keeps a b) : UpholdsAll a b :=
  ⟨h.upholds, fun hb hi => h.lineBreak.trans (hb (h.isolation ▸ hi))⟩

end

/-! ## Isolation (R161 to R167) -/

section
variable {a : Guarded} {s : State}

theorem placeLineBreak_upholds (c : Contact) (h : Upholds a (guarded s)) :
    Upholds a (guarded (placeLineBreak c s)) :=
  h.trans ⟨id, id, id, id, id, id⟩

theorem setIsolation_upholds (i : Isolation) (h : Upholds a (guarded s)) :
    Upholds a (guarded (setIsolation i s)) :=
  h.trans ⟨id, id, id, id, id, id⟩

/-- What follows a move of the line-break keeps the conditions, and leaves the line-break where it went. -/
theorem moveLineBreak_keeps (c : Contact) : Keeps (guarded (placeLineBreak c s)) (guarded (moveLineBreak c s)) := by
  unfold moveLineBreak
  exact lineBreakSeen_keeps (handWindow_keeps .refl (by simp))

theorem moveLineBreak_upholds (c : Contact) (h : Upholds a (guarded s)) :
    Upholds a (guarded (moveLineBreak c s)) :=
  (placeLineBreak_upholds c h).trans (moveLineBreak_keeps c).upholds

theorem moveLineBreak_lineBreak (c : Contact) : (moveLineBreak c s).relays.lineBreak = c :=
  (moveLineBreak_keeps c).lineBreak

theorem enterLockout_keeps (why : LockoutCause) (reason : IsolationReason) (cause : FaultClass) (since : BitVec 32)
    (n : Nat) : Keeps (guarded (setIsolation (.lockout why cause since) s))
      (guarded (enterLockout why reason cause since n s)) := by
  simp [enterLockout]

theorem enterLockout_upholdsAll (why : LockoutCause) (reason : IsolationReason) (cause : FaultClass)
    (since : BitVec 32) (n : Nat) (hi : s.faults.isolation ≠ .normal) (h : UpholdsAll a (guarded s)) :
    UpholdsAll a (guarded (enterLockout why reason cause since n s)) := by
  refine .trans ?_ (enterLockout_keeps why reason cause since n).upholdsAll
  exact ⟨setIsolation_upholds _ h.toUpholds, fun hb _ => h.lineBreak hb hi⟩

theorem isolate_upholdsAll (c : FaultClass) (h : UpholdsAll a (guarded s)) :
    UpholdsAll a (guarded (isolate c s)) := by
  unfold isolate
  split
  · rw [isolationNotice_guarded, unplanned_guarded]
    exact ⟨setIsolation_upholds _ (moveLineBreak_upholds _ h.toUpholds), fun _ _ => moveLineBreak_lineBreak .open_⟩
  · next hi => exact enterLockout_upholdsAll _ _ _ _ _ (by simp [hi]) h
  · exact h

theorem hardEvent_upholdsAll (c : FaultClass) (n : Nat) (h : UpholdsAll a (guarded s)) :
    UpholdsAll a (guarded (hardEvent c n s)) := by
  unfold hardEvent
  dsimp only
  rw [finishTaking_guarded]
  exact (isolate_upholdsAll c (by simpa using h)).trans (raiseHard_keeps .refl _ _ _).upholdsAll

theorem endIsolation_upholdsAll (why : IsolationReason) (n : Nat) (h : UpholdsAll a (guarded s)) :
    UpholdsAll a (guarded (endIsolation why n s)) := by
  unfold endIsolation
  rw [isolationNotice_guarded, unplanned_guarded]
  refine ⟨moveLineBreak_upholds _ (setIsolation_upholds _ h.toUpholds), fun _ hi => absurd ?_ hi⟩
  exact (moveLineBreak_keeps .closed).isolation

theorem dwellEnds_upholdsAll (dwell : Nat) (cause : FaultClass) (since : BitVec 32)
    (hi : s.faults.isolation ≠ .normal) (h : UpholdsAll a (guarded s)) :
    UpholdsAll a (guarded (dwellEnds dwell cause since s)) := by
  unfold dwellEnds
  split
  · split
    · rw [isolationNotice_guarded]
      exact ⟨setIsolation_upholds _ h.toUpholds, fun hb _ => h.lineBreak hb hi⟩
    · rw [finishTaking_guarded]
      exact enterLockout_upholdsAll _ _ _ _ _ hi (by simpa using h)
  · exact endIsolation_upholdsAll _ _ h

theorem startUpIsolation_upholdsAll (h : UpholdsAll a (guarded s)) :
    UpholdsAll a (guarded (startUpIsolation s)) := by
  unfold startUpIsolation
  split
  · next hi =>
    rw [finishTaking_guarded]
    refine .trans ?_ (raiseHard_keeps .refl _ _ _).upholdsAll
    rw [beginTaking_guarded, isolationNotice_guarded, unplanned_guarded]
    exact ⟨setIsolation_upholds _ h.toUpholds, fun hb _ => h.lineBreak hb (by simp [guarded, hi])⟩
  · exact h

theorem relay_lineBreak (c : Contact) :
    (if s.relays.lineBreak = c then s else placeLineBreak c s).relays.lineBreak = c := by
  split <;> simp_all [placeLineBreak]

theorem relay_lineBreak_upholds (c : Contact) (h : Upholds a (guarded s)) :
    Upholds a (guarded (if s.relays.lineBreak = c then s else placeLineBreak c s)) := by
  split
  · exact h
  · exact placeLineBreak_upholds c h

/-- The hazard check opens the line-break in ISOLATING and leaves NORMAL otherwise (R167). -/
theorem hazardCheck_upholdsAll (h : Upholds a (guarded s)) : UpholdsAll a (guarded (hazardCheck s)) := by
  unfold hazardCheck
  dsimp only
  have hpins : ∀ c, (if s.relays.lineBreak = c then s else placeLineBreak c s).pins = s.pins := by
    intro c; split <;> rfl
  rw [hpins]
  refine ⟨setIsolation_upholds _ (relay_lineBreak_upholds _ h), fun _ hi => ?_⟩
  cases hz : s.pins.hazard with
  | true => exact relay_lineBreak .open_
  | false => exact absurd (by simp [guarded, setIsolation, State.updFaults, hz]) hi

end

/-! ## Starts and resets (R182, R183, R186, R187) -/

section
variable {a : Guarded} {s t : State}

/-- The parts of a block that starts meet every condition, but for the gates it keeps. -/
theorem upholds_of_fresh {x : Contact} (hr : t.relays = defaultRelays x) (hc : t.lines.claims = [])
    (hs : slotRec t .dsl = none) (hw : t.sched.windows = []) (hf : t.tracker.forecast = [])
    (hd : ∀ p, (t.port p).dial = []) (he : t.engine.result = none ∧ t.engine.test = none)
    (hg : a.bounded → (guarded t).gatesBounded) : Upholds a (guarded t) := by
  obtain ⟨hres, htest⟩ := he
  refine ⟨fun _ hx => ?_, fun _ hd => ?_, fun _ => ⟨?_, ?_, fun e he => ?_⟩, fun _ => ?_, fun _ => ?_,
    fun ha => ⟨?_, ?_, ?_, ?_, ⟨?_, ?_⟩, hg ha⟩⟩ <;>
  simp_all [guarded, defaultRelays, windowsSound, Guarded.claimsOrdered]

theorem factoryGates_bounded : ∀ n x, factorySettings.gates.get n = some x → x.limits.length ≤ 4 := by
  intro n x hx
  rcases n with _ | _ | _ | n <;> cases hx

@[simp] theorem sampleStraps_guarded (x : Straps) : guarded (sampleStraps x s) = guarded s := setTwoPorts_guarded _

@[simp] theorem setReady_guarded (r : Bool) : guarded (setReady r s) = guarded s := by
  rw [setReady, updModem_guarded, updGateway_guarded]

theorem powerOnValues_upholdsAll : UpholdsAll a (guarded (powerOnValues s)) :=
  ⟨upholds_of_fresh (x := s.relays.lineBreak) rfl rfl rfl rfl rfl (fun p => by cases p <;> rfl) ⟨rfl, rfl⟩
    fun _ => factoryGates_bounded, fun _ hi => absurd rfl hi⟩

theorem powerOn_upholdsAll (x : Straps) : UpholdsAll a (guarded (powerOn x s)) := by
  have hcheck : UpholdsAll a (guarded (hazardCheck (sampleStraps x (powerOnValues s)))) := by
    apply hazardCheck_upholdsAll
    rw [sampleStraps_guarded]
    exact powerOnValues_upholdsAll.toUpholds
  refine hcheck.trans (Keeps.upholdsAll ?_)
  unfold powerOn
  apply takeInputs_keeps
  rw [setPower_guarded]
  exact .refl

/-- The reset pin keeps LOCKOUT and ISOLATING with the line-break where it stands (R187). -/
theorem resetPinValues_upholdsAll : UpholdsAll (guarded s) (guarded (resetPinValues s)) := by
  refine ⟨upholds_of_fresh (x := s.relays.lineBreak) rfl rfl rfl rfl rfl (fun p => by cases p <;> rfl) ⟨rfl, rfl⟩
    fun hb => hb.2.2.2.2.2, fun hb hi => hb fun hn => hi ?_⟩
  have hn : s.faults.isolation = .normal := hn
  simp [guarded, resetPinValues, resetPinFaults, hn]

theorem resetPinCheck_upholdsAll (h : UpholdsAll a (guarded s)) : UpholdsAll a (guarded (resetPinCheck s)) := by
  unfold resetPinCheck
  split
  · exact h
  · exact hazardCheck_upholdsAll h.toUpholds

theorem resetPinRestart_upholdsAll (x : Straps) : UpholdsAll (guarded s) (guarded (resetPinRestart x s)) := by
  unfold resetPinRestart
  rw [setReady_guarded, setPhase_guarded]
  apply startUpIsolation_upholdsAll
  have hcheck : UpholdsAll (guarded s) (guarded (resetPinCheck (sampleStraps x (resetPinValues s)))) := by
    apply resetPinCheck_upholdsAll
    rw [sampleStraps_guarded]
    exact resetPinValues_upholdsAll
  refine hcheck.trans (Keeps.upholdsAll ?_)
  apply takeInputs_keeps
  rw [setPower_guarded]
  exact .refl

theorem limitsValid_length {k : TestKind} {l : List Limit} (h : limitsValid k l = true) : l.length ≤ 4 := by
  simp only [limitsValid, Bool.and_eq_true, decide_eq_true_eq] at h
  exact h.1.1

/-- A valid image has gates of at most 4 limits (R151, R182). -/
theorem gates_bounded_of_valid {x : Settings} (h : x.valid = true) :
    ∀ n g, x.gates.get n = some g → g.limits.length ≤ 4 := by
  simp only [Settings.valid, Bool.and_eq_true, List.all_eq_true] at h
  obtain ⟨⟨⟨⟨⟨⟨⟨⟨⟨-, hgates⟩, -⟩, -⟩, -⟩, -⟩, -⟩, -⟩, -⟩, -⟩ := h
  intro n g hg
  have hmem : x.gates.get n ∈ x.gates.toList := by
    rcases n with _ | _ | _ | n <;> simp [Quad.get, Quad.toList]
  have hvalid := hgates _ hmem
  rw [hg] at hvalid
  simp only [Option.all_some, gateValid, Bool.and_eq_true] at hvalid
  exact limitsValid_length hvalid.2

theorem loaded_gates_bounded (image : Image) (whole : Bool) :
    ∀ n g, (loaded image whole).1.gates.get n = some g → g.limits.length ≤ 4 := by
  unfold loaded
  split
  · exact factoryGates_bounded
  · split
    · next hv => exact gates_bounded_of_valid hv
    · exact factoryGates_bounded
  · exact factoryGates_bounded
  · exact factoryGates_bounded

/-- The levels put in force leave who holds what. -/
theorem holderIn_withLevels (levels : PerFunc Nat) (l : LineFunctions) (f : Func) :
    holderIn { l with table := withLevels levels l.table } f = holderIn l f := by
  cases f <;> rfl

theorem putInForce_guarded (x : Settings) : guarded (putInForce x s) =
    { guarded s with lines := { s.lines with table := withLevels x.levels s.lines.table }, gates := x.gates } := by
  unfold putInForce
  dsimp only
  rw [updFaults_guarded rfl, updTracker_guarded rfl, updSched_guarded rfl, updPort_guarded rfl, updPort_guarded rfl,
    updRing_guarded]
  rfl

theorem putInForce_upholdsAll {x : Settings} (hx : ∀ n g, x.gates.get n = some g → g.limits.length ≤ 4) :
    UpholdsAll (guarded s) (guarded (putInForce x s)) := by
  rw [putInForce_guarded]
  refine ⟨⟨id, id, fun ⟨hl, hp, hw⟩ => ⟨hl, hp, fun e he => (hw e he).imp_right fun hc => ?_⟩, id, id,
    fun ⟨hc, hw, hf, hd, hm, _⟩ => ⟨hc, hw, hf, hd, hm, hx⟩⟩, id⟩
  exact (holderIn_withLevels x.levels s.lines e.function).symm ▸ hc

theorem loadCompletes_upholdsAll (whole : Bool) : UpholdsAll (guarded s) (guarded (loadCompletes whole s)) := by
  have hload := putInForce_upholdsAll (s := s) (loaded_gates_bounded s.store.image whole)
  unfold loadCompletes
  dsimp only
  rw [setReady_guarded, setPhase_guarded]
  apply startUpIsolation_upholdsAll
  split
  · rw [raiseFault_guarded, updStore_guarded]
    exact hload
  · rw [updStore_guarded]
    exact hload

end

end Sys2Proof.Machine
end

