-- ==== Sys2Proof/Proofs/Answers.lean ====
section
namespace Sys2Proof.Machine

/-! ## Claims and holds that an answer takes in (R25 to R29, R38) -/

/-- A claim joins behind every entry of its level or a lower one and ahead of the others (R28, R29). -/
theorem insertClaim_split (e : ClaimEntry) (l : List ClaimEntry) : ∃ ahead behind, l = ahead ++ behind ∧
    insertClaim e l = ahead ++ e :: behind ∧ (∀ x ∈ ahead, x.level ≤ e.level) ∧
    ∀ x, behind.head? = some x → e.level < x.level := by
  induction l with
  | nil => exact ⟨[], [], rfl, rfl, by simp, by simp⟩
  | cons x rest ih =>
    by_cases hx : e.level < x.level
    · exact ⟨[], x :: rest, rfl, by simp [insertClaim, hx], by simp, by simpa using hx⟩
    · obtain ⟨ahead, behind, hl, hi, ha, hb⟩ := ih
      refine ⟨x :: ahead, behind, by simp [hl], by simp [insertClaim, hx, hi], ?_, hb⟩
      simpa using ⟨by omega, ha⟩

theorem insertClaim_perm (e : ClaimEntry) (l : List ClaimEntry) : (insertClaim e l).Perm (e :: l) := by
  obtain ⟨ahead, behind, rfl, hi, -, -⟩ := insertClaim_split e l
  exact hi ▸ List.perm_middle

theorem insertClaim_ordered {e : ClaimEntry} {l : List ClaimEntry} (h : l.Pairwise (fun a b => a.level ≤ b.level)) :
    (insertClaim e l).Pairwise (fun a b => a.level ≤ b.level) := by
  obtain ⟨ahead, behind, rfl, hi, hahead, hbehind⟩ := insertClaim_split e l
  obtain ⟨ha, hb, hab⟩ := List.pairwise_append.mp h
  have he : ∀ x ∈ behind, e.level ≤ x.level := by
    cases behind with
    | nil => simp
    | cons y rest =>
      have hy := hbehind y rfl
      have hrest := (List.pairwise_cons.mp hb).1
      simpa using ⟨hy.le, fun x hx => hy.le.trans (hrest x hx)⟩
  rw [hi, List.pairwise_append]
  refine ⟨ha, List.pairwise_cons.mpr ⟨he, hb⟩, fun x hx y hy => ?_⟩
  rcases List.mem_cons.mp hy with rfl | hy
  · exact hahead x hx
  · exact hab x hx y hy

section
variable {a : Guarded} {s t : State}

/-- Functions stay held by who holds them. -/
theorem Keeps.holdsOnly {g : LineFunctions → LineFunctions} (h : Keeps a (guarded s))
    (hc : (g s.lines).claims = s.lines.claims)
    (hh : ∀ f c, holderIn s.lines f = some c → holderIn (g s.lines) f = some c) :
    Keeps a (guarded (s.updLines g)) := by
  refine h.trans ⟨rfl, rfl, id, id, ?_, fun _ hw e he => ?_, id, id, id, fun _ => id, id, rfl⟩
  · exact hc ▸ .refl _
  · exact (hw e (hc ▸ he)).imp_right fun ⟨c, hc, hne⟩ => ⟨c, hh _ _ hc, hne⟩

/-- A free function that is granted was waited for by no claim. -/
theorem makeHold_keeps (f : Func) (c : Channel) (level : Nat) (gate : Option Nat) (hf : (funcRec s f).hold = none)
    (h : Keeps a (guarded s)) : Keeps a (guarded (makeHold f c level gate s)) := by
  refine h.holdsOnly rfl fun g d hg => ?_
  have hgf : g ≠ f := by
    rintro rfl
    simp [holderIn, show (s.lines.table.get g).hold = none from hf] at hg
  simpa [holderIn, hgf] using hg

theorem updFunc_keeps {f : Func} {g : FuncRec → FuncRec}
    (hg : ((g (funcRec s f)).hold).map (·.holder) = ((funcRec s f).hold).map (·.holder)) (h : Keeps a (guarded s)) :
    Keeps a (guarded (updFunc f g s)) := by
  refine h.holdsOnly rfl fun k d hk => ?_
  by_cases hkf : k = f
  · subst hkf
    exact (by simp [holderIn, funcRec] : _ = _).trans (hg.trans hk)
  · simpa [holderIn, hkf] using hk

theorem enterClaim_upholdsAll {f : Func} {c : Channel} {x : Hold} (level wait : Nat)
    (hx : (funcRec s f).hold = some x) (hc : x.holder ≠ c) (hnew : s.lines.claims.any (isClaim c f) = false)
    (hlen : s.lines.claims.length < 8) : UpholdsAll (guarded s) (guarded (enterClaim f c level wait s).1) := by
  have hperm := insertClaim_perm ⟨c, f, level, s.now + us (wait * 1000)⟩ s.lines.claims
  refine ⟨⟨id, id, fun ⟨_, hp, hw⟩ => ⟨?_, ?_, fun e he => ?_⟩, insertClaim_ordered, id,
    fun ⟨_, hb⟩ => ⟨?_, hb⟩⟩, id⟩
  · exact hperm.length_eq.trans_le hlen
  · refine (hperm.pairwise_iff fun h => by tauto).mpr (List.pairwise_cons.mpr ⟨fun e he heq => ?_, hp⟩)
    have hne : isClaim c f e = false := by simpa using List.any_eq_false.mp hnew e he
    simp [isClaim, ← heq.1, ← heq.2] at hne
  · rcases List.mem_cons.mp (hperm.mem_iff.mp he) with rfl | he
    · exact .inr ⟨x.holder, congrArg (Option.map Hold.holder) hx, hc⟩
    · exact hw e he
  · exact hperm.length_eq.trans_le hlen

theorem answerClaim_upholdsAll (r : Req) (f : Byte) (w : Half) (z : Byte) :
    UpholdsAll (guarded s) (guarded (answerClaim r f w z s).1) := by
  unfold answerClaim
  dsimp only
  split
  · exact .refl
  next g _ =>
  split_ifs
  · exact .refl
  · exact .refl
  split
  · next hfree => exact (makeHold_keeps _ _ _ _ hfree .refl).upholdsAll
  next x hx =>
  split_ifs with hown
  · exact (updFunc_keeps (by simp [hx]) .refl).upholdsAll
  · exact (seizeFunc_keeps .refl g x r.channel _).upholdsAll
  unfold waitFor
  split_ifs with _ hnew hlen
  · exact .refl
  · exact .refl
  · exact .refl
  · exact enterClaim_upholdsAll _ _ hx hown (by simpa using hnew) (by omega)

theorem lowerLevel_keeps (f : Func) (n : Nat) (b : Bool) : Keeps (guarded s) (guarded (lowerLevel f n b s).1) := by
  have hlow := fun l => expireAll_keeps
    (updFunc_keeps (f := f) (g := fun x => { x with level := n }) rfl (Keeps.refl (a := guarded s))) n l
  unfold lowerLevel
  dsimp only
  split
  · split
    · exact revokeFunc_keeps (hlow _) f _ n
    · exact hlow _
  · exact hlow _

/-! ## Slots, tests and gates that an answer takes in -/

theorem setSlot_guarded (i : SlotId) (x : Option Disturbance) :
    guarded (setSlot i x s) = { guarded s with slotted := (slotRec (setSlot i x s) .dsl).isSome } := rfl

theorem openSlot_guarded {i : SlotId} {w : WorkKind} {p : Option Port} {d : Option Nat} {b : Bool} {id : Byte}
    (h : openSlot i w p d b s = some (t, id)) :
    ∃ occupied, guarded t = { guarded s with slotted := occupied } := by
  unfold openSlot at h
  split at h
  · cases h
  · dsimp only at h
    split at h <;> cases h
    · rw [setSlot_guarded, postSubscribed_guarded, updSched_guarded rfl, setSlot_guarded]
      exact ⟨_, rfl⟩
    · rw [postSubscribed_guarded, updSched_guarded rfl, setSlot_guarded]
      exact ⟨_, rfl⟩

/-- SET DSL's switch is in flight as its slot is opened (R39). -/
theorem openDsl_keeps {w : WorkKind} {p : Option Port} {d : Option Nat} {b : Bool} {n : Byte} (x : DslSwitch)
    (h : openSlot .dsl w p d b s = some (t, n)) : Keeps (guarded s) (guarded (t.setDsl (some x))) := by
  obtain ⟨occupied, ht⟩ := openSlot_guarded h
  have hset : guarded (t.setDsl (some x)) = { guarded s with slotted := occupied, switching := true } :=
    congrArg (fun g => { g with switching := true }) ht
  rw [hset]
  exact ⟨rfl, rfl, id, fun _ _ => rfl, .refl _, fun _ => id, id, id, id, fun _ => id, id, rfl⟩

theorem startTest_keeps (o : Order) (before : State) (hb : Keeps a (guarded before)) (h : Keeps a (guarded s)) :
    Keeps a (guarded (startTest o s before).1) := by
  have hslot : targetSlot o.target ≠ .dsl := by
    cases o.target with
    | exchange => simp [targetSlot]
    | home p => cases p <;> simp [targetSlot, portSlot]
  unfold startTest acceptTest
  split
  · exact hb
  · next u id hu =>
    split at hu
    · cases hu
    · next v n hv =>
      cases hu
      have hopen := openSlot_keeps (a := a) (by simpa using h) hslot hv
      refine startIfActive_keeps (hopen.engineOnly (f := fun e => { e with test := some (newTest o id) }) rfl
        fun hm => ⟨hm.1, ?_⟩) _
      simp [guarded, newTest]

theorem orderOf_limits {k t : Byte} {l : List LimitArg} {o : TestKind × Target × List Limit}
    (h : orderOf k t l = some o) : o.2.2.length ≤ 4 := by
  unfold orderOf at h
  split at h
  · dsimp only at h
    split at h
    · next hv =>
      cases h
      exact limitsValid_length (Bool.and_eq_true _ _ ▸ hv).2
    · cases h
  · cases h

theorem setGate_upholdsAll {n : Nat} {x : Option Gate} (hx : ∀ g, x = some g → g.limits.length ≤ 4) :
    UpholdsAll (guarded s) (guarded (setGate n x s)) := by
  refine ⟨⟨id, id, id, id, id, fun ⟨hc, hw, hf, hd, hm, hg⟩ => ⟨hc, hw, hf, hd, hm, fun m g hmg => ?_⟩⟩, id⟩
  have hset : ∀ y : Quad (Option Gate), (y.set n x).get m = x ∨ (y.set n x).get m = y.get m := by
    intro y
    rcases n with _ | _ | _ | n <;> rcases m with _ | _ | _ | m <;> simp [Quad.set, Quad.get]
  rcases hset s.engine.gates with hm | hm
  · exact hx g (hm.symm.trans hmg)
  · exact hg m g (hm.symm.trans hmg)

theorem withPort_keeps {b : Byte} {serve : Port → Server} (h : Keeps a (guarded s))
    (hs : ∀ p, Keeps a (guarded (serve p s).1)) : Keeps a (guarded (withPort b serve s).1) := by
  unfold withPort
  split
  · exact h
  · split
    · exact hs _
    · exact h

/-! ## The answers of each owner -/

theorem answerTighten_keeps (r : Req) (f n b : Byte) : Keeps (guarded s) (guarded (answerTighten r f n b s).1) := by
  unfold answerTighten
  split
  · exact .refl
  split
  · exact .refl
  split_ifs
  · exact .refl
  · exact .refl
  · exact .refl
  · exact lowerLevel_keeps _ _ _

theorem answerRelease_keeps (r : Req) (f : Byte) : Keeps (guarded s) (guarded (answerRelease r f s).1) := by
  unfold answerRelease
  split
  · exact .refl
  split_ifs
  · exact .refl
  · exact .refl
  · exact releaseFunc_keeps .refl _

theorem answerSetDsl_keeps (r : Req) (c : Byte) : Keeps (guarded s) (guarded (answerSetDsl r c s).1) := by
  unfold answerSetDsl
  split
  · exact .refl
  split_ifs
  · exact .refl
  · exact .refl
  · exact .refl
  · exact .refl
  · exact .refl
  unfold acceptDsl
  split
  · exact .refl
  · next hopen => exact startIfActive_keeps (openDsl_keeps _ hopen) _

theorem answerBraced_keeps (r : Req) (id : Byte) : Keeps (guarded s) (guarded (answerBraced r id s).1) := by
  unfold answerBraced
  split
  · exact .refl
  split
  · exact .refl
  split
  · exact .refl
  · exact activate_keeps .refl _

theorem answerDefer_keeps (r : Req) (id extra : Byte) : Keeps (guarded s) (guarded (answerDefer r id extra s).1) := by
  unfold answerDefer
  split
  · exact .refl
  split
  · exact .refl
  split
  · exact .refl
  · next hd => exact setSlot_some_keeps .refl (.inl (by simp [hd]))

theorem answerTrackerConfig_keeps (r : Req) (e : Byte) (d : Half) :
    Keeps (guarded s) (guarded (answerTrackerConfig r e d s).1) := by
  unfold answerTrackerConfig
  split_ifs
  · exact .refl
  · exact .refl
  dsimp only
  split_ifs <;> simp

theorem answerTrackerRestart_keeps (r : Req) : Keeps (guarded s) (guarded (answerTrackerRestart r s).1) := by
  have hsearch : guarded (s.updTracker toSearch) = guarded s := updTracker_guarded rfl
  unfold answerTrackerRestart
  split
  · exact .refl
  dsimp only
  split_ifs <;> simp [hsearch]

theorem portSlot_ne_dsl (p : Port) : portSlot p ≠ .dsl := by cases p <;> simp [portSlot]

theorem answerSetMode_keeps (r : Req) (p m f : Byte) : Keeps (guarded s) (guarded (answerSetMode r p m f s).1) := by
  unfold answerSetMode
  split
  case h_2 => exact .refl
  refine withPort_keeps .refl fun q => ?_
  unfold decideMode
  dsimp only
  split_ifs
  · exact .refl
  · exact .refl
  · exact .refl
  · exact .refl
  · exact .refl
  · exact .refl
  · exact .refl
  unfold acceptSwitch
  dsimp only
  split
  · exact endSession_keeps .refl _ _ _
  · next hopen =>
    refine startIfActive_keeps ?_ _
    rw [updPort_guarded rfl]
    exact openSlot_keeps (endSession_keeps .refl _ _ _) (portSlot_ne_dsl q) hopen

theorem answerRing_keeps (r : Req) (p c n : Byte) : Keeps (guarded s) (guarded (answerRing r p c n s).1) := by
  refine withPort_keeps .refl fun q => ?_
  unfold decideRing
  dsimp only
  split_ifs
  · exact .refl
  · exact .refl
  · exact .refl
  · exact .refl
  · exact .refl
  · exact .refl
  · exact .refl
  · exact .refl
  · exact .refl
  unfold acceptRing
  split
  · exact .refl
  · next hopen =>
    refine startIfActive_keeps ?_ _
    rw [setSession_guarded]
    exact openSlot_keeps .refl (portSlot_ne_dsl q) hopen

theorem answerRunTest_keeps (r : Req) (k t f : Byte) (l : List LimitArg) :
    Keeps (guarded s) (guarded (answerRunTest r k t f l s).1) := by
  unfold answerRunTest
  split
  · exact .refl
  split
  · exact .refl
  dsimp only
  split_ifs
  · exact .refl
  · exact .refl
  · exact .refl
  · exact .refl
  · exact .refl
  · exact .refl
  · exact .refl
  · exact startTest_keeps _ _ .refl .refl

theorem gatedGrant_keeps (f : Func) (c : Channel) (level gate : Nat) :
    Keeps (guarded s) (guarded (gatedGrant f c level gate s).1) := by
  unfold gatedGrant
  split
  · next hfree =>
    split
    · exact makeHold_keeps _ _ _ _ hfree .refl
    · exact .refl
  · split <;> exact .refl

theorem runGate_keeps (g : Gate) (n : Nat) (c : Channel) (b : Bool) {before : State} (hb : Keeps a (guarded before))
    (h : Keeps a (guarded s)) : Keeps a (guarded (runGate g n c b s before).1) := by
  unfold runGate
  split_ifs
  · exact hb
  · exact hb
  · exact startTest_keeps _ _ hb h

theorem answerRunGatedTest_keeps (r : Req) (g : Byte) : Keeps (guarded s) (guarded (answerRunGatedTest r g s).1) := by
  unfold answerRunGatedTest
  split
  · exact .refl
  split
  · exact .refl
  next x _ =>
  split_ifs
  · exact .refl
  · exact .refl
  · exact .refl
  · exact .refl
  · exact .refl
  have hgrant := gatedGrant_keeps (s := s) (targetFunc x.target) r.channel (effLevel r) g.toNat
  split
  · exact .refl
  · exact .refl
  · next heq => exact runGate_keeps _ _ _ _ .refl (by rwa [heq] at hgrant)
  · next heq => exact runGate_keeps _ _ _ _ .refl (by rwa [heq] at hgrant)

theorem answerAbortTest_keeps (r : Req) : Keeps (guarded s) (guarded (answerAbortTest r s).1) := by
  unfold answerAbortTest
  split
  · exact .refl
  split
  · exact .refl
  · exact abortTest_keeps .refl _

theorem answerInstallGate_upholdsAll (r : Req) (g v k t : Byte) (l : List LimitArg) :
    UpholdsAll (guarded s) (guarded (answerInstallGate r g v k t l s).1) := by
  unfold answerInstallGate
  split_ifs
  · exact .refl
  · exact .refl
  split
  · exact .refl
  next horder =>
  split
  · exact .refl
  · exact setGate_upholdsAll fun x hx => by
      cases hx
      exact orderOf_limits horder

theorem answerRemoveGate_upholdsAll (r : Req) (g : Byte) :
    UpholdsAll (guarded s) (guarded (answerRemoveGate r g s).1) := by
  unfold answerRemoveGate
  split_ifs
  · exact .refl
  · exact .refl
  · exact setGate_upholdsAll fun _ hx => by cases hx

theorem answerReleaseLockout_upholdsAll (r : Req) :
    UpholdsAll (guarded s) (guarded (answerReleaseLockout r s).1) := by
  unfold answerReleaseLockout
  split
  · exact .refl
  split
  · split
    · exact .refl
    · exact endIsolation_upholdsAll _ _ .refl
  · exact .refl

theorem answerClearDial_keeps (r : Req) (p : Byte) : Keeps (guarded s) (guarded (answerClearDial r p s).1) := by
  refine withPort_keeps .refl fun q => ?_
  dsimp only
  split
  · exact .refl
  · exact Keeps.dialOnly .refl fun _ => by simp

theorem answerStopRing_keeps (r : Req) (p : Byte) : Keeps (guarded s) (guarded (answerStopRing r p s).1) := by
  refine withPort_keeps .refl fun q => ?_
  split
  · exact .refl
  split
  · exact .refl
  · exact endSession_keeps .refl _ _ _

/-- The requests whose answer gives something the conditions speak of a new value. -/
def editsGuarded : Instr → Bool
  | .channelReset _ | .claim .. | .release .. | .tighten .. | .setDsl .. | .braced .. | .defer ..
  | .trackerConfig .. | .trackerRestart .. | .setMode .. | .clearDial .. | .ring .. | .stopRing .. | .runTest ..
  | .runGatedTest .. | .abortTest .. | .installGate .. | .removeGate .. | .releaseLockout .. => true
  | _ => false

theorem withPort_guarded {b : Byte} {serve : Port → Server} (hs : ∀ p, guarded (serve p s).1 = guarded s) :
    guarded (withPort b serve s).1 = guarded s := by
  unfold withPort
  split
  · rfl
  · split
    · exact hs _
    · rfl

theorem answer_guarded {i : Instr} (hi : editsGuarded i = false) : guarded (answer i s).1 = guarded s := by
  cases i
  case readPort | readDial => exact withPort_guarded fun _ => rfl
  case setHookTiming =>
    refine withPort_guarded fun q => ?_
    dsimp only
    split_ifs
    · rfl
    · rfl
    · exact updPort_guarded rfl
  case setLead =>
    unfold answer answerSetLead
    dsimp only
    split
    · rfl
    · exact updSched_guarded rfl
  case readDisturbances | readRing | readLog | readGates | queryFunction =>
    simp only [answer, answerReadDisturbances, answerReadRing, answerReadLog, answerReadGates, answerQueryFunction,
      report, refuse]
    split <;> rfl
  case setCadence | setExchangeRingCount | setCable | setClassLevel | clearLog | setLogPolicy | clearCapture |
      startQuiet | endQuiet | saveSettings =>
    simp only [answer, answerSetCadence, answerSetExchangeRingCount, answerSetCable, answerSetClassLevel,
      answerClearLog, answerSetLogPolicy, answerClearCapture, answerStartQuiet, answerEndQuiet, answerSaveSettings,
      report, refuse]
    (repeat' split) <;> simp
  case setMasks | setThreshold | clearPending => simp [answer, answerSetMasks, answerSetThreshold, answerClearPending]
  case readAndClearEdgeCounts => exact updTracker_guarded rfl
  case fetchNotices | subscribe => exact updChannel_guarded _ _
  case channelReset | claim | release | tighten | setDsl | braced | defer | trackerConfig | trackerRestart | setMode |
      clearDial | ring | stopRing | runTest | runGatedTest | abortTest | installGate | removeGate | releaseLockout =>
    cases hi
  all_goals rfl

end

end Sys2Proof.Machine
end

