-- ==== Sys2Proof/Proofs/Steps.lean ====
section
namespace Sys2Proof.Machine

/-! ## Every answer and every frame upholds the conditions -/

section
variable {a : Guarded} {s t : State}

theorem answer_upholdsAll (i : Instr) (s : State) : UpholdsAll (guarded s) (guarded (answer i s).1) := by
  by_cases hi : editsGuarded i = true
  · cases i with
    | channelReset r => exact (channelReset_keeps .refl _).upholdsAll
    | claim r f w z => exact answerClaim_upholdsAll r f w z
    | release r f => exact (answerRelease_keeps r f).upholdsAll
    | tighten r f n b => exact (answerTighten_keeps r f n b).upholdsAll
    | setDsl r c => exact (answerSetDsl_keeps r c).upholdsAll
    | braced r id => exact (answerBraced_keeps r id).upholdsAll
    | defer r id n => exact (answerDefer_keeps r id n).upholdsAll
    | trackerConfig r e d => exact (answerTrackerConfig_keeps r e d).upholdsAll
    | trackerRestart r => exact (answerTrackerRestart_keeps r).upholdsAll
    | setMode r p m f => exact (answerSetMode_keeps r p m f).upholdsAll
    | clearDial r p => exact (answerClearDial_keeps r p).upholdsAll
    | ring r p c n => exact (answerRing_keeps r p c n).upholdsAll
    | stopRing r p => exact (answerStopRing_keeps r p).upholdsAll
    | runTest r k x f l => exact (answerRunTest_keeps r k x f l).upholdsAll
    | runGatedTest r g => exact (answerRunGatedTest_keeps r g).upholdsAll
    | abortTest r => exact (answerAbortTest_keeps r).upholdsAll
    | installGate r g v k x l => exact answerInstallGate_upholdsAll r g v k x l
    | removeGate r g => exact answerRemoveGate_upholdsAll r g
    | releaseLockout r => exact answerReleaseLockout_upholdsAll r
    | _ => cases hi
  · rw [answer_guarded (by simpa using hi)]
    exact .refl

theorem respond_upholdsAll (code tag : Byte) (i : Instr) (s : State) :
    UpholdsAll (guarded s) (guarded (respond code tag (answer i) s).1) :=
  answer_upholdsAll i s

theorem serveFrame_upholdsAll (port : PhysPort) (bytes : List Byte) (s : State) :
    UpholdsAll (guarded s) (guarded (serveFrame port bytes s).1) := by
  unfold serveFrame
  split
  · split
    · exact respond_upholdsAll _ _ _ s
    · exact .refl
  · exact .refl

theorem gatewayTake_upholdsAll {n : Nat} {serve : State → State × List Byte}
    (hserve : ∀ u, UpholdsAll (guarded u) (guarded (serve u).1)) :
    UpholdsAll (guarded s) (guarded (gatewayTake n serve s)) := by
  have hshift := hserve (s.updGateway (·.shiftOut n))
  rw [updGateway_guarded] at hshift
  unfold gatewayTake
  dsimp only
  split
  · rw [updGateway_guarded]
    exact hshift
  · rw [updGateway_guarded]
    exact .refl

theorem modemTake_upholdsAll {serve : State → State × List Byte}
    (hserve : ∀ u, UpholdsAll (guarded u) (guarded (serve u).1)) :
    UpholdsAll (guarded s) (guarded (modemTake serve s)) := by
  unfold modemTake
  dsimp only
  split
  · rw [updModem_guarded]
    exact hserve s
  · exact .refl

theorem arrive_upholdsAll (i : Instr) (s : State) : UpholdsAll (guarded s) (guarded (arrive i (answer i) s)) := by
  unfold arrive
  split
  · exact .refl
  · split
    · exact gatewayTake_upholdsAll (respond_upholdsAll _ _ i)
    · exact modemTake_upholdsAll (respond_upholdsAll _ _ i)

end

/-! ## Every step upholds the conditions -/

section
variable {s t : State}

/-- The events that move the line-break or the isolation state, or start a part. -/
def movesLineBreak : Instr → Bool
  | .powerOnReset _ | .settingsLoadComplete _ | .resetPinAssert | .resetPinRelease _ | .supplyLoss
  | .gatewayTransfer _ | .modemFrame _ | .surge | .hazardAssert | .dwellExpiry => true
  | _ => false

theorem exec_keeps {i : Instr} (hr : isRequest i = false) (hi : movesLineBreak i = false) (s : State) :
    ∃ t, exec i s = .next t ∧ Keeps (guarded s) (guarded t) := by
  cases i
  case modemResponseSent | thermalDeassert | hazardDeassert | modemBadLength =>
    exact ⟨_, rfl, by simp [setModemPartial]⟩
  case claimDeadlineExpiry | changeSetComplete | leadExpiry | blankingWindowRemoval | impulseEdge |
      deadTimeExpiry | edgeClassification | acquireExpiry | windowCheck | feedOverLimitChange | feedDenial |
      probeStart | probeEnd | loopChange | seizeTimerExpiry | breakTimerExpiry | digitGapExpiry |
      ringPhaseTimerExpiry | ringTripInputChange | tripTimerExpiry | ringCurrentLimitChange |
      ringFaultTimerExpiry | exchangeRingOnset | exchangeRingOffset | callGapExpiry | cleanTimerExpiry |
      wallTimerExpiry | thermalAssert | exchangeDcLowChange |
      batteryWatchExpiry | quietExpiry | mainsInputChange | reserveInputChange | writeCompletion |
      portResetRelease =>
    refine ⟨_, rfl, ?_⟩
    (repeat' split) <;> simp -implicitDefEqProofs
  case portResetAssert port =>
    have hport : ∀ u, guarded u = guarded s →
        Keeps (guarded s) (guarded (if awake u then channelReset (channelsOf port) u else u)) := by
      intro u hu
      split
      · exact channelReset_keeps (by rw [hu]; exact .refl) _
      · rw [hu]
        exact .refl
    exact ⟨_, rfl, hport _ (by cases port <;> simp)⟩
  case modemByteGapTimeout | modemStopBitError =>
    refine ⟨_, rfl, ?_⟩
    unfold modemTake setModemPartial serveMalformed
    dsimp only
    split <;> simp
  case powerOnReset | settingsLoadComplete | resetPinAssert | resetPinRelease | supplyLoss | gatewayTransfer |
      modemFrame | surge | hazardAssert | dwellExpiry => cases hi
  all_goals cases hr

theorem exec_upholdsAll {i : Instr} (he : exec i s = .next t) : UpholdsAll (guarded s) (guarded t) := by
  by_cases hr : isRequest i = true
  · rw [exec_request hr] at he
    cases he
    exact arrive_upholdsAll i s
  by_cases hi : movesLineBreak i = false
  · obtain ⟨t', he', ht⟩ := exec_keeps (by simpa using hr) hi s
    rw [he'] at he
    cases he
    exact ht.upholdsAll
  cases i with
  | powerOnReset x =>
    cases he
    exact powerOn_upholdsAll x
  | settingsLoadComplete b =>
    cases he
    split
    · exact loadCompletes_upholdsAll b
    · exact .refl
  | resetPinAssert =>
    cases he
    split
    · exact .refl
    · exact resetPinValues_upholdsAll
  | resetPinRelease x =>
    cases he
    split
    · exact resetPinRestart_upholdsAll x
    · exact .refl
  | supplyLoss =>
    cases he
    exact powerOnValues_upholdsAll
  | gatewayTransfer bytes =>
    cases he
    split
    · rw [updGateway_guarded, setGatewayPartial, updGateway_guarded]
      exact .refl
    · exact gatewayTake_upholdsAll (s := setGatewayPartial [] s) (serveFrame_upholdsAll _ _)
  | modemFrame bytes =>
    cases he
    exact modemTake_upholdsAll (s := setModemPartial [] s) (serveFrame_upholdsAll _ _)
  | surge =>
    cases he
    split
    · exact hardEvent_upholdsAll _ _ .refl
    · exact .refl
  | hazardAssert =>
    cases he
    split
    · exact hardEvent_upholdsAll _ _ (by rw [updPins_guarded]; exact .refl)
    · rw [updPins_guarded]
      exact .refl
  | dwellExpiry =>
    cases he
    split
    · next hi =>
      split
      · exact dwellEnds_upholdsAll _ _ _ (by simp [hi]) .refl
      · exact .refl
    · exact .refl
  | _ => exact absurd rfl hi

/-- The passing of time lets windows that stand open slide, and takes nothing else the conditions speak of. -/
theorem tick_upholdsAll (s : State) : UpholdsAll (guarded s) (guarded (tick s)) := by
  have hrun : Keeps (guarded s) (guarded (tickRunning s)) := by
    unfold tickRunning
    dsimp only
    rw [setOccasion_guarded, setPending_guarded, updSched_guarded rfl]
    exact Keeps.windowsOnly .refl slideWindows_sound (by simp)
  unfold tick
  split
  · exact .refl
  · exact .refl
  · exact hrun.upholdsAll
  · exact hrun.upholdsAll

theorem step_upholdsAll (h : step s = .next t) : UpholdsAll (guarded s) (guarded t) := by
  unfold step takeFront at h
  split at h
  · cases h
    exact tick_upholdsAll s
  · next c rest _ => exact exec_upholdsAll (s := s.setPending rest) h

/-- Settles O54: what a step does upholds the three conditions together with the others, part by part. -/
theorem relaysStaySafe : Obligations.RelaysStaySafe := by
  intro s t h
  have hup := step_upholdsAll h
  exact ⟨hup.bus, hup.lineBreak, hup.slotted⟩

/-- Settles O55: a claim enters the queue for a function that another channel holds, and a hold that is taken away is
passed on before the step ends. -/
theorem claimQueueStaysSound : Obligations.ClaimQueueStaysSound := by
  intro s t h
  have hup := step_upholdsAll h
  exact ⟨fun hs => claimsSound_iff.mpr (hup.claims (claimsSound_iff.mp hs)), hup.ordered⟩

/-- Settles O59: a window is added after its key has been closed and with room for it, and each list has its bound where
it grows. -/
theorem windowsAndListsStayBounded : Obligations.WindowsAndListsStayBounded := by
  intro s t h
  have hup := step_upholdsAll h
  exact ⟨hup.windows, fun hs => listsBounded_iff.mpr (hup.bounded (listsBounded_iff.mp hs))⟩

end

end Sys2Proof.Machine
end

