-- ==== Sys2Proof/Proofs/ClaimDecisions.lean ====
section
namespace Sys2Proof.Machine

/-! ## What a taken request's answer makes of the state -/

section
variable {i : Instr} {s t : State}

@[simp] theorem frameIn_parts (i : Instr) (s : State) :
    (frameIn i s).pending = s.pending ∧ (frameIn i s).phase = s.phase ∧ (frameIn i s).clock = s.clock ∧
      (frameIn i s).pins = s.pins ∧ (frameIn i s).twoPorts = s.twoPorts ∧ (frameIn i s).modem = s.modem ∧
      (frameIn i s).lines = s.lines ∧ (frameIn i s).relays = s.relays ∧ (frameIn i s).settles = s.settles ∧
      (frameIn i s).dsl = s.dsl ∧ (frameIn i s).sched = s.sched ∧ (frameIn i s).tracker = s.tracker ∧
      (frameIn i s).ports = s.ports ∧ (frameIn i s).ring = s.ring ∧ (frameIn i s).engine = s.engine ∧
      (frameIn i s).faults = s.faults ∧ (frameIn i s).power = s.power ∧ (frameIn i s).store = s.store ∧
      (frameIn i s).occasion = s.occasion := by
  unfold frameIn
  split <;> simp

@[simp] theorem answered_parts (i : Instr) (o : Code) (l : List Byte) (s : State) :
    (answered i o l s).pending = s.pending ∧ (answered i o l s).phase = s.phase ∧
      (answered i o l s).clock = s.clock ∧ (answered i o l s).pins = s.pins ∧
      (answered i o l s).twoPorts = s.twoPorts ∧ (answered i o l s).lines = s.lines ∧
      (answered i o l s).relays = s.relays ∧ (answered i o l s).settles = s.settles ∧
      (answered i o l s).dsl = s.dsl ∧ (answered i o l s).sched = s.sched ∧
      (answered i o l s).tracker = s.tracker ∧ (answered i o l s).ports = s.ports ∧
      (answered i o l s).ring = s.ring ∧ (answered i o l s).engine = s.engine ∧
      (answered i o l s).faults = s.faults ∧ (answered i o l s).power = s.power ∧
      (answered i o l s).store = s.store ∧ (answered i o l s).occasion = s.occasion := by
  unfold answered
  split <;> simp

/-- A state whose other parts stand is `s` with these parts of its own. -/
theorem eq_with_of_kept (h : t.pending = s.pending ∧ t.phase = s.phase ∧ t.clock = s.clock ∧ t.pins = s.pins ∧
    t.twoPorts = s.twoPorts ∧ t.dsl = s.dsl ∧ t.power = s.power ∧ t.store = s.store ∧ t.occasion = s.occasion) :
    t = { s with
      gateway := t.gateway, modem := t.modem, channels := t.channels, lines := t.lines, relays := t.relays
      settles := t.settles, sched := t.sched, tracker := t.tracker, ports := t.ports, ring := t.ring
      engine := t.engine, faults := t.faults } := by
  cases s
  cases t
  simpa using h

@[simp] theorem frameIn_now (i : Instr) (s : State) : (frameIn i s).now = s.now := by simp [State.now]

@[simp] theorem frameIn_uptime (i : Instr) (s : State) : (frameIn i s).uptime = s.uptime := by simp [State.uptime]

/-- The answer that a request's owner gives to a taken frame, with the state it leaves. -/
theorem exec_of_answer {o : Code} {results : List Byte} (h : frameTaken i s) (hr : isRequest i = true)
    (ha : answer i (frameIn i s) = (t, ⟨o, results⟩)) : exec i s = .next (answered i o results t) := by
  rw [exec_of_taken h hr, ha]

end

/-! ## Functions and claims as requests name them (R11, R24) -/

theorem funcOf_of_four_lt {b : Byte} (h : 4 < b.toNat) : funcOf b = none := by
  unfold funcOf
  split
  case h_6 => rfl
  all_goals omega

theorem funcOf_of_toNat {b : Byte} {f : Func} (h : b.toNat = funcNum f) : funcOf b = some f := by
  unfold funcOf
  rw [h]
  cases f <;> rfl

theorem byte_of_toNat {b : Byte} {n : Nat} (h : b.toNat = n) : byte n = b := by
  rw [← h, byte, BitVec.ofNat_toNat, BitVec.setWidth_eq]

theorem funcFitted_iff {s : State} {f : Func} : funcFitted s f = true ↔ (f = .port2 → s.twoPorts = true) := by
  cases f <;> simp [funcFitted]

theorem funcFitted_eq_false_iff {s : State} {f : Func} : funcFitted s f = false ↔ f = .port2 ∧ s.twoPorts = false := by
  cases f <;> simp [funcFitted]

theorem isClaim_iff {c : Channel} {f : Func} {e : ClaimEntry} : isClaim c f e = true ↔ e.channel = c ∧ e.function = f := by
  simp [isClaim]

/-- A channel's new claim stands right behind the claims it joins behind. -/
theorem claimPosition_of_new {c : Channel} {f : Func} {ahead behind : List ClaimEntry} {e : ClaimEntry}
    (he : isClaim c f e = true) (hnew : ∀ x ∈ ahead, isClaim c f x = false) :
    claimPosition c f (ahead ++ e :: behind) = ahead.length + 1 := by
  have hnone : ahead.findIdx? (isClaim c f) = none := by simpa [List.findIdx?_eq_none_iff] using hnew
  simp [claimPosition, List.findIdx?_append, hnone, List.findIdx?_cons, he]

/-! ## CLAIM -/

section
variable {r : Req} {b seize : Byte} {wait : Half} {f : Func} {s : State}

/-- Checks 1 to 3 of CLAIM pass (R25). -/
structure Claimable (r : Req) (b : Byte) (f : Func) (s : State) : Prop where
  named : funcOf b = some f
  fitted : funcFitted s f = true
  level : effLevel r ≤ (funcRec s f).level

section
variable (hc : Claimable r b f s)
include hc

theorem answerClaim_of_free (hhold : (funcRec s f).hold = none) : answerClaim r b wait seize s =
    (makeHold f r.channel (effLevel r) none s, ⟨.ok, claimResults f 1 (min wait.toNat 10000) 0⟩) := by
  simp [answerClaim, hc.named, hc.fitted, hc.level.not_gt, hhold]

variable {h : Hold} (hhold : (funcRec s f).hold = some h)
include hhold

theorem answerClaim_of_own (hown : h.holder = r.channel) : answerClaim r b wait seize s =
    (updFunc f (fun x => { x with hold := some { h with viaGate := none } }) s,
      ⟨.ok, claimResults f 0 (min wait.toNat 10000) 0⟩) := by
  simp [answerClaim, hc.named, hc.fitted, hc.level.not_gt, hhold, hown]

variable (hother : h.holder ≠ r.channel)
include hother

theorem answerClaim_of_seize (hseize : seize ≠ 0 ∧ effLevel r < h.level) : answerClaim r b wait seize s =
    (seizeFunc f h r.channel (effLevel r) s, ⟨.ok, claimResults f 2 (min wait.toNat 10000) 0⟩) := by
  simp only [answerClaim, hc.named, hc.fitted, hc.level.not_gt, hhold, if_neg hother, if_pos hseize, if_false,
    Bool.not_true, Bool.false_eq_true]

theorem answerClaim_of_wait (hseize : ¬(seize ≠ 0 ∧ effLevel r < h.level)) : answerClaim r b wait seize s =
    waitFor f r.channel (effLevel r) (min wait.toNat 10000) s := by
  simp only [answerClaim, hc.named, hc.fitted, hc.level.not_gt, hhold, if_neg hother, if_neg hseize, if_false,
    Bool.not_true, Bool.false_eq_true]

end

theorem answerClaim_of_low (hn : funcOf b = some f) (hfit : funcFitted s f = true)
    (hlevel : (funcRec s f).level < effLevel r) : answerClaim r b wait seize s = (s, ⟨.privilege, []⟩) := by
  simp [answerClaim, hn, hfit, hlevel, refuse]

/-- The results of a claim, with the function's number as the request gave it. -/
theorem claimResults_of_toNat (hb : b.toNat = funcNum f) (result wait position : Nat) : claimResults f result wait position =
    [b, byte result] ++ halfBytes (BitVec.ofNat 16 wait) ++ [BitVec.ofNat 8 position] := by
  simp only [claimResults, byte_of_toNat hb, half16]
  rfl

end

/-- Settles O15: each check refuses where the earlier ones pass, and a claim's place is `insertClaim_split`'s. -/
theorem claimIsDecidedInOrder : Obligations.ClaimIsDecidedInOrder := by
  intro r b wait seize s htaken i u level used refused results
  have hexec {o : Code} {l : List Byte} {t : State} (ha : answerClaim r b wait seize u = (t, ⟨o, l⟩)) :
      exec i s = .next (answered i o l t) := exec_of_answer htaken rfl ha
  refine ⟨fun hb => hexec ?_, fun f hb => ?_⟩
  · simp [answerClaim, funcOf_of_four_lt hb, refuse]
  intro e entry
  have hf := funcOf_of_toNat hb
  have hrec : funcRec u f = e := by simp [u, e, funcRec]
  have hresults := claimResults_of_toNat hb
  refine ⟨fun hfit => hexec ?_, fun hfit => ?_⟩
  · have hfit : funcFitted u f = false := funcFitted_eq_false_iff.mpr (by simpa [u] using hfit)
    simp [answerClaim, hf, hfit, refuse]
  have hfit : funcFitted u f = true := funcFitted_iff.mpr (by simpa [u] using hfit)
  refine ⟨fun hlevel => hexec (answerClaim_of_low hf hfit (hrec ▸ hlevel)), fun hlevel => ?_⟩
  have hclaim : Claimable r b f u := ⟨hf, hfit, hrec ▸ hlevel⟩
  refine ⟨fun hhold => hexec ?_, fun h hhold hown => hexec ?_, fun h hhold hother hseize => ?_⟩
  · rw [answerClaim_of_free hclaim (hrec ▸ hhold), hresults]
    simp [makeHold, updFunc, State.updLines, u, e, level, used, results, byte]
  · rw [answerClaim_of_own hclaim (hrec ▸ hhold) hown, hresults]
    simp [updFunc, State.updLines, u, e, used, results, byte]
  have hwait := answerClaim_of_wait (wait := wait) hclaim (hrec ▸ hhold) hother hseize
  have hmine : u.lines.claims.any (isClaim r.channel f) = true ↔
      ∃ x ∈ s.lines.claims, x.channel = r.channel ∧ x.function = f := by simp [u, isClaim_iff]
  refine ⟨fun h0 => hexec ?_, fun h0 => ⟨fun hx => hexec ?_, fun hnew => ?_⟩⟩
  · simp [hwait, waitFor, show min wait.toNat 10000 = 0 from h0, refuse]
  · simp [hwait, waitFor, show min wait.toNat 10000 ≠ 0 from h0, hmine.mpr hx, refuse]
  have hnone : u.lines.claims.any (isClaim r.channel f) = false := by
    rw [Bool.eq_false_iff, ne_eq, hmine]
    exact fun ⟨x, hx, hxf⟩ => hnew x hx hxf
  have hjoin : waitFor f r.channel (effLevel r) used u = if 8 ≤ s.lines.claims.length then (u, ⟨.queueFull, []⟩) else
      enterClaim f r.channel (effLevel r) used u := by
    rw [waitFor, if_neg h0, hnone, if_neg Bool.false_ne_true]
    simp [refuse, u]
  refine ⟨fun hfull => hexec ?_, fun hroom => ?_⟩
  · rw [hwait, hjoin, if_pos hfull]
  obtain ⟨ahead, behind, hsplit, hinsert, hahead, hbehind⟩ := insertClaim_split entry s.lines.claims
  refine ⟨ahead, behind, hsplit, hahead, fun ho => ?_, hexec ?_⟩
  · have ho : (ahead ++ behind).Pairwise (fun x y => x.level ≤ y.level) := hsplit ▸ ho
    cases behind with
    | nil => simp
    | cons y rest =>
      have hy := hbehind y rfl
      have hrest := (List.pairwise_cons.mp (List.pairwise_append.mp ho).2.1).1
      simpa using ⟨hy, fun x hx => hy.trans_le (hrest x hx)⟩
  · have hposition : claimPosition r.channel f (ahead ++ entry :: behind) = ahead.length + 1 :=
      claimPosition_of_new (isClaim_iff.mpr ⟨rfl, rfl⟩) fun x hx => by
        rw [Bool.eq_false_iff, ne_eq, isClaim_iff]
        exact hnew x (hsplit ▸ List.mem_append_left _ hx)
    have hnow : u.now = s.now := frameIn_now i s
    have hclaims : u.lines.claims = s.lines.claims := by simp [u]
    rw [hwait, hjoin, if_neg (by omega), enterClaim, hnow, hclaims, hinsert, hposition, hresults]
    rfl

end Sys2Proof.Machine
end

