-- ==== Sys2Proof/Proofs/Emits.lean ====
section
namespace Sys2Proof.Machine

/-! ## Notices measured one by one

`Queued` tells what kinds of notices an operation hands; `Emits` tells it notice by notice, for the statements about a
port's notices or a reason's. -/

/-- Some notices that satisfy `P` make the channels `b` of the channels `a`, each queued as it was handed. -/
structure Emits (P : Notice → Prop) (a b : PerChan ChannelRec) : Prop where
  each : ∀ c, Relation.ReflTransGen (fun x y => ∃ n, P n ∧ y = enqueue n x) (a.get c) (b.get c)

section
variable {P Q : Notice → Prop} {a b d : PerChan ChannelRec} {s : State}

@[simp] theorem Emits.refl : Emits P a a := ⟨fun _ => .refl⟩

theorem Emits.trans (h : Emits P a b) (h' : Emits P b d) : Emits P a d := ⟨fun c => (h.each c).trans (h'.each c)⟩

theorem Emits.mono (h : Emits P a b) (hPQ : ∀ n, P n → Q n) : Emits Q a b :=
  ⟨fun c => Relation.ReflTransGen.mono (fun _ _ ⟨n, hn, he⟩ => ⟨n, hPQ n hn, he⟩) _ _ (h.each c)⟩

theorem Queued.emits {K : Kind → Bool} (h : Queued K a b) : Emits (fun n => K n.kind = true) a b := ⟨h.each⟩

theorem post_emits {n : Notice} {receives : Channel → Bool} (hn : P n) (h : Emits P a s.channels) :
    Emits P a (post n receives s).channels := by
  refine h.trans ⟨fun c => ?_⟩
  rw [post_channels_get]
  split
  · exact .single ⟨n, hn, rfl⟩
  · exact .refl

theorem postSubscribed_emits {n : Notice} (hn : P n) (h : Emits P a s.channels) :
    Emits P a (postSubscribed n s).channels := post_emits hn h

theorem postCompletion_emits {n : Notice} {c : Channel} (hn : P n) (h : Emits P a s.channels) :
    Emits P a (postCompletion n c s).channels := post_emits hn h

end

/-! ## Handing exactly these notices of a sort -/

/-- Of the notices of a sort, a channel was handed exactly those given: a full queue may have lost some, which its lost
flag then says (R15, R17). -/
structure Taken (sort : Notice → Bool) (given : List Notice) (x y : ChannelRec) : Prop where
  subs : y.subs = x.subs
  lost : y.lost = false → x.lost = false
  only : ∀ n ∈ y.queue, sort n = true → n ∈ x.queue ∨ n ∈ given
  all : y.lost = false → (y.queue.filter sort).Perm (x.queue.filter sort ++ given)

/-- Of the notices of a sort, the channels were handed exactly those given. -/
def HandsOut (sort : Notice → Bool) (given : Channel → List Notice) (a b : PerChan ChannelRec) : Prop :=
  ∀ c, Taken sort (given c) (a.get c) (b.get c)

/-- No notice of the sort supersedes another (R16). -/
def lasting (sort : Notice → Bool) : Prop := ∀ n, sort n = true → n.kind.supersedes = false

section
variable {sort : Notice → Bool} {x y z : ChannelRec} {l m : List Notice}

theorem Taken.refl : Taken sort [] x x := ⟨rfl, id, fun _ h _ => .inl h, fun _ => by simp⟩

theorem Taken.trans (h : Taken sort l x y) (h' : Taken sort m y z) : Taken sort (l ++ m) x z where
  subs := h'.subs.trans h.subs
  lost := fun hz => h.lost (h'.lost hz)
  only := fun n hn hs => by
    rcases h'.only n hn hs with hy | hm
    · exact (h.only n hy hs).imp_right (List.mem_append_left _)
    · exact .inr (List.mem_append_right _ hm)
  all := fun hz => by
    rw [← List.append_assoc]
    exact (h'.all hz).trans ((h.all (h'.lost hz)).append_right m)

/-- What one notice can do to a queue, but for a notice of its own superseding kind that it replaces. -/
theorem enqueue_perm (n : Notice) (x : ChannelRec) :
    (∃ held rest, n.kind.supersedes = true ∧ held.kind = n.kind ∧ x.queue.Perm (held :: rest) ∧
      (enqueue n x).queue.Perm (n :: rest)) ∨
    (enqueue n x).queue.Perm (n :: x.queue) ∨
    (enqueue n x).lost = true ∧ ∀ m ∈ (enqueue n x).queue, m = n ∨ m ∈ x.queue := by
  obtain ⟨front, held, back, hq, hk, hsup, -, he⟩ | ⟨-, ⟨-, he⟩ | ⟨front, last, hq, -, he⟩ | he⟩ := enqueue_cases n x
  · refine .inl ⟨held, front ++ back, hsup, hk, hq ▸ List.perm_middle, ?_⟩
    rw [he]
    exact insertNotice_perm _ _
  · refine .inr (.inl ?_)
    rw [he]
    exact insertNotice_perm _ _
  · refine .inr (.inr ?_)
    rw [he]
    refine ⟨rfl, fun m hm => ?_⟩
    have := List.mem_cons.mp ((insertNotice_perm n front).mem_iff.mp hm)
    rw [hq]
    simp
    tauto
  · refine .inr (.inr ?_)
    rw [he]
    exact ⟨rfl, fun m hm => .inr hm⟩

/-- A notice of another sort. -/
theorem taken_other {n : Notice} (hs : lasting sort) (hn : sort n = false) : Taken sort [] x (enqueue n x) where
  subs := enqueue_subs n x
  lost := lost_of_enqueue
  only := fun m hm hsort => by
    have hmn : m ≠ n := fun h => by simp [← h, hsort] at hn
    obtain ⟨held, rest, -, -, hx, he⟩ | he | ⟨-, he⟩ := enqueue_perm n x
    · exact .inl (hx.mem_iff.mpr (List.mem_cons_of_mem _
        ((List.mem_cons.mp (he.mem_iff.mp hm)).resolve_left hmn)))
    · exact .inl ((List.mem_cons.mp (he.mem_iff.mp hm)).resolve_left hmn)
    · exact .inl ((he m hm).resolve_left hmn)
  all := fun hl => by
    rw [List.append_nil]
    obtain ⟨held, rest, hsup, hk, hx, he⟩ | he | ⟨hlost, -⟩ := enqueue_perm n x
    · have hheld : sort held = false := by
        by_contra h
        have := hs held (by simpa using h)
        simp [hk, hsup] at this
      have h1 := he.filter sort
      have h2 := hx.filter sort
      rw [List.filter_cons_of_neg (by simp [hn])] at h1
      rw [List.filter_cons_of_neg (by simp [hheld])] at h2
      exact h1.trans h2.symm
    · have := he.filter sort
      rwa [List.filter_cons_of_neg (by simp [hn])] at this
    · simp [hlost] at hl

/-- A notice of the sort. -/
theorem taken_one {n : Notice} (hs : lasting sort) (hn : sort n = true) : Taken sort [n] x (enqueue n x) where
  subs := enqueue_subs n x
  lost := lost_of_enqueue
  only := fun m hm _ => by
    obtain ⟨held, rest, hsup, -⟩ | he | ⟨-, he⟩ := enqueue_perm n x
    · simp [hs n hn] at hsup
    · exact (List.mem_cons.mp (he.mem_iff.mp hm)).symm.imp_right (by simp)
    · exact (he m hm).symm.imp_right (by simp)
  all := fun hl => by
    obtain ⟨held, rest, hsup, -⟩ | he | ⟨hlost, -⟩ := enqueue_perm n x
    · simp [hs n hn] at hsup
    · have := he.filter sort
      rw [List.filter_cons_of_pos hn] at this
      exact this.trans (List.perm_append_singleton n _).symm
    · simp [hlost] at hl

end

section
variable {sort : Notice → Bool} {P : Notice → Prop} {a b d : PerChan ChannelRec} {l m : Channel → List Notice}
  {s t : State}

theorem HandsOut.trans (h : HandsOut sort l a b) (h' : HandsOut sort m b d) :
    HandsOut sort (fun c => l c ++ m c) a d := fun c => (h c).trans (h' c)

/-- Nothing more of the sort was handed. -/
theorem HandsOut.trans_nil (h : HandsOut sort l a b) (h' : HandsOut sort (fun _ => []) b d) : HandsOut sort l a d := by
  simpa using h.trans h'

/-- Nothing of the sort had been handed before. -/
theorem HandsOut.nil_trans (h : HandsOut sort (fun _ => []) a b) (h' : HandsOut sort l b d) : HandsOut sort l a d := by
  simpa using h.trans h'

/-- Notices of other sorts. -/
theorem Emits.handsOut (h : Emits P a b) (hs : lasting sort) (hP : ∀ n, P n → sort n = false) :
    HandsOut sort (fun _ => []) a b := fun c => by
  have hg := h.each c
  generalize b.get c = y at hg ⊢
  induction hg with
  | refl => exact .refl
  | tail _ hstep ih =>
    obtain ⟨n, hn, rfl⟩ := hstep
    exact ih.trans (taken_other hs (hP n hn))

/-- A notice of the sort reaches the channels that receive it. -/
theorem post_handsOut {n : Notice} (receives : Channel → Bool) (hs : lasting sort) (hn : sort n = true) :
    HandsOut sort (fun c => if receives c = true then [n] else []) s.channels (post n receives s).channels := fun c => by
  rw [post_channels_get]
  dsimp only
  split
  · exact taken_one hs hn
  · exact .refl

theorem HandsOut.each (h : HandsOut sort l s.channels t.channels) : handsEach sort l s t :=
  fun c => ⟨(h c).only, (h c).all⟩

theorem HandsOut.subs (h : HandsOut sort l a b) (c : Channel) : (b.get c).subs = (a.get c).subs := (h c).subs

end

/-! ## Handings of a sort -/

/-- Of the notices of a sort, the channels were handed exactly `l`. -/
def HandsTo (sort : Notice → Bool) (l : List Handing) (a b : PerChan ChannelRec) : Prop :=
  HandsOut sort (fun c => told c (a.get c).subs l) a b

section
variable {sort : Notice → Bool} {P : Notice → Prop} {a b d : PerChan ChannelRec} {l m : List Handing} {s t : State}

theorem HandsTo.hands (h : HandsTo sort l s.channels t.channels) : hands sort l s t := h.each

theorem HandsTo.refl : HandsTo sort [] a a := fun _ => .refl

theorem HandsTo.trans (h : HandsTo sort l a b) (h' : HandsTo sort m b d) : HandsTo sort (l ++ m) a d := fun c => by
  have hm : Taken sort (told c (b.get c).subs m) (b.get c) (d.get c) := h' c
  rw [(h c).subs] at hm
  show Taken sort (told c (a.get c).subs (l ++ m)) _ _
  rw [told_append]
  exact (h c).trans hm

theorem HandsTo.trans_nil (h : HandsTo sort l a b) (h' : HandsTo sort [] b d) : HandsTo sort l a d := by
  simpa using h.trans h'

theorem HandsTo.nil_trans (h : HandsTo sort [] a b) (h' : HandsTo sort l b d) : HandsTo sort l a d := by
  simpa using h.trans h'

theorem Emits.handsTo (h : Emits P a b) (hs : lasting sort) (hP : ∀ n, P n → sort n = false) : HandsTo sort [] a b :=
  h.handsOut hs hP

theorem told_singleton (c : Channel) (subs : BitVec 32) (x : Handing) :
    told c subs [x] = if (decide (x.2 = some c) || subs.getLsbD x.1.kind.code) = true then [x.1] else [] := by
  unfold told
  rw [List.filter_cons]
  split <;> rfl

theorem postCompletion_handsTo {n : Notice} {c : Channel} (hs : lasting sort) (hn : sort n = true) :
    HandsTo sort [(n, some c)] s.channels (postCompletion n c s).channels := fun d => by
  have h := post_handsOut (s := s) (fun d => decide (d = c) || subscribed (s.channels.get d) n.kind) hs hn d
  have hc : decide (some c = some d) = decide (d = c) := by simp [eq_comm]
  dsimp only at h ⊢
  rw [told_singleton, hc]
  exact h

theorem postSubscribed_handsTo {n : Notice} (hs : lasting sort) (hn : sort n = true) :
    HandsTo sort [(n, none)] s.channels (postSubscribed n s).channels := fun d => by
  have h := post_handsOut (s := s) (fun d => subscribed (s.channels.get d) n.kind) hs hn d
  have hd : decide ((none : Option Channel) = some d) = false := by simp
  dsimp only at h ⊢
  rw [told_singleton, hd, Bool.false_or]
  exact h

end

end Sys2Proof.Machine
end

