-- ==== Sys2Proof/Proofs/EmitsOfPorts.lean ====
section
namespace Sys2Proof.Machine

/-! ## What the hook supervision and the ends of sessions and records hand -/

/-- The notices that a port's loop can bring: HOOK with reason LOOP, DIGIT, and UNPLANNED HOOK_RELEASE (R57, R116,
R117). -/
def LoopNotice (p : Port) (n : Notice) : Prop :=
  n.kind = .hook ∧ n.subject = byte (portNum p) ∧ n.flags.toNat / 16 = 1 ∨
    n.kind = .digit ∧ n.subject = byte (portNum p) ∨ n.kind = .unplanned ∧ n.subject = byte Unplanned.hookRelease.code

/-- The reason stands in the high half of HOOK's flags (R116). -/
theorem hookFlags_reason (off lifeline : Bool) (why : HookReason) :
    (byte (bitOf 0 off + bitOf 1 lifeline + 16 * why.code)).toNat / 16 = why.code := by
  cases off <;> cases lifeline <;> cases why <;> rfl

section
variable {s : State}

theorem judgeWatch_channels : (judgeWatch s).channels = s.channels := by simp
theorem judgeRingFault_channels : (judgeRingFault s).channels = s.channels := by simp
theorem setSession_channels {p : Port} {x : Option RingSession} : (setSession p x s).channels = s.channels := rfl
theorem updSession_channels {p : Port} {f : RingSession → RingSession} : (updSession p f s).channels = s.channels := rfl

end

section
variable {P : Notice → Prop} {a : PerChan ChannelRec} {s t : State}

section
variable {p : Port} (hP : ∀ n, LoopNotice p n → P n) (h : Emits P a s.channels)
include hP h

theorem digitNotice_emits (e f u : Bool) (v n : Nat) : Emits P a (digitNotice p e f u v n s).channels :=
  postSubscribed_emits (hP _ (.inr (.inl ⟨rfl, rfl⟩))) h

theorem recordEntry_emits (e : DialEntry) (n : Nat) : Emits P a (recordEntry p e n s).channels := by
  unfold recordEntry
  split
  · exact h
  · exact digitNotice_emits hP (by simpa using h) _ _ _ _ _

theorem completeDigit_emits : Emits P a (completeDigit p s).channels := by
  unfold completeDigit
  dsimp only
  split
  · exact h
  split
  · simpa using recordEntry_emits hP h _ _
  split
  · simpa using h
  · simpa using digitNotice_emits hP h _ _ _ _ _

theorem releasePort_emits : Emits P a (releasePort p s).channels := by
  unfold releasePort
  dsimp only
  rw [judgeWatch_channels]
  have hhook (u : State) (hu : Emits P a u.channels) (d : Time) : Emits P a (hookNotice p false .loop d u).channels :=
    postSubscribed_emits (hP _ (.inl ⟨rfl, rfl, hookFlags_reason _ _ _⟩)) hu
  split
  · exact postSubscribed_emits (hP _ (.inr (.inr ⟨rfl, rfl⟩))) (hhook _ (by simpa using h) _)
  · exact hhook _ (by simpa using h) _

theorem endBreak_emits : Emits P a (endBreak p s).channels := by
  have hmake (u : State) : (makeAgain p u).channels = u.channels := by simp [makeAgain]
  have hflash := recordEntry_emits hP
    (s := (completeDigit p s).updSup p (fun u => { u with gapTimer := .stopped }))
    (by simpa using completeDigit_emits hP h) .flash 0
  have hrelease := releasePort_emits hP h
  unfold endBreak
  dsimp only
  split_ifs
  · rwa [hmake]
  · rw [hmake]
    simpa using h
  · rwa [hmake]
  · rw [hmake]
    exact recordEntry_emits hP h _ _
  · simpa [beginSeizing] using hrelease

theorem takeLoop_emits (b : Bool) : Emits P a (takeLoop p b s).channels := by
  have hseen : ∀ u : State, u.channels = s.channels → Emits P a u.channels := fun u hu => hu ▸ h
  unfold takeLoop
  dsimp only
  split
  · exact hseen _ (by split <;> simp [beginSeizing])
  · exact hseen _ (by split <;> simp)
  · exact hseen _ (by split <;> simp [beginBreak])
  · exact endBreak_emits hP (hseen _ (by split <;> simp))
  · exact hseen _ (by split <;> simp)

theorem senseLoop_emits : Emits P a (senseLoop p s).channels := by
  unfold senseLoop
  split
  · exact takeLoop_emits hP h _
  · exact h

theorem unmask_emits : Emits P a (unmask p s).channels := by
  unfold unmask
  split_ifs
  · simpa using h
  · exact senseLoop_emits hP (by simpa using h)
  · exact h

theorem endBurst_emits (x : RingState) : Emits P a (endBurst p x s).channels := by
  unfold endBurst
  dsimp only
  rw [judgeRingFault_channels]
  exact unmask_emits hP (by simpa using h)

theorem portAfterChange_emits (c : Change) (x : Asker) : Emits P a (portAfterChange c x p s).channels := by
  unfold portAfterChange
  exact senseLoop_emits hP (by simpa using h)

end

section
variable (hP : ∀ p n, LoopNotice p n → P n) (h : Emits P a s.channels)
include hP h

theorem applyChange_emits {c : Change} {x : Asker} {id : Byte} (ht : applyChange c x id s = some t) :
    Emits P a t.channels := by
  unfold applyChange at ht
  dsimp only at ht
  split at ht <;> cases ht
  rw [judgeWatch_channels]
  refine portAfterChange_emits (hP .p2) (portAfterChange_emits (hP .p1) ?_ _ _) _ _
  simpa using h

theorem applyRelease_emits (x : Asker) (y : Test) : Emits P a (applyRelease x y s).channels := by
  rw [applyRelease_eq, judgeWatch_channels]
  refine portAfterChange_emits (hP .p2) (portAfterChange_emits (hP .p1) ?_ _ _) _ _
  simpa using h

theorem enterRelease_emits : Emits P a (enterRelease s).channels := by
  unfold enterRelease
  split
  · exact applyRelease_emits hP (by simpa using h) _ _
  · exact h

end

/-- What ends with a record hands DISTURB_DONE beside the notices of the port's loop (R54). -/
structure Ending (P : Notice → Prop) : Prop where
  loops : ∀ p n, LoopNotice p n → P n
  records : ∀ n, n.kind = .disturbDone → P n

section
variable (hP : ∀ n, n.kind = .disturbDone → P n) (h : Emits P a s.channels)
include hP h

theorem endSlot_emits (i : SlotId) : Emits P a (endSlot i s).channels := by
  unfold endSlot
  split
  · exact postSubscribed_emits (hP _ rfl) (by simpa using h)
  · exact h

theorem cancelled_emits (i : SlotId) : Emits P a ((cancelSlot i s).getD s).channels := by
  unfold cancelSlot
  split
  · exact h
  · exact endSlot_emits hP h i

end

section
variable (h : Emits P a s.channels)
include h

/-- A session's end hands DISTURB_DONE, what its loop brings where a burst ends, and RING_END (R54, R129). -/
theorem endSession_emits {p : Port} (hloop : inBurst s p = true → ∀ n, LoopNotice p n → P n)
    (hdone : ∀ n, n.kind = .disturbDone → P n)
    (hring : ∀ n, n.kind = .ringEnd → n.subject = byte (portNum p) → P n) (why : RingReason) (cause : Nat) :
    Emits P a (endSession p why cause s).channels := by
  unfold endSession
  split
  · exact h
  rw [setSession_channels]
  refine postCompletion_emits (hring _ rfl rfl) (endSlot_emits hdone ?_ _)
  rw [updSession_channels]
  split
  · next hb => exact endBurst_emits (hloop hb) h _
  · exact h

theorem restart_emits {p : Port} (hloop : ∀ n, LoopNotice p n → P n) {why : Option HookReason}
    (hhook : ∀ n r, why = some r → n.kind = .hook → n.subject = byte (portNum p) → n.flags.toNat / 16 = r.code → P n) :
    Emits P a (restart p why s).channels := by
  unfold restart
  refine senseLoop_emits hloop ?_
  rw [judgeWatch_channels]
  split
  · split
    · exact postSubscribed_emits (hhook _ _ rfl rfl rfl (hookFlags_reason _ _ _)) (by simpa using h)
    · simpa using h
  · simpa using h

theorem homeTestEnded_emits {p : Port} (hloop : ∀ n, LoopNotice p n → P n) :
    Emits P a (homeTestEnded p s).channels := by
  unfold homeTestEnded
  dsimp only
  split
  · exact restart_emits (by simpa using h) hloop (fun n r hr => by cases hr)
  · simpa using h

theorem grantNext_emits (f : Func) (hgrant : ∀ n, n.kind = .claimGranted → P n) :
    Emits P a (grantNext f s).channels := by
  unfold grantNext
  split
  · exact postCompletion_emits (hgrant _ rfl) (by simpa [makeHold, dropClaim, setClaims] using h)
  · exact h

theorem ringLosesHold_emits (f : Func) (c : Channel) (hP : Ending P) (hring : ∀ n, n.kind = .ringEnd → P n) :
    Emits P a (ringLosesHold f c s).channels := by
  have hend (p : Port) (why : RingReason) (cause : Nat) :=
    endSession_emits h (p := p) (fun _ => hP.loops p) hP.records (fun n hn _ => hring n hn) why cause
  unfold ringLosesHold
  (repeat' split) <;> first | exact hend _ _ _ | exact h

end

end

end Sys2Proof.Machine
end

