-- ==== Sys2Proof/Proofs/RaisedFaults.lean ====
section
namespace Sys2Proof.Machine

/-! ## What raising faults does (R156, R168 to R175) -/

/-- The fault unit where the level of a fault is fixed and the fault is logged and offered to the capture record. -/
def storedUnit (f : Raised) (uptime : BitVec 32) (u : FaultUnit) : FaultUnit × Stored :=
  let x := logStore uptime (levelOf u.levels f.cls) f u
  (if x.2.logged then offerCapture uptime (levelOf u.levels f.cls) x.2.sequence f x.1 else x.1, x.2)

/-- The fault unit after a soft fault's decision on one channel (R174). -/
def decidedUnit (cls : FaultClass) (level : Nat) (source : Option Nat) (st : Stored) (c : Channel) (u : FaultUnit) :
    FaultUnit :=
  let k := u.channels.get c
  let latched := setLatch ⟨cls, st.sequence, level, source, !st.logged, st.coalesced⟩ k
  let cleared := { k with latches := dropLatch cls k.latches }
  { u with channels := u.channels.set c (if heldOn u k cls level then latched else cleared) }

/-- The fault unit after a fault was raised. -/
def raisedUnit (f : Raised) (uptime : BitVec 32) (u : FaultUnit) : FaultUnit :=
  if u.taking then { u with waiting := u.waiting ++ [f] }
  else if levelOf u.levels f.cls = 0 then u
  else
    let x := storedUnit f uptime u
    let level := levelOf u.levels f.cls
    if level = 8 then x.1
    else decidedUnit f.cls level f.source x.2 .gateway (decidedUnit f.cls level f.source x.2 .management
      (decidedUnit f.cls level f.source x.2 .modem x.1))

/-- The FAULT notice of a fault that is raised, and whom it goes to (R174, R175). -/
def raisedNotice (f : Raised) (uptime : BitVec 32) (u : FaultUnit) : Option (Notice × (Channel → Bool)) :=
  if u.taking then none
  else if levelOf u.levels f.cls = 0 then none
  else
    let x := storedUnit f uptime u
    let level := levelOf u.levels f.cls
    some (faultNotice f.cls level f.source false (!x.2.logged) x.2.coalesced f.time x.2.sequence,
      if level = 8 then fun _ => true else fun c => !heldOn x.1 (x.1.channels.get c) f.cls level)

/-- A fault's notice is handed. -/
def postRaised (x : Option (Notice × (Channel → Bool))) (s : State) : State :=
  match x with
  | some (n, receives) => post n receives s
  | none => s

section
variable {f : Raised} {s : State}

theorem decideChannel_eq (cls : FaultClass) (level : Nat) (source : Option Nat) (st : Stored) (c : Channel) :
    decideChannel cls level source st c s = s.updFaults (decidedUnit cls level source st c) := by
  unfold decideChannel decidedUnit updFaultChannel
  split
  · next h => simp [State.updFaults, h]
  · next h => simp [State.updFaults, h]

theorem raiseFault_eq : raiseFault f s =
    postRaised (raisedNotice f s.uptime s.faults) (s.updFaults (raisedUnit f s.uptime)) := by
  unfold raiseFault raisedNotice raisedUnit postRaised takeFault notifyFault
  by_cases ht : s.faults.taking = true
  · simp [ht, State.updFaults]
  by_cases hl : levelOf s.faults.levels f.cls = 0
  · simp [ht, hl, State.updFaults]
  by_cases h8 : levelOf s.faults.levels f.cls = 8
  · simp [ht, h8, storedUnit, State.updFaults]
  · simp [ht, hl, h8, storedUnit, decideChannel_eq, State.updFaults]

@[simp] theorem postRaised_faults (x : Option (Notice × (Channel → Bool))) : (postRaised x s).faults = s.faults := by
  unfold postRaised
  split <;> simp

theorem raiseFault_faults : (raiseFault f s).faults = raisedUnit f s.uptime s.faults := by
  rw [raiseFault_eq, postRaised_faults]
  rfl

theorem raiseFault_channels : (raiseFault f s).channels =
    (postRaised (raisedNotice f s.uptime s.faults) s).channels := by
  rw [raiseFault_eq]
  unfold postRaised
  split
  · exact PerChan.eq_of_get fun c => by rw [post_channels_get, post_channels_get]; rfl
  · rfl

end

/-! ### The battery watch and the isolation state have no part in it -/

section
variable {f : Raised} {uptime : BitVec 32} {u : FaultUnit} {w : BatteryWatch} {i : Isolation}

/-- The fault unit with another battery watch and isolation state. -/
def besides (w : BatteryWatch) (i : Isolation) (u : FaultUnit) : FaultUnit := { u with watch := w, isolation := i }

theorem logStore_besides (level : Nat) : logStore uptime level f (besides w i u) =
    (besides w i (logStore uptime level f u).1, (logStore uptime level f u).2) := by
  unfold logStore besides
  dsimp only
  (repeat' split) <;> simp_all

theorem offerCapture_besides (level : Nat) (seq : BitVec 32) : offerCapture uptime level seq f (besides w i u) =
    besides w i (offerCapture uptime level seq f u) := by
  have hc : (besides w i u).capture = u.capture := rfl
  unfold offerCapture
  rw [hc]
  split
  · rfl
  · split <;> rfl

theorem storedUnit_besides : storedUnit f uptime (besides w i u) =
    (besides w i (storedUnit f uptime u).1, (storedUnit f uptime u).2) := by
  unfold storedUnit
  simp only [logStore_besides, offerCapture_besides, show (besides w i u).levels = u.levels from rfl]
  split <;> rfl

theorem decidedUnit_besides (cls : FaultClass) (level : Nat) (source : Option Nat) (st : Stored) (c : Channel) :
    decidedUnit cls level source st c (besides w i u) = besides w i (decidedUnit cls level source st c u) := rfl

theorem raisedUnit_besides : raisedUnit f uptime (besides w i u) = besides w i (raisedUnit f uptime u) := by
  unfold raisedUnit
  simp only [storedUnit_besides, decidedUnit_besides, show (besides w i u).taking = u.taking from rfl,
    show (besides w i u).levels = u.levels from rfl]
  split_ifs <;> rfl

theorem raisedNotice_besides : raisedNotice f uptime (besides w i u) = raisedNotice f uptime u := by
  unfold raisedNotice
  rw [storedUnit_besides]
  rfl

end

/-! ### Faults raised one after the other -/

/-- The fault unit after these faults. -/
def unitAfter (l : List Raised) (uptime : BitVec 32) (u : FaultUnit) : FaultUnit :=
  l.foldl (fun u f => raisedUnit f uptime u) u

/-- The FAULT notices of these faults that go to a channel. -/
def noticesOf (uptime : BitVec 32) (c : Channel) : List Raised → FaultUnit → List Notice
  | [], _ => []
  | f :: rest, u =>
    (match raisedNotice f uptime u with
      | some (n, receives) => if receives c = true then [n] else []
      | none => []) ++ noticesOf uptime c rest (raisedUnit f uptime u)

section
variable {f : Raised} {l m : List Raised} {s t u : State} {uptime : BitVec 32} {c : Channel}

theorem raisedNotice_kind {unit : FaultUnit} {n : Notice} {receives : Channel → Bool}
    (h : raisedNotice f uptime unit = some (n, receives)) : n.kind = .fault := by
  unfold raisedNotice at h
  split at h
  · cases h
  split at h
  · cases h
  · cases h
    rfl

theorem unitAfter_append (unit : FaultUnit) :
    unitAfter (l ++ m) uptime unit = unitAfter m uptime (unitAfter l uptime unit) := by
  simp [unitAfter]

theorem noticesOf_append (unit : FaultUnit) : noticesOf uptime c (l ++ m) unit =
    noticesOf uptime c l unit ++ noticesOf uptime c m (unitAfter l uptime unit) := by
  induction l generalizing unit with
  | nil => rfl
  | cons f rest ih => simp [noticesOf, ih, unitAfter]

theorem unitAfter_besides (w : BatteryWatch) (i : Isolation) (unit : FaultUnit) :
    unitAfter l uptime (besides w i unit) = besides w i (unitAfter l uptime unit) := by
  induction l generalizing unit with
  | nil => rfl
  | cons f rest ih =>
    show unitAfter rest uptime (raisedUnit f uptime (besides w i unit)) = _
    rw [raisedUnit_besides, ih]
    rfl

theorem noticesOf_besides (w : BatteryWatch) (i : Isolation) (unit : FaultUnit) :
    noticesOf uptime c l (besides w i unit) = noticesOf uptime c l unit := by
  induction l generalizing unit with
  | nil => rfl
  | cons f rest ih =>
    simp only [noticesOf]
    rw [raisedNotice_besides, raisedUnit_besides, ih]

@[simp] theorem raiseFault_uptime : (raiseFault f s).uptime = s.uptime := by simp [State.uptime]

theorem faultsTaken_faults : (faultsTaken l s).faults = unitAfter l s.uptime s.faults := by
  induction l generalizing s with
  | nil => rfl
  | cons f rest ih =>
    show (faultsTaken rest (raiseFault f s)).faults = _
    rw [ih, raiseFault_uptime, raiseFault_faults]
    rfl

/-- A queue with room for the notices takes them all. -/
theorem faultsTaken_queue (h : (s.channels.get c).queue.length + l.length ≤ 16) :
    ((faultsTaken l s).channels.get c).queue.Perm ((s.channels.get c).queue ++ noticesOf s.uptime c l s.faults) := by
  induction l generalizing s with
  | nil => simp [faultsTaken, noticesOf]
  | cons f rest ih =>
    have hone : ((raiseFault f s).channels.get c).queue.Perm ((s.channels.get c).queue ++
        match raisedNotice f s.uptime s.faults with
        | some (n, receives) => if receives c = true then [n] else []
        | none => []) := by
      rw [raiseFault_channels]
      unfold postRaised
      split
      · next n receives hn =>
        have hsup : ¬(n.kind.supersedes = true ∧ hasKind n.kind (s.channels.get c).queue = true) := by
          simp [raisedNotice_kind hn, Kind.supersedes]
        rw [post_channels_get]
        split
        · rw [enqueue_of_room hsup (by simp at h; omega)]
          exact (insertNotice_perm _ _).trans (List.perm_append_singleton n _).symm
        · simp
      · simp
    have hlen : ((raiseFault f s).channels.get c).queue.length ≤ (s.channels.get c).queue.length + 1 := by
      rw [hone.length_eq]
      split
      · split <;> simp
      · simp
    have hrest := ih (s := raiseFault f s) (by simp at h; omega)
    rw [raiseFault_uptime, raiseFault_faults] at hrest
    refine hrest.trans ?_
    rw [noticesOf, ← List.append_assoc]
    exact hone.append_right _

/-- An event raised exactly these faults, up to the battery watch. -/
structure Faulted (l : List Raised) (s t : State) : Prop where
  clock : t.clock = s.clock
  faults : unwatched t.faults = unwatched (unitAfter l s.uptime s.faults)
  notices : HandsOut (ofKind .fault) (fun c => noticesOf s.uptime c l s.faults) s.channels t.channels

theorem lasting_ofKind {k : Kind} (h : k.supersedes = false) : lasting (ofKind k) := fun n hn => by
  have hk : n.kind = k := by simpa [ofKind] using hn
  rw [hk, h]

theorem Faulted.refl : Faulted [] s s := ⟨rfl, rfl, fun _ => .refl⟩

theorem eq_besides_of_unwatched {v w : FaultUnit} (h : unwatched v = unwatched w) :
    v = besides v.watch v.isolation w := by
  cases v
  cases w
  simp only [unwatched, FaultUnit.mk.injEq] at h
  simp [besides, h]

theorem unwatched_besides {v : FaultUnit} (w : BatteryWatch) : unwatched (besides w v.isolation v) = unwatched v := rfl

theorem unitAfter_isolation (unit : FaultUnit) : (unitAfter l uptime unit).isolation = unit.isolation := by
  have h := unitAfter_besides (l := l) (uptime := uptime) unit.watch unit.isolation unit
  exact (congrArg FaultUnit.isolation h :)

theorem unitAfter_watch (unit : FaultUnit) : (unitAfter l uptime unit).watch = unit.watch := by
  have h := unitAfter_besides (l := l) (uptime := uptime) unit.watch unit.isolation unit
  exact (congrArg FaultUnit.watch h :)

theorem Faulted.trans (h : Faulted l s t) (h' : Faulted m t u) : Faulted (l ++ m) s u := by
  have hup : t.uptime = s.uptime := congrArg Clock.uptime h.clock
  have ht := eq_besides_of_unwatched h.faults
  refine ⟨h'.clock.trans h.clock, ?_, ?_⟩
  · rw [h'.faults, hup, unitAfter_append, ht, unitAfter_besides]
    have hi : t.faults.isolation = (unitAfter m s.uptime (unitAfter l s.uptime s.faults)).isolation := by
      rw [unitAfter_isolation]
      exact (congrArg FaultUnit.isolation h.faults :)
    rw [hi]
    rfl
  · have hm := h'.notices
    rw [hup, ht] at hm
    simp only [noticesOf_besides] at hm
    simpa only [noticesOf_append] using h.notices.trans hm

/-- What raises no fault. -/
theorem faulted_of_emits {P : Notice → Prop} (hc : t.clock = s.clock) (hf : unwatched t.faults = unwatched s.faults)
    (hn : Emits P s.channels t.channels) (hP : ∀ n, P n → n.kind ≠ .fault) : Faulted [] s t :=
  ⟨hc, hf, hn.handsOut (lasting_ofKind rfl) fun n h => by simpa [ofKind] using hP n h⟩

theorem raiseFault_faulted (f : Raised) (s : State) : Faulted [f] s (raiseFault f s) := by
  refine ⟨by simp, by rw [raiseFault_faults]; rfl, ?_⟩
  rw [raiseFault_channels]
  simp only [noticesOf, List.append_nil]
  unfold postRaised
  cases hn : raisedNotice f s.uptime s.faults with
  | none => exact fun _ => .refl
  | some x => exact post_handsOut x.2 (lasting_ofKind rfl) (by simp [ofKind, raisedNotice_kind hn])

/-- The state with its notice queues emptied. -/
def silenced (s : State) : State := { s with channels :=
  ⟨{ s.channels.modem with queue := [] }, { s.channels.management with queue := [] },
    { s.channels.gateway with queue := [] }⟩ }

theorem silenced_queue (c : Channel) : ((silenced s).channels.get c).queue = [] := by cases c <;> rfl

/-- Faults in the terms of the statements. -/
theorem Faulted.raises (h : Faulted l s t) (hl : l.length ≤ 16) : raises l s t := by
  refine ⟨?_, fun c => ?_⟩
  · rw [faultsTaken_faults, eq_besides_of_unwatched h.faults]
    refine Eq.trans (b := besides s.faults.watch s.faults.isolation (unitAfter l s.uptime s.faults)) rfl ?_
    rw [← unitAfter_besides]
    rfl
  · obtain ⟨-, -, honly, hall⟩ := h.notices c
    have hperm : ((faultsTaken l (silenced s)).channels.get c).queue.Perm (noticesOf s.uptime c l s.faults) := by
      have h := faultsTaken_queue (l := l) (c := c) (s := silenced s) (by simpa [silenced_queue] using hl)
      rwa [silenced_queue, List.nil_append] at h
    exact ⟨fun n hn hs => (honly n hn hs).imp_right hperm.mem_iff.mpr,
      fun hlost => (hall hlost).trans (hperm.symm.append_left _)⟩

end

end Sys2Proof.Machine
end

