-- ==== Sys2Proof/Proofs/HoldLosses.lean ====
section
namespace Sys2Proof.Machine

/-! ## What the loss of a hold makes of the test (R33, R146) -/

/-- The test stands as it was, and no fault is raised. -/
structure Quiet (s t : State) : Prop where
  calm : Calm s t
  faulted : Faulted [] s t

section
variable {a b s t u : State} {f : Func} {c : Channel}

theorem Quiet.refl : Quiet s s := ⟨.refl, .refl⟩

theorem Quiet.trans (h : Quiet s t) (h' : Quiet t u) : Quiet s u :=
  ⟨h.calm.trans h'.calm, h.faulted.trans h'.faulted⟩

/-- An operation that touches no port, relay, burst, fault and test, and hands no TEST_DONE and no FAULT. -/
theorem quiet_of_frame {P : Notice → Prop} (hs : steady t = steady s) (hc : t.clock = s.clock)
    (h2 : t.twoPorts = s.twoPorts) (hr : t.relays = s.relays) (he : t.engine = s.engine) (hg : t.ring = s.ring)
    (hn : Emits P s.channels t.channels) (hP : ∀ n, P n → n.kind ≠ .fault ∧ n.kind ≠ .testDone) : Quiet s t where
  calm := by
    refine calm_of_steady hs hc h2 hr ?_ fun hb => ⟨he, fun p => ?_⟩
    · exact fun c => by
        obtain ⟨h1, h2, h3, h4⟩ := hn.handsOut (sort := ofKind .testDone) (lasting_ofKind rfl)
          (fun n h => by simpa [ofKind] using (hP n h).2) c
        exact ⟨h1, h2, fun n hn hk => h3 n hn (by simpa [ofKind] using hk), h4⟩
    · rw [inBurst_of_session (s := s) (by simp [session, hg])]
      exact hb p
  faulted := faulted_of_emits hc (congrArg Steady.faults hs) hn fun n h => (hP n h).1

theorem updLines_quiet (g : LineFunctions → LineFunctions) : Quiet s (s.updLines g) :=
  quiet_of_frame (P := fun _ => False) rfl rfl rfl rfl rfl rfl .refl fun _ h => h.elim

theorem postCompletion_quiet {n : Notice} (h : n.kind ≠ .fault ∧ n.kind ≠ .testDone) :
    Quiet s (postCompletion n c s) :=
  quiet_of_frame (P := fun m => m = n) (by simp) (by simp) (by simp) (by simp) (by simp) (by simp)
    (postCompletion_emits rfl .refl) fun m hm => hm ▸ h

theorem frameIn_quiet (i : Instr) : Quiet s (frameIn i s) :=
  quiet_of_frame (P := fun _ => False) (steady_of_frame (by simp) (by simp) (by simp)) (by simp) (by simp) (by simp)
    (by simp) (by simp) (by simp) fun _ h => h.elim

theorem answered_quiet (i : Instr) (o : Code) (l : List Byte) : Quiet s (answered i o l s) :=
  quiet_of_frame (P := fun _ => False) (steady_of_frame (by simp) (by simp) (by simp)) (by simp) (by simp) (by simp)
    (by simp) (by simp) (by simp) fun _ h => h.elim

theorem grantNext_quiet : Quiet s (grantNext f s) := by
  unfold grantNext
  split
  · exact ((updLines_quiet _).trans (updLines_quiet _)).trans (postCompletion_quiet ⟨by simp, by simp⟩)
  · exact .refl

theorem unheld_quiet : Quiet s (unheld f c s) where
  calm := unheld_calm
  faulted := by
    refine faulted_of_emits (P := fun n => n.kind ≠ .fault) unheld_clock (congrArg Steady.faults unheld_steady) ?_
      fun _ h => h
    refine ringLosesHold_emits (s := removeHold f s) .refl f c ⟨fun p n hn => ?_, fun n hn => by simp [hn]⟩
      fun n hn => by simp [hn]
    rcases hn with ⟨hn, -⟩ | ⟨hn, -⟩ | ⟨hn, -⟩ <;> simp [hn]

/-! ### The fault of an abort -/

section
variable {why : AbortReason} {x : Test} (hw : why = .holdLost ∨ why = .requesterReset) (hx : s.engine.test = some x)
include hw hx

omit hw hx in
theorem abortRaised_faulted : Faulted [abortFault why x s] s (abortRaised why x s) := by
  have hset : Faulted [] s (s.updEngine (fun e => { e with test := some (withAbort why x) })) :=
    faulted_of_emits (P := fun _ => False) rfl rfl .refl fun _ h => h.elim
  exact hset.trans (raiseFault_faulted (abortFault why x s) _)

/-- After TEST_ABORTED an abort raises no fault. -/
theorem abortTest_emits (hg : gateless s) (hp : x.phase ≠ .release) :
    Emits (fun n => n.kind ≠ .fault) (abortRaised why x s).channels (abortTest why s).channels := by
  have hloop : ∀ p n, LoopNotice p n → n.kind ≠ .fault := fun p n hn => by
    rcases hn with ⟨hn, -⟩ | ⟨hn, -⟩ | ⟨hn, -⟩ <;> simp [hn]
  by_cases hn : x.phase = .notify
  · let v := (cancelSlot (targetSlot x.target) (abortRaised why x s)).getD (abortRaised why x s)
    have ht : abortTest why s = abortedEnd (withAbort why x) v := by
      obtain ⟨hvtest, hvlines, -⟩ := cancelled_frame (s := abortRaised why x s) (targetSlot x.target)
      have hvt : v.engine.test = some (withAbort why x) := by rw [hvtest, abortRaised_test]
      rw [abortTest_of_flight hw hx hp, abortByRelease, show (withAbort why x).phase = .notify from hn]
      refine endTest_of_aborted hvt rfl fun z h hz hh => ?_
      have hlines : v.lines = s.lines := hvlines.trans (by simp)
      cases hvt.symm.trans hz
      exact hg x h hx (hlines ▸ hh)
    have hv : Emits (fun n => n.kind ≠ .fault) (abortRaised why x s).channels v.channels :=
      cancelled_emits (fun n hn => by simp [hn]) .refl _
    have hdone : Emits (fun n => n.kind ≠ .fault) (abortRaised why x s).channels
        (doneHanded (withAbort why x) v).channels := postCompletion_emits (by simp [testDone]) hv
    rw [ht]
    unfold abortedEnd
    dsimp only
    rw [(State.updEngine_channels _ _ :)]
    split
    · exact homeTestEnded_emits hdone (hloop _)
    · exact hdone
  · obtain ⟨w, ht, -, -, -, -, -, -, hchan⟩ := abortTest_enters_release hw hx (x := x)
      (by cases hp' : x.phase <;> simp_all)
    rw [ht, ← hchan]
    exact enterRelease_emits hloop .refl

theorem abortTest_faulted (hg : gateless s) (hp : x.phase ≠ .release) :
    Faulted [abortFault why x s] s (abortTest why s) := by
  have hab := abortTest_aborted hw hx hg hp
  have h := abortRaised_faulted.trans (faulted_of_emits (t := abortTest why s) (by simp) hab.faults
    (abortTest_emits hw hx hg hp) fun _ h => h)
  simpa using h

end

/-- A hold's loss, with nothing but quiet before the engine is told of it and after (R33, R146). -/
theorem testLosesHold_of_quiet (hab : Quiet a b) (hfree : (b.lines.table.get f).hold = none)
    (hct : Quiet (engineHoldLost f b) t) : testLosesHold f a t := by
  by_cases hu : untouchedBy f a
  · have hbc : engineHoldLost f b = b := engineHoldLost_of_untouched (untouchedBy_of_steady hab.calm.test hu)
    have hat : Quiet a t := hab.trans (hbc ▸ hct)
    refine ⟨fun x hx hf => testAborted_of_release hx (hu x hx hf) hat.calm, fun hall => ?_, fun _ =>
      hat.faulted.raises (by simp)⟩
    have hnone : abortFaults 5 a = [] := by
      unfold abortFaults
      cases hx : a.engine.test with
      | none => rfl
      | some x => simp [hu x hx (hall x hx)]
    rw [hnone]
    exact hat.faulted.raises (by simp)
  · obtain ⟨x, hx, hf, hp⟩ : ∃ x, a.engine.test = some x ∧ targetFunc x.target = f ∧ x.phase ≠ .release := by
      simpa [untouchedBy] using hu
    obtain ⟨y, hy, hyx⟩ := exists_test_of_steady hab.calm.test hx
    have htarget : targetFunc y.target = f := by rw [eq_of_forgetReadings hyx]; exact hf
    have hphase : y.phase ≠ .release := by rw [eq_of_forgetReadings hyx]; exact hp
    have hgate : gateless b := gateless_of_free hfree fun z hz => by
      rw [hy] at hz
      cases hz
      exact htarget
    have hlost : engineHoldLost f b = abortTest .holdLost b := by simp [engineHoldLost, hy, htarget]
    refine ⟨fun z hz _ => ?_, fun _ => ?_, fun hno => absurd hf (hno x hx)⟩
    · rw [hx] at hz
      cases hz
      exact testAborted_of_calm hx hp hab.calm hy (engineHoldLost_aborts hfree hy htarget hphase) hct.calm
    · have hfault : abortFaults 5 a = [abortFault .holdLost y b] := by
        have hnow : b.now = a.now := congrArg Clock.timebase hab.calm.clock
        rw [show (5 : Nat) = abortCode .holdLost from rfl, abortFaults_eq hx hp]
        rw [eq_of_forgetReadings hyx]
        simp [abortFault, raisedAt, hnow, phaseCode]
      have habort := abortTest_faulted (.inl rfl) hy hgate hphase
      rw [← hlost] at habort
      rw [hfault]
      simpa using ((hab.faulted.trans habort).trans hct.faulted).raises (by simp)

end

end Sys2Proof.Machine
end

