-- ==== Sys2Proof/Proofs/HoldsPassed.lean ====
section
namespace Sys2Proof.Machine

section
variable {r : Req} {b : Byte} {f : Func} {c : Channel} {s t u : State} {i : Instr}

/-! ## Releases between a request and its answer -/

theorem holderIn_eq_holderOf : holderIn s.lines f = holderOf s f := rfl

@[simp] theorem session_frameIn (p : Port) : session (frameIn i s) p = session s p := by simp [session]

theorem sessionLost_frameIn : sessionLost f c (frameIn i s) = sessionLost f c s :=
  sessionLost_congr (fun p _ => session_frameIn p) (frameIn_now i s)

theorem losesSession_of_issuer {p : Port} {x : RingSession} (hp : portFunc p = f) (hx : session s p = some x)
    (hc : x.issuer = c) : losesSession f c s p = true := by
  simp [losesSession, hx, hp, hc]

theorem hands_of_handed {k : Kind} {l : List Handing} {a b : PerChan ChannelRec} (h : Handed k l a b)
    (hs : s.channels = a) (ht : t.channels = b) : hands (ofKind k) l s t := by
  subst hs ht
  exact h.hands

@[simp] theorem holderOf_frameIn : holderOf (frameIn i s) f = holderOf s f := by simp [holderOf]

/-- What follows the loss of a hold of function `f` by channel `c`, between `s` before the request and `t` after its
answer: `u` is where the hold goes, and the function then passes on. -/
structure Passed (f : Func) (c : Channel) (s u t : State) : Prop where
  sessions : ∀ p, portFunc p = f → ∀ x, session s p = some x → x.issuer = c → session t p = none
  ringEnd : hands (ofKind .ringEnd) (sessionLost f c s) s t
  test : testLosesHold f s t

/-- A function is released between a request and its answer. -/
theorem releaseFunc_passed {o : Code} {l : List Byte} (hsu : Quiet s u) (hc : holderIn u.lines f = some c)
    (hses : ∀ p, session u p = session s p) (hring : Handed .ringEnd [] s.channels u.channels) :
    Passed f c s u (answered i o l (releaseFunc f u)) where
  sessions := fun p hp x hx hissuer => by
    have hlost := losesSession_of_issuer hp ((hses p).trans hx) hissuer
    have h := releaseFunc_session hc p
    rw [hlost, if_pos rfl] at h
    simpa [session] using h
  ringEnd := by
    have h := hring.nil_trans (releaseFunc_ringEnd hc)
    rw [sessionLost_congr (fun p _ => hses p) (congrArg Clock.timebase hsu.calm.clock)] at h
    exact hands_of_handed h rfl (answered_channels ..)
  test := by
    rw [releaseFunc_eq hc]
    exact testLosesHold_of_quiet (hsu.trans unheld_quiet) unheld_hold (grantNext_quiet.trans (answered_quiet _ _ _))

/-- A released function passes to its first claim, or is free (R30). -/
theorem passOn_of_some {uptime : BitVec 32} {l : LineFunctions} {e : ClaimEntry} (h : firstClaim l f = some e) :
    passOn uptime f l = ⟨l.table.set f ⟨(l.table.get f).level, some ⟨e.channel, e.level, uptime, none⟩⟩,
      l.claims.filter (fun x => !isClaim e.channel f x)⟩ := by
  simp [passOn, h]

theorem passOn_of_none {uptime : BitVec 32} {l : LineFunctions} (h : firstClaim l f = none) :
    passOn uptime f l = ⟨l.table.set f ⟨(l.table.get f).level, none⟩, l.claims⟩ := by
  simp [passOn, h]

/-- A holder as RELEASE and TIGHTEN answer it (R32, R35). -/
theorem holderOf_passOn {uptime : BitVec 32} {l : LineFunctions} (h : u.lines = passOn uptime f l) :
    holderOf u f = (firstClaim l f).map (·.channel) := by
  rw [← holderIn_eq_holderOf, holderIn, h, passOn_hold, Option.map_map]
  rfl

/-! ## RELEASE (R32) -/

theorem answerRelease_of_holder (hf : funcOf b = some f) (hfit : funcFitted s f = true)
    (hhold : holderOf s f = some r.channel) : answerRelease r b s = (releaseFunc f s,
      ⟨.ok, [byte (funcNum f), flagByte (holderOf (releaseFunc f s) f).isSome, byte (holderCode (releaseFunc f s) f)]⟩) := by
  simp [answerRelease, hf, hfit, holds, hhold]

end

/-! ## CLAIM_EXPIRED of a deadline (R31) -/

theorem exec_claimDeadlineExpiry (c : Channel) (f : Func) (s : State) : exec (.claimDeadlineExpiry c f) s =
    .next (match s.lines.claims.find? (isClaim c f) with
      | some e => if reached s.now e.deadline then expiredNotice e 1 0 (dropClaim c f s) else s
      | none => s) := rfl

theorem find?_isClaim {c : Channel} {f : Func} {l : List ClaimEntry} {e : ClaimEntry}
    (h : l.find? (isClaim c f) = some e) : e.channel = c ∧ e.function = f :=
  isClaim_iff.mp (List.find?_some h)

theorem firstClaim_function_eq {l : LineFunctions} {f : Func} :
    l.claims.find? (fun e => decide (e.function = f)) = firstClaim l f := rfl

/-- A detail of one byte (R34). -/
theorem detail4_of_byte (n : Nat) : detail4 n 0 0 0 = BitVec.setWidth 32 (BitVec.ofNat 8 n) := by
  unfold detail4 word byte
  generalize BitVec.ofNat 8 n = x
  revert x
  decide

/-- Settles O17: a release is `releaseFunc` between the request and its answer, and an expiry is `dropClaim`. -/
theorem releasesAndDeadlinesMoveTheQueue : Obligations.ReleasesAndDeadlinesMoveTheQueue := by
  refine ⟨fun r b s htaken => ?_, fun c f e s he => ?_⟩
  · intro i
    let u := frameIn i s
    have hexec {o : Code} {l : List Byte} {t : State} (ha : answerRelease r b u = (t, ⟨o, l⟩)) :
        exec i s = .next (answered i o l t) := exec_of_answer htaken rfl ha
    refine ⟨fun hb => hexec (by simp [answerRelease, funcOf_of_four_lt hb, refuse, u]), fun f hb => ?_⟩
    have hf := funcOf_of_toNat hb
    refine ⟨fun hfit => hexec ?_, fun hfit => ?_⟩
    · have hfit : funcFitted u f = false := funcFitted_eq_false_iff.mpr (by simpa [u] using hfit)
      simp [answerRelease, hf, hfit, refuse, u]
    have hfit : funcFitted u f = true := funcFitted_iff.mpr (by simpa [u] using hfit)
    refine ⟨fun hhold => hexec ?_, fun hhold => ?_⟩
    · simp [answerRelease, hf, hfit, refuse, holds, hhold, u]
    have hlines : u.lines = s.lines := by simp [u]
    have hc : holderIn u.lines f = some r.channel := hlines.symm ▸ hhold
    have hpass : (releaseFunc f u).lines = passOn s.uptime f s.lines := by
      rw [releaseFunc_lines hc, hlines, frameIn_uptime]
    have hholder := holderOf_passOn hpass
    have hgrant := releaseFunc_claimGranted hc
    have hclaims : (firstClaim u.lines f).toList.map (claimGrantedOf u.now) =
        (firstClaim s.lines f).toList.map (claimGrantedOf s.now) := by rw [hlines, frameIn_now]
    have hring : Handed .ringEnd [] s.channels u.channels := by
      rw [frameIn_channels]
      exact .refl
    let results := [byte (funcNum f), flagByte (holderOf (releaseFunc f u) f).isSome, byte (holderCode (releaseFunc f u) f)]
    obtain ⟨hsessions, hringEnd, htest⟩ := releaseFunc_passed (i := i) (o := .ok) (l := results)
      (frameIn_quiet i) hc (fun p => session_frameIn p) hring
    have hports : respondedWith i .ok results s (answered i .ok results (releaseFunc f u)) :=
      respondedWith_of_ports (by simp [u]) (by simp [u])
    have hanswer := answerRelease_of_holder (r := r) hf hfit (by simpa [u] using hhold)
    refine ⟨_, hexec hanswer, ?_, hsessions, hands_of_handed (hclaims ▸ hgrant) (frameIn_channels i s).symm
      (answered_channels ..), hands_of_handed (releaseFunc_holdRevoked hc) (frameIn_channels i s).symm
      (answered_channels ..), hringEnd, htest, eq_with_of_kept (by simp [u])⟩
    rw [firstClaim_function_eq]
    have htable : (answered i .ok results (releaseFunc f u)).lines = passOn s.uptime f s.lines := by
      simpa using hpass
    cases hfirst : firstClaim s.lines f with
    | none =>
      rw [passOn_of_none hfirst] at htable
      have hresults : results = [b, 0, 0xFF] := by
        simp [results, holderCode, hholder, hfirst, byte_of_toNat hb, flagByte]
        rfl
      exact ⟨hresults ▸ hports, by rw [htable], by rw [htable]⟩
    | some e =>
      rw [passOn_of_some hfirst] at htable
      have hresults : results = [b, 1, BitVec.ofNat 8 (chanCode e.channel)] := by
        simp [results, holderCode, hholder, hfirst, byte_of_toNat hb, flagByte]
        rfl
      exact ⟨hresults ▸ hports, by rw [htable], by rw [htable]⟩
  · obtain ⟨hchannel, hfunction⟩ := find?_isClaim he
    rw [exec_claimDeadlineExpiry, he]
    refine ⟨fun hdue => ?_, fun hdue => by simp [hdue]⟩
    have hdetail : detail4 e.level 0 0 0 = BitVec.setWidth 32 (BitVec.ofNat 8 e.level) := detail4_of_byte e.level
    simp only [hdue, if_true, expiredNotice, hchannel, hfunction, hdetail]
    rfl

end Sys2Proof.Machine
end

