-- ==== Sys2Proof/Proofs/HoldsRevoked.lean ====
section
namespace Sys2Proof.Machine

/-! ## A hold that is taken away (R33, R34) -/

section
variable {f : Func} {c : Channel} {h : Hold} {s t u : State}

theorem post_removeHold (n : Notice) (receives : Channel → Bool) :
    post n receives (removeHold f s) = removeHold f (post n receives s) := by
  unfold post
  dsimp only
  split_ifs <;> rfl

/-- The notice of a revocation and the removal of the record do not see each other. -/
theorem revokedNotice_removeHold (why value : Nat) :
    revokedNotice f h why value (removeHold f s) = removeHold f (revokedNotice f h why value s) := by
  unfold revokedNotice postCompletion
  rw [post_removeHold]
  rfl

theorem revokedNotice_quiet (why value : Nat) : Quiet s (revokedNotice f h why value s) :=
  postCompletion_quiet ⟨by simp, by simp⟩

theorem revokedNotice_handed (why value : Nat) : Handed .holdRevoked [holdRevokedOf s.now f h why value] s.channels
    (revokedNotice f h why value s).channels := postCompletion_handed rfl rfl

theorem revokedNotice_queued_of {K : Kind → Bool} (hK : K .holdRevoked = true) (why value : Nat) :
    Queued K s.channels (revokedNotice f h why value s).channels := postCompletion_queued hK .refl

/-- The state after a hold was taken away and its loser's session and test have ended. -/
def takenAway (f : Func) (c : Channel) (s : State) : State := engineHoldLost f (unheld f c s)

theorem takenAway_lines : (takenAway f c s).lines = (removeHold f s).lines :=
  (engineHoldLost_lines unheld_hold).trans unheld_lines

theorem takenAway_session (p : Port) :
    session (takenAway f c s) p = if losesSession f c s p = true then none else session s p := by
  have hs : session (takenAway f c s) p = session (unheld f c s) p := by
    simp [session, takenAway, engineHoldLost_ring unheld_hold]
  rw [hs, unheld, ringLosesHold_session]
  rfl

theorem takenAway_queued_of {K : Kind → Bool} (hK : Kind.minor ≤ K) (hr : K .ringEnd = true)
    (hd : K .testDone = true) : Queued K s.channels (takenAway f c s).channels :=
  (unheld_queued hK hr).trans (engineHoldLost_queued_of unheld_hold hK hd)

/-- The session under the hold is told RING_END, and no other. -/
theorem takenAway_ringEnd : Handed .ringEnd (sessionLost f c s) s.channels (takenAway f c s).channels := by
  let K : Kind → Bool := fun k => !decide (k = .ringEnd)
  have hK : Kind.minor ≤ K := fun k hk => by cases k <;> first | rfl | cases hk
  exact (ringLosesHold_handed (s := removeHold f s)).trans_nil
    ((engineHoldLost_queued_of unheld_hold hK rfl).handed rfl)

/-- Nothing of a kind that ends neither sessions nor tests is handed. -/
theorem takenAway_handed {k : Kind} (hk : k.minor = false) (hr : k ≠ .ringEnd) (hd : k ≠ .testDone) :
    Handed k [] s.channels (takenAway f c s).channels := by
  let K : Kind → Bool := fun j => !decide (j = k)
  have hK : Kind.minor ≤ K := fun j hj => by
    have : j ≠ k := fun h => by simp [h, hk] at hj
    simpa [K] using this
  exact (takenAway_queued_of hK (by simpa [K] using Ne.symm hr) (by simpa [K] using Ne.symm hd)).handed (by simp [K])

theorem clock_takenAway : (takenAway f c s).clock = s.clock := by simp [takenAway, unheld]

/-! ## The seize (R27) -/

theorem seizeFunc_eq (level : Nat) : seizeFunc f h c level s =
    makeHold f c level none (dropClaim c f (takenAway f h.holder (revokedNotice f h 1 (chanCode c) s))) := by
  simp only [seizeFunc, holdLost, takenAway, unheld, revokedNotice_removeHold]

theorem seizeFunc_lines (level : Nat) : (seizeFunc f h c level s).lines =
    ⟨s.lines.table.set f ⟨(s.lines.table.get f).level, some ⟨c, level, s.uptime, none⟩⟩,
      s.lines.claims.filter (fun e => !isClaim c f e)⟩ := by
  have hlines : (takenAway f h.holder (revokedNotice f h 1 (chanCode c) s)).lines = (removeHold f s).lines := by
    rw [takenAway_lines]
    simp [removeHold, updFunc, State.updLines]
  have hup : (takenAway f h.holder (revokedNotice f h 1 (chanCode c) s)).uptime = s.uptime := by
    simp [State.uptime, clock_takenAway]
  rw [seizeFunc_eq]
  simp only [makeHold, updFunc, dropClaim, setClaims, State.updLines, State.uptime] at hup ⊢
  simp [hlines, hup, removeHold, updFunc, State.updLines, PerFunc.set_set]

theorem dropClaim_quiet : Quiet s (dropClaim c f s) :=
  updLines_quiet (fun l => { l with claims := s.lines.claims.filter (fun e => !isClaim c f e) })

theorem makeHold_quiet (level : Nat) (gate : Option Nat) : Quiet s (makeHold f c level gate s) :=
  updLines_quiet (fun l =>
    { l with table := l.table.set f { l.table.get f with hold := some ⟨c, level, s.uptime, gate⟩ } })

end

/-- Settles O16: the notice, the loss of the hold and the new record, in this order. -/
theorem seizePassesTheFunction : Obligations.SeizePassesTheFunction := by
  intro r b wait seize f h s htaken hb hfit hlevel hhold hother hseize hlow
  let i := Instr.claim r b wait seize
  let u := frameIn i s
  let v := revokedNotice f h 1 (chanCode r.channel) u
  have hrec : funcRec u f = s.lines.table.get f := by simp [u, funcRec]
  have hclaim : Claimable r b f u := ⟨funcOf_of_toNat hb, funcFitted_iff.mpr (by simpa [u] using hfit), hrec ▸ hlevel⟩
  have hanswer := answerClaim_of_seize (wait := wait) hclaim (hrec ▸ hhold) hother ⟨hseize, hlow⟩
  rw [claimResults_of_toNat hb] at hanswer
  have hsv : Quiet s v := (frameIn_quiet i).trans (revokedNotice_quiet _ _)
  have hses : ∀ p, session v p = session s p := fun p => by simp [session, v, u]
  have hlost : ∀ p, session (seizeFunc f h r.channel (effLevel r) u) p = session (takenAway f h.holder v) p := fun p => by
    rw [seizeFunc_eq]
    rfl
  have hchannels : (seizeFunc f h r.channel (effLevel r) u).channels = (takenAway f h.holder v).channels := by
    rw [seizeFunc_eq]
    rfl
  have hu : s.channels = u.channels := (frameIn_channels i s).symm
  have htold {k : Kind} {l : List Handing} (o : Code) (results : List Byte)
      (hk : Handed k l u.channels (takenAway f h.holder v).channels) :
      hands (ofKind k) l s (answered i o results (seizeFunc f h r.channel (effLevel r) u)) :=
    hands_of_handed hk hu ((answered_channels ..).trans hchannels)
  have hrevoked := revokedNotice_handed (f := f) (h := h) (s := u) 1 (chanCode r.channel)
  rw [show u.now = s.now from frameIn_now i s] at hrevoked
  have hsilent {k : Kind} (hk : k ≠ .holdRevoked) : Handed k [] u.channels v.channels :=
    (revokedNotice_queued_of (K := fun j => decide (j = .holdRevoked)) rfl _ _).handed (by simpa using hk)
  have hlostRing := takenAway_ringEnd (f := f) (c := h.holder) (s := v)
  rw [sessionLost_congr (fun p _ => hses p) (congrArg Clock.timebase hsv.calm.clock)] at hlostRing
  refine ⟨_, exec_of_answer htaken rfl hanswer, respondedWith_of_ports (by simp [u, i]) (by simp [u]), ?_, ?_,
    fun p hp x hx hissuer => ?_, htold _ _ (hrevoked.trans_nil (takenAway_handed rfl (by simp) (by simp))),
    htold _ _ ((hsilent (by simp)).nil_trans (takenAway_handed rfl (by simp) (by simp))),
    htold _ _ ((hsilent (by simp)).nil_trans hlostRing), ?_, eq_with_of_kept (by simp [u])⟩
  · simp [seizeFunc_lines, u]
  · simp [seizeFunc_lines, u]
  · have h := takenAway_session (f := f) (c := h.holder) (s := v) p
    rw [losesSession_of_issuer hp ((hses p).trans hx) hissuer, if_pos rfl, ← hlost] at h
    simpa [session] using h
  · rw [seizeFunc_eq]
    exact testLosesHold_of_quiet (hsv.trans unheld_quiet) unheld_hold
      ((dropClaim_quiet.trans (makeHold_quiet _ _)).trans (answered_quiet _ _ _))

end Sys2Proof.Machine
end

