-- ==== Sys2Proof/Proofs/Tightening.lean ====
section
namespace Sys2Proof.Machine

/-! ## TIGHTEN (R35) -/

section
variable {f : Func} {n : Nat} {l : List ClaimEntry} {s t u : State}

/-- Each entry that is taken out leaves the queue, and nothing else of the lines changes. -/
theorem expireAll_lines : (expireAll n l s).lines = { s.lines with
    claims := s.lines.claims.filter (fun x => l.all (fun e => !isClaim e.channel e.function x)) } := by
  induction l generalizing s with
  | nil => simp [expireAll]
  | cons e rest ih =>
    rw [expireAll, ih]
    simp [expiredNotice, dropClaim, setClaims, State.updLines, List.filter_filter, Bool.and_comm]

/-- CLAIM_EXPIRED, PRIVILEGE, of each entry in turn is all that is handed (R35 step 2). -/
theorem expireAll_channels : (expireAll n l s).channels = (handAll (l.map (claimExpiredOf s.now n)) s).channels := by
  induction l generalizing s with
  | nil => rfl
  | cons e rest ih =>
    have hnow : (expiredNotice e 2 n (dropClaim e.channel e.function s)).now = s.now := by
      simp [State.now, expiredNotice, dropClaim, setClaims]
    rw [expireAll, ih, hnow, List.map_cons, ← List.singleton_append, handAll_append]
    refine handAll_channels_congr ?_ _
    exact handAll_channels_congr (s := dropClaim e.channel e.function s) (t := s) rfl [claimExpiredOf s.now n e]

theorem expireAll_quiet : Quiet s (expireAll n l s) := by
  induction l generalizing s with
  | nil => exact .refl
  | cons e rest ih => exact (dropClaim_quiet.trans (postCompletion_quiet ⟨by simp, by simp⟩)).trans ih

theorem expireAll_handed : Handed .claimExpired (l.map (claimExpiredOf s.now n)) s.channels (expireAll n l s).channels := by
  induction l generalizing s with
  | nil => exact .refl
  | cons e rest ih =>
    have hone : Handed .claimExpired [claimExpiredOf s.now n e] s.channels
        (expiredNotice e 2 n (dropClaim e.channel e.function s)).channels :=
      postCompletion_handed (s := dropClaim e.channel e.function s) rfl rfl
    have hnow : (expiredNotice e 2 n (dropClaim e.channel e.function s)).now = s.now := by
      simp [State.now, expiredNotice, dropClaim, setClaims]
    have hrest := ih (s := expiredNotice e 2 n (dropClaim e.channel e.function s))
    rw [hnow] at hrest
    exact hone.trans hrest

theorem expireAll_queued_of {K : Kind → Bool} (hK : K .claimExpired = true) :
    Queued K s.channels (expireAll n l s).channels := by
  induction l generalizing s with
  | nil => exact .refl
  | cons e rest ih => exact (postCompletion_queued (s := dropClaim e.channel e.function s) hK .refl).trans ih

/-- An entry that is to be taken out. -/
def tightened (f : Func) (n : Nat) (e : ClaimEntry) : Bool := decide (e.function = f) && decide (n < e.level)

/-- The entries that are to be taken out are those that are, where no two stand for one channel and function (R29). -/
theorem filter_expired {p : ClaimEntry → Bool} {q : List ClaimEntry}
    (h : q.Pairwise (fun a b => ¬(a.channel = b.channel ∧ a.function = b.function))) :
    q.filter (fun x => (q.filter p).all (fun e => !isClaim e.channel e.function x)) = q.filter (fun x => !p x) := by
  have hone : q.Pairwise (fun x e => x ≠ e → ¬(x.channel = e.channel ∧ x.function = e.function)) :=
    List.Pairwise.imp (fun hab _ hsame => hab hsame) h
  have hback : q.Pairwise (flip (fun x e => x ≠ e → ¬(x.channel = e.channel ∧ x.function = e.function))) :=
    List.Pairwise.imp (fun hab _ hsame => hab ⟨hsame.1.symm, hsame.2.symm⟩) h
  have hall := hone.forall_of_forall_of_flip (fun _ _ hne => absurd rfl hne) hback
  refine List.filter_congr fun x hx => ?_
  cases hp : p x with
  | true =>
    simp only [List.all_filter, Bool.not_true, List.all_eq_false]
    exact ⟨x, hx, by simp [hp, isClaim]⟩
  | false =>
    simp only [List.all_filter, Bool.not_false, List.all_eq_true]
    intro e he
    by_cases hxe : x = e
    · simp [← hxe, hp]
    · simpa [isClaim, Classical.or_iff_not_imp_left] using fun _ => hall hx he hxe

end

/-! ## The lowered level -/

section
variable {f : Func} {n : Nat} {s : State}

/-- The entries that a new level takes out. -/
def goneAbove (f : Func) (n : Nat) (s : State) : List ClaimEntry := s.lines.claims.filter (tightened f n)

/-- The level put in force, and the entries above it taken out (R35 steps 1 and 2). -/
def lowered (f : Func) (n : Nat) (s : State) : State :=
  expireAll n (goneAbove f n s) (updFunc f (fun x => { x with level := n }) s)

theorem lowered_lines
    (h : s.lines.claims.Pairwise (fun a b => ¬(a.channel = b.channel ∧ a.function = b.function))) :
    (lowered f n s).lines = ⟨s.lines.table.set f ⟨n, (s.lines.table.get f).hold⟩,
      s.lines.claims.filter (fun x => !tightened f n x)⟩ := by
  rw [lowered, expireAll_lines, ← filter_expired h]
  simp [updFunc, State.updLines, goneAbove]

theorem lowered_quiet : Quiet s (lowered f n s) :=
  Quiet.trans (updLines_quiet (fun l => { l with table := l.table.set f { l.table.get f with level := n } }))
    expireAll_quiet

theorem lowered_hold : (funcRec (lowered f n s) f).hold = (s.lines.table.get f).hold := by
  rw [funcRec, lowered, expireAll_lines]
  simp [updFunc, State.updLines]

theorem lowered_channels :
    (lowered f n s).channels = (handAll ((goneAbove f n s).map (claimExpiredOf s.now n)) s).channels := by
  rw [lowered, expireAll_channels]
  exact handAll_channels_congr (s := updFunc f (fun x => { x with level := n }) s) (t := s) rfl
    ((goneAbove f n s).map (claimExpiredOf s.now n))

theorem lowered_expired :
    Handed .claimExpired ((goneAbove f n s).map (claimExpiredOf s.now n)) s.channels (lowered f n s).channels :=
  expireAll_handed (s := updFunc f (fun x => { x with level := n }) s)

theorem lowered_silent {k : Kind} (hk : k ≠ .claimExpired) : Handed k [] s.channels (lowered f n s).channels :=
  (expireAll_queued_of (K := fun j => decide (j = .claimExpired)) (s := updFunc f (fun x => { x with level := n }) s)
    rfl).handed (by simpa using hk)

/-- The first three bytes of TIGHTEN's results. -/
def tightenHead (f : Func) (n : Nat) (s : State) : List Byte :=
  [byte (funcNum f), byte n, byte (goneAbove f n s).length]

theorem lowerLevel_eq {revoke : Bool} : lowerLevel f n revoke s = match (s.lines.table.get f).hold with
    | some h =>
      if revoke && decide (n < h.level) then (revokeFunc f h n (lowered f n s),
        ⟨.ok, tightenHead f n s ++ [1, byte (holderCode (revokeFunc f h n (lowered f n s)) f)]⟩)
      else (lowered f n s, ⟨.ok, tightenHead f n s ++ [0, 0xFF]⟩)
    | none => (lowered f n s, ⟨.ok, tightenHead f n s ++ [0, 0xFF]⟩) := by
  rw [← lowered_hold (n := n)]
  rfl

theorem lowerLevel_of_kept {revoke : Bool}
    (h : ∀ h, (s.lines.table.get f).hold = some h → revoke = false ∨ h.level ≤ n) :
    lowerLevel f n revoke s = (lowered f n s, ⟨.ok, tightenHead f n s ++ [0, 0xFF]⟩) := by
  rw [lowerLevel_eq]
  cases hhold : (s.lines.table.get f).hold with
  | none => rfl
  | some x =>
    have hnot : (revoke && decide (n < x.level)) = false := by
      rcases h x hhold with hr | hl
      · simp [hr]
      · simp [Nat.not_lt.mpr hl]
    simp [hnot]

/-- A revocation is a release after its notice (R35 step 3). -/
theorem revokeFunc_eq {h : Hold} (hhold : (s.lines.table.get f).hold = some h) :
    revokeFunc f h n s = releaseFunc f (revokedNotice f h 2 n s) := by
  have hrec : (funcRec (revokedNotice f h 2 n s) f).hold = some h := by simpa [funcRec] using hhold
  rw [releaseFunc, hrec, revokeFunc, revokedNotice_removeHold]

theorem lowerLevel_of_revoked {h : Hold} (hhold : (s.lines.table.get f).hold = some h) (hlevel : n < h.level) :
    lowerLevel f n true s = (releaseFunc f (revokedNotice f h 2 n (lowered f n s)), ⟨.ok, tightenHead f n s ++
      [1, byte (holderCode (releaseFunc f (revokedNotice f h 2 n (lowered f n s))) f)]⟩) := by
  rw [lowerLevel_eq, hhold, ← revokeFunc_eq (lowered_hold.trans hhold)]
  simp [hlevel]

end

/-! ## The checks -/

section
variable {r : Req} {b new revoke : Byte} {f : Func} {s : State}

theorem answerTighten_of_fitted (heff : effLevel r = 0) (hf : funcOf b = some f) (hnew : new.toNat ≤ 3)
    (hfit : funcFitted s f = true) : answerTighten r b new revoke s =
      if (funcRec s f).level ≤ new.toNat then report [byte (funcNum f), byte (funcRec s f).level, 0, 0, 0xFF] s
      else lowerLevel f new.toNat (revoke != 0) s := by
  simp [answerTighten, heff, hf, hfit, Nat.not_lt.mpr hnew]

end

/-- A function is released between a request and its answer, and nothing but RING_END, TEST_DONE and CLAIM_GRANTED is
handed. -/
theorem releaseFunc_silent {f : Func} {c : Channel} {u : State} (hc : holderIn u.lines f = some c) {k : Kind}
    (hk : k.minor = false) (hr : k ≠ .ringEnd) (hd : k ≠ .testDone) (hg : k ≠ .claimGranted) :
    Handed k [] u.channels (releaseFunc f u).channels := by
  let K : Kind → Bool := fun j => !decide (j = k)
  have hother {j : Kind} (hj : k ≠ j) : K j = true := by simpa [K] using Ne.symm hj
  have hK : Kind.minor ≤ K := fun j hj => by
    have : j ≠ k := fun h => by simp [h, hk] at hj
    simpa [K] using this
  rw [releaseFunc_eq hc]
  exact (((unheld_queued hK (hother hr)).trans (engineHoldLost_queued_of unheld_hold hK (hother hd))).trans
    (grantNext_queued_of (hother hg))).handed (by simp [K])

/-- Settles O18: the level and the queue are put right, and a revoked holder's function is released. -/
theorem tightenLowersTheDescriptorLevel : Obligations.TightenLowersTheDescriptorLevel := by
  intro r b new revoke s htaken i refused
  let u := frameIn i s
  have hexec {o : Code} {l : List Byte} {t : State} (ha : answerTighten r b new revoke u = (t, ⟨o, l⟩)) :
      exec i s = .next (answered i o l t) := exec_of_answer htaken rfl ha
  have hrefused {o : Code} (ha : answerTighten r b new revoke u = refuse o u) : refused o := hexec ha
  refine ⟨fun heff => hrefused (by simp [answerTighten, heff]), fun heff =>
    ⟨fun hb => hrefused (by simp [answerTighten, heff, funcOf_of_four_lt hb]), fun f hb => ?_⟩⟩
  have hf := funcOf_of_toNat hb
  refine ⟨fun hnew => hrefused (by simp [answerTighten, heff, hf, hnew]), fun hnew => ⟨fun hfit => hrefused ?_,
    fun hfit => ?_⟩⟩
  · have hfit : funcFitted u f = false := funcFitted_eq_false_iff.mpr (by simpa [u] using hfit)
    simp [answerTighten, heff, hf, Nat.not_lt.mpr hnew, hfit]
  have hfit : funcFitted u f = true := funcFitted_iff.mpr (by simpa [u] using hfit)
  have hrec : funcRec u f = s.lines.table.get f := by simp [u, funcRec]
  have hanswer := answerTighten_of_fitted (revoke := revoke) heff hf hnew hfit
  rw [hrec] at hanswer
  refine ⟨fun hlow => hexec ?_, fun hlow hsound => ?_⟩
  · rw [hanswer, if_pos hlow, byte_of_toNat hb]
    rfl
  rw [if_neg (Nat.not_le.mpr hlow)] at hanswer
  obtain ⟨_, hdistinct, _⟩ := hsound
  have hclaims : u.lines.claims = s.lines.claims := by simp [u]
  have hhold : (u.lines.table.get f).hold = (s.lines.table.get f).hold := congrArg FuncRec.hold hrec
  have hlines : (lowered f new.toNat u).lines = ⟨s.lines.table.set f ⟨new.toNat, (s.lines.table.get f).hold⟩,
      s.lines.claims.filter (fun x => !tightened f new.toNat x)⟩ := by
    rw [lowered_lines (hclaims ▸ hdistinct)]
    simp [u]
  have hgone : goneAbove f new.toNat u = goneAbove f new.toNat s := by rw [goneAbove, goneAbove, hclaims]
  have hhead : tightenHead f new.toNat u = [b, new, BitVec.ofNat 8 (goneAbove f new.toNat s).length] := by
    rw [tightenHead, byte_of_toNat hb, byte_of_toNat rfl, hgone]
    rfl
  have hnow : u.now = s.now := frameIn_now i s
  have hexpired := lowered_expired (f := f) (n := new.toNat) (s := u)
  rw [hgone, hnow] at hexpired
  have hu : s.channels = u.channels := (frameIn_channels i s).symm
  by_cases hkept : ∀ h, (s.lines.table.get f).hold = some h → revoke = 0 ∨ h.level ≤ new.toNat
  · have hlower := lowerLevel_of_kept (f := f) (n := new.toNat) (revoke := revoke != 0) (s := u)
      (by simpa [hhold] using hkept)
    rw [hhead] at hlower
    have hports (l : List Byte) : respondedWith i .ok l s (answered i .ok l (lowered f new.toNat u)) :=
      respondedWith_of_ports (by simp [lowered, updFunc, u]) (by simp [lowered, updFunc, u])
    have hchannels := lowered_channels (f := f) (n := new.toNat) (s := u)
    rw [hgone, hnow, handAll_channels_congr hu.symm] at hchannels
    refine ⟨_, hexec (hanswer.trans hlower), hands_of_handed hexpired hu (answered_channels ..), fun _ =>
      ⟨hports _, by simp [hlines], by simp [hlines, tightened], (answered_channels ..).trans hchannels,
        by simp [lowered, updFunc, u]⟩, fun h hh hr hl => ?_, eq_with_of_kept (by simp [lowered, updFunc, u])⟩
    exact absurd (hkept h hh) (not_or.mpr ⟨hr, Nat.not_le.mpr hl⟩)
  · simp only [not_forall, not_or, Nat.not_le] at hkept
    obtain ⟨h, hh, hrevoke, hlevel⟩ := hkept
    let v := revokedNotice f h 2 new.toNat (lowered f new.toNat u)
    have hlower := lowerLevel_of_revoked (hhold.trans hh) hlevel
    have hrevoke : (revoke != 0) = true := bne_iff_ne.mpr hrevoke
    rw [hrevoke, hlower, hhead] at hanswer
    have hv : v.lines = (lowered f new.toNat u).lines := by simp [v]
    have hc : holderIn v.lines f = some h.holder := by
      rw [holderIn, hv, hlines]
      simp [hh]
    have hsv : Quiet s v := ((frameIn_quiet i).trans lowered_quiet).trans (revokedNotice_quiet _ _)
    have hup : v.uptime = s.uptime := by simp [v, lowered, updFunc, u, State.uptime]
    let left := s.lines.claims.filter (fun x => !tightened f new.toNat x)
    have hpass : (releaseFunc f v).lines =
        passOn s.uptime f ⟨s.lines.table.set f ⟨new.toNat, some h⟩, left⟩ := by
      rw [releaseFunc_lines hc, hv, hlines, hup, hh]
    have hfirst : firstClaim v.lines f = left.find? (fun e => decide (e.function = f)) := by
      rw [firstClaim, hv, hlines]
    have hgrant := releaseFunc_claimGranted hc
    rw [hfirst, show v.now = s.now by simp [v, lowered, updFunc, u, State.now]] at hgrant
    have hrevoked := revokedNotice_handed (f := f) (h := h) (s := lowered f new.toNat u) 2 new.toNat
    rw [show (lowered f new.toNat u).now = s.now by simp [lowered, updFunc, u, State.now]] at hrevoked
    have hquiet {k : Kind} (hk : k ≠ .holdRevoked) : Handed k [] (lowered f new.toNat u).channels v.channels :=
      (revokedNotice_queued_of (K := fun j => decide (j = .holdRevoked)) rfl _ _).handed (by simpa using hk)
    have hring : Handed .ringEnd [] s.channels v.channels :=
      hu ▸ (lowered_silent (k := .ringEnd) (by simp)).trans_nil (hquiet (by simp))
    have hses : ∀ p, session v p = session s p := fun p => by simp [session, v, lowered, updFunc, u]
    let results := [b, new, BitVec.ofNat 8 (goneAbove f new.toNat s).length, 1, byte (holderCode (releaseFunc f v) f)]
    obtain ⟨_, hringEnd, htest⟩ := releaseFunc_passed (i := i) (o := .ok) (l := results) hsv hc hses hring
    have hports : respondedWith i .ok results s (answered i .ok results (releaseFunc f v)) :=
      respondedWith_of_ports (by simp [v, lowered, updFunc, u]) (by simp [v, lowered, updFunc, u])
    have htold {k : Kind} {l : List Handing} (hk : Handed k l u.channels (releaseFunc f v).channels) :
        hands (ofKind k) l s (answered i .ok results (releaseFunc f v)) :=
      hands_of_handed hk hu (answered_channels ..)
    have hafter : Handed .claimExpired [] (lowered f new.toNat u).channels (releaseFunc f v).channels :=
      (hquiet (by simp)).trans_nil (releaseFunc_silent hc rfl (by simp) (by simp) (by simp))
    refine ⟨_, hexec hanswer, htold (hexpired.trans_nil hafter), fun hkept => ?_, fun h' hh' _ _ => ?_,
      eq_with_of_kept (by simp [lowered, updFunc, u])⟩
    · rcases hkept h hh with hr | hl
      · simp [hr] at hrevoke
      · exact absurd hl (Nat.not_le.mpr hlevel)
    obtain rfl : h' = h := Option.some.inj (hh'.symm.trans hh)
    refine ⟨htold ((lowered_silent (by simp)).nil_trans (hrevoked.trans_nil (releaseFunc_holdRevoked hc))),
      htold ((lowered_silent (by simp)).nil_trans ((hquiet (by simp)).nil_trans hgrant)), hringEnd, htest, ?_⟩
    have hholder := holderOf_passOn hpass
    change match left.find? (fun x => decide (x.function = f)) with
      | some x => respondedWith i .ok _ s _ ∧ _ = _ ∧ _ = left.filter (fun y => !isClaim x.channel f y)
      | none => respondedWith i .ok _ s _ ∧ _ = _ ∧ _ = left
    have htable : (answered i .ok results (releaseFunc f v)).lines =
        passOn s.uptime f ⟨s.lines.table.set f ⟨new.toNat, some h'⟩, left⟩ := by simpa using hpass
    cases hleft : left.find? (fun x => decide (x.function = f)) with
    | none =>
      have hnone : firstClaim ⟨s.lines.table.set f ⟨new.toNat, some h'⟩, left⟩ f = none := hleft
      have hcode : byte (holderCode (releaseFunc f v) f) = 0xFF := by
        rw [holderCode, hholder, hnone]
        rfl
      rw [passOn_of_none hnone] at htable
      exact ⟨hcode ▸ hports, (congrArg LineFunctions.table htable).trans (by simp [PerFunc.set_set]),
        congrArg LineFunctions.claims htable⟩
    | some x =>
      have hsome : firstClaim ⟨s.lines.table.set f ⟨new.toNat, some h'⟩, left⟩ f = some x := hleft
      have hcode : byte (holderCode (releaseFunc f v) f) = BitVec.ofNat 8 (chanCode x.channel) := by
        rw [holderCode, hholder, hsome]
        rfl
      rw [passOn_of_some hsome] at htable
      exact ⟨hcode ▸ hports, (congrArg LineFunctions.table htable).trans (by simp [PerFunc.set_set]),
        congrArg LineFunctions.claims htable⟩

end Sys2Proof.Machine
end

