-- ==== Sys2Proof/Proofs/WindowAdditions.lean ====
section
namespace Sys2Proof.Machine

/-! ## Windows that an act adds (R59, R62) -/

section
variable {now : Time} {w v x target : Window} {l m : List Window}

/-- A full list is purged (R62 step 1). -/
def purged (now : Time) (l : List Window) : List Window :=
  if l.length < 8 then l else l.filter (fun x => !removable now x)

/-- What one addition makes of the list (R62). -/
def addTo (now : Time) (w : Window) (l : List Window) : List Window :=
  if (purged now l).length < 8 then insertWindow now w (purged now l)
  else match (purged now l).getLast? with
    | some target => insertWindow now (mergeWindow now target w) (purged now l).dropLast
    | none => purged now l

theorem roomFor_windows {s : State} : (roomFor s).sched.windows = purged s.now s.sched.windows := by
  unfold roomFor purged
  split
  · rfl
  · exact purge_windows

theorem addWindow_eq_addTo {s : State} : (addWindow w s).sched.windows = addTo s.now w s.sched.windows := by
  rw [addWindow_windows, roomFor_windows]
  rfl

theorem addTo_of_room (h : (purged now l).length < 8) : addTo now w l = insertWindow now w (purged now l) := if_pos h

/-- A full list's last window takes the new one in (R62 step 3). -/
theorem addTo_of_full (h : ¬(purged now l).length < 8) : ∃ rest target, purged now l = rest ++ [target] ∧
    addTo now w l = insertWindow now (mergeWindow now target w) rest := by
  rcases List.eq_nil_or_concat (purged now l) with hnil | ⟨rest, target, hlast⟩
  · simp [hnil] at h
  · refine ⟨rest, target, by simpa using hlast, ?_⟩
    rw [addTo, if_neg h, hlast]
    simp

/-- A list with room takes the window in, and none leaves it. -/
theorem mem_addTo_of_room (h : l.length < 8) : x ∈ addTo now w l ↔ x = w ∨ x ∈ l := by
  have hp : purged now l = l := if_pos h
  rw [addTo_of_room (by rwa [hp]), mem_insertWindow, hp]

theorem purged_length_le : (purged now l).length ≤ l.length := by
  unfold purged
  split
  · exact le_rfl
  · exact List.length_filter_le _ _

theorem addTo_length_le : (addTo now w l).length ≤ l.length + 1 := by
  have hle := purged_length_le (now := now) (l := l)
  by_cases h : (purged now l).length < 8
  · rw [addTo_of_room h, insertWindow_length]
    omega
  · obtain ⟨rest, target, hlast, heq⟩ := addTo_of_full (w := w) h
    have := congrArg List.length hlast
    rw [heq, insertWindow_length]
    simp at this
    omega

/-! ### Windows that reach over one that was added -/

/-- A window that the present has not passed: open under a key, or with its end ahead. -/
def Lasting (now : Time) (w : Window) : Prop :=
  (w.stop = none ∧ w.keys ≠ []) ∨ ∃ a, w.stop = some a ∧ 0 ≤ offset now a

/-- A window of the list reaches over another and holds its keys; it is open under a key or ends no earlier. -/
def Covers (now : Time) (w x : Window) : Prop :=
  offset now x.start ≤ offset now w.start ∧ (∀ k ∈ w.keys, k ∈ x.keys) ∧
    ((x.stop = none ∧ x.keys ≠ []) ∨
      ∃ a b, w.stop = some a ∧ x.stop = some b ∧ offset now a ≤ offset now b)

theorem covers_self (h : Lasting now w) : Covers now w w := by
  refine ⟨le_rfl, fun _ hk => hk, ?_⟩
  rcases h with hopen | ⟨a, ha, -⟩
  · exact .inl hopen
  · exact .inr ⟨a, a, ha, ha, le_rfl⟩

theorem Covers.not_removable (h : Covers now w x) (hw : Lasting now w) : removable now x = false := by
  obtain ⟨-, -, ⟨hstop, -⟩ | ⟨a, b, ha, hb, hab⟩⟩ := h
  · simp [removable, hstop]
  · rcases hw with ⟨hnone, -⟩ | ⟨a', ha', hpos⟩
    · simp [ha] at hnone
    · obtain rfl : a' = a := Option.some.inj (ha'.symm.trans ha)
      simp [removable, hb]
      omega

theorem offset_earlier_le_left (a b : Time) : offset now (earlier now a b) ≤ offset now a := by
  unfold earlier
  split <;> omega

theorem offset_earlier_le_right (a b : Time) : offset now (earlier now a b) ≤ offset now b := by
  unfold earlier
  split <;> omega

theorem offset_le_later_left (a b : Time) : offset now a ≤ offset now (later now a b) := by
  unfold later
  split <;> omega

theorem offset_le_later_right (a b : Time) : offset now b ≤ offset now (later now a b) := by
  unfold later
  split <;> omega

theorem mergeWindow_open (h : unionKeys target.keys v.keys ≠ []) :
    (mergeWindow now target v).stop = none ∧ (mergeWindow now target v).keys ≠ [] := by
  simp [mergeWindow, h]

/-- A merged window reaches over the window that it was merged with. -/
theorem covers_mergeWindow_right (hw : Lasting now w) : Covers now w (mergeWindow now target w) := by
  refine ⟨offset_earlier_le_right _ _, fun k hk => mem_unionKeys.mpr (.inr hk), ?_⟩
  by_cases hkeys : unionKeys target.keys w.keys = []
  · rcases hw with ⟨-, hne⟩ | ⟨a, ha, -⟩
    · obtain ⟨k, hk⟩ := List.exists_mem_of_ne_nil _ hne
      have := mem_unionKeys (a := target.keys).mpr (.inr hk)
      simp [hkeys] at this
    · exact .inr ⟨a, _, ha, by simp [mergeWindow, hkeys, ha]; rfl, offset_le_later_right _ _⟩
  · exact .inl (mergeWindow_open hkeys)

/-- A window that is merged with another still reaches over what it reached over. -/
theorem Covers.merge (h : Covers now w target) : Covers now w (mergeWindow now target v) := by
  obtain ⟨hstart, hkeys, hstop⟩ := h
  refine ⟨(offset_earlier_le_left _ _).trans hstart, fun k hk => mem_unionKeys.mpr (.inl (hkeys k hk)), ?_⟩
  by_cases hunion : unionKeys target.keys v.keys = []
  · rcases hstop with ⟨-, hne⟩ | ⟨a, b, ha, hb, hab⟩
    · obtain ⟨k, hk⟩ := List.exists_mem_of_ne_nil _ hne
      have := mem_unionKeys (b := v.keys).mpr (.inl hk)
      simp [hunion] at this
    · refine .inr ⟨a, _, ha, by simp [mergeWindow, hunion]; rfl, hab.trans ?_⟩
      simp only [hb]
      split
      · exact (offset_le_later_right _ _).trans (offset_le_later_left _ _)
      · exact offset_le_later_right _ _
  · exact .inl (mergeWindow_open hunion)

/-- A window that was added is reached over. -/
theorem exists_covers_addTo_self (hw : Lasting now w) : ∃ x ∈ addTo now w l, Covers now w x := by
  by_cases h : (purged now l).length < 8
  · exact ⟨w, by simp [addTo_of_room h], covers_self hw⟩
  · obtain ⟨rest, target, -, heq⟩ := addTo_of_full (w := w) h
    exact ⟨mergeWindow now target w, by simp [heq], covers_mergeWindow_right hw⟩

/-- No later addition takes away what reaches over it. -/
theorem exists_covers_addTo (hw : Lasting now w) (h : ∃ x ∈ l, Covers now w x) :
    ∃ x ∈ addTo now v l, Covers now w x := by
  obtain ⟨x, hx, hcover⟩ := h
  have hp : x ∈ purged now l := by
    unfold purged
    split
    · exact hx
    · exact List.mem_filter.mpr ⟨hx, by simp [hcover.not_removable hw]⟩
  by_cases h : (purged now l).length < 8
  · exact ⟨x, by simp [addTo_of_room h, hp], hcover⟩
  · obtain ⟨rest, target, hlast, heq⟩ := addTo_of_full (w := v) h
    rw [hlast, List.mem_append, List.mem_singleton] at hp
    rcases hp with hrest | rfl
    · exact ⟨x, by simp [heq, hrest], hcover⟩
    · exact ⟨mergeWindow now x v, by simp [heq], hcover.merge⟩

/-! ### Several additions -/

/-- What additions in turn make of the list. -/
def addAll (now : Time) (m l : List Window) : List Window := m.foldl (fun l w => addTo now w l) l

theorem exists_covers_addAll (hw : Lasting now w) (h : ∃ x ∈ l, Covers now w x) :
    ∃ x ∈ addAll now m l, Covers now w x := by
  induction m generalizing l with
  | nil => exact h
  | cons v rest ih => exact ih (exists_covers_addTo hw h)

theorem addAll_length_le : (addAll now m l).length ≤ l.length + m.length := by
  induction m generalizing l with
  | nil => exact le_rfl
  | cons v rest ih =>
    have hone := addTo_length_le (now := now) (w := v) (l := l)
    refine (ih (l := addTo now v l)).trans ?_
    rw [List.length_cons]
    omega

theorem mem_addAll_of_room (h : l.length + m.length ≤ 8) (hx : x ∈ l) : x ∈ addAll now m l := by
  induction m generalizing l with
  | nil => exact hx
  | cons v rest ih =>
    have hone := addTo_length_le (now := now) (w := v) (l := l)
    rw [List.length_cons] at h
    refine ih (l := addTo now v l) (by omega) ((mem_addTo_of_room (by omega)).mpr (.inr hx))

end

/-! ## Additions between two states -/

/-- An act added these windows to the list, in this order, and did nothing else to it. -/
def Adds (m : List Window) (s t : State) : Prop :=
  t.now = s.now ∧ t.sched.windows = addAll s.now m s.sched.windows

/-- An act added at most `n` windows to the list and did nothing else to it. -/
def AddsUpTo (n : Nat) (s t : State) : Prop := ∃ m : List Window, m.length ≤ n ∧ Adds m s t

section
variable {w : Window} {m m' : List Window} {n k : Nat} {s t u : State}

theorem Adds.trans (h : Adds m s t) (h' : Adds m' t u) : Adds (m ++ m') s u := by
  obtain ⟨hnow, hl⟩ := h
  obtain ⟨hnow', hl'⟩ := h'
  refine ⟨hnow'.trans hnow, ?_⟩
  rw [hl', hl, hnow, addAll, addAll, addAll, List.foldl_append]

theorem AddsUpTo.trans (h : AddsUpTo n s t) (h' : AddsUpTo k t u) : AddsUpTo (n + k) s u := by
  obtain ⟨m, hm, hadds⟩ := h
  obtain ⟨m', hm', hadds'⟩ := h'
  exact ⟨m ++ m', by simp; omega, hadds.trans hadds'⟩

/-- An act that leaves the list. -/
theorem addsUpTo_of_eq (hc : t.clock = s.clock) (hl : t.sched.windows = s.sched.windows) : AddsUpTo n s t :=
  ⟨[], by simp, by simp [State.now, hc], hl⟩

theorem AddsUpTo.refl : AddsUpTo n s s := addsUpTo_of_eq rfl rfl

theorem AddsUpTo.mono (h : AddsUpTo n s t) (hk : n ≤ k) : AddsUpTo k s t := by
  obtain ⟨m, hm, hadds⟩ := h
  exact ⟨m, hm.trans hk, hadds⟩

/-- A window with no key closes no other as it is handed (R60). -/
theorem handWindow_adds {src : WindowSource} {p : Option Port} {id : Option Byte} {x : Time} {tail : Option Nat}
    (h : (handed src p id x tail).keys = []) :
    Adds [handed src p id x tail] s (handWindow src p id x tail s) := by
  refine ⟨by simp [State.now], ?_⟩
  rw [handWindow_sched, h]
  exact addWindow_eq_addTo

/-- A window that is added after others, from a list no longer than before, and before others was opened. -/
theorem windowOpened_of_adds {room : Nat} (hw : Lasting s.now w) (hnow : u.now = s.now)
    (hlen : u.sched.windows.length + m.length + 1 ≤ s.sched.windows.length + room) (h : Adds (w :: m) u t) :
    windowOpened w room s t := by
  obtain ⟨-, hl⟩ := h
  rw [addAll, List.foldl_cons, ← addAll, hnow] at hl
  refine ⟨?_, fun hroom => ?_⟩
  · obtain ⟨x, hx, hstart, hkeys, hstop⟩ :=
      exists_covers_addAll (m := m) hw (exists_covers_addTo_self (l := u.sched.windows) hw)
    refine ⟨x, hl ▸ hx, hstart, hkeys, fun a b ha hb => ?_⟩
    rcases hstop with ⟨hnone, -⟩ | ⟨a', b', ha', hb', hle⟩
    · simp [hnone] at hb
    · obtain rfl : a' = a := Option.some.inj (ha'.symm.trans ha)
      obtain rfl : b' = b := Option.some.inj (hb'.symm.trans hb)
      exact hle
  · have hone := addTo_length_le (now := s.now) (w := w) (l := u.sched.windows)
    rw [hl]
    exact mem_addAll_of_room (by omega) ((mem_addTo_of_room (by omega)).mpr (.inl rfl))

end

end Sys2Proof.Machine
end

