-- ==== Sys2Proof/Proofs/LoopFollowing.lean ====
section
namespace Sys2Proof.Machine

/-! ## What following the loops and handing closed windows leave alone -/

/-- The engine but for the readings of a test in MEASURE (R142). -/
def unread (e : Engine) : Engine :=
  match e.test with
  | some x => if x.phase = .measure then { e with test := some (forgetReadings x), cleanDue := none } else e
  | none => e

theorem unread_of_not_measure {e : Engine} (h : ∀ x, e.test = some x → x.phase ≠ .measure) : unread e = e := by
  unfold unread
  split
  · next x hx => exact if_neg (h x hx)
  · rfl

theorem unread_test {e : Engine} : (unread e).test = e.test.map forgetReadings := by
  unfold unread
  split
  · next x hx =>
    rw [hx, Option.map_some, forgetReadings]
    split
    · rfl
    · exact hx
  · next hx => simp [hx]

@[simp] theorem forgetReadings_phase (x : Test) : (forgetReadings x).phase = x.phase := by
  unfold forgetReadings
  split <;> rfl

@[simp] theorem unread_result (e : Engine) : (unread e).result = e.result := by
  unfold unread
  (repeat' split) <;> rfl

/-- A reading changes nothing outside MEASURE. -/
theorem engine_of_unread {e e' : Engine} (h : unread e' = unread e) (hm : ∀ x, e.test = some x → x.phase ≠ .measure) :
    e' = e := by
  have htest : e'.test.map forgetReadings = e.test.map forgetReadings := by rw [← unread_test, ← unread_test, h]
  have hm' : ∀ y, e'.test = some y → y.phase ≠ .measure := fun y hy => by
    rw [hy, Option.map_some] at htest
    obtain ⟨x, hx, hxy⟩ := Option.map_eq_some_iff.mp htest.symm
    have hphase : x.phase = y.phase := by simpa using congrArg Test.phase hxy
    exact hphase ▸ hm x hx
  rwa [unread_of_not_measure hm, unread_of_not_measure hm'] at h

/-- A port's record but for its overload timer and its dial record, with what its supervisor keeps while it follows its
loop (R91, R105, R107). -/
structure PortRecord where
  mode : Mode
  switch : Option ModeSwitch
  denial : Option Denial
  underTest : Bool
  suspended : Bool
  timing : HookTiming
  frozen : Option HookState
  masked : Bool

def portRecord (q : PhonePort) : PortRecord where
  mode := q.mode
  switch := q.switch
  denial := q.denial
  underTest := q.underTest
  suspended := q.suspended
  timing := q.timing
  frozen := q.sup.frozen
  masked := q.sup.masked

/-- A state with the channels, the window list, the marks, the ports, the engine and the battery watch of another. -/
def exceptLoops (r s : State) : State := { s with
  channels := r.channels, sched := { s.sched with windows := r.sched.windows }
  tracker := { s.tracker with obscured := r.tracker.obscured }, ports := r.ports, engine := r.engine
  faults := { s.faults with watch := r.faults.watch } }

/-- What the loop supervisors and closed windows leave alone, seen beside another state. -/
structure Ground where
  others : State
  records : Port → PortRecord
  engine : Engine

def ground (r s : State) : Ground := ⟨exceptLoops r s, fun p => portRecord (s.port p), unread s.engine⟩

/-- An act follows the loops: of the rest of the state it changes what a closed window or a loop may. -/
def Follows (s t : State) : Prop := ∀ r, ground r t = ground r s

section
variable {r s t u : State}

theorem Follows.refl : Follows s s := fun _ => rfl

theorem Follows.trans (h : Follows s t) (h' : Follows t u) : Follows s u := fun r => (h' r).trans (h r)

theorem Follows.eq (h : Follows s t) : t = { s with
    channels := t.channels, sched := { s.sched with windows := t.sched.windows }
    tracker := { s.tracker with obscured := t.tracker.obscured }, ports := t.ports, engine := t.engine
    faults := { s.faults with watch := t.faults.watch } } :=
  congrArg Ground.others (h t)

theorem Follows.record (h : Follows s t) (p : Port) : portRecord (t.port p) = portRecord (s.port p) :=
  congrFun (congrArg Ground.records (h s)) p

theorem Follows.unread (h : Follows s t) : unread t.engine = unread s.engine := congrArg Ground.engine (h s)

theorem Follows.engine (h : Follows s t) (hm : ∀ x, s.engine.test = some x → x.phase ≠ .measure) :
    t.engine = s.engine := engine_of_unread h.unread hm

/-! ### Notices and the battery watch -/

@[simp] theorem post_ground (n : Notice) (b : Channel → Bool) : ground r (post n b s) = ground r s := by
  unfold post
  dsimp only
  (repeat' split) <;> rfl

@[simp] theorem postSubscribed_ground (n : Notice) : ground r (postSubscribed n s) = ground r s := post_ground n _

@[simp] theorem postCompletion_ground (n : Notice) (c : Channel) : ground r (postCompletion n c s) = ground r s :=
  post_ground n _

@[simp] theorem judgeWatch_ground : ground r (judgeWatch s) = ground r s := by
  unfold judgeWatch
  (repeat' split) <;> rfl

theorem updPort_ground {p : Port} {f : PhonePort → PhonePort}
    (hf : portRecord (f (s.port p)) = portRecord (s.port p)) : ground r (s.updPort p f) = ground r s := by
  have hrecord (q : Port) : portRecord ((s.updPort p f).port q) = portRecord (s.port q) := by
    by_cases hq : q = p
    · rw [hq, State.updPort_port_same, hf]
    · rw [State.updPort_port_other _ _ _ _ hq]
  simp only [ground, hrecord]
  rfl

@[simp] theorem updSup_ground {p : Port} {f : Supervisor → Supervisor} (hfrozen : (f (s.port p).sup).frozen = (s.port p).sup.frozen)
    (hmasked : (f (s.port p).sup).masked = (s.port p).sup.masked) : ground r (s.updSup p f) = ground r s := by
  refine updPort_ground ?_
  simp only [portRecord, hfrozen, hmasked]

@[simp] theorem judgeOverload_ground (p : Port) : ground r (judgeOverload p s) = ground r s := by
  unfold judgeOverload
  (repeat' split)
  · rfl
  · exact updPort_ground rfl
  · exact updPort_ground rfl

/-! ### Windows -/

@[simp] theorem reading_ground : ground r (reading s) = ground r s := by
  unfold reading
  (repeat' split)
  · next t _ ht _ _ _ hp _ =>
    simp only [ground, unread, forgetReadings, State.updEngine_engine, ht, hp, if_true]
    rfl
  · rfl
  · rfl

@[simp] theorem closeWindow_ground (k : WindowKey) (t : Time) : ground r (closeWindow k t s) = ground r s := by
  unfold closeWindow
  split
  · rw [reading_ground]
    rfl
  · rfl

@[simp] theorem closeStanding_ground (l : List WindowKey) : ground r (closeStanding l s) = ground r s := by
  induction l generalizing s with
  | nil => rfl
  | cons k rest ih => rw [closeStanding, ih, closeWindow_ground]

@[simp] theorem departAll_ground (l : List Window) : ground r (departAll l s) = ground r s := by
  induction l generalizing s with
  | nil => rfl
  | cons k rest ih =>
    rw [departAll, ih]
    unfold departWindow
    split <;> rfl

@[simp] theorem addWindow_ground (w : Window) : ground r (addWindow w s) = ground r s := by
  have hp : ground r (purge s) = ground r s := by
    rw [purge, departAll_ground]
    rfl
  unfold addWindow
  dsimp only
  (repeat' split)
  · rfl
  · rw [← hp]
    rfl
  · rw [← hp]
    rfl
  · exact hp

@[simp] theorem handWindow_ground (src : WindowSource) (p : Option Port) (id : Option Byte) (t : Time)
    (tail : Option Nat) : ground r (handWindow src p id t tail s) = ground r s := by
  simp [handWindow]

/-! ### The supervisors -/

@[simp] theorem hookNotice_ground (p : Port) (off : Bool) (why : HookReason) (d : Time) :
    ground r (hookNotice p off why d s) = ground r s := by
  simp [hookNotice]

@[simp] theorem digitNotice_ground (p : Port) (e f u : Bool) (v n : Nat) :
    ground r (digitNotice p e f u v n s) = ground r s := by
  simp [digitNotice]

@[simp] theorem unplanned_ground (k : Unplanned) (p : Option Port) (n : Nat) :
    ground r (unplanned k p n s) = ground r s := by
  simp [unplanned]

@[simp] theorem recordEntry_ground (p : Port) (e : DialEntry) (n : Nat) :
    ground r (recordEntry p e n s) = ground r s := by
  unfold recordEntry
  dsimp only
  split
  · rfl
  · rw [digitNotice_ground]
    refine updPort_ground ?_
    split <;> rfl

@[simp] theorem completeDigit_ground (p : Port) : ground r (completeDigit p s) = ground r s := by
  unfold completeDigit
  dsimp only
  (repeat' split) <;> simp

@[simp] theorem releasePort_ground (p : Port) : ground r (releasePort p s) = ground r s := by
  unfold releasePort
  dsimp only
  split <;> simp

@[simp] theorem beginSeizing_ground (p : Port) : ground r (beginSeizing p s) = ground r s := updPort_ground rfl

@[simp] theorem beginBreak_ground (p : Port) : ground r (beginBreak p s) = ground r s := by
  rw [beginBreak, judgeWatch_ground]
  exact updPort_ground rfl

@[simp] theorem makeAgain_ground (p : Port) : ground r (makeAgain p s) = ground r s := by
  simp [makeAgain]

@[simp] theorem endBreak_ground (p : Port) : ground r (endBreak p s) = ground r s := by
  unfold endBreak
  dsimp only
  (repeat' split)
  · simp
  · rw [makeAgain_ground]
    exact updPort_ground rfl
  · simp
  · simp
  · simp

@[simp] theorem takeLoop_ground (p : Port) (b : Bool) : ground r (takeLoop p b s) = ground r s := by
  unfold takeLoop
  dsimp only
  (repeat' split) <;> simp

@[simp] theorem senseLoop_ground (p : Port) : ground r (senseLoop p s) = ground r s := by
  unfold senseLoop
  split <;> simp

/-- A restart follows the loop once its supervisor is at rest (R113). -/
theorem restart_ground (p : Port) (why : Option HookReason) : ground r (restart p why s) = ground r (restartQuiet p s) := by
  unfold restart
  dsimp only
  (repeat' split) <;> simp

end

end Sys2Proof.Machine
end

