-- ==== Sys2Proof/Proofs/ChangeSets.lean ====
section
namespace Sys2Proof.Machine

/-! ## The windows of a change set (R59, R118) -/

section
variable {p : Port} {s t : State}

/-- The loop field takes the change, and a HOOK window is handed while the pass-through stands CLOSED (R118). -/
def loopTaken (p : Port) (b : Bool) (s : State) : State :=
  let s := s.updSup p (fun u => { u with loop := b })
  if s.relays.pass.get p = .closed then handWindow .hook (some p) none s.now (some 30) s else s

/-- The supervisor's change of state at a loop change (R109, R110). -/
def loopJudged (p : Port) (b : Bool) (s : State) : State :=
  match (s.port p).sup.state, b with
  | .onHook, true => beginSeizing p s
  | .seizing, false => s.updSup p (fun u => { u with state := .onHook, seizeTimer := .stopped })
  | .offHook, false => beginBreak p s
  | .break_, true => endBreak p s
  | _, _ => s

theorem takeLoop_eq (b : Bool) : takeLoop p b s = loopJudged p b (loopTaken p b s) := rfl

theorem loopTaken_adds (b : Bool) : AddsUpTo 1 s (loopTaken p b s) := by
  refine AddsUpTo.trans (n := 0) (k := 1) (t := s.updSup p (fun u => { u with loop := b })) (addsUpTo_of_eq rfl rfl) ?_
  unfold loopTaken
  dsimp only
  split
  · exact ⟨_, le_rfl, handWindow_adds rfl⟩
  · exact .refl

theorem loopJudged_adds (b : Bool) : AddsUpTo 0 s (loopJudged p b s) := by
  unfold loopJudged
  split
  · exact addsUpTo_of_eq rfl rfl
  · exact addsUpTo_of_eq rfl rfl
  · exact addsUpTo_of_eq (by simp) (by simp)
  · exact addsUpTo_of_eq (by simp) (by simp)
  · exact .refl

/-- A loop change hands one HOOK window at most (R118). -/
theorem takeLoop_adds (b : Bool) : AddsUpTo 1 s (takeLoop p b s) :=
  (loopTaken_adds b).trans (loopJudged_adds b)

theorem senseLoop_adds : AddsUpTo 1 s (senseLoop p s) := by
  unfold senseLoop
  split
  · exact takeLoop_adds _
  · exact .refl

theorem portAfterChange_adds (c : Change) (a : Asker) : AddsUpTo 1 s (portAfterChange c a p s) := by
  have h : AddsUpTo 0 s (judgeOverload p (judgeSuspended c a p (endDenialByFeed c p s))) :=
    addsUpTo_of_eq (by simp) (by simp)
  exact h.trans senseLoop_adds

/-! ## An application -/

/-- A change set placed, its settle started (R42). -/
def placed (c : Change) (a : Asker) (s : State) : State := startSettle a (s.setRelays (moveRelays s.relays c))

/-- The ports and the battery watch follow a change set. -/
def followed (c : Change) (a : Asker) (s : State) : State :=
  judgeWatch (portAfterChange c a .p2 (portAfterChange c a .p1 s))

theorem applyChange_eq (c : Change) (a : Asker) (id : Byte) : applyChange c a id s =
    if refusedByBus s.relays (widen c) = true then none
    else some (followed (widen c) a (handWindow .relay none (some id) s.now (some 70) (placed (widen c) a s))) := rfl

theorem judgeWatch_adds : AddsUpTo 0 s (judgeWatch s) := addsUpTo_of_eq (by simp) (by simp)

theorem followed_adds (c : Change) (a : Asker) : AddsUpTo 2 s (followed c a s) :=
  ((portAfterChange_adds c a).trans (portAfterChange_adds c a)).trans judgeWatch_adds

@[simp] theorem followed_parts (c : Change) (a : Asker) : (followed c a s).relays = s.relays ∧
    (followed c a s).settles = s.settles := by
  simp [followed]

theorem lasting_relayWindow (now : Time) (id : Option Byte) : Lasting now (relayWindow now id) := by
  refine .inr ⟨_, rfl, ?_⟩
  have : now + ms 70 - now = 70000#32 := by
    rw [ms]
    bv_omega
  rw [offset, this]
  decide

/-- A RELAY window that is handed after others, and before others, was opened (R59). -/
theorem windowOpened_relayWindow {id : Option Byte} {room n : Nat} {u : State} (hnow : u.now = s.now)
    (hlen : u.sched.windows.length + n + 1 ≤ s.sched.windows.length + room)
    (hadds : AddsUpTo n (handWindow .relay none id u.now (some 70) u) t) :
    windowOpened (relayWindow s.now id) room s t := by
  obtain ⟨m, hm, hadds⟩ := hadds
  have hall : Adds (handed .relay none id u.now (some 70) :: m) u t := (handWindow_adds rfl).trans hadds
  rw [hnow] at hall
  exact windowOpened_of_adds (u := u) (lasting_relayWindow _ _) hnow (by omega) hall

/-- What a change set that is not refused makes of the relays, the settles and the window list (R42, R59). -/
theorem applyChange_applied {c : Change} {a : Asker} {id : Byte} (h : refusedByBus s.relays (widen c) = false) :
    ∃ t, applyChange c a id s = some t ∧ t.relays = moveRelays s.relays (widen c) ∧
      t.settles = s.settles ++ [⟨a, s.now + ms 20⟩] ∧ windowOpened (relayWindow s.now (some id)) 3 s t := by
  refine ⟨_, (applyChange_eq c a id).trans (if_neg (by simp [h])), by simp [placed, startSettle],
    by simp [placed, startSettle, State.now], ?_⟩
  exact windowOpened_relayWindow (u := placed (widen c) a s) (n := 2) rfl (by simp [placed, startSettle])
    (followed_adds _ _)

end

theorem widen_of_exchange {c : Change} (h : c.bus = some .exchange) :
    widen c = { c with pass := ⟨some .open_, some .open_⟩, dsl := some .decoupled } := if_pos h

theorem widen_of_ne {c : Change} (h : c.bus ≠ some .exchange) : widen c = c := if_neg h

/-- The change sets that the test bus rule refuses (R44). -/
theorem refusedByBus_iff {r : Relays} {c : Change} : refusedByBus r c = true ↔ c.bus = none ∧ r.bus = .exchange ∧
    (c.pass.p1 = some .closed ∨ c.pass.p2 = some .closed ∨ c.dsl = some .coupled) := by
  simp only [refusedByBus, Bool.and_eq_true, Bool.or_eq_true, decide_eq_true_eq, Option.isNone_iff_eq_none, or_assoc]
  tauto

theorem fallbackRelays_eq (s : State) : fallbackRelays s = judgeWatch (senseLoop .p2 (senseLoop .p1
    (handWindow .relay none none s.now (some 70)
      ((s.setRelays (defaultRelays s.relays.lineBreak)).setSettles [])))) := rfl

/-- Settles O20: a change set that is applied is placed whole, and its RELAY window stands before those of the loops
that follow it. -/
theorem changeSetsKeepTheBusRule : Obligations.ChangeSetsKeepTheBusRule := by
  refine ⟨fun c a id s => ⟨fun hbus => ?_, fun hbus hexchange hclose => ?_, fun hbus hnot => ?_⟩, fun s => ?_⟩
  · have hwide := widen_of_exchange hbus
    have hno : refusedByBus s.relays (widen c) = false := by
      rw [Bool.eq_false_iff, ne_eq, refusedByBus_iff]
      simp [hwide, hbus]
    obtain ⟨t, ht, hrelays, hsettles, hwindow⟩ := applyChange_applied (a := a) (id := id) hno
    refine ⟨t, ht, ?_⟩
    rw [hrelays, hwide]
    exact ⟨by simp [moveRelays, hbus], rfl, rfl, rfl, rfl, hsettles, hwindow⟩
  · have hwide := widen_of_ne (c := c) (by simp [hbus])
    have hyes : refusedByBus s.relays (widen c) = true := by
      rw [hwide]
      exact refusedByBus_iff.mpr ⟨hbus, hexchange, hclose⟩
    exact (applyChange_eq c a id).trans (if_pos hyes)
  · have hwide := widen_of_ne hbus
    have hno : refusedByBus s.relays (widen c) = false := by
      rwa [Bool.eq_false_iff, ne_eq, hwide, refusedByBus_iff]
    obtain ⟨t, ht, hrelays, hsettles, hwindow⟩ := applyChange_applied (a := a) (id := id) hno
    exact ⟨t, ht, by rw [hrelays, hwide]; rfl, hsettles, hwindow⟩
  · have hadds {u : State} : AddsUpTo 2 u (judgeWatch (senseLoop .p2 (senseLoop .p1 u))) :=
      (senseLoop_adds.trans senseLoop_adds).trans judgeWatch_adds
    refine ⟨by simp [fallbackRelays_eq, defaultRelays], by simp [fallbackRelays_eq], ?_⟩
    exact windowOpened_relayWindow (u := (s.setRelays (defaultRelays s.relays.lineBreak)).setSettles []) rfl (by simp)
      hadds

end Sys2Proof.Machine
end

