-- ==== Sys2Proof/Proofs/Applications.lean ====
section
namespace Sys2Proof.Machine

/-! ## A change set that the test bus allows (R42 to R44) -/

/-- A state after a change set was applied. -/
def applied (c : Change) (a : Asker) (id : Byte) (s : State) : State :=
  followed (widen c) a (handWindow .relay none (some id) s.now (some 70) (placed (widen c) a s))

/-- A record's parts that no application touches: without its denial and its suspended flag (R92, R102). -/
def PortRecord.own (q : PortRecord) : PortRecord := { q with denial := none, suspended := false }

/-- What an application leaves alone beside the relays and the settles. -/
def Ground.own (g : Ground) : Ground := { g with records := fun p => (g.records p).own }

section
variable {c : Change} {a : Asker} {id : Byte} {p : Port} {r s s0 : State}

theorem applyChange_of_allowed (h : refusedByBus s.relays (widen c) = false) :
    applyChange c a id s = some (applied c a id s) :=
  (applyChange_eq c a id).trans (if_neg (by simp [h]))

theorem applyChange_of_refused (h : refusedByBus s.relays (widen c) = true) : applyChange c a id s = none :=
  (applyChange_eq c a id).trans (if_pos h)

/-- A change set that names the bus is never refused (R44). -/
theorem refusedByBus_of_bus {x : Relays} (h : c.bus ≠ none) : refusedByBus x (widen c) = false := by
  have hw : (widen c).bus = c.bus := by
    unfold widen
    split <;> rfl
  rw [Bool.eq_false_iff, ne_eq, refusedByBus_iff, hw]
  exact fun hr => h hr.1

theorem applied_relays : (applied c a id s).relays = moveRelays s.relays (widen c) := by
  simp [applied, placed, startSettle]

theorem applied_settles : (applied c a id s).settles = s.settles ++ [⟨a, s.now + ms 20⟩] := by
  simp [applied, placed, startSettle, State.now]

/-- The RELAY window of an application, seen from a state before it that the present has not left (R59). -/
theorem applied_opened {room : Nat} (hnow : s.now = s0.now)
    (hlen : s.sched.windows.length + 3 ≤ s0.sched.windows.length + room) :
    windowOpened (relayWindow s0.now (some id)) room s0 (applied c a id s) :=
  windowOpened_relayWindow (u := placed (widen c) a s) (n := 2) hnow hlen (followed_adds _ _)

theorem applied_adds : ∃ m : List Window, m.length ≤ 3 ∧ Adds m s (applied c a id s) := by
  have hplaced : AddsUpTo 0 s (placed (widen c) a s) := addsUpTo_of_eq rfl rfl
  have hrelay : AddsUpTo 1 (placed (widen c) a s)
      (handWindow .relay none (some id) s.now (some 70) (placed (widen c) a s)) := ⟨_, le_rfl, handWindow_adds rfl⟩
  exact (hplaced.trans hrelay).trans (followed_adds _ _)

/-! ### What it leaves alone -/

theorem updPort_own {f : PhonePort → PhonePort}
    (hf : (portRecord (f (s.port p))).own = (portRecord (s.port p)).own) :
    (ground r (s.updPort p f)).own = (ground r s).own := by
  have hrecord (q : Port) : (portRecord ((s.updPort p f).port q)).own = (portRecord (s.port q)).own := by
    by_cases hq : q = p
    · rw [hq, State.updPort_port_same, hf]
    · rw [State.updPort_port_other _ _ _ _ hq]
  simp only [ground, Ground.own, hrecord]
  rfl

theorem endDenialByFeed_own : (ground r (endDenialByFeed c p s)).own = (ground r s).own := by
  unfold endDenialByFeed
  split
  · exact updPort_own rfl
  · rfl

theorem judgeSuspended_own : (ground r (judgeSuspended c a p s)).own = (ground r s).own := by
  unfold judgeSuspended
  (repeat' split)
  · exact updPort_own rfl
  · exact updPort_own rfl
  · rfl

theorem portAfterChange_own : (ground r (portAfterChange c a p s)).own = (ground r s).own := by
  rw [portAfterChange, senseLoop_ground, judgeOverload_ground, judgeSuspended_own, endDenialByFeed_own]

theorem applied_own : (ground r (applied c a id s)).own = (ground r (placed (widen c) a s)).own := by
  rw [applied, followed, judgeWatch_ground, portAfterChange_own, portAfterChange_own, handWindow_ground]

/-- Of the rest of the state an application changes what a closed window or a loop may. -/
theorem applied_eq : applied c a id s = { s with
    channels := (applied c a id s).channels, relays := moveRelays s.relays (widen c)
    settles := s.settles ++ [⟨a, s.now + ms 20⟩]
    sched := { s.sched with windows := (applied c a id s).sched.windows }
    tracker := { s.tracker with obscured := (applied c a id s).tracker.obscured }, ports := (applied c a id s).ports
    engine := (applied c a id s).engine, faults := { s.faults with watch := (applied c a id s).faults.watch } } :=
  congrArg Ground.others (applied_own (r := applied c a id s) (c := c) (a := a) (id := id) (s := s))

theorem applied_record (q : Port) : (portRecord ((applied c a id s).port q)).own = (portRecord (s.port q)).own :=
  congrFun (congrArg Ground.records (applied_own (r := s) (c := c) (a := a) (id := id) (s := s))) q

theorem applied_unread : unread (applied c a id s).engine = unread s.engine :=
  congrArg Ground.engine (applied_own (r := s) (c := c) (a := a) (id := id) (s := s))

/-- The engine stands through an application outside MEASURE. -/
theorem applied_engine (h : ∀ x, s.engine.test = some x → x.phase ≠ .measure) : (applied c a id s).engine = s.engine :=
  engine_of_unread applied_unread h

theorem applied_slots : (applied c a id s).sched.slots = s.sched.slots := by
  rw [applied_eq]

end

/-! ## CONNECT (R141) -/

section
variable {x : Test} {s : State}

theorem connectChange_bus (t : Target) : (connectChange s t).bus ≠ none := by
  cases t <;> simp [connectChange]

/-- The connect change set places every member that it names (R44, R141). -/
theorem moveRelays_connect (r : Relays) (t : Target) :
    moveRelays r (widen (connectChange s t)) = connectedRelays t r := by
  cases t with
  | exchange =>
    rw [widen_of_exchange rfl]
    rfl
  | home p =>
    rw [widen_of_ne (by simp [connectChange])]
    cases p <;> rfl

theorem connectTest_eq_applied (hx : s.engine.test = some x) (hp : x.phase = .notify) : connectTest s =
    applied (connectChange (testConnecting x s) x.target) .testConnect x.id (testConnecting x s) := by
  rw [connectTest_eq hx hp, applyChange_of_allowed (refusedByBus_of_bus (connectChange_bus _)), Option.getD_some]

/-- A test as CONNECT makes it (R141). -/
def connecting (x : Test) (s : State) : Test := { x with phase := .connect, preTest := couplingBefore x s }

theorem testConnecting_engine (hx : s.engine.test = some x) : (testConnecting x s).engine =
    { s.engine with test := some (connecting x s), detached := s.engine.detached.map (fun _ => ⟨false⟩) } := by
  let u := updTest (fun t => { t with phase := .connect, preTest := couplingBefore x s }) s
  have hu : u.engine = { s.engine with test := some (connecting x s) } := by simp [u, updTest, hx]; rfl
  have hread : unread (handWindow .test (targetPort x.target) (some x.id) s.now none u).engine = unread u.engine :=
    congrArg Ground.engine (handWindow_ground (r := s) ..)
  have hengine := engine_of_unread hread (fun y hy => by
    rw [hu] at hy
    cases hy
    simp [connecting])
  rw [testConnecting, State.updEngine_engine]
  change ({ (handWindow .test (targetPort x.target) (some x.id) s.now none u).engine with detached := _ } : Engine) = _
  rw [hengine, hu]

/-- A window that is handed open closes one that stands under its key before it is added (R60). -/
theorem handWindow_adds_after {src : WindowSource} {p : Option Port} {id : Option Byte} {t : Time} {tail : Option Nat} :
    Adds [handed src p id t tail] (closeStanding (handed src p id t tail).keys s) (handWindow src p id t tail s) := by
  refine ⟨by simp [State.now], ?_⟩
  rw [handWindow_sched, addWindow_eq_addTo]
  rfl

/-- The state of a connecting test in which the TEST window is added. -/
def testUncovered (x : Test) (s : State) : State :=
  closeStanding [.test] (updTest (fun t => { t with phase := .connect, preTest := couplingBefore x s }) s)

theorem testConnecting_adds : Adds [testWindow s.now x.target x.id] (testUncovered x s) (testConnecting x s) := by
  have h := handWindow_adds_after (src := .test) (p := targetPort x.target) (id := some x.id) (t := s.now) (tail := none)
    (s := updTest (fun t => { t with phase := .connect, preTest := couplingBefore x s }) s)
  have hw : handed .test (targetPort x.target) (some x.id) s.now none = testWindow s.now x.target x.id := by
    cases x.target <;> rfl
  rwa [hw] at h

theorem testUncovered_length : (testUncovered x s).sched.windows.length = s.sched.windows.length :=
  closeStanding_length _

theorem testUncovered_now : (testUncovered x s).now = s.now := by simp [testUncovered, State.now, updTest]

theorem testConnecting_length : (testConnecting x s).sched.windows.length ≤ s.sched.windows.length + 1 := by
  obtain ⟨-, hl⟩ := testConnecting_adds (x := x) (s := s)
  rw [hl, ← testUncovered_length (x := x)]
  exact addAll_length_le

@[simp] theorem testConnecting_parts : (testConnecting x s).clock = s.clock ∧
    (testConnecting x s).relays = s.relays ∧ (testConnecting x s).ports = s.ports ∧
    (testConnecting x s).sched.slots = s.sched.slots := by
  have hg := congrArg Ground.others (handWindow_ground (r := s) .test (targetPort x.target) (some x.id) s.now none
    (s := updTest (fun t => { t with phase := .connect, preTest := couplingBefore x s }) s))
  refine ⟨by simp [testConnecting, updTest], by simp [testConnecting, updTest], by simp [testConnecting, updTest], ?_⟩
  exact (congrArg (fun u : State => u.sched.slots) hg :)

theorem lasting_testWindow {now : Time} {t : Target} {id : Byte} : Lasting now (testWindow now t id) :=
  .inl ⟨rfl, by simp [testWindow]⟩

/-- What CONNECT makes of a test's state (R59, R141). -/
structure Connected (x : Test) (s t : State) : Prop where
  engine : t.engine = { s.engine with
    test := some (connecting x s), detached := s.engine.detached.map (fun _ => ⟨false⟩) }
  relays : t.relays = connectedRelays x.target s.relays
  slots : t.sched.slots = s.sched.slots
  record : ∀ p, (portRecord (t.port p)).own = (portRecord (s.port p)).own
  testOpened : windowOpened (testWindow s.now x.target x.id) 4 s t
  relayOpened : windowOpened (relayWindow s.now (some x.id)) 4 s t

theorem connectTest_connected (hx : s.engine.test = some x) (hp : x.phase = .notify) :
    Connected x s (connectTest s) := by
  have hengine := testConnecting_engine hx
  have hnow : (testConnecting x s).now = s.now := by simp [State.now]
  rw [connectTest_eq_applied hx hp]
  refine ⟨?_, ?_, ?_, fun p => ?_, ?_, ?_⟩
  · rw [applied_engine, hengine]
    intro y hy
    rw [hengine] at hy
    cases hy
    simp [connecting]
  · rw [applied_relays, moveRelays_connect]
    simp
  · rw [applied_slots]
    simp
  · rw [applied_record]
    simp [State.port]
  · obtain ⟨m, hm, hadds⟩ := applied_adds (c := connectChange (testConnecting x s) x.target) (a := .testConnect)
      (id := x.id) (s := testConnecting x s)
    refine windowOpened_of_adds lasting_testWindow testUncovered_now ?_ (testConnecting_adds.trans hadds)
    rw [testUncovered_length]
    simp
    omega
  · refine applied_opened hnow ?_
    have := testConnecting_length (x := x) (s := s)
    omega

end

end Sys2Proof.Machine
end

