-- ==== Sys2Proof/Proofs/TestsStarted.lean ====
section
namespace Sys2Proof.Machine

/-! ## Opening a slot (R49) -/

section
variable {i : SlotId} {work : WorkKind} {p : Option Port} {duration : Option Nat} {deferrable : Bool} {s : State}

/-- The record of a slot that is opened (R48, R49). -/
def recordOf (work : WorkKind) (p : Option Port) (duration : Option Nat) (deferrable : Bool) (s : State) :
    Disturbance where
  id := freeId s s.sched.nextId 4
  work := work
  port := p
  state := if s.sched.lead = 0 then .active s.now else .notified (s.now + ms s.sched.lead)
  duration := duration
  deferrable := deferrable

/-- What opening a slot makes of the state (R48 to R50). -/
structure Opened (i : SlotId) (d : Disturbance) (s t : State) : Prop where
  slots : t.sched.slots = s.sched.slots.set i (some d)
  windows : t.sched.windows = s.sched.windows
  lead : t.sched.lead = s.sched.lead
  rest : t = { s with channels := t.channels, sched := t.sched }

theorem PerSlot.set_set {α : Type} (x : PerSlot α) (i : SlotId) (a b : α) : (x.set i a).set i b = x.set i b := by
  cases i <;> rfl

theorem openSlot_of_empty (h : slotRec s i = none) : ∃ t,
    openSlot i work p duration deferrable s = some (t, freeId s s.sched.nextId 4) ∧
      Opened i (recordOf work p duration deferrable s) s t := by
  let d : Disturbance :=
    ⟨freeId s s.sched.nextId 4, work, p, .notified (s.now + ms s.sched.lead), duration, deferrable⟩
  let u := (setSlot i (some d) s).updSched (fun k => { k with nextId := freeId s s.sched.nextId 4 + 1 })
  let v := postSubscribed (disturbNotice s.now s.sched.lead d) u
  have hv : v = { u with channels := v.channels } := post_eq _ _ _
  have hnow : v.now = s.now := by simp [v, u, State.now]
  have hopen : openSlot i work p duration deferrable s =
      if s.sched.lead = 0 then some (setSlot i (some { d with state := .active v.now }) v, d.id) else some (v, d.id) := by
    rw [openSlot, h]
    rfl
  rw [hnow] at hopen
  by_cases hlead : s.sched.lead = 0
  · have hd : recordOf work p duration deferrable s = { d with state := .active s.now } := by simp [recordOf, hlead, d]
    refine ⟨_, hopen.trans (if_pos hlead), ?_, ?_, ?_, ?_⟩
    · rw [hd, setSlot, hv]
      exact PerSlot.set_set _ _ _ _
    · rw [setSlot, hv]
      rfl
    · rw [setSlot, hv]
      rfl
    · rw [setSlot, hv]
      rfl
  · have hd : recordOf work p duration deferrable s = d := by simp [recordOf, hlead, d]
    refine ⟨_, hopen.trans (if_neg hlead), ?_, ?_, ?_, ?_⟩ 
    · rw [hd, hv]
      rfl
    · rw [hv]
      rfl
    · rw [hv]
      rfl
    · rw [hv]
      rfl

theorem openSlot_of_occupied (h : (slotRec s i).isSome = true) : openSlot i work p duration deferrable s = none := by
  obtain ⟨d, hd⟩ := Option.isSome_iff_exists.mp h
  simp [openSlot, hd]

end

/-! ## The acceptance of a test (R140) -/

section
variable {o : Order} {s t u v : State} {id : Byte}

theorem markUnderTest_eq (x : Target) : markUnderTest x s = { s with ports := (markUnderTest x s).ports } := by
  cases x with
  | exchange => rfl
  | home p => cases p <;> rfl

theorem markUnderTest_underTest (p : Port) : ((markUnderTest (.home p) s).port p).underTest = true := by
  simp [markUnderTest]

/-- What an accepted test makes of the state (R140, R141). -/
structure TestStarted (o : Order) (id : Byte) (s t : State) : Prop where
  test : t.engine.test = some { newTest o id with
    phase := if s.sched.lead = 0 then .connect else .notify
    preTest := if s.sched.lead = 0 then couplingBefore (newTest o id) s else none }
  slot : slotRec t (targetSlot o.target) = some ⟨id, .testConnect, targetPort o.target,
    if s.sched.lead = 0 then .active s.now else .notified (s.now + ms s.sched.lead),
    some (2 * o.kind.measureMs + 40), !o.forced⟩
  underTest : ∀ p, o.target = .home p → (t.port p).underTest = true
  noted : s.sched.lead ≠ 0 → t = { s with
    channels := t.channels, sched := t.sched, ports := t.ports, engine := t.engine }
  connected : s.sched.lead = 0 → t.relays = connectedRelays o.target s.relays ∧
    windowOpened (testWindow s.now o.target id) 4 s t ∧ windowOpened (relayWindow s.now (some id)) 4 s t
  kept : t.pending = s.pending ∧ t.phase = s.phase ∧ t.clock = s.clock ∧ t.pins = s.pins ∧
    t.twoPorts = s.twoPorts ∧ t.gateway = s.gateway ∧ t.modem = s.modem ∧ t.lines = s.lines ∧ t.dsl = s.dsl ∧
    t.ring = s.ring ∧ t.power = s.power ∧ t.store = s.store ∧ t.occasion = s.occasion

/-- The window list and the instant are all that an opened window is seen against. -/
theorem windowOpened_congr {w : Window} {room : Nat} (hc : u.clock = s.clock) (hl : u.sched.windows = s.sched.windows) :
    windowOpened w room u t ↔ windowOpened w room s t := by
  simp [windowOpened, State.now, hc, hl]

/-- The owner of a test's slot is the engine. -/
theorem ownerStart_of_test {i : SlotId} {d : Disturbance} (h : slotRec s i = some d) (hw : d.work = .testConnect) :
    ownerStart i s = connectTest s := by
  unfold ownerStart
  simp only [h, hw]

theorem startIfActive_of_active {i : SlotId} {d : Disturbance} (h : slotRec s i = some d) (ha : isActive d = true) :
    startIfActive i s = ownerStart i s := by
  simp [startIfActive, slotActive, h, ha]

theorem startIfActive_of_waiting {i : SlotId} {d : Disturbance} (h : slotRec s i = some d) (ha : isActive d = false) :
    startIfActive i s = s := by
  simp [startIfActive, slotActive, h, ha]

theorem isActive_recordOf {work : WorkKind} {p : Option Port} {duration : Option Nat} {b : Bool} :
    isActive (recordOf work p duration b s) = decide (s.sched.lead = 0) := by
  by_cases h : s.sched.lead = 0 <;> simp [recordOf, isActive, h]

theorem startTest_of_empty {before : State} (h : slotRec s (targetSlot o.target) = none) :
    ∃ t id, startTest o s before = (t, ⟨.accepted, [id, byte o.kind.code] ++ half16 o.kind.measureMs⟩) ∧
      TestStarted o id s t := by
  let m := markUnderTest o.target s
  have hm : m = { s with ports := m.ports } := markUnderTest_eq _
  have hsched : m.sched = s.sched := by rw [hm]
  have hnow : m.now = s.now := by rw [hm]; rfl
  have hempty : slotRec m (targetSlot o.target) = none := by rw [← h, slotRec, slotRec, hsched]
  obtain ⟨u, hopen, hu⟩ := openSlot_of_empty (work := .testConnect) (p := targetPort o.target)
    (duration := some (2 * o.kind.measureMs + 40)) (deferrable := !o.forced) hempty
  let d := recordOf .testConnect (targetPort o.target) (some (2 * o.kind.measureMs + 40)) (!o.forced) m
  let v := u.updEngine (fun e => { e with test := some (newTest o d.id) })
  have hv : slotRec v (targetSlot o.target) = some d := by
    change u.sched.slots.get _ = _
    rw [hu.slots, PerSlot.get_set_same]
  have haccept : startTest o s before =
      (startIfActive (targetSlot o.target) v, ⟨.accepted, [d.id, byte o.kind.code] ++ half16 o.kind.measureMs⟩) := by
    simp only [startTest, acceptTest]
    rw [hopen]
    rfl
  refine ⟨_, _, haccept, ?_⟩
  have hrest : v = { s with channels := v.channels, sched := v.sched, ports := v.ports, engine := v.engine } := by
    have hvu : v = { u with engine := v.engine } := rfl
    rw [hvu, hu.rest, hm]
  have hclock : v.clock = s.clock := by rw [hrest]
  have hvnow : v.now = s.now := by rw [State.now, hclock, State.now]
  have hwindows : v.sched.windows = s.sched.windows := hu.windows.trans (congrArg Scheduler.windows hsched)
  have hunder (p : Port) (hp : o.target = .home p) : (v.port p).underTest = true := by
    have hports : v.ports = m.ports := (congrArg State.ports hu.rest :)
    rw [State.port, hports, ← State.port]
    unfold m
    rw [hp]
    exact markUnderTest_underTest p
  by_cases hlead : s.sched.lead = 0
  · rw [startIfActive_of_active hv (by simp [d, isActive_recordOf, hsched, hlead]), ownerStart_of_test hv rfl]
    obtain ⟨hengine, hrelays, hslots, hrecord, htest, hrelay⟩ :=
      connectTest_connected (s := v) (x := newTest o d.id) rfl rfl
    have hvrelays : v.relays = s.relays := by rw [hrest]
    rw [windowOpened_congr hclock hwindows, hvnow] at htest hrelay
    refine ⟨?_, ?_, fun p hp => ?_, fun h => absurd hlead h, fun _ => ⟨by rw [hrelays, hvrelays]; rfl, htest, hrelay⟩, ?_⟩
    · rw [hengine, if_pos hlead, if_pos hlead]
      cases hx : o.target <;> simp [connecting, couplingBefore, newTest, hx, hvrelays]
    · rw [slotRec, hslots, ← slotRec, hv, if_pos hlead]
      simp [d, recordOf, hsched, hlead, hnow]
    · exact (congrArg PortRecord.underTest (hrecord p)).trans (hunder p hp)
    · rw [hrest]
      simp
  · rw [startIfActive_of_waiting hv (by simp [d, isActive_recordOf, hsched, hlead])]
    refine ⟨?_, ?_, hunder, fun _ => ?_, fun h => absurd h hlead, ?_⟩
    · rw [if_neg hlead, if_neg hlead]
      rfl
    · rw [hv, if_neg hlead]
      simp [d, recordOf, hsched, hlead, hnow]
    · exact hrest
    · rw [hrest]
      simp

theorem startTest_of_occupied {before : State} (h : (slotRec s (targetSlot o.target)).isSome = true) :
    startTest o s before = refuse .busyTest before := by
  have hm : slotRec (markUnderTest o.target s) (targetSlot o.target) = slotRec s (targetSlot o.target) := by
    rw [markUnderTest_eq]
    rfl
  simp [startTest, acceptTest, openSlot_of_occupied (hm ▸ h)]

end

/-! ## The checks of RUN TEST (R139) -/

section
variable {s : State} {x : Target} {forced : Bool}

theorem targetUnfitted_iff : targetUnfitted s x = true ↔ x = .home .p2 ∧ s.twoPorts = false := by
  cases x with
  | exchange => simp [targetUnfitted, targetPort]
  | home p => cases p <;> simp [targetUnfitted, targetPort, portFitted]

theorem targetIsolated_iff : targetIsolated s x = true ↔ x = .exchange ∧ s.faults.isolation ≠ .normal := by
  simp [targetIsolated]

theorem targetSwitching_iff : targetSwitching s x = true ↔ ∃ p, x = .home p ∧ (s.port p).switch.isSome = true := by
  cases x <;> simp [targetSwitching]

theorem inCall_iff {h : HookState} : inCall h = true ↔ h = .offHook ∨ h = .break_ := by cases h <;> simp [inCall]

theorem lifelineInUse_iff : lifelineInUse s = true ↔ ∃ p, portFitted s p = true ∧ lifelineCond s p = true ∧
    ((s.port p).sup.state = .offHook ∨ (s.port p).sup.state = .break_) := by
  have hboth (q : Port) : q ∈ bothPorts := by cases q <;> simp [bothPorts]
  simp only [lifelineInUse, List.any_eq_true, Bool.and_eq_true, inCall_iff, and_assoc]
  exact ⟨fun ⟨p, _, h⟩ => ⟨p, h⟩, fun ⟨p, h⟩ => ⟨p, hboth p, h⟩⟩

theorem voiceInUse_exchange : voiceInUse s .exchange forced = true ↔ forced = false ∧
    ((∃ p, portFitted s p = true ∧ lifelineCond s p = true ∧
      ((s.port p).sup.state = .offHook ∨ (s.port p).sup.state = .break_)) ∨ s.ring.exchange.ringing = true) := by
  simp [voiceInUse, lifelineInUse_iff]

theorem voiceInUse_home {p : Port} : voiceInUse s (.home p) forced = true ↔
    (s.port p).sup.state ≠ .onHook ∨ (session s p).isSome = true := by
  simp [voiceInUse]

end

end Sys2Proof.Machine
end

