-- ==== Sys2Proof/Proofs/RunTest.lean ====
section
namespace Sys2Proof.Machine

/-! ## RUN TEST (R139) -/

section
variable {i : Instr} {s : State}

@[simp] theorem port_frameIn (p : Port) : (frameIn i s).port p = s.port p := by simp [State.port]

@[simp] theorem portFitted_frameIn (p : Port) : portFitted (frameIn i s) p = portFitted s p := by
  cases p <;> simp [portFitted]

@[simp] theorem lifelineCond_frameIn (p : Port) : lifelineCond (frameIn i s) p = lifelineCond s p := by
  rw [lifelineCond, lifelineCond, restingPass, restingPass, port_frameIn]

@[simp] theorem slotRec_frameIn (j : SlotId) : slotRec (frameIn i s) j = slotRec s j := by simp [slotRec]

end

theorem byte_code_of_testKindOf {b : Byte} {k : TestKind} (h : testKindOf b = some k) : byte k.code = b := by
  have hcode : b.toNat = k.code := by
    unfold testKindOf at h
    split at h <;> cases h <;> assumption
  exact byte_of_toNat hcode

theorem orderOf_kind {kb tb : Byte} {limits : List LimitArg} {k : TestKind} {x : Target} {l : List Limit}
    (h : orderOf kb tb limits = some (k, x, l)) : byte k.code = kb := by
  unfold orderOf at h
  split at h
  · next hk _ =>
    dsimp only at h
    split at h
    · cases h
      exact byte_code_of_testKindOf hk
    · cases h
  · cases h

theorem answered_engine (i : Instr) (c : Code) (l : List Byte) (t : State) : (answered i c l t).engine = t.engine := by
  simp

/-- An answer leaves the window list. -/
theorem windowOpened_answered {w : Window} {room : Nat} {i : Instr} {c : Code} {l : List Byte} {s t : State} :
    windowOpened w room s (answered i c l t) ↔ windowOpened w room s t := by
  simp [windowOpened]

section
variable {i : Instr} {c : Code} {l : List Byte} {s t : State}

theorem eq_with_of_noted (h : t.pending = s.pending ∧ t.phase = s.phase ∧ t.clock = s.clock ∧ t.pins = s.pins ∧
      t.twoPorts = s.twoPorts ∧ t.lines = s.lines ∧ t.relays = s.relays ∧ t.settles = s.settles ∧ t.dsl = s.dsl ∧
      t.tracker = s.tracker ∧ t.ring = s.ring ∧ t.faults = s.faults ∧ t.power = s.power ∧ t.store = s.store ∧
      t.occasion = s.occasion) :
    t = { s with
      gateway := t.gateway, modem := t.modem, channels := t.channels, sched := t.sched
      ports := t.ports, engine := t.engine } := by
  cases s
  cases t
  simpa using h

/-- A test that waits leaves the rest of the state, through its request's answer. -/
theorem answered_of_noted (h : t = { frameIn i s with
      channels := t.channels, sched := t.sched, ports := t.ports, engine := t.engine }) :
    answered i c l t = { s with
      gateway := (answered i c l t).gateway, modem := (answered i c l t).modem
      channels := (answered i c l t).channels, sched := (answered i c l t).sched
      ports := (answered i c l t).ports, engine := (answered i c l t).engine } := by
  refine eq_with_of_noted ?_
  simp only [answered_parts]
  rw [h]
  simp

/-- An accepted test leaves lines and ring unit (R140). -/
theorem eq_with_of_started (h : t.pending = s.pending ∧ t.phase = s.phase ∧ t.clock = s.clock ∧ t.pins = s.pins ∧
      t.twoPorts = s.twoPorts ∧ t.lines = s.lines ∧ t.dsl = s.dsl ∧ t.ring = s.ring ∧ t.power = s.power ∧
      t.store = s.store ∧ t.occasion = s.occasion) :
    t = { s with
      gateway := t.gateway, modem := t.modem, channels := t.channels, relays := t.relays
      settles := t.settles, sched := t.sched, tracker := t.tracker, ports := t.ports
      engine := t.engine, faults := t.faults } := by
  cases s
  cases t
  simpa using h

end

/-- Settles O42: the checks in order, then the acceptance. -/
theorem runTestIsDecidedInOrder : Obligations.RunTestIsDecidedInOrder := by
  intro r kb tb force limits s htaken i refused
  let u := frameIn i s
  have hexec {o : Code} {l : List Byte} {t : State} (ha : answerRunTest r kb tb force limits u = (t, ⟨o, l⟩)) :
      exec i s = .next (answered i o l t) := exec_of_answer htaken rfl ha
  have hrefused {o : Code} (ha : answerRunTest r kb tb force limits u = refuse o u) : refused o := hexec ha
  refine ⟨fun htest => hrefused (by simp [answerRunTest, u, htest]), fun htest =>
    ⟨fun horder => hrefused (by simp [answerRunTest, u, htest, horder]), fun k target l horder => ?_⟩⟩
  intro forced inUse switching
  have hforced : forced = (decide (target = .exchange) && (force != 0)) := rfl
  have hanswer : answerRunTest r kb tb force limits u =
      if targetUnfitted u target then refuse .notFitted u
      else if u.power.state = .reserve then refuse .lowPower u
      else if targetIsolated u target then refuse .isolated u
      else if !holds u r.channel (targetFunc target) then refuse .notHolder u
      else if forced ∧ 0 < effLevel r then refuse .privilege u
      else if voiceInUse u target forced then refuse .busyVoice u
      else if targetSwitching u target then refuse .busy u
      else startTest ⟨k, target, l, r.channel, none, false, forced⟩ u u := by
    rw [answerRunTest, if_neg (by simp [u, htest]), horder]
  have hfit : targetUnfitted u target = true ↔ target = .home .p2 ∧ s.twoPorts = false := by
    rw [targetUnfitted_iff]
    simp [u]
  have hisolated : targetIsolated u target = true ↔ target = .exchange ∧ s.faults.isolation ≠ .normal := by
    rw [targetIsolated_iff]
    simp [u]
  have hholds : holderOf u (targetFunc target) = holderOf s (targetFunc target) := holderOf_frameIn
  have huse : voiceInUse u target forced = true ↔ inUse := by
    cases target with
    | exchange =>
      rw [voiceInUse_exchange]
      simp [u, inUse]
    | home p =>
      rw [voiceInUse_home]
      simp [u, inUse]
  have hswitching : targetSwitching u target = true ↔ switching := by
    rw [targetSwitching_iff]
    simp [u, switching]
  have hslot : slotRec u (targetSlot target) = slotRec s (targetSlot target) := slotRec_frameIn _
  refine ⟨fun h => hrefused (hanswer.trans (if_pos (hfit.mpr h))), fun hfitted => ?_⟩
  rw [if_neg (by rw [hfit]; rintro ⟨h2, hno⟩; simp [hfitted h2] at hno)] at hanswer
  refine ⟨fun h => hrefused (hanswer.trans (if_pos (by simpa [u] using h))), fun hpower => ?_⟩
  rw [if_neg (by simpa [u] using hpower)] at hanswer
  refine ⟨fun h => hrefused (hanswer.trans (if_pos (hisolated.mpr h))), fun hnormal => ?_⟩
  rw [if_neg (by rwa [hisolated])] at hanswer
  refine ⟨fun h => hrefused (hanswer.trans (if_pos (by simpa [holds, hholds] using h))), fun hholder => ?_⟩
  rw [if_neg (by simpa [holds, hholds] using hholder)] at hanswer
  refine ⟨fun h => hrefused (hanswer.trans (if_pos h)), fun hpriv => ?_⟩
  rw [if_neg hpriv] at hanswer
  refine ⟨fun h => hrefused (hanswer.trans (if_pos (huse.mpr h))), fun huse' hsw =>
    hrefused (hanswer.trans ((if_neg (by rwa [huse])).trans (if_pos (hswitching.mpr hsw)))), fun huse' hsw => ?_⟩
  rw [if_neg (by rwa [huse]), if_neg (by rwa [hswitching])] at hanswer
  refine ⟨fun h => hrefused (hanswer.trans (startTest_of_occupied (hslot ▸ h))), fun hempty => ?_⟩
  obtain ⟨t, id, hstart, hstarted⟩ := startTest_of_empty (before := u)
    (o := ⟨k, target, l, r.channel, none, false, forced⟩) (hslot.trans hempty)
  obtain ⟨htest', hslot', hunder, hnoted, hconnected, hkept⟩ := hstarted
  obtain ⟨hpending, hphase, hclock, hpins, htwo, hgateway, hmodem, hlines, hdsl, hring, hpow, hstore, hocc⟩ := hkept
  have hsched : u.sched = s.sched := by simp [u]
  have hnow : u.now = s.now := frameIn_now i s
  have hrelays : u.relays = s.relays := by simp [u]
  rw [hsched] at htest' hslot' hnoted hconnected
  rw [hnow] at hslot' hconnected
  rw [hrelays] at hconnected
  have hresults : [id, byte k.code] ++ half16 k.measureMs = [id, kb] ++ halfBytes (BitVec.ofNat 16 k.measureMs) := by
    rw [orderOf_kind horder]
    rfl
  refine ⟨_, id, _, hexec (hanswer.trans (hstart.trans (congrArg (fun l => (t, Reply.mk .accepted l)) hresults))), respondedWith_of_ports hgateway hmodem,
    (congrArg Engine.test (answered_engine ..)).trans htest', rfl, rfl, rfl, rfl, rfl, rfl, rfl, rfl, rfl, rfl, rfl, rfl,
    ?_, ?_, fun hlead => ?_, fun hlead => ?_, ?_⟩
  · simpa [slotRec] using hslot'
  · simpa [State.port] using hunder
  · exact answered_of_noted (hnoted hlead)
  · obtain ⟨hplaced, htestWindow, hrelayWindow⟩ := hconnected hlead
    refine ⟨by simpa using hplaced, ?_, windowOpened_answered.mpr ?_, windowOpened_answered.mpr ?_⟩
    · refine (if_pos hlead).trans ?_
      rw [couplingBefore, hrelays]
      cases target <;> rfl
    · rwa [windowOpened_congr (by simp [u]) (congrArg Scheduler.windows hsched)] at htestWindow
    · rwa [windowOpened_congr (by simp [u]) (congrArg Scheduler.windows hsched)] at hrelayWindow
  · refine eq_with_of_started ?_
    simp only [answered_parts, hpending, hphase, hclock, hpins, htwo, hlines, hdsl, hring, hpow, hstore, hocc]
    simp [u]

end Sys2Proof.Machine
end

