-- ==== Sys2Proof/Proofs/GatedTests.lean ====
section
namespace Sys2Proof.Machine

/-! ## RUN GATED TEST (R154) -/

section
variable {r : Req} {b : Byte} {g : Gate} {s : State}

/-- The answer of a gate whose own checks have passed (R154 checks 8 to 10). -/
def answerGate (r : Req) (b : Byte) (g : Gate) : Server := fun s =>
  match gatedGrant (targetFunc g.target) r.channel (effLevel r) b.toNat s with
  | (_, .privilege) => refuse .privilege s
  | (_, .busy) => refuse .busy s
  | (s', .granted) => runGate g b.toNat r.channel true s' s
  | (s', .held) => runGate g b.toNat r.channel false s' s

theorem answerRunGatedTest_of_gate (hb : b.toNat ≤ 3) (hg : s.engine.gates.get b.toNat = some g) :
    answerRunGatedTest r b s =
      if g.level < effLevel r then refuse .privilege s
      else if s.engine.test.isSome then refuse .busyTest s
      else if targetUnfitted s g.target then refuse .notFitted s
      else if s.power.state = .reserve then refuse .lowPower s
      else if targetIsolated s g.target then refuse .isolated s
      else answerGate r b g s := by
  rw [answerRunGatedTest, if_neg (Nat.not_lt.mpr hb), hg]
  rfl

theorem answerGate_of_low (hfree : (s.lines.table.get (targetFunc g.target)).hold = none)
    (h : (s.lines.table.get (targetFunc g.target)).level < effLevel r) : answerGate r b g s = refuse .privilege s := by
  simp [answerGate, gatedGrant, funcRec, hfree, Nat.not_le.mpr h]

theorem answerGate_of_other {h : Hold} (hhold : (s.lines.table.get (targetFunc g.target)).hold = some h)
    (hother : h.holder ≠ r.channel) : answerGate r b g s = refuse .busy s := by
  simp [answerGate, gatedGrant, funcRec, hhold, hother]

/-- The state in which a gate's test starts: the function granted by the gate where it was free (R38). -/
def gateHeld (r : Req) (b : Byte) (g : Gate) (s : State) : State :=
  if (s.lines.table.get (targetFunc g.target)).hold = none then
    makeHold (targetFunc g.target) r.channel (effLevel r) (some b.toNat) s
  else s

theorem answerGate_of_held (h : (s.lines.table.get (targetFunc g.target)).hold = none ∧
        effLevel r ≤ (s.lines.table.get (targetFunc g.target)).level ∨
      ∃ h, (s.lines.table.get (targetFunc g.target)).hold = some h ∧ h.holder = r.channel) :
    answerGate r b g s = runGate g b.toNat r.channel
      (decide ((s.lines.table.get (targetFunc g.target)).hold = none)) (gateHeld r b g s) s := by
  rcases h with ⟨hfree, hlevel⟩ | ⟨h, hhold, hown⟩
  · simp [answerGate, gatedGrant, funcRec, gateHeld, hfree, hlevel]
  · simp [answerGate, gatedGrant, funcRec, gateHeld, hhold, hown]

theorem gateHeld_eq : gateHeld r b g s = { s with lines := (gateHeld r b g s).lines } := by
  unfold gateHeld
  split <;> rfl

theorem gateHeld_lines_of_free (hfree : (s.lines.table.get (targetFunc g.target)).hold = none) :
    (gateHeld r b g s).lines = ⟨s.lines.table.set (targetFunc g.target) ⟨(s.lines.table.get (targetFunc g.target)).level,
      some ⟨r.channel, effLevel r, s.uptime, some b.toNat⟩⟩, s.lines.claims⟩ := by
  rw [gateHeld, if_pos hfree]
  rfl

theorem gateHeld_lines_of_held (hheld : (s.lines.table.get (targetFunc g.target)).hold ≠ none) :
    (gateHeld r b g s).lines = s.lines := by
  rw [gateHeld, if_neg hheld]

end

theorem answered_lines (i : Instr) (c : Code) (l : List Byte) (t : State) : (answered i c l t).lines = t.lines := by
  simp

theorem answered_ring (i : Instr) (c : Code) (l : List Byte) (t : State) : (answered i c l t).ring = t.ring := by
  simp

/-- Settles O43: the gate's checks, the grant, then the acceptance. -/
theorem gatedTestsUseTheirGate : Obligations.GatedTestsUseTheirGate := by
  intro r b s htaken i refused
  let u := frameIn i s
  have hexec {o : Code} {l : List Byte} {t : State} (ha : answerRunGatedTest r b u = (t, ⟨o, l⟩)) :
      exec i s = .next (answered i o l t) := exec_of_answer htaken rfl ha
  have hrefused {o : Code} (ha : answerRunGatedTest r b u = refuse o u) : refused o := hexec ha
  refine ⟨fun hb => hrefused (by simp [answerRunGatedTest, hb]), fun hb hg => hrefused ?_, fun g hb hg => ?_⟩
  · rw [answerRunGatedTest, if_neg (Nat.not_lt.mpr hb), show u.engine.gates.get b.toNat = none by simpa [u] using hg]
  intro f e inUse switching
  have hanswer := answerRunGatedTest_of_gate (r := r) (s := u) hb (by simpa [u] using hg)
  have hfit : targetUnfitted u g.target = true ↔ g.target = .home .p2 ∧ s.twoPorts = false := by
    rw [targetUnfitted_iff]
    simp [u]
  have hisolated : targetIsolated u g.target = true ↔ g.target = .exchange ∧ s.faults.isolation ≠ .normal := by
    rw [targetIsolated_iff]
    simp [u]
  let v := gateHeld r b g u
  have hv : v = { u with lines := v.lines } := gateHeld_eq
  have hlines : u.lines = s.lines := by simp [u]
  have huse : voiceInUse v g.target false = true ↔ inUse := by
    have hvu : voiceInUse v g.target false = voiceInUse u g.target false := by
      rw [hv]
      rfl
    rw [hvu]
    unfold inUse
    cases g.target with
    | exchange =>
      rw [voiceInUse_exchange]
      simp [u]
    | home p =>
      rw [voiceInUse_home]
      simp [u]
  have hswitching : targetSwitching v g.target = true ↔ switching := by
    rw [targetSwitching_iff, hv]
    simp [u, switching, State.port]
  have hslot : slotRec v (targetSlot g.target) = slotRec s (targetSlot g.target) := by
    rw [hv]
    exact slotRec_frameIn _
  refine ⟨fun h => hrefused (hanswer.trans (if_pos h)), fun hlevel => ?_⟩
  rw [if_neg (Nat.not_lt.mpr hlevel)] at hanswer
  refine ⟨fun h => hrefused (hanswer.trans (if_pos (by simpa [u] using h))), fun htest => ?_⟩
  rw [if_neg (by simp [u, htest])] at hanswer
  refine ⟨fun h => hrefused (hanswer.trans (if_pos (hfit.mpr h))), fun hfitted => ?_⟩
  rw [if_neg (by rw [hfit]; rintro ⟨h2, hno⟩; simp [hfitted h2] at hno)] at hanswer
  refine ⟨fun h => hrefused (hanswer.trans (if_pos (by simpa [u] using h))), fun hpower => ?_⟩
  rw [if_neg (by simpa [u] using hpower)] at hanswer
  refine ⟨fun h => hrefused (hanswer.trans (if_pos (hisolated.mpr h))), fun hnormal => ?_⟩
  rw [if_neg (by rwa [hisolated])] at hanswer
  refine ⟨fun hfree hlow => hrefused (hanswer.trans (answerGate_of_low (hlines ▸ hfree) (hlines ▸ hlow))),
    fun h hhold hother => hrefused (hanswer.trans (answerGate_of_other (hlines ▸ hhold) hother)), fun hheld => ?_⟩
  rw [answerGate_of_held (hlines ▸ hheld), runGate] at hanswer
  refine ⟨fun h => hrefused (hanswer.trans (if_pos (huse.mpr h))), fun huse' hsw =>
    hrefused (hanswer.trans ((if_neg (by rwa [huse])).trans (if_pos (hswitching.mpr hsw)))), fun huse' hsw => ?_⟩
  rw [if_neg (by rwa [huse]), if_neg (by rwa [hswitching])] at hanswer
  refine ⟨fun h => hrefused (hanswer.trans (startTest_of_occupied (hslot ▸ h))), fun hempty => ?_⟩
  obtain ⟨t, id, hstart, hstarted⟩ := startTest_of_empty (before := u) (s := v)
    (o := ⟨g.kind, g.target, g.limits, r.channel, some b.toNat,
      decide ((u.lines.table.get (targetFunc g.target)).hold = none), false⟩) (hslot.trans hempty)
  obtain ⟨htest', hslot', -, -, hconnected, hkept⟩ := hstarted
  obtain ⟨hpending, hphase, hclock, hpins, htwo, hgateway, hmodem, htlines, hdsl, hring, hpow, hstore, hocc⟩ := hkept
  have hsched : v.sched = s.sched := by rw [hv]; simp [u]
  have hnow : v.now = s.now := by rw [hv]; exact frameIn_now i s
  have hrelays : v.relays = s.relays := by rw [hv]; simp [u]
  rw [hsched] at htest' hconnected
  rw [hnow] at hconnected
  rw [hrelays] at hconnected
  rw [show v.gateway = u.gateway by rw [hv]] at hgateway
  rw [show v.modem = u.modem by rw [hv]] at hmodem
  refine ⟨_, id, _, hexec (hanswer.trans hstart), respondedWith_of_ports hgateway hmodem,
    (congrArg Engine.test (answered_engine ..)).trans htest', rfl, rfl, rfl, rfl, rfl, rfl, ?_, rfl, fun hfree => ?_,
    fun hown => ?_, rfl, fun hlead => ?_, ?_⟩
  · change decide ((u.lines.table.get (targetFunc g.target)).hold = none) = _
    rw [hlines]
  · rw [answered_lines, htlines, gateHeld_lines_of_free (hlines ▸ hfree), hlines]
    exact ⟨rfl, by simp [u, e, f]⟩
  · rw [answered_lines, htlines, gateHeld_lines_of_held (hlines ▸ hown), hlines]
  · obtain ⟨hplaced, htestWindow, hrelayWindow⟩ := hconnected hlead
    have hclock' : v.clock = s.clock := by rw [hv]; simp [u]
    rw [windowOpened_congr hclock' (congrArg Scheduler.windows hsched)] at htestWindow hrelayWindow
    exact ⟨by simpa using hplaced, windowOpened_answered.mpr htestWindow, windowOpened_answered.mpr hrelayWindow⟩
  · have hring' : v.ring = s.ring := by
      rw [hv]
      simp [u]
    have hframe (l : List Byte) := eq_with_of_kept (s := s) (t := answered i .accepted l t) (by
      simp only [answered_parts, hpending, hphase, hclock, hpins, htwo, hdsl, hpow, hstore, hocc]
      rw [hv]
      simp [u])
    simp only [answered_ring, hring, hring'] at hframe
    exact hframe _

end Sys2Proof.Machine
end

