-- ==== Sys2Proof/Proofs/DslSwitches.lean ====
section
namespace Sys2Proof.Machine

/-! ## The DSL switch (R39, R40) -/

section
variable {i : SlotId} {d : DslSwitch} {s t : State}

theorem exec_changeSetComplete (a : Asker) (s : State) : exec (.changeSetComplete a) s =
    .next (match takeSettle s.now a s.settles with
      | some rest => settled a (s.setSettles rest)
      | none => s) := rfl

theorem postCompletion_channels_congr (h : s.channels = t.channels) (n : Notice) (c : Channel) :
    (postCompletion n c s).channels = (postCompletion n c t).channels :=
  handAll_channels_congr h [(n, some c)]

/-- What a record's end hands depends on the slots, the instant and the channels (R54). -/
theorem endSlot_channels_congr (hchannels : s.channels = t.channels) (hsched : s.sched = t.sched)
    (hclock : s.clock = t.clock) : (endSlot i s).channels = (endSlot i t).channels := by
  have hslot : slotRec s i = slotRec t i := by rw [slotRec, slotRec, hsched]
  unfold endSlot
  rw [hslot]
  split
  · rw [show s.now = t.now by rw [State.now, State.now, hclock]]
    exact handAll_channels_congr (s := setSlot i none s) (t := setSlot i none t) hchannels [(_, none)]
  · exact hchannels

/-- An end empties the slot, and hands its notice. -/
theorem endSlot_eq : endSlot i s = { s with channels := (endSlot i s).channels, sched := (endSlot i s).sched } := by
  unfold endSlot
  split
  · rw [postSubscribed, post_eq]
    rfl
  · rfl

/-- MODE_DONE of the DSL path (R40). -/
def dslDone (o : DslOutcome) (s : State) : Notice :=
  notice .modeDone 0 (byte o.code) s.now (detailByte8 .modeDone s.now (couplingCode s.relays.dsl))

theorem endDsl_eq {o : DslOutcome} (h : s.dsl = some d) :
    endDsl o s = (postCompletion (dslDone o s) d.requester (endSlot .dsl s)).setDsl none := by
  have hs : dslDone o (endSlot .dsl s) = dslDone o s := by simp [dslDone, State.now]
  rw [← hs, endDsl, h]
  rfl

/-- The end of a DSL switch: what it hands, and what it leaves alone. -/
structure DslEnded (d : DslSwitch) (o : DslOutcome) (s t : State) : Prop where
  dsl : t.dsl = none
  slot : slotRec t .dsl = none
  channels : t.channels = (postCompletion (dslDone o s) d.requester (endSlot .dsl s)).channels
  rest : t = { s with channels := t.channels, dsl := t.dsl, sched := t.sched }

theorem endDsl_ended {o : DslOutcome} (h : s.dsl = some d) : DslEnded d o s (endDsl o s) := by
  rw [endDsl_eq h]
  refine ⟨rfl, ?_, rfl, ?_⟩
  · have hslot := slotRec_endSlot (s := s) .dsl
    simpa [slotRec] using hslot
  · rw [postCompletion, post_eq, endSlot_eq]
    rfl

/-- The change set of a DSL switch names the coupling alone. -/
def dslChange (x : Coupling) : Change := { noChange with dsl := some x }

theorem moveRelays_dslChange (r : Relays) (x : Coupling) : moveRelays r (widen (dslChange x)) = { r with dsl := x } := rfl

theorem refusedByBus_dslChange {r : Relays} {x : Coupling} :
    refusedByBus r (widen (dslChange x)) = true ↔ r.bus = .exchange ∧ x = .coupled := by
  rw [widen_of_ne (by simp [dslChange, noChange]), refusedByBus_iff]
  simp [dslChange, noChange]

/-- An allowed DSL switch's activation applies its change set; a refused one ends (R40). -/
theorem activateDsl_of_allowed (h : s.dsl = some d) (hbus : ¬(s.relays.bus = .exchange ∧ d.target = .coupled)) :
    activateDsl s = applied (dslChange d.target) .dslSwitch d.id s := by
  have ha := applyChange_of_allowed (a := .dslSwitch) (id := d.id) (s := s)
    (Bool.eq_false_iff.mpr (fun hr => hbus (refusedByBus_dslChange.mp hr)))
  rw [dslChange] at ha
  simp only [activateDsl, h, ha]
  rfl

theorem activateDsl_of_refused (h : s.dsl = some d) (hbus : s.relays.bus = .exchange ∧ d.target = .coupled) :
    activateDsl s = endDsl .testActive s := by
  have ha := applyChange_of_refused (a := .dslSwitch) (id := d.id) (s := s) (refusedByBus_dslChange.mpr hbus)
  rw [dslChange] at ha
  simp only [activateDsl, h, ha]

theorem ownerStart_of_dsl {j : SlotId} {x : Disturbance} (h : slotRec s j = some x) (hw : x.work = .dslSwitch) :
    ownerStart j s = activateDsl s := by
  unfold ownerStart
  simp only [h, hw]

theorem couplingOf_of_toNat {b : Byte} {x : Coupling} (h : b.toNat = couplingCode x) : couplingOf b = some x := by
  cases x <;> simp [couplingOf, h, couplingCode]

theorem couplingOf_of_one_lt {b : Byte} (h : 1 < b.toNat) : couplingOf b = none := by
  unfold couplingOf
  split
  · omega
  · omega
  · rfl

end

/-! ### SET DSL (R39) -/

/-- What an accepted SET DSL makes of the state. -/
structure DslStarted (c : Channel) (x : Coupling) (id : Byte) (s t : State) : Prop where
  dsl : t.dsl = some ⟨c, x, id⟩
  slot : slotRec t .dsl = some ⟨id, .dslSwitch, none,
    if s.sched.lead = 0 then .active s.now else .notified (s.now + ms s.sched.lead), some 20, true⟩
  relays : s.sched.lead = 0 → t.relays = { s.relays with dsl := x }
  noted : s.sched.lead ≠ 0 → t = { s with channels := t.channels, sched := t.sched, dsl := t.dsl }
  ports : t.gateway = s.gateway ∧ t.modem = s.modem

theorem acceptDsl_of_empty {c : Channel} {x : Coupling} {s : State} (h : slotRec s .dsl = none)
    (hbus : s.relays.bus ≠ .exchange) : ∃ t id,
      acceptDsl c x s = (t, ⟨.accepted, [id, byte (couplingCode x)]⟩) ∧ DslStarted c x id s t := by
  obtain ⟨u, hopen, hu⟩ := openSlot_of_empty (work := .dslSwitch) (p := none) (duration := some 20)
    (deferrable := true) h
  let d := recordOf .dslSwitch none (some 20) true s
  let v := u.setDsl (some ⟨c, x, d.id⟩)
  have hv : slotRec v .dsl = some d := by
    change u.sched.slots.get _ = _
    rw [hu.slots, PerSlot.get_set_same]
  have hrest : v = { s with channels := v.channels, sched := v.sched, dsl := v.dsl } := by
    have hvu : v = { u with dsl := v.dsl } := rfl
    rw [hvu, hu.rest]
  have haccept : acceptDsl c x s = (startIfActive .dsl v, ⟨.accepted, [d.id, byte (couplingCode x)]⟩) := by
    rw [acceptDsl, hopen]
    rfl
  refine ⟨_, _, haccept, ?_⟩
  by_cases hlead : s.sched.lead = 0
  · have hrelays : v.relays = s.relays := by rw [hrest]
    rw [startIfActive_of_active hv (by simp [d, isActive_recordOf, hlead]), ownerStart_of_dsl hv rfl,
      activateDsl_of_allowed (d := ⟨c, x, d.id⟩) rfl (by simp [hrelays, hbus])]
    refine ⟨?_, ?_, fun _ => ?_, fun hn => absurd hlead hn, ?_⟩
    · rw [applied_eq]
      rfl
    · rw [slotRec, applied_slots, ← slotRec, hv]
      simp [d, recordOf, hlead]
    · rw [applied_relays, moveRelays_dslChange, hrelays]
    · rw [applied_eq, hrest]
      exact ⟨rfl, rfl⟩
  · rw [startIfActive_of_waiting hv (by simp [d, isActive_recordOf, hlead])]
    refine ⟨rfl, ?_, fun h => absurd h hlead, fun _ => hrest, ?_⟩
    · rw [hv]
      simp [d, recordOf, hlead]
    · rw [hrest]
      exact ⟨rfl, rfl⟩

theorem answered_relays (i : Instr) (c : Code) (l : List Byte) (t : State) :
    (answered i c l t).relays = t.relays := by
  simp

/-- A DSL switch that waits leaves the rest of the state, through its request's answer. -/
theorem answered_of_dslNoted {i : Instr} {c : Code} {l : List Byte} {s t : State} (h : t = { frameIn i s with
      channels := t.channels, sched := t.sched, dsl := t.dsl }) :
    answered i c l t = { s with
      gateway := (answered i c l t).gateway, modem := (answered i c l t).modem
      channels := (answered i c l t).channels, sched := (answered i c l t).sched
      dsl := (answered i c l t).dsl } := by
  have hparts : t.pending = s.pending ∧ t.phase = s.phase ∧ t.clock = s.clock ∧ t.pins = s.pins ∧
      t.twoPorts = s.twoPorts ∧ t.lines = s.lines ∧ t.relays = s.relays ∧ t.settles = s.settles ∧
      t.tracker = s.tracker ∧ t.ports = s.ports ∧ t.ring = s.ring ∧ t.engine = s.engine ∧ t.faults = s.faults ∧
      t.power = s.power ∧ t.store = s.store ∧ t.occasion = s.occasion := by
    rw [h]
    simp
  have hanswered : ∃ g m, answered i c l t = { t with gateway := g, modem := m } :=
    ⟨_, _, answered_ports i c l t⟩
  obtain ⟨g, m, ha⟩ := hanswered
  rw [ha]
  cases s
  cases t
  simpa using hparts

/-! ### The end of the settle (R40) -/

/-- The settle's end, from the state with its settle taken out (R40). -/
structure DslSettled (d : DslSwitch) (rest : List Settle) (s t : State) : Prop where
  dsl : t.dsl = none
  slot : slotRec t .dsl = none
  channels : t.channels = (postCompletion (notice .modeDone 0 (if s.relays.dsl = d.target then 0 else 1) s.now
    (detailByte8 .modeDone s.now (couplingCode s.relays.dsl))) d.requester
      { s with channels := (endSlot .dsl s).channels }).channels
  rest : t = { s with
    channels := t.channels, settles := rest, dsl := t.dsl, sched := t.sched, engine := t.engine }

theorem dslSettled_of_ended {d : DslSwitch} {o : DslOutcome} {rest : List Settle} {s v t : State}
    (hv : v = { s with settles := rest, engine := v.engine })
    (ho : byte o.code = if s.relays.dsl = d.target then 0 else 1) (h : DslEnded d o v t) : DslSettled d rest s t := by
  obtain ⟨hdsl, hslot, hchannels, hrest⟩ := h
  have hnotice : dslDone o v = notice .modeDone 0 (if s.relays.dsl = d.target then 0 else 1) s.now
      (detailByte8 .modeDone s.now (couplingCode s.relays.dsl)) := by
    rw [dslDone, ho, hv]
    rfl
  have hend : (endSlot .dsl v).channels = (endSlot .dsl s).channels := by
    rw [hv]
    exact endSlot_channels_congr rfl rfl rfl
  refine ⟨hdsl, hslot, ?_, ?_⟩
  · rw [hchannels, hnotice]
    exact postCompletion_channels_congr (s := endSlot .dsl v) (t := { s with channels := (endSlot .dsl s).channels })
      hend _ _
  · rw [hrest, hv]

theorem dslSettled_settled {d : DslSwitch} {rest : List Settle} {s : State} (h : s.dsl = some d) :
    DslSettled d rest s (dslSettled (s.setSettles rest)) := by
  unfold dslSettled
  rw [State.setSettles_dsl, h]
  dsimp only
  by_cases hc : s.relays.dsl = d.target
  · refine dslSettled_of_ended (o := .done) (v := replacePreTest d.target (s.setSettles rest)) rfl (by simp [hc]; rfl) ?_
    rw [State.setSettles_relays, if_pos hc]
    exact endDsl_ended h
  · refine dslSettled_of_ended (o := .testActive) (v := s.setSettles rest) rfl (by simp [hc]; rfl) ?_
    rw [State.setSettles_relays, if_neg hc]
    exact endDsl_ended h

/-- Settles O19: the checks and the acceptance, then the end of the settle. -/
theorem dslSwitchRuns : Obligations.DslSwitchRuns := by
  refine ⟨fun r b s htaken => ?_, fun d rest s hsettle hdsl => ?_, fun a s hnone => ?_, fun rest s hsettle => ?_⟩
  · intro i refused
    let u := frameIn i s
    have hexec {o : Code} {l : List Byte} {t : State} (ha : answerSetDsl r b u = (t, ⟨o, l⟩)) :
        exec i s = .next (answered i o l t) := exec_of_answer htaken rfl ha
    have hrefused {o : Code} (ha : answerSetDsl r b u = refuse o u) : refused o := hexec ha
    refine ⟨fun hb => hrefused (by rw [answerSetDsl, couplingOf_of_one_lt hb]), fun target hb => ?_⟩
    have hcode : byte (couplingCode target) = b := byte_of_toNat hb
    have hanswer : answerSetDsl r b u =
        if !holds u r.channel .dsl then refuse .notHolder u
        else if u.relays.bus = .exchange then refuse .testActive u
        else if u.dsl.isSome then refuse .busy u
        else if target = .decoupled ∧ u.power.state = .reserve then refuse .lowPower u
        else if u.relays.dsl = target then report [byte (couplingCode target)] u
        else acceptDsl r.channel target u := by
      rw [answerSetDsl, couplingOf_of_toNat hb]
    have hholds : holderOf u .dsl = holderOf s .dsl := holderOf_frameIn
    have hrelays : u.relays = s.relays := by simp [u]
    have hdsl : u.dsl = s.dsl := by simp [u]
    have hpower : u.power = s.power := by simp [u]
    have hsched : u.sched = s.sched := by simp [u]
    rw [holds, hholds, hrelays, hdsl, hpower] at hanswer
    refine ⟨fun h => hrefused (hanswer.trans (if_pos (by simpa using h))), fun hholder => ?_⟩
    rw [if_neg (by simpa using hholder)] at hanswer
    refine ⟨fun h => hrefused (hanswer.trans (if_pos h)), fun hbus => ?_⟩
    rw [if_neg hbus] at hanswer
    refine ⟨fun h => hrefused (hanswer.trans (if_pos h)), fun hnone => ?_⟩
    rw [if_neg (by simp [hnone])] at hanswer
    refine ⟨fun h => hrefused (hanswer.trans (if_pos h)), fun hlow => ?_⟩
    rw [if_neg hlow, hcode] at hanswer
    refine ⟨fun h => hexec (hanswer.trans (if_pos h)), fun hother hempty => ?_⟩
    rw [if_neg hother] at hanswer
    obtain ⟨t, id, haccept, hdsl', hslot, hplaced, hnoted, hgateway, hmodem⟩ :=
      acceptDsl_of_empty (c := r.channel) (x := target) (s := u) ((slotRec_frameIn .dsl).trans hempty)
        (by rwa [hrelays])
    rw [hcode] at haccept
    rw [hsched, show u.now = s.now from frameIn_now i s] at hslot
    refine ⟨_, id, hexec (hanswer.trans haccept), respondedWith_of_ports hgateway hmodem, by simpa using hdsl',
      by simpa [slotRec, PerSlot.get] using hslot, fun hlead => ?_, fun hlead => ?_⟩
    · rw [answered_relays, hplaced (hsched ▸ hlead), hrelays]
    · exact answered_of_dslNoted (hnoted (hsched ▸ hlead))
  · obtain ⟨hnone, hslot, hchannels, hrest⟩ := dslSettled_settled (rest := rest) hdsl
    refine ⟨_, ?_, ?_, hnone, by simpa [slotRec, PerSlot.get] using hslot, ?_, hchannels, ?_⟩
    · rw [exec_changeSetComplete, hsettle]
      rfl
    · rw [hrest]
    · rw [hrest]
    · rw [hrest]
  · rw [exec_changeSetComplete, hnone]
  · rw [exec_changeSetComplete, hsettle]
    rfl

end Sys2Proof.Machine
end

