-- ==== Sys2Proof/Proofs/PortsApart.lean ====
section
namespace Sys2Proof.Machine

/-! ## One port's supervisor leaves the other's record (R105) -/

section
variable {p q : Port} {s : State}

@[simp] theorem postSubscribed_port (n : Notice) : (postSubscribed n s).port q = s.port q := by simp [State.port]
@[simp] theorem postCompletion_port (n : Notice) (c : Channel) : (postCompletion n c s).port q = s.port q := by
  simp [State.port]
@[simp] theorem judgeWatch_port : (judgeWatch s).port q = s.port q := by simp [State.port]
@[simp] theorem handWindow_port (src : WindowSource) (o : Option Port) (id : Option Byte) (t : Time)
    (tail : Option Nat) : (handWindow src o id t tail s).port q = s.port q := by simp [State.port]
@[simp] theorem closeWindow_port (k : WindowKey) (t : Time) : (closeWindow k t s).port q = s.port q := by
  simp [State.port]
@[simp] theorem digitNotice_port (e f u : Bool) (v n : Nat) : (digitNotice p e f u v n s).port q = s.port q := by
  simp [State.port]
@[simp] theorem hookNotice_port (off : Bool) (why : HookReason) (d : Time) :
    (hookNotice p off why d s).port q = s.port q := by simp [State.port]
@[simp] theorem unplanned_port (k : Unplanned) (o : Option Port) (n : Nat) : (unplanned k o n s).port q = s.port q := by
  simp [State.port]
@[simp] theorem judgeRingFault_port : (judgeRingFault s).port q = s.port q := by simp [State.port]
@[simp] theorem judgeTrip_port : (judgeTrip p s).port q = s.port q := by simp [State.port]
@[simp] theorem updSession_port (f : RingSession → RingSession) : (updSession p f s).port q = s.port q := by
  simp [State.port]
@[simp] theorem setSession_port (x : Option RingSession) : (setSession p x s).port q = s.port q := by simp [State.port]
@[simp] theorem endSlot_port (i : SlotId) : (endSlot i s).port q = s.port q := by simp [State.port]
@[simp] theorem updRing_port (f : RingUnit → RingUnit) : (s.updRing f).port q = s.port q := rfl
@[simp] theorem setRelays_port (x : Relays) : (s.setRelays x).port q = s.port q := rfl
@[simp] theorem setSettles_port (l : List Settle) : (s.setSettles l).port q = s.port q := rfl

variable (h : q ≠ p)
include h

theorem recordEntry_port_other (e : DialEntry) (n : Nat) : (recordEntry p e n s).port q = s.port q := by
  unfold recordEntry
  dsimp only
  split <;> simp [h]

theorem completeDigit_port_other : (completeDigit p s).port q = s.port q := by
  unfold completeDigit
  dsimp only
  (repeat' split) <;> simp [h, recordEntry_port_other]

theorem releasePort_port_other : (releasePort p s).port q = s.port q := by
  unfold releasePort
  dsimp only
  split <;> simp [h]

theorem beginSeizing_port_other : (beginSeizing p s).port q = s.port q := by simp [beginSeizing, h]

theorem beginBreak_port_other : (beginBreak p s).port q = s.port q := by simp [beginBreak, h]

theorem makeAgain_port_other : (makeAgain p s).port q = s.port q := by simp [makeAgain, h]

theorem endBreak_port_other : (endBreak p s).port q = s.port q := by
  unfold endBreak
  dsimp only
  (repeat' split) <;>
    simp [h, makeAgain_port_other, recordEntry_port_other, completeDigit_port_other, beginSeizing_port_other,
      releasePort_port_other]

theorem loopTaken_port_other (b : Bool) : (loopTaken p b s).port q = s.port q := by
  unfold loopTaken
  dsimp only
  split <;> simp [h]

theorem loopJudged_port_other (b : Bool) : (loopJudged p b s).port q = s.port q := by
  unfold loopJudged
  split
  · exact beginSeizing_port_other h
  · simp [h]
  · exact beginBreak_port_other h
  · exact endBreak_port_other h
  · rfl

theorem senseLoop_port_other : (senseLoop p s).port q = s.port q := by
  unfold senseLoop
  split
  · rw [takeLoop_eq, loopJudged_port_other h, loopTaken_port_other h]
  · rfl

theorem restart_port_other (why : Option HookReason) : (restart p why s).port q = s.port q := by
  unfold restart restartQuiet
  dsimp only
  (repeat' split) <;> simp [h, senseLoop_port_other]

theorem unmask_port_other : (unmask p s).port q = s.port q := by
  unfold unmask
  (repeat' split) <;> simp [h, senseLoop_port_other]

theorem endBurst_port_other (x : RingState) : (endBurst p x s).port q = s.port q := by
  simp [endBurst, unmask_port_other h]

end

end Sys2Proof.Machine
end

