-- ==== Sys2Proof/Proofs/Bursts.lean ====
section
namespace Sys2Proof.Machine

/-! ## Bursts begin and end (R125, R126) -/

section
variable {p q : Port} {x : RingSession} {n : RingState} {r s : State}

theorem PerPort.set_set {α : Type} (x : PerPort α) (p : Port) (a b : α) : (x.set p a).set p b = x.set p b := by
  cases p <;> rfl

theorem slots_of_others {t : State} (h : (ground r t).others = (ground r s).others) :
    t.sched.slots = s.sched.slots := (congrArg (fun u : State => u.sched.slots) h :)

theorem handWindow_slots (src : WindowSource) (o : Option Port) (id : Option Byte) (t : Time) (tail : Option Nat) :
    (handWindow src o id t tail s).sched.slots = s.sched.slots :=
  slots_of_others (r := s) (congrArg Ground.others (handWindow_ground ..))

theorem closeWindow_slots (k : WindowKey) (t : Time) : (closeWindow k t s).sched.slots = s.sched.slots :=
  slots_of_others (r := s) (congrArg Ground.others (closeWindow_ground ..))

theorem unmask_others : (ground r (unmask p s)).others = (ground r s).others := by
  unfold unmask
  split
  · split
    · rfl
    · rw [senseLoop_ground]
      rfl
  · rfl

theorem unmask_slots : (unmask p s).sched.slots = s.sched.slots := slots_of_others (r := s) unmask_others

/-- A supervisor that is unmasked is not masked. -/
theorem unmask_masked : ((unmask p s).port p).sup.masked = false := by
  unfold unmask
  split
  · split
    · simp
    · have h := congrFun (congrArg Ground.records (senseLoop_ground (r := s) p
        (s := s.updSup p (fun u => { resumeTimers s.now u with masked := false })))) p
      refine (congrArg PortRecord.masked h).trans ?_
      simp [ground, portRecord]
  · simp_all

theorem judgeRingFault_ring : ∃ due, (judgeRingFault s).ring = { s.ring with faultDue := due } := by
  unfold judgeRingFault
  split
  · split
    · exact ⟨_, rfl⟩
    · exact ⟨_, rfl⟩
  · exact ⟨_, rfl⟩

/-- The trip timer alone of a port's session is judged (R127). -/
theorem judgeTrip_ring : ∃ f : RingSession → RingSession, (∀ y, (f y).state = y.state) ∧
    (judgeTrip p s).ring = { s.ring with sessions := s.ring.sessions.set p ((session s p).map f) } := by
  refine ⟨_, fun y => ?_, rfl⟩
  (repeat' split) <;> rfl

/-! ### The start -/

theorem startBurst_ring : ∃ (due : Option Time) (y : RingSession), y.state = .burst s.now ∧
    (startBurst p x s).ring = { s.ring with
      sessions := s.ring.sessions.set p (some y), generator := s.ring.generator.set p true, faultDue := due } := by
  let u := handWindow .ringBurst (some p) (some x.id) s.now none
    (mask p ((setSession p (some { x with state := .burst s.now, phaseDue := some (s.now + ms (currentStep x).on) })
      s).updRing (fun r => { r with generator := r.generator.set p true })))
  have hu : u.ring = { s.ring with
      sessions := s.ring.sessions.set p (some { x with
        state := .burst s.now, phaseDue := some (s.now + ms (currentStep x).on) })
      generator := s.ring.generator.set p true } := by
    simp [u, mask, setSession]
  obtain ⟨f, hf, hring⟩ := judgeTrip_ring (p := p) (s := u)
  obtain ⟨due, hdue⟩ := judgeRingFault_ring (s := judgeTrip p u)
  refine ⟨due, f { x with state := .burst s.now, phaseDue := some (s.now + ms (currentStep x).on) }, hf _, ?_⟩
  change (judgeRingFault (judgeTrip p u)).ring = _
  rw [hdue, hring, session, hu]
  simp [PerPort.set_set]

theorem startBurst_inBurst : inBurst (startBurst p x s) p = true := by
  obtain ⟨due, y, hy, hring⟩ := startBurst_ring (p := p) (x := x) (s := s)
  simp [inBurst, session, hring, hy]

theorem startBurst_session_other (h : q ≠ p) : session (startBurst p x s) q = session s q := by
  obtain ⟨due, y, hy, hring⟩ := startBurst_ring (p := p) (x := x) (s := s)
  simp [session, hring, h]

theorem startBurst_generator : (startBurst p x s).ring.generator.get p = true := by
  obtain ⟨due, y, hy, hring⟩ := startBurst_ring (p := p) (x := x) (s := s)
  simp [hring]

theorem startBurst_masked : ((startBurst p x s).port p).sup.masked = true := by
  simp [startBurst, mask]

theorem startBurst_slots : (startBurst p x s).sched.slots = s.sched.slots := by
  simp [startBurst, handWindow_slots, mask]

/-! ### The end -/

theorem endBurst_ring : ∃ due, (endBurst p n s).ring = { s.ring with
    sessions := s.ring.sessions.set p ((session s p).map (fun x => { x with state := n, tripDue := none }))
    generator := s.ring.generator.set p false, faultDue := due } := by
  obtain ⟨due, hdue⟩ := judgeRingFault_ring (s := unmask p (closeWindow (.ringBurst p) s.now
    ((updSession p (fun x => { x with state := n, tripDue := none }) s).updRing
      (fun r => { r with generator := r.generator.set p false }))))
  refine ⟨due, ?_⟩
  rw [endBurst]
  refine hdue.trans ?_
  simp [updSession, setSession]

theorem endBurst_masked : ((endBurst p n s).port p).sup.masked = false := by
  simp [endBurst, unmask_masked]

theorem endBurst_slots : (endBurst p n s).sched.slots = s.sched.slots := by
  simp [endBurst, unmask_slots, closeWindow_slots]

/-- A cut burst's session passes the rest of its on time in silence (R126). -/
def cutSession (x : RingSession) : RingSession :=
  { x with state := .silent true, tripDue := none, skipped := min 255 (x.skipped + 1) }

theorem cutBurst_ring : ∃ due, (cutBurst p s).ring = { s.ring with
    sessions := s.ring.sessions.set p ((session s p).map cutSession)
    generator := s.ring.generator.set p false, faultDue := due } := by
  obtain ⟨due, hring⟩ := endBurst_ring (p := p) (n := .silent true) (s := s)
  refine ⟨due, ?_⟩
  simp [cutBurst, updSession, setSession, session, hring, PerPort.set_set]
  rfl

theorem cutBurst_slots : (cutBurst p s).sched.slots = s.sched.slots := by
  simp [cutBurst, endBurst_slots]

theorem cutBurst_session : session (cutBurst p s) p = (session s p).map cutSession := by
  obtain ⟨due, hring⟩ := cutBurst_ring (p := p) (s := s)
  simp [session, hring]

theorem cutBurst_session_other (h : q ≠ p) : session (cutBurst p s) q = session s q := by
  obtain ⟨due, hring⟩ := cutBurst_ring (p := p) (s := s)
  simp [session, hring, h]

theorem cutBurst_inBurst : inBurst (cutBurst p s) p = false := by
  rw [inBurst, cutBurst_session]
  cases session s p <;> rfl

/-! ### An on time falls due (R125) -/

theorem onTime_slots : (onTime p s).sched.slots = s.sched.slots := by
  unfold onTime
  split
  · split
    · exact startBurst_slots
    · split
      · rw [startBurst_slots, cutBurst_slots]
      · simp
  · rfl

theorem onTime_of_mains (hx : session s p = some x) (hp : s.power.state = .mains) : onTime p s = startBurst p x s := by
  simp [onTime, hx, burstAllowed, hp]

theorem burstBegan_iff {t : Time} : burstBegan s p = some t ↔ burstingSince s p t := by
  unfold burstBegan burstingSince
  cases hx : session s p with
  | none => simp
  | some x => cases hstate : x.state <;> simp [hstate]

/-- On BATTERY port 1 takes the place of port 2's burst that began at this instant. -/
theorem onTime_of_together (hx : session s .p1 = some x) (hp : s.power.state = .battery)
    (hb : burstingSince s .p2 s.now) : onTime .p1 s = startBurst .p1 x (cutBurst .p2 s) := by
  have hin : inBurst s .p2 = true := by
    obtain ⟨y, hy, hstate⟩ := hb
    simp [inBurst, hy, hstate]
  have hno : burstAllowed s .p1 = false := by simp [burstAllowed, hp, otherPort, hin]
  have htogether : beganTogether s .p1 = true := by simp [beganTogether, burstBegan_iff.mpr hb]
  simp [onTime, hx, hno, htogether]

end

end Sys2Proof.Machine
end

