-- ==== Sys2Proof/Proofs/RecordsActivated.lean ====
section
namespace Sys2Proof.Machine

/-! ## A mode switch's record becomes ACTIVE (R96) -/

section
variable {p : Port} {w : ModeSwitch} {d : Disturbance} {j : SlotId} {s t : State}

/-- The switch in its stage BREAK, its supervisor frozen, before the break change set. -/
def breaking (p : Port) (s : State) : State := setStage p .break_ (freeze p s)

theorem freeze_frozen : ((freeze p s).port p).sup.frozen.isSome = true := by
  rw [freeze, State.updSup_port_same]
  cases h : (s.port p).sup.frozen <;> simp [h]

theorem breaking_frozen : ((breaking p s).port p).sup.frozen.isSome = true := by
  rw [breaking, setStage, State.updPort_port_same]
  exact freeze_frozen

theorem breaking_switch (hw : (s.port p).switch = some w) :
    ((breaking p s).port p).switch = some { w with stage := .break_ } := by
  simp [breaking, setStage, freeze, hw]

/-- The positions that a break change set gives (R96). -/
theorem moveRelays_break (r : Relays) (x : PlainMode) : moveRelays r (widen (breakChange p x)) = match x with
    | .local_ => { r with pass := r.pass.set p .open_ }
    | .lifeline => { r with feed := r.feed.set p .off } := by
  cases x <;> cases p <;> rfl

theorem refusedByBus_break {r : Relays} {x : PlainMode} : refusedByBus r (widen (breakChange p x)) = false := by
  cases x <;> cases p <;> simp [breakChange, refusedByBus, widen, noChange, PerPort.set]

theorem activateSwitch_of_lead (hw : (s.port p).switch = some w) (hl : w.stage = .lead) : activateSwitch p s =
    applied (breakChange p w.target) (.modeSwitch p) w.id (breaking p s) := by
  simp only [activateSwitch, hw, hl, if_true]
  exact congrArg (Option.getD · _) (applyChange_of_allowed refusedByBus_break)

theorem activateSwitch_of_other (hw : (s.port p).switch = some w) (hl : w.stage ≠ .lead) : activateSwitch p s = s := by
  simp only [activateSwitch, hw, if_neg hl]

theorem activateSwitch_of_none (hw : (s.port p).switch = none) : activateSwitch p s = s := by
  simp only [activateSwitch, hw]

theorem activateSwitch_slots : (activateSwitch p s).sched.slots = s.sched.slots := by
  cases hw : (s.port p).switch with
  | none => rw [activateSwitch_of_none hw]
  | some w =>
    by_cases hl : w.stage = .lead
    · rw [activateSwitch_of_lead hw hl, applied_slots]
      rfl
    · rw [activateSwitch_of_other hw hl]

/-- What the activation of a switch in stage LEAD makes of the state (R59, R96). -/
structure SwitchActivated (p : Port) (w : ModeSwitch) (s t : State) : Prop where
  switch : (t.port p).switch = some { w with stage := .break_ }
  frozen : (t.port p).sup.frozen.isSome = true
  relays : t.relays = match w.target with
    | .local_ => { s.relays with pass := s.relays.pass.set p .open_ }
    | .lifeline => { s.relays with feed := s.relays.feed.set p .off }
  opened : windowOpened (relayWindow s.now (some w.id)) 3 s t

theorem activateSwitch_activated (hw : (s.port p).switch = some w) (hl : w.stage = .lead) :
    SwitchActivated p w s (activateSwitch p s) := by
  rw [activateSwitch_of_lead hw hl]
  have hrecord := applied_record (c := breakChange p w.target) (a := .modeSwitch p) (id := w.id) (s := breaking p s) p
  refine ⟨?_, ?_, ?_, applied_opened rfl le_rfl⟩
  · exact (congrArg PortRecord.switch hrecord).trans (breaking_switch hw)
  · have hfrozen := congrArg PortRecord.frozen hrecord
    have heq : ((applied (breakChange p w.target) (.modeSwitch p) w.id (breaking p s)).port p).sup.frozen =
      ((breaking p s).port p).sup.frozen := hfrozen
    rw [heq]
    exact breaking_frozen
  · rw [applied_relays, moveRelays_break]
    rfl

/-! ## CONNECT of a test that is not in NOTIFY -/

theorem connectTest_slots : (connectTest s).sched.slots = s.sched.slots := by
  cases hx : s.engine.test with
  | none => simp [connectTest, hx]
  | some x =>
    by_cases hp : x.phase = .notify
    · exact (connectTest_connected hx hp).slots
    · simp [connectTest, hx, hp]

/-! ## Any record becomes ACTIVE (R53) -/

theorem markActive_eq (h : slotRec s j = some d) :
    markActive j s = setSlot j (some { d with state := .active s.now }) s := by
  simp [markActive, h]

theorem ownerStart_of_ring (h : slotRec s j = some d) (hw : d.work = .ringSession) (hp : d.port = some p) :
    ownerStart j s = onTime p s := by
  unfold ownerStart
  simp only [h, hw, hp]

theorem ownerStart_of_switch (h : slotRec s j = some d) (hw : d.work = .modeSwitch) (hp : d.port = some p) :
    ownerStart j s = activateSwitch p s := by
  unfold ownerStart
  simp only [h, hw, hp]

theorem ownerStart_of_no_port (h : slotRec s j = some d) (hw : d.work = .ringSession ∨ d.work = .modeSwitch)
    (hp : d.port = none) : ownerStart j s = s := by
  unfold ownerStart
  rcases hw with hw | hw <;> simp only [h, hw, hp]

/-- An owner but the DSL switch's leaves the slots as it starts its work. -/
theorem ownerStart_slots (h : slotRec s j = some d) (hw : d.work ≠ .dslSwitch) :
    (ownerStart j s).sched.slots = s.sched.slots := by
  cases hwork : d.work with
  | ringSession =>
    cases hp : d.port with
    | none => rw [ownerStart_of_no_port h (.inl hwork) hp]
    | some p => rw [ownerStart_of_ring h hwork hp, onTime_slots]
  | modeSwitch =>
    cases hp : d.port with
    | none => rw [ownerStart_of_no_port h (.inr hwork) hp]
    | some p => rw [ownerStart_of_switch h hwork hp, activateSwitch_slots]
  | dslSwitch => exact absurd hwork hw
  | testConnect => rw [ownerStart_of_test h hwork, connectTest_slots]

/-- MODE_DONE alone of its kind is handed at a DSL switch's end. -/
theorem endDsl_handed {w : DslSwitch} {o : DslOutcome} (h : s.dsl = some w) :
    Handed .modeDone [(dslDone o s, some w.requester)] s.channels (endDsl o s).channels := by
  have hend : Queued (fun k => decide (k = .disturbDone)) s.channels (endSlot .dsl s).channels := by
    unfold endSlot
    split
    · exact postSubscribed_queued rfl .refl
    · exact .refl
  rw [endDsl_eq h]
  exact (hend.handed (by simp)).nil_trans (postCompletion_handed rfl rfl)

theorem eq_with_of_ownerKept (h : t.pending = s.pending ∧ t.phase = s.phase ∧ t.clock = s.clock ∧ t.pins = s.pins ∧
      t.twoPorts = s.twoPorts ∧ t.lines = s.lines ∧ t.power = s.power ∧ t.store = s.store ∧
      t.occasion = s.occasion) :
    t = { s with
      gateway := t.gateway, modem := t.modem, channels := t.channels, relays := t.relays, settles := t.settles
      dsl := t.dsl, sched := t.sched, tracker := t.tracker, ports := t.ports, ring := t.ring, engine := t.engine
      faults := t.faults } := by
  cases s
  cases t
  simpa using h

theorem activate_started (h : slotRec s j = some d) : ownerStarted j d s (activate j s) := by
  let e : Disturbance := { d with state := .active s.now }
  let u := setSlot j (some e) s
  have hact : activate j s = ownerStart j u := by rw [activate, markActive_eq h]
  have hu : slotRec u j = some e := PerSlot.get_set_same _ _ _
  have hslots : u.sched.slots = s.sched.slots.set j (some e) := rfl
  rw [hact]
  refine ⟨fun hw => ?_, fun p x hw hp hx hmains => ?_, fun hw hp hx hbattery htogether => ?_,
    fun p w hw hp hs hl => ?_, fun x hw hx hn => ?_, fun w hw hdsl => ⟨fun hbus => ?_, fun hbus => ?_⟩, ?_⟩
  · rw [ownerStart_slots hu hw, hslots]
  · rw [ownerStart_of_ring hu hw hp, onTime_of_mains (s := u) hx hmains]
    exact ⟨startBurst_inBurst, startBurst_generator, startBurst_masked⟩
  · obtain ⟨x, hx⟩ := Option.isSome_iff_exists.mp hx
    rw [ownerStart_of_ring hu hw hp, onTime_of_together (s := u) hx hbattery htogether]
    refine ⟨startBurst_inBurst, ?_⟩
    have hother : session (startBurst .p1 x (cutBurst .p2 u)) .p2 = session (cutBurst .p2 u) .p2 :=
      startBurst_session_other (by simp)
    rw [inBurst, hother, ← inBurst, cutBurst_inBurst]
  · rw [ownerStart_of_switch hu hw hp]
    obtain ⟨hswitch, hfrozen, hrelays, hopened⟩ := activateSwitch_activated (s := u) hs hl
    exact ⟨hswitch, hfrozen, hrelays, hopened⟩
  · rw [ownerStart_of_test hu hw]
    obtain ⟨hengine, hrelays, -, -, htest, hrelay⟩ := connectTest_connected (s := u) hx hn
    exact ⟨⟨connecting x u, congrArg Engine.test hengine, rfl, rfl⟩, hrelays, htest, hrelay⟩
  · rw [ownerStart_of_dsl hu hw, activateDsl_of_refused (s := u) hdsl hbus]
    obtain ⟨hnone, hslot, -, hrest⟩ := endDsl_ended (s := u) (o := .testActive) hdsl
    have htold : (dslDone .testActive u, some w.requester) = dslDoneOf s.now w 1 s.relays.dsl := rfl
    refine ⟨hnone, ?_, hslot, hands_of_handed (htold ▸ endDsl_handed (s := u) (o := .testActive) hdsl) rfl rfl⟩
    rw [hrest]
    rfl
  · rw [ownerStart_of_dsl hu hw, activateDsl_of_allowed (s := u) hdsl hbus]
    refine ⟨?_, ?_, applied_opened rfl le_rfl⟩
    · rw [applied_eq]
      exact hdsl
    · rw [applied_relays, moveRelays_dslChange]
      rfl
  · exact eq_with_of_ownerKept (by simp [u])

end

/-! ## Between a request and its answer -/

section
variable {p : Port} {d : Disturbance} {j : SlotId} {i : Instr} {o : Code} {l : List Byte} {s t : State}

@[simp] theorem port_answered : (answered i o l t).port p = t.port p := by simp [State.port]
@[simp] theorem session_answered : session (answered i o l t) p = session t p := by simp [session]
@[simp] theorem inBurst_answered : inBurst (answered i o l t) p = inBurst t p := by simp [inBurst]
@[simp] theorem slotRec_answered : slotRec (answered i o l t) j = slotRec t j := by simp [slotRec]

theorem windowOpened_frameIn {w : Window} {room : Nat} :
    windowOpened w room (frameIn i s) t ↔ windowOpened w room s t := windowOpened_congr (by simp) (by simp)

theorem burstingSince_frameIn {x : Time} : burstingSince (frameIn i s) p x ↔ burstingSince s p x := by
  simp [burstingSince]

theorem hands_answered {sort : Notice → Bool} {m : List Handing} (h : hands sort m (frameIn i s) t) :
    hands sort m s (answered i o l t) := by
  unfold hands handsEach at h ⊢
  rwa [answered_channels, ← frameIn_channels i s]

/-- A record's activation between a request and its answer. -/
theorem ownerStarted_answered (h : ownerStarted j d (frameIn i s) t) : ownerStarted j d s (answered i o l t) := by
  obtain ⟨hslots, hmains, hbattery, hswitch, htest, hdsl, hrest⟩ := h
  rw [frameIn_now] at hslots hbattery hswitch htest hdsl
  simp only [frameIn_parts, session_frameIn, burstingSince_frameIn, port_frameIn, windowOpened_frameIn]
    at hslots hmains hbattery hswitch htest hdsl
  refine ⟨by simpa using hslots, by simpa using hmains, by simpa using hbattery,
    by simpa [windowOpened_answered] using hswitch, by simpa [windowOpened_answered] using htest,
    fun w hw hs => ⟨fun hbus => ?_, fun hbus => ?_⟩, ?_⟩
  · obtain ⟨hnone, hrelays, hslot, htold⟩ := (hdsl w hw hs).1 hbus
    exact ⟨by simpa using hnone, by simpa using hrelays, by simpa using hslot, hands_answered htold⟩
  · simpa [windowOpened_answered] using (hdsl w hw hs).2 hbus
  · refine eq_with_of_ownerKept ?_
    simp only [answered_parts]
    rw [hrest]
    simp

end

/-! ## BRACED (R51) -/

theorem find?_slot {s : State} {id : Byte} {j : SlotId} {d : Disturbance} (hd : slotRec s j = some d) (hid : d.id = id)
    (hone : ∀ j' d', slotRec s j' = some d' → d'.id = id → j' = j) : slotWithId s id = some j := by
  have hmem (k : SlotId) : k ∈ allSlots := by cases k <;> simp [allSlots]
  cases hf : slotWithId s id with
  | none =>
    have := List.find?_eq_none.mp hf j (hmem j)
    simp [hd, hid] at this
  | some k =>
    have hk := List.find?_some hf
    simp only [decide_eq_true_eq, Option.map_eq_some_iff] at hk
    obtain ⟨d', hd', hid'⟩ := hk
    rw [hone k d' hd' hid']

theorem slotWithId_eq_none {s : State} {id : Byte} (h : ∀ j d, slotRec s j = some d → d.id ≠ id) :
    slotWithId s id = none := by
  refine List.find?_eq_none.mpr fun j _ => ?_
  simp only [decide_eq_true_eq, Option.map_eq_some_iff, not_exists, not_and]
  exact h j

theorem exec_leadExpiry (j : SlotId) (s : State) : exec (.leadExpiry j) s =
    .next (match slotRec s j with
      | some d => if timerDue s.now (leadDeadline d) then activate j s else s
      | none => s) := rfl

/-- Settles O23: both triggers activate the record, whose owner starts its work. -/
theorem recordsBecomeActiveOnce : Obligations.RecordsBecomeActiveOnce := by
  refine ⟨fun r id s htaken => ?_, fun j d due s hd hdue => ⟨fun hreached => ?_, fun hreached => ?_⟩, fun j s hall => ?_⟩
  · intro i u
    have hexec {o : Code} {l : List Byte} {t : State} (ha : answerBraced r id u = (t, ⟨o, l⟩)) :
        exec i s = .next (answered i o l t) := exec_of_answer htaken rfl ha
    have hslot (j : SlotId) : slotRec u j = slotRec s j := slotRec_frameIn j
    refine ⟨fun hc => hexec (if_pos hc), fun hc => ⟨fun hnone => hexec ?_, fun j d hd hid hone => ?_⟩⟩
    · rw [answerBraced, if_neg (not_not.mpr hc), slotWithId_eq_none (by simpa only [hslot] using hnone)]
      rfl
    have hfind : slotWithId u id = some j :=
      find?_slot (d := d) ((hslot j).trans hd) hid (by simpa only [hslot] using hone)
    refine ⟨fun ha => hexec ?_, fun ha => ?_⟩
    · rw [answerBraced, if_neg (not_not.mpr hc), hfind]
      simp [slotActive, hslot, hd, ha, report]
    · have hanswer : answerBraced r id u = (activate j u, ⟨.ok, [id, 1]⟩) := by
        rw [answerBraced, if_neg (not_not.mpr hc), hfind]
        simp [slotActive, hslot, hd, ha]
      exact ⟨_, hexec hanswer, respondedWith_of_ports (by simp [u]) (by simp [u]),
        ownerStarted_answered (activate_started ((hslot j).trans hd))⟩
  · rw [exec_leadExpiry, hd]
    refine ⟨activate j s, ?_, by simp, by simp, activate_started hd⟩
    simp [timerDue, hdue, hreached]
  · rw [exec_leadExpiry, hd]
    simp [timerDue, hdue, hreached]
  · rw [exec_leadExpiry]
    cases hd : slotRec s j with
    | none => rfl
    | some d =>
      have hactive := hall d hd
      cases hstate : d.state <;> simp [isActive, hstate, leadDeadline, timerDue] at hactive ⊢

end Sys2Proof.Machine
end

