-- ==== Sys2Proof/Proofs/Restarts.lean ====
section
namespace Sys2Proof.Machine

/-! ## Restarts of a supervisor (R113) -/

section
variable {p q : Port} {why : Option HookReason} {r s : State}

/-- A loop change at rest hands nothing. -/
theorem senseLoop_channels_of_onHook (h : (s.port p).sup.state = .onHook) :
    (senseLoop p s).channels = s.channels := by
  unfold senseLoop
  split
  · rw [takeLoop_eq]
    have hstate (b : Bool) : ((loopTaken p b s).port p).sup.state = .onHook := by
      unfold loopTaken
      dsimp only
      split <;> simp [h]
    have hchannels (b : Bool) : (loopTaken p b s).channels = s.channels := by
      unfold loopTaken
      dsimp only
      split <;> simp
    unfold loopJudged
    rw [hstate]
    cases loopReading s p <;> simp [hchannels, beginSeizing]
  · rfl

/-- A supervisor at rest that takes its loop is at rest or begins a seizure (R109). -/
theorem senseLoop_state_of_onHook (h : (s.port p).sup.state = .onHook) :
    ((senseLoop p s).port p).sup.state = .onHook ∨ ((senseLoop p s).port p).sup.state = .seizing := by
  unfold senseLoop
  split
  · rw [takeLoop_eq]
    have hstate (b : Bool) : ((loopTaken p b s).port p).sup.state = .onHook := by
      unfold loopTaken
      dsimp only
      split <;> simp [h]
    unfold loopJudged
    rw [hstate]
    cases loopReading s p <;> simp [hstate, beginSeizing]
  · exact .inl h

/-- What a restart hands: HOOK, where one is due (R98, R103). -/
def restartHook (p : Port) (why : Option HookReason) (s : State) : List Handing :=
  match why with
  | some x => if inCall ((s.port p).sup.frozen.getD (s.port p).sup.state) = true then
      [hookNoteOf s.now p false (lifelineCond s p) x.code 0] else []
  | none => []

/-- The supervisor at rest with its HOOK handed, before it takes the loop (R113). -/
def rested (p : Port) (why : Option HookReason) (s : State) : State :=
  judgeWatch (handAll (restartHook p why s) (restartQuiet p s))

theorem lifelineCond_congr {t : State} (hm : (t.port q).mode = (s.port q).mode)
    (hs : (t.port q).switch = (s.port q).switch) : lifelineCond t q = lifelineCond s q := by
  have h : restingMode (t.port q) = restingMode (s.port q) := by rw [restingMode, restingMode, hm, hs]
  rw [lifelineCond, lifelineCond, restingPass, restingPass, h]

theorem restart_eq : restart p why s = senseLoop p (rested p why s) := by
  have hcond : lifelineCond (restartQuiet p s) p = lifelineCond s p :=
    lifelineCond_congr (by simp [restartQuiet]) (by simp [restartQuiet])
  have hnote (x : HookReason) : hookNotice p false x 0 (restartQuiet p s) =
      handAll [hookNoteOf s.now p false (lifelineCond s p) x.code 0] (restartQuiet p s) := by
    rw [← hcond]
    simp only [hookNotice, hookNoteOf, bitOf]
    rfl
  unfold restart rested restartHook
  dsimp only
  cases why with
  | none => rfl
  | some x =>
    rw [stateBeforeFreezing]
    dsimp only
    rw [hnote]
    split <;> rfl

theorem handAll_eq (l : List Handing) : handAll l s = { s with channels := (handAll l s).channels } := by
  induction l generalizing s with
  | nil => rfl
  | cons x rest ih =>
    obtain ⟨n, o⟩ := x
    have hone : handAll [(n, o)] s = { s with channels := (handAll [(n, o)] s).channels } := by
      cases o with
      | none => exact (post_eq n _ s : postSubscribed n s = _)
      | some c => exact (post_eq n _ s : postCompletion n c s = _)
    have hsplit : handAll ((n, o) :: rest) s = handAll rest (handAll [(n, o)] s) := rfl
    rw [hsplit, ih, hone]

theorem handAll_port (l : List Handing) : (handAll l s).port q = s.port q := by
  rw [handAll_eq]
  rfl

theorem rested_port : (rested p why s).port q = (restartQuiet p s).port q := by
  rw [rested, judgeWatch_port, handAll_port]

theorem rested_state : ((rested p why s).port p).sup.state = .onHook := by
  rw [rested_port]
  simp [restartQuiet]

theorem restart_channels : (restart p why s).channels = (handAll (restartHook p why s) s).channels := by
  rw [restart_eq, senseLoop_channels_of_onHook rested_state, rested]
  have hw (u : State) : (judgeWatch u).channels = u.channels := by simp
  rw [hw]
  exact handAll_channels_congr (s := restartQuiet p s) (t := s) rfl _

/-- A restarted supervisor is at rest or begins a seizure, and is neither frozen nor masked (R113). -/
theorem restart_state : ((restart p why s).port p).sup.state = .onHook ∨
    ((restart p why s).port p).sup.state = .seizing := by
  rw [restart_eq]
  exact senseLoop_state_of_onHook rested_state

theorem restart_record : portRecord ((restart p why s).port q) = portRecord ((restartQuiet p s).port q) :=
  congrFun (congrArg Ground.records (restart_ground (r := s) p why)) q

theorem restart_frozen : ((restart p why s).port p).sup.frozen = none := by
  refine (congrArg PortRecord.frozen (restart_record (q := p))).trans ?_
  simp [portRecord, restartQuiet]

end

end Sys2Proof.Machine
end

