-- ==== Sys2Proof/Proofs/SwitchEnds.lean ====
section
namespace Sys2Proof.Machine

/-! ## The end of a mode switch (R98) -/

section
variable {p q : Port} {w : ModeSwitch} {m : PlainMode} {o : SwitchOutcome} {r s v : State}

theorem endSlot_sched {i : SlotId} {d : Disturbance} (h : slotRec s i = some d) :
    (endSlot i s).sched = { s.sched with slots := s.sched.slots.set i none } := by
  simp [endSlot, h, setSlot]

/-- A switch that has ended leaves its slot empty and its port in the mode standing. -/
theorem switchOver_eq (hid : (slotRec v (portSlot p)).map (·.id) = some w.id) : switchOver p w m o v =
    (endSlot (portSlot p) (standingIn p m o v)).updPort p (fun q => { q with switch := none }) := by
  have h : (slotRec (standingIn p m o v) (portSlot p)).map (·.id) = some w.id := hid
  rw [switchOver, if_pos h]

theorem switchOver_port (hid : (slotRec v (portSlot p)).map (·.id) = some w.id) : (switchOver p w m o v).port p =
    { v.port p with mode := m.mode, switch := none, suspended := suspendedAfter o m (v.port p).suspended } := by
  rw [switchOver_eq hid, State.updPort_port_same, endSlot_port]
  simp [standingIn]

theorem switchOver_port_other (hid : (slotRec v (portSlot p)).map (·.id) = some w.id) (h : q ≠ p) :
    (switchOver p w m o v).port q = v.port q := by
  rw [switchOver_eq hid, State.updPort_port_other _ _ _ _ h, endSlot_port]
  simp [standingIn, h]

theorem switchOver_channels (hid : (slotRec v (portSlot p)).map (·.id) = some w.id) :
    (switchOver p w m o v).channels = (endSlot (portSlot p) v).channels := by
  rw [switchOver_eq hid]
  exact endSlot_channels_congr (s := standingIn p m o v) (t := v) rfl rfl rfl

theorem switchOver_rest (hid : (slotRec v (portSlot p)).map (·.id) = some w.id) : switchOver p w m o v = { v with
    channels := (switchOver p w m o v).channels
    sched := { v.sched with slots := v.sched.slots.set (portSlot p) none }
    ports := (switchOver p w m o v).ports } := by
  obtain ⟨d, hd, -⟩ := Option.map_eq_some_iff.mp hid
  have hsched := endSlot_sched (s := standingIn p m o v) (i := portSlot p) (d := d) hd
  have hend := endSlot_eq (s := standingIn p m o v) (i := portSlot p)
  rw [hsched] at hend
  rw [switchOver_eq hid, hend]
  rfl

theorem lifelineCond_switchOver (hid : (slotRec v (portSlot p)).map (·.id) = some w.id) :
    lifelineCond (switchOver p w m o v) p = decide (m = .lifeline) := by
  have h : restingMode ((switchOver p w m o v).port p) = m := by
    rw [switchOver_port hid]
    cases m <;> rfl
  rw [lifelineCond, restingPass, h]
  cases m <;> rfl

/-! ### The restart -/

/-- A record without what a restart sets (R113). -/
def PortRecord.atRest (q : PortRecord) : PortRecord := { q with frozen := none, masked := false }

/-- HOOK of a switch's end (R98, R116). -/
def switchHook (p : Port) (m : PlainMode) (s : State) : List Handing :=
  if (s.port p).denial = none ∧ inCall ((s.port p).sup.frozen.getD (s.port p).sup.state) = true then
    [hookNoteOf s.now p false (decide (m = .lifeline)) 4 0]
  else []

/-- The supervisor is restarted, unless a denial keeps it frozen. -/
structure SwitchRestarted (p : Port) (b z : State) : Prop where
  others : ∀ r, (ground r z).others = (ground r b).others
  engine : unread z.engine = unread b.engine
  record : ∀ q, (portRecord (z.port q)).atRest = (portRecord (b.port q)).atRest
  other : ∀ q, q ≠ p → z.port q = b.port q
  channels : z.channels = (handAll (if (b.port p).denial = none then restartHook p (some .mode) b else []) b).channels
  supervisor : (b.port p).denial = none → (z.port p).sup.frozen = none ∧
    ((z.port p).sup.state = .onHook ∨ (z.port p).sup.state = .seizing)

theorem restartQuiet_record : (portRecord ((restartQuiet p s).port q)).atRest = (portRecord (s.port q)).atRest := by
  by_cases hq : q = p
  · subst hq
    simp [restartQuiet, portRecord, PortRecord.atRest]
  · simp [restartQuiet, hq]

theorem switchRestarted_restarted (hw : w.stage ≠ .lead) (ho : o ≠ .power) :
    SwitchRestarted p (switchOver p w m o s) (switchRestarted p w m o s) := by
  unfold switchRestarted
  by_cases hd : ((switchOver p w m o s).port p).denial = none
  · rw [if_pos ⟨hw, ho, by simp [hd]⟩]
    refine ⟨fun r => ?_, ?_, fun q => ?_, fun q hq => restart_port_other hq _, ?_, fun _ => ⟨restart_frozen, restart_state⟩⟩
    · rw [restart_ground]
      rfl
    · exact congrArg Ground.engine (restart_ground (r := s) p _)
    · rw [restart_record, restartQuiet_record]
    · rw [restart_channels, if_pos hd]
  · rw [if_neg (by simp [hd])]
    exact ⟨fun _ => rfl, rfl, fun _ => rfl, fun _ _ => rfl, by rw [if_neg hd]; rfl, fun h => absurd h hd⟩

/-! ### The whole end -/

theorem modeDone_eq {susp : Bool} {now : Time} : (modeDone p o m w susp now, some w.requester) =
    switchDoneOf now p w o.code m susp := by
  have hid : byte w.id.toNat = w.id := byte_of_toNat rfl
  simp only [modeDone, switchDoneOf, notice, detail4, hid]
  cases m <;> cases w.target <;> cases susp <;> rfl

/-- What a switch's end makes of the state, from a state before it that has the same port records but for the stage. -/
structure SwitchEnded (p : Port) (w : ModeSwitch) (m : PlainMode) (o : SwitchOutcome) (v t : State) : Prop where
  others : t = { v with
    channels := t.channels, sched := { v.sched with
      slots := v.sched.slots.set (portSlot p) none, windows := t.sched.windows }
    tracker := { v.tracker with obscured := t.tracker.obscured }, ports := t.ports, engine := t.engine
    faults := { v.faults with watch := t.faults.watch } }
  engine : unread t.engine = unread v.engine
  mode : (t.port p).mode = m.mode
  switch : (t.port p).switch = none
  timing : (t.port p).timing = (v.port p).timing
  suspended : (t.port p).suspended = suspendedAfter o m (v.port p).suspended
  other : ∀ q, q ≠ p → t.port q = v.port q
  channels : t.channels = (handAll (switchHook p m v ++ [switchDoneOf v.now p w o.code m (t.port p).suspended])
    (endSlot (portSlot p) v)).channels
  supervisor : (v.port p).denial = none → (t.port p).sup.frozen = none ∧
    ((t.port p).sup.state = .onHook ∨ (t.port p).sup.state = .seizing)

theorem restartHook_switchOver (hid : (slotRec v (portSlot p)).map (·.id) = some w.id) :
    (if ((switchOver p w m o v).port p).denial = none then restartHook p (some .mode) (switchOver p w m o v) else []) =
      switchHook p m v := by
  have hport := switchOver_port (m := m) (o := o) hid
  have hnow : (switchOver p w m o v).now = v.now := by
    rw [switchOver_rest hid]
    rfl
  simp only [restartHook, switchHook, lifelineCond_switchOver hid, hnow, hport]
  by_cases hd : (v.port p).denial = none <;> simp [hd, HookReason.code]

theorem endSwitch_ended (hw : (v.port p).switch = some w) (hs : w.stage ≠ .lead) (ho : o ≠ .power)
    (hid : (slotRec v (portSlot p)).map (·.id) = some w.id) : SwitchEnded p w m o v (endSwitch p m o v) := by
  let b := switchOver p w m o v
  let z := switchRestarted p w m o v
  have hb : b = _ := switchOver_rest hid
  have hport : b.port p = _ := switchOver_port hid
  obtain ⟨hothers, hengine, hrecord, hother, hchannels, hsup⟩ : SwitchRestarted p b z := switchRestarted_restarted hs ho
  have hz : z = { b with
      channels := z.channels, sched := { b.sched with windows := z.sched.windows }
      tracker := { b.tracker with obscured := z.tracker.obscured }, ports := z.ports, engine := z.engine
      faults := { b.faults with watch := z.faults.watch } } := hothers z
  have hnow : z.now = v.now := by
    rw [hz, hb]
    rfl
  let n := modeDone p o m w (z.port p).suspended z.now
  have ht : endSwitch p m o v = { z with channels := (postCompletion n w.requester z).channels } :=
    (endSwitch_eq hw m o).trans (post_eq _ _ _)
  have hnotice : (n, some w.requester) = switchDoneOf v.now p w o.code m (z.port p).suspended := hnow ▸ modeDone_eq
  rw [restartHook_switchOver hid] at hchannels
  have hhook : z.channels = (handAll (switchHook p m v) (endSlot (portSlot p) v)).channels :=
    hchannels.trans (handAll_channels_congr (switchOver_channels hid) _)
  rw [ht]
  refine ⟨?_, ?_, ?_, ?_, ?_, ?_, fun q hq => (hother q hq).trans (switchOver_port_other hid hq), ?_, fun hd => hsup ?_⟩
  · rw [hz, hb]
  · refine hengine.trans ?_
    rw [hb]
  · exact (congrArg PortRecord.mode (hrecord p)).trans (by rw [hport]; rfl)
  · exact (congrArg PortRecord.switch (hrecord p)).trans (by rw [hport]; rfl)
  · exact (congrArg PortRecord.timing (hrecord p)).trans (by rw [hport]; rfl)
  · exact (congrArg PortRecord.suspended (hrecord p)).trans (by rw [hport]; rfl)
  · rw [handAll_append]
    exact (handAll_channels_congr hhook [(n, some w.requester)]).trans (by rw [hnotice]; rfl)
  · rw [hport]
    exact hd

end

end Sys2Proof.Machine
end

