-- ==== Sys2Proof/Proofs/SwitchSettles.lean ====
section
namespace Sys2Proof.Machine

/-! ## A switch's change set completes (R96 to R98) -/

section
variable {p : Port} {w w' : ModeSwitch} {m : PlainMode} {o : SwitchOutcome} {rest : List Settle} {s t v : State}

/-- What a completion leaves alone. -/
def SwitchFrame (p : Port) (s t : State) : Prop :=
  t = { s with
    channels := t.channels, relays := t.relays, settles := t.settles
    sched := { s.sched with slots := t.sched.slots, windows := t.sched.windows }
    tracker := { s.tracker with obscured := t.tracker.obscured }, ports := t.ports, engine := t.engine
    faults := { s.faults with watch := t.faults.watch } } ∧
  (∀ j, j ≠ portSlot p → slotRec t j = slotRec s j) ∧
  ((∀ x, s.engine.test = some x → x.phase ≠ .measure) → t.engine = s.engine) ∧
  t.engine.result = s.engine.result ∧ (t.port p).timing = (s.port p).timing ∧
  (t.port (otherPort p)).mode = (s.port (otherPort p)).mode ∧
  (t.port (otherPort p)).switch = (s.port (otherPort p)).switch

/-- The state in which a completion acts: the settle taken out, and the switch perhaps in another stage. -/
structure Settling (p : Port) (w : ModeSwitch) (rest : List Settle) (s v : State) : Prop where
  rest : v = { s with settles := rest, ports := v.ports }
  port : v.port p = { s.port p with switch := some w }
  other : v.port (otherPort p) = s.port (otherPort p)

theorem otherPort_ne (p : Port) : otherPort p ≠ p := by cases p <;> simp [otherPort]

theorem settling_setSettles (hw : (s.port p).switch = some w) : Settling p w rest s (s.setSettles rest) := by
  refine ⟨rfl, ?_, rfl⟩
  rw [← hw]
  rfl

theorem settling_setStage (x : SwitchStage) (hw : (s.port p).switch = some w) :
    Settling p { w with stage := x } rest s (setStage p x (s.setSettles rest)) := by
  refine ⟨?_, by simp [setStage, hw], by simp [setStage, otherPort_ne]⟩
  cases p <;> rfl

/-- The frame of a completion that applies a change set. -/
theorem switchFrame_of_applied {c : Change} {a : Asker} {id : Byte} (hv : Settling p w rest s v) :
    SwitchFrame p s (applied c a id v) := by
  obtain ⟨hrest, hport, hother⟩ := hv
  have hengine : unread (applied c a id v).engine = unread s.engine := by
    rw [applied_unread, hrest]
  have hrecord := applied_record (c := c) (a := a) (id := id) (s := v)
  refine ⟨?_, fun j _ => ?_, engine_of_unread hengine, ?_, ?_, ?_, ?_⟩
  · rw [applied_eq, hrest]
  · rw [slotRec, applied_slots, hrest]
    rfl
  · simpa using congrArg Engine.result hengine
  · exact (congrArg PortRecord.timing (hrecord p)).trans (by rw [hport]; rfl)
  · exact (congrArg PortRecord.mode (hrecord (otherPort p))).trans (by rw [hother]; rfl)
  · exact (congrArg PortRecord.switch (hrecord (otherPort p))).trans (by rw [hother]; rfl)

/-- The frame of a completion that ends the switch. -/
theorem switchFrame_of_ended (hv : Settling p w rest s v) (h : SwitchEnded p w' m o v t) : SwitchFrame p s t := by
  obtain ⟨hrest, hport, hother⟩ := hv
  obtain ⟨hothers, hunread, -, -, htiming, -, hothers', -, -⟩ := h
  have hengine : unread t.engine = unread s.engine := by
    rw [hunread, hrest]
  have hslots : t.sched.slots = s.sched.slots.set (portSlot p) none := by
    rw [hothers, hrest]
  refine ⟨?_, fun j hj => ?_, engine_of_unread hengine, ?_, ?_, ?_, ?_⟩
  · rw [hothers, hrest]
  · rw [slotRec, slotRec, hslots, PerSlot.get_set_other _ _ _ _ hj]
  · simpa using congrArg Engine.result hengine
  · rw [htiming, hport]
  · rw [hothers' _ (otherPort_ne p), hother]
  · rw [hothers' _ (otherPort_ne p), hother]

/-- What a completion that ends the switch makes of the state. -/
def SwitchEndsAs (p : Port) (w : ModeSwitch) (rest : List Settle) (mode : PlainMode) (outcome : Nat) (s t : State) :
    Prop :=
  (t.port p).mode = mode.mode ∧ (t.port p).switch = none ∧ slotRec t (portSlot p) = none ∧
    t.relays = s.relays ∧ t.settles = rest ∧ t.ports.get (otherPort p) = s.ports.get (otherPort p) ∧
    SwitchFrame p s t ∧ t.channels = (handAll (switchHook p mode s ++
      [switchDoneOf s.now p w outcome mode (t.port p).suspended]) (endSlot (portSlot p) s)).channels ∧
    ((s.port p).denial = none → (t.port p).sup.frozen = none ∧
      ((t.port p).sup.state = .onHook ∨ (t.port p).sup.state = .seizing))

theorem switchEndsAs_of_ended {x : SwitchStage} (hv : Settling p { w with stage := x } rest s v) (hx : x ≠ .lead)
    (ho : o ≠ .power) (hid : (slotRec s (portSlot p)).map (·.id) = some w.id) :
    SwitchEndsAs p w rest m o.code s (endSwitch p m o v) ∧
      ((endSwitch p m o v).port p).suspended = suspendedAfter o m (s.port p).suspended := by
  obtain ⟨hrest, hport, hother⟩ := id hv
  have hsched : v.sched = s.sched := by rw [hrest]
  have hclock : v.clock = s.clock := by rw [hrest]
  have hnow : v.now = s.now := by rw [State.now, hclock, State.now]
  have hslot : slotRec v (portSlot p) = slotRec s (portSlot p) := by rw [slotRec, hsched, slotRec]
  have hended := endSwitch_ended (v := v) (p := p) (w := { w with stage := x }) (m := m) (o := o) (by rw [hport]) hx ho
    (by rw [hslot]; exact hid)
  have hframe := switchFrame_of_ended hv hended
  obtain ⟨hothers, -, hmode, hswitch, -, hsusp, hothers', hchannels, hsup⟩ := hended
  have hhook : switchHook p m v = switchHook p m s := by
    simp [switchHook, hport, hnow]
  have hdone (b : Bool) : switchDoneOf v.now p { w with stage := x } o.code m b = switchDoneOf s.now p w o.code m b := by
    rw [hnow]
    rfl
  rw [hport] at hsusp hsup
  refine ⟨⟨hmode, hswitch, ?_, ?_, ?_, ?_, hframe, ?_, hsup⟩, hsusp⟩
  · rw [hothers]
    exact PerSlot.get_set_same _ _ _
  · rw [hothers, hrest]
  · rw [hothers, hrest]
  · exact (hothers' _ (otherPort_ne p)).trans hother
  · rw [hchannels, hhook, hdone]
    exact handAll_channels_congr (endSlot_channels_congr (by rw [hrest]) hsched hclock) _

/-! ### The make change set (R96, R97) -/

theorem moveRelays_make (r : Relays) (x : PlainMode) : moveRelays r (widen (makeChange p x)) = match x with
    | .local_ => { r with feed := r.feed.set p .on }
    | .lifeline => { r with pass := r.pass.set p .closed } := by
  cases x <;> cases p <;> rfl

theorem refusedByBus_make {r : Relays} {x : PlainMode} :
    refusedByBus r (widen (makeChange p x)) = true ↔ x = .lifeline ∧ r.bus = .exchange := by
  cases x <;> cases p <;> simp [makeChange, refusedByBus, widen, noChange, PerPort.set]

theorem switchSettled_of_break (hw : (s.port p).switch = some w) (hs : w.stage = .break_) : switchSettled p s =
    (applyChange (makeChange p w.target) (.modeSwitch p) w.id (setStage p .make s)).getD
      (endSwitch p .lifeline .testActive (setStage p .make s)) := by
  have h (x : Option State) (u : State) : (match x with | some s' => s' | none => u) = x.getD u := by cases x <;> rfl
  simp only [switchSettled, hw, hs]
  exact h _ _

theorem switchSettled_of_make (hw : (s.port p).switch = some w) (hs : w.stage = .make) : switchSettled p s =
    if w.target = .lifeline ∧ s.relays.pass.get p ≠ .closed then endSwitch p .lifeline .testActive s
    else endSwitch p w.target .done s := by
  simp only [switchSettled, hw, hs]

/-- A make change set that the test bus allows is applied, and the switch stands in its stage MAKE. -/
theorem switchSettled_applied (hw : (s.port p).switch = some w) (hs : w.stage = .break_)
    (hbus : ¬(w.target = .lifeline ∧ s.relays.bus = .exchange)) :
    let t := switchSettled p (s.setSettles rest)
    (t.port p).switch = some { w with stage := .make } ∧
      t.relays = moveRelays s.relays (widen (makeChange p w.target)) ∧
      t.settles = rest ++ [⟨.modeSwitch p, s.now + ms 20⟩] ∧
      windowOpened (relayWindow s.now (some w.id)) 3 s t ∧ SwitchFrame p s t := by
  intro t
  let v := setStage p .make (s.setSettles rest)
  have hv : Settling p { w with stage := .make } rest s v := settling_setStage .make hw
  have hallowed : refusedByBus v.relays (widen (makeChange p w.target)) = false :=
    Bool.eq_false_iff.mpr fun hr => hbus (refusedByBus_make.mp hr)
  have ht : t = applied (makeChange p w.target) (.modeSwitch p) w.id v := by
    have h := switchSettled_of_break (s := s.setSettles rest) hw hs
    rw [applyChange_of_allowed hallowed, Option.getD_some] at h
    exact h
  rw [ht]
  refine ⟨?_, applied_relays, applied_settles, applied_opened rfl le_rfl, switchFrame_of_applied hv⟩
  exact (congrArg PortRecord.switch (applied_record p)).trans (by rw [hv.port]; rfl)

end

/-- Settles O33: after the break the make change set is applied or refused; after the make the switch ends. -/
theorem switchRunsBreakBeforeMake : Obligations.SwitchRunsBreakBeforeMake := by
  intro p w rest s hsettle hw hfit hid hook frame ended
  have hexec : exec (.changeSetComplete (.modeSwitch p)) s = .next (switchSettled p (s.setSettles rest)) := by
    rw [exec_changeSetComplete, hsettle]
    rfl
  refine ⟨fun hs => ⟨fun htarget => ?_, fun htarget hbus => ?_, fun htarget hbus => ?_⟩, fun hs => ?_⟩
  · obtain ⟨hswitch, hrelays, hsettles, hopened, hframe⟩ :=
      switchSettled_applied (rest := rest) hw hs (by simp [htarget])
    rw [moveRelays_make, htarget] at hrelays
    exact ⟨_, hexec, hswitch, hrelays, hsettles, hopened, hframe⟩
  · obtain ⟨hswitch, hrelays, hsettles, hopened, hframe⟩ :=
      switchSettled_applied (rest := rest) hw hs (by simp [hbus])
    rw [moveRelays_make, htarget] at hrelays
    exact ⟨_, hexec, hswitch, hrelays, hsettles, hopened, hframe⟩
  · have hrefused : refusedByBus (setStage p .make (s.setSettles rest)).relays (widen (makeChange p w.target)) = true :=
      refusedByBus_make.mpr ⟨htarget, hbus⟩
    have ht := switchSettled_of_break (s := s.setSettles rest) hw hs
    rw [applyChange_of_refused hrefused, Option.getD_none] at ht
    rw [ht] at hexec
    obtain ⟨hended, hsusp⟩ := switchEndsAs_of_ended (m := .lifeline) (o := .testActive) (x := .make)
      (settling_setStage (rest := rest) .make hw) (by simp) (by simp) hid
    exact ⟨_, hexec, hended, hsusp⟩
  · have hv : Settling p { w with stage := w.stage } rest s (s.setSettles rest) := settling_setSettles hw
    have ht := switchSettled_of_make (s := s.setSettles rest) hw hs
    by_cases hopen : w.target = .lifeline ∧ s.relays.pass.get p ≠ .closed
    · rw [State.setSettles_relays, if_pos hopen] at ht
      rw [ht] at hexec
      obtain ⟨hended, hsusp⟩ := switchEndsAs_of_ended (m := .lifeline) (o := .testActive) hv (by simp [hs]) (by simp) hid
      refine ⟨_, hexec, ?_, ?_⟩
      · rw [if_pos hopen, hopen.1]
        exact hended
      · rw [hsusp, hopen.1]
        exact (if_neg hopen.2).symm
    · rw [State.setSettles_relays, if_neg hopen] at ht
      rw [ht] at hexec
      obtain ⟨hended, hsusp⟩ := switchEndsAs_of_ended (m := w.target) (o := .done) hv (by simp [hs]) (by simp) hid
      refine ⟨_, hexec, ?_, ?_⟩
      · rw [if_neg hopen]
        exact hended
      · rw [hsusp]
        cases htarget : w.target with
        | local_ => rfl
        | lifeline =>
          have hclosed : s.relays.pass.get p = .closed := by simpa [htarget] using hopen
          exact (if_pos hclosed).symm

end Sys2Proof.Machine
end

