-- ==== Sys2Proof/Proofs/LoopNotices.lean ====
section
namespace Sys2Proof.Machine

/-! ## Exactly what a loop change hands (R110, R111, R116 to R118) -/

section
variable {p q : Port} {s t : State}

/-- DIGIT of an entry depends on the dial record alone (R117). -/
theorem digitOf_congr {now : Time} {e : DialEntry} {n : Nat} {x y : PhonePort} (hd : x.dial = y.dial)
    (ho : x.overflow = y.overflow) : digitOf now p e n x = digitOf now p e n y := by
  have hr : (recorded e x).overflow = (recorded e y).overflow ∧ (recorded e x).dial = (recorded e y).dial := by
    unfold recorded
    rw [hd, ho]
    split <;> simp
  simp only [digitOf, hr, hd]

/-! ### The dial record -/

/-- The DIGIT notice that an entry hands once it stands in the record (R117). -/
theorem digitNotice_entry {e : DialEntry} {n : Nat} (hp : t.port p = recorded e (s.port p)) (ht : t.channels = s.channels)
    (hn : t.now = s.now) :
    (digitNotice p false (decide (e = .flash)) (decide (24 ≤ (s.port p).dial.length)) e.code n t).channels =
      (handAll [digitOf s.now p e n (s.port p)] s).channels := by
  have hnote : (digitOf s.now p e n (s.port p)).1 = notice .digit (byte (portNum p))
      (byte (bitOf 0 false + bitOf 1 (decide (e = .flash)) + bitOf 2 (decide (24 ≤ (s.port p).dial.length)) +
        bitOf 3 (t.port p).overflow)) t.now (detail4 e.code n (t.port p).dial.length 0) := by
    have hfull : 24 ≤ (s.port p).dial.length ↔ ¬(s.port p).dial.length < 24 := by omega
    rw [hp, hn]
    cases e <;> by_cases h : (s.port p).dial.length < 24 <;> simp [digitOf, notice, detail4, bitOf, h, hfull] <;>
      exact ⟨rfl, rfl⟩
  refine Eq.trans ?_ (handAll_channels_congr ht _)
  change _ = (postSubscribed (digitOf s.now p e n (s.port p)).1 t).channels
  rw [hnote]
  rfl

theorem recordEntry_channels (e : DialEntry) (n : Nat) : (recordEntry p e n s).channels =
    (handAll (if lifelineCond s p = true then [] else [digitOf s.now p e n (s.port p)]) s).channels := by
  unfold recordEntry
  by_cases hl : lifelineCond s p = true
  · simp [hl, handAll]
  · rw [if_neg hl, if_neg hl]
    refine digitNotice_entry ?_ rfl rfl
    rw [State.updPort_port_same, recorded]
    by_cases h : (s.port p).dial.length < 24
    · simp [h]
    · simp [h, Nat.le_of_not_lt h]

theorem recordEntry_record (e : DialEntry) (n : Nat) : ((recordEntry p e n s).port p).dial =
      (if lifelineCond s p = true then s.port p else recorded e (s.port p)).dial ∧
    ((recordEntry p e n s).port p).overflow =
      (if lifelineCond s p = true then s.port p else recorded e (s.port p)).overflow := by
  unfold recordEntry recorded
  by_cases hl : lifelineCond s p = true <;> by_cases h : 24 ≤ (s.port p).dial.length
  · simp [hl]
  · simp [hl]
  · simp [hl, h, Nat.not_lt.mpr h]
  · simp [hl, h, Nat.lt_of_not_le h]

/-- What the completion of a digit hands outside the lifeline condition, and the record it leaves (R111). -/
def digitNotices (p : Port) (s : State) : List Handing :=
  if lifelineCond s p = true then [] else (digitDone s.now p (s.port p)).2

def digitRecord (p : Port) (s : State) : PhonePort :=
  if lifelineCond s p = true then s.port p else (digitDone s.now p (s.port p)).1

theorem updSup_channels (f : Supervisor → Supervisor) : (s.updSup p f).channels = s.channels := rfl

theorem completeDigit_channels : (completeDigit p s).channels = (handAll (digitNotices p s) s).channels := by
  unfold completeDigit digitNotices digitDone
  by_cases hn : (s.port p).sup.pulses = 0
  · simp [hn, handAll]
  by_cases hten : (s.port p).sup.pulses ≤ 10
  · simp only [hn, hten, if_true, if_false, updSup_channels, recordEntry_channels]
  by_cases hl : lifelineCond s p = true
  · simp [hn, hten, hl, handAll]
  · simp only [hn, hten, hl, if_false, Bool.false_eq_true, updSup_channels]
    cases ho : (s.port p).overflow <;> simp [digitNotice, dialErrorOf, handAll, notice, detail4, bitOf, ho] <;> rfl

theorem completeDigit_record : ((completeDigit p s).port p).dial = (digitRecord p s).dial ∧
    ((completeDigit p s).port p).overflow = (digitRecord p s).overflow := by
  unfold completeDigit digitRecord digitDone
  by_cases hn : (s.port p).sup.pulses = 0
  · simp [hn]
  by_cases hten : (s.port p).sup.pulses ≤ 10
  · simp [hn, hten, recordEntry_record]
  by_cases hl : lifelineCond s p = true
  · simp [hn, hten, hl]
  · simp [hn, hten, hl]

/-! ### The end of a break (R110) -/

/-- How long the break of a supervisor has lasted. -/
def breakLength (p : Port) (s : State) : Nat := (s.now - (s.port p).sup.breakStart).toNat

/-- What a flash hands: the digit that it completes, and itself (R110, R111). -/
def flashNotices (p : Port) (s : State) : List Handing :=
  digitNotices p s ++ if lifelineCond s p = true then [] else [digitOf s.now p .flash 0 (digitRecord p s)]

/-- What a release hands: HOOK, and UNPLANNED HOOK_RELEASE in the lifeline condition (R110, R118). -/
def releaseNotices (p : Port) (s : State) : List Handing :=
  hookNoteOf s.now p false (lifelineCond s p) 1 (s.port p).sup.breakStart ::
    if lifelineCond s p = true then [unplannedNoteOf s.now 2 (some p) 0] else []

/-- What the end of a break hands, by its length (R110). -/
def breakNotices (p : Port) (s : State) : List Handing :=
  let x := (s.port p).sup.breakTiming
  if breakLength p s < x.glitch * 1000 ∨ breakLength p s ≤ x.pulseMax * 1000 then []
  else if breakLength p s < x.flashMax * 1000 then flashNotices p s
  else releaseNotices p s

theorem hookNotice_eq (off : Bool) (why : HookReason) (d : Time) :
    hookNotice p off why d s = handAll [hookNoteOf s.now p off (lifelineCond s p) why.code d] s := by
  simp only [hookNotice, hookNoteOf, bitOf]
  rfl

theorem unplanned_eq (k : Unplanned) (o : Option Port) (n : Nat) :
    unplanned k o n s = handAll [unplannedNoteOf s.now k.code o n] s := rfl

theorem handAll_now (l : List Handing) : (handAll l s).now = s.now := by
  rw [handAll_eq]
  rfl

theorem releasePort_channels : (releasePort p s).channels = (handAll (releaseNotices p s) s).channels := by
  let u := s.updSup p (fun u =>
    { u with state := .onHook, pulses := 0, gapTimer := .stopped, breakTimer := .stopped })
  have hu : lifelineCond u p = lifelineCond s p := lifelineCond_congr (by simp [u]) (by simp [u])
  have hcond (l : List Handing) : lifelineCond (handAll l u) p = lifelineCond s p :=
    (lifelineCond_congr (by rw [handAll_port]) (by rw [handAll_port])).trans hu
  have hout : releasePort p s = judgeWatch (if lifelineCond (hookNotice p false .loop (s.port p).sup.breakStart u) p = true
      then unplanned .hookRelease (some p) 0 (hookNotice p false .loop (s.port p).sup.breakStart u)
      else hookNotice p false .loop (s.port p).sup.breakStart u) := rfl
  rw [hout, judgeWatch_channels, hookNotice_eq, unplanned_eq, handAll_now, hcond, hu]
  refine Eq.trans ?_ (handAll_channels_congr (s := u) (t := s) rfl _)
  unfold releaseNotices
  split <;> rfl

theorem makeAgain_channels : (makeAgain p s).channels = s.channels := by simp [makeAgain]

theorem lifelineCond_completeDigit : lifelineCond (completeDigit p s) p = lifelineCond s p := by
  have h := congrFun (congrArg Ground.records (completeDigit_ground (r := s) (s := s) p)) p
  exact lifelineCond_congr (congrArg PortRecord.mode h) (congrArg PortRecord.switch h)

theorem flash_channels : (recordEntry p .flash 0 (if 0 < (s.port p).sup.pulses then
      (completeDigit p s).updSup p (fun u => { u with gapTimer := .stopped }) else s)).channels =
    (handAll (flashNotices p s) s).channels := by
  rw [recordEntry_channels]
  unfold flashNotices
  rw [handAll_append]
  by_cases hn : 0 < (s.port p).sup.pulses
  · have hcond : lifelineCond ((completeDigit p s).updSup p (fun u => { u with gapTimer := .stopped })) p =
        lifelineCond s p := (lifelineCond_congr (by simp) (by simp)).trans lifelineCond_completeDigit
    have hnow : ((completeDigit p s).updSup p (fun u => { u with gapTimer := .stopped })).now = s.now := by
      simp [State.now]
    have hdigit : digitOf s.now p .flash 0 (((completeDigit p s).updSup p
        (fun u => { u with gapTimer := .stopped })).port p) = digitOf s.now p .flash 0 (digitRecord p s) := by
      refine digitOf_congr ?_ ?_
      · simpa using completeDigit_record.1
      · simpa using completeDigit_record.2
    rw [if_pos hn, hcond, hnow, hdigit]
    exact handAll_channels_congr (s := (completeDigit p s).updSup p (fun u => { u with gapTimer := .stopped }))
      (t := handAll (digitNotices p s) s) completeDigit_channels _
  · have hzero : (s.port p).sup.pulses = 0 := by omega
    have hdone : digitNotices p s = [] ∧ digitRecord p s = s.port p := by simp [digitNotices, digitRecord, digitDone, hzero]
    rw [if_neg hn, hdone.1, hdone.2]
    rfl

theorem endBreak_channels : (endBreak p s).channels = (handAll (breakNotices p s) s).channels := by
  unfold endBreak breakNotices breakLength
  dsimp only
  by_cases hg : (s.now - (s.port p).sup.breakStart).toNat < (s.port p).sup.breakTiming.glitch * 1000
  · simp only [hg, if_true, true_or, makeAgain_channels]
    rfl
  by_cases hp : (s.now - (s.port p).sup.breakStart).toNat ≤ (s.port p).sup.breakTiming.pulseMax * 1000
  · simp only [hg, hp, if_true, if_false, or_true, makeAgain_channels]
    rfl
  by_cases hf : (s.now - (s.port p).sup.breakStart).toNat < (s.port p).sup.breakTiming.flashMax * 1000
  · simp only [hg, hp, hf, if_false, if_true, or_self, makeAgain_channels, flash_channels]
  · simp only [hg, hp, hf, if_false, or_self]
    exact releasePort_channels

/-! ### The supervisor takes its loop -/

/-- What the supervisor hands where it takes its loop as it stands: something at the end of a break alone (R106). -/
def loopNotices (p : Port) (s : State) : List Handing :=
  if listening s p = true ∧ (loopSource s p).isSome = true ∧ loopReading s p = true ∧ (s.port p).sup.loop = false ∧
    (s.port p).sup.state = .break_ then breakNotices p s else []

theorem loopTaken_sup (b : Bool) : ((loopTaken p b s).port p) = { s.port p with sup := { (s.port p).sup with loop := b } } := by
  unfold loopTaken
  dsimp only
  split <;> simp

theorem loopTaken_channels (b : Bool) : (loopTaken p b s).channels = s.channels := by
  unfold loopTaken
  dsimp only
  split <;> simp

/-- What a break's end hands does not depend on the loop field. -/
theorem breakNotices_congr {b : Bool} (hn : t.now = s.now)
    (hp : t.port p = { s.port p with sup := { (s.port p).sup with loop := b } }) : breakNotices p t = breakNotices p s := by
  have hl : lifelineCond t p = lifelineCond s p := lifelineCond_congr (by rw [hp]) (by rw [hp])
  have hdigit (x : PhonePort) : (digitDone s.now p { x with sup := { x.sup with loop := b } }).2 =
      (digitDone s.now p x).2 ∧ digitOf s.now p .flash 0 (digitDone s.now p { x with sup := { x.sup with loop := b } }).1 =
        digitOf s.now p .flash 0 (digitDone s.now p x).1 := by
    unfold digitDone
    by_cases hn : x.sup.pulses = 0
    · simp only [hn, if_true]
      exact ⟨trivial, digitOf_congr rfl rfl⟩
    by_cases hten : x.sup.pulses ≤ 10
    · simp only [hn, hten, if_true, if_false]
      exact ⟨congrArg (fun n => [n]) (digitOf_congr rfl rfl), digitOf_congr (by unfold recorded; split <;> rfl) (by unfold recorded; split <;> rfl)⟩
    · simp only [hn, hten, if_false]
      exact ⟨rfl, digitOf_congr rfl rfl⟩
  unfold breakNotices breakLength flashNotices releaseNotices digitNotices digitRecord
  rw [hl, hn, hp]
  by_cases hc : lifelineCond s p = true
  · simp only [hc, if_true]
  · simp only [hc, if_false, Bool.false_eq_true, (hdigit _).1, (hdigit _).2]

theorem loopTaken_now (b : Bool) : (loopTaken p b s).now = s.now := by
  unfold loopTaken
  dsimp only
  split <;> simp [State.now]

theorem senseLoop_channels : (senseLoop p s).channels = (handAll (loopNotices p s) s).channels := by
  have hjudged (b : Bool) : (loopJudged p b (loopTaken p b s)).channels =
      (handAll (if b = true ∧ (s.port p).sup.state = .break_ then breakNotices p s else []) s).channels := by
    unfold loopJudged
    rw [loopTaken_sup]
    dsimp only
    cases b <;> cases hs : (s.port p).sup.state
    case true.break_ =>
      simp only [and_self, if_true]
      rw [endBreak_channels, breakNotices_congr (loopTaken_now true) (loopTaken_sup true)]
      exact handAll_channels_congr (loopTaken_channels true) _
    all_goals simp [beginSeizing, beginBreak, loopTaken_channels, handAll]
  unfold senseLoop loopNotices
  by_cases h : (listening s p && (loopSource s p).isSome && decide (loopReading s p ≠ (s.port p).sup.loop)) = true
  · rw [if_pos h, takeLoop_eq, hjudged]
    simp only [Bool.and_eq_true, decide_eq_true_eq] at h
    obtain ⟨⟨hl, hs⟩, hr⟩ := h
    cases hb : loopReading s p <;> cases hloop : (s.port p).sup.loop <;> simp_all
  · rw [if_neg h]
    have hno : ¬(listening s p = true ∧ (loopSource s p).isSome = true ∧ loopReading s p = true ∧
        (s.port p).sup.loop = false ∧ (s.port p).sup.state = .break_) := fun ⟨hl, hs, hr, hp, _⟩ =>
      h (by simp [hl, hs, hr, hp])
    rw [if_neg hno]
    rfl

/-! ### The supervisor after it took its loop -/

/-- The loop as it stands ends a break. -/
def endsBreak (p : Port) (s : State) : Prop :=
  listening s p = true ∧ (loopSource s p).isSome = true ∧ loopReading s p = true ∧ (s.port p).sup.loop = false ∧
    (s.port p).sup.state = .break_

/-- A break is long enough for a flash or a release (R110). -/
def longBreak (p : Port) (s : State) : Prop :=
  (s.port p).sup.breakTiming.glitch * 1000 ≤ breakLength p s ∧ (s.port p).sup.breakTiming.pulseMax * 1000 < breakLength p s

/-- A long break is a release (R110). -/
def releasing (p : Port) (s : State) : Prop :=
  longBreak p s ∧ (s.port p).sup.breakTiming.flashMax * 1000 ≤ breakLength p s

theorem makeAgain_state : ((makeAgain p s).port p).sup.state = .offHook := by simp [makeAgain]

theorem beginSeizing_state : ((beginSeizing p s).port p).sup.state = .seizing := by simp [beginSeizing]

theorem endBreak_inCall : inCall ((endBreak p s).port p).sup.state = true ↔ ¬releasing p s := by
  unfold endBreak releasing longBreak breakLength
  dsimp only
  split
  · simp only [makeAgain_state, inCall, true_iff]
    omega
  split
  · simp only [makeAgain_state, inCall, true_iff]
    omega
  split
  · simp only [makeAgain_state, inCall, true_iff]
    omega
  · simp only [beginSeizing_state, inCall, Bool.false_eq_true, false_iff]
    omega

theorem releasing_loopTaken {b : Bool} : releasing p (loopTaken p b s) ↔ releasing p s := by
  unfold releasing longBreak breakLength
  rw [loopTaken_now, loopTaken_sup]

theorem senseLoop_frozen : ((senseLoop p s).port q).sup.frozen = (s.port q).sup.frozen :=
  (congrArg PortRecord.frozen (congrFun (congrArg Ground.records (senseLoop_ground (r := s) (s := s) p)) q) :)

/-- The supervisor is in a call after it took its loop where it was in one that no release ended (R109, R110). -/
theorem senseLoop_inCall : inCall (((senseLoop p s).port p).sup.frozen.getD ((senseLoop p s).port p).sup.state) = true ↔
    inCall ((s.port p).sup.frozen.getD (s.port p).sup.state) = true ∧ ¬(endsBreak p s ∧ releasing p s) := by
  rw [senseLoop_frozen]
  unfold senseLoop endsBreak
  by_cases h : (listening s p && (loopSource s p).isSome && decide (loopReading s p ≠ (s.port p).sup.loop)) = true
  · rw [if_pos h, takeLoop_eq]
    simp only [Bool.and_eq_true, decide_eq_true_eq] at h
    obtain ⟨⟨hl, hs⟩, hr⟩ := h
    have hf : (s.port p).sup.frozen = none := by
      simp only [listening, Bool.and_eq_true, Option.isNone_iff_eq_none] at hl
      exact hl.1.2
    have hloop : (s.port p).sup.loop = !loopReading s p := by
      cases hb : loopReading s p <;> cases hp : (s.port p).sup.loop <;> simp_all
    rw [hf, hloop, hl, hs]
    cases hb : loopReading s p <;> cases hstate : (s.port p).sup.state
    case true.break_ =>
      have hj : loopJudged p true (loopTaken p true s) = endBreak p (loopTaken p true s) := by
        unfold loopJudged
        rw [loopTaken_sup]
        simp only [hstate]
      rw [hj, Option.getD_none, endBreak_inCall, releasing_loopTaken]
      simp [inCall]
    all_goals simp [loopJudged, loopTaken_sup, hstate, inCall, beginBreak, beginSeizing]
  · rw [if_neg h]
    have hno : ¬((listening s p = true ∧ (loopSource s p).isSome = true ∧ loopReading s p = true ∧
        (s.port p).sup.loop = false ∧ (s.port p).sup.state = .break_) ∧ releasing p s) := fun ⟨⟨hl, hs, hr, hp, _⟩, _⟩ =>
      h (by simp [hl, hs, hr, hp])
    simp [hno]

/-! ### The notices of a sort -/

/-- Of what is handed, the notices of a sort are those of the list. -/
theorem handAll_handsTo {sort : Notice → Bool} (hs : lasting sort) (l : List Handing) :
    HandsTo sort (l.filter (fun x => sort x.1)) s.channels (handAll l s).channels := by
  induction l generalizing s with
  | nil => exact .refl
  | cons x rest ih =>
    obtain ⟨n, o⟩ := x
    have hone : HandsTo sort (if sort n = true then [(n, o)] else []) s.channels (handAll [(n, o)] s).channels := by
      split
      · next hn =>
        cases o with
        | none => exact postSubscribed_handsTo hs hn
        | some c => exact postCompletion_handsTo hs hn
      · next hn =>
        have hpost : Emits (fun m => m = n) s.channels (handAll [(n, o)] s).channels := by
          cases o with
          | none => exact postSubscribed_emits rfl .refl
          | some c => exact postCompletion_emits rfl .refl
        exact hpost.handsTo hs fun m hm => by simpa [hm] using hn
    have hall : HandsTo sort _ s.channels (handAll ((n, o) :: rest) s).channels :=
      hone.trans (ih (s := handAll [(n, o)] s))
    rw [List.filter_cons]
    split at hall <;> simpa [*] using hall

theorem byte_portNum : (byte (portNum q)).toNat = portNum p ↔ q = p := by cases p <;> cases q <;> decide

theorem hookNoteOf_reason {now d : Time} {off lifeline : Bool} {why : HookReason} :
    (hookNoteOf now q off lifeline why.code d).1.flags.toNat / 16 = why.code := hookFlags_reason off lifeline why

theorem hookOf_hookNote {now d : Time} {off lifeline : Bool} {why : HookReason} {n : Nat} :
    hookOf p n (hookNoteOf now q off lifeline why.code d).1 = decide (q = p ∧ why.code = n) := by
  rw [hookOf, hookNoteOf_reason]
  simp [hookNoteOf, byte_portNum]

/-- The DIGIT notices of a port. -/
def digitsOf (p : Port) (n : Notice) : Bool := ofKind .digit n && decide (n.subject.toNat = portNum p)

theorem digitsOf_entry {now : Time} {e : DialEntry} {n : Nat} {x : PhonePort} :
    digitsOf p (digitOf now p e n x).1 = true := by
  cases p <;> rfl

theorem digitNotices_of_digit : ∀ x ∈ digitNotices p s, digitsOf p x.1 = true := by
  unfold digitNotices digitDone
  dsimp only
  split_ifs
  · simp
  · simp
  · simp [digitsOf_entry]
  · cases p <;> simp [digitsOf, ofKind, dialErrorOf, portNum] <;> rfl

theorem not_hookOf_of_digitsOf {n : Notice} {k : Nat} (h : digitsOf p n = true) : hookOf q k n = false := by
  simp only [digitsOf, ofKind, Bool.and_eq_true, decide_eq_true_eq] at h
  simp [hookOf, h.1]

theorem flashNotices_of_digit : ∀ x ∈ flashNotices p s, digitsOf p x.1 = true := by
  intro x hx
  unfold flashNotices at hx
  rcases List.mem_append.mp hx with hx | hx
  · exact digitNotices_of_digit x hx
  · split at hx
    · simp at hx
    · rw [List.mem_singleton.mp hx]
      exact digitsOf_entry

/-! ### What a loop brings of a sort -/

theorem loopNotices_of_break (h : endsBreak p s) : loopNotices p s = breakNotices p s := if_pos h

theorem loopNotices_of_release (h : endsBreak p s) (hr : releasing p s) : loopNotices p s = releaseNotices p s := by
  obtain ⟨⟨hg, hp⟩, hf⟩ := hr
  rw [loopNotices_of_break h, breakNotices, if_neg (by omega), if_neg (by omega)]

theorem loopNotices_of_flash (h : endsBreak p s) (hl : longBreak p s) (hr : ¬releasing p s) :
    loopNotices p s = flashNotices p s := by
  have hf : breakLength p s < (s.port p).sup.breakTiming.flashMax * 1000 := Nat.lt_of_not_le fun hf => hr ⟨hl, hf⟩
  obtain ⟨hg, hp⟩ := hl
  rw [loopNotices_of_break h, breakNotices, if_neg (by omega), if_pos hf]

theorem loopNotices_of_short (h : ¬(endsBreak p s ∧ longBreak p s)) : loopNotices p s = [] := by
  unfold loopNotices
  split
  · next he =>
    have hl : ¬longBreak p s := fun hl => h ⟨he, hl⟩
    unfold longBreak at hl
    rw [breakNotices, if_pos (by omega)]
  · rfl

/-- A port's HOOK notice of reason LOOP is brought by a release (R110, R116). -/
theorem loopNotices_hook_of_release (h : endsBreak p s) (hr : releasing p s) :
    (loopNotices p s).filter (fun x => hookOf p 1 x.1) =
      [hookNoteOf s.now p false (lifelineCond s p) 1 (s.port p).sup.breakStart] := by
  have hhook : hookOf p 1 (hookNoteOf s.now p false (lifelineCond s p) 1 (s.port p).sup.breakStart).1 = true :=
    (hookOf_hookNote (why := .loop)).trans (by simp [HookReason.code])
  rw [loopNotices_of_release h hr, releaseNotices, List.filter_cons, if_pos hhook]
  split <;> simp [unplannedNoteOf, hookOf]

theorem loopNotices_hook_of_no_release (h : ¬(endsBreak p s ∧ releasing p s)) :
    (loopNotices p s).filter (fun x => hookOf p 1 x.1) = [] := by
  by_cases hl : endsBreak p s ∧ longBreak p s
  · rw [loopNotices_of_flash hl.1 hl.2 fun hr => h ⟨hl.1, hr⟩]
    exact List.filter_eq_nil_iff.mpr fun x hx => by simp [not_hookOf_of_digitsOf (flashNotices_of_digit x hx)]
  · rw [loopNotices_of_short hl]
    rfl

/-- A port's DIGIT notices are brought by a flash in the local condition (R110, R117). -/
theorem loopNotices_digit_of_flash (h : endsBreak p s) (hl : longBreak p s) (hr : ¬releasing p s)
    (hlocal : lifelineCond s p = false) : (loopNotices p s).filter (fun x => digitsOf p x.1) =
      (digitDone s.now p (s.port p)).2 ++ [digitOf s.now p .flash 0 (digitDone s.now p (s.port p)).1] := by
  rw [loopNotices_of_flash h hl hr, List.filter_eq_self.mpr flashNotices_of_digit, flashNotices, digitNotices, digitRecord]
  simp [hlocal]

theorem loopNotices_digit_of_no_flash
    (h : ¬((endsBreak p s ∧ longBreak p s ∧ ¬releasing p s) ∧ lifelineCond s p = false)) :
    (loopNotices p s).filter (fun x => digitsOf p x.1) = [] := by
  by_cases hl : endsBreak p s ∧ longBreak p s
  · by_cases hr : releasing p s
    · rw [loopNotices_of_release hl.1 hr, releaseNotices]
      split <;> simp [unplannedNoteOf, hookNoteOf, digitsOf, ofKind]
    · have hlife : lifelineCond s p = true := by
        by_contra hc
        exact h ⟨⟨hl.1, hl.2, hr⟩, by simpa using hc⟩
      rw [loopNotices_of_flash hl.1 hl.2 hr, flashNotices, digitNotices]
      simp [hlife]
  · rw [loopNotices_of_short hl]
    rfl

end

end Sys2Proof.Machine
end

