-- ==== Sys2Proof/Proofs/RelaysDropped.lean ====
section
namespace Sys2Proof.Machine

/-! ## The reserve fallback at the relays and the sessions (R46, R129, R180) -/

section
variable {p q : Port} {r s t u : State}

/-- The relay set at its unpowered defaults, every settle forgotten, the RELAY window handed (R46, R59). -/
def dropped (s : State) : State := handWindow .relay none none s.now (some 70)
  ((s.setRelays (defaultRelays s.relays.lineBreak)).setSettles [])

theorem fallbackRelays_dropped : fallbackRelays s = judgeWatch (senseLoop .p2 (senseLoop .p1 (dropped s))) := rfl

@[simp] theorem dropped_port : (dropped s).port q = s.port q := by simp [dropped]

@[simp] theorem dropped_parts : (dropped s).pins = s.pins ∧ (dropped s).clock = s.clock ∧ (dropped s).twoPorts = s.twoPorts ∧
    (dropped s).channels = s.channels ∧ (dropped s).relays = defaultRelays s.relays.lineBreak := by
  simp [dropped]

/-! ### What a port's loop depends on -/

/-- What a supervisor sees of the state where it takes its loop (R106, R109). -/
structure SameLoop (p : Port) (s t : State) : Prop where
  port : t.port p = s.port p
  pins : t.pins = s.pins
  relays : t.relays = s.relays
  clock : t.clock = s.clock
  fitted : t.twoPorts = s.twoPorts

theorem SameLoop.now (h : SameLoop p s t) : t.now = s.now := congrArg Clock.timebase h.clock

theorem SameLoop.endsBreak_iff (h : SameLoop p s t) : endsBreak p t ↔ endsBreak p s := by
  have hf : portFitted t p = portFitted s p := by cases p <;> simp [portFitted, h.fitted]
  have hs : loopSource t p = loopSource s p := by simp [loopSource, h.relays]
  simp only [endsBreak, listening, loopReading, hf, hs, h.port, h.pins, h.relays]

theorem SameLoop.longBreak_iff (h : SameLoop p s t) : longBreak p t ↔ longBreak p s := by
  simp only [longBreak, breakLength, h.port, h.now]

theorem SameLoop.releasing_iff (h : SameLoop p s t) : releasing p t ↔ releasing p s := by
  simp only [releasing, h.longBreak_iff, breakLength, h.port, h.now]

theorem SameLoop.loopNotices_eq (h : SameLoop p s t) : loopNotices p t = loopNotices p s := by
  have hb : breakNotices p t = breakNotices p s :=
    breakNotices_congr (b := (s.port p).sup.loop) h.now h.port
  by_cases he : endsBreak p s
  · rw [loopNotices_of_break he, loopNotices_of_break (h.endsBreak_iff.mpr he), hb]
  · rw [loopNotices_of_short fun hl => he hl.1, loopNotices_of_short fun hl => he (h.endsBreak_iff.mp hl.1)]

theorem sameLoop_senseLoop (h : p ≠ q) : SameLoop p s (senseLoop q s) where
  port := senseLoop_port_other h
  pins := by simp
  relays := by simp
  clock := by simp
  fitted := by simp

/-! ### The loops that follow the dropped relays (R106) -/

/-- A dropped relay set gives every loop to the pass-through (R106). -/
theorem endsBreak_dropped : endsBreak p (dropped s) ↔ portFitted s p = true ∧ (s.port p).sup.frozen = none ∧
    (s.port p).sup.masked = false ∧ (s.port p).sup.loop = false ∧ (s.port p).sup.state = .break_ ∧
    s.pins.loopPass.get p = true ∧ s.relays.lineBreak = .closed := by
  have hf : portFitted (dropped s) p = portFitted s p := by cases p <;> simp [portFitted]
  have hs : loopSource (dropped s) p = some .passThrough := by cases p <;> simp [loopSource, defaultRelays, PerPort.get]
  simp [endsBreak, listening, loopReading, hf, hs, defaultRelays]
  tauto

theorem releasing_dropped : releasing p (dropped s) ↔ releasing p s := by
  simp [releasing, longBreak, breakLength, State.now]

theorem longBreak_dropped : longBreak p (dropped s) ↔ longBreak p s := by
  simp [longBreak, breakLength, State.now]

theorem fallbackRelays_port : ∃ v, SameLoop p (dropped s) v ∧ (fallbackRelays s).port p = (senseLoop p v).port p := by
  rw [fallbackRelays_dropped]
  cases p with
  | p1 =>
    refine ⟨dropped s, ⟨rfl, rfl, rfl, rfl, rfl⟩, ?_⟩
    rw [judgeWatch_port, senseLoop_port_other (by decide)]
  | p2 => exact ⟨senseLoop .p1 (dropped s), sameLoop_senseLoop (by decide), by rw [judgeWatch_port]⟩

/-- A port's supervisor is in a call under the fallback where it was in one that no release ended. -/
theorem fallbackRelays_inCall :
    inCall (((fallbackRelays s).port p).sup.frozen.getD ((fallbackRelays s).port p).sup.state) = true ↔
      inCall ((s.port p).sup.frozen.getD (s.port p).sup.state) = true ∧ ¬(endsBreak p (dropped s) ∧ releasing p s) := by
  obtain ⟨v, hv, hport⟩ := fallbackRelays_port (p := p) (s := s)
  rw [hport, senseLoop_inCall, hv.endsBreak_iff, hv.releasing_iff, hv.port, releasing_dropped, dropped_port]

theorem fallbackRelays_record : portRecord ((fallbackRelays s).port q) = portRecord (s.port q) := by
  have h : ground s (fallbackRelays s) = ground s ((s.setRelays (defaultRelays s.relays.lineBreak)).setSettles []) := by
    simp [fallbackRelays]
  exact congrFun (congrArg Ground.records h) q

/-! ### Notices of other sorts -/

section
variable {P : Notice → Prop} {a : PerChan ChannelRec}

theorem handAll_emits {l : List Handing} (hl : ∀ x ∈ l, P x.1) (h : Emits P a s.channels) :
    Emits P a (handAll l s).channels := by
  induction l generalizing s with
  | nil => exact h
  | cons x rest ih =>
    obtain ⟨n, o⟩ := x
    refine ih (fun y hy => hl y (List.mem_cons_of_mem _ hy)) ?_
    have hn : P n := hl (n, o) List.mem_cons_self
    cases o with
    | none => exact postSubscribed_emits hn h
    | some c => exact postCompletion_emits hn h

theorem fallbackRelays_emits (hloop : ∀ p n, LoopNotice p n → P n) (h : Emits P a s.channels) :
    Emits P a (fallbackRelays s).channels := by
  rw [fallbackRelays_dropped, judgeWatch_channels]
  refine senseLoop_emits (hloop _) (senseLoop_emits (hloop _) ?_)
  simpa using h

theorem detachedDone_emits (hdone : ∀ n, n.kind = .disturbDone → P n) (h : Emits P a s.channels) :
    Emits P a (detachedDone s).channels := by
  unfold detachedDone
  split
  · refine endSlot_emits hdone ?_ _
    rw [State.updEngine_channels]
    split
    · simpa using h
    · exact h
  · exact h

theorem endAllSessions_emits (hloop : ∀ p, inBurst s p = true → ∀ n, LoopNotice p n → P n)
    (hdone : ∀ n, n.kind = .disturbDone → P n) (hring : ∀ n, n.kind = .ringEnd → P n) (why : RingReason)
    (h : Emits P a s.channels) : Emits P a (endAllSessions why s).channels := by
  have hb : inBurst (endSession .p1 why 0 s) .p2 = inBurst s .p2 := by
    simp [inBurst, endSession_session]
  exact endSession_emits (endSession_emits h (hloop .p1) hdone (fun n hn _ => hring n hn) _ _)
    (fun h2 => hloop .p2 (hb ▸ h2)) hdone (fun n hn _ => hring n hn) _ _

end

/-! ### The sessions (R129) -/

theorem unmask_record : (portRecord ((unmask p s).port q)).atRest = (portRecord (s.port q)).atRest := by
  have hsup (f : Supervisor → Supervisor) : (portRecord ((s.updSup p f).port q)).atRest = (portRecord (s.port q)).atRest := by
    by_cases hq : q = p
    · subst hq
      simp [portRecord, PortRecord.atRest]
    · simp [hq]
  unfold unmask
  split
  · split
    · exact hsup _
    · refine Eq.trans ?_ (hsup (fun u => { resumeTimers s.now u with masked := false }))
      exact congrArg PortRecord.atRest (congrFun (congrArg Ground.records (senseLoop_ground (r := s) p)) q)
  · rfl

theorem endBurst_record {x : RingState} :
    (portRecord ((endBurst p x s).port q)).atRest = (portRecord (s.port q)).atRest := by
  rw [endBurst, judgeRingFault_port, unmask_record]
  simp

theorem endSession_port_of_quiet {why : RingReason} {n : Nat} (h : q = p → inBurst s p = false) :
    (endSession p why n s).port q = s.port q := by
  unfold endSession
  split
  · rfl
  · rw [setSession_port, postCompletion_port, endSlot_port, updSession_port]
    split
    · next hb => exact endBurst_port_other (fun hq => by simp [h hq] at hb) _
    · rfl

theorem endSession_record {why : RingReason} {n : Nat} :
    (portRecord ((endSession p why n s).port q)).atRest = (portRecord (s.port q)).atRest := by
  unfold endSession
  split
  · rfl
  · rw [setSession_port, postCompletion_port, endSlot_port, updSession_port]
    split
    · exact endBurst_record
    · rfl

theorem endAllSessions_port_of_quiet {why : RingReason} (h : inBurst s q = false) :
    (endAllSessions why s).port q = s.port q := by
  have hb : inBurst (endSession .p1 why 0 s) .p2 = inBurst s .p2 := by simp [inBurst, endSession_session]
  rw [endAllSessions, endSession_port_of_quiet fun hq => by rw [hb, ← hq, h],
    endSession_port_of_quiet fun hq => by rw [← hq, h]]

theorem endAllSessions_record {why : RingReason} :
    (portRecord ((endAllSessions why s).port q)).atRest = (portRecord (s.port q)).atRest := by
  rw [endAllSessions, endSession_record, endSession_record]

theorem endAllSessions_session {why : RingReason} : session (endAllSessions why s) q = none := by
  rw [endAllSessions, endSession_session, endSession_session]
  cases q <;> simp

/-- RING_END is handed for every session that stands, port 1's first (R129). -/
theorem endAllSessions_handsTo : HandsTo (ofKind .ringEnd) (sessionsEnd 6 s) s.channels
    (endAllSessions .power s).channels := by
  have hone (p : Port) (u : State) : HandsTo (ofKind .ringEnd)
      ((session u p).toList.map (fun x => ringEndOf u.now p x 6 0)) u.channels (endSession p .power 0 u).channels := by
    cases hx : session u p with
    | none =>
      rw [endSession, hx]
      exact .refl
    | some x =>
      rw [endSession_eq hx, setSession_channels]
      refine HandsTo.nil_trans (b := (sessionQuiet p u).channels) ?_ ?_
      · exact ((sessionQuiet_queued (s := u) (p := p) le_rfl).emits).handsTo (lasting_ofKind rfl) fun n hn => by
          by_contra hk
          simp [ofKind] at hk
          rw [hk] at hn
          cases hn
      · exact postCompletion_handsTo (lasting_ofKind rfl) rfl
  have hnow : (endSession .p1 .power 0 s).now = s.now := by simp [State.now]
  have h2 := hone .p2 (endSession .p1 .power 0 s)
  rw [endSession_session, if_neg (by decide), hnow] at h2
  exact (hone .p1 s).trans h2

end

end Sys2Proof.Machine
end

