-- ==== Sys2Proof/Proofs/PortsFallBack.lean ====
section
namespace Sys2Proof.Machine

/-! ## The reserve fallback at the ports (R98, R103) -/

section
variable {p q : Port} {w : ModeSwitch} {r s t : State}

/-- A port after a switch that the fallback ends (R98). -/
theorem endSwitch_power_port : (endSwitch p .lifeline .power s).port q = if q = p ∧ (s.port p).switch.isSome = true then
    { s.port q with mode := .lifeline, switch := none, suspended := false } else s.port q := by
  cases hw : (s.port p).switch with
  | none => simp [endSwitch, hw]
  | some w =>
    have hout : switchRestarted p w .lifeline .power s = switchOver p w .lifeline .power s := by simp [switchRestarted]
    rw [endSwitch_eq hw, hout, postCompletion_port, switchOver]
    by_cases hq : q = p
    · subst hq
      split <;> simp [standingIn, suspendedAfter, PlainMode.mode]
    · split <;> simp [standingIn, hq]

/-- MODE_DONE, POWER, of the port's switch (R98). -/
theorem endSwitch_power_handsTo {sort : Notice → Bool} (hs : lasting sort)
    (hsort : ∀ n, sort n = true ↔ n.kind = .modeDone ∧ n.subject.toNat = portNum p) :
    HandsTo sort ((s.port p).switch.toList.map (fun w => switchDoneOf s.now p w 2 .lifeline false))
      s.channels (endSwitch p .lifeline .power s).channels := by
  cases hw : (s.port p).switch with
  | none => simpa [endSwitch, hw] using HandsTo.refl
  | some w =>
    let v := switchOver p w .lifeline .power s
    have hout : switchRestarted p w .lifeline .power s = v := by simp [switchRestarted, v]
    have hv : HandsTo sort [] s.channels v.channels := by
      have hemits : Emits (fun n => n.kind = .disturbDone) s.channels v.channels := by
        simp only [v, switchOver]
        split
        · exact endSlot_emits (s := standingIn p .lifeline .power s) (fun n hn => hn) .refl _
        · exact .refl
      refine hemits.handsTo hs fun n hn => ?_
      by_contra hk
      have := ((hsort n).mp (by simpa using hk)).1
      simp [hn] at this
    have hnow : v.now = s.now := by
      simp only [v, switchOver]
      split <;> simp [State.now, standingIn]
    have hsusp : (v.port p).suspended = false := by
      simp only [v, switchOver]
      split <;> simp [standingIn, suspendedAfter]
    have hdone := modeDone_eq (p := p) (o := .power) (m := .lifeline) (w := w) (susp := false) (now := s.now)
    rw [endSwitch_eq hw, hout, hsusp, hnow]
    refine hv.nil_trans ?_
    have hpost := postCompletion_handsTo (s := v) (n := modeDone p .power .lifeline w false s.now) (c := w.requester) hs
      ((hsort _).mpr ⟨rfl, byte_portNum.mpr rfl⟩)
    rwa [hdone] at hpost

/-- The port under the fallback, before its supervisor is restarted (R103). -/
def fallen (p : Port) (s : State) : State :=
  (endDenial p (endSwitch p .lifeline .power s)).updPort p (fun q => { q with mode := .lifeline, suspended := false })

theorem fallbackPort_eq : fallbackPort p s =
    if (s.port p).mode = .lifeline then fallen p s else restart p (some .power) (fallen p s) := rfl

theorem fallen_port : (fallen p s).port p = { s.port p with
    mode := .lifeline, switch := none, denial := none, overload := none, suspended := false } := by
  have hport := endSwitch_power_port (p := p) (q := p) (s := s)
  simp only [fallen, endDenial, State.updPort_port_same, hport]
  cases hw : (s.port p).switch <;> simp [hw]

theorem fallen_port_other (h : q ≠ p) : (fallen p s).port q = s.port q := by
  simp [fallen, endDenial, h, endSwitch_power_port]

theorem fallen_channels : (fallen p s).channels = (endSwitch p .lifeline .power s).channels := rfl

theorem fallbackPort_port_other (h : q ≠ p) : (fallbackPort p s).port q = s.port q := by
  rw [fallbackPort_eq]
  split
  · exact fallen_port_other h
  · rw [restart_port_other h, fallen_port_other h]

/-- The HOOK notice that the fallback hands of a port (R103). -/
def fallbackHook (p : Port) (s : State) : List Handing :=
  if (s.port p).mode ≠ .lifeline ∧ inCall ((s.port p).sup.frozen.getD (s.port p).sup.state) = true then
    [hookNoteOf s.now p false true 5 0] else []

theorem fallbackPort_channels : (fallbackPort p s).channels =
    (handAll (fallbackHook p s) (endSwitch p .lifeline .power s)).channels := by
  have hcond : lifelineCond (fallen p s) p = true := by
    rw [lifelineCond, restingPass, fallen_port]
    rfl
  have hnow : (fallen p s).now = s.now := by simp [fallen, State.now]
  rw [fallbackPort_eq, fallbackHook]
  by_cases hm : (s.port p).mode = .lifeline
  · simp [hm, fallen_channels, handAll]
  · rw [if_neg hm, restart_channels, restartHook]
    rw [hcond, hnow, fallen_port]
    simp only [hm, ne_eq, not_false_eq_true, true_and]
    exact handAll_channels_congr fallen_channels _

section
variable {P : Notice → Prop} {a : PerChan ChannelRec}

theorem endSwitch_power_emits (hdone : ∀ n, n.kind = .disturbDone → P n)
    (hmode : ∀ n, n.kind = .modeDone → n.subject = byte (portNum p) → P n) (h : Emits P a s.channels) :
    Emits P a (endSwitch p .lifeline .power s).channels := by
  cases hw : (s.port p).switch with
  | none => simpa [endSwitch, hw] using h
  | some w =>
    have hout : switchRestarted p w .lifeline .power s = switchOver p w .lifeline .power s := by simp [switchRestarted]
    rw [endSwitch_eq hw, hout]
    refine postCompletion_emits (hmode _ rfl rfl) ?_
    rw [switchOver]
    split
    · exact endSlot_emits (s := standingIn p .lifeline .power s) hdone h _
    · exact h

theorem fallbackPort_emits (hdone : ∀ n, n.kind = .disturbDone → P n)
    (hmode : ∀ n, n.kind = .modeDone → n.subject = byte (portNum p) → P n)
    (hhook : ∀ n, hookOf p 5 n = true → P n) (h : Emits P a s.channels) : Emits P a (fallbackPort p s).channels := by
  rw [fallbackPort_channels]
  refine handAll_emits (fun x hx => hhook _ ?_) (endSwitch_power_emits hdone hmode h)
  unfold fallbackHook at hx
  split at hx
  · rw [List.mem_singleton.mp hx]
    exact (hookOf_hookNote (why := .power)).trans (by simp [HookReason.code])
  · cases hx

end

/-! ### The port that has fallen back -/

theorem senseLoop_overload_of_onHook (h : (s.port p).sup.state = .onHook) : ((senseLoop p s).port p).overload = (s.port p).overload := by
  unfold senseLoop
  split
  · rw [takeLoop_eq]
    unfold loopJudged
    rw [loopTaken_sup]
    dsimp only
    rw [h]
    cases loopReading s p <;> simp [loopTaken_sup, beginSeizing]
  · rfl

/-- What stands of a port record once the fallback has ended its work (R103). -/
structure Fallen (q : PhonePort) : Prop where
  mode : q.mode = .lifeline
  switch : q.switch = none
  denial : q.denial = none
  overload : q.overload = none

theorem restart_fallen {why : Option HookReason} (h : Fallen (s.port q)) : Fallen ((restart p why s).port q) := by
  by_cases hq : q = p
  · subst hq
    have hrecord : portRecord ((restart q why s).port q) = portRecord ((restartQuiet q s).port q) := restart_record
    refine ⟨?_, ?_, ?_, ?_⟩
    · exact (congrArg PortRecord.mode hrecord).trans (by simpa [restartQuiet, portRecord] using h.mode)
    · exact (congrArg PortRecord.switch hrecord).trans (by simpa [restartQuiet, portRecord] using h.switch)
    · exact (congrArg PortRecord.denial hrecord).trans (by simpa [restartQuiet, portRecord] using h.denial)
    · rw [restart_eq, senseLoop_overload_of_onHook rested_state, rested_port]
      simpa [restartQuiet] using h.overload
  · rwa [restart_port_other hq]

theorem fallbackPort_fallen : Fallen ((fallbackPort p s).port p) := by
  have h : Fallen ((fallen p s).port p) := by
    rw [fallen_port]
    exact ⟨rfl, rfl, rfl, rfl⟩
  rw [fallbackPort_eq]
  split
  · exact h
  · exact restart_fallen h

/-- A supervisor that the fallback restarts takes the exchange loop, as far as it stands (R103, R106). -/
theorem fallbackPort_supervisor (hm : (s.port p).mode ≠ .lifeline) (hr : s.relays.pass.get p = .closed ∧
    s.relays.feed.get p = .off) : ((fallbackPort p s).port p).sup.frozen = none ∧
    ((fallbackPort p s).port p).sup.state = if portFitted s p = true ∧ s.pins.loopPass.get p = true ∧
      s.relays.lineBreak = .closed then .seizing else .onHook := by
  rw [fallbackPort_eq, if_neg hm]
  refine ⟨restart_frozen, ?_⟩
  let v := rested p (some .power) (fallen p s)
  have hv : v.port p = (restartQuiet p (fallen p s)).port p := rested_port
  have hstate : (v.port p).sup.state = .onHook := rested_state
  have hall (l : List Handing) (u : State) : (handAll l u).relays = u.relays ∧ (handAll l u).pins = u.pins ∧
      (handAll l u).twoPorts = u.twoPorts := by
    rw [handAll_eq]
    exact ⟨rfl, rfl, rfl⟩
  have hrelays : v.relays = s.relays := by
    simp [v, rested, hall, restartQuiet, fallen, endDenial]
  have hpins : v.pins = s.pins := by simp [v, rested, hall, restartQuiet, fallen, endDenial]
  have hfit : portFitted v p = portFitted s p := by
    have : v.twoPorts = s.twoPorts := by simp [v, rested, hall, restartQuiet, fallen, endDenial]
    cases p <;> simp [portFitted, this]
  have hsource : loopSource v p = some .passThrough := by simp [loopSource, hrelays, hr]
  have hreading : loopReading v p = (s.pins.loopPass.get p && decide (s.relays.lineBreak = .closed)) := by
    simp [loopReading, hsource, hpins, hrelays]
  have hlisten : listening v p = portFitted s p := by
    simp [listening, hfit, hv, restartQuiet]
  have hloop : (v.port p).sup.loop = false := by simp [hv, restartQuiet]
  rw [restart_eq]
  change ((senseLoop p v).port p).sup.state = _
  unfold senseLoop
  rw [hlisten, hsource, hreading, hloop]
  by_cases hfitted : portFitted s p = true
  · by_cases hin : s.pins.loopPass.get p = true ∧ s.relays.lineBreak = .closed
    · simp [hfitted, hin, takeLoop_eq, loopJudged, loopTaken_sup, hstate, beginSeizing]
    · rw [if_neg (by simpa [hfitted] using hin), if_neg (by simpa [hfitted] using hin)]
      exact hstate
  · simp [hfitted, hstate]

end

end Sys2Proof.Machine
end

