-- ==== Sys2Proof/Proofs/PowerAborts.lean ====
section
namespace Sys2Proof.Machine

/-! ## The test that a loss of power aborts (R145, R148) -/

section
variable {p q : Port} {x : Test} {r s t : State}

/-- The result record of a test's end, TEST_FAIL and TEST_DONE (R145). -/
def doneTold (x : Test) (s : State) : State :=
  let s := s.updEngine (fun e => { e with result := some (resultOf x s.now) })
  let s := if outcomeOf x = .fail then raiseTestFail x s else s
  postCompletion (testDone x s.now) x.requester s

/-- A gate's grant ends with the test that it was made for (R38). -/
def gateLeft (x : Test) (s : State) : State :=
  match x.viaGate with
  | some g => if x.granted then gatedRelease (targetFunc x.target) x.requester g s else s
  | none => s

/-- The port of a home test is told of the end. -/
def homeTold (x : Test) (s : State) : State :=
  match targetPort x.target with
  | some p => homeTestEnded p s
  | none => s

/-- No test is in flight. -/
def testGone (s : State) : State := s.updEngine (fun e => { e with test := none, wallDue := none, cleanDue := none })

theorem endTest_eq (hx : s.engine.test = some x) : endTest s = testGone (homeTold x (gateLeft x (doneTold x s))) := by
  unfold endTest
  rw [hx]
  rfl

/-! ### The steps of an end -/

theorem doneTold_parts : (doneTold x s).ports = s.ports ∧ (doneTold x s).ring = s.ring ∧
    (doneTold x s).engine.detached = s.engine.detached ∧ (doneTold x s).clock = s.clock := by
  unfold doneTold
  dsimp only
  split <;> simp

theorem doneTold_faults (h : x.abort.isSome = true) : (doneTold x s).faults = s.faults := by
  simp [doneTold, outcomeOf_of_abort h]

theorem session_of_ring (h : t.ring = s.ring) (p : Port) : session t p = session s p := by rw [session, h, session]

theorem ringLosesHold_of_none {f : Func} {c : Channel} (h : ∀ p, session s p = none) : ringLosesHold f c s = s := by
  unfold ringLosesHold
  split
  · next p _ => simp [h p]
  · rfl

/-- With no session in flight a gate's grant that ends touches the claim queue alone (R38). -/
theorem gateLeft_eq (h : ∀ p, session s p = none) : gateLeft x s = { s with
    channels := (gateLeft x s).channels, lines := (gateLeft x s).lines } := by
  have hgrant (f : Func) (u : State) : grantNext f u = { u with
      channels := (grantNext f u).channels, lines := (grantNext f u).lines } := by
    unfold grantNext
    split
    · rw [grantedNotice, postCompletion, post_eq]
      rfl
    · rfl
  have hgate (f : Func) (c : Channel) (g : Nat) : gatedRelease f c g s = { s with
      channels := (gatedRelease f c g s).channels, lines := (gatedRelease f c g s).lines } := by
    unfold gatedRelease
    split
    · split
      · rw [ringLosesHold_of_none (s := removeHold f s) h]
        exact hgrant f (removeHold f s)
      · rfl
    · rfl
  unfold gateLeft
  split
  · split
    · exact hgate _ _ _
    · rfl
  · rfl

theorem homeTestEnded_fallen (h : Fallen (s.port q)) : Fallen ((homeTestEnded p s).port q) := by
  have hu : Fallen ((s.updPort p (fun q => { q with underTest := false })).port q) := by
    by_cases hq : q = p
    · subst hq
      rw [State.updPort_port_same]
      exact ⟨h.mode, h.switch, h.denial, h.overload⟩
    · rwa [State.updPort_port_other _ _ _ _ hq]
  unfold homeTestEnded
  dsimp only
  split
  · exact restart_fallen hu
  · exact hu

/-- A supervisor that is not frozen is left as it stands. -/
theorem homeTestEnded_supervisor (h : (s.port q).sup.frozen = none) :
    ((homeTestEnded p s).port q).sup = (s.port q).sup := by
  unfold homeTestEnded
  dsimp only
  by_cases hq : q = p
  · subst hq
    simp [h]
  · split
    · rw [restart_port_other hq, State.updPort_port_other _ _ _ _ hq]
    · rw [State.updPort_port_other _ _ _ _ hq]

/-- The restart that a home test's end brings hands nothing. -/
theorem homeTestEnded_channels : (homeTestEnded p s).channels = s.channels := by
  unfold homeTestEnded
  dsimp only
  split
  · rw [restart_channels]
    rfl
  · rfl

theorem unread_detached (e : Engine) : (unread e).detached = e.detached := by
  unfold unread
  (repeat' split) <;> rfl

theorem detached_of_unread (h : unread t.engine = unread s.engine) : t.engine.detached = s.engine.detached := by
  rw [← unread_detached, h, unread_detached]

theorem homeTestEnded_unread : unread (homeTestEnded p s).engine = unread s.engine := by
  unfold homeTestEnded
  dsimp only
  split
  · exact congrArg Ground.engine (restart_ground (r := s) p none)
  · rfl

/-! ### The whole end -/

/-- A test has ended where no session was in flight. -/
structure TestOver (s t : State) : Prop where
  test : t.engine.test = none
  detached : t.engine.detached = s.engine.detached
  ring : t.ring = s.ring
  fallen : ∀ q, Fallen (s.port q) → Fallen (t.port q)
  supervisor : ∀ q, (s.port q).sup.frozen = none → (t.port q).sup = (s.port q).sup

theorem TestOver.after (h : TestOver s t) (hd : s.engine.detached = r.engine.detached) (hr : s.ring = r.ring)
    (hp : s.ports = r.ports) : TestOver r t := by
  have hport (q : Port) : s.port q = r.port q := by simp [State.port, hp]
  exact ⟨h.test, h.detached.trans hd, h.ring.trans hr, fun q hq => h.fallen q (hport q ▸ hq),
    fun q hq => by rw [← hport]; exact h.supervisor q (by rw [hport]; exact hq)⟩

theorem endTest_over (hx : s.engine.test = some x) (h : ∀ p, session s p = none) : TestOver s (endTest s) := by
  obtain ⟨hports, hring, hdet, -⟩ := doneTold_parts (x := x) (s := s)
  have hsession (p : Port) : session (doneTold x s) p = none := by simpa [session, hring] using h p
  have hgate := gateLeft_eq (x := x) hsession
  have htold : TestOver (gateLeft x (doneTold x s)) (testGone (homeTold x (gateLeft x (doneTold x s)))) := by
    unfold homeTold
    split
    · next p _ =>
      have hdetached := detached_of_unread (homeTestEnded_unread (p := p) (s := gateLeft x (doneTold x s)))
      exact ⟨rfl, hdetached, by simp [testGone],
        fun q hq => homeTestEnded_fallen hq, fun q hq => homeTestEnded_supervisor hq⟩
    · exact ⟨rfl, rfl, rfl, fun _ hq => hq, fun _ _ => rfl⟩
  rw [endTest_eq hx]
  refine htold.after ?_ ?_ ?_
  · rw [hgate]
    exact hdet
  · rw [hgate]
    exact hring
  · rw [hgate]
    exact hports

section
variable {P : Notice → Prop} {a : PerChan ChannelRec}

theorem raiseFault_emits (hfault : ∀ n, n.kind = .fault → P n) (f : Raised) (h : Emits P a s.channels) :
    Emits P a (raiseFault f s).channels := by
  rw [raiseFault_channels]
  unfold postRaised
  split
  · next n receives hn => exact post_emits (hfault _ (raisedNotice_kind hn)) h
  · exact h

theorem endTest_emits (hx : s.engine.test = some x) (hs : ∀ p, session s p = none)
    (hfail : outcomeOf x = .fail → ∀ n, n.kind = .fault → P n) (hdone : ∀ n, n.kind = .testDone → P n)
    (hgrant : ∀ n, n.kind = .claimGranted → P n) (h : Emits P a s.channels) : Emits P a (endTest s).channels := by
  have hdoneTold : Emits P a (doneTold x s).channels := by
    unfold doneTold
    refine postCompletion_emits (hdone _ rfl) ?_
    split
    · next ho =>
      unfold raiseTestFail
      split
      · exact raiseFault_emits (hfail ho) _ h
      · exact h
    · exact h
  have hnone (f : Func) (p : Port) : session (removeHold f (doneTold x s)) p = none :=
    (session_of_ring doneTold_parts.2.1 p).trans (hs p)
  have hgate : Emits P a (gateLeft x (doneTold x s)).channels := by
    unfold gateLeft gatedRelease
    (repeat' split)
    · rw [ringLosesHold_of_none (hnone _)]
      exact grantNext_emits (s := removeHold _ (doneTold x s)) hdoneTold _ hgrant
    all_goals exact hdoneTold
  rw [endTest_eq hx, testGone, State.updEngine_channels, homeTold]
  split
  · rw [homeTestEnded_channels]
    exact hgate
  · exact hgate

end

/-! ### The abort (R148) -/

/-- What the loss of power makes of a test before its end: a test in NOTIFY has its record cancelled, one past it has
its window closed, its clean time fixed and its record ended (R147, R148). -/
def testStopped (x : Test) (s : State) : State :=
  if x.phase = .notify then (cancelSlot (targetSlot x.target) s).getD s
  else endSlot (targetSlot x.target) (closeWindow .test s.now (fixClean s))

theorem actOnAbort_power : actOnAbort .powerAbort x s = endTest (testStopped x s) := by
  unfold actOnAbort testStopped
  split
  · rfl
  · simp [abortByPower]

theorem fixClean_detached : (fixClean s).engine.detached = s.engine.detached := rfl

/-- A test stands through what it has stopped, but for its readings. -/
theorem testStopped_test (hx : s.engine.test = some x) : ∃ y, (testStopped x s).engine.test = some y ∧ y.abort = x.abort := by
  have hfix : ∃ y, (fixClean s).engine.test = some y ∧ y.abort = x.abort := by
    refine ⟨_, by simp only [fixClean, updTest, stopTestTimers, State.updEngine_engine, hx]; rfl, ?_⟩
    dsimp only
    split <;> rfl
  unfold testStopped
  split
  · exact ⟨x, (cancelled_frame _).1.trans hx, rfl⟩
  · obtain ⟨y, hy, hyx⟩ := hfix
    have h := congrArg Ground.engine (closeWindow_ground (r := s) (s := fixClean s) .test s.now)
    have htest : (closeWindow .test s.now (fixClean s)).engine.test.map forgetReadings = some (forgetReadings y) := by
      rw [← unread_test]
      refine (congrArg Engine.test h).trans ?_
      rw [ground, unread_test, hy]
      rfl
    obtain ⟨z, hz, hzy⟩ := Option.map_eq_some_iff.mp htest
    have habort (v : Test) : (forgetReadings v).abort = v.abort := by
      unfold forgetReadings
      split <;> rfl
    exact ⟨z, by simpa using hz, by rw [← hyx, ← habort z, hzy, habort]⟩

theorem testStopped_parts : (testStopped x s).ports = s.ports ∧ (testStopped x s).ring = s.ring ∧
    (testStopped x s).engine.detached = s.engine.detached ∧ (testStopped x s).clock = s.clock ∧
    (testStopped x s).faults = s.faults := by
  unfold testStopped
  split
  · cases hc : cancelSlot (targetSlot x.target) s with
    | none => exact ⟨rfl, rfl, rfl, rfl, rfl⟩
    | some t => simp [cancelSlot_frame hc]
  · have h := congrArg Ground.engine (closeWindow_ground (r := s) (s := fixClean s) .test s.now)
    exact ⟨by simp, by simp, by simpa using (detached_of_unread h).trans fixClean_detached, by simp, by simp⟩

theorem testStopped_emits {P : Notice → Prop} {a : PerChan ChannelRec} (hdone : ∀ n, n.kind = .disturbDone → P n)
    (h : Emits P a s.channels) : Emits P a (testStopped x s).channels := by
  unfold testStopped
  split
  · exact cancelled_emits hdone h _
  · exact endSlot_emits hdone (by simpa using h) _

/-- A test has ended where the test and the ring unit stood so. -/
theorem testStopped_over (hx : s.engine.test = some x) (h : ∀ p, session s p = none) :
    TestOver s (endTest (testStopped x s)) := by
  obtain ⟨y, hy, -⟩ := testStopped_test hx
  obtain ⟨hports, hring, hdet, -, -⟩ := testStopped_parts (x := x) (s := s)
  exact (endTest_over hy fun p => by simpa [session, hring] using h p).after hdet hring hports

theorem abortTest_power_of_flight (hx : s.engine.test = some x) (hp : x.phase ≠ .release) :
    abortTest .powerAbort s = endTest (testStopped (withAbort .powerAbort x) (abortRaised .powerAbort x s)) := by
  rw [← actOnAbort_power]
  unfold abortTest
  simp only [hx, if_neg hp]
  rfl

theorem abortTest_power_of_release (hx : s.engine.test = some x) (hp : x.phase = .release) :
    abortTest .powerAbort s = endTest (testStopped x s) := by
  rw [← actOnAbort_power]
  unfold abortTest
  simp only [hx, if_pos hp]

theorem abortTest_power_of_none (hx : s.engine.test = none) : abortTest .powerAbort s = s := by
  rw [abortTest, hx]

theorem abortTest_power_over (h : ∀ p, session s p = none) : TestOver s (abortTest .powerAbort s) := by
  cases hx : s.engine.test with
  | none =>
    rw [abortTest_power_of_none hx]
    exact ⟨hx, rfl, rfl, fun _ h => h, fun _ _ => rfl⟩
  | some x =>
    by_cases hp : x.phase = .release
    · rw [abortTest_power_of_release hx hp]
      exact testStopped_over hx h
    · rw [abortTest_power_of_flight hx hp]
      have hover := testStopped_over (x := withAbort .powerAbort x) (s := abortRaised .powerAbort x s) abortRaised_test
        (by simpa [session] using h)
      exact hover.after (by simp [abortRaised]) (by simp) (by simp [abortRaised])

/-- Beside TEST_ABORTED an abort by the loss of power raises nothing (R146, R148). -/
theorem abortTest_power_faulted (hx : s.engine.test = some x) (hp : x.phase ≠ .release) (h : ∀ p, session s p = none) :
    Faulted [abortFault .powerAbort x s] s (abortTest .powerAbort s) := by
  let u := abortRaised .powerAbort x s
  let v := testStopped (withAbort .powerAbort x) u
  obtain ⟨-, hring, -, hclock, hfaults⟩ := testStopped_parts (x := withAbort .powerAbort x) (s := u)
  obtain ⟨y, hy, hya⟩ := testStopped_test (x := withAbort .powerAbort x) (s := u) abortRaised_test
  have hyabort : y.abort.isSome = true := by rw [hya]; rfl
  have hsession (p : Port) : session v p = none := by
    have := h p
    simpa [session, v, hring, u] using this
  have hemits : Emits (fun n => n.kind ≠ .fault) u.channels (endTest v).channels :=
    endTest_emits hy hsession (fun ho => by simp [outcomeOf_of_abort hyabort] at ho) (fun n hn => by simp [hn])
      (fun n hn => by simp [hn]) (testStopped_emits (fun n hn => by simp [hn]) .refl)
  have hend : unwatched (endTest v).faults = unwatched v.faults := by
    have hdone : ∀ p, session (doneTold y v) p = none := fun p => by
      rw [session, doneTold_parts.2.1]
      exact hsession p
    have hgate : (gateLeft y (doneTold y v)).faults = v.faults := by
      rw [gateLeft_eq hdone]
      exact doneTold_faults hyabort
    rw [endTest_eq hy, ← hgate, testGone, State.updEngine_faults, homeTold]
    split
    · exact congrArg Steady.faults (homeTestEnded_steady _)
    · rfl
  rw [abortTest_power_of_flight hx hp]
  have hrest : Faulted [] u (endTest v) := faulted_of_emits (by rw [(endTest_frame v).2.2.1]; exact hclock)
    (hend.trans (congrArg unwatched hfaults)) hemits fun _ hn => hn
  simpa using abortRaised_faulted.trans hrest

theorem abortTest_power_emits {P : Notice → Prop} {a : PerChan ChannelRec} (hs : ∀ p, session s p = none)
    (hfault : ∀ n, n.kind = .fault → P n) (hend : ∀ n, n.kind = .disturbDone → P n) (hdone : ∀ n, n.kind = .testDone → P n)
    (hgrant : ∀ n, n.kind = .claimGranted → P n) (h : Emits P a s.channels) :
    Emits P a (abortTest .powerAbort s).channels := by
  have hstop {x : Test} {u : State} (hx : u.engine.test = some x) (hu : u.ring = s.ring) (h : Emits P a u.channels) :
      Emits P a (endTest (testStopped x u)).channels := by
    obtain ⟨y, hy, -⟩ := testStopped_test hx
    refine endTest_emits hy (fun p => ?_) (fun _ => hfault) hdone hgrant (testStopped_emits hend h)
    rw [session, testStopped_parts.2.1, hu]
    exact hs p
  cases hx : s.engine.test with
  | none => rwa [abortTest_power_of_none hx]
  | some x =>
    by_cases hp : x.phase = .release
    · rw [abortTest_power_of_release hx hp]
      exact hstop hx rfl h
    · rw [abortTest_power_of_flight hx hp]
      exact hstop abortRaised_test (by simp) (raiseFault_emits hfault _ h)

end

end Sys2Proof.Machine
end

