-- ==== Sys2Proof/Proofs/ReserveFallbacks.lean ====
section
namespace Sys2Proof.Machine

/-! ## The whole transition into RESERVE (R46, R103, R180) -/

/-- The part with its relays dropped, its sessions ended and its ports on the lifeline (R103, R180). -/
def portsFallen (s : State) : State :=
  fallbackPort .p2 (fallbackPort .p1 (endAllSessions .power (reserveFallback s)))

/-- The part with its test and its DSL switch ended too. -/
def workEnded (s : State) : State := endDsl .power (abortTest .powerAbort (portsFallen s))

theorem tellPower_reserve {old : PowerState} (s : State) : tellPower old .reserve (reserveFallback s) = workEnded s := by
  cases old <;> rfl

section
variable {p q : Port} {r s t u v : State}

theorem lasting_of_kind {sort : Notice → Bool} {k : Kind} (h : ∀ n, sort n = true → n.kind = k)
    (hk : k.supersedes = false) : lasting sort := fun n hn => by rw [h n hn, hk]

/-! ### The parts that stand -/

theorem reserveFallback_channels : (reserveFallback s).channels =
    (handAll [unplannedNoteOf s.now 6 none 0] (detachedDone (fallbackRelays s))).channels := by
  rw [reserveFallback, unplanned_eq]
  rw [show (detachedDone (fallbackRelays s)).now = s.now by simp [State.now]]
  rfl

theorem reserveFallback_port : (reserveFallback s).port q = (fallbackRelays s).port q := by
  simp [reserveFallback, State.port]

theorem reserveFallback_session : session (reserveFallback s) q = session s q := by simp [session]

theorem reserveFallback_inBurst : inBurst (reserveFallback s) q = inBurst s q := by
  simp [inBurst, reserveFallback_session]

theorem reserveFallback_relays : (reserveFallback s).relays = defaultRelays s.relays.lineBreak ∧
    (reserveFallback s).settles = [] := by
  simp [reserveFallback, fallbackRelays]

theorem testStopped_relays {x : Test} : (testStopped x s).relays = s.relays ∧ (testStopped x s).settles = s.settles ∧
    (testStopped x s).dsl = s.dsl := by
  unfold testStopped
  split
  · cases hc : cancelSlot (targetSlot x.target) s with
    | none => exact ⟨rfl, rfl, rfl⟩
    | some t => simp [cancelSlot_frame hc]
  · simp

theorem abortTest_power_relays : (abortTest .powerAbort s).relays = s.relays ∧
    (abortTest .powerAbort s).settles = s.settles ∧ (abortTest .powerAbort s).dsl = s.dsl := by
  cases hx : s.engine.test with
  | none => simp [abortTest_power_of_none hx]
  | some x =>
    by_cases hp : x.phase = .release
    · simp [abortTest_power_of_release hx hp, testStopped_relays]
    · simp [abortTest_power_of_flight hx hp, testStopped_relays, abortRaised]

theorem portsFallen_relays : (portsFallen s).relays = defaultRelays s.relays.lineBreak ∧ (portsFallen s).settles = [] ∧
    (portsFallen s).dsl = s.dsl := by
  simp [portsFallen, reserveFallback_relays]

/-! ### The ports -/

/-- Each port has fallen back from the state that the sessions' ends leave it in. -/
theorem fallbackPorts_port (p : Port) (v : State) : ∃ w, SameLoop p v w ∧
    (fallbackPort .p2 (fallbackPort .p1 v)).port p = (fallbackPort p w).port p := by
  cases p with
  | p1 => exact ⟨v, ⟨rfl, rfl, rfl, rfl, rfl⟩, fallbackPort_port_other (by decide)⟩
  | p2 => exact ⟨fallbackPort .p1 v, ⟨fallbackPort_port_other (by decide), by simp, by simp, by simp, by simp⟩, rfl⟩

theorem portsFallen_fallen : Fallen ((portsFallen s).port p) := by
  obtain ⟨w, -, hw⟩ := fallbackPorts_port p (endAllSessions .power (reserveFallback s))
  rw [portsFallen, hw]
  exact fallbackPort_fallen

theorem ended_record : (portRecord ((endAllSessions .power (reserveFallback s)).port q)).atRest =
    (portRecord (s.port q)).atRest := by
  rw [endAllSessions_record, reserveFallback_port, fallbackRelays_record]

theorem ended_mode : ((endAllSessions .power (reserveFallback s)).port q).mode = (s.port q).mode :=
  (congrArg PortRecord.mode ended_record :)

theorem ended_switch : ((endAllSessions .power (reserveFallback s)).port q).switch = (s.port q).switch :=
  (congrArg PortRecord.switch ended_record :)

theorem ended_port (h : inBurst s q = false) :
    (endAllSessions .power (reserveFallback s)).port q = (fallbackRelays s).port q := by
  rw [endAllSessions_port_of_quiet (by rwa [reserveFallback_inBurst]), reserveFallback_port]

@[simp] theorem endAllSessions_parts {why : RingReason} : (endAllSessions why s).relays = s.relays ∧
    (endAllSessions why s).pins = s.pins ∧ (endAllSessions why s).twoPorts = s.twoPorts ∧
    (endAllSessions why s).clock = s.clock ∧ (endAllSessions why s).power = s.power := by
  simp [endAllSessions]

/-- The supervisor of a port that was not on the lifeline (R103). -/
theorem portsFallen_supervisor (hm : (s.port p).mode ≠ .lifeline) : ((portsFallen s).port p).sup.frozen = none ∧
    ((portsFallen s).port p).sup.state = if portFitted s p = true ∧ s.pins.loopPass.get p = true ∧
      s.relays.lineBreak = .closed then .seizing else .onHook := by
  let v := endAllSessions .power (reserveFallback s)
  obtain ⟨w, hsame, hw⟩ := fallbackPorts_port p v
  have hrelays : w.relays = defaultRelays s.relays.lineBreak := by
    rw [hsame.relays]
    simp [v, reserveFallback_relays]
  have hpins : w.pins = s.pins := by
    rw [hsame.pins]
    simp [v]
  have hfit : portFitted w p = portFitted s p := by
    have : w.twoPorts = s.twoPorts := by
      rw [hsame.fitted]
      simp [v]
    cases p <;> simp [portFitted, this]
  have hmode : (w.port p).mode ≠ .lifeline := by
    rw [hsame.port, ended_mode]
    exact hm
  have hsup := fallbackPort_supervisor hmode (by
    rw [hrelays]
    cases p <;> exact ⟨rfl, rfl⟩)
  rw [hfit, hpins, hrelays] at hsup
  rw [portsFallen, hw]
  exact hsup

/-- What the ports' fall hands of a sort that concerns one port. -/
theorem fallbackPorts_handsTo {sort : Notice → Bool} {l : List Handing} (p : Port) (v : State)
    (hone : ∀ w, SameLoop p v w → HandsTo sort l w.channels (fallbackPort p w).channels)
    (hother : ∀ q w, q ≠ p → HandsTo sort [] w.channels (fallbackPort q w).channels) :
    HandsTo sort l v.channels (fallbackPort .p2 (fallbackPort .p1 v)).channels := by
  cases p with
  | p1 => exact (hone v ⟨rfl, rfl, rfl, rfl, rfl⟩).trans_nil (hother .p2 _ (by decide))
  | p2 =>
    exact (hother .p1 v (by decide)).nil_trans
      (hone _ ⟨fallbackPort_port_other (by decide), by simp, by simp, by simp, by simp⟩)

/-! ### Notices of other sorts -/

section
variable {P : Notice → Prop} {a : PerChan ChannelRec}

/-- What the relays' drop hands before UNPLANNED. -/
theorem relaysDropped_emits (hloop : ∀ p n, LoopNotice p n → P n) (hdone : ∀ n, n.kind = .disturbDone → P n)
    (h : Emits P a s.channels) : Emits P a (detachedDone (fallbackRelays s)).channels :=
  detachedDone_emits hdone (fallbackRelays_emits hloop h)

theorem fallbackPorts_emits (hdone : ∀ n, n.kind = .disturbDone → P n)
    (hmode : ∀ p n, n.kind = .modeDone → n.subject = byte (portNum p) → P n) (hhook : ∀ p n, hookOf p 5 n = true → P n)
    (h : Emits P a s.channels) : Emits P a (fallbackPort .p2 (fallbackPort .p1 s)).channels :=
  fallbackPort_emits hdone (hmode _) (hhook _) (fallbackPort_emits hdone (hmode _) (hhook _) h)

theorem endDsl_emits (hdone : ∀ n, n.kind = .disturbDone → P n) (hmode : ∀ n, n.kind = .modeDone → n.subject = 0 → P n)
    {o : DslOutcome} (h : Emits P a s.channels) : Emits P a (endDsl o s).channels := by
  cases hd : s.dsl with
  | none => simpa [endDsl, hd] using h
  | some d =>
    rw [(endDsl_ended hd).channels]
    exact postCompletion_emits (hmode _ rfl rfl) (endSlot_emits hdone h _)

theorem raisePower_emits (hfault : ∀ n, n.kind = .fault → P n) {o n : PowerState} (h : Emits P a s.channels) :
    Emits P a (raisePower o n s).channels := by
  unfold raisePower
  dsimp only
  split <;> split
  · exact raiseFault_emits hfault _ (raiseFault_emits hfault _ h)
  · exact raiseFault_emits hfault _ h
  · exact raiseFault_emits hfault _ h
  · exact h

/-- The notices that come once the ports have fallen back: of the test, of a gate's grant, of the DSL switch and of
faults. -/
structure Late (P : Notice → Prop) : Prop where
  fault : ∀ n, n.kind = .fault → P n
  record : ∀ n, n.kind = .disturbDone → P n
  test : ∀ n, n.kind = .testDone → P n
  grant : ∀ n, n.kind = .claimGranted → P n

theorem portsFallen_session : session (portsFallen s) q = none := by
  refine (session_of_ring (s := endAllSessions .power (reserveFallback s)) ?_ q).trans endAllSessions_session
  simp [portsFallen]

theorem testEnded_emits (hP : Late P) (h : Emits P a (portsFallen s).channels) :
    Emits P a (abortTest .powerAbort (portsFallen s)).channels :=
  abortTest_power_emits (fun _ => portsFallen_session) hP.fault hP.record hP.test hP.grant h

theorem powerRaised_emits (hP : Late P) (hmode : ∀ n, n.kind = .modeDone → n.subject = 0 → P n) {o n : PowerState}
    (h : Emits P a (portsFallen s).channels) : Emits P a (raisePower o n (workEnded s)).channels :=
  raisePower_emits hP.fault (endDsl_emits hP.record hmode (testEnded_emits hP h))

end

end

end Sys2Proof.Machine
end

