-- ==== Sys2Proof/Proofs/ReserveNotices.lean ====
section
namespace Sys2Proof.Machine

/-! ## What the transition into RESERVE hands (R57, R98, R103, R129, R180) -/

section
variable {sort : Notice → Bool} {p q : Port} {k : Kind} {l : List Handing} {o : PowerState} {r s t u v : State}

theorem late_of_kind (h : ∀ n, sort n = true → n.kind = k)
    (hk : k ≠ .fault ∧ k ≠ .disturbDone ∧ k ≠ .testDone ∧ k ≠ .claimGranted) : Late (fun n => sort n = false) := by
  have hne {n : Notice} {j : Kind} (hn : n.kind = j) (hj : k ≠ j) : sort n = false := by
    by_contra hs
    exact hj ((h n (by simpa using hs)).symm.trans hn)
  obtain ⟨hfault, hrecord, htest, hgrant⟩ := hk
  exact ⟨fun n hn => hne hn hfault, fun n hn => hne hn hrecord, fun n hn => hne hn htest, fun n hn => hne hn hgrant⟩

/-- A loop hands nothing of another kind than HOOK, DIGIT and UNPLANNED. -/
theorem loop_avoids_of_kind (h : ∀ n, sort n = true → n.kind = k) (hk : k ≠ .hook ∧ k ≠ .digit ∧ k ≠ .unplanned)
    {n : Notice} (hn : LoopNotice p n) : sort n = false := by
  by_contra hs
  have hkind := h n (by simpa using hs)
  rcases hn with ⟨hn, -⟩ | ⟨hn, -⟩ | ⟨hn, -⟩ <;> simp_all

theorem hookOf_kind {j : Nat} {n : Notice} (h : hookOf p j n = true) : n.kind = .hook := by
  simp only [hookOf, decide_eq_true_eq] at h
  exact h.1

theorem digitsOf_kind {n : Notice} (h : digitsOf p n = true) : n.kind = .digit := by
  simp only [digitsOf, ofKind, Bool.and_eq_true, decide_eq_true_eq] at h
  exact h.1

/-- A loop's HOOK notices are of its port and reason LOOP. -/
theorem loop_avoids_hook {j : Nat} (h : q ≠ p ∨ j ≠ 1) {n : Notice} (hn : LoopNotice q n) : hookOf p j n = false := by
  by_contra hs
  simp only [hookOf, Bool.not_eq_false, decide_eq_true_eq] at hs
  obtain ⟨hk, hp, hj⟩ := hs
  rcases hn with ⟨-, hq, hr⟩ | ⟨hn, -⟩ | ⟨hn, -⟩
  · rw [hq, byte_portNum] at hp
    rcases h with h | h
    · exact h hp
    · exact h (hj.symm.trans hr)
  · simp_all
  · simp_all

theorem loop_avoids_digit (h : q ≠ p) {n : Notice} (hn : LoopNotice q n) : digitsOf p n = false := by
  by_contra hs
  simp only [digitsOf, ofKind, Bool.not_eq_false, Bool.and_eq_true, decide_eq_true_eq] at hs
  obtain ⟨hk, hp⟩ := hs
  rcases hn with ⟨hn, -⟩ | ⟨-, hq⟩ | ⟨hn, -⟩
  · simp_all
  · rw [hq, byte_portNum] at hp
    exact h hp
  · simp_all

theorem loop_avoids_fallback {n : Notice} (hn : LoopNotice q n) : unplannedOf 6 n = false := by
  by_contra hs
  simp only [unplannedOf, Bool.not_eq_false, decide_eq_true_eq] at hs
  obtain ⟨hk, h6⟩ := hs
  rcases hn with ⟨hn, -⟩ | ⟨hn, -⟩ | ⟨-, hsub⟩
  · simp_all
  · simp_all
  · rw [hsub] at h6
    exact absurd h6 (by decide)

/-! ### UNPLANNED and the relays' drop -/

theorem reserveFallback_handsTo (hs : lasting sort) (hloop : ∀ p n, LoopNotice p n → sort n = false)
    (hdone : ∀ n, n.kind = .disturbDone → sort n = false) :
    HandsTo sort (if sort (unplannedNoteOf s.now 6 none 0).1 = true then [unplannedNoteOf s.now 6 none 0] else [])
      s.channels (reserveFallback s).channels := by
  have hdrop := (relaysDropped_emits (s := s) (P := fun n => sort n = false) hloop hdone .refl).handsTo hs fun _ h => h
  have hpost := handAll_handsTo (s := detachedDone (fallbackRelays s)) hs [unplannedNoteOf s.now 6 none 0]
  rw [reserveFallback_channels]
  rw [List.filter_singleton] at hpost
  refine hdrop.nil_trans ?_
  cases h : sort (unplannedNoteOf s.now 6 none 0).1 <;> simpa [h] using hpost

/-- Nothing of the sort is handed from the ports' fall on. -/
theorem powerRaised_handsTo (hs : lasting sort) (hP : Late (fun n => sort n = false))
    (hmode : ∀ n, n.kind = .modeDone → n.subject = 0 → sort n = false) :
    HandsTo sort [] (portsFallen s).channels (raisePower o .reserve (workEnded s)).channels :=
  (powerRaised_emits hP hmode .refl).handsTo hs fun _ h => h

theorem fallbackPorts_silent (hs : lasting sort) (hdone : ∀ n, n.kind = .disturbDone → sort n = false)
    (hmode : ∀ p n, n.kind = .modeDone → n.subject = byte (portNum p) → sort n = false)
    (hhook : ∀ p n, hookOf p 5 n = true → sort n = false) :
    HandsTo sort [] s.channels (fallbackPort .p2 (fallbackPort .p1 s)).channels :=
  (fallbackPorts_emits (P := fun n => sort n = false) hdone hmode hhook .refl).handsTo hs fun _ h => h

theorem endAllSessions_silent (hs : lasting sort) (hloop : ∀ p, inBurst s p = true → ∀ n, LoopNotice p n → sort n = false)
    (hdone : ∀ n, n.kind = .disturbDone → sort n = false) (hring : ∀ n, n.kind = .ringEnd → sort n = false) :
    HandsTo sort [] s.channels (endAllSessions .power s).channels :=
  (endAllSessions_emits (P := fun n => sort n = false) hloop hdone hring _ .refl).handsTo hs fun _ h => h

theorem avoids_of_kind (h : ∀ n, sort n = true → n.kind = k) {j : Kind} (hj : k ≠ j) (n : Notice) (hn : n.kind = j) :
    sort n = false := by
  by_contra hs
  exact hj ((h n (by simpa using hs)).symm.trans hn)

/-- UNPLANNED RESERVE_FALLBACK is handed once (R57, R180). -/
theorem reserve_unplanned : HandsTo (unplannedOf 6) [unplannedNoteOf s.now 6 none 0] s.channels
    (raisePower o .reserve (workEnded s)).channels := by
  have hkind : ∀ n, unplannedOf 6 n = true → n.kind = .unplanned := fun n hn => by
    simp only [unplannedOf, decide_eq_true_eq] at hn
    exact hn.1
  have hs : lasting (unplannedOf 6) := lasting_of_kind hkind rfl
  have hdone := avoids_of_kind hkind (j := .disturbDone) (by decide)
  have hmode := avoids_of_kind hkind (j := .modeDone) (by decide)
  have hfirst := reserveFallback_handsTo (s := s) hs (fun _ _ h => loop_avoids_fallback h) hdone
  rw [if_pos (by rfl)] at hfirst
  refine hfirst.trans_nil ((endAllSessions_silent hs (fun _ _ _ h => loop_avoids_fallback h) hdone
    (avoids_of_kind hkind (by decide))).trans_nil ((fallbackPorts_silent hs hdone (fun _ n hn _ => hmode n hn)
    (fun _ n hn => avoids_of_kind hkind (j := .hook) (by decide) n (hookOf_kind hn))).trans_nil
    (powerRaised_handsTo hs (late_of_kind hkind (by decide)) fun n hn _ => hmode n hn)))

/-- RING_END, POWER, of every session (R129). -/
theorem reserve_ringEnd : HandsTo (ofKind .ringEnd) (sessionsEnd 6 s) s.channels
    (raisePower o .reserve (workEnded s)).channels := by
  have hkind : ∀ n, ofKind .ringEnd n = true → n.kind = .ringEnd := fun n hn => by simpa [ofKind] using hn
  have hs : lasting (ofKind .ringEnd) := lasting_ofKind rfl
  have hdone := avoids_of_kind hkind (j := .disturbDone) (by decide)
  have hmode := avoids_of_kind hkind (j := .modeDone) (by decide)
  have hfirst := reserveFallback_handsTo (s := s) hs (fun _ _ h => loop_avoids_of_kind hkind (by decide) h) hdone
  rw [if_neg (by simp [ofKind, unplannedNoteOf])] at hfirst
  have hsessions : sessionsEnd 6 (reserveFallback s) = sessionsEnd 6 s := by
    simp [sessionsEnd, reserveFallback_session, State.now]
  have hend := endAllSessions_handsTo (s := reserveFallback s)
  rw [hsessions] at hend
  exact hfirst.nil_trans (hend.trans_nil ((fallbackPorts_silent hs hdone (fun _ n hn _ => hmode n hn)
    (fun _ n hn => avoids_of_kind hkind (j := .hook) (by decide) n (hookOf_kind hn))).trans_nil
    (powerRaised_handsTo hs (late_of_kind hkind (by decide)) fun n hn _ => hmode n hn)))

/-- The MODE_DONE notices of a subject. -/
def modesOf (p : Port) (n : Notice) : Bool := ofKind .modeDone n && decide (n.subject.toNat = portNum p)

theorem modesOf_iff {n : Notice} : modesOf p n = true ↔ n.kind = .modeDone ∧ n.subject.toNat = portNum p := by
  simp [modesOf, ofKind]

/-- MODE_DONE, POWER, of a port's switch (R98). -/
theorem reserve_modeDone : HandsTo (modesOf p)
    ((s.port p).switch.toList.map (fun w => switchDoneOf s.now p w 2 .lifeline false)) s.channels
    (raisePower o .reserve (workEnded s)).channels := by
  have hkind : ∀ n, modesOf p n = true → n.kind = .modeDone := fun n hn => (modesOf_iff.mp hn).1
  have hs : lasting (modesOf p) := lasting_of_kind hkind rfl
  have hdone := avoids_of_kind hkind (j := .disturbDone) (by decide)
  have hhook (q : Port) (n : Notice) (hn : hookOf q 5 n = true) : modesOf p n = false :=
    avoids_of_kind hkind (j := .hook) (by decide) n (hookOf_kind hn)
  have hloop (q : Port) (n : Notice) (h : LoopNotice q n) : modesOf p n = false :=
    loop_avoids_of_kind hkind (by decide) h
  have hfirst := reserveFallback_handsTo (s := s) hs hloop hdone
  rw [if_neg (by simp [modesOf, ofKind, unplannedNoteOf])] at hfirst
  have hports : HandsTo (modesOf p) ((s.port p).switch.toList.map (fun w => switchDoneOf s.now p w 2 .lifeline false))
      (endAllSessions .power (reserveFallback s)).channels (portsFallen s).channels := by
    refine fallbackPorts_handsTo p _ (fun w hw => ?_) fun q w hq => ?_
    · have hswitch := endSwitch_power_handsTo (p := p) (s := w) hs fun n => modesOf_iff
      rw [hw.port, ended_switch, hw.now, show (endAllSessions .power (reserveFallback s)).now = s.now by
        simp [State.now]] at hswitch
      rw [fallbackPort_channels]
      refine hswitch.trans_nil ((handAll_emits (P := fun n => modesOf p n = false) (fun x hx => ?_) .refl).handsTo hs
        fun _ h => h)
      unfold fallbackHook at hx
      split at hx
      · rw [List.mem_singleton.mp hx]
        rfl
      · cases hx
    · refine (fallbackPort_emits (P := fun n => modesOf p n = false) hdone (fun n _ hsub => ?_) (hhook q) .refl).handsTo hs
        fun _ h => h
      by_contra h
      have := (modesOf_iff.mp (by simpa using h)).2
      rw [hsub, byte_portNum] at this
      exact hq this
  refine hfirst.nil_trans ((endAllSessions_silent hs (fun q _ => hloop q) hdone
    (avoids_of_kind hkind (by decide))).nil_trans (hports.trans_nil
    (powerRaised_handsTo hs (late_of_kind hkind (by decide)) fun n _ h0 => ?_)))
  cases p <;> simp [modesOf, h0, portNum]

/-! ### What a quiet port's loop and restart hand -/

theorem fallbackRelays_handsTo (hs : lasting sort) (hother : ∀ q n, q ≠ p → LoopNotice q n → sort n = false) :
    HandsTo sort ((loopNotices p (dropped s)).filter (fun x => sort x.1)) s.channels (fallbackRelays s).channels := by
  have hone (u : State) : HandsTo sort ((loopNotices p u).filter (fun x => sort x.1)) u.channels
      (senseLoop p u).channels := by
    rw [senseLoop_channels]
    exact handAll_handsTo hs _
  have hnone (q : Port) (hq : q ≠ p) (u : State) : HandsTo sort [] u.channels (senseLoop q u).channels :=
    (senseLoop_emits (P := fun n => sort n = false) (fun n hn => hother q n hq hn) .refl).handsTo hs fun _ h => h
  have hdropped : (dropped s).channels = s.channels := by simp
  rw [fallbackRelays_dropped, judgeWatch_channels]
  cases p with
  | p1 =>
    have h1 := hone (dropped s)
    rw [hdropped] at h1
    exact h1.trans_nil (hnone .p2 (by decide) _)
  | p2 =>
    have h1 := hnone .p1 (by decide) (dropped s)
    have h2 := hone (senseLoop .p1 (dropped s))
    rw [hdropped] at h1
    rw [(sameLoop_senseLoop (by decide)).loopNotices_eq] at h2
    exact h1.nil_trans h2

/-- Of a port where no burst was on, a sort of its loop's notices is handed as the dropped relays bring it. -/
theorem reserve_loop (hk : k = .hook ∨ k = .digit) (hkind : ∀ n, sort n = true → n.kind = k)
    (hother : ∀ q n, q ≠ p → LoopNotice q n → sort n = false) (hhook : ∀ q n, hookOf q 5 n = true → sort n = false)
    (hb : inBurst s p = false) : HandsTo sort ((loopNotices p (dropped s)).filter (fun x => sort x.1)) s.channels
      (raisePower o .reserve (workEnded s)).channels := by
  have hs : lasting sort := lasting_of_kind hkind (by rcases hk with rfl | rfl <;> rfl)
  have hno {j : Kind} (hj : j ≠ .hook ∧ j ≠ .digit) (n : Notice) (hn : n.kind = j) : sort n = false :=
    avoids_of_kind hkind (by rcases hk with rfl | rfl; exacts [hj.1.symm, hj.2.symm]) n hn
  have hdone := hno (j := .disturbDone) (by decide)
  have hmode := hno (j := .modeDone) (by decide)
  have hdetached := (detachedDone_emits (P := fun n => sort n = false) (s := fallbackRelays s) hdone .refl).handsTo hs
    fun _ h => h
  have hunplanned : HandsTo sort [] (detachedDone (fallbackRelays s)).channels (reserveFallback s).channels := by
    rw [reserveFallback_channels]
    exact (handAll_emits (P := fun n => sort n = false) (fun x hx => hno (j := .unplanned) (by decide) _
      (by rw [List.mem_singleton.mp hx]; rfl)) .refl).handsTo hs fun _ h => h
  refine (fallbackRelays_handsTo hs hother).trans_nil (hdetached.trans_nil (hunplanned.trans_nil
    ((endAllSessions_silent hs (fun q hq n hn => hother q n ?_ hn) hdone (hno (by decide))).trans_nil
      ((fallbackPorts_silent hs hdone (fun _ n hn _ => hmode n hn) hhook).trans_nil
        (powerRaised_handsTo hs (late_of_kind hkind (by rcases hk with rfl | rfl <;> decide)) fun n hn _ => hmode n hn)))))
  rintro rfl
  rw [reserveFallback_inBurst, hb] at hq
  cases hq

theorem hookOf_ne {i j : Nat} (h : i ≠ j) {n : Notice} (hn : hookOf q i n = true) : hookOf p j n = false := by
  simp only [hookOf, decide_eq_true_eq] at hn
  have : ¬n.flags.toNat / 16 = j := fun hj => h (hn.2.2.symm.trans hj)
  simp [hookOf, this]

theorem reserve_hook_loop (hb : inBurst s p = false) : HandsTo (hookOf p 1)
    ((loopNotices p (dropped s)).filter (fun x => hookOf p 1 x.1)) s.channels
    (raisePower o .reserve (workEnded s)).channels :=
  reserve_loop (.inl rfl) (fun _ h => hookOf_kind h) (fun _ _ hq h => loop_avoids_hook (.inl hq) h)
    (fun _ _ h => hookOf_ne (by decide) h) hb

theorem reserve_digit (hb : inBurst s p = false) : HandsTo (digitsOf p)
    ((loopNotices p (dropped s)).filter (fun x => digitsOf p x.1)) s.channels
    (raisePower o .reserve (workEnded s)).channels := by
  refine reserve_loop (.inr rfl) (fun _ h => digitsOf_kind h) (fun _ _ hq h => loop_avoids_digit hq h) (fun q n h => ?_) hb
  simp [digitsOf, ofKind, hookOf_kind h]

/-- A port in a call that no release ended, of which its restart under the fallback hands HOOK (R103). -/
def callCut (p : Port) (s : State) : Prop :=
  (s.port p).mode ≠ .lifeline ∧ inCall ((s.port p).sup.frozen.getD (s.port p).sup.state) = true ∧
    ¬(endsBreak p (dropped s) ∧ releasing p s)

theorem ended_hook_condition (hb : inBurst s p = false) :
    (((endAllSessions .power (reserveFallback s)).port p).mode ≠ .lifeline ∧
      inCall (((endAllSessions .power (reserveFallback s)).port p).sup.frozen.getD
        ((endAllSessions .power (reserveFallback s)).port p).sup.state) = true) ↔ callCut p s := by
  rw [ended_mode, ended_port hb, fallbackRelays_inCall, callCut]

theorem ended_hook_of_call (hb : inBurst s p = false) (h : callCut p s) :
    fallbackHook p (endAllSessions .power (reserveFallback s)) = [hookNoteOf s.now p false true 5 0] := by
  rw [fallbackHook, if_pos ((ended_hook_condition hb).mpr h)]
  simp [State.now]

theorem ended_hook_of_no_call (hb : inBurst s p = false) (h : ¬callCut p s) :
    fallbackHook p (endAllSessions .power (reserveFallback s)) = [] :=
  if_neg fun hc => h ((ended_hook_condition hb).mp hc)

/-- HOOK, POWER, of a port that was not on the lifeline and whose supervisor was in a call (R103, R116). -/
theorem reserve_hook_power : HandsTo (hookOf p 5) (fallbackHook p (endAllSessions .power (reserveFallback s)))
    s.channels (raisePower o .reserve (workEnded s)).channels := by
  have hkind : ∀ n, hookOf p 5 n = true → n.kind = .hook := fun n hn => hookOf_kind hn
  have hs : lasting (hookOf p 5) := lasting_of_kind hkind rfl
  have hdone := avoids_of_kind hkind (j := .disturbDone) (by decide)
  have hmode := avoids_of_kind hkind (j := .modeDone) (by decide)
  have hloop (q : Port) (n : Notice) (h : LoopNotice q n) : hookOf p 5 n = false := loop_avoids_hook (.inr (by decide)) h
  have hfirst := reserveFallback_handsTo (s := s) hs hloop hdone
  rw [if_neg (by simp [unplannedNoteOf, hookOf])] at hfirst
  have hports : HandsTo (hookOf p 5) (fallbackHook p (endAllSessions .power (reserveFallback s)))
      (endAllSessions .power (reserveFallback s)).channels (portsFallen s).channels := by
    refine fallbackPorts_handsTo p _ (fun w hw => ?_)
      fun q w hq => ?_
    · have hlist : fallbackHook p w = fallbackHook p (endAllSessions .power (reserveFallback s)) := by
        simp only [fallbackHook, hw.port, hw.now]
      have hsilent : HandsTo (hookOf p 5) [] w.channels (endSwitch p .lifeline .power w).channels :=
        (endSwitch_power_emits (P := fun n => hookOf p 5 n = false) hdone (fun n hn _ => hmode n hn) .refl).handsTo hs
          fun _ h => h
      have hall := handAll_handsTo (s := endSwitch p .lifeline .power w) hs (fallbackHook p w)
      rw [List.filter_eq_self.mpr fun x hx => by
        unfold fallbackHook at hx
        split at hx
        · rw [List.mem_singleton.mp hx]
          exact (hookOf_hookNote (why := .power)).trans (by simp [HookReason.code])
        · cases hx] at hall
      rw [fallbackPort_channels, ← hlist]
      exact hsilent.nil_trans hall
    · refine (fallbackPort_emits (P := fun n => hookOf p 5 n = false) hdone (fun n hn _ => hmode n hn) (fun n hn => ?_)
        .refl).handsTo hs fun _ h => h
      simp only [hookOf, decide_eq_true_eq] at hn
      have : ¬n.subject.toNat = portNum p := fun hp => by
        rw [hn.2.1] at hp
        cases p <;> cases q <;> simp_all [portNum]
      simp [hookOf, this]
  exact hfirst.nil_trans ((endAllSessions_silent hs (fun q _ => hloop q) hdone
    (avoids_of_kind hkind (by decide))).nil_trans (hports.trans_nil
    (powerRaised_handsTo hs (late_of_kind hkind (by decide)) fun n hn _ => hmode n hn)))

end

end Sys2Proof.Machine
end

