-- ==== Sys2Proof/Proofs/ReserveFaults.lean ====
section
namespace Sys2Proof.Machine

/-! ## The engine, the faults and the DSL switch through the transition into RESERVE (R40, R146, R180) -/

section
variable {sort : Notice → Bool} {p q : Port} {o : PowerState} {r s t u v : State}

/-! ### The engine -/

theorem unmask_unread : unread (unmask p s).engine = unread s.engine := by
  unfold unmask
  split
  · split
    · rfl
    · exact (congrArg Ground.engine (senseLoop_ground (r := s) p) :)
  · rfl

theorem closeWindow_unread (k : WindowKey) (x : Time) : unread (closeWindow k x s).engine = unread s.engine :=
  (congrArg Ground.engine (closeWindow_ground (r := s) k x) :)

theorem endBurst_unread {x : RingState} : unread (endBurst p x s).engine = unread s.engine := by
  have hjudge (u : State) : (judgeRingFault u).engine = u.engine := by simp
  rw [endBurst, hjudge, unmask_unread, closeWindow_unread]
  rfl

theorem endSession_unread {why : RingReason} {n : Nat} : unread (endSession p why n s).engine = unread s.engine := by
  unfold endSession
  split
  · rfl
  · split
    · simpa [setSession, updSession] using endBurst_unread
    · simp [setSession, updSession]

theorem endSwitch_power_rest : (endSwitch p .lifeline .power s).faults = s.faults ∧
    (endSwitch p .lifeline .power s).engine = s.engine := by
  cases hw : (s.port p).switch with
  | none => simp [endSwitch, hw]
  | some w =>
    have hout : switchRestarted p w .lifeline .power s = switchOver p w .lifeline .power s := by simp [switchRestarted]
    rw [endSwitch_eq hw, hout, switchOver]
    split <;> simp [standingIn]

theorem fallbackPort_unread : unread (fallbackPort p s).engine = unread s.engine := by
  have hfallen : (fallen p s).engine = s.engine := by simp [fallen, endDenial, endSwitch_power_rest]
  rw [fallbackPort_eq]
  split
  · rw [hfallen]
  · refine (congrArg Ground.engine (restart_ground (r := s) p _) :).trans ?_
    change unread (restartQuiet p (fallen p s)).engine = _
    rw [restartQuiet, State.updSup, State.updPort_engine, hfallen]

theorem portsFallen_unread : unread (portsFallen s).engine = unread (reserveFallback s).engine := by
  rw [portsFallen, fallbackPort_unread, fallbackPort_unread, endAllSessions, endSession_unread, endSession_unread]

theorem fallbackRelays_unread : unread (fallbackRelays s).engine = unread s.engine := by
  have h : ground s (fallbackRelays s) = ground s ((s.setRelays (defaultRelays s.relays.lineBreak)).setSettles []) := by
    simp [fallbackRelays]
  exact (congrArg Ground.engine h :)

theorem detachedDone_detached : (detachedDone s).engine.detached = none := by
  unfold detachedDone
  split
  · simp
  · next h => exact h

theorem detachedDone_test : (detachedDone s).engine.test.map forgetReadings = s.engine.test.map forgetReadings := by
  unfold detachedDone
  split
  · have hslot (i : SlotId) (u : State) : (endSlot i u).engine = u.engine := by simp
    rw [hslot]
    split
    · exact (unread_test.symm.trans (congrArg Engine.test (closeWindow_unread .test s.now))).trans unread_test
    · rfl
  · rfl

theorem portsFallen_detached : (portsFallen s).engine.detached = none := by
  rw [detached_of_unread portsFallen_unread]
  simp [reserveFallback, detachedDone_detached]

/-- The test stands through the ports' fall, but for its readings. -/
theorem portsFallen_test : (portsFallen s).engine.test.map forgetReadings = s.engine.test.map forgetReadings := by
  rw [← unread_test, portsFallen_unread, unread_test]
  have hplain : (reserveFallback s).engine = (detachedDone (fallbackRelays s)).engine := by simp [reserveFallback]
  rw [hplain, detachedDone_test, ← unread_test, fallbackRelays_unread, unread_test]

theorem portsFallen_clock : (portsFallen s).clock = s.clock := by simp [portsFallen]

theorem fallbackPort_unwatched : unwatched (fallbackPort p s).faults = unwatched s.faults := by
  have hfallen : (fallen p s).faults = s.faults := by simp [fallen, endDenial, endSwitch_power_rest]
  rw [fallbackPort_eq]
  split
  · rw [hfallen]
  · refine (congrArg Steady.faults (restart_steady p _) :).trans ?_
    rw [steady, hfallen]

theorem portsFallen_unwatched : unwatched (portsFallen s).faults = unwatched s.faults := by
  have hrelays : steady (fallbackRelays s) = steady s := by simp [fallbackRelays]
  have hsessions : steady (endAllSessions .power (reserveFallback s)) = steady (reserveFallback s) := by
    simp [endAllSessions]
  have hplain : (reserveFallback s).faults = (fallbackRelays s).faults := by simp [reserveFallback]
  rw [portsFallen, fallbackPort_unwatched, fallbackPort_unwatched]
  refine (congrArg Steady.faults hsessions :).trans ?_
  rw [steady, hplain]
  exact (congrArg Steady.faults hrelays :)

/-! ### The faults (R146, R180) -/

theorem portsFallen_emits {P : Notice → Prop} {a : PerChan ChannelRec} (hloop : ∀ p n, LoopNotice p n → P n)
    (hdone : ∀ n, n.kind = .disturbDone → P n) (hring : ∀ n, n.kind = .ringEnd → P n)
    (hmode : ∀ p n, n.kind = .modeDone → n.subject = byte (portNum p) → P n) (hhook : ∀ p n, hookOf p 5 n = true → P n)
    (hplain : P (unplannedNoteOf s.now 6 none 0).1) (h : Emits P a s.channels) : Emits P a (portsFallen s).channels := by
  refine fallbackPorts_emits hdone hmode hhook (endAllSessions_emits (fun p _ => hloop p) hdone hring _ ?_)
  rw [reserveFallback_channels]
  refine handAll_emits (fun x hx => ?_) (relaysDropped_emits hloop hdone h)
  rw [List.mem_singleton.mp hx]
  exact hplain

theorem portsFallen_faulted : Faulted [] s (portsFallen s) := by
  refine faulted_of_emits (P := fun n => n.kind ≠ .fault) portsFallen_clock portsFallen_unwatched ?_ fun _ h => h
  refine portsFallen_emits (fun p n hn => ?_) (fun n hn => by simp [hn]) (fun n hn => by simp [hn])
    (fun p n hn _ => by simp [hn]) (fun p n hn => by simp [hookOf_kind hn]) (by simp [unplannedNoteOf]) .refl
  rcases hn with ⟨hn, -⟩ | ⟨hn, -⟩ | ⟨hn, -⟩ <;> simp [hn]

theorem testEnded_faulted (hrelease : ∀ x, s.engine.test = some x → x.phase ≠ .release) :
    Faulted (abortFaults 7 s) s (abortTest .powerAbort (portsFallen s)) := by
  have htest := portsFallen_test (s := s)
  cases hx : s.engine.test with
  | none =>
    have hnone : (portsFallen s).engine.test = none := by simpa [hx] using htest
    rw [abortTest_power_of_none hnone, abortFaults, hx]
    exact portsFallen_faulted
  | some x =>
    obtain ⟨y, hy, hyx⟩ := Option.map_eq_some_iff.mp (htest.trans (by rw [hx]; rfl))
    have hp := hrelease x hx
    have hyp : y.phase ≠ .release := by rw [eq_of_forgetReadings hyx]; exact hp
    have hfault : abortFault .powerAbort y (portsFallen s) = abortFault .powerAbort x s := by
      have hnow : (portsFallen s).now = s.now := congrArg Clock.timebase portsFallen_clock
      rw [eq_of_forgetReadings hyx]
      simp [abortFault, raisedAt, hnow, phaseCode]
    have habort := abortTest_power_faulted hy hyp fun _ => portsFallen_session
    rw [hfault] at habort
    rw [show (7 : Nat) = abortCode .powerAbort from rfl, abortFaults_eq hx hp]
    simpa using portsFallen_faulted.trans habort

theorem endDsl_clock {x : DslOutcome} : (endDsl x s).clock = s.clock ∧ (endDsl x s).faults = s.faults ∧
    (endDsl x s).power = s.power := by
  cases hd : s.dsl with
  | none => simp [endDsl, hd]
  | some d =>
    rw [(endDsl_ended hd).rest]
    exact ⟨rfl, rfl, rfl⟩

theorem workEnded_faulted (hrelease : ∀ x, s.engine.test = some x → x.phase ≠ .release) :
    Faulted (abortFaults 7 s) s (workEnded s) := by
  have hend : Faulted [] (abortTest .powerAbort (portsFallen s)) (workEnded s) := by
    refine faulted_of_emits (P := fun n => n.kind ≠ .fault) endDsl_clock.1 (congrArg unwatched endDsl_clock.2.1)
      (endDsl_emits (fun n hn => by simp [hn]) (fun n hn _ => by simp [hn]) .refl) fun _ h => h
  simpa using (testEnded_faulted hrelease).trans hend

/-- The faults of a transition (R180). -/
def powerFaults (old new : PowerState) (s : State) : List Raised :=
  (if old = .mains then [raisedAt s .mainsLost none new.code 0] else []) ++
    if new = .reserve then [raisedAt s .batteryReserve none old.code (secondsSince s.uptime s.power.since)] else []

theorem raisePower_faulted {old new : PowerState} : Faulted (powerFaults old new s) s (raisePower old new s) := by
  have hraised (f : Raised) : (raiseFault f s).now = s.now ∧ (raiseFault f s).uptime = s.uptime ∧
      (raiseFault f s).power = s.power := by simp [State.now]
  unfold raisePower powerFaults
  dsimp only
  by_cases hm : old = .mains <;> by_cases hr : new = .reserve
  · simp only [hm, hr, if_true]
    have h := (raiseFault_faulted (raisedAt s .mainsLost none PowerState.reserve.code 0) s).trans
      (raiseFault_faulted (raisedAt (raiseFault (raisedAt s .mainsLost none PowerState.reserve.code 0) s) .batteryReserve
        none PowerState.mains.code (secondsSince (raiseFault (raisedAt s .mainsLost none PowerState.reserve.code 0) s).uptime
          (raiseFault (raisedAt s .mainsLost none PowerState.reserve.code 0) s).power.since)) _)
    simpa only [raisedAt, hraised] using h
  · simp only [hm, hr, if_true, if_false, List.append_nil]
    exact raiseFault_faulted _ _
  · simp only [hm, hr, if_true, if_false, List.nil_append]
    exact raiseFault_faulted _ _
  · simp only [hm, hr, if_false, List.append_nil]
    exact .refl

theorem workEnded_clock : (workEnded s).clock = s.clock ∧ (workEnded s).power = s.power := by
  have habort : (abortTest .powerAbort (portsFallen s)).clock = (portsFallen s).clock ∧
      (abortTest .powerAbort (portsFallen s)).power = (portsFallen s).power := by simp
  refine ⟨endDsl_clock.1.trans (habort.1.trans portsFallen_clock), endDsl_clock.2.2.trans (habort.2.trans ?_)⟩
  simp [portsFallen]

theorem reserve_faulted (hrelease : ∀ x, s.engine.test = some x → x.phase ≠ .release) :
    Faulted (abortFaults 7 s ++ powerFaults o .reserve s) s (raisePower o .reserve (workEnded s)) := by
  have hlist : powerFaults o .reserve (workEnded s) = powerFaults o .reserve s := by
    simp only [powerFaults, raisedAt, State.now, State.uptime, workEnded_clock]
  have h := (workEnded_faulted hrelease).trans (raisePower_faulted (old := o) (new := .reserve))
  rwa [hlist] at h

/-! ### The DSL switch (R40) -/

/-- The MODE_DONE notices of the DSL path. -/
def dslModes (n : Notice) : Bool := ofKind .modeDone n && decide (n.subject = 0)

theorem dslModes_kind {n : Notice} (h : dslModes n = true) : n.kind = .modeDone := by
  simp only [dslModes, ofKind, Bool.and_eq_true, decide_eq_true_eq] at h
  exact h.1

theorem endDsl_dsl {x : DslOutcome} : (endDsl x s).dsl = none := by
  cases hd : s.dsl with
  | none => simp [endDsl, hd]
  | some d => exact (endDsl_ended hd).dsl

/-- MODE_DONE, POWER, of a DSL switch in flight (R40, R46). -/
theorem reserve_dslDone : HandsTo dslModes (s.dsl.toList.map (fun w => dslDoneOf s.now w 2 .coupled)) s.channels
    (raisePower o .reserve (workEnded s)).channels := by
  have hkind : ∀ n, dslModes n = true → n.kind = .modeDone := fun n hn => dslModes_kind hn
  have hs : lasting dslModes := lasting_of_kind hkind rfl
  have hdone := avoids_of_kind hkind (j := .disturbDone) (by decide)
  have hlate : Late (fun n => dslModes n = false) := late_of_kind hkind (by decide)
  have hfallen : HandsTo dslModes [] s.channels (portsFallen s).channels := by
    refine (portsFallen_emits (P := fun n => dslModes n = false) (fun p n hn => loop_avoids_of_kind hkind (by decide) hn)
      hdone (avoids_of_kind hkind (by decide)) (fun p n _ hsub => ?_) (fun p n hn => ?_) (by simp [dslModes, ofKind,
        unplannedNoteOf]) .refl).handsTo hs fun _ h => h
    · have hne : byte (portNum p) ≠ 0 := by cases p <;> decide
      rw [dslModes, hsub, decide_eq_false hne, Bool.and_false]
    · exact avoids_of_kind hkind (j := .hook) (by decide) n (hookOf_kind hn)
  have habort : HandsTo dslModes [] (portsFallen s).channels (abortTest .powerAbort (portsFallen s)).channels :=
    (testEnded_emits hlate .refl).handsTo hs fun _ h => h
  have hraise : HandsTo dslModes [] (workEnded s).channels (raisePower o .reserve (workEnded s)).channels :=
    (raisePower_emits (P := fun n => dslModes n = false) hlate.fault .refl).handsTo hs fun _ h => h
  have hdsl : (abortTest .powerAbort (portsFallen s)).dsl = s.dsl := abortTest_power_relays.2.2.trans portsFallen_relays.2.2
  have hend : HandsTo dslModes (s.dsl.toList.map (fun w => dslDoneOf s.now w 2 .coupled))
      (abortTest .powerAbort (portsFallen s)).channels (workEnded s).channels := by
    rw [workEnded]
    cases hd : s.dsl with
    | none =>
      rw [hd] at hdsl
      rw [endDsl, hdsl]
      exact .refl
    | some w =>
      rw [hd] at hdsl
      have hnow : (abortTest .powerAbort (portsFallen s)).now = s.now := by
        rw [State.now, State.now, ← portsFallen_clock (s := s)]
        simp
      have hcoupled : (abortTest .powerAbort (portsFallen s)).relays.dsl = .coupled := by
        rw [abortTest_power_relays.1, portsFallen_relays.1]
        rfl
      have htold : (dslDone .power (abortTest .powerAbort (portsFallen s)), some w.requester) =
          dslDoneOf s.now w 2 .coupled := by
        rw [dslDone, hnow, hcoupled]
        rfl
      rw [(endDsl_ended hdsl).channels]
      refine HandsTo.nil_trans ((endSlot_emits (P := fun n => dslModes n = false) hdone .refl .dsl).handsTo hs fun _ h => h) ?_
      have hpost := postCompletion_handsTo (s := endSlot .dsl (abortTest .powerAbort (portsFallen s)))
        (n := dslDone .power (abortTest .powerAbort (portsFallen s))) (c := w.requester) hs rfl
      rwa [htold] at hpost
  exact hfallen.nil_trans (habort.nil_trans (hend.trans_nil hraise))

end

end Sys2Proof.Machine
end

