-- ==== Sys2Proof/Proofs/PowerInputs.lean ====
section
namespace Sys2Proof.Machine

/-! ## The power inputs (R126, R179, R180) -/

section
variable {c : Instr} {cut p q : Port} {pins : Pins} {old new : PowerState} {since : Option (BitVec 32)} {s t u : State}

/-! ### The move to BATTERY (R126) -/

theorem inBurst_iff : inBurst s p = true ↔ ∃ x, burstBegan s p = some x := by
  unfold inBurst burstBegan
  cases hx : session s p with
  | none => simp
  | some x => cases hstate : x.state <;> simp [hstate]

theorem batteryCut_of_one (h : ¬(inBurst s .p1 = true ∧ inBurst s .p2 = true)) : batteryCut s = s := by
  unfold batteryCut
  split
  · next t1 t2 h1 h2 => exact absurd ⟨inBurst_iff.mpr ⟨t1, h1⟩, inBurst_iff.mpr ⟨t2, h2⟩⟩ h
  · rfl

theorem batteryCut_of_two {t1 t2 : Time} (h1 : burstingSince s .p1 t1) (h2 : burstingSince s .p2 t2) :
    batteryCut s = cutBurst (if offset s.now t2 < offset s.now t1 then .p1 else .p2) s := by
  rw [batteryCut, burstBegan_iff.mpr h1, burstBegan_iff.mpr h2]
  dsimp only
  split <;> rfl

/-- The cut burst is one of the two or none. -/
theorem batteryCut_cases : batteryCut s = s ∧ ¬(inBurst s .p1 = true ∧ inBurst s .p2 = true) ∨
    ∃ cut, batteryCut s = cutBurst cut s := by
  by_cases h : inBurst s .p1 = true ∧ inBurst s .p2 = true
  · obtain ⟨⟨t1, h1⟩, ⟨t2, h2⟩⟩ := h.imp inBurst_iff.mp inBurst_iff.mp
    exact .inr ⟨_, batteryCut_of_two (burstBegan_iff.mp h1) (burstBegan_iff.mp h2)⟩
  · exact .inl ⟨batteryCut_of_one h, h⟩

theorem cutBurst_port_other (h : q ≠ p) : (cutBurst p s).port q = s.port q := by
  rw [cutBurst, updSession_port, endBurst_port_other h]

theorem cutBurst_masked : ((cutBurst p s).port p).sup.masked = false := by
  rw [cutBurst, updSession_port, endBurst_masked]

theorem cutBurst_generator : (cutBurst p s).ring.generator = s.ring.generator.set p false := by
  obtain ⟨due, hring⟩ := cutBurst_ring (p := p) (s := s)
  rw [hring]

theorem cutBurst_mode : ((cutBurst p s).port q).mode = (s.port q).mode := by
  rw [cutBurst, updSession_port]
  exact (congrArg PortRecord.mode endBurst_record :)

theorem batteryCut_mode : ((batteryCut s).port q).mode = (s.port q).mode := by
  obtain ⟨h, -⟩ | ⟨cut, h⟩ := batteryCut_cases (s := s)
  · rw [h]
  · rw [h, cutBurst_mode]

theorem batteryCut_isSome : (session (batteryCut s) q).isSome = (session s q).isSome := by
  obtain ⟨h, -⟩ | ⟨cut, h⟩ := batteryCut_cases (s := s)
  · rw [h]
  · rw [h]
    by_cases hq : q = cut
    · rw [hq, cutBurst_session, Option.isSome_map]
    · rw [cutBurst_session_other hq]

/-- On BATTERY one burst is on at most (R126). -/
theorem batteryCut_one : ¬(inBurst (batteryCut s) .p1 = true ∧ inBurst (batteryCut s) .p2 = true) := by
  obtain ⟨h, hone⟩ | ⟨cut, h⟩ := batteryCut_cases (s := s)
  · rwa [h]
  · rw [h]
    cases cut <;> simp [cutBurst_inBurst]

theorem batteryCut_emits {P : Notice → Prop} {a : PerChan ChannelRec} (hloop : ∀ p n, LoopNotice p n → P n)
    (h : Emits P a s.channels) : Emits P a (batteryCut s).channels := by
  obtain ⟨hcut, -⟩ | ⟨cut, hcut⟩ := batteryCut_cases (s := s)
  · rwa [hcut]
  · rw [hcut, cutBurst, updSession_channels]
    exact endBurst_emits (hloop cut) h _

theorem batteryCut_faulted : Faulted [] s (batteryCut s) := by
  have hsteady : steady (batteryCut s) = steady s := by
    obtain ⟨hcut, -⟩ | ⟨cut, hcut⟩ := batteryCut_cases (s := s)
    · rw [hcut]
    · rw [hcut, cutBurst]
      exact (rfl : steady (updSession cut _ (endBurst cut (.silent true) s)) = _).trans (endBurst_steady cut _)
  refine faulted_of_emits (P := fun n => n.kind ≠ .fault) (by simp) (congrArg Steady.faults hsteady)
    (batteryCut_emits (fun p n hn => ?_) .refl) fun _ h => h
  rcases hn with ⟨hn, -⟩ | ⟨hn, -⟩ | ⟨hn, -⟩ <;> simp [hn]

/-! ### The monitor takes its inputs (R179) -/

/-- A state with its power record as the monitor takes it. -/
def powered (pins : Pins) (new : PowerState) (since : Option (BitVec 32)) (s : State) : State :=
  { s with pins := pins, power := ⟨new, pins.mains, pins.reserve, since⟩ }

/-- The instant from which the part is on battery (R179). -/
def sinceAfter (new : PowerState) (s : State) : Option (BitVec 32) :=
  if new = s.power.state then s.power.since else if new = .mains then none
  else if s.power.state = .mains then some s.uptime else s.power.since

theorem exec_powerInput (hphase : s.phase = .loading ∨ s.phase = .running)
    (hc : (∃ a, c = .mainsInputChange a ∧ pins = { s.pins with mains := a }) ∨
      (∃ a, c = .reserveInputChange a ∧ pins = { s.pins with reserve := a })) :
    exec c s = .next (powerInputs { s with pins := pins }) := by
  have hawake (v : Pins) : awake { s with pins := v } = true := by
    rcases hphase with h | h <;> simp [awake, h]
  obtain ⟨a, rfl, rfl⟩ | ⟨a, rfl, rfl⟩ := hc
  · exact congrArg done (if_pos (hawake _))
  · exact congrArg done (if_pos (hawake _))

theorem powerInputs_of_stay (h : powerNext s.power.state pins.mains pins.reserve = s.power.state) :
    powerInputs { s with pins := pins } = powered pins s.power.state (sinceAfter s.power.state s) s := by
  rw [sinceAfter, if_pos rfl]
  exact if_pos h

theorem powerInputs_of_move (h : powerNext s.power.state pins.mains pins.reserve = new) (hn : new ≠ s.power.state) :
    powerInputs { s with pins := pins } = raisePower s.power.state new (tellPower s.power.state new
      (if new = .reserve then reserveFallback (powered pins new (sinceAfter new s) s)
        else powered pins new (sinceAfter new s) s)) := by
  subst h
  rw [sinceAfter, if_neg hn]
  exact if_neg hn

theorem raisePower_silent (hm : old ≠ .mains) (hr : new ≠ .reserve) : raisePower old new s = s := by
  simp [raisePower, hm, hr]

/-- A return to MAINS and a move from RESERVE to BATTERY change the power record alone (R180). -/
theorem powerInputs_of_quiet (h : powerNext s.power.state pins.mains pins.reserve = new)
    (hq : new = s.power.state ∨ new = .mains ∨ (s.power.state = .reserve ∧ new = .battery)) :
    powerInputs { s with pins := pins } = powered pins new (sinceAfter new s) s := by
  by_cases hn : new = s.power.state
  · subst hn
    exact powerInputs_of_stay h
  · rw [powerInputs_of_move h hn]
    obtain hq | hq | ⟨hq, hb⟩ := hq
    · exact absurd hq hn
    · have hold : s.power.state ≠ .mains := fun hm => hn (hq.trans hm.symm)
      have htell (u : State) : tellPower s.power.state .mains u = u := by
        cases s.power.state <;> rfl
      rw [hq, if_neg (by decide), htell, raisePower_silent hold (by decide)]
    · rw [hq, hb, if_neg (by decide), raisePower_silent (by decide) (by decide)]
      rfl

theorem powerInputs_of_battery (h : powerNext s.power.state pins.mains pins.reserve = .battery)
    (hm : s.power.state = .mains) : powerInputs { s with pins := pins } =
      raisePower .mains .battery (batteryCut (powered pins .battery (sinceAfter .battery s) s)) := by
  rw [powerInputs_of_move h (by rw [hm]; decide), hm, if_neg (by decide)]
  rfl

theorem powerInputs_of_reserve (h : powerNext s.power.state pins.mains pins.reserve = .reserve)
    (hr : s.power.state ≠ .reserve) : powerInputs { s with pins := pins } =
      raisePower s.power.state .reserve (workEnded (powered pins .reserve (sinceAfter .reserve s) s)) := by
  rw [powerInputs_of_move h hr.symm, if_pos rfl, tellPower_reserve]

/-! ### The three outcomes -/

theorem raisePower_session : session (raisePower old new s) p = session s p := by simp [session]

theorem raisePower_port : (raisePower old new s).port p = s.port p := by simp [State.port]

theorem eq_with_of_powered (h : t.pending = s.pending ∧ t.phase = s.phase ∧ t.clock = s.clock ∧
      t.pins = pins ∧ t.twoPorts = s.twoPorts ∧ t.gateway = s.gateway ∧ t.modem = s.modem ∧ t.store = s.store ∧
      t.occasion = s.occasion) :
    t = { s with
      pins := pins, channels := t.channels, lines := t.lines, relays := t.relays, settles := t.settles, dsl := t.dsl
      sched := t.sched, tracker := t.tracker, ports := t.ports, ring := t.ring, engine := t.engine, faults := t.faults
      power := t.power } := by
  cases s
  cases t
  simp_all

end

end Sys2Proof.Machine
end

