-- ==== Sys2Proof/Proofs/PowerTransitions.lean ====
section
namespace Sys2Proof.Machine

/-! ## The transitions of the power state (R103, R126, R179, R180) -/

section
variable {p : Port} {o : PowerState} {s : State}

/-! ### A quiet port's loop under the fallback (R106, R110) -/

theorem lifelineCond_dropped : lifelineCond (dropped s) p = lifelineCond s p :=
  lifelineCond_congr (by rw [dropped_port]) (by rw [dropped_port])

theorem dropped_now : (dropped s).now = s.now := by simp [State.now]

theorem reserve_hook_of_release (hb : inBurst s p = false) (h : endsBreak p (dropped s)) (hr : releasing p s) :
    HandsTo (hookOf p 1) [hookNoteOf s.now p false (lifelineCond s p) 1 (s.port p).sup.breakStart] s.channels
      (raisePower o .reserve (workEnded s)).channels := by
  have hhook := reserve_hook_loop (o := o) hb
  rwa [loopNotices_hook_of_release h (releasing_dropped.mpr hr), lifelineCond_dropped, dropped_now, dropped_port] at hhook

theorem reserve_hook_of_no_release (hb : inBurst s p = false) (h : ¬(endsBreak p (dropped s) ∧ releasing p s)) :
    HandsTo (hookOf p 1) [] s.channels (raisePower o .reserve (workEnded s)).channels := by
  have hhook := reserve_hook_loop (o := o) hb
  rwa [loopNotices_hook_of_no_release fun ⟨he, hr⟩ => h ⟨he, releasing_dropped.mp hr⟩] at hhook

/-- The loop as it stands ends a break with a flash (R110). -/
def flashing (p : Port) (s : State) : Prop := endsBreak p (dropped s) ∧ longBreak p s ∧ ¬releasing p s

theorem reserve_digit_of_flash (hb : inBurst s p = false) (h : flashing p s) (hlocal : lifelineCond s p = false) :
    HandsTo (digitsOf p) ((digitDone s.now p (s.port p)).2 ++
      [digitOf s.now p .flash 0 (digitDone s.now p (s.port p)).1]) s.channels
      (raisePower o .reserve (workEnded s)).channels := by
  obtain ⟨he, hl, hr⟩ := h
  have hdigit := reserve_digit (o := o) hb
  rwa [loopNotices_digit_of_flash he (longBreak_dropped.mpr hl) (fun h => hr (releasing_dropped.mp h))
    (lifelineCond_dropped.trans hlocal), dropped_now, dropped_port] at hdigit

theorem reserve_digit_of_no_flash (hb : inBurst s p = false) (h : ¬(flashing p s ∧ lifelineCond s p = false)) :
    HandsTo (digitsOf p) [] s.channels (raisePower o .reserve (workEnded s)).channels := by
  have hdigit := reserve_digit (o := o) hb
  have hno : ¬((endsBreak p (dropped s) ∧ longBreak p (dropped s) ∧ ¬releasing p (dropped s)) ∧
      lifelineCond (dropped s) p = false) := by
    rw [longBreak_dropped, releasing_dropped, lifelineCond_dropped]
    exact h
  rwa [loopNotices_digit_of_no_flash hno] at hdigit

/-! ### What stands after the transition into RESERVE -/

/-- The state after the transition into RESERVE but for notices and faults (R40, R46, R103, R129, R148). -/
structure Reserved (s t : State) : Prop where
  relays : t.relays = defaultRelays s.relays.lineBreak
  settles : t.settles = []
  dsl : t.dsl = none
  test : t.engine.test = none
  detached : t.engine.detached = none
  session : ∀ p, session t p = none
  fallen : ∀ p, Fallen (t.port p)
  supervisor : ∀ p, (s.port p).mode ≠ .lifeline → (t.port p).sup.frozen = none ∧
    (t.port p).sup.state = if portFitted s p = true ∧ s.pins.loopPass.get p = true ∧ s.relays.lineBreak = .closed
      then .seizing else .onHook
  slot : dslSlotted s → slotRec t .dsl = none

theorem endDsl_rest {x : DslOutcome} : endDsl x s = { s with
    channels := (endDsl x s).channels, dsl := (endDsl x s).dsl, sched := (endDsl x s).sched } := by
  cases hd : s.dsl with
  | none =>
    have hs : endDsl x s = s := by simp [endDsl, hd]
    rw [hs]
  | some d => exact (endDsl_ended hd).rest

theorem workEnded_reserved : Reserved s (raisePower o .reserve (workEnded s)) := by
  let f := abortTest .powerAbort (portsFallen s)
  have hover : TestOver (portsFallen s) f := abortTest_power_over fun _ => portsFallen_session
  have hg : workEnded s = _ := endDsl_rest (s := f)
  have hport (p : Port) : (raisePower o .reserve (workEnded s)).port p = f.port p := by
    rw [raisePower_port, hg]
    rfl
  have hring : (raisePower o .reserve (workEnded s)).ring = (portsFallen s).ring := by
    have h : (raisePower o .reserve (workEnded s)).ring = (workEnded s).ring := by simp
    rw [h, hg, ← hover.ring]
  have hengine : (raisePower o .reserve (workEnded s)).engine = f.engine := by
    have h : (raisePower o .reserve (workEnded s)).engine = (workEnded s).engine := by simp
    rw [h, hg]
  have hrelays : (raisePower o .reserve (workEnded s)).relays = f.relays ∧
      (raisePower o .reserve (workEnded s)).settles = f.settles := by
    have h : (raisePower o .reserve (workEnded s)).relays = (workEnded s).relays ∧
        (raisePower o .reserve (workEnded s)).settles = (workEnded s).settles := by simp
    rw [h.1, h.2, hg]
    exact ⟨rfl, rfl⟩
  have hdsl : (raisePower o .reserve (workEnded s)).dsl = none := by
    have h : (raisePower o .reserve (workEnded s)).dsl = (workEnded s).dsl := by simp
    rw [h]
    exact endDsl_dsl
  refine ⟨?_, ?_, hdsl, ?_, ?_, ?_, ?_, ?_, ?_⟩
  · rw [hrelays.1, abortTest_power_relays.1, portsFallen_relays.1]
  · rw [hrelays.2, abortTest_power_relays.2.1, portsFallen_relays.2.1]
  · rw [hengine, hover.test]
  · rw [hengine, hover.detached, portsFallen_detached]
  · exact fun p => (session_of_ring hring p).trans portsFallen_session
  · intro p
    rw [hport]
    exact hover.fallen p portsFallen_fallen
  · intro p hm
    have hsup := portsFallen_supervisor hm
    rw [hport, hover.supervisor p hsup.1]
    exact hsup
  · intro hslotted
    have hkeeps : Keeps (guarded s) (guarded (raisePower o .reserve (workEnded s))) := by
      rw [← tellPower_reserve (old := o), raisePower_guarded]
      exact tellPower_keeps (reserveFallback_keeps .refl) _ _
    have hslot := hkeeps.slotted hslotted
    simp only [guarded, hdsl, Option.isSome_none] at hslot
    simpa using hslot

/-! ### The loop, the faults and the bursts in the terms of the statement -/

/-- A long break that the loop ends is a flash or a release, by its length (R110). -/
theorem flash_iff {made : Prop} (h : made ↔ endsBreak p (dropped s)) :
    ((made ∧ longBreak p s) ∧ breakLength p s < (s.port p).sup.breakTiming.flashMax * 1000) ↔ flashing p s := by
  rw [h, flashing, releasing, and_assoc]
  refine and_congr_right' (and_congr_right fun hl => ?_)
  rw [not_and, Nat.not_le]
  exact ⟨fun hs _ => hs, fun hs => hs hl⟩

theorem release_iff {made : Prop} (h : made ↔ endsBreak p (dropped s)) :
    ((made ∧ longBreak p s) ∧ ¬((made ∧ longBreak p s) ∧
      breakLength p s < (s.port p).sup.breakTiming.flashMax * 1000)) ↔ endsBreak p (dropped s) ∧ releasing p s := by
  rw [flash_iff h, h, flashing, and_assoc]
  refine and_congr_right fun he => ⟨fun ⟨hl, hno⟩ => ?_, fun hr => ⟨hr.1, fun hf => hf.2.2 hr⟩⟩
  by_contra hr
  exact hno ⟨he, hl, hr⟩

/-- What the transition into RESERVE hands of a port where no burst was on (R103, R106, R110). -/
theorem reserve_quietPort {released flash : Prop} (hb : inBurst s p = false)
    (hr : released ↔ endsBreak p (dropped s) ∧ releasing p s) (hf : flash ↔ flashing p s) [Decidable released]
    [Decidable (flash ∧ lifelineCond s p = false)] [Decidable ((s.port p).mode ≠ .lifeline ∧
      inCall ((s.port p).sup.frozen.getD (s.port p).sup.state) = true ∧ ¬released)] :
    let told (sort : Notice → Bool) (l : List Handing) : Prop :=
      HandsTo sort l s.channels (raisePower o .reserve (workEnded s)).channels
    told (hookOf p 1) (if released then
      [hookNoteOf s.now p false (lifelineCond s p) 1 (s.port p).sup.breakStart] else []) ∧
    told (digitsOf p) (if flash ∧ lifelineCond s p = false then (digitDone s.now p (s.port p)).2 ++
      [digitOf s.now p .flash 0 (digitDone s.now p (s.port p)).1] else []) ∧
    told (hookOf p 5) (if (s.port p).mode ≠ .lifeline ∧
      inCall ((s.port p).sup.frozen.getD (s.port p).sup.state) = true ∧ ¬released then
      [hookNoteOf s.now p false true 5 0] else []) := by
  refine ⟨?_, ?_, ?_⟩
  · split
    · next h => exact reserve_hook_of_release hb (hr.mp h).1 (hr.mp h).2
    · next h => exact reserve_hook_of_no_release hb fun hc => h (hr.mpr hc)
  · split
    · next h => exact reserve_digit_of_flash hb (hf.mp h.1) h.2
    · next h => exact reserve_digit_of_no_flash hb fun ⟨hc, hl⟩ => h ⟨hf.mpr hc, hl⟩
  · have hpower := reserve_hook_power (s := s) (p := p) (o := o)
    split
    · next h => rwa [ended_hook_of_call hb (by rwa [hr] at h)] at hpower
    · next h => rwa [ended_hook_of_no_call hb (by rwa [hr] at h)] at hpower

theorem raisedAt_sub {x : State} {c : FaultClass} {source : Option Nat} {d1 : Nat} {a b : BitVec 32} :
    raisedAt x c source d1 (a - b).toNat = ⟨c, source, some (BitVec.ofNat 32 d1), some (a - b), x.now⟩ := by
  rw [raisedAt, BitVec.ofNat_toNat, BitVec.setWidth_eq]

theorem powerFaults_reserve (ho : o ≠ .reserve) : powerFaults o .reserve s =
    (if o = .mains then [⟨.mainsLost, none, some 2, some 0, s.now⟩] else []) ++
      [⟨.batteryReserve, none, some (if o = .mains then 0 else 1), some (s.uptime - s.power.since.getD s.uptime),
        s.now⟩] := by
  rw [powerFaults, if_pos rfl, secondsSince, raisedAt_sub]
  cases o with
  | mains => rfl
  | battery => rfl
  | reserve => exact absurd rfl ho

theorem abortFaults_length {n : Nat} : (abortFaults n s).length ≤ 1 := by
  unfold abortFaults
  (repeat' split) <;> simp

theorem battery_faulted : Faulted [⟨.mainsLost, none, some 1, some 0, s.now⟩] s
    (raisePower .mains .battery (batteryCut s)) := by
  have hlist : powerFaults .mains .battery (batteryCut s) = [⟨.mainsLost, none, some 1, some 0, s.now⟩] := by
    have hnow : (batteryCut s).now = s.now := congrArg Clock.timebase batteryCut_faulted.clock
    simp [powerFaults, raisedAt, hnow, PowerState.code]
  have h := batteryCut_faulted.trans (raisePower_faulted (old := .mains) (new := .battery) (s := batteryCut s))
  rwa [hlist] at h

/-- The power record has no part in the faults. -/
theorem raises_of_powered {l : List Raised} {pins : Pins} {new : PowerState} {since : Option (BitVec 32)} {t : State}
    (h : Faulted l (powered pins new since s) t) (hl : l.length ≤ 16) : raises l s t :=
  Faulted.raises (s := s) ⟨h.clock, h.faults, h.notices⟩ hl

theorem battery_unplanned : HandsTo (unplannedOf 6) [] s.channels (raisePower .mains .battery (batteryCut s)).channels := by
  have hs : lasting (unplannedOf 6) := lasting_of_kind (k := .unplanned)
    (fun n hn => by simp only [unplannedOf, decide_eq_true_eq] at hn; exact hn.1) rfl
  have hsilent : Emits (fun n => unplannedOf 6 n = false) s.channels
      (raisePower .mains .battery (batteryCut s)).channels :=
    raisePower_emits (fun n hn => by simp [unplannedOf, hn])
      (batteryCut_emits (fun _ _ hn => loop_avoids_fallback hn) .refl)
  exact hsilent.handsTo hs fun _ h => h

/-- Of two bursts the one begun later is cut, or port 2's of two begun together (R126). -/
theorem battery_cut {t1 t2 : Time} (h1 : burstingSince s .p1 t1) (h2 : burstingSince s .p2 t2) :
    let cut : Port := if offset s.now t2 < offset s.now t1 then .p1 else .p2
    let t := raisePower .mains .battery (batteryCut s)
    session t cut = (session s cut).map cutSession ∧ session t (otherPort cut) = session s (otherPort cut) ∧
      t.port (otherPort cut) = s.port (otherPort cut) ∧ t.ring.generator = s.ring.generator.set cut false ∧
      (t.port cut).sup.masked = false := by
  intro cut t
  have hcut : batteryCut s = cutBurst cut s := batteryCut_of_two h1 h2
  have hring : t.ring = (batteryCut s).ring := by simp [t]
  have hport (q : Port) : t.port q = (batteryCut s).port q := raisePower_port
  rw [session_of_ring hring, session_of_ring hring, hport, hport, hring, hcut]
  exact ⟨cutBurst_session, cutBurst_session_other (otherPort_ne cut), cutBurst_port_other (otherPort_ne cut),
    cutBurst_generator, cutBurst_masked⟩

theorem reserve_power : (raisePower o .reserve (workEnded s)).power = s.power := by
  have h : (raisePower o .reserve (workEnded s)).power = (workEnded s).power := by simp
  exact h.trans workEnded_clock.2

end

/-- Settles O50: a move to RESERVE is followed phase by phase, and each notice is told by the phase that hands it. -/
theorem powerInputsMoveTheState : Obligations.PowerInputsMoveTheState := by
  intro c pins s hphase hc m v new since
  have hnew : powerNext s.power.state pins.mains pins.reserve = new := by
    simp only [new, m, v]
    generalize s.power.state = x, pins.mains = y, pins.reserve = z
    cases x <;> cases y <;> cases z <;> rfl
  have hsince : since = sinceAfter new s := rfl
  have hpins : pins.loopPass = s.pins.loopPass := by
    obtain ⟨a, -, rfl⟩ | ⟨a, -, rfl⟩ := hc <;> rfl
  have hexec := exec_powerInput hphase hc
  clear_value since new
  subst hsince
  refine ⟨fun hq => ?_, fun hm hb => ?_, fun hr hn => ?_⟩
  · rw [hexec, powerInputs_of_quiet hnew hq]
    rfl
  · subst hb
    let u := powered pins .battery (sinceAfter .battery s) s
    let t := raisePower .mains .battery (batteryCut u)
    have hports : t.ports = (batteryCut u).ports ∧ t.ring = (batteryCut u).ring := by simp [t]
    refine ⟨t, by rw [hexec, powerInputs_of_battery hnew hm], by simp [t, u, powered, m, v], by simp [t, u, powered], ?_,
      fun t1 t2 h1 h2 => battery_cut (s := u) h1 h2, fun hone => ?_, fun q => ⟨?_, ?_⟩,
      raises_of_powered (battery_faulted (s := u)) (by simp), HandsTo.hands (s := s) (battery_unplanned (s := u)), ?_⟩
    · simp only [inBurst, t, raisePower_session]
      exact batteryCut_one
    · rw [hports.1, hports.2, batteryCut_of_one (s := u) hone]
      exact ⟨rfl, rfl⟩
    · rw [raisePower_session, batteryCut_isSome]
      rfl
    · rw [raisePower_port, batteryCut_mode]
      rfl
    · obtain ⟨hlines, hrelays, hsettles, hdsl⟩ : t.lines = s.lines ∧ t.relays = s.relays ∧ t.settles = s.settles ∧
          t.dsl = s.dsl := by simp [t, u, powered]
      have h := eq_with_of_powered (s := s) (t := t) (pins := pins) (by simp [t, u, powered])
      rwa [hlines, hrelays, hsettles, hdsl] at h
  · subst hn
    let u := powered pins .reserve (sinceAfter .reserve s) s
    let t := raisePower s.power.state .reserve (workEnded u)
    have ht : Reserved u t := workEnded_reserved
    refine ⟨t, by rw [hexec, powerInputs_of_reserve hnew hr], reserve_power, ht.relays, ht.settles, ht.dsl, ht.test,
      ht.detached, fun q => ⟨ht.session q, (ht.fallen q).mode, (ht.fallen q).switch, (ht.fallen q).denial,
        (ht.fallen q).overload⟩, HandsTo.hands (s := s) (reserve_unplanned (s := u)),
      HandsTo.hands (s := s) (reserve_ringEnd (s := u)), fun q => HandsTo.hands (s := s) (reserve_modeDone (s := u)),
      fun q hb => ?_, ht.slot, HandsTo.hands (s := s) (reserve_dslDone (s := u)), fun hrelease => ?_, ?_⟩
    · have hmade : endsBreak q (dropped u) ↔ portFitted s q = true ∧ (s.port q).sup.frozen = none ∧
          (s.port q).sup.masked = false ∧ (s.port q).sup.loop = false ∧ (s.port q).sup.state = .break_ ∧
          s.pins.loopPass.get q = true ∧ s.relays.lineBreak = .closed := by
        rw [← hpins]
        exact endsBreak_dropped (s := u)
      intro x b made long flash released digit
      obtain ⟨hloop, hdigit, hpower⟩ := reserve_quietPort (s := u) (o := s.power.state) (released := released)
        (flash := flash) hb (release_iff hmade.symm) (flash_iff hmade.symm)
      refine ⟨HandsTo.hands (s := s) hloop, HandsTo.hands (s := s) hdigit, HandsTo.hands (s := s) hpower, ?_⟩
      rw [← hpins]
      exact ht.supervisor q
    · have h := reserve_faulted (s := u) (o := s.power.state) hrelease
      have hshort := abortFaults_length (n := 7) (s := s)
      rw [powerFaults_reserve hr] at h
      rw [List.append_assoc]
      refine raises_of_powered h ?_
      split <;> simp <;> omega
    · exact eq_with_of_powered (by simp [t, ← tellPower_reserve (old := s.power.state), u, powered])

end Sys2Proof.Machine
end

