-- ==== Sys2Proof/Proofs/SettingRequests.lean ====
section
namespace Sys2Proof.Machine

/-! ## Settings and tables (R56, R121, R133, R137, R152, R153, R157, R171) -/

section
variable {s : State}

theorem softClassOf_of_num {b : Byte} {c : FaultClass} (h : c.num = b.toNat) (hsoft : 3 ≤ c.num) :
    softClassOf b = some c := by
  unfold softClassOf
  rw [← h]
  cases c with
  | surge => simp [FaultClass.num] at hsoft
  | hazardVoltage => simp [FaultClass.num] at hsoft
  | lockout => simp [FaultClass.num] at hsoft
  | _ => rfl

theorem softClassOf_of_outside {b : Byte} (h : b.toNat < 3 ∨ 13 < b.toNat) : softClassOf b = none := by
  unfold softClassOf
  split
  case h_12 => rfl
  all_goals omega

/-- Setting a soft class's level sets that level alone (R157). -/
theorem levelOf_setLevel {l : ClassLevels} {c : FaultClass} {n : Nat} (hsoft : 3 ≤ c.num) (d : FaultClass) :
    levelOf (setLevel l c n) d = if d = c then n else levelOf l d := by
  cases c with
  | surge => simp [FaultClass.num] at hsoft
  | hazardVoltage => simp [FaultClass.num] at hsoft
  | lockout => simp [FaultClass.num] at hsoft
  | _ => cases d <;> rfl

theorem policyOf_of_le {b : Byte} (h : b.toNat ≤ 1) :
    policyOf b = some (if b.toNat = 0 then .keepNewest else .keepFirst) := by
  unfold policyOf
  obtain h0 | h1 : b.toNat = 0 ∨ b.toNat = 1 := by omega
  · rw [h0]
    rfl
  · rw [h1]
    rfl

theorem policyOf_of_lt {b : Byte} (h : 1 < b.toNat) : policyOf b = none := by
  unfold policyOf
  split
  case h_3 => rfl
  all_goals omega

theorem answerSetClassLevel_of_outside {r : Req} {b v : Byte} (hlevel : effLevel r ≤ 1)
    (h : b.toNat < 3 ∨ 13 < b.toNat) : answerSetClassLevel r b v s = refuse .badRequest s := by
  rw [answerSetClassLevel, if_neg (by omega), softClassOf_of_outside h]

theorem answerSetClassLevel_of_num {r : Req} {b v : Byte} {c : FaultClass} (hlevel : effLevel r ≤ 1)
    (h : c.num = b.toNat) (hsoft : 3 ≤ c.num) :
    answerSetClassLevel r b v s = (s.updFaults (fun u => { u with levels := setLevel u.levels c (min v.toNat 7) }),
      ⟨.ok, [b, byte (min v.toNat 7), byte (levelOf s.faults.levels c)]⟩) := by
  rw [answerSetClassLevel, if_neg (by omega), softClassOf_of_num h hsoft]

theorem answerSetLogPolicy_of_le {r : Req} {b : Byte} (hlevel : effLevel r ≤ 1) (h : b.toNat ≤ 1) :
    answerSetLogPolicy r b s = (s.updFaults (fun u =>
      { u with policy := if b.toNat = 0 then .keepNewest else .keepFirst }), ⟨.ok, [b]⟩) := by
  rw [answerSetLogPolicy, if_neg (by omega), policyOf_of_le h]

theorem answerSetLogPolicy_of_lt {r : Req} {b : Byte} (hlevel : effLevel r ≤ 1) (h : 1 < b.toNat) :
    answerSetLogPolicy r b s = refuse .badRequest s := by
  rw [answerSetLogPolicy, if_neg (by omega), policyOf_of_lt h]

theorem answerInstallGate_of_bad {r : Req} {g v k t : Byte} {limits : List LimitArg} (hlevel : effLevel r = 0)
    (h : 3 < g.toNat ∨ 3 < v.toNat ∨ orderOf k t limits = none) :
    answerInstallGate r g v k t limits s = refuse .badRequest s := by
  rw [answerInstallGate, if_neg (by omega)]
  split
  · rfl
  · next hrange =>
    obtain horder : orderOf k t limits = none := by
      obtain h | h | h := h
      · exact absurd (.inl h) hrange
      · exact absurd (.inr h) hrange
      · exact h
    rw [horder]

theorem answerInstallGate_of_order {r : Req} {g v k t : Byte} {limits : List LimitArg} {kind : TestKind}
    {target : Target} {l : List Limit} (hlevel : effLevel r = 0) (hg : g.toNat ≤ 3) (hv : v.toNat ≤ 3)
    (horder : orderOf k t limits = some (kind, target, l)) :
    answerInstallGate r g v k t limits s =
      if targetUnfitted s target then refuse .notFitted s
      else (setGate g.toNat (some ⟨v.toNat, kind, target, l⟩) s,
        ⟨.ok, [g, flagByte (s.engine.gates.get g.toNat).isSome]⟩) := by
  rw [answerInstallGate, if_neg (by omega), if_neg (by omega), horder]

end

/-- Settles O21. -/
theorem settingsAndTablesTakeTheirValues : Obligations.SettingsAndTablesTakeTheirValues := by
  refine ⟨fun r x b v s => ⟨fun ht => ?setLead, fun ht => ?setCable, fun ht => ?setRingCount, fun ht => ?setClassLevel,
    fun ht => ?setLogPolicy⟩, fun r e n steps s ht => ?setCadence, fun r g v k t limits s ht => ?installGate,
    fun r g s ht => ?removeGate⟩
  case setLead =>
    dsimp only
    by_cases h : 1 < effLevel r
    · rw [if_pos h, exec_of_answer ht rfl (if_pos h)]
    · rw [if_neg h, exec_of_answer ht rfl (if_neg h)]
      rfl
  case setCable =>
    dsimp only
    by_cases h : 1 < effLevel r
    · rw [if_pos h, exec_of_answer ht rfl (if_pos h)]
    · rw [if_neg h, exec_of_answer ht rfl (if_neg h)]
      rfl
  case setRingCount =>
    dsimp only
    by_cases h : 1 < effLevel r
    · rw [if_pos h, exec_of_answer ht rfl (if_pos h)]
    · rw [if_neg h, exec_of_answer ht rfl (if_neg h)]
      rfl
  case setClassLevel =>
    refine ⟨fun h => exec_of_answer ht rfl (if_pos h), fun h => ⟨fun hb =>
      exec_of_answer ht rfl (answerSetClassLevel_of_outside h hb), fun c hc hsoft => ?_⟩⟩
    refine ⟨setLevel s.faults.levels c (min v.toNat 7), ?_, levelOf_setLevel hsoft⟩
    rw [exec_of_answer ht rfl (answerSetClassLevel_of_num h hc hsoft)]
    simp [State.updFaults, byte]
  case setLogPolicy =>
    exact ⟨fun h => exec_of_answer ht rfl (if_pos h), fun h =>
      ⟨fun hb => exec_of_answer ht rfl (answerSetLogPolicy_of_lt h hb),
        fun hb => exec_of_answer ht rfl (answerSetLogPolicy_of_le h hb)⟩⟩
  case setCadence =>
    refine ⟨fun h => exec_of_answer ht rfl (if_pos h), fun h => ⟨fun hbad =>
      exec_of_answer ht rfl ((if_neg (by omega)).trans (if_pos hbad)), fun he hn hlen => ?_⟩⟩
    exact exec_of_answer ht rfl ((if_neg (by omega)).trans (if_neg (by omega)))
  case installGate =>
    refine ⟨fun h => exec_of_answer ht rfl (if_pos h), fun h => ⟨fun hbad =>
      exec_of_answer ht rfl (answerInstallGate_of_bad h hbad), fun kind target l hg hv horder => ⟨fun hun => ?_,
        fun hfit => ?_⟩⟩⟩
    · refine exec_of_answer ht rfl ((answerInstallGate_of_order h hg hv horder).trans (if_pos ?_))
      exact targetUnfitted_iff.2 (by simpa using hun)
    · rw [exec_of_answer ht rfl ((answerInstallGate_of_order h hg hv horder).trans (if_neg ?_))]
      · simp [setGate, State.updEngine, flagByte]
      · rw [targetUnfitted_iff]
        simpa using hfit
  case removeGate =>
    refine ⟨fun h => exec_of_answer ht rfl (if_pos h), fun h => ⟨fun hbad =>
      exec_of_answer ht rfl ((if_neg (by omega)).trans (if_pos hbad)), fun hg => ?_⟩⟩
    rw [exec_of_answer ht rfl ((if_neg (by omega)).trans (if_neg (by omega)))]
    simp [setGate, State.updEngine, flagByte]

end Sys2Proof.Machine
end

