-- ==== Sys2Proof/Proofs/DisturbanceRecords.lean ====
section
namespace Sys2Proof.Machine

/-! ## DEFER (R52) -/

section
variable {r : Req} {id extra : Byte} {j : SlotId} {d : Disturbance} {s : State}

theorem PerSlot.set_get_self {α : Type} (x : PerSlot α) (i : SlotId) : x.set i (x.get i) = x := by
  cases i <;> rfl

/-- A record put back into its own slot leaves the state. -/
theorem setSlot_of_slotRec {x : Option Disturbance} (h : slotRec s j = x) : setSlot j x s = s := by
  subst h
  simp only [setSlot, slotRec, State.updSched, PerSlot.set_get_self]

theorem deferRecord_of_deferrable {due : Time} {extra : Nat} (h : d.state = .notified due) (hd : d.deferrable = true) :
    deferRecord extra d = ({ d with state := .deferred (due + ms extra) }, true) := by
  simp [deferRecord, h, hd]

theorem deferRecord_of_not_deferrable {due : Time} {extra : Nat} (h : d.state = .notified due)
    (hd : d.deferrable = false) : deferRecord extra d = (d, false) := by
  simp [deferRecord, h, hd]

theorem deferRecord_of_deferred {due : Time} {extra : Nat} (h : d.state = .deferred due) :
    deferRecord extra d = (d, false) := by
  simp [deferRecord, h]

theorem deferRecord_of_active {since : Time} {extra : Nat} (h : d.state = .active since) :
    deferRecord extra d = (d, false) := by
  simp [deferRecord, h]

theorem answerDefer_of_unknown (hr : r.channel = .modem) (h : slotWithId s id = none) :
    answerDefer r id extra s = refuse .unknownDisturbance s := by
  simp [answerDefer, hr, h]

theorem answerDefer_of_record (hr : r.channel = .modem) (hslot : slotWithId s id = some j) (hd : slotRec s j = some d) :
    answerDefer r id extra s =
      (setSlot j (some (deferRecord (extraUsed extra) d).1) s,
        ⟨.ok, [id, flagByte (deferRecord (extraUsed extra) d).2, byte (extraUsed extra)] ++
          half16 (msLeft s.now (leadDeadline (deferRecord (extraUsed extra) d).1))⟩) := by
  simp [answerDefer, hr, hslot, hd]

/-- A DEFER that moves nothing answers moved 0 and what the record's deadline leaves. -/
theorem answerDefer_of_unmoved (hr : r.channel = .modem) (hslot : slotWithId s id = some j)
    (hd : slotRec s j = some d) (h : deferRecord (extraUsed extra) d = (d, false)) :
    answerDefer r id extra s =
      (s, ⟨.ok, [id, 0, byte (extraUsed extra)] ++ half16 (msLeft s.now (leadDeadline d))⟩) := by
  rw [answerDefer_of_record hr hslot hd, h, setSlot_of_slotRec hd]
  rfl

end

/-- Settles O22. -/
theorem deferMovesTheDeadlineOnce : Obligations.DeferMovesTheDeadlineOnce := by
  intro r id extra s ht
  refine ⟨fun hr => exec_of_answer ht rfl (if_pos hr), fun hr => ⟨fun hnone => ?_, fun j d hd hid hone => ?_⟩⟩
  · exact exec_of_answer ht rfl (answerDefer_of_unknown hr (slotWithId_eq_none (by simpa using hnone)))
  · have hd' : slotRec (frameIn (.defer r id extra) s) j = some d := by simpa using hd
    have hslot : slotWithId (frameIn (.defer r id extra) s) id = some j := find?_slot hd' hid (by simpa using hone)
    have unmoved (h : deferRecord (extraUsed extra) d = (d, false)) :=
      exec_of_answer ht rfl (answerDefer_of_unmoved hr hslot hd' h)
    simp only [frameIn_now] at unmoved
    refine ⟨fun due hstate hdef => ?_, fun due hstate hdef => ?_, fun due hstate => ?_, fun t hstate => ?_⟩
    · rw [exec_of_answer ht rfl (answerDefer_of_record hr hslot hd'), deferRecord_of_deferrable hstate hdef, frameIn_now]
      rfl
    · rw [unmoved (deferRecord_of_not_deferrable hstate hdef), leadDeadline, hstate]
      rfl
    · rw [unmoved (deferRecord_of_deferred hstate), leadDeadline, hstate]
      rfl
    · rw [unmoved (deferRecord_of_active hstate), leadDeadline, hstate]
      rfl

/-! ## The opening of a slot (R48 to R50) -/

section
variable {id : Byte} {j : SlotId} {d : Disturbance} {s : State}

theorem idTaken_iff : idTaken s id = true ↔ ∃ j d, slotRec s j = some d ∧ d.id = id := by
  simp only [idTaken, List.any_eq_true, decide_eq_true_eq, Option.map_eq_some_iff]
  constructor
  · rintro ⟨j, -, d, hd, hid⟩
    exact ⟨j, d, hd, hid⟩
  · rintro ⟨j, d, hd, hid⟩
    exact ⟨j, by cases j <;> simp [allSlots], d, hd, hid⟩

/-- The search ends at the first id that is free, if it comes to one within its tries. -/
theorem freeId_eq (s : State) (n : Nat) (id : Byte) : ∃ k ≤ n, freeId s id n = id + BitVec.ofNat 8 k ∧
    (∀ i < k, idTaken s (id + BitVec.ofNat 8 i) = true) ∧ (k < n → idTaken s (id + BitVec.ofNat 8 k) = false) := by
  induction n generalizing id with
  | zero => exact ⟨0, le_rfl, by simp [freeId], by simp, by simp⟩
  | succ n ih =>
    cases hid : idTaken s id with
    | false => exact ⟨0, by omega, by simp [freeId, hid], by simp, fun _ => by simpa using hid⟩
    | true =>
      have hnext (i : Nat) : id + 1 + BitVec.ofNat 8 i = id + BitVec.ofNat 8 (i + 1) := by
        rw [BitVec.add_assoc]
        congr 1
        apply BitVec.eq_of_toNat_eq
        simp
        omega
      obtain ⟨k, hk, heq, htaken, hfree⟩ := ih (id + 1)
      refine ⟨k + 1, by omega, by rw [freeId, if_pos hid, heq, hnext], fun i hi => ?_, fun hlt => ?_⟩
      · cases i with
        | zero => simpa using hid
        | succ i => rw [← hnext]; exact htaken i (by omega)
      · rw [← hnext]
        exact hfree (by omega)

/-- With a slot empty, the other three cannot hold four ids that follow one another. -/
theorem exists_free_of_empty (h : slotRec s j = none) (id : Byte) :
    ¬∀ i < 4, idTaken s (id + BitVec.ofNat 8 i) = true := by
  intro htaken
  obtain ⟨j0, d0, hd0, hid0⟩ := idTaken_iff.1 (htaken 0 (by omega))
  obtain ⟨j1, d1, hd1, hid1⟩ := idTaken_iff.1 (htaken 1 (by omega))
  obtain ⟨j2, d2, hd2, hid2⟩ := idTaken_iff.1 (htaken 2 (by omega))
  obtain ⟨j3, d3, hd3, hid3⟩ := idTaken_iff.1 (htaken 3 (by omega))
  have apart {a b : SlotId} {x y : Disturbance} (ha : slotRec s a = some x) (hb : slotRec s b = some y)
      (hne : x.id ≠ y.id) : a ≠ b := by
    rintro rfl
    rw [ha] at hb
    exact hne (congrArg _ (Option.some.inj hb))
  have occupied {a : SlotId} {x : Disturbance} (ha : slotRec s a = some x) : j ≠ a := by
    rintro rfl
    simp [h] at ha
  have hnodup : [j, j0, j1, j2, j3].Nodup := by
    simp only [List.nodup_cons, List.mem_cons, List.not_mem_nil, or_false, not_or, not_false_iff, List.nodup_nil,
      and_true]
    refine ⟨⟨occupied hd0, occupied hd1, occupied hd2, occupied hd3⟩,
      ⟨apart hd0 hd1 ?_, apart hd0 hd2 ?_, apart hd0 hd3 ?_⟩, ⟨apart hd1 hd2 ?_, apart hd1 hd3 ?_⟩, apart hd2 hd3 ?_⟩
    all_goals simp only [hid0, hid1, hid2, hid3, ne_eq, BitVec.add_right_inj]; decide
  have hsub : [j, j0, j1, j2, j3] ⊆ allSlots := fun a _ => by cases a <;> simp [allSlots]
  have hlen := (List.subperm_of_subset hnodup hsub).length_le
  simp [allSlots] at hlen

/-- Where a slot is empty, the id given is the first from next id on that no slot holds (R48). -/
theorem freeId_of_empty (h : slotRec s j = none) : ∃ n ≤ 3, freeId s s.sched.nextId 4 = s.sched.nextId + BitVec.ofNat 8 n ∧
    (∀ k < n, idTaken s (s.sched.nextId + BitVec.ofNat 8 k) = true) ∧ idTaken s (freeId s s.sched.nextId 4) = false := by
  obtain ⟨n, hn, heq, htaken, hfree⟩ := freeId_eq s 4 s.sched.nextId
  have hlt : n < 4 := by
    by_contra hnot
    obtain rfl : n = 4 := by omega
    exact exists_free_of_empty h _ htaken
  exact ⟨n, by omega, heq, htaken, heq ▸ hfree hlt⟩

/-- DISTURB of a record, byte by byte (R50). -/
theorem disturbNotice_eq (now : Time) (lead : Nat) (d : Disturbance) : disturbNotice now lead d =
    ⟨.disturb, 9, d.id,
      BitVec.ofNat 8 ((match d.work with | .ringSession => 1 | .modeSwitch => 2 | .dslSwitch => 3 | .testConnect => 4) +
        (match d.port with | none => 0 | some .p1 => 16 | some .p2 => 32) +
        (if d.duration = none then 64 else 0) + (if d.deferrable then 128 else 0)), now,
      BitVec.ofNat 16 (min 65535 (d.duration.getD 0)) ++ BitVec.ofNat 16 lead⟩ := by
  have hwork : d.work.code =
      (match d.work with | .ringSession => 1 | .modeSwitch => 2 | .dslSwitch => 3 | .testConnect => 4) := by
    cases d.work <;> rfl
  have hport : 16 * optPort d.port = (match d.port with | none => 0 | some .p1 => 16 | some .p2 => 32) := by
    obtain _ | p := d.port
    · rfl
    · cases p <;> rfl
  rw [disturbNotice, hwork, hport]
  simp [notice, Kind.level, byte, bitOf, durationField, saturate]

/-- DISTURB_DONE of a record, byte by byte (R54). -/
theorem doneNotice_eq (now : Time) (why : EndReason) (d : Disturbance) : doneNotice now why d =
    ⟨.disturbDone, 5, d.id, byte why.code, now,
      BitVec.ofNat 16 (activeMs now d) ++ (BitVec.ofNat 8 (match d.port with | none => 0 | some .p1 => 1 | some .p2 => 2) ++
        BitVec.ofNat 8
          (match d.work with | .ringSession => 1 | .modeSwitch => 2 | .dslSwitch => 3 | .testConnect => 4))⟩ := by
  have hwork : d.work.code =
      (match d.work with | .ringSession => 1 | .modeSwitch => 2 | .dslSwitch => 3 | .testConnect => 4) := by
    cases d.work <;> rfl
  have hport : optPort d.port = (match d.port with | none => 0 | some .p1 => 1 | some .p2 => 2) := by
    obtain _ | p := d.port
    · rfl
    · cases p <;> rfl
  rw [doneNotice, hwork, hport]
  rfl

/-- What a notice leaves in the channels depends on the channels alone. -/
theorem postSubscribed_channels_congr {s t : State} (h : s.channels = t.channels) (n : Notice) :
    (postSubscribed n s).channels = (postSubscribed n t).channels :=
  handAll_channels_congr h [(n, none)]

/-- A notice touches the channels alone, and what it leaves there depends on them alone. -/
theorem postSubscribed_of_channels {s u : State} (h : u.channels = s.channels) (n : Notice) :
    postSubscribed n u = { u with channels := (postSubscribed n s).channels } := by
  rw [← postSubscribed_channels_congr h n]
  exact post_eq _ _ _

/-- A slot opened: its record, the next id and the DISTURB handed, and nothing else (R48 to R50). -/
theorem openSlot_eq {work : WorkKind} {p : Option Port} {duration : Option Nat} {deferrable : Bool}
    (h : slotRec s j = none) :
    openSlot j work p duration deferrable s = some ({ s with
      sched := { s.sched with
        nextId := freeId s s.sched.nextId 4 + 1
        slots := s.sched.slots.set j (some (recordOf work p duration deferrable s)) }
      channels := (postSubscribed
        (disturbNotice s.now s.sched.lead (recordOf work p duration deferrable s)) s).channels },
      freeId s s.sched.nextId 4) := by
  let d : Disturbance :=
    ⟨freeId s s.sched.nextId 4, work, p, .notified (s.now + ms s.sched.lead), duration, deferrable⟩
  let u := (setSlot j (some d) s).updSched (fun k => { k with nextId := freeId s s.sched.nextId 4 + 1 })
  have hopen : openSlot j work p duration deferrable s =
      some (if s.sched.lead = 0 then
          setSlot j (some { d with state := .active s.now }) (postSubscribed (disturbNotice s.now s.sched.lead d) u)
        else postSubscribed (disturbNotice s.now s.sched.lead d) u, freeId s s.sched.nextId 4) := by
    rw [openSlot, h]
    dsimp only
    split
    · rw [show (postSubscribed _ _ : State).now = s.now by simp [State.now]]
      rfl
    · rfl
  have hsame : disturbNotice s.now s.sched.lead (recordOf work p duration deferrable s) =
      disturbNotice s.now s.sched.lead d := rfl
  rw [hopen, hsame, postSubscribed_of_channels (s := s) (u := u) rfl]
  split
  · next hlead => simp [u, d, setSlot, State.updSched, recordOf, hlead, PerSlot.set_set]
  · next hlead => simp [u, d, setSlot, State.updSched, recordOf, hlead]

/-- A slot emptied: DISTURB_DONE handed, and nothing else (R54). -/
theorem endSlot_of_record (h : slotRec s j = some d) : endSlot j s = { s with
    sched := { s.sched with slots := s.sched.slots.set j none }
    channels := (postSubscribed
      (doneNotice s.now (if isActive d then .completed else .cancelled) d) s).channels } := by
  rw [endSlot, h]
  exact postSubscribed_of_channels (s := s) (u := setSlot j none s) rfl _

theorem slotActive_of_record (h : slotRec s j = some d) : slotActive s j = isActive d := by
  rw [slotActive, h]

end

/-- Settles O24. -/
theorem recordsOpenAndEnd : Obligations.RecordsOpenAndEnd := by
  refine ⟨fun j work p duration deferrable s => ⟨openSlot_of_occupied, fun h => ?_⟩, fun j d s h => ?_⟩
  · obtain ⟨n, hn, hid, htaken, hfree⟩ := freeId_of_empty h
    refine ⟨_, _, openSlot_eq h, ⟨n, hn, hid, fun k hk => idTaken_iff.1 (htaken k hk)⟩, fun j' d' hd' heq => ?_, rfl, ?_⟩
    · rw [idTaken_iff.2 ⟨j', d', hd', heq⟩] at hfree
      cases hfree
    · rw [disturbNotice_eq]
      rfl
  · refine ⟨fun since hsince => ?_, fun hwaits => ?_⟩
    · have hactive : isActive d = true := by rw [isActive, hsince]
      refine ⟨?_, by rw [cancelSlot, slotActive_of_record h, if_pos hactive]⟩
      rw [endSlot_of_record h, if_pos hactive, doneNotice_eq, activeMs, hsince]
      rfl
    · have hend : endSlot j s = _ := endSlot_of_record h
      rw [if_neg (by simp [hwaits]), doneNotice_eq, show activeMs s.now d = 0 by
        unfold isActive at hwaits
        unfold activeMs
        split <;> simp_all] at hend
      exact ⟨hend, by rw [cancelSlot, slotActive_of_record h, if_neg (by simp [hwaits]), hend]; rfl⟩

/-! ## Departing windows (R61, R79) -/

section
variable {a b : List Window} {w : Window} {now x y : Time} {s : State}

theorem takeRemovable_append (ha : ∀ v ∈ a, removable now v = false) (hw : removable now w = true) :
    takeRemovable now (a ++ w :: b) = some (w, a ++ b) := by
  induction a with
  | nil => simp [takeRemovable, hw]
  | cons v a ih =>
    have hv : removable now v = false := ha v (by simp)
    simp [takeRemovable, hv, ih fun z hz => ha z (by simp [hz])]

theorem takeRemovable_of_none (ha : ∀ v ∈ a, removable now v = false) : takeRemovable now a = none := by
  cases h : takeRemovable now a with
  | none => rfl
  | some r =>
    obtain ⟨hr, a', b', heq, -⟩ := takeRemovable_eq h
    rw [ha r.1 (by simp [heq])] at hr
    cases hr

theorem markBit_getLsbD {i j : Nat} (hi : 1 ≤ i) (hj : 1 ≤ j) (hi8 : i ≤ 8) :
    (markBit j).getLsbD (i - 1) = decide (i = j) := by
  rw [markBit, BitVec.getLsbD_shiftLeft, BitVec.getLsbD_one]
  rw [Bool.eq_iff_iff]
  simp
  omega

/-- Of the window numbers up to `n`, those are marked that are unchecked and overlapped (R79). -/
theorem marksFor_getLsbD {k : Tracker} {j : Nat} (hj : 1 ≤ j) (hj8 : j ≤ 8) (n : Nat) :
    (marksFor now k x y n).getLsbD (j - 1) = (decide (j ≤ n) && (decide (k.checked < j) &&
      overlaps now x y (k.windowStart j) (k.windowStop j))) := by
  induction n with
  | zero => simp [marksFor]; omega
  | succ n ih =>
    have hbit := markBit_getLsbD hj (j := n + 1) (by omega) hj8
    rw [marksFor]
    obtain hlt | rfl | hgt : j ≤ n ∨ j = n + 1 ∨ n + 1 < j := by omega
    · split
      · simp [hbit, ih, show j ≤ n + 1 by omega, hlt]
        omega
      · simp [ih, show j ≤ n + 1 by omega, hlt]
    · split <;> simp_all
    · split
      · simp [hbit, ih, show ¬j ≤ n + 1 by omega, show ¬j ≤ n by omega]
        omega
      · simp [ih, show ¬j ≤ n + 1 by omega, show ¬j ≤ n by omega]

/-- The tracker's marks once a window has departed (R79). -/
def marksAfter (now : Time) (k : Tracker) (x y : Time) : BitVec 8 :=
  if k.state = .locked ∨ k.state = .coast then k.obscured ||| marksFor now k x y 8 else k.obscured

theorem departWindow_eq (x y : Time) (s : State) : departWindow x y s =
    { s with tracker := { s.tracker with obscured := marksAfter s.now s.tracker x y } } := by
  unfold departWindow marksAfter
  split
  · next h => rw [if_pos (.inl h)]; rfl
  · next h => rw [if_pos (.inr h)]; rfl
  · next hlocked hcoast => rw [if_neg (fun h => h.elim hlocked hcoast)]

theorem marksAfter_getLsbD {k : Tracker} {j : Nat} (hj : 1 ≤ j) (hj8 : j ≤ 8) :
    (marksAfter now k x y).getLsbD (j - 1) = (k.obscured.getLsbD (j - 1) ||
      (decide (k.state = .locked ∨ k.state = .coast) && decide (k.checked < j) &&
        decide (offset now x ≤ offset now (k.windowStop j)) && decide (offset now (k.windowStart j) ≤ offset now y))) := by
  unfold marksAfter
  split
  · next h =>
    rw [BitVec.getLsbD_or, marksFor_getLsbD hj hj8]
    simp only [hj8, h, overlaps, decide_true, Bool.true_and]
    rw [Bool.and_assoc, Bool.and_comm (decide (offset now x ≤ _))]
  · next h => simp [h]

end

/-- Settles O25. -/
theorem departingWindowsMarkPredictions : Obligations.DepartingWindowsMarkPredictions := by
  refine ⟨fun a b w stop s hlist ha hstop hpast => ?_, fun s hnone => ?_⟩
  · have hw : removable s.now w = true := by simpa [removable, hstop] using hpast
    have htake : takeRemovable s.now s.sched.windows = some (w, a ++ b) := by
      rw [hlist]
      exact takeRemovable_append ha hw
    refine ⟨marksAfter s.now s.tracker w.start stop, ?_, fun j hj hj8 => marksAfter_getLsbD hj hj8⟩
    show done (removeOne s) = _
    rw [removeOne, htake]
    dsimp only
    rw [departWindow_eq, hstop]
    rfl
  · show done (removeOne s) = _
    rw [removeOne, takeRemovable_of_none hnone]
    rfl

end Sys2Proof.Machine
end

