-- ==== Sys2Proof/Proofs/ReadFields.lean ====
section
namespace Sys2Proof.Machine

/-! ## The result bytes of the reading requests, field by field -/

section
variable {s : State}

/-! ### Codes and flags -/

theorem optByte_eq (x : Option Nat) : optByte 255 x = (x.map byte).getD 0xFF := by
  cases x <;> rfl

theorem flagByte_eq (b : Bool) : flagByte b = if b then 1 else 0 := rfl

theorem flagByte_decide (p : Prop) [Decidable p] : flagByte (decide p) = if p then 1 else 0 := by
  by_cases h : p <;> simp [flagByte, h]

/-- A bit of a byte, as the tables of the statements add it. -/
theorem bitOf_eq (n : Nat) (b : Bool) : bitOf n b = if b then 2 ^ n else 0 := rfl

theorem fitted_eq (f : Func) : funcFitted s f = decide (f ≠ .port2 ∨ s.twoPorts = true) := by
  cases f <;> simp [funcFitted]

/-! ### Line functions (R36, R37) -/

theorem holdBytes_eq (f : Func) : holdBytes s f = holdFields (s.lines.table.get f) := by
  unfold holdBytes holdFields holderCode holderOf funcRec
  obtain _ | h := (s.lines.table.get f).hold
  · rfl
  · simp only [Option.map_some, Option.bind_some, optByte_eq, Option.getD_some]

theorem functionBytes_eq (f : Func) : functionBytes s f =
    (if f = .port2 ∧ s.twoPorts = false then 0xFF else byte (s.lines.table.get f).level) ::
      holdFields (s.lines.table.get f) := by
  rw [functionBytes, holdBytes_eq, funcRec]
  by_cases hf : funcFitted s f = true
  · rw [if_pos hf, if_neg fun h => by rw [funcFitted_eq_false_iff.2 h] at hf; cases hf]
  · rw [if_neg hf, if_pos (funcFitted_eq_false_iff.1 (Bool.eq_false_of_not_eq_true hf))]
    rfl

/-! ### Disturbances and blanking (R64) -/

theorem slotBytes_eq (now : Time) (d : Option Disturbance) : slotBytes now d = slotFields now d := by
  obtain _ | ⟨id, work, p, state, duration, deferrable⟩ := d
  · rfl
  · have hstate : byte state.code = (match state with | .notified _ => 1 | .deferred _ => 2 | .active _ => 3) := by
      cases state <;> rfl
    have hwork : byte work.code =
        (match work with | .ringSession => 1 | .modeSwitch => 2 | .dslSwitch => 3 | .testConnect => 4) := by
      cases work <;> rfl
    simp only [slotBytes, slotFields, hstate, hwork, half16, durationField, saturate, bitOf_eq, Option.isNone_iff_eq_none,
      Nat.reducePow] <;> rfl

theorem windowBytes_eq (w : Window) : windowBytes w = windowFields w := by
  have hsource : w.source.code =
      (match w.source with | .relay => 1 | .ringBurst => 2 | .hook => 3 | .exchangeBurst => 4 | .test => 5) := by
    cases w.source <;> rfl
  rw [windowBytes, windowFields, hsource]
  rfl

/-! ### Phone ports (R104, R119) -/

theorem switchBytes_eq (w : Option ModeSwitch) : switchBytes w = (match w with
    | none => ([0, 0, 0xFF, 0] : List Byte)
    | some w => [match w.stage with | .lead => 1 | .break_ => 2 | .make => 3, w.id, byte (chanCode w.requester),
        if w.forced then 1 else 0]) := by
  obtain _ | w := w
  · rfl
  · have hstage : byte w.stage.code = (match w.stage with | .lead => 1 | .break_ => 2 | .make => 3) := by
      cases w.stage <;> rfl
    rw [switchBytes, hstage]
    rfl

theorem denialBytes_eq (d : Option Denial) : denialBytes d = (match d with
    | none => ([0, 0, 0, 0, 0, 0] : List Byte)
    | some d => ([match d.stage with | .waiting _ => 1 | .probing _ => 2, byte d.failed] : List Byte) ++
        wordBytes d.since) := by
  obtain _ | ⟨since, stage, failed⟩ := d
  · rfl
  · cases stage <;> rfl

theorem modeCode_eq (m : Mode) :
    byte m.code = (match m with | .lifeline => 0 | .local_ => 1 | .toLocal => 2 | .toLifeline => 3) := by
  cases m <;> rfl

theorem contactCode_eq (c : Contact) : byte (contactCode c) = (match c with | .closed => 0 | .open_ => 1) := by
  cases c <;> rfl

theorem feedCode_eq (f : Feed) : byte (feedCode f) = (match f with | .off => 0 | .on => 1 | .denied => 2) := by
  cases f <;> rfl

theorem hookCode_eq (k : HookState) :
    byte k.code = (match k with | .onHook => 0 | .seizing => 1 | .offHook => 2 | .break_ => 3) := by
  cases k <;> rfl

theorem dialCode_eq (e : DialEntry) : byte e.code = (match e with | .digit d => byte d | .flash => 0x0A) := by
  cases e <;> rfl

theorem portFields_eq (p : Port) : portFields p s =
    [byte (portNum p), byte (s.port p).mode.code] ++ switchBytes (s.port p).switch ++
      [byte (contactCode (s.relays.pass.get p)), byte (feedCode (s.relays.feed.get p))] ++
      denialBytes (s.port p).denial ++
      [flagByte (s.port p).underTest, flagByte (s.port p).suspended, byte (s.port p).sup.state.code] := by
  rw [switchBytes_eq, denialBytes_eq, modeCode_eq, contactCode_eq, feedCode_eq, hookCode_eq]
  rfl

/-- The source is the bias exactly with the pass-through OPEN and the feed OFF (R106). -/
theorem loopSource_bias_iff {p : Port} :
    loopSource s p = some .bias ↔ s.relays.pass.get p = .open_ ∧ s.relays.feed.get p = .off := by
  unfold loopSource
  cases s.relays.pass.get p <;> cases s.relays.feed.get p <;> simp

theorem dialConditions_eq (p : Port) : dialConditions s p =
    (if (s.port p).sup.frozen.isSome then 1 else 0) + (if (s.port p).sup.masked then 2 else 0) +
      (if lifelineCond s p then 4 else 0) +
      (if s.relays.pass.get p = .open_ ∧ s.relays.feed.get p = .off then 8 else 0) := by
  simp only [dialConditions, bitOf_eq, loopSource_bias_iff, decide_eq_true_eq]
  rfl

/-! ### Ringing (R134) -/

theorem sessionBytes_eq (x : Option RingSession) : sessionBytes x = sessionFields x := by
  obtain _ | x := x
  · rfl
  · have hstate : byte x.state.code =
        (match x.state with | .notifying => 1 | .burst _ => 2 | .silent false => 3 | .silent true => 0x83) := by
      cases x.state with
      | silent skipping => cases skipping <;> rfl
      | _ => rfl
    rw [sessionBytes, hstate]
    rfl

theorem entryBytes_eq (l : List CadenceStep) : entryBytes l = cadenceFields l := by
  match l with
  | [] => rfl
  | [_] => rfl
  | [_, _] => rfl
  | a :: b :: c :: rest => simp [entryBytes, cadenceFields, cadenceBytes, half16]

/-! ### Tests and gates (R150, R153) -/

theorem phaseCode_eq (x : Test) : byte (phaseCode (some x)) =
    (match x.phase with | .notify => 1 | .connect => 2 | .measure => 3 | .release => 4) := by
  unfold phaseCode
  dsimp only
  cases x.phase <;> rfl

theorem testBytes_eq (now : Time) (x : Option Test) : testBytes now x = testFields now x := by
  obtain _ | x := x
  · rfl
  · have hclean : cleanField x now = (match x.phase with | .measure => cleanSoFar x now | _ => x.clean) / 1000 := by
      unfold cleanField
      cases x.phase <;> rfl
    rw [testBytes, phaseCode_eq, optByte_eq, hclean]
    rfl

theorem measurementBytes_eq (m : Measurement) : measurementBytes m =
    [byte m.number] ++ wordBytes (BitVec.ofInt 32 m.value) ++
      [byte ((if m.saturated then 1 else 0) + (if m.short then 2 else 0) +
        (match m.verdict with | none => 0 | some .pass => 4 | some .fail => 8))] := by
  have hverdict : 4 * verdictCode m.verdict = (match m.verdict with | none => 0 | some .pass => 4 | some .fail => 8) := by
    obtain _ | v := m.verdict
    · rfl
    · cases v <;> rfl
  rw [measurementBytes, hverdict]
  rfl

theorem resultBytes_eq (x : Option TestResult) : resultBytes x = resultFields x := by
  obtain _ | x := x
  · rfl
  · have houtcome : byte x.outcome.code =
        (match x.outcome with | .pass => 0 | .fail => 1 | .noVerdict => 2 | .noisy => 3 | .aborted => 4) := by
      cases x.outcome <;> rfl
    have habort : byte ((x.abort.map AbortReason.code).getD 0) = (match x.abort with
        | none => 0 | some .requested => 1 | some .hookAbort => 2 | some .ringAbort => 3 | some .faultAbort => 4
        | some .holdLost => 5 | some .requesterReset => 6 | some .powerAbort => 7) := by
      obtain _ | why := x.abort
      · rfl
      · cases why <;> rfl
    have hmeasured : measurementBytes = _ := funext measurementBytes_eq
    rw [resultBytes, houtcome, habort, optByte_eq, flagByte_eq, hmeasured]
    simp only [resultFields, half16, List.append_assoc, List.cons_append, List.nil_append] <;> rfl

theorem gateBytes_eq (g : Option Gate) : gateBytes g = gateFields g := by
  cases g <;> rfl

/-! ### Isolation, log and power (R166, R170, R181) -/

theorem isolationBytes_eq (now : Time) (i : Isolation) : isolationBytes now i = (match i with
    | .normal => ([0, 0, 0, 0, 0xFF, 0, 0, 0, 0, 0] : List Byte)
    | .isolating d due cause since =>
      [1, byte d] ++ halfBytes (BitVec.ofNat 16 (msLeft now due)) ++ [byte cause.num] ++ wordBytes since ++ [0]
    | .lockout why cause since =>
      [2, 0, 0, 0, byte cause.num] ++ wordBytes since ++
        [match why with | .secondFault => 1 | .persistentHazard => 2]) := by
  have hzero : half16 (msLeft now none) = [0, 0] := by rw [msLeft]; rfl
  cases i with
  | normal => rw [isolationBytes, hzero]; rfl
  | isolating d due cause since => rfl
  | lockout why cause since => cases why <;> rw [isolationBytes, hzero] <;> rfl

theorem briefRecord_eq (x : LogRecord) : briefRecord x = recordFields false x := by
  rw [briefRecord, sourceByte, optByte_eq]
  rfl

theorem fullRecord_eq (x : LogRecord) : fullRecord x = recordFields true x := by
  rw [fullRecord, sourceByte, optByte_eq]
  simp [recordFields]

theorem powerBits_eq (a b : Bool) : byte (bitOf 0 a + bitOf 1 b) = (if a then 1 else 0) + (if b then 2 else 0) := by
  cases a <;> cases b <;> rfl

/-! ### The answers -/

theorem readFields_frameIn (i j : Instr) (s : State) : readFields i (frameIn j s) = readFields i s := by
  unfold frameIn
  split
  · cases i <;> rfl
  · rfl

theorem eq_of_toNat_le_one {b : Byte} (h : b.toNat ≤ 1) : b = 0 ∨ b = 1 := by
  obtain h | h : b.toNat = 0 ∨ b.toNat = 1 := by omega
  · exact .inl (BitVec.eq_of_toNat_eq h)
  · exact .inr (BitVec.eq_of_toNat_eq h)

/-- The answers of a port that is named and fitted. -/
theorem withPort_of_fitted {b : Byte} {p : Port} {serve : Port → Server} (hp : b.toNat = portNum p)
    (hfit : p = .p2 → s.twoPorts = true) : withPort b serve s = serve p s := by
  have hport : portOf b = some p := by
    unfold portOf
    rw [hp]
    cases p <;> rfl
  have hfitted : portFitted s p = true := by
    cases p with
    | p1 => rfl
    | p2 => exact hfit rfl
  simp only [withPort, hport, hfitted, if_true]

theorem withPort_of_unfitted {b : Byte} {p : Port} {serve : Port → Server} (hp : b.toNat = portNum p)
    (hun : p = .p2 ∧ s.twoPorts = false) : withPort b serve s = refuse .notFitted s := by
  obtain ⟨rfl, hun⟩ := hun
  have hport : portOf b = some .p2 := by
    unfold portOf
    rw [hp]
    rfl
  have hfitted : portFitted s .p2 = false := hun
  simp [withPort, hport, hfitted]

theorem withPort_of_no_port {b : Byte} {serve : Port → Server} (h : b.toNat = 0 ∨ 2 < b.toNat) :
    withPort b serve s = refuse .badRequest s := by
  have hport : portOf b = none := by
    unfold portOf
    split
    case h_3 => rfl
    all_goals omega
  simp only [withPort, hport]

theorem answerIdentify_eq {r : Req} : answerIdentify r s = report (readFields (.identify r) s) s := by
  have hfitted : byte (fittedMap s) = if s.twoPorts then 0x1F else 0x1D := by
    unfold fittedMap
    cases s.twoPorts <;> rfl
  have hports : byte (if s.twoPorts then 2 else 1) = if s.twoPorts then 2 else 1 := by
    cases s.twoPorts <;> rfl
  have hchannel : byte (chanCode r.channel) = (match r.channel with | .modem => 0 | .management => 1 | .gateway => 2) := by
    cases r.channel <;> rfl
  have hceiling : ceiling r.channel = (match r.channel with | .modem => 2 | .management => 0 | .gateway => 1) := by
    cases r.channel <;> rfl
  rw [answerIdentify, hfitted, hports, hchannel, effLevel, hceiling]
  rfl

theorem exists_funcNum {b : Byte} (h : b.toNat ≤ 4) : ∃ f, b.toNat = funcNum f :=
  match b.toNat, h with
  | 0, _ => ⟨.port1, rfl⟩
  | 1, _ => ⟨.port2, rfl⟩
  | 2, _ => ⟨.dsl, rfl⟩
  | 3, _ => ⟨.test, rfl⟩
  | 4, _ => ⟨.tracker, rfl⟩

theorem answerQueryFunction_eq {r : Req} {b : Byte} (h : b.toNat ≤ 4) :
    answerQueryFunction r b s = report (readFields (.queryFunction r b) s) s := by
  obtain ⟨f, hf⟩ := exists_funcNum h
  have hgranted : ((funcRec s f).hold.map (·.grantedAt)).getD 0 =
      (match (funcRec s f).hold with | none => 0 | some h => h.grantedAt) := by
    cases (funcRec s f).hold <;> rfl
  have hfitted : flagByte (funcFitted s f) = if f ≠ .port2 ∨ s.twoPorts = true then 1 else 0 := by
    rw [fitted_eq, flagByte_decide]
  have hallowed : flagByte (funcFitted s f && decide (effLevel r ≤ (funcRec s f).level)) =
      if (f ≠ .port2 ∨ s.twoPorts = true) ∧ effLevel r ≤ (funcRec s f).level then 1 else 0 := by
    rw [fitted_eq, ← Bool.decide_and, flagByte_decide]
  simp only [answerQueryFunction, funcOf_of_toNat hf, readFields, holdBytes_eq, hgranted, hfitted, hallowed,
    byte_of_toNat hf, List.countP_eq_length_filter] <;> rfl

theorem answerReadFunctions_eq {r : Req} : answerReadFunctions s = report (readFields (.readFunctions r) s) s := by
  have hfunctions : functionBytes s = _ := funext functionBytes_eq
  rw [answerReadFunctions, hfunctions]
  simp only [readFields, relayBytes, List.append_assoc, List.cons_append, List.nil_append]
    <;> rfl

theorem answerReadDisturbances_eq {r : Req} {part : Byte} (h : part.toNat ≤ 1) :
    answerReadDisturbances part s = report (readFields (.readDisturbances r part) s) s := by
  have hwindows : windowBytes = _ := funext windowBytes_eq
  obtain rfl | rfl := eq_of_toNat_le_one h
  · simp [answerReadDisturbances, readFields, allSlots, slotBytes_eq, slotRec, PerSlot.get, half16]
  · simp [answerReadDisturbances, readFields, hwindows]

theorem answerReadTracker_eq {r : Req} : answerReadTracker s = report (readFields (.readTracker r) s) s := by
  have hstate : byte s.tracker.state.code =
      (match s.tracker.state with | .search => 0 | .acquire => 1 | .locked => 2 | .coast => 3) := by
    cases s.tracker.state <;> rfl
  have hnext : nextTimer s.tracker = (match s.tracker.acquireDue, s.tracker.checkDue with
      | some due, _ => due | none, some due => due | none, none => 0) := by
    unfold nextTimer
    cases s.tracker.acquireDue <;> cases s.tracker.checkDue <;> rfl
  rw [answerReadTracker]
  simp only [hstate, hnext, readFields, half16, flagByte_eq, List.append_assoc, List.cons_append, List.nil_append]
    <;> rfl

theorem answerReadForecast_eq {r : Req} : answerReadForecast s = report (readFields (.readForecast r) s) s := by
  have hstate : byte s.tracker.state.code =
      (match s.tracker.state with | .search => 0 | .acquire => 1 | .locked => 2 | .coast => 3) := by
    cases s.tracker.state <;> rfl
  rw [answerReadForecast]
  simp only [hstate, readFields, List.cons_append, List.nil_append] <;> rfl

/-- The port that a reading request names, where it names a fitted one (R104, R119). -/
theorem port_of_readable {b : Byte} (h : b = 1 ∨ b = 2 ∧ s.twoPorts = true) :
    b.toNat = portNum (if b = 1 then .p1 else .p2) ∧ ((if b = 1 then Port.p1 else .p2) = .p2 → s.twoPorts = true) := by
  obtain rfl | ⟨rfl, h⟩ := h
  · exact ⟨rfl, by simp⟩
  · exact ⟨rfl, fun _ => h⟩

theorem answerReadPort_eq {r : Req} {b : Byte} (h : b = 1 ∨ b = 2 ∧ s.twoPorts = true) :
    answerReadPort b s = report (readFields (.readPort r b) s) s := by
  obtain ⟨hp, hfit⟩ := port_of_readable h
  rw [answerReadPort, withPort_of_fitted hp hfit]
  exact congrArg (report · s) (portFields_eq _).symm

theorem answerReadDial_eq {r : Req} {b : Byte} (h : b = 1 ∨ b = 2 ∧ s.twoPorts = true) :
    answerReadDial b s = report (readFields (.readDial r b) s) s := by
  obtain ⟨hp, hfit⟩ := port_of_readable h
  have hcodes : (fun e : DialEntry => byte e.code) = _ := funext dialCode_eq
  rw [answerReadDial, withPort_of_fitted hp hfit]
  dsimp only
  rw [hookCode_eq, dialConditions_eq, hcodes]
  simp only [readFields, dialFields, timingBytes, half16, flagByte_eq, List.append_assoc] <;> rfl

theorem answerReadRing_eq {r : Req} {part : Byte} (h : part.toNat ≤ 1) :
    answerReadRing part s = report (readFields (.readRing r part) s) s := by
  have hentries : entryBytes = _ := funext entryBytes_eq
  obtain rfl | rfl := eq_of_toNat_le_one h
  · simp [answerReadRing, readFields, sessionBytes_eq, exchangeBytes, exchangeFields, half16, generatorCode, bitOf_eq,
      session, PerPort.get]
  · simp [answerReadRing, readFields, hentries, Quad.toList]

theorem answerReadTestResult_eq {r : Req} : answerReadTestResult s = report (readFields (.readTestResult r) s) s := by
  rw [answerReadTestResult, testBytes_eq, resultBytes_eq]
  rfl

theorem answerReadGates_eq {r : Req} {gate : Byte} (h : gate.toNat ≤ 3) :
    answerReadGates gate s = report (readFields (.readGates r gate) s) s := by
  rw [answerReadGates, if_neg (by omega), gateBytes_eq]
  rfl

theorem answerReadIsolation_eq {r : Req} : answerReadIsolation s = report (readFields (.readIsolation r) s) s := by
  simp only [answerReadIsolation, isolationBytes_eq, contactCode_eq, bitOf_eq, watchDue, half16] <;> rfl

theorem answerReadLog_eq {r : Req} {from_ : BitVec 32} {form : Byte} (h : form.toNat ≤ 1) :
    answerReadLog from_ form s = report (readFields (.readLog r from_ form) s) s := by
  have hbrief : briefRecord = recordFields false := funext briefRecord_eq
  have hfull : fullRecord = recordFields true := funext fullRecord_eq
  have hpolicy : bitOf 1 (decide (s.faults.policy = .keepFirst)) =
      (match s.faults.policy with | .keepNewest => 0 | .keepFirst => 2) := by
    cases s.faults.policy <;> rfl
  obtain rfl | rfl := eq_of_toNat_le_one h
  · simp only [answerReadLog, hbrief, hpolicy] <;> rfl
  · simp only [answerReadLog, hfull, hpolicy] <;> rfl

theorem answerReadCapture_eq {r : Req} : answerReadCapture s = report (readFields (.readCapture r) s) s := by
  unfold answerReadCapture captureBytes readFields
  cases s.faults.capture <;> rfl

theorem answerReadPower_eq {r : Req} : answerReadPower s = report (readFields (.readPower r) s) s := by
  have hstate : byte s.power.state.code =
      (match s.power.state with | .mains => 0 | .battery => 1 | .reserve => 2) := by
    cases s.power.state <;> rfl
  have hload : byte s.store.loadResult.code =
      (match s.store.loadResult with | .good => 0 | .blank => 1 | .checkFailed => 2) := by
    cases s.store.loadResult <;> rfl
  have hsave : byte s.store.lastSave.code =
      (match s.store.lastSave with | .none => 0 | .ok => 1 | .writeFailed => 2) := by
    cases s.store.lastSave <;> rfl
  rw [answerReadPower]
  simp only [hstate, hload, hsave, powerBits_eq, flagByte_eq] <;> rfl

/-! ### The reading requests together -/

variable {i : Instr}

theorem readable_frameIn {j : Instr} : readable i (frameIn j s) ↔ readable i s := by
  unfold readable
  split <;> simp

theorem readRefusal_frameIn (i j : Instr) (s : State) : readRefusal i (frameIn j s) = readRefusal i s := by
  unfold readRefusal
  split <;> simp

theorem isRequest_of_readable (h : readable i s) : isRequest i = true := by
  unfold readable at h
  split at h
  case h_17 => exact h.elim
  all_goals rfl

/-- A reading request with operands that its rule accepts answers its fields and changes nothing. -/
theorem answer_of_readable (h : readable i s) : answer i s = report (readFields i s) s := by
  unfold readable at h
  split at h
  case h_1 => exact answerIdentify_eq
  case h_2 => rfl
  case h_3 => exact answerReadFunctions_eq
  case h_4 => exact answerReadTracker_eq
  case h_5 => exact answerReadForecast_eq
  case h_6 => exact answerReadTestResult_eq
  case h_7 => exact answerReadIsolation_eq
  case h_8 => exact answerReadCapture_eq
  case h_9 => exact answerReadPower_eq
  case h_10 => exact answerQueryFunction_eq h
  case h_11 => exact answerReadDisturbances_eq h
  case h_12 => exact answerReadRing_eq h
  case h_13 => exact answerReadLog_eq h
  case h_14 => exact answerReadGates_eq h
  case h_15 => exact answerReadPort_eq h
  case h_16 => exact answerReadDial_eq h
  case h_17 => exact h.elim

theorem refuse_of_port {b : Byte} {o : Code} {serve : Port → Server}
    (h : (if b.toNat = 0 ∨ 2 < b.toNat then some .badRequest
      else if b.toNat = 2 ∧ s.twoPorts = false then some .notFitted else none) = some o) :
    withPort b serve s = refuse o s := by
  split at h
  · next hno => cases h; exact withPort_of_no_port hno
  · split at h
    · next hun => cases h; exact withPort_of_unfitted (p := .p2) hun.1 ⟨rfl, hun.2⟩
    · cases h

theorem answerReadDisturbances_of_bad {part : Byte} (h : 1 < part.toNat) :
    answerReadDisturbances part s = refuse .badRequest s := by
  unfold answerReadDisturbances
  split
  case h_3 => rfl
  all_goals omega

theorem answerReadRing_of_bad {part : Byte} (h : 1 < part.toNat) : answerReadRing part s = refuse .badRequest s := by
  unfold answerReadRing
  split
  case h_3 => rfl
  all_goals omega

theorem answerReadLog_of_bad {from_ : BitVec 32} {form : Byte} (h : 1 < form.toNat) :
    answerReadLog from_ form s = refuse .badRequest s := by
  unfold answerReadLog
  dsimp only
  split
  case h_3 => rfl
  all_goals omega

/-- A reading request with other operands is refused and changes nothing. -/
theorem answer_of_readRefusal {o : Code} (h : readRefusal i s = some o) :
    isRequest i = true ∧ answer i s = refuse o s := by
  have above {n m : Nat} {c : Code} (hif : (if n ≤ m then none else some c) = some o) : c = o ∧ m < n := by
    split at hif
    · cases hif
    · next hlt => exact ⟨Option.some.inj hif, by omega⟩
  unfold readRefusal at h
  split at h
  case h_1 r b =>
    obtain ⟨rfl, hlt⟩ := above h
    have hnone : answerQueryFunction r b s = refuse .badFunction s := by
      rw [answerQueryFunction, funcOf_of_four_lt hlt]
    exact ⟨rfl, hnone⟩
  case h_2 =>
    obtain ⟨rfl, hlt⟩ := above h
    exact ⟨rfl, answerReadDisturbances_of_bad hlt⟩
  case h_3 =>
    obtain ⟨rfl, hlt⟩ := above h
    exact ⟨rfl, answerReadRing_of_bad hlt⟩
  case h_4 =>
    obtain ⟨rfl, hlt⟩ := above h
    exact ⟨rfl, answerReadLog_of_bad hlt⟩
  case h_5 =>
    obtain ⟨rfl, hlt⟩ := above h
    exact ⟨rfl, if_pos hlt⟩
  case h_6 => exact ⟨rfl, refuse_of_port h⟩
  case h_7 => exact ⟨rfl, refuse_of_port h⟩
  case h_8 => cases h

/-! ### Their lengths -/

@[simp] theorem holdFields_length (x : FuncRec) : (holdFields x).length = 3 := by
  unfold holdFields
  split <;> rfl

@[simp] theorem slotFields_length (now : Time) (d : Option Disturbance) : (slotFields now d).length = 9 := by
  rw [← slotBytes_eq, slotBytes_length]

@[simp] theorem windowFields_length (w : Window) : (windowFields w).length = 7 := by
  rw [← windowBytes_eq, windowBytes_length]

@[simp] theorem sessionFields_length (x : Option RingSession) : (sessionFields x).length = 9 := by
  rw [← sessionBytes_eq, sessionBytes_length]

@[simp] theorem cadenceFields_length (l : List CadenceStep) : (cadenceFields l).length = 13 := by
  rw [← entryBytes_eq, entryBytes_length]

@[simp] theorem testFields_length (now : Time) (x : Option Test) : (testFields now x).length = 9 := by
  rw [← testBytes_eq, testBytes_length]

@[simp] theorem recordFields_length (full : Bool) (x : LogRecord) :
    (recordFields full x).length = if full then 24 else 12 := by
  cases full <;> rfl

theorem portFields_length (p : Port) (s : State) : (portFields p s).length = 17 := by
  simp [portFields_eq]

theorem readFields_length (h : readable i s) : (readFields i s).length = readLength i s := by
  unfold readable at h
  split at h
  case h_1 => rfl
  case h_2 => rfl
  case h_3 => simp [readFields, readLength, allFuncs]; omega
  case h_4 => rfl
  case h_5 => simp [readFields, readLength]; omega
  case h_6 =>
    simp only [readFields, readLength, List.length_append, testFields_length]
    unfold resultFields
    cases s.engine.result <;> simp <;> omega
  case h_7 =>
    simp only [readFields, readLength, isolationFields]
    cases s.faults.isolation <;> rfl
  case h_8 =>
    simp only [readFields, readLength]
    cases s.faults.capture <;> rfl
  case h_9 => rfl
  case h_10 r b =>
    obtain ⟨f, hf⟩ := exists_funcNum h
    simp [readFields, readLength, funcOf_of_toNat hf]
  case h_11 =>
    obtain rfl | rfl := eq_of_toNat_le_one h <;> simp [readFields, readLength] <;> omega
  case h_12 =>
    obtain rfl | rfl := eq_of_toNat_le_one h <;> simp [readFields, readLength, exchangeFields]
  case h_13 =>
    obtain rfl | rfl := eq_of_toNat_le_one h <;> simp [readFields, readLength, selectRecords] <;> omega
  case h_14 r gate =>
    simp only [readFields, readLength]
    obtain _ | g := s.engine.gates.get gate.toNat
    · rfl
    · simp [gateFields]
      omega
  case h_15 => exact portFields_length _ _
  case h_16 r b =>
    obtain rfl | ⟨rfl, -⟩ := h <;> simp [readFields, readLength, dialFields, State.port, PerPort.get] <;> omega
  case h_17 => exact h.elim

end

/-- Settles O9. -/
theorem readsAnswerTheirFields : Obligations.ReadsAnswerTheirFields := by
  intro i s ht
  refine ⟨fun h => ⟨?_, readFields_length h⟩, fun o h => ?_⟩
  · rw [exec_of_answer ht (isRequest_of_readable h) (answer_of_readable (readable_frameIn.2 h)), readFields_frameIn]
  · obtain ⟨hr, hanswer⟩ := answer_of_readRefusal ((readRefusal_frameIn i i s).trans h)
    exact exec_of_answer ht hr hanswer

end Sys2Proof.Machine
end

