-- ==== Sys2Proof/Proofs/LoopChanges.lean ====
section
namespace Sys2Proof.Machine

/-! ## What a loop change makes of the supervisor (R109 to R111, R114) -/

section
variable {p : Port} {b : Bool} {s t u : State}

/-! ### The end of a break (R110) -/

/-- The supervisor at the end of a break, by the break's length (R110). -/
def afterBreak (now : Time) (q : PhonePort) : Supervisor :=
  let x := q.sup
  let n := (now - x.breakStart).toNat
  if n < x.breakTiming.glitch * 1000 then { x with state := .offHook, breakTimer := .stopped }
  else if n ≤ x.breakTiming.pulseMax * 1000 then
    { x with
      state := .offHook, breakTimer := .stopped, pulses := min 255 (x.pulses + 1)
      gapTimer := .running (now + ms q.timing.digitGap) }
  else if n < x.breakTiming.flashMax * 1000 then
    { x with
      state := .offHook, breakTimer := .stopped, pulses := 0
      gapTimer := if 0 < x.pulses then .stopped else x.gapTimer }
  else
    { x with
      state := .seizing, breakStart := now, seizeTimer := .running (now + ms q.timing.seize), breakTimer := .stopped
      pulses := 0, gapTimer := .stopped }

theorem makeAgain_port : (makeAgain p s).port p =
    { s.port p with sup := { (s.port p).sup with state := .offHook, breakTimer := .stopped } } := by
  simp [makeAgain]

theorem digitNotice_sup (e f r : Bool) (v n : Nat) : ((digitNotice p e f r v n s).port p).sup = (s.port p).sup := by
  simp

theorem recordEntry_sup (e : DialEntry) (n : Nat) : ((recordEntry p e n s).port p).sup = (s.port p).sup := by
  unfold recordEntry
  dsimp only
  split
  · rfl
  · rw [digitNotice_sup, State.updPort_port_same]
    split <;> rfl

theorem completeDigit_sup : ((completeDigit p s).port p).sup = { (s.port p).sup with pulses := 0 } := by
  unfold completeDigit
  dsimp only
  split
  · next hzero => rw [← hzero]
  · rw [State.updSup_port_same]
    dsimp only
    split
    · rw [recordEntry_sup]
    · split
      · rfl
      · rw [digitNotice_sup]

theorem releasePort_port : (releasePort p s).port p = { s.port p with sup := { (s.port p).sup with
    state := .onHook, pulses := 0, gapTimer := .stopped, breakTimer := .stopped } } := by
  unfold releasePort
  dsimp only
  rw [judgeWatch_port]
  split <;> simp

theorem beginSeizing_port : (beginSeizing p s).port p = { s.port p with sup := { (s.port p).sup with
    state := .seizing, breakStart := s.now, seizeTimer := .running (s.now + ms (s.port p).timing.seize) } } := by
  simp [beginSeizing]

theorem beginBreak_port : (beginBreak p s).port p = { s.port p with sup := { (s.port p).sup with
    state := .break_, breakStart := s.now, breakTiming := (s.port p).timing
    breakTimer := .running (s.now + ms (s.port p).timing.flashMax) } } := by
  simp [beginBreak]

/-- The state in which a flash is recorded: a digit with pulses is complete (R110, R111). -/
def digitEnded (p : Port) (s : State) : State :=
  if 0 < (s.port p).sup.pulses then (completeDigit p s).updSup p (fun u => { u with gapTimer := .stopped }) else s

theorem digitEnded_sup : ((digitEnded p s).port p).sup = { (s.port p).sup with
    pulses := 0, gapTimer := if 0 < (s.port p).sup.pulses then .stopped else (s.port p).sup.gapTimer } := by
  unfold digitEnded
  split
  · rw [State.updSup_port_same, completeDigit_sup]
  · next hzero =>
    obtain hzero : (s.port p).sup.pulses = 0 := by omega
    rw [← hzero]

theorem endBreak_sup : ((endBreak p s).port p).sup = afterBreak s.now (s.port p) := by
  unfold endBreak afterBreak
  dsimp only
  split
  · rw [makeAgain_port]
  split
  · rw [makeAgain_port, State.updPort_port_same]
    rfl
  split
  · rw [makeAgain_port, recordEntry_sup, ← digitEnded, digitEnded_sup]
  · rw [beginSeizing_port, releasePort_port]
    simp [State.now]

theorem recorded_congr {e : DialEntry} {x y : PhonePort} (hd : x.dial = y.dial) (ho : x.overflow = y.overflow) :
    (recorded e x).dial = (recorded e y).dial ∧ (recorded e x).overflow = (recorded e y).overflow := by
  unfold recorded
  rw [hd, ho]
  split <;> simp

/-- The record that a completed digit leaves depends on the dial record and the pulse count. -/
theorem digitDone_congr {now : Time} {x y : PhonePort} (hd : x.dial = y.dial) (ho : x.overflow = y.overflow)
    (hn : x.sup.pulses = y.sup.pulses) : (digitDone now p x).1.dial = (digitDone now p y).1.dial ∧
      (digitDone now p x).1.overflow = (digitDone now p y).1.overflow := by
  unfold digitDone
  rw [hn]
  dsimp only
  split
  · exact ⟨hd, ho⟩
  split
  · exact recorded_congr hd ho
  · exact ⟨hd, ho⟩

theorem lifelineCond_digitEnded : lifelineCond (digitEnded p s) p = lifelineCond s p := by
  unfold digitEnded
  split
  · exact (lifelineCond_congr (by simp) (by simp)).trans lifelineCond_completeDigit
  · rfl

theorem digitEnded_record : ((digitEnded p s).port p).dial = (digitRecord p s).dial ∧
    ((digitEnded p s).port p).overflow = (digitRecord p s).overflow := by
  unfold digitEnded
  split
  · simpa using completeDigit_record
  · next hzero =>
    obtain hzero : (s.port p).sup.pulses = 0 := by omega
    simp [digitRecord, digitDone, hzero]

/-- A flash in the local condition stands in the dial record behind the digit it completed; a break that ends otherwise
leaves the record (R111, R114). -/
theorem endBreak_record :
    let flashed := longBreak p s ∧ ¬releasing p s ∧ lifelineCond s p = false
    let q := (endBreak p s).port p
    (flashed → q.dial = (recorded .flash (digitDone s.now p (s.port p)).1).dial ∧
      q.overflow = (recorded .flash (digitDone s.now p (s.port p)).1).overflow) ∧
    (¬flashed → q.dial = (s.port p).dial ∧ q.overflow = (s.port p).overflow) := by
  unfold endBreak releasing longBreak breakLength
  dsimp only
  split
  · refine ⟨fun h => absurd h (by omega), fun _ => ?_⟩
    rw [makeAgain_port]
    exact ⟨rfl, rfl⟩
  split
  · refine ⟨fun h => absurd h (by omega), fun _ => ?_⟩
    rw [makeAgain_port, State.updPort_port_same]
    exact ⟨rfl, rfl⟩
  split
  · rw [makeAgain_port, ← digitEnded]
    dsimp only
    obtain ⟨hd, ho⟩ := recordEntry_record (p := p) (s := digitEnded p s) .flash 0
    obtain ⟨hdone, hover⟩ := digitEnded_record (p := p) (s := s)
    rw [hd, ho, lifelineCond_digitEnded]
    unfold digitRecord at hdone hover
    cases hl : lifelineCond s p with
    | true =>
      refine ⟨fun h => (Bool.noConfusion h.2.2 :), fun _ => ?_⟩
      simp only [hl, if_true] at hdone hover ⊢
      exact ⟨hdone, hover⟩
    | false =>
      simp only [hl, Bool.false_eq_true, if_false] at hdone hover
      refine ⟨fun _ => recorded_congr hdone hover, fun h => absurd ⟨⟨?_, ?_⟩, ?_, rfl⟩ h⟩ <;> omega
  · refine ⟨fun h => absurd h (by omega), fun _ => ?_⟩
    rw [beginSeizing_port, releasePort_port]
    exact ⟨rfl, rfl⟩

/-! ### A loop change as the supervisor takes it (R106, R109) -/

/-- A change of its present source reaches the supervisor (R106, R109). -/
def loopHeard (p : Port) (s : State) : Prop :=
  listening s p = true ∧ (loopSource s p).isSome = true ∧ loopReading s p ≠ (s.port p).sup.loop

theorem senseLoop_of_heard (h : loopHeard p s) :
    senseLoop p s = loopJudged p (loopReading s p) (loopTaken p (loopReading s p) s) := by
  obtain ⟨hl, hs, hr⟩ := h
  rw [senseLoop, if_pos (by simp [hl, hs, hr]), takeLoop_eq]

theorem senseLoop_of_not_heard (h : ¬loopHeard p s) : senseLoop p s = s := by
  rw [senseLoop, if_neg fun hc => h (by simpa [loopHeard, and_assoc] using hc)]

theorem endsBreak_iff_of_heard (h : loopHeard p s) :
    endsBreak p s ↔ (s.port p).sup.state = .break_ ∧ loopReading s p = true := by
  obtain ⟨hl, hs, hr⟩ := h
  refine ⟨fun ⟨_, _, hread, _, hstate⟩ => ⟨hstate, hread⟩, fun ⟨hstate, hread⟩ => ⟨hl, hs, hread, ?_, hstate⟩⟩
  rw [hread] at hr
  cases hloop : (s.port p).sup.loop with
  | false => rfl
  | true => exact absurd hloop.symm hr

/-- The supervisor after a loop change that reached it. -/
def afterLoop (now : Time) (b : Bool) (q : PhonePort) : Supervisor :=
  let x : Supervisor := { q.sup with loop := b }
  match q.sup.state, b with
  | .onHook, true =>
    { x with state := .seizing, breakStart := now, seizeTimer := .running (now + ms q.timing.seize) }
  | .seizing, false => { x with state := .onHook, seizeTimer := .stopped }
  | .offHook, false =>
    { x with
      state := .break_, breakStart := now, breakTiming := q.timing, breakTimer := .running (now + ms q.timing.flashMax) }
  | .break_, true => afterBreak now { q with sup := x }
  | _, _ => x

theorem loopTaken_lifelineCond : lifelineCond (loopTaken p b s) p = lifelineCond s p :=
  lifelineCond_congr (by rw [loopTaken_sup]) (by rw [loopTaken_sup])

theorem senseLoop_sup (h : loopHeard p s) :
    ((senseLoop p s).port p).sup = afterLoop s.now (loopReading s p) (s.port p) := by
  rw [senseLoop_of_heard h]
  generalize loopReading s p = b
  unfold loopJudged afterLoop
  rw [loopTaken_sup]
  cases (s.port p).sup.state <;> cases b
  case onHook.true => rw [beginSeizing_port, loopTaken_sup, loopTaken_now]
  case seizing.false => rw [State.updSup_port_same, loopTaken_sup]
  case offHook.false => rw [beginBreak_port, loopTaken_sup, loopTaken_now]
  case break_.true => rw [endBreak_sup, loopTaken_sup, loopTaken_now]
  all_goals rw [loopTaken_sup]

/-- The dial record after a loop change that reached the supervisor: a flash in the local condition alone touches it. -/
theorem senseLoop_record (h : loopHeard p s) :
    let flashed := (endsBreak p s ∧ longBreak p s ∧ ¬releasing p s) ∧ lifelineCond s p = false
    (flashed → ((senseLoop p s).port p).dial = (recorded .flash (digitDone s.now p (s.port p)).1).dial ∧
      ((senseLoop p s).port p).overflow = (recorded .flash (digitDone s.now p (s.port p)).1).overflow) ∧
    (¬flashed → ((senseLoop p s).port p).dial = (s.port p).dial ∧
      ((senseLoop p s).port p).overflow = (s.port p).overflow) := by
  intro flashed
  rw [senseLoop_of_heard h]
  by_cases hbreak : endsBreak p s
  · obtain ⟨hstate, hread⟩ := (endsBreak_iff_of_heard h).1 hbreak
    have hjudged : loopJudged p (loopReading s p) (loopTaken p (loopReading s p) s) =
        endBreak p (loopTaken p (loopReading s p) s) := by
      unfold loopJudged
      rw [loopTaken_sup, hread]
      simp only [hstate]
    have hlong : longBreak p (loopTaken p (loopReading s p) s) ↔ longBreak p s := by
      unfold longBreak breakLength
      rw [loopTaken_now, loopTaken_sup]
    have hdone := digitDone_congr (now := s.now) (p := p) (x := (loopTaken p (loopReading s p) s).port p) (y := s.port p)
      (by rw [loopTaken_sup]) (by rw [loopTaken_sup]) (by rw [loopTaken_sup])
    obtain ⟨hflash, hother⟩ := endBreak_record (p := p) (s := loopTaken p (loopReading s p) s)
    rw [hlong, releasing_loopTaken, loopTaken_lifelineCond] at hflash hother
    rw [hjudged]
    refine ⟨fun ⟨⟨_, hl, hr⟩, hlocal⟩ => ?_, fun hno => ?_⟩
    · obtain ⟨hd, ho⟩ := hflash ⟨hl, hr, hlocal⟩
      rw [hd, ho, loopTaken_now]
      exact recorded_congr hdone.1 hdone.2
    · obtain ⟨hd, ho⟩ := hother fun ⟨hl, hr, hlocal⟩ => hno ⟨⟨hbreak, hl, hr⟩, hlocal⟩
      rw [hd, ho, loopTaken_sup]
      exact ⟨rfl, rfl⟩
  · refine ⟨fun hflash => absurd hflash.1.1 hbreak, fun _ => ?_⟩
    have hno : ¬((s.port p).sup.state = .break_ ∧ loopReading s p = true) := fun hc =>
      hbreak ((endsBreak_iff_of_heard h).2 hc)
    unfold loopJudged
    rw [loopTaken_sup]
    cases hstate : (s.port p).sup.state <;> cases hread : loopReading s p
    case onHook.true => simp [beginSeizing_port, loopTaken_sup, hstate]
    case seizing.false => simp [loopTaken_sup, hstate]
    case offHook.false => simp [beginBreak_port, loopTaken_sup, hstate]
    case break_.true => exact absurd ⟨hstate, hread⟩ hno
    all_goals simp [loopTaken_sup, hstate]

/-! ### The windows and what stands (R59, R118) -/

theorem lasting_hookWindow (now : Time) (p : Port) : Lasting now (hookWindow now p) := by
  refine .inr ⟨_, rfl, ?_⟩
  have : now + ms 30 - now = 30000#32 := by
    rw [ms]
    bv_omega
  rw [offset, this]
  decide

theorem senseLoop_hookWindow (h : loopHeard p s) (hclosed : s.relays.pass.get p = .closed) :
    windowOpened (hookWindow s.now p) 1 s (senseLoop p s) := by
  rw [senseLoop_of_heard h]
  let v := s.updSup p (fun u => { u with loop := loopReading s p })
  have htaken : loopTaken p (loopReading s p) s = handWindow .hook (some p) none v.now (some 30) v := if_pos hclosed
  obtain ⟨m, hm, hadds⟩ := loopJudged_adds (p := p) (s := loopTaken p (loopReading s p) s) (loopReading s p)
  obtain rfl : m = [] := List.length_eq_zero_iff.1 (by omega)
  rw [htaken] at hadds ⊢
  exact windowOpened_of_adds (u := v) (m := []) (lasting_hookWindow _ _) rfl (le_refl _) ((handWindow_adds rfl).trans hadds)

/-- With the pass-through OPEN no window is handed (R118). -/
theorem senseLoop_unwindowed (hopen : s.relays.pass.get p = .open_) : (senseLoop p s).sched = s.sched ∧
    (senseLoop p s).tracker = s.tracker ∧ (senseLoop p s).engine = s.engine := by
  by_cases h : loopHeard p s
  · rw [senseLoop_of_heard h]
    have htaken (b : Bool) : loopTaken p b s = s.updSup p (fun u => { u with loop := b }) :=
      if_neg (by simp [hopen])
    rw [htaken]
    unfold loopJudged
    split <;> simp
  · rw [senseLoop_of_not_heard h]
    exact ⟨rfl, rfl, rfl⟩

theorem eq_with_of_looped (h : t.pending = s.pending ∧ t.phase = s.phase ∧ t.clock = s.clock ∧ t.pins = u.pins ∧
      t.twoPorts = s.twoPorts ∧ t.gateway = s.gateway ∧ t.modem = s.modem ∧ t.lines = s.lines ∧ t.relays = s.relays ∧
      t.settles = s.settles ∧ t.dsl = s.dsl ∧ t.ring = s.ring ∧ t.power = s.power ∧ t.store = s.store ∧
      t.occasion = s.occasion) :
    t = { s with
      pins := u.pins, channels := t.channels, sched := t.sched, tracker := t.tracker
      ports := t.ports, engine := t.engine, faults := t.faults } := by
  cases s
  cases t
  simpa using h

theorem exec_loopChange {sense : LoopSense} {present : Bool} (hphase : s.phase = .loading ∨ s.phase = .running) :
    exec (.loopChange p sense present) s = .next (senseLoop p { s with pins := match sense with
      | .passThrough => { s.pins with loopPass := s.pins.loopPass.set p present }
      | .feedCurrent => { s.pins with loopFeed := s.pins.loopFeed.set p present } }) := by
  have hawake : awake s = true := by
    unfold awake
    obtain h | h := hphase <;> rw [h]
  cases sense <;> exact congrArg Host.Outcome.next (if_pos hawake)

theorem afterBreak_inCall {now : Time} {q : PhonePort}
    (h : (now - q.sup.breakStart).toNat < q.sup.breakTiming.flashMax * 1000 ∨
      (now - q.sup.breakStart).toNat ≤ q.sup.breakTiming.pulseMax * 1000) :
    (afterBreak now q).state = .offHook ∧ (afterBreak now q).breakTimer = .stopped := by
  unfold afterBreak
  dsimp only
  split
  · exact ⟨rfl, rfl⟩
  split
  · exact ⟨rfl, rfl⟩
  · rw [if_pos (by omega)]
    exact ⟨rfl, rfl⟩

theorem afterLoop_onHook {now : Time} {q : PhonePort} (h : q.sup.state = .onHook) : afterLoop now true q =
    { q.sup with
      loop := true, state := .seizing, breakStart := now, seizeTimer := .running (now + ms q.timing.seize) } := by
  simp only [afterLoop, h]

theorem afterLoop_seizing {now : Time} {q : PhonePort} (h : q.sup.state = .seizing) : afterLoop now false q =
    { q.sup with loop := false, state := .onHook, seizeTimer := .stopped } := by
  simp only [afterLoop, h]

theorem afterLoop_offHook {now : Time} {q : PhonePort} (h : q.sup.state = .offHook) : afterLoop now false q =
    { q.sup with
      loop := false, state := .break_, breakStart := now, breakTiming := q.timing
      breakTimer := .running (now + ms q.timing.flashMax) } := by
  simp only [afterLoop, h]

theorem afterLoop_break {now : Time} {q : PhonePort} (h : q.sup.state = .break_) :
    afterLoop now true q = afterBreak now { q with sup := { q.sup with loop := true } } := by
  simp only [afterLoop, h]

theorem afterBreak_loop {now : Time} {q : PhonePort} : (afterBreak now q).loop = q.sup.loop := by
  unfold afterBreak
  dsimp only
  (repeat' split) <;> rfl

theorem afterLoop_loop {now : Time} {q : PhonePort} : (afterLoop now b q).loop = b := by
  unfold afterLoop
  dsimp only
  split
  case h_4 => exact afterBreak_loop
  all_goals rfl

end

/-- Settles O36. -/
theorem loopChangesMoveTheHookState : Obligations.LoopChangesMoveTheHookState := by
  intro p sense present s hphase pins u q k b long flash digit
  have hexec : exec (.loopChange p sense present) s = .next (senseLoop p u) := exec_loopChange hphase
  have hsource : loopSource u p = loopSource s p := rfl
  have hbreak (h : loopHeard p u) : long ↔ endsBreak p u ∧ longBreak p u := by
    rw [endsBreak_iff_of_heard h]
    exact ⟨fun ⟨hs, hr, hg, hp⟩ => ⟨⟨hs, hr⟩, hg, hp⟩, fun ⟨⟨hs, hr⟩, hg, hp⟩ => ⟨hs, hr, hg, hp⟩⟩
  have hflash (h : loopHeard p u) : flash ↔ endsBreak p u ∧ longBreak p u ∧ ¬releasing p u := by
    refine ⟨fun ⟨hl, hshort⟩ => ?_, fun ⟨he, hl, hr⟩ =>
      ⟨(hbreak h).2 ⟨he, hl⟩, Nat.not_le.1 fun hlate => hr ⟨hl, hlate⟩⟩⟩
    obtain ⟨he, hl⟩ := (hbreak h).1 hl
    exact ⟨he, hl, fun hr => absurd hshort (Nat.not_lt.2 hr.2)⟩
  refine ⟨fun hstill => ?_, fun hfit hfrozen hmasked hsrc hread => ?_⟩
  · rw [hexec, senseLoop_of_not_heard]
    rintro ⟨hl, hs, hr⟩
    simp only [listening, Bool.and_eq_true, Option.isNone_iff_eq_none, Bool.not_eq_true'] at hl
    obtain ⟨⟨hfit, hfrozen⟩, hmasked⟩ := hl
    obtain h | h | h | h | h := hstill
    · exact absurd (hfit.symm.trans h) (by simp)
    · exact absurd h (by rw [show k.frozen = none from hfrozen]; simp)
    · exact absurd (hmasked.symm.trans h) (by simp)
    · rw [hsource, h] at hs
      cases hs
    · exact hr h
  · have heard : loopHeard p u := by
      refine ⟨?_, by rw [hsource]; exact Option.isSome_iff_ne_none.2 hsrc, hread⟩
      simp only [listening, Bool.and_eq_true, Option.isNone_iff_eq_none, Bool.not_eq_true']
      exact ⟨⟨hfit, hfrozen⟩, hmasked⟩
    have hsup : ((senseLoop p u).port p).sup = afterLoop s.now (loopReading u p) q := senseLoop_sup heard
    obtain ⟨hflashed, hunflashed⟩ := senseLoop_record heard
    have hcond : lifelineCond u p = lifelineCond s p := rfl
    have hchannels : (senseLoop p u).channels = (handAll (loopNotices p u) s).channels :=
      senseLoop_channels.trans (handAll_channels_congr (s := u) (t := s) rfl _)
    refine ⟨senseLoop p u, hexec, ?_, senseLoop_hookWindow heard, senseLoop_unwindowed (s := u), fun hs hr => ?_,
      fun hs hr => ?_, fun hs hr => ?_, fun hs hr => ?_, fun ⟨hf, hlocal⟩ => ?_, fun hno => ?_, fun ⟨hl, hf⟩ => ?_,
      fun hshort => ?_, senseLoop_port_other (otherPort_ne p), eq_with_of_looped (u := u) (by simp [u])⟩
    · rw [hsup, afterLoop_loop]
    · rw [hsup, hr, afterLoop_onHook hs]
      exact ⟨rfl, rfl, rfl⟩
    · rw [hsup, hr, afterLoop_seizing hs]
      exact ⟨rfl, rfl⟩
    · rw [hsup, hr, afterLoop_offHook hs]
      exact ⟨rfl, rfl, rfl, rfl⟩
    · rw [hsup, hr, afterLoop_break hs]
      refine ⟨fun hb => afterBreak_inCall hb, fun hg => ?_, fun hg hp => ?_, fun hg hp hm => ?_, fun hg hp hm => ?_⟩
      · rw [afterBreak, if_pos hg]
        exact ⟨rfl, rfl⟩
      · rw [afterBreak, if_neg (Nat.not_lt.2 hg), if_pos hp]
        exact ⟨rfl, rfl⟩
      · rw [afterBreak, if_neg (Nat.not_lt.2 hg), if_neg (Nat.not_le.2 hp), if_pos hm]
      · rw [afterBreak, if_neg (Nat.not_lt.2 hg), if_neg (Nat.not_le.2 hp), if_neg (Nat.not_lt.2 hm)]
        exact ⟨rfl, rfl, rfl, rfl⟩
    · obtain ⟨he, hl, hr⟩ := (hflash heard).1 hf
      refine ⟨?_, hflashed ⟨⟨he, hl, hr⟩, hlocal⟩⟩
      rw [hchannels, loopNotices_of_flash he hl hr]
      simp only [flashNotices, digitNotices, digitRecord, hcond, hlocal, Bool.false_eq_true, if_false]
      rfl
    · exact hunflashed fun ⟨hf, hlocal⟩ => hno ⟨(hflash heard).2 hf, hlocal⟩
    · obtain ⟨he, hlong⟩ := (hbreak heard).1 hl
      have hrel : releasing p u := by
        by_contra hr
        exact hf ((hflash heard).2 ⟨he, hlong, hr⟩)
      rw [hchannels, loopNotices_of_release he hrel]
      rfl
    · obtain hl | ⟨hf, hlife⟩ := hshort
      · rw [hchannels, loopNotices_of_short fun hc => hl ((hbreak heard).2 hc)]
        rfl
      · obtain ⟨he, hl, hr⟩ := (hflash heard).1 hf
        rw [hchannels, loopNotices_of_flash he hl hr]
        simp only [flashNotices, digitNotices, hcond, hlife, if_true]
        rfl

end Sys2Proof.Machine
end

