-- ==== Sys2Proof/Proofs/AbortsByRelease.lean ====
section
namespace Sys2Proof.Machine

/-! ## Entering RELEASE (R59, R144) -/

section
variable {x : Test} {s : State}

theorem releaseChange_bus : (releaseChange s x).bus = some .disconnected := by
  unfold releaseChange
  split <;> rfl

theorem enterRelease_eq_applied (hx : s.engine.test = some x) : enterRelease s =
    let u := updTest (fun t => { t with phase := .release }) s
    applied (releaseChange u x) .testRelease x.id u := by
  unfold enterRelease applyRelease
  simp only [hx]
  rw [applyChange_of_allowed (refusedByBus_of_bus (by simp [releaseChange_bus]))]

/-- What the entry into RELEASE makes of a state in which a test stands (R59, R144). -/
structure Releasing (x : Test) (s t : State) : Prop where
  engine : t.engine = { s.engine with test := some { x with phase := .release } }
  relays : t.relays = releasedRelays x t s.relays
  slots : t.sched.slots = s.sched.slots
  opened : windowOpened (relayWindow s.now (some x.id)) 3 s t

theorem enterRelease_releasing (hx : s.engine.test = some x) : Releasing x s (enterRelease s) := by
  have hengine : (updTest (fun t => { t with phase := .release }) s).engine =
      { s.engine with test := some { x with phase := .release } } := by simp [updTest, hx]
  have hrest : (steady (enterRelease s)).rest = (steady s).rest := by rw [enterRelease_steady hx]
  refine ⟨?_, ?_, ?_, ?_⟩
  · rw [enterRelease_eq_applied hx, applied_engine, hengine]
    intro y hy
    rw [hengine] at hy
    cases hy
    simp
  · rw [enterRelease_relays hx, releasedRelays_of_rest (by simp) hrest]
  · rw [enterRelease_eq_applied hx]
    exact applied_slots
  · rw [enterRelease_eq_applied hx]
    exact applied_opened rfl le_rfl

end

/-! ## A cause that releases (R146, R147) -/

/-- After this cause a test in flight releases its relays: they are not lost, nor released apart (R147, R148). -/
def releasesBy (why : AbortReason) (x : Test) : Prop :=
  why ≠ .powerAbort ∧ (why = .faultAbort → x.target ≠ .exchange)

/-- The notices that an abort may hand beside TEST_DONE and FAULT: those of a lost gate's hold, of the record that ends
and of the loops that change. -/
structure AbortNotices (P : Notice → Prop) : Prop extends Ending P where
  grants : ∀ n, n.kind = .claimGranted → P n
  rings : ∀ n, n.kind = .ringEnd → P n

theorem loopNotice_kind {p : Port} {n : Notice} (h : LoopNotice p n) :
    n.kind = .hook ∨ n.kind = .digit ∨ n.kind = .unplanned := by
  rcases h with ⟨h, -⟩ | ⟨h, -⟩ | ⟨h, -⟩ <;> simp [h]

theorem abortNotices_of_ne {k : Kind}
    (hk : k ∉ [.hook, .digit, .unplanned, .disturbDone, .claimGranted, .ringEnd]) :
    AbortNotices (fun n => n.kind ≠ k) := by
  simp only [List.mem_cons, List.not_mem_nil, or_false, not_or] at hk
  obtain ⟨hhook, hdigit, hunplanned, hdone, hgranted, hring⟩ := hk
  refine ⟨⟨fun p n hn => ?_, fun n hn => ?_⟩, fun n hn => ?_, fun n hn => ?_⟩
  · rcases loopNotice_kind hn with h | h | h <;> simp only [h] <;> exact Ne.symm ‹_›
  all_goals
    rw [hn]
    exact Ne.symm ‹_›

section
variable {why : AbortReason} {x y : Test} {s : State} {P : Notice → Prop} {a : PerChan ChannelRec}

theorem actOnAbort_of_releases (h : releasesBy why x) : actOnAbort why x s = abortByRelease x s := by
  obtain ⟨hpower, hfault⟩ := h
  unfold actOnAbort
  split
  · next hn => simp [abortByRelease, hn]
  · split
    · exact absurd rfl hpower
    · next ht => exact absurd ht (hfault rfl)
    · rfl

/-- An abort outside RELEASE acts once the reason stands and the fault is raised (R146). -/
theorem abortTest_acts (hx : s.engine.test = some x) (hp : x.phase ≠ .release) :
    abortTest why s = actOnAbort why (withAbort why x) (abortRaised why x s) := by
  unfold abortTest
  simp only [hx, if_neg hp]
  rfl

theorem abortTest_acts_in_release (hx : s.engine.test = some x) (hp : x.phase = .release) :
    abortTest why s = actOnAbort why x s := by
  unfold abortTest
  simp only [hx, if_pos hp]

theorem abortTest_releases (h : releasesBy why x) (hx : s.engine.test = some x) (hp : x.phase ≠ .release) :
    abortTest why s = abortByRelease (withAbort why x) (abortRaised why x s) := by
  rw [abortTest_acts hx hp]
  exact actOnAbort_of_releases h

theorem abortTest_in_release (h : releasesBy why x) (hx : s.engine.test = some x) (hp : x.phase = .release) :
    abortTest why s = s := by
  rw [abortTest_acts_in_release hx hp, actOnAbort_of_releases h, abortByRelease, hp]

/-! ### The end of an aborted test (R145) -/

theorem gateLeft_steady : steady (gateLeft x s) = steady s := by
  unfold gateLeft gatedRelease
  (repeat' split) <;> simp

theorem gateLeft_emits (hP : AbortNotices P) (h : Emits P a s.channels) : Emits P a (gateLeft x s).channels := by
  unfold gateLeft gatedRelease
  (repeat' split)
  · exact grantNext_emits (ringLosesHold_emits (s := removeHold _ s) (by simpa using h) _ _ hP.toEnding hP.rings) _
      hP.grants
  all_goals exact h

/-- No ring session hangs on the TEST function (R33). -/
theorem gateLeft_ring (hx : x.target = .exchange) : (gateLeft x s).ring = s.ring := by
  have hring (c : Channel) (u : State) : ringLosesHold .test c u = u := rfl
  unfold gateLeft gatedRelease
  (repeat' split)
  · rw [show targetFunc x.target = .test by rw [hx]; rfl, hring]
    simp
  all_goals rfl

theorem homeTold_steady : steady (homeTold x s) = steady s := by
  unfold homeTold
  split <;> simp

theorem homeTold_channels : (homeTold x s).channels = s.channels := by
  unfold homeTold
  split
  · exact homeTestEnded_channels
  · rfl

theorem homeTold_parts : (homeTold x s).ring = s.ring ∧ (homeTold x s).lines = s.lines := by
  unfold homeTold
  split <;> simp

theorem doneTold_of_aborted (ha : x.abort.isSome = true) : doneTold x s = doneHanded x s := by
  simp [doneTold, doneHanded, outcomeOf_of_abort ha]
  rfl

theorem testGone_steady : steady (testGone s) = { steady s with test := none } := rfl

/-- A test ends ABORTED (R145). -/
theorem endTest_steady_of_aborted (hx : s.engine.test = some x) (ha : x.abort.isSome = true) :
    steady (endTest s) = { steady s with test := none, result := some (resultOf x s.now) } := by
  rw [endTest_eq hx, testGone_steady, homeTold_steady, gateLeft_steady, doneTold_of_aborted ha, doneHanded,
    postCompletion_steady]
  rfl

theorem endTest_test_none (hx : s.engine.test = some x) : (endTest s).engine.test = none := by
  rw [endTest_eq hx]
  rfl

/-- Beside TEST_DONE the end of an aborted test hands what the gate's hold gives up. -/
theorem endTest_emits_after_done (hP : AbortNotices P) (hx : s.engine.test = some x) (ha : x.abort.isSome = true) :
    Emits P (doneHanded x s).channels (endTest s).channels := by
  rw [endTest_eq hx, testGone, State.updEngine_channels, homeTold_channels, doneTold_of_aborted ha]
  exact gateLeft_emits hP .refl

theorem endTest_ring_of_exchange (hx : s.engine.test = some x) (ha : x.abort.isSome = true)
    (ht : x.target = .exchange) : (endTest s).ring = s.ring := by
  rw [endTest_eq hx, testGone, State.updEngine_ring, homeTold_parts.1, gateLeft_ring ht, doneTold_of_aborted ha]
  simp [doneHanded]

/-! ### An abort, phase by phase -/

/-- What an abort by release makes of a test outside RELEASE (R145 to R147). -/
structure AbortedBy (why : AbortReason) (x : Test) (s t : State) : Prop where
  faulted : Faulted [abortFault why x s] s t
  emits : ∀ P : Notice → Prop, AbortNotices P → (∀ n, n.kind = .fault → P n) → (∀ n, n.kind = .testDone → P n) →
    Emits P s.channels t.channels
  ring : x.target = .exchange ∨ x.phase ≠ .notify → t.ring = s.ring
  ended : x.phase = .notify → t.engine.test = none ∧ t.engine.result = some (resultOf (withAbort why x) s.now) ∧
    HandsTo (ofKind .testDone) [(testDone (withAbort why x) s.now, some x.requester)] s.channels t.channels ∧
    t.relays = s.relays ∧ t.settles = s.settles
  releasing : x.phase ≠ .notify →
    t.engine.test = some { withAbort why x with phase := .release, clean := cleanAt x s.now } ∧
    t.relays = releasedRelays x t s.relays ∧ windowOpened (relayWindow s.now (some x.id)) 3 s t ∧
    HandsTo (ofKind .testDone) [] s.channels t.channels ∧ t.lines = s.lines ∧ t.sched.slots = s.sched.slots ∧
    (x.phase = .measure → t.engine.cleanDue = none ∧ t.engine.wallDue = none)

theorem abortRaised_emits (hfault : ∀ n, n.kind = .fault → P n) :
    Emits P s.channels (abortRaised why x s).channels :=
  raiseFault_emits hfault _ .refl

theorem handsTo_testDone_of_emits {b : PerChan ChannelRec} (h : Emits (fun n => n.kind ≠ .testDone) a b) :
    HandsTo (ofKind .testDone) [] a b :=
  h.handsTo (lasting_ofKind rfl) fun n hn => by simpa [ofKind] using hn

/-- The state in which an abort in NOTIFY ends the test: its record is cancelled (R147). -/
def abortCancelled (why : AbortReason) (x : Test) (s : State) : State :=
  (cancelSlot (targetSlot x.target) (abortRaised why x s)).getD (abortRaised why x s)

theorem abortCancelled_parts : (abortCancelled why x s).engine.test = some (withAbort why x) ∧
    (abortCancelled why x s).clock = s.clock ∧ (abortCancelled why x s).ring = s.ring ∧
    (abortCancelled why x s).relays = s.relays ∧ (abortCancelled why x s).settles = s.settles := by
  obtain ⟨htest, -, hclock, hring⟩ := cancelled_frame (s := abortRaised why x s) (targetSlot x.target)
  refine ⟨htest.trans (by simp), hclock.trans (by simp), hring.trans (by simp), ?_, ?_⟩
  · unfold abortCancelled cancelSlot
    split <;> simp
  · unfold abortCancelled cancelSlot
    split <;> simp [abortRaised]

theorem abortCancelled_steady : steady (abortCancelled why x s) = steady (abortRaised why x s) := cancelSlot_steady _

theorem abortTest_of_notified (h : releasesBy why x) (hx : s.engine.test = some x) (hp : x.phase = .notify) :
    abortTest why s = endTest (abortCancelled why x s) := by
  rw [abortTest_releases h hx (by simp [hp]), abortByRelease, show (withAbort why x).phase = .notify from hp]
  rfl

theorem abortedBy_of_notify (h : releasesBy why x) (hx : s.engine.test = some x) (hp : x.phase = .notify) :
    AbortedBy why x s (abortTest why s) := by
  let y := withAbort why x
  let v := abortCancelled why x s
  obtain ⟨hvt, hclock, hring, hrelays, hsettles⟩ := abortCancelled_parts (why := why) (x := x) (s := s)
  have hnow : v.now = s.now := congrArg Clock.timebase hclock
  have hsteady : steady (endTest v) = { steady (abortRaised why x s) with
      test := none, result := some (resultOf y s.now) } := by
    rw [endTest_steady_of_aborted hvt rfl, hnow, abortCancelled_steady]
  have hcancel {P : Notice → Prop} (hP : AbortNotices P) : Emits P (abortRaised why x s).channels v.channels :=
    cancelled_emits hP.records .refl _
  have hend {P : Notice → Prop} (hP : AbortNotices P) := endTest_emits_after_done hP hvt rfl
  rw [abortTest_of_notified h hx hp]
  refine ⟨?_, fun P hP hfault hdone => ?_, fun hor => ?_, fun _ => ⟨?_, ?_, ?_, by simp [hrelays], by simp [hsettles]⟩,
    fun hn => absurd hp hn⟩
  · have hemits : Emits (fun n => n.kind ≠ .fault) (abortRaised why x s).channels (endTest v).channels :=
      (postCompletion_emits (s := v.updEngine _) (by simp [testDone]) (hcancel (abortNotices_of_ne (by decide)))).trans
        (hend (abortNotices_of_ne (by decide)))
    have hrest := faulted_of_emits (s := abortRaised why x s) (t := endTest v) (by simp [v, hclock])
      (congrArg Steady.faults hsteady) hemits fun _ hn => hn
    simpa using abortRaised_faulted.trans hrest
  · exact ((abortRaised_emits hfault).trans (hcancel hP)).trans
      ((postCompletion_emits (s := v.updEngine _) (hdone _ rfl) .refl).trans (hend hP))
  · rw [endTest_ring_of_exchange hvt rfl (hor.resolve_right (by simp [hp])), hring]
  · exact endTest_test_none hvt
  · exact congrArg Steady.result hsteady
  · have hne : AbortNotices (fun n : Notice => n.kind ≠ .testDone) := abortNotices_of_ne (by decide)
    have hbefore := handsTo_testDone_of_emits ((abortRaised_emits fun n hn => by simp [hn]).trans (hcancel hne))
    have hdone : HandsTo (ofKind .testDone) [(testDone y v.now, some y.requester)] v.channels
        (doneHanded y v).channels :=
      postCompletion_handsTo (s := v.updEngine _) (lasting_ofKind rfl) rfl
    have hall := hbefore.nil_trans (hdone.trans_nil (handsTo_testDone_of_emits (hend hne)))
    rwa [hnow] at hall

/-- The state in which an abort in CONNECT or in MEASURE enters RELEASE: the clean time is fixed (R147). -/
def abortFixed (why : AbortReason) (x : Test) (s : State) : State :=
  match x.phase with
  | .measure => fixClean (abortRaised why x s)
  | _ => dropSettle .testConnect (abortRaised why x s)

theorem abortFixed_parts : (abortFixed why x s).clock = s.clock ∧ (abortFixed why x s).ring = s.ring ∧
    (abortFixed why x s).relays = s.relays ∧ (abortFixed why x s).lines = s.lines ∧
    (abortFixed why x s).sched = s.sched ∧ (abortFixed why x s).faults = (abortRaised why x s).faults ∧
    (abortFixed why x s).channels = (abortRaised why x s).channels := by
  unfold abortFixed
  split <;> simp [fixClean, updTest, stopTestTimers, dropSettle, abortRaised]

theorem abortFixed_engine : (abortFixed why x s).engine.test =
      some { withAbort why x with clean := cleanAt x s.now } ∧
    (x.phase = .measure → (abortFixed why x s).engine.cleanDue = none ∧ (abortFixed why x s).engine.wallDue = none) := by
  by_cases hm : x.phase = .measure
  · have hnow : (abortRaised why x s).now = s.now := by simp [State.now]
    have hy : (withAbort why x).phase = .measure := hm
    have hclean : cleanSoFar (withAbort why x) s.now = cleanAt x s.now := cleanSoFar_eq hm _
    simp [abortFixed, hm, fixClean, updTest, stopTestTimers, hy, hnow, hclean]
  · have hfixed : abortFixed why x s = dropSettle .testConnect (abortRaised why x s) := by
      unfold abortFixed
      split
      · next h => exact absurd h hm
      · rfl
    rw [hfixed, cleanAt_of_not_measure hm]
    exact ⟨abortRaised_test, fun h => absurd h hm⟩

theorem abortTest_of_past_notify (h : releasesBy why x) (hx : s.engine.test = some x)
    (hp : x.phase = .connect ∨ x.phase = .measure) : abortTest why s = enterRelease (abortFixed why x s) := by
  rw [abortTest_releases h hx (by rcases hp with hp | hp <;> simp [hp]), abortByRelease, abortFixed]
  have hphase : (withAbort why x).phase = x.phase := rfl
  rcases hp with hp | hp <;> simp only [hphase, hp]

theorem abortedBy_of_past_notify (h : releasesBy why x) (hx : s.engine.test = some x)
    (hp : x.phase = .connect ∨ x.phase = .measure) : AbortedBy why x s (abortTest why s) := by
  let w := abortFixed why x s
  obtain ⟨hclock, hring, hrelays, hlines, hsched, hfaults, hchannels⟩ := abortFixed_parts (why := why) (x := x) (s := s)
  obtain ⟨htest, htimers⟩ := abortFixed_engine (why := why) (x := x) (s := s)
  have hnow : w.now = s.now := congrArg Clock.timebase hclock
  have hrel := enterRelease_releasing htest
  have hemits {P : Notice → Prop} (hP : AbortNotices P) :
      Emits P (abortRaised why x s).channels (enterRelease w).channels := by
    rw [← hchannels]
    exact enterRelease_emits hP.loops .refl
  rw [abortTest_of_past_notify h hx hp]
  refine ⟨?_, fun P hP hfault _ => (abortRaised_emits hfault).trans (hemits hP), fun _ => by simp [hring],
    fun hn => by simp [hn] at hp, fun _ => ⟨?_, ?_, ?_, ?_, by simp [hlines], by rw [hrel.slots, hsched],
      fun hm => ?_⟩⟩
  · have hrest := faulted_of_emits (s := abortRaised why x s) (t := enterRelease w) (by simp [w, hclock])
      ((congrArg Steady.faults (enterRelease_steady htest)).trans (congrArg unwatched hfaults))
      (hemits (abortNotices_of_ne (by decide))) fun _ hn => hn
    simpa using abortRaised_faulted.trans hrest
  · rw [hrel.engine]
  · rw [hrel.relays, hrelays]
    rfl
  · have hopened := hrel.opened
    rw [windowOpened, hnow, hsched] at hopened
    exact hopened
  · exact handsTo_testDone_of_emits
      ((abortRaised_emits fun n hn => by simp [hn]).trans (hemits (abortNotices_of_ne (by decide))))
  · rw [hrel.engine]
    exact htimers hm

/-- An abort by release, in every phase but RELEASE (R145 to R147). -/
theorem abortTest_abortedBy (h : releasesBy why x) (hx : s.engine.test = some x) (hp : x.phase ≠ .release) :
    AbortedBy why x s (abortTest why s) := by
  cases hphase : x.phase with
  | notify => exact abortedBy_of_notify h hx hphase
  | connect => exact abortedBy_of_past_notify h hx (.inl hphase)
  | measure => exact abortedBy_of_past_notify h hx (.inr hphase)
  | release => exact absurd hphase hp

end

end Sys2Proof.Machine
end

