-- ==== Sys2Proof/Proofs/CleanTime.lean ====
section
namespace Sys2Proof.Machine

/-! ## The clean time counts the instants outside the intervals (R142) -/

/-- An instant lies in an interval of a list. -/
def coveredAt (l : List (Nat × Nat)) (k : Nat) : Bool := l.any (fun i => decide (i.1 ≤ k ∧ k < i.2))

/-- Intervals run forward and follow one another. -/
def Ordered (l : List (Nat × Nat)) : Prop := (∀ i ∈ l, i.1 ≤ i.2) ∧ l.Pairwise (fun a b => a.2 ≤ b.1)

section
variable {a b k m n : Nat} {i : Nat × Nat} {l : List (Nat × Nat)}

theorem coveredAt_cons : coveredAt ((a, b) :: l) k = (decide (a ≤ k ∧ k < b) || coveredAt l k) := rfl

theorem ordered_cons : Ordered (i :: l) ↔ i.1 ≤ i.2 ∧ (∀ j ∈ l, i.2 ≤ j.1) ∧ Ordered l := by
  simp only [Ordered, List.forall_mem_cons, List.pairwise_cons]
  tauto

theorem coveredAt_of_before (h : ∀ j ∈ l, k < j.1) : coveredAt l k = false := by
  rw [coveredAt, List.any_eq_false]
  intro j hj
  have := h j hj
  simp
  omega

/-- One instant more covers at most that instant more. -/
theorem coveredWithin_succ (h : Ordered l) : coveredWithin (n + 1) l = coveredWithin n l + (coveredAt l n).toNat := by
  induction l with
  | nil => rfl
  | cons i rest ih =>
    obtain ⟨a, b⟩ := i
    obtain ⟨hab, hafter, hrest⟩ := ordered_cons.mp h
    rw [coveredWithin, coveredWithin, ih hrest, coveredAt_cons]
    dsimp only at hab hafter
    by_cases hin : a ≤ n ∧ n < b
    · rw [coveredAt_of_before fun j hj => lt_of_lt_of_le hin.2 (hafter j hj)]
      simp [hin]
      omega
    · simp only [hin, decide_false, Bool.false_or]
      omega

theorem coveredWithin_add_clean (h : Ordered l) :
    coveredWithin n l + ((List.range n).filter (fun k => !coveredAt l k)).length = n := by
  induction n with
  | zero =>
    induction l with
    | nil => rfl
    | cons i rest ih =>
      have := ih (ordered_cons.mp h).2.2
      simp only [List.range_zero, List.filter_nil, List.length_nil, coveredWithin] at this ⊢
      omega
  | succ n ih =>
    rw [coveredWithin_succ h, List.range_succ, List.filter_append, List.length_append]
    cases hc : coveredAt l n <;> simp [hc] <;> omega

/-! ### Joining the span of the open mark -/

theorem joinInterval_from (hl : ∀ i ∈ l, m ≤ i.1) (ha : m ≤ a) : ∀ i ∈ joinInterval a b l, m ≤ i.1 := by
  induction l generalizing a b with
  | nil => simpa [joinInterval] using ha
  | cons i rest ih =>
    obtain ⟨hc, hrest⟩ := List.forall_mem_cons.mp hl
    unfold joinInterval
    split
    · exact List.forall_mem_cons.mpr ⟨hc, ih hrest ha⟩
    · split
      · exact List.forall_mem_cons.mpr ⟨ha, hl⟩
      · exact ih hrest (by omega)

theorem joinInterval_ordered (h : Ordered l) (hab : a ≤ b) : Ordered (joinInterval a b l) := by
  induction l generalizing a b with
  | nil => simpa [joinInterval, Ordered] using hab
  | cons i rest ih =>
    obtain ⟨c, d⟩ := i
    obtain ⟨hcd, hafter, hrest⟩ := ordered_cons.mp h
    dsimp only at hcd hafter
    unfold joinInterval
    split
    · next hd => exact ordered_cons.mpr ⟨hcd, joinInterval_from hafter hd.le, ih hrest hab⟩
    · split
      · next hb =>
        refine ordered_cons.mpr ⟨hab, List.forall_mem_cons.mpr ⟨hb.le, fun j hj => ?_⟩, h⟩
        exact (hb.le.trans hcd).trans (hafter j hj)
      · exact ih hrest (by omega)

theorem coveredAt_joinInterval : coveredAt (joinInterval a b l) k = (decide (a ≤ k ∧ k < b) || coveredAt l k) := by
  induction l generalizing a b with
  | nil => rfl
  | cons i rest ih =>
    obtain ⟨c, d⟩ := i
    unfold joinInterval
    split
    · rw [coveredAt_cons, ih, coveredAt_cons]
      ac_rfl
    · split
      · rfl
      · have hspan : decide (min a c ≤ k ∧ k < max b d) = (decide (a ≤ k ∧ k < b) || decide (c ≤ k ∧ k < d)) := by
          rw [← Bool.decide_or]
          exact decide_eq_decide.mpr (by omega)
        rw [ih, hspan, coveredAt_cons, Bool.or_assoc]

/-- The clean time over a span is the number of its instants that no interval and no open mark covers. -/
theorem cleanOver_eq_length {mark : Option Nat} (h : Ordered l) : cleanOver l mark n =
    ((List.range n).filter (fun k => !(coveredAt l k || mark.any (fun m => decide (m ≤ k))))).length := by
  have hclean {l' : List (Nat × Nat)} (h' : Ordered l')
      (heq : ∀ k < n, coveredAt l' k = (coveredAt l k || mark.any (fun m => decide (m ≤ k)))) :
      n - coveredWithin n l' =
        ((List.range n).filter (fun k => !(coveredAt l k || mark.any (fun m => decide (m ≤ k))))).length := by
    have hcount := coveredWithin_add_clean (n := n) h'
    rw [← List.filter_congr fun k hk => congrArg not (heq k (List.mem_range.mp hk))]
    omega
  unfold cleanOver
  cases mark with
  | none => exact hclean h fun k _ => by simp
  | some m =>
    dsimp only
    split
    · next hm =>
      refine hclean (joinInterval_ordered h hm.le) fun k hk => ?_
      simp [coveredAt_joinInterval, hk, Bool.or_comm]
    · next hm =>
      refine hclean h fun k hk => ?_
      have hlate : ¬m ≤ k := by omega
      simp [hlate]

end

end Sys2Proof.Machine
end

