-- ==== Sys2Proof/Proofs/TestsMeasured.lean ====
section
namespace Sys2Proof.Machine

/-! ## ABORT TEST (R149) -/

section
variable {i : Instr} {o : Code} {l : List Byte} {s t : State}

theorem eq_with_of_abortedByRequest (h : t.pending = s.pending ∧ t.phase = s.phase ∧ t.clock = s.clock ∧
      t.pins = s.pins ∧ t.twoPorts = s.twoPorts ∧ t.relays = s.relays ∧ t.settles = s.settles ∧ t.dsl = s.dsl ∧
      t.power = s.power ∧ t.store = s.store ∧ t.occasion = s.occasion) :
    t = { s with
      gateway := t.gateway, modem := t.modem, channels := t.channels, lines := t.lines
      sched := t.sched, tracker := t.tracker, ports := t.ports, ring := t.ring
      engine := t.engine, faults := t.faults } := by
  cases s
  cases t
  simpa using h

theorem releasedRelays_answered {x : Test} {k : Relays} : releasedRelays x (answered i o l s) k = releasedRelays x s k :=
  releasedRelays_of_rest (by simp)
    (congrArg Steady.rest (steady_of_frame (t := answered i o l s) (by simp) (by simp) (by simp))) k

/-- The answer to a request raises nothing of its own. -/
theorem raises_answered {m : List Raised} (h : Faulted m (frameIn i s) t) (hm : m.length ≤ 16) :
    raises m s (answered i o l t) := by
  have hall := ((frameIn_quiet (s := s) i).faulted.trans h).trans (answered_quiet i o l).faulted
  simpa using hall.raises (by simpa using hm)

end

section
variable {r : Req} {x : Test} {s : State}

theorem abortTest_exec {reached phase : Byte} (ht : frameTaken (.abortTest r) s) (hx : s.engine.test = some x)
    (hlevel : ¬(r.channel ≠ x.requester ∧ 0 < effLevel r)) (hreached : flagByte (abortable x) = reached)
    (hphase : byte (phaseCode (abortTest .requested (frameIn (.abortTest r) s)).engine.test) = phase) :
    exec (.abortTest r) s = .next (answered (.abortTest r) .ok [reached, phase]
      (abortTest .requested (frameIn (.abortTest r) s))) := by
  refine exec_of_answer ht rfl ?_
  change answerAbortTest r _ = _
  unfold answerAbortTest
  simp only [frameIn_parts, hx]
  rw [if_neg hlevel, hreached, hphase]

theorem releasesBy_requested : releasesBy .requested x := ⟨by decide, fun h => by cases h⟩

/-- The request's abort, with the fault in the terms of the statement. -/
theorem abortFaults_requested (hx : s.engine.test = some x) (hp : x.phase ≠ .release) :
    abortFaults 1 s = [abortFault .requested x s] := abortFaults_eq (why := .requested) hx hp

/-- What ABORT TEST makes of a test outside RELEASE, its request and its answer beside it. -/
theorem abortTest_requested (hx : s.engine.test = some x) (hp : x.phase ≠ .release) (i : Instr) :
    AbortedBy .requested x (frameIn i s) (abortTest .requested (frameIn i s)) :=
  abortTest_abortedBy releasesBy_requested (by simpa using hx) hp

theorem abortTest_raises (hx : s.engine.test = some x) (hp : x.phase ≠ .release) (i : Instr) (o : Code)
    (l : List Byte) : raises (abortFaults 1 s) s (answered i o l (abortTest .requested (frameIn i s))) := by
  have hfault : abortFault .requested x (frameIn i s) = abortFault .requested x s := by
    simp [abortFault, raisedAt]
  rw [abortFaults_requested hx hp, ← hfault]
  exact raises_answered (abortTest_requested hx hp i).faulted (by simp)

theorem abortTest_responds (i : Instr) (o : Code) (l : List Byte) :
    respondedWith i o l s (answered i o l (abortTest .requested (frameIn i s))) :=
  respondedWith_of_ports (by simp) (by simp)

end

/-! ## The end of MEASURE (R143) -/

section
variable {x : Test} {s t : State}

theorem eq_with_of_measured (h : t.pending = s.pending ∧ t.phase = s.phase ∧ t.clock = s.clock ∧ t.pins = s.pins ∧
      t.twoPorts = s.twoPorts ∧ t.gateway = s.gateway ∧ t.modem = s.modem ∧ t.lines = s.lines ∧ t.dsl = s.dsl ∧
      t.ring = s.ring ∧ t.power = s.power ∧ t.store = s.store ∧ t.occasion = s.occasion) :
    t = { s with
      channels := t.channels, relays := t.relays, settles := t.settles, sched := t.sched
      tracker := t.tracker, ports := t.ports, engine := t.engine, faults := t.faults } := by
  cases s
  cases t
  simpa using h

/-- MEASURE ends with a clean time and values, and the test is in RELEASE. -/
structure MeasureEnded (x : Test) (clean : Nat) (values : Option (List Measurement)) (short : Bool) (s t : State) :
    Prop where
  engine : t.engine = { s.engine with
    wallDue := none, cleanDue := none
    test := some { x with phase := .release, clean := clean, values := values, short := short } }
  relays : t.relays = releasedRelays x t s.relays
  opened : windowOpened (relayWindow s.now (some x.id)) 3 s t
  rest : t = { s with
    channels := t.channels, relays := t.relays, settles := t.settles, sched := t.sched
    tracker := t.tracker, ports := t.ports, engine := t.engine, faults := t.faults }

theorem endMeasure_ended (hx : s.engine.test = some x) (clean : Nat) (values : Option (List Measurement))
    (short : Bool) : MeasureEnded x clean values short s (endMeasure clean values short s) := by
  let y : Test := { x with clean := clean, values := values, short := short }
  have hy : (updTest (fun t => { t with clean := clean, values := values, short := short })
      (stopTestTimers s)).engine.test = some y := by simp [updTest, stopTestTimers, hx, y]
  obtain ⟨hengine, hrelays, -, hopened⟩ := enterRelease_releasing hy
  exact ⟨hengine, hrelays, hopened, eq_with_of_measured (by simp)⟩

theorem cleanTimerExpiry_exec (readings : Readings) (hx : s.engine.test = some x)
    (hdue : timerDue s.now s.engine.cleanDue = true) : exec (.cleanTimerExpiry readings) s =
    .next (endMeasure (x.kind.measureMs * 1000)
      (some (takeMeasurements x.kind readings s.engine.cable false)) false s) := by
  change done (if _ then cleanReached readings s else s) = _
  rw [if_pos hdue, cleanReached, hx]
  rfl

/-- The clean time over the whole period of a test (R143). -/
def cleanAtWall (x : Test) : Nat := cleanOver x.exclusions x.openMark (2 * (x.kind.measureMs * 1000))

theorem wallTimerExpiry_exec (readings : Readings) (hx : s.engine.test = some x)
    (hdue : timerDue s.now s.engine.wallDue = true) : exec (.wallTimerExpiry readings) s = .next
    (if x.kind.measureMs * 1000 ≤ cleanAtWall x then
      endMeasure (cleanAtWall x) (some (takeMeasurements x.kind readings s.engine.cable false)) false s
    else if x.kind.measureMs * 1000 ≤ 2 * cleanAtWall x then
      endMeasure (cleanAtWall x) (some (takeMeasurements x.kind readings s.engine.cable true)) true s
    else endMeasure (cleanAtWall x) none false s) := by
  change done (if _ then wallReached readings s else s) = _
  rw [if_pos hdue, wallReached, hx]
  rfl

/-- An expiry that ends MEASURE, in the terms of the statement. -/
theorem released_of_ended {c : Instr} {clean : Nat} {values : Option (List Measurement)} {short : Bool}
    (hx : s.engine.test = some x) (h : exec c s = .next (endMeasure clean values short s)) :
    ∃ t, exec c s = .next t ∧
      t.engine = { s.engine with
        wallDue := none, cleanDue := none
        test := some { x with phase := .release, clean := clean, values := values, short := short } } ∧
      t.relays = releasedRelays x t s.relays ∧ windowOpened (relayWindow s.now (some x.id)) 3 s t ∧
      t = { s with
        channels := t.channels, relays := t.relays, settles := t.settles, sched := t.sched
        tracker := t.tracker, ports := t.ports, engine := t.engine, faults := t.faults } := by
  obtain ⟨hengine, hrelays, hopened, hrest⟩ := endMeasure_ended hx clean values short
  exact ⟨_, h, hengine, hrelays, hopened, hrest⟩

end

/-! ## The values (R135, R136) -/

section
variable {hi v : Int}

theorem capAt_eq : capAt hi v = (min hi v, decide (hi < v)) := by
  unfold capAt
  split <;> simp <;> omega

theorem capDc_eq : capDc v = (max (-250000) (min 250000 v), decide (250000 < v ∨ v < -250000)) := by
  unfold capDc capBoth
  (repeat' split) <;> simp <;> omega

/-- The length is saturated, and marked where the capacitance is (R136). -/
theorem lengthOf_eq (c : Int × Bool) (cable : Nat) : lengthOf c cable =
    (min 65535 (c.1 * 1000 / cable), decide (c.2 = true ∨ 65535 < c.1 * 1000 / cable)) := by
  unfold lengthOf
  dsimp only
  split
  · next h => simp [h]; omega
  · next h => simp [h]; omega

end

/-- Settles O44: an abort by its cause and phase, an end of MEASURE by its timer, and the clean time by induction on
the intervals. -/
theorem testsAreAbortedOrMeasured : Obligations.TestsAreAbortedOrMeasured := by
  refine ⟨fun r s ht => ⟨fun hx => ?_, fun x hx => ⟨fun hlevel => ?_, fun hlevel => ?_⟩⟩, fun readings x s hx hp => ?_,
    fun readings cable short hcable => ?_, fun l mark n hforward hordered => cleanOver_eq_length ⟨hforward, hordered⟩⟩
  · refine exec_of_answer ht rfl ?_
    change answerAbortTest r _ = _
    simp [answerAbortTest, hx, report]
  · refine exec_of_answer ht rfl ?_
    change answerAbortTest r _ = _
    simp [answerAbortTest, hx, hlevel, refuse]
  · refine ⟨fun hp => ?_, fun hp ha => ?_, fun hp ha => ?_⟩
    · have hstays : abortTest .requested (frameIn (.abortTest r) s) = frameIn (.abortTest r) s :=
        abortTest_in_release releasesBy_requested (by simpa using hx) hp
      rw [abortTest_exec ht hx hlevel (reached := 0) (phase := 4) (by simp [abortable, hp, flagByte])
        (by rw [hstays]; simp [hx, phaseCode, hp, byte]), hstays]
    · have hflight : x.phase ≠ .release := by simp [hp]
      obtain ⟨htest, hresult, hdone, hrelays, hsettles⟩ := (abortTest_requested hx hflight (.abortTest r)).ended hp
      rw [testDone_withAbort ha, frameIn_now] at hdone
      refine ⟨_, abortTest_exec ht hx hlevel (by simp [abortable, hp, ha, flagByte])
        (by simp [htest, phaseCode, byte]), abortTest_responds _ _ _, by simpa using htest, ?_, by simpa using hrelays,
        abortTest_raises hx hflight _ _ _, hands_answered hdone.hands, eq_with_of_abortedByRequest ?_⟩
      · rw [answered_engine, hresult, resultOf_withAbort ha, frameIn_now]
      · simp [hrelays, hsettles]
    · have hnotify : x.phase ≠ .notify := by rcases hp with h | h <;> simp [h]
      have hflight : x.phase ≠ .release := by rcases hp with h | h <;> simp [h]
      have hab := abortTest_requested hx hflight (.abortTest r)
      obtain ⟨htest, hrelays, hopened, hdone, hlines, hslots, htimers⟩ := hab.releasing hnotify
      refine ⟨_, _, abortTest_exec ht hx hlevel (by simp [abortable, hflight, ha, flagByte])
        (by simp [htest, phaseCode, byte]), abortTest_responds _ _ _, by rw [answered_engine, htest], ?_, ?_, ?_, ?_,
        abortTest_raises hx hflight _ _ _, hands_answered hdone.hands, fun hm => ?_, ?_, ?_, ?_⟩
      · simp [withAbort, ha]
      · simp
      · rw [releasedRelays_answered]
        simpa using hrelays
      · rw [windowOpened_answered, ← windowOpened_frameIn (i := .abortTest r)]
        simpa using hopened
      · simpa using htimers hm
      · simpa using hlines
      · simpa using hab.ring (.inr hnotify)
      · funext j
        simp [slotRec, hslots]
  · refine ⟨fun hdue => ?_, fun hdue => ?_, fun hdue => ?_, fun hdue => ?_⟩
    · change done (if _ then cleanReached readings s else s) = _
      rw [if_neg (by simp [hdue])]
      rfl
    · change done (if _ then wallReached readings s else s) = _
      rw [if_neg (by simp [hdue])]
      rfl
    · exact released_of_ended hx (cleanTimerExpiry_exec readings hx hdue)
    · have hexec := wallTimerExpiry_exec readings hx hdue
      refine ⟨fun hm => ?_, fun hm hhalf => ?_, fun hm => ?_⟩
      · exact released_of_ended hx (hexec.trans (congrArg _ (if_pos hm)))
      · exact released_of_ended hx (hexec.trans (congrArg _ ((if_neg (Nat.not_le.mpr hm)).trans (if_pos hhalf))))
      · have hwhole : ¬x.kind.measureMs * 1000 ≤ cleanAtWall x := by
          unfold cleanAtWall
          omega
        exact released_of_ended hx (hexec.trans (congrArg _ ((if_neg hwhole).trans (if_neg (Nat.not_le.mpr hm)))))
  · have hpos : ¬(cable = 0) := by omega
    simp [takeMeasurements, measuredValues, numberFrom, capAt_eq, capDc_eq, capResistance, capAc, lengthOf_eq]

end Sys2Proof.Machine
end

