-- ==== Sys2Proof/Proofs/ExchangeOnsets.lean ====
section
namespace Sys2Proof.Machine

/-! ## An exchange onset (R57, R131) -/

section
variable {s t u : State}

/-- What an onset hands: UNPLANNED with the bursts of the call, and EXCHANGE_RINGS at every N-th (R57, R131). -/
def onsetNotices (s : State) : List Handing :=
  let x := s.ring.exchange
  unplannedNoteOf s.now 3 none (min 255 (x.bursts + 1)) ::
    (if x.every ≠ 0 ∧ x.count + 1 = x.every then
      [(⟨.exchangeRings, 3, BitVec.ofNat 8 (min 255 (x.bursts + 1)), BitVec.ofNat 8 x.every, s.now, 0⟩, none)]
    else [])

/-- An onset's first steps: the burst counted and its window handed (R131). -/
def onsetCounted (s : State) : State :=
  handWindow .exchangeBurst none none s.now none (updExchange (fun x =>
    { x with ringing := true, burstOn := true, gapDue := none, bursts := min 255 (x.bursts + 1) }) s)

/-- The step of the count of onsets (R131, R133). -/
def onsetStepped (s : State) : State :=
  let x := s.ring.exchange
  if x.every = 0 then s
  else if x.count + 1 = x.every then
    updExchange (fun x => { x with count := 0 })
      (postSubscribed (notice .exchangeRings (byte x.bursts) (byte x.every) s.now 0) s)
  else updExchange (fun x => { x with count := x.count + 1 }) s

theorem onsetCounted_ring : (onsetCounted s).ring = { s.ring with exchange := { s.ring.exchange with
    ringing := true, burstOn := true, gapDue := none, bursts := min 255 (s.ring.exchange.bursts + 1) } } := by
  simp [onsetCounted, updExchange]

theorem onsetRecord_eq : onsetRecord s =
    onsetStepped (unplanned .exchangeBurst none (min 255 (s.ring.exchange.bursts + 1)) (onsetCounted s)) := by
  have hbursts : (onsetCounted s).ring.exchange.bursts = min 255 (s.ring.exchange.bursts + 1) := by
    rw [onsetCounted_ring]
  rw [← hbursts]
  rfl

theorem onsetStepped_ring : (onsetStepped s).ring = { s.ring with exchange := { s.ring.exchange with
    count := if s.ring.exchange.every = 0 then s.ring.exchange.count
      else if s.ring.exchange.count + 1 = s.ring.exchange.every then 0 else s.ring.exchange.count + 1 } } := by
  unfold onsetStepped
  dsimp only
  by_cases h : s.ring.exchange.every = 0
  · simp only [if_pos h]
  · by_cases hn : s.ring.exchange.count + 1 = s.ring.exchange.every
    · simp only [if_neg h, if_pos hn, updExchange, State.updRing_ring, postSubscribed_frame]
    · simp only [if_neg h, if_neg hn, updExchange, State.updRing_ring]

/-- The rest of the state stands through the step of the count, but for EXCHANGE_RINGS. -/
theorem onsetStepped_parts : (onsetStepped s).sched = s.sched ∧ (onsetStepped s).engine = s.engine := by
  unfold onsetStepped
  dsimp only
  (repeat' split) <;> simp [updExchange]

theorem onsetStepped_channels : (onsetStepped s).channels = (handAll
    (if s.ring.exchange.every ≠ 0 ∧ s.ring.exchange.count + 1 = s.ring.exchange.every then
      [(⟨.exchangeRings, 3, byte s.ring.exchange.bursts, byte s.ring.exchange.every, s.now, 0⟩, none)]
    else []) s).channels := by
  unfold onsetStepped
  dsimp only
  by_cases h : s.ring.exchange.every = 0
  · simp [h, handAll]
  · by_cases hn : s.ring.exchange.count + 1 = s.ring.exchange.every
    · simp only [if_pos hn, ne_eq, h, not_false_eq_true, true_and]
      rfl
    · simp [h, hn, handAll, updExchange]

theorem onsetCounted_now : (onsetCounted s).now = s.now := by simp [onsetCounted, State.now, updExchange]

theorem onsetRecord_ring : (onsetRecord s).ring = { s.ring with exchange := { s.ring.exchange with
    ringing := true, burstOn := true, gapDue := none, bursts := min 255 (s.ring.exchange.bursts + 1)
    count := if s.ring.exchange.every = 0 then s.ring.exchange.count
      else if s.ring.exchange.count + 1 = s.ring.exchange.every then 0 else s.ring.exchange.count + 1 } } := by
  rw [onsetRecord_eq, onsetStepped_ring]
  simp [onsetCounted_ring]

theorem onsetRecord_channels : (onsetRecord s).channels = (handAll (onsetNotices s) s).channels := by
  have hnow : (unplanned .exchangeBurst none (min 255 (s.ring.exchange.bursts + 1)) (onsetCounted s)).now = s.now := by
    simp [State.now, onsetCounted, updExchange]
  have hring : (unplanned .exchangeBurst none (min 255 (s.ring.exchange.bursts + 1)) (onsetCounted s)).ring =
      (onsetCounted s).ring := by simp
  rw [onsetRecord_eq, onsetStepped_channels, hring, onsetCounted_ring, hnow, unplanned_eq, onsetNotices, ← handAll_append,
    List.singleton_append, onsetCounted_now]
  exact handAll_channels_congr (by simp [onsetCounted, updExchange]) _

theorem onsetRecord_windows : (onsetRecord s).sched.windows = (onsetCounted s).sched.windows := by
  rw [onsetRecord_eq, onsetStepped_parts.1]
  simp

/-- The EXCHANGE_BURST window stands open after an onset (R59, R60). -/
theorem onsetRecord_window : ∃ w ∈ (onsetRecord s).sched.windows, .exchangeBurst ∈ w.keys := by
  let w := handed .exchangeBurst none none s.now none
  have hkeys : .exchangeBurst ∈ w.keys := by simp [w, handed, keyFor]
  have hadds : Adds [w] _ (onsetCounted s) := handWindow_adds_after
  have hopened : windowOpened w 1 s (onsetCounted s) :=
    windowOpened_of_adds (.inl ⟨rfl, List.ne_nil_of_mem hkeys⟩) (by simp [State.now, updExchange])
      (by simp [closeStanding_length, updExchange]) hadds
  obtain ⟨⟨x, hx, -, hcover, -⟩, -⟩ := hopened
  exact ⟨x, onsetRecord_windows ▸ hx, hcover _ hkeys⟩

theorem onsetRecord_unread : unread (onsetRecord s).engine = unread s.engine := by
  have htold (n : Nat) (u : State) : (unplanned .exchangeBurst none n u).engine = u.engine := by simp
  rw [onsetRecord_eq, onsetStepped_parts.2, htold]
  exact congrArg Ground.engine (handWindow_ground (r := s) .exchangeBurst none none s.now none)

theorem onsetRecord_steady : steady (onsetRecord s) = steady s := by
  have hport (p : Port) : (onsetRecord s).port p = s.port p := by simp [State.port]
  have htest := congrArg Engine.test (onsetRecord_unread (s := s))
  have hresult := congrArg Engine.result (onsetRecord_unread (s := s))
  rw [unread_test, unread_test] at htest
  rw [unread_result, unread_result] at hresult
  simp [steady, restingPass, restingFeed, hport, htest, hresult]

/-! ### What an onset hands -/

theorem onsetNotices_kind {x : Handing} (h : x ∈ onsetNotices s) :
    x.1.kind = .unplanned ∨ x.1.kind = .exchangeRings := by
  rw [onsetNotices, List.mem_cons] at h
  rcases h with rfl | h
  · exact .inl rfl
  · split at h
    · rw [List.mem_singleton.mp h]
      exact .inr rfl
    · simp at h

theorem onsetNotices_unplanned : (onsetNotices s).filter (fun x => unplannedOf 3 x.1) =
    [unplannedNoteOf s.now 3 none (min 255 (s.ring.exchange.bursts + 1))] := by
  unfold onsetNotices
  dsimp only
  split <;> rfl

theorem onsetNotices_rings : (onsetNotices s).filter (fun x => ofKind .exchangeRings x.1) =
    (onsetNotices s).tail := by
  unfold onsetNotices
  dsimp only
  split <;> rfl

theorem lasting_unplannedOf {n : Nat} : lasting (unplannedOf n) := fun m hm => by
  have hkind : m.kind = .unplanned := (of_decide_eq_true hm).1
  rw [hkind]
  rfl

/-- The notices of an onset are those of its steps: an abort adds none of their sorts. -/
theorem onset_handsTo {sort : Notice → Bool} (hs : lasting sort) :
    HandsTo sort ((onsetNotices s).filter (fun x => sort x.1)) s.channels (onsetRecord s).channels := by
  rw [onsetRecord_channels]
  exact handAll_handsTo hs _

end

/-! ## The abort by an onset (R131, R146) -/

section
variable {x y : Test} {a b s : State}

theorem releasesBy_ringAbort : releasesBy .ringAbort x := ⟨by decide, fun h => by cases h⟩

/-- A test that an onset meets, as it stands after the onset's steps. -/
theorem exists_test_after_onset (hx : s.engine.test = some x) :
    ∃ y, (onsetRecord s).engine.test = some y ∧ forgetReadings y = forgetReadings x :=
  exists_test_of_steady (congrArg Steady.test onsetRecord_steady) hx

theorem ordinaryExchangeTest_iff : ordinaryExchangeTest s = true ↔
    ∃ x, s.engine.test = some x ∧ x.target = .exchange ∧ x.forced = false := by
  unfold ordinaryExchangeTest
  cases s.engine.test <;> simp

theorem ordinaryExchangeTest_onset : ordinaryExchangeTest (onsetRecord s) = ordinaryExchangeTest s := by
  have htest : (onsetRecord s).engine.test.map forgetReadings = s.engine.test.map forgetReadings :=
    congrArg Steady.test onsetRecord_steady
  have hread (z : State) : ordinaryExchangeTest z = (z.engine.test.map forgetReadings).any
      (fun t => decide (t.target = .exchange) && !t.forced) := by
    have hforget (t : Test) : (forgetReadings t).target = t.target ∧ (forgetReadings t).forced = t.forced := by
      unfold forgetReadings
      split <;> exact ⟨rfl, rfl⟩
    unfold ordinaryExchangeTest
    cases z.engine.test with
    | none => rfl
    | some t => simp [hforget]
  rw [hread, hread, htest]

theorem ringOnset_of_ordinary (h : ordinaryExchangeTest s = true) :
    ringOnset s = abortTest .ringAbort (onsetRecord s) := by
  rw [ringOnset, engineOnset, if_pos (ordinaryExchangeTest_onset.trans h)]

theorem ringOnset_of_none (h : ordinaryExchangeTest s = false) : ringOnset s = onsetRecord s := by
  rw [ringOnset, engineOnset, if_neg (by simp [ordinaryExchangeTest_onset, h])]

theorem onset_faulted : Faulted [] s (onsetRecord s) :=
  faulted_of_emits (by simp) (by simp) (onsetRecord_channels ▸ handAll_emits (P := fun n => n.kind ≠ .fault)
    (fun x hx => by rcases onsetNotices_kind hx with h | h <;> simp [h]) .refl) fun _ h => h

/-- What an onset makes of the exchange test that it meets (R131, R146). -/
theorem ringOnset_aborts {pins : Pins} (ha : s = { a with pins := pins }) (hxa : a.engine.test = some x)
    (ho : ordinaryExchangeTest s = true) :
    testAborted .ringAbort x a (ringOnset s) ∧ raises (abortFaults 3 a) a (ringOnset s) := by
  have hx : s.engine.test = some x := by rw [ha, hxa]
  have hchannels : s.channels = a.channels := by rw [ha]
  have hquiet : Faulted [] a (onsetRecord s) := by
    obtain ⟨hclock, hfaults, hnotices⟩ := onset_faulted (s := s)
    subst ha
    exact ⟨hclock, hfaults, hnotices⟩
  obtain ⟨y, hy, hyx⟩ := exists_test_after_onset hx
  have hyeq := eq_of_forgetReadings hyx
  have hphase : y.phase = x.phase := by rw [hyeq]
  have hdone := onset_handsTo (s := s) (sort := ofKind .testDone) (lasting_ofKind rfl)
  have hnone : (onsetNotices s).filter (fun x => ofKind .testDone x.1) = [] :=
    List.filter_eq_nil_iff.mpr fun z hz => by rcases onsetNotices_kind hz with h | h <;> simp [ofKind, h]
  rw [hnone, hchannels] at hdone
  have hnow : (onsetRecord s).now = a.now := by simp [State.now, ha]
  have hfaults : (onsetRecord s).faults = a.faults := by simp [ha]
  have hrelays : (onsetRecord s).relays = a.relays := by simp [ha]
  rw [ringOnset_of_ordinary ho]
  by_cases hp : x.phase = .release
  · have heq : y = x := by simpa [forgetReadings, hphase, hp] using hyx
    rw [abortTest_in_release releasesBy_ringAbort hy (hphase.trans hp)]
    have hno : abortFaults 3 a = [] := by simp [abortFaults, hxa, hp]
    refine ⟨⟨fun _ => ⟨heq ▸ hy, by rw [hfaults], hdone.hands⟩, fun hn => absurd hp hn⟩, ?_⟩
    rw [hno]
    exact hquiet.raises (by simp)
  · have hab := abortTest_abortedBy releasesBy_ringAbort hy (by rwa [hphase])
    have hraises : raises (abortFaults 3 a) a (abortTest .ringAbort (onsetRecord s)) := by
      have hfault : abortFault .ringAbort y (onsetRecord s) = abortFault .ringAbort x a := by
        rw [hyeq]
        simp [abortFault, raisedAt, hnow, phaseCode]
      have hall := hquiet.trans hab.faulted
      rw [hfault, List.nil_append] at hall
      rw [show (3 : Nat) = abortCode .ringAbort from rfl, abortFaults_eq hxa hp]
      exact hall.raises (by simp)
    refine ⟨⟨fun h => absurd h hp, fun _ hnone =>
      ⟨(congrArg FaultUnit.log hraises.1 :), fun hn => ?_, fun hn => ?_⟩⟩, hraises⟩
    · have heq : y = x := by simpa [forgetReadings, hphase, hn] using hyx
      subst heq
      obtain ⟨htest, hresult, hended, -⟩ := hab.ended hn
      rw [testDone_withAbort hnone, hnow] at hended
      exact ⟨htest, by rw [hresult, resultOf_withAbort hnone, hnow], (hdone.nil_trans hended).hands⟩
    · obtain ⟨htest, hreleased, -, hended, -⟩ := hab.releasing (by rwa [hphase])
      refine ⟨?_, (hdone.nil_trans hended).hands, _, htest, rfl, ?_, by rw [hyeq]; rfl, fun hring => absurd rfl hring⟩
      · rw [hreleased, hrelays, hyeq]
        rfl
      · rw [hyeq]
        simp [withAbort, hnone]

theorem ringOnset_test (ho : ordinaryExchangeTest s = true) :
    ∀ y, (ringOnset s).engine.test = some y → y.phase = .release := by
  obtain ⟨x, hx, -, -⟩ := ordinaryExchangeTest_iff.mp ho
  obtain ⟨y, hy, -⟩ := exists_test_after_onset hx
  rw [ringOnset_of_ordinary ho]
  intro z hz
  by_cases hp : y.phase = .release
  · rw [abortTest_in_release releasesBy_ringAbort hy hp, hy] at hz
    cases hz
    exact hp
  · have hab := abortTest_abortedBy releasesBy_ringAbort hy hp
    by_cases hn : y.phase = .notify
    · simp [(hab.ended hn).1] at hz
    · rw [(hab.releasing hn).1] at hz
      cases hz
      rfl

/-- An abort touches neither the ring unit of an exchange test nor the notices of an onset. -/
theorem ringOnset_parts : (ringOnset s).ring = (onsetRecord s).ring ∧ ∀ sort, lasting sort →
    (∀ n, sort n = true → n.kind = .exchangeRings ∨ n.kind = .unplanned ∧ n.subject = 3) →
    HandsTo sort ((onsetNotices s).filter (fun x => sort x.1)) s.channels (ringOnset s).channels := by
  cases ho : ordinaryExchangeTest s with
  | false =>
    rw [ringOnset_of_none ho]
    exact ⟨rfl, fun sort hs _ => onset_handsTo hs⟩
  | true =>
    obtain ⟨x, hx, htarget, -⟩ := ordinaryExchangeTest_iff.mp ho
    obtain ⟨y, hy, hyx⟩ := exists_test_after_onset hx
    rw [ringOnset_of_ordinary ho]
    by_cases hp : y.phase = .release
    · rw [abortTest_in_release releasesBy_ringAbort hy hp]
      exact ⟨rfl, fun sort hs _ => onset_handsTo hs⟩
    · have hab := abortTest_abortedBy releasesBy_ringAbort hy hp
      refine ⟨hab.ring (.inl (by rw [eq_of_forgetReadings hyx]; exact htarget)), fun sort hs hsort => ?_⟩
      have hne {n : Notice} (h : n.kind ≠ .exchangeRings) (h' : n.kind = .unplanned → n.subject ≠ 3) :
          sort n = false := by
        rw [Bool.eq_false_iff]
        intro hn
        rcases hsort n hn with hk | ⟨hk, hsub⟩
        · exact h hk
        · exact h' hk hsub
      refine (onset_handsTo hs).trans_nil ((hab.emits (fun n => sort n = false) ⟨⟨fun p n hn => ?_, fun n hn => ?_⟩,
        fun n hn => ?_, fun n hn => ?_⟩ (fun n hn => ?_) fun n hn => ?_).handsTo hs fun _ h => h)
      · rcases hn with ⟨hn, -⟩ | ⟨hn, -⟩ | ⟨hn, hsub⟩
        · exact hne (by simp [hn]) (by simp [hn])
        · exact hne (by simp [hn]) (by simp [hn])
        · exact hne (by simp [hn]) fun _ => by rw [hsub]; decide
      all_goals exact hne (by simp [hn]) (by simp [hn])

end

/-! ## The statement (R57, R131, R132, R146) -/

section
variable {s t : State} {pins : Pins}

theorem awake_of_phase (h : s.phase = .loading ∨ s.phase = .running) : awake s = true := by
  unfold awake
  rcases h with h | h <;> simp [h]

theorem exchangeOnset_exec (h : s.phase = .loading ∨ s.phase = .running) : exec .exchangeRingOnset s =
    .next (if s.relays.lineBreak = .closed then ringOnset { s with pins := { s.pins with exchangeRinging := true } }
      else { s with pins := { s.pins with exchangeRinging := true } }) := by
  have hawake : awake (s.updPins (fun x => { x with exchangeRinging := true })) = true := awake_of_phase h
  change done (if awake _ = true ∧ _ then _ else _) = _
  rw [hawake]
  simp [done]
  rfl

theorem exchangeOffset_exec (h : s.phase = .loading ∨ s.phase = .running) : exec .exchangeRingOffset s =
    .next (if s.ring.exchange.burstOn = true then
        offsetRecord { s with pins := { s.pins with exchangeRinging := false } }
      else { s with pins := { s.pins with exchangeRinging := false } }) := by
  have hawake : awake (s.updPins (fun x => { x with exchangeRinging := false })) = true := awake_of_phase h
  change done (if awake _ = true ∧ _ then _ else _) = _
  rw [hawake]
  simp [done]
  rfl

theorem callGapExpiry_exec : exec .callGapExpiry s =
    .next (if timerDue s.now s.ring.exchange.gapDue = true then endCall 1 none s else s) := rfl

theorem eq_with_of_onset (h : t.pending = s.pending ∧ t.phase = s.phase ∧ t.clock = s.clock ∧ t.pins = pins ∧
      t.twoPorts = s.twoPorts ∧ t.gateway = s.gateway ∧ t.modem = s.modem ∧ t.dsl = s.dsl ∧ t.power = s.power ∧
      t.store = s.store ∧ t.occasion = s.occasion) :
    t = { s with
      pins := pins, channels := t.channels, lines := t.lines, relays := t.relays, settles := t.settles
      sched := t.sched, tracker := t.tracker, ports := t.ports, ring := t.ring, engine := t.engine
      faults := t.faults } := by
  cases s
  cases t
  simpa using h

theorem eq_with_of_onsetRecord (h : t.pending = s.pending ∧ t.phase = s.phase ∧ t.clock = s.clock ∧ t.pins = pins ∧
      t.twoPorts = s.twoPorts ∧ t.gateway = s.gateway ∧ t.modem = s.modem ∧ t.lines = s.lines ∧ t.relays = s.relays ∧
      t.settles = s.settles ∧ t.dsl = s.dsl ∧ t.ports = s.ports ∧ t.faults = s.faults ∧ t.power = s.power ∧
      t.store = s.store ∧ t.occasion = s.occasion) :
    t = { s with
      pins := pins, channels := t.channels, sched := t.sched, tracker := t.tracker, ring := t.ring
      engine := t.engine } := by
  cases s
  cases t
  simpa using h

/-- An offset closes the window of its burst (R60, R131). -/
theorem offsetRecord_windows : (offsetRecord s).sched.windows =
    closeKey s.now .exchangeBurst s.now s.sched.windows := by
  unfold offsetRecord
  dsimp only
  split
  · exact closeWindow_windows s.now
  · exact closeWindow_windows s.now

theorem offsetRecord_ring : (offsetRecord s).ring = { s.ring with exchange := { s.ring.exchange with
    burstOn := false
    gapDue := if s.ring.exchange.ringing = true then some (s.now + ms 8000) else s.ring.exchange.gapDue } } := by
  unfold offsetRecord
  dsimp only
  cases h : s.ring.exchange.ringing <;> simp [updExchange, h, State.now]

theorem eq_with_of_offset (h : t.pending = s.pending ∧ t.phase = s.phase ∧ t.clock = s.clock ∧ t.pins = pins ∧
      t.twoPorts = s.twoPorts ∧ t.gateway = s.gateway ∧ t.modem = s.modem ∧ t.channels = s.channels ∧
      t.lines = s.lines ∧ t.relays = s.relays ∧ t.settles = s.settles ∧ t.dsl = s.dsl ∧ t.tracker = s.tracker ∧
      t.ports = s.ports ∧ t.faults = s.faults ∧ t.power = s.power ∧ t.store = s.store ∧ t.occasion = s.occasion) :
    t = { s with pins := pins, sched := t.sched, ring := t.ring, engine := t.engine } := by
  cases s
  cases t
  simpa using h

/-- A call that ends unanswered (R132). -/
theorem endCall_eq : endCall 1 none s = { s with
    ring := { s.ring with exchange := { s.ring.exchange with ringing := false, gapDue := none, bursts := 0, count := 0 } }
    channels := (postSubscribed
      ⟨.exchangeCallEnd, 3, BitVec.ofNat 8 s.ring.exchange.bursts, 1, s.now, Config.spareBytes 19 s.now ++ 0#8⟩
      s).channels } := by
  let u := updExchange (fun x => { x with gapDue := none, ringing := false }) s
  let n := notice .exchangeCallEnd (byte s.ring.exchange.bursts) (byte 1) s.now
    (detailByte8 .exchangeCallEnd s.now (optPort none))
  have hpost : postSubscribed n u = { u with channels := (postSubscribed n s).channels } :=
    postSubscribed_of_channels (s := s) (u := u) rfl n
  change updExchange (fun x => { x with bursts := 0, count := 0 }) (postSubscribed n u) = _
  rw [hpost]
  rfl

end

/-- Settles O41: the steps of an onset, then the abort of the exchange test that it meets. -/
theorem exchangeRingingIsCounted : Obligations.ExchangeRingingIsCounted := by
  refine ⟨fun s hs => ⟨fun hopen => ?_, fun hclosed => ?_⟩, fun s hs => ⟨fun hoff => ?_, fun hon hsound => ?_⟩,
    fun s => ⟨fun hdue => ?_, fun hdue => ?_⟩⟩
  · rw [exchangeOnset_exec hs, if_neg (by simp [hopen])]
  · let u : State := { s with pins := { s.pins with exchangeRinging := true } }
    obtain ⟨hring, hhands⟩ := ringOnset_parts (s := u)
    refine ⟨ringOnset u, ?_, ?_, fun ho => ⟨?_, ?_⟩, fun ho => ringOnset_test ho, fun y hy ho =>
      ringOnset_aborts (s := u) rfl hy ho, ?_, ?_, eq_with_of_onset (by simp [u])⟩
    · rw [exchangeOnset_exec hs, if_pos hclosed]
    · rw [hring, onsetRecord_ring]
    · rw [ringOnset_of_none (s := u) ho]
      exact onsetRecord_window
    · rw [ringOnset_of_none (s := u) ho]
      exact eq_with_of_onsetRecord (by simp [u])
    · have h := hhands (unplannedOf 3) lasting_unplannedOf fun n hn => .inr ?_
      · rw [onsetNotices_unplanned] at h
        exact h.hands
      · obtain ⟨hkind, hsubject⟩ := of_decide_eq_true hn
        exact ⟨hkind, BitVec.eq_of_toNat_eq hsubject⟩
    · have h := hhands (ofKind .exchangeRings) (lasting_ofKind rfl) fun n hn => .inl (of_decide_eq_true hn)
      rw [onsetNotices_rings] at h
      exact h.hands
  · rw [exchangeOffset_exec hs, if_neg (by simp [hoff])]
  · refine ⟨_, (exchangeOffset_exec hs).trans (congrArg _ (if_pos hon)), offsetRecord_ring, ?_,
      eq_with_of_offset (by simp)⟩
    rw [offsetRecord_windows]
    exact absent_of_closeKey hsound
  · rw [callGapExpiry_exec, if_neg (by simp [hdue])]
  · rw [callGapExpiry_exec, if_pos hdue, endCall_eq]

end Sys2Proof.Machine
end

