-- ==== Sys2Proof/Proofs/WindowsEvolving.lean ====
section
namespace Sys2Proof.Machine

/-! ## Windows that are added and closed (R59, R60, R62) -/

/-- A list of windows went through at most `n` additions, and through closes of keys among them. -/
inductive Evolved (now : Time) : Nat → List Window → List Window → Prop
  | stays (n : Nat) (l : List Window) : Evolved now n l l
  | adds {n : Nat} {l m : List Window} (w : Window) : Evolved now n l m → Evolved now (n + 1) l (addTo now w m)
  | closes {n : Nat} {l m : List Window} (k : WindowKey) (t : Time) :
      Evolved now n l m → Evolved now n l (closeKey now k t m)

/-- An act added at most `n` windows to the list and closed keys. -/
def Evolves (n : Nat) (s t : State) : Prop := t.now = s.now ∧ Evolved s.now n s.sched.windows t.sched.windows

section
variable {now : Time} {n k : Nat} {l m m' : List Window} {s t u : State}

theorem Evolved.mono (h : Evolved now n l m) (hk : n ≤ k) : Evolved now k l m := by
  induction h generalizing k with
  | stays _ l => exact .stays k l
  | adds w _ ih =>
    obtain ⟨j, rfl⟩ : ∃ j, k = j + 1 := ⟨k - 1, by omega⟩
    exact .adds w (ih (by omega))
  | closes key t _ ih => exact .closes key t (ih hk)

theorem Evolved.trans (h : Evolved now n l m) (h' : Evolved now k m m') : Evolved now (n + k) l m' := by
  induction h' with
  | stays k l => exact h.mono (by omega)
  | adds w _ ih => exact .adds w (ih h)
  | closes key t _ ih => exact .closes key t (ih h)

theorem Evolved.addAll (m : List Window) : Evolved now m.length l (addAll now m l) := by
  induction m generalizing l with
  | nil => exact .stays 0 l
  | cons w rest ih =>
    have h := (Evolved.adds w (.stays 0 l)).trans (ih (l := addTo now w l))
    rw [List.length_cons, Nat.add_comm, ← Nat.zero_add 1]
    exact h

theorem Evolves.refl : Evolves n s s := ⟨rfl, .stays n _⟩

theorem Evolves.mono (h : Evolves n s t) (hk : n ≤ k) : Evolves k s t := ⟨h.1, h.2.mono hk⟩

theorem Evolves.trans (h : Evolves n s t) (h' : Evolves k t u) : Evolves (n + k) s u := by
  obtain ⟨hnow, hl⟩ := h
  obtain ⟨hnow', hl'⟩ := h'
  rw [hnow] at hl'
  exact ⟨hnow'.trans hnow, hl.trans hl'⟩

/-- An act that leaves the list. -/
theorem evolves_of_eq (hc : t.clock = s.clock) (hl : t.sched.windows = s.sched.windows) : Evolves n s t := by
  refine ⟨congrArg Clock.timebase hc, ?_⟩
  rw [hl]
  exact .stays n _

theorem AddsUpTo.evolves (h : AddsUpTo n s t) : Evolves n s t := by
  obtain ⟨m, hm, hnow, hl⟩ := h
  refine ⟨hnow, ?_⟩
  rw [hl]
  exact (Evolved.addAll m).mono hm

theorem closeWindow_evolves (key : WindowKey) (a : Time) : Evolves 0 s (closeWindow key a s) := by
  refine ⟨by simp [State.now], ?_⟩
  rw [closeWindow_windows]
  exact .closes key a (.stays 0 _)

theorem closeStanding_evolves (keys : List WindowKey) : Evolves 0 s (closeStanding keys s) := by
  induction keys generalizing s with
  | nil => exact .refl
  | cons key rest ih => exact (closeWindow_evolves key s.now).trans ih

/-- A window that is handed open closes those under its key first (R60). -/
theorem handWindow_evolves {src : WindowSource} {p : Option Port} {id : Option Byte} {a : Time} {tail : Option Nat} :
    Evolves 1 s (handWindow src p id a tail s) := by
  have hadds : AddsUpTo 1 _ (handWindow src p id a tail s) := ⟨_, le_rfl, handWindow_adds_after⟩
  simpa using (closeStanding_evolves _).trans hadds.evolves

/-! ### What a RELAY window's place in the list withstands -/

/-- A window of the list reaches over a closed window from one instant to another, and stands soundly. -/
def ReachesOver (now a b : Time) (x : Window) : Prop :=
  offset now x.start ≤ offset now a ∧
    ((x.keys = [] ∧ ∃ e, x.stop = some e ∧ offset now b ≤ offset now e) ∨
      (x.keys ≠ [] ∧ x.stop = none ∧ offset now b ≤ offset now x.reach))

/-- A reach that takes a window's end in, where it has one (R62 step 3). -/
def laterStop (now r : Time) (stop : Option Time) : Time :=
  match stop with
  | some e => later now r e
  | none => r

section
variable {a b : Time} {v w x target : Window}

theorem ReachesOver.not_removable (h : ReachesOver now a b x) (hb : 0 ≤ offset now b) : removable now x = false := by
  obtain ⟨-, ⟨-, e, he, hbe⟩ | ⟨-, hnone, -⟩⟩ := h
  · simp [removable, he]
    omega
  · simp [removable, hnone]

theorem mergeWindow_cases (hto : offset now b ≤ offset now (mergeWindow now target v).reach)
    (hfrom : offset now (mergeWindow now target v).start ≤ offset now a) :
    ReachesOver now a b (mergeWindow now target v) := by
  refine ⟨hfrom, ?_⟩
  by_cases hkeys : unionKeys target.keys v.keys = []
  · exact .inl ⟨hkeys, _, if_pos hkeys, hto⟩
  · exact .inr ⟨hkeys, by simp [mergeWindow, hkeys], hto⟩

theorem le_laterStop {r : Time} {stop : Option Time} : offset now r ≤ offset now (laterStop now r stop) := by
  unfold laterStop
  split
  · exact offset_le_later_left _ _
  · exact le_rfl

theorem stop_le_laterStop {r e : Time} : offset now e ≤ offset now (laterStop now r (some e)) :=
  offset_le_later_right _ _

theorem mergeWindow_reach : (mergeWindow now target v).reach =
    laterStop now (laterStop now target.reach target.stop) v.stop := by
  unfold mergeWindow laterStop
  rfl

/-- A merge keeps what the target reached. -/
theorem mergeWindow_reach_target : offset now target.reach ≤ offset now (mergeWindow now target v).reach ∧
    ∀ e, target.stop = some e → offset now e ≤ offset now (mergeWindow now target v).reach := by
  rw [mergeWindow_reach]
  refine ⟨le_laterStop.trans le_laterStop, fun e he => ?_⟩
  rw [he]
  exact stop_le_laterStop.trans le_laterStop

theorem mergeWindow_reach_new {e : Time} (h : v.stop = some e) :
    offset now e ≤ offset now (mergeWindow now target v).reach := by
  rw [mergeWindow_reach, h]
  exact stop_le_laterStop

theorem ReachesOver.merge (h : ReachesOver now a b target) : ReachesOver now a b (mergeWindow now target v) := by
  obtain ⟨hfrom, hto⟩ := h
  obtain ⟨hreach, hstop⟩ := mergeWindow_reach_target (now := now) (target := target) (v := v)
  refine mergeWindow_cases ?_ ((offset_earlier_le_left _ _).trans hfrom)
  rcases hto with ⟨-, e, he, hbe⟩ | ⟨-, -, hbr⟩
  · exact hbe.trans (hstop e he)
  · exact hbr.trans hreach

theorem exists_reachesOver_addTo (hb : 0 ≤ offset now b) (h : ∃ x ∈ l, ReachesOver now a b x) :
    ∃ x ∈ addTo now v l, ReachesOver now a b x := by
  obtain ⟨x, hx, hover⟩ := h
  have hp : x ∈ purged now l := by
    unfold purged
    split
    · exact hx
    · exact List.mem_filter.mpr ⟨hx, by simp [hover.not_removable hb]⟩
  by_cases h : (purged now l).length < 8
  · exact ⟨x, by simp [addTo_of_room h, hp], hover⟩
  · obtain ⟨rest, target, hlast, heq⟩ := addTo_of_full (w := v) h
    rw [hlast, List.mem_append, List.mem_singleton] at hp
    rcases hp with hrest | rfl
    · exact ⟨x, by simp [heq, hrest], hover⟩
    · exact ⟨mergeWindow now x v, by simp [heq], hover.merge⟩

/-- A closed window that is added reaches over itself. -/
theorem exists_reachesOver_addTo_self (hkeys : w.keys = []) (hstop : w.stop = some b) :
    ∃ x ∈ addTo now w l, ReachesOver now w.start b x := by
  by_cases h : (purged now l).length < 8
  · exact ⟨w, by simp [addTo_of_room h], le_rfl, .inl ⟨hkeys, b, hstop, le_rfl⟩⟩
  · obtain ⟨rest, target, -, heq⟩ := addTo_of_full (w := w) h
    exact ⟨mergeWindow now target w, by simp [heq],
      mergeWindow_cases (mergeWindow_reach_new hstop) (offset_earlier_le_right _ _)⟩

theorem exists_reachesOver_closeKey {key : WindowKey} {t : Time} (h : ∃ x ∈ l, ReachesOver now a b x) :
    ∃ x ∈ closeKey now key t l, ReachesOver now a b x := by
  induction l with
  | nil => exact h
  | cons w rest ih =>
    obtain ⟨x, hx, hover⟩ := h
    unfold closeKey
    split
    · next hkey =>
      rcases List.mem_cons.mp hx with rfl | hrest
      · refine ⟨_, List.mem_cons_self, hover.1, ?_⟩
        obtain ⟨-, ⟨hnil, -⟩ | ⟨-, hnone, hreach⟩⟩ := hover
        · simp [hnil] at hkey
        · have hreach' : offset now b ≤ offset now (later now x.reach (t + ms 50)) :=
            hreach.trans (offset_le_later_left _ _)
          dsimp only
          generalize later now x.reach (t + ms 50) = r at hreach' ⊢
          by_cases hkeys : x.keys.filter (fun j => decide (j ≠ key)) = []
          · exact .inl ⟨hkeys, r, if_pos hkeys, hreach'⟩
          · exact .inr ⟨hkeys, (if_neg hkeys).trans hnone, hreach'⟩
      · exact ⟨x, List.mem_cons_of_mem _ hrest, hover⟩
    · rcases List.mem_cons.mp hx with rfl | hrest
      · exact ⟨x, List.mem_cons_self, hover⟩
      · obtain ⟨y, hy, hyover⟩ := ih ⟨x, hrest, hover⟩
        exact ⟨y, List.mem_cons_of_mem _ hy, hyover⟩

theorem mem_closeKey_of_no_keys {key : WindowKey} {t : Time} (hkeys : w.keys = []) (h : w ∈ l) :
    w ∈ closeKey now key t l := by
  induction l with
  | nil => exact h
  | cons x rest ih =>
    unfold closeKey
    rcases List.mem_cons.mp h with rfl | hrest
    · simp [hkeys]
    · split
      · exact List.mem_cons_of_mem _ hrest
      · exact List.mem_cons_of_mem _ (ih hrest)

theorem Evolved.exists_reachesOver (hb : 0 ≤ offset now b) (h : Evolved now n l m)
    (hl : ∃ x ∈ l, ReachesOver now a b x) : ∃ x ∈ m, ReachesOver now a b x := by
  induction h with
  | stays => exact hl
  | adds w _ ih => exact exists_reachesOver_addTo hb (ih hl)
  | closes key t _ ih => exact exists_reachesOver_closeKey (ih hl)

theorem Evolved.length_le (h : Evolved now n l m) : m.length ≤ l.length + n := by
  induction h with
  | stays => omega
  | adds w _ ih =>
    refine addTo_length_le.trans ?_
    omega
  | closes key t _ ih => rwa [closeKey_length]

theorem Evolved.mem_of_room (h : Evolved now n l m) (hroom : l.length + n ≤ 8) (hkeys : w.keys = []) (hw : w ∈ l) :
    w ∈ m := by
  induction h with
  | stays => exact hw
  | adds v h' ih =>
    have hlen := h'.length_le
    exact (mem_addTo_of_room (by omega)).mpr (.inr (ih (by omega) hw))
  | closes key t _ ih => exact mem_closeKey_of_no_keys hkeys (ih hroom hw)

end

/-- A RELAY window that is handed after others, and before others and before closes, was opened (R59, R60). -/
theorem windowOpened_of_evolves {id : Option Byte} {room n : Nat} {u : State} (hnow : u.now = s.now)
    (hlen : u.sched.windows.length + n + 1 ≤ s.sched.windows.length + room)
    (hevolves : Evolves n (handWindow .relay none id u.now (some 70) u) t) :
    windowOpened (relayWindow s.now id) room s t := by
  let w := handed .relay none id s.now (some 70)
  have hstop : w.stop = some (s.now + ms 70) := rfl
  have hahead : 0 ≤ offset s.now (s.now + ms 70) := by
    have hdiff : s.now + ms 70 - s.now = 70000#32 := by
      rw [ms]
      bv_omega
    rw [offset, hdiff]
    decide
  obtain ⟨-, hadded⟩ := handWindow_adds (src := .relay) (p := none) (id := id) (x := u.now) (tail := some 70) (s := u) rfl
  obtain ⟨-, hl⟩ := hevolves
  have hhanded : (handWindow .relay none id u.now (some 70) u).now = s.now := by simpa [State.now] using hnow
  rw [hhanded, hadded, hnow] at hl
  change Evolved s.now n (addAll s.now [w] u.sched.windows) t.sched.windows at hl
  refine ⟨?_, fun hroom => ?_⟩
  · obtain ⟨x, hx, hfrom, hto⟩ := hl.exists_reachesOver hahead (exists_reachesOver_addTo_self (w := w) rfl hstop)
    refine ⟨x, hx, hfrom, fun k hk => (List.not_mem_nil hk).elim, fun a e ha he => ?_⟩
    obtain rfl : s.now + ms 70 = a := Option.some.inj ha
    rcases hto with ⟨-, e', he', hle⟩ | ⟨-, hnone, -⟩
    · rw [he'] at he
      cases he
      exact hle
    · simp [hnone] at he
  · have hone := addTo_length_le (now := s.now) (w := w) (l := u.sched.windows)
    have hone' : (addAll s.now [w] u.sched.windows).length ≤ u.sched.windows.length + 1 := hone
    exact hl.mem_of_room (by omega) rfl ((mem_addTo_of_room (by omega)).mpr (.inl rfl))

end

/-! ## The acts that evolve the list -/

section
variable {p : Port} {s : State}

theorem senseLoop_evolves : Evolves 1 s (senseLoop p s) := senseLoop_adds.evolves

/-- The loops and the battery watch follow a change. -/
theorem senseBoth_evolves : Evolves 2 s (judgeWatch (senseLoop .p2 (senseLoop .p1 s))) :=
  ((senseLoop_adds.trans senseLoop_adds).trans judgeWatch_adds).evolves

theorem unmask_evolves : Evolves 1 s (unmask p s) := by
  unfold unmask
  split
  · split
    · exact evolves_of_eq rfl rfl
    · exact (evolves_of_eq (n := 0) rfl rfl).trans senseLoop_evolves
  · exact .refl

theorem restart_evolves (why : Option HookReason) : Evolves 1 s (restart p why s) := by
  unfold restart
  dsimp only
  have hquiet {u : State} (hc : u.clock = s.clock) (hs : u.sched = s.sched) : Evolves 1 s (senseLoop p (judgeWatch u)) :=
    (evolves_of_eq (n := 0) (by simp [hc]) (by simp [hs])).trans senseLoop_evolves
  (repeat' split) <;> exact hquiet (by simp [restartQuiet]) (by simp [restartQuiet])

theorem judgeRingFault_evolves : Evolves 0 s (judgeRingFault s) := evolves_of_eq (by simp) (by simp)

theorem endBurst_evolves (next : RingState) : Evolves 1 s (endBurst p next s) := by
  unfold endBurst
  dsimp only
  have hset (f : RingSession → RingSession) (g : RingUnit → RingUnit) :
      Evolves 0 s ((updSession p f s).updRing g) := evolves_of_eq rfl rfl
  have hclose := (hset (fun x => { x with state := next, tripDue := none })
    (fun r => { r with generator := r.generator.set p false })).trans (closeWindow_evolves (.ringBurst p) s.now)
  exact (hclose.trans unmask_evolves).trans judgeRingFault_evolves

theorem endSession_evolves (why : RingReason) (cause : Nat) : Evolves 1 s (endSession p why cause s) := by
  unfold endSession
  split
  · exact .refl
  · dsimp only
    have hrest {u : State} (h : Evolves 1 s u) (n : Notice) (c : Channel) (x : Option RingSession)
        (f : RingSession → RingSession) :
        Evolves 1 s (setSession p x (postCompletion n c (endSlot (portSlot p) (updSession p f u)))) := by
      refine (h.trans (evolves_of_eq (n := 0) ?_ ?_) :)
      · simp [setSession, updSession]
      · have hslot (i : SlotId) (v : State) : (endSlot i v).sched.windows = v.sched.windows := by
          unfold endSlot setSlot
          split <;> simp
        simp [setSession, updSession, hslot]
    refine hrest ?_ _ _ _ _
    split
    · exact endBurst_evolves _
    · exact .refl

end

end Sys2Proof.Machine
end

