-- ==== Sys2Proof/Proofs/FaultsOfAnEvent.lean ====
section
namespace Sys2Proof.Machine

/-! ## An event whose faults the fault unit takes itself (R156) -/

/-- The fault unit with another taking flag and other faults waiting. -/
def holding (b : Bool) (w : List Raised) (u : FaultUnit) : FaultUnit := { u with taking := b, waiting := w }

/-- The fault unit but for its battery watch and its isolation state. -/
def bare (u : FaultUnit) : FaultUnit := besides ⟨none, false⟩ .normal u

section
variable {f : Raised} {b : Bool} {w l m : List Raised} {uptime : BitVec 32} {u v : FaultUnit} {s t r : State}

theorem logStore_holding (level : Nat) : logStore uptime level f (holding b w u) =
    (holding b w (logStore uptime level f u).1, (logStore uptime level f u).2) := by
  unfold logStore holding
  dsimp only
  (repeat' split) <;> simp_all

theorem offerCapture_holding (level : Nat) (seq : BitVec 32) : offerCapture uptime level seq f (holding b w u) =
    holding b w (offerCapture uptime level seq f u) := by
  have hc : (holding b w u).capture = u.capture := rfl
  unfold offerCapture
  rw [hc]
  split
  · rfl
  · split <;> rfl

theorem storedUnit_holding : storedUnit f uptime (holding b w u) =
    (holding b w (storedUnit f uptime u).1, (storedUnit f uptime u).2) := by
  unfold storedUnit
  simp only [logStore_holding, offerCapture_holding, show (holding b w u).levels = u.levels from rfl]
  split <;> rfl

theorem post_updFaults (n : Notice) (receives : Channel → Bool) (g : FaultUnit → FaultUnit) :
    post n receives (s.updFaults g) = (post n receives s).updFaults g := by
  have hchannels : (post n receives (s.updFaults g)).channels = (post n receives s).channels :=
    PerChan.eq_of_get fun c => by rw [post_channels_get, post_channels_get]; rfl
  rw [post_eq, hchannels, post_eq n receives s]
  rfl

/-- The channels' decisions do not look at what waits. -/
theorem notifyFault_holding (level : Nat) (st : Stored) :
    notifyFault f level st (s.updFaults (holding b w)) = (notifyFault f level st s).updFaults (holding b w) := by
  unfold notifyFault
  dsimp only
  split
  · exact post_updFaults ..
  · let decided (c : Channel) (z : State) := z.updFaults (decidedUnit f.cls level f.source st c)
    have hheld (c : Channel) : heldOn (s.updFaults (holding b w)).faults
        ((s.updFaults (holding b w)).faults.channels.get c) f.cls level =
        heldOn s.faults (s.faults.channels.get c) f.cls level := rfl
    simp only [decideChannel_eq, hheld]
    exact post_updFaults (s := decided .gateway (decided .management (decided .modem s))) _ _ (holding b w)

theorem takeFault_holding : takeFault f (s.updFaults (holding b w)) = (takeFault f s).updFaults (holding b w) := by
  have hlevel : levelOf (s.updFaults (holding b w)).faults.levels f.cls = levelOf s.faults.levels f.cls := rfl
  unfold takeFault
  dsimp only
  rw [hlevel]
  split
  · rfl
  · rw [← notifyFault_holding]
    have hstored := storedUnit_holding (f := f) (uptime := s.uptime) (b := b) (w := w) (u := s.faults)
    have hunit := congrArg Prod.fst hstored
    have hst := congrArg Prod.snd hstored
    change notifyFault f _ (storedUnit f s.uptime (holding b w s.faults)).2
      (s.updFaults (fun _ => (storedUnit f s.uptime (holding b w s.faults)).1)) = _
    rw [hstored]
    rfl

theorem raiseFault_of_free (h : s.faults.taking = false) : raiseFault f s = takeFault f s := by
  simp [raiseFault, h]

/-- A fault that the fault unit takes in an event is taken as it is raised outside one, and what waits stays. -/
theorem takeFault_eq_raised : takeFault f s = (raiseFault f (s.updFaults (holding false []))).updFaults
    (holding s.faults.taking s.faults.waiting) := by
  rw [raiseFault_of_free (by rfl), ← takeFault_holding]
  rfl

theorem takeFault_emits {P : Notice → Prop} {a : PerChan ChannelRec} (hfault : ∀ n, n.kind = .fault → P n)
    (h : Emits P a s.channels) : Emits P a (takeFault f s).channels := by
  rw [takeFault_eq_raised]
  exact raiseFault_emits (s := s.updFaults (holding false [])) hfault f h

theorem takeAll_emits {P : Notice → Prop} {a : PerChan ChannelRec} (hfault : ∀ n, n.kind = .fault → P n)
    (h : Emits P a s.channels) : Emits P a (takeAll m s).channels := by
  induction m generalizing s with
  | nil => exact h
  | cons f rest ih => exact ih (takeFault_emits hfault h)

/-! ### The faults of an event, taken and waiting -/

theorem unitAfter_of_taking (h : u.taking = true) :
    unitAfter m uptime u = holding true (u.waiting ++ m) u := by
  induction m generalizing u with
  | nil => simp [unitAfter, holding, ← h]
  | cons f rest ih =>
    have hone : raisedUnit f uptime u = holding true (u.waiting ++ [f]) u := by
      simp [raisedUnit, h, holding]
    have hrest := ih (u := holding true (u.waiting ++ [f]) u) rfl
    rw [unitAfter, List.foldl_cons, hone, ← unitAfter, hrest]
    simp [holding]

theorem noticesOf_of_taking {c : Channel} (h : u.taking = true) : noticesOf uptime c m u = [] := by
  induction m generalizing u with
  | nil => rfl
  | cons f rest ih =>
    have hone : (raisedUnit f uptime u).taking = true := by simp [raisedUnit, h]
    simp [noticesOf, raisedNotice, h, ih hone]

theorem raisedUnit_holds : (raisedUnit f uptime u).taking = u.taking ∧
    (u.taking = false → (raisedUnit f uptime u).waiting = u.waiting) := by
  have hstored : (storedUnit f uptime u).1 = holding u.taking u.waiting (storedUnit f uptime u).1 :=
    congrArg Prod.fst (storedUnit_holding (f := f) (uptime := uptime) (b := u.taking) (w := u.waiting) (u := u))
  unfold raisedUnit
  split
  · next ht => simp [ht]
  · split
    · simp
    · dsimp only
      rw [hstored]
      split <;> exact ⟨rfl, fun _ => rfl⟩

theorem unitAfter_holds : (unitAfter l uptime u).taking = u.taking ∧
    (u.taking = false → (unitAfter l uptime u).waiting = u.waiting) := by
  induction l generalizing u with
  | nil => exact ⟨rfl, fun _ => rfl⟩
  | cons f rest ih =>
    obtain ⟨htaking, hwaiting⟩ := raisedUnit_holds (f := f) (uptime := uptime) (u := u)
    obtain ⟨hrest, hrest'⟩ := ih (u := raisedUnit f uptime u)
    exact ⟨hrest.trans htaking, fun h => (hrest' (htaking.trans h)).trans (hwaiting h)⟩

/-- While the fault unit takes an event it has taken `l`, and `w` waits (R156). -/
structure Held (l w : List Raised) (s t : State) : Prop where
  clock : t.clock = s.clock
  unit : bare t.faults = bare (holding true w (unitAfter l s.uptime s.faults))
  notices : HandsOut (ofKind .fault) (fun c => noticesOf s.uptime c l s.faults) s.channels t.channels

theorem Held.taking (h : Held l w s t) : t.faults.taking = true := (congrArg FaultUnit.taking h.unit :)

theorem Held.waiting (h : Held l w s t) : t.faults.waiting = w := (congrArg FaultUnit.waiting h.unit :)

theorem beginTaking_held (h : faultsIdle s) : Held [] [] s (beginTaking s) := by
  obtain ⟨-, hwaiting⟩ := h
  refine ⟨rfl, ?_, fun _ => .refl⟩
  change bare (holding true s.faults.waiting s.faults) = _
  rw [hwaiting]
  rfl

theorem bare_eq_of_unwatched (h : unwatched u = unwatched v) : bare u = bare v := by
  rw [eq_besides_of_unwatched h]
  rfl

/-- A fault that another block raises meanwhile waits (R156). -/
theorem Held.raised (h : Held l w s t) (h' : Faulted m t r) : Held l (w ++ m) s r := by
  obtain ⟨hclock, hunit, hnotices⟩ := h'
  rw [unitAfter_of_taking h.taking, h.waiting] at hunit
  simp only [noticesOf_of_taking h.taking] at hnotices
  refine ⟨hclock.trans h.clock, ?_, h.notices.trans_nil hnotices⟩
  have hheld : bare (holding true (w ++ m) t.faults) = holding true (w ++ m) (bare t.faults) := rfl
  rw [bare_eq_of_unwatched hunit, hheld, h.unit]
  rfl

theorem Held.isolated (h : Held l w s t) (i : Isolation) : Held l w s (setIsolation i t) :=
  ⟨h.clock, h.unit, h.notices⟩

theorem eq_besides_of_bare (h : bare u = bare v) : u = besides u.watch u.isolation v := by
  have hu : u = besides u.watch u.isolation (bare u) := rfl
  rw [hu, h]
  rfl

/-- The fault unit of an event, with nothing waiting, is as the faults that it took leave it. -/
theorem Held.freed (h : Held l w s t) (hs : faultsIdle s) : holding false [] t.faults =
    besides t.faults.watch t.faults.isolation (unitAfter l s.uptime s.faults) := by
  obtain ⟨hfree, hnone⟩ := hs
  have hunit : holding false [] (unitAfter l s.uptime s.faults) = unitAfter l s.uptime s.faults := by
    obtain ⟨htaking, hwaiting⟩ := unitAfter_holds (l := l) (uptime := s.uptime) (u := s.faults)
    rw [holding, ← htaking.trans hfree, ← (hwaiting hfree).trans hnone]
  have hbare : bare (holding false [] t.faults) = bare (unitAfter l s.uptime s.faults) := by
    rw [← hunit]
    exact congrArg (holding false []) h.unit
  exact eq_besides_of_bare hbare

/-- A fault that the event takes is logged and noticed at once (R156). -/
theorem Held.took (h : Held l w s t) (hs : faultsIdle s) (f : Raised) : Held (l ++ [f]) w s (takeFault f t) := by
  let v := t.updFaults (holding false [])
  have hup : v.uptime = s.uptime := congrArg Clock.uptime h.clock
  have hv : v.faults = besides t.faults.watch t.faults.isolation (unitAfter l s.uptime s.faults) := h.freed hs
  obtain ⟨-, -, hnotices⟩ := raiseFault_faulted f v
  rw [hup, hv] at hnotices
  simp only [noticesOf_besides] at hnotices
  rw [takeFault_eq_raised, h.taking]
  refine ⟨by simp [h.clock], ?_, ?_⟩
  · have hheld : bare ((raiseFault f v).updFaults (holding true t.faults.waiting)).faults =
        holding true t.faults.waiting (bare (raiseFault f v).faults) := rfl
    rw [hheld, raiseFault_faults, hup, hv, raisedUnit_besides, h.waiting, unitAfter_append]
    rfl
  · simp only [noticesOf_append]
    exact h.notices.trans hnotices

/-- The faults that waited are taken once the event is finished (R156). -/
theorem takeAll_faulted (h : s.faults.taking = false) : Faulted m s (takeAll m s) := by
  induction m generalizing s with
  | nil => exact .refl
  | cons f rest ih =>
    have hone := raiseFault_faulted f s
    have hfree : (raiseFault f s).faults.taking = false := by
      rw [raiseFault_faults]
      exact raisedUnit_holds.1.trans h
    rw [takeAll, ← raiseFault_of_free h]
    exact hone.trans (ih hfree)

/-- Nothing waits once an event is finished. -/
theorem finishTaking_idle : faultsIdle (finishTaking s) := by
  obtain ⟨-, hunit, -⟩ := takeAll_faulted (m := s.faults.waiting) (s := s.updFaults (holding false [])) rfl
  obtain ⟨htaking, hwaiting⟩ := unitAfter_holds (l := s.faults.waiting) (uptime := s.uptime)
    (u := holding false [] s.faults)
  exact ⟨(congrArg FaultUnit.taking hunit :).trans htaking,
    (congrArg FaultUnit.waiting hunit :).trans (hwaiting rfl)⟩

/-- Faults in the terms of the statements, of an event that may have moved the isolation state too. -/
theorem raises_of_bare (hc : t.clock = s.clock) (hf : bare t.faults = bare (unitAfter l s.uptime s.faults))
    (hn : HandsOut (ofKind .fault) (fun c => noticesOf s.uptime c l s.faults) s.channels t.channels)
    (hlen : l.length ≤ 16) : raises l s t := by
  let r : State := t.updFaults (fun u => { u with isolation := s.faults.isolation })
  have hr : Faulted l s r := by
    refine ⟨hc, ?_, hn⟩
    have hisolation : s.faults.isolation = (unitAfter l s.uptime s.faults).isolation := unitAfter_isolation _ |>.symm
    rw [show unwatched r.faults = besides ⟨none, false⟩ s.faults.isolation (bare t.faults) from rfl, hf, hisolation]
    rfl
  exact hr.raises hlen

/-- The faults of an event in the order of R156: those it took, then those that waited. -/
theorem Held.finish (h : Held l w s t) (hs : faultsIdle s) (hlen : (l ++ w).length ≤ 16) :
    raises (l ++ w) s (finishTaking t) := by
  let v := t.updFaults (holding false [])
  have hup : v.uptime = s.uptime := congrArg Clock.uptime h.clock
  have hv : v.faults = besides t.faults.watch t.faults.isolation (unitAfter l s.uptime s.faults) := h.freed hs
  obtain ⟨hclock, hunit, hnotices⟩ := takeAll_faulted (m := w) (s := v) rfl
  rw [hup, hv] at hunit hnotices
  simp only [noticesOf_besides] at hnotices
  rw [unitAfter_besides] at hunit
  rw [finishTaking, h.waiting]
  refine raises_of_bare (hclock.trans h.clock) ?_ ?_ hlen
  · rw [unitAfter_append]
    exact bare_eq_of_unwatched (u := (takeAll w v).faults) hunit |>.trans rfl
  · simp only [noticesOf_append]
    exact h.notices.trans hnotices

end

end Sys2Proof.Machine
end

