-- ==== Sys2Proof/Proofs/AbortsByFaults.lean ====
section
namespace Sys2Proof.Machine

/-! ## The end of a test, and its aborts, at the windows, the settles and the notices -/

section
variable {why : AbortReason} {x y : Test} {s t : State} {P : Notice → Prop} {a : PerChan ChannelRec} {d : Settle}

theorem ringLosesHold_evolves (f : Func) (c : Channel) : Evolves 1 s (ringLosesHold f c s) := by
  unfold ringLosesHold
  (repeat' split)
  · exact endSession_evolves _ _
  all_goals exact .refl

theorem grantNext_evolves (f : Func) : Evolves 0 s (grantNext f s) := evolves_of_eq (by simp) (by simp)

theorem gateLeft_evolves : Evolves 1 s (gateLeft x s) := by
  have hremove (f : Func) : Evolves 0 s (removeHold f s) := evolves_of_eq rfl rfl
  unfold gateLeft gatedRelease
  (repeat' split)
  · exact ((hremove _).trans (ringLosesHold_evolves _ _)).trans (grantNext_evolves _)
  all_goals exact .refl

/-- No ring session hangs on the TEST function (R33). -/
theorem gateLeft_evolves_of_exchange (hx : x.target = .exchange) : Evolves 0 s (gateLeft x s) := by
  have hring (c : Channel) (u : State) : ringLosesHold .test c u = u := rfl
  have hfunc : targetFunc x.target = .test := by rw [hx]; rfl
  have hremove (f : Func) : Evolves 0 s (removeHold f s) := evolves_of_eq rfl rfl
  unfold gateLeft gatedRelease
  (repeat' split)
  · rw [hfunc, hring]
    exact (hremove _).trans (grantNext_evolves _)
  all_goals exact .refl

theorem homeTestEnded_evolves (p : Port) : Evolves 1 s (homeTestEnded p s) := by
  have htold : Evolves 0 s (s.updPort p (fun q => { q with underTest := false })) := evolves_of_eq rfl rfl
  unfold homeTestEnded
  dsimp only
  split
  · exact htold.trans (restart_evolves none)
  · exact htold.mono (by omega)

theorem doneTold_evolves : Evolves 0 s (doneTold x s) := by
  refine evolves_of_eq doneTold_parts.2.2.2 ?_
  unfold doneTold raiseTestFail
  dsimp only
  (repeat' split) <;> simp

theorem testGone_evolves : Evolves 0 s (testGone s) := evolves_of_eq rfl rfl

theorem endTest_evolves (hx : s.engine.test = some x) : Evolves 2 s (endTest s) := by
  have hhome (u : State) : Evolves 1 u (homeTold x u) := by
    unfold homeTold
    split
    · exact homeTestEnded_evolves _
    · exact .refl
  rw [endTest_eq hx]
  exact ((doneTold_evolves.trans gateLeft_evolves).trans (hhome _)).trans testGone_evolves

theorem endTest_evolves_of_exchange (hx : s.engine.test = some x) (ht : x.target = .exchange) :
    Evolves 0 s (endTest s) := by
  have hhome (u : State) : homeTold x u = u := by
    unfold homeTold
    rw [ht]
    rfl
  rw [endTest_eq hx, hhome]
  exact (doneTold_evolves.trans (gateLeft_evolves_of_exchange ht)).trans testGone_evolves

theorem endTest_emits_all (hP : AbortNotices P) (hfault : ∀ n, n.kind = .fault → P n)
    (hdone : ∀ n, n.kind = .testDone → P n) (h : Emits P a s.channels) : Emits P a (endTest s).channels := by
  cases hx : s.engine.test with
  | none => simpa [endTest, hx] using h
  | some x =>
    rw [endTest_eq hx, testGone, State.updEngine_channels, homeTold_channels]
    refine gateLeft_emits hP ?_
    unfold doneTold raiseTestFail
    dsimp only
    refine postCompletion_emits (hdone _ rfl) ?_
    (repeat' split)
    · exact raiseFault_emits hfault _ h
    · exact h
    · exact h

theorem enterRelease_evolves : Evolves 3 s (enterRelease s) := by
  cases hx : s.engine.test with
  | none => simpa [enterRelease, hx] using Evolves.refl
  | some x =>
    have hset : Evolves 0 s (updTest (fun t => { t with phase := .release }) s) := evolves_of_eq rfl rfl
    have happlied : AddsUpTo 3 (updTest (fun t => { t with phase := .release }) s) (enterRelease s) := by
      rw [enterRelease_eq_applied hx]
      exact applied_adds
    simpa using hset.trans happlied.evolves

theorem enterRelease_settles (hd : d ∈ s.settles) : d ∈ (enterRelease s).settles := by
  cases hx : s.engine.test with
  | none => simpa [enterRelease, hx] using hd
  | some x =>
    rw [enterRelease_eq_applied hx]
    dsimp only
    rw [applied_settles]
    exact List.mem_append_left _ hd

/-! ### The release that runs on detached (R148) -/

/-- The state in which a test whose release runs on detached ends (R148). -/
def detachedFrom (x : Test) (s : State) : State :=
  let s := fixClean (dropSettle .testConnect s)
  let s :=
    if x.phase = .release then
      s.setSettles (s.settles.map (fun z => if z.asker = .testRelease then { z with asker := .detachedRelease } else z))
    else applyRelease .detachedRelease x s
  s.updEngine (fun e => { e with detached := some ⟨true⟩ })

theorem abortDetached_eq : abortDetached x s = endTest (detachedFrom x s) := rfl

theorem applyRelease_eq_applied {a : Asker} : applyRelease a x s = applied (releaseChange s x) a x.id s := by
  unfold applyRelease
  rw [applyChange_of_allowed (refusedByBus_of_bus (by simp [releaseChange_bus]))]

theorem detachedFrom_steady : steady (detachedFrom x s) = steady (fixClean s) := by
  unfold detachedFrom
  dsimp only
  have hset (u : State) : steady (u.updEngine (fun e => { e with detached := some ⟨true⟩ })) = steady u := rfl
  rw [hset]
  split
  · rfl
  · rw [applyRelease_steady]
    rfl

theorem fixClean_evolves : Evolves 0 s (fixClean (dropSettle .testConnect s)) := evolves_of_eq rfl rfl

theorem detachedFrom_evolves : Evolves 3 s (detachedFrom x s) := by
  unfold detachedFrom
  dsimp only
  split
  · exact evolves_of_eq rfl rfl
  · have happlied : AddsUpTo 3 (fixClean (dropSettle .testConnect s))
        (applyRelease .detachedRelease x (fixClean (dropSettle .testConnect s))) := by
      rw [applyRelease_eq_applied]
      exact applied_adds
    exact (fixClean_evolves.trans happlied.evolves).trans (evolves_of_eq (n := 0) rfl rfl)

theorem detachedFrom_clock : (detachedFrom x s).clock = s.clock := by
  unfold detachedFrom
  dsimp only
  split <;> simp [fixClean, updTest, stopTestTimers, dropSettle]

theorem detachedFrom_emits (hP : AbortNotices P) (h : Emits P a s.channels) :
    Emits P a (detachedFrom x s).channels := by
  unfold detachedFrom
  dsimp only
  split
  · exact h
  · exact applyRelease_emits (s := fixClean (dropSettle .testConnect s)) hP.loops h _ _

theorem dropSettle_settles {k : Asker} (hd : d ∈ s.settles) (hk : d.asker ≠ k) : d ∈ (dropSettle k s).settles :=
  List.mem_filter.mpr ⟨hd, decide_eq_true hk⟩

theorem detachedFrom_settles (hd : d ∈ s.settles) (hk : d.asker = .lineBreak) : d ∈ (detachedFrom x s).settles := by
  have hfix : d ∈ (fixClean (dropSettle .testConnect s)).settles := dropSettle_settles hd (by simp [hk])
  unfold detachedFrom
  dsimp only
  split
  · exact List.mem_map.mpr ⟨d, hfix, if_neg (by simp [hk])⟩
  · rw [State.updEngine_settles, applyRelease_eq_applied, applied_settles]
    exact List.mem_append_left _ hfix

/-- The test stands until its end, but for its clean time and its readings. -/
theorem detachedFrom_test (hx : s.engine.test = some x) : ∃ y, (detachedFrom x s).engine.test = some y ∧
    y.target = x.target ∧ y.abort = x.abort := by
  obtain ⟨z, hz, htarget, habort⟩ : ∃ z, (fixClean s).engine.test = some z ∧ z.target = x.target ∧
      z.abort = x.abort := by
    refine ⟨_, by simp only [fixClean, updTest, stopTestTimers, State.updEngine_engine, hx]; rfl, ?_, ?_⟩ <;>
      (dsimp only; split <;> rfl)
  obtain ⟨y, hy, hyz⟩ := exists_test_of_steady (congrArg Steady.test detachedFrom_steady) hz
  have heq := eq_of_forgetReadings hyz
  exact ⟨y, hy, by rw [heq]; exact htarget, by rw [heq]; exact habort⟩

/-! ### Any abort but that by the loss of power -/

theorem abortInNotify_evolves (hx : s.engine.test = some x) : Evolves 2 s (abortInNotify y s) := by
  have hcancel : Evolves 0 s ((cancelSlot (targetSlot y.target) s).getD s) := by
    refine evolves_of_eq (cancelled_frame _).2.2.1 ?_
    unfold cancelSlot endSlot setSlot
    (repeat' split) <;> simp
  exact hcancel.trans (endTest_evolves ((cancelled_frame _).1.trans hx))

theorem abortByRelease_evolves (hx : s.engine.test = some x) : Evolves 3 s (abortByRelease y s) := by
  unfold abortByRelease
  split
  · exact (abortInNotify_evolves hx).mono (by omega)
  · exact ((evolves_of_eq (n := 0) rfl rfl).trans enterRelease_evolves :)
  · exact ((evolves_of_eq (n := 0) rfl rfl).trans enterRelease_evolves :)
  · exact .refl

theorem actOnAbort_evolves (hw : why ≠ .powerAbort) (hx : s.engine.test = some x) :
    Evolves 3 s (actOnAbort why x s) := by
  unfold actOnAbort
  split
  · exact (abortInNotify_evolves hx).mono (by omega)
  · split
    · exact absurd rfl hw
    · next ht =>
      obtain ⟨y, hy, htarget, -⟩ := detachedFrom_test hx
      rw [abortDetached_eq]
      exact detachedFrom_evolves.trans (endTest_evolves_of_exchange hy (htarget.trans ht))
    · exact abortByRelease_evolves hx

/-- An abort adds at most three windows. -/
theorem abortTest_evolves (hw : why ≠ .powerAbort) : Evolves 3 s (abortTest why s) := by
  cases hx : s.engine.test with
  | none => simpa [abortTest, hx] using Evolves.refl
  | some x =>
    by_cases hp : x.phase = .release
    · rw [abortTest_acts_in_release hx hp]
      exact actOnAbort_evolves hw hx
    · have hraised : Evolves 0 s (abortRaised why x s) := evolves_of_eq (by simp) (by simp [abortRaised])
      rw [abortTest_acts hx hp]
      exact hraised.trans (actOnAbort_evolves hw abortRaised_test)

theorem abortInNotify_settles : (abortInNotify x s).settles = s.settles := by
  unfold abortInNotify cancelSlot
  split <;> simp

theorem abortByRelease_settles (hd : d ∈ s.settles) (hk : d.asker = .lineBreak) :
    d ∈ (abortByRelease x s).settles := by
  unfold abortByRelease
  split
  · rwa [abortInNotify_settles]
  · exact enterRelease_settles (dropSettle_settles hd (by simp [hk]))
  · exact enterRelease_settles hd
  · exact hd

theorem actOnAbort_settles (hw : why ≠ .powerAbort) (hd : d ∈ s.settles) (hk : d.asker = .lineBreak) :
    d ∈ (actOnAbort why x s).settles := by
  unfold actOnAbort
  split
  · rwa [abortInNotify_settles]
  · split
    · exact absurd rfl hw
    · rw [abortDetached_eq]
      simpa using detachedFrom_settles hd hk
    · exact abortByRelease_settles hd hk

/-- The line-break's settle runs on through an abort. -/
theorem abortTest_settles (hw : why ≠ .powerAbort) (hd : d ∈ s.settles) (hk : d.asker = .lineBreak) :
    d ∈ (abortTest why s).settles := by
  unfold abortTest
  split
  · exact hd
  · dsimp only
    split
    · exact actOnAbort_settles hw hd hk
    · exact actOnAbort_settles hw (by simpa using hd) hk

theorem abortInNotify_emits (hP : AbortNotices P) (hfault : ∀ n, n.kind = .fault → P n)
    (hdone : ∀ n, n.kind = .testDone → P n) (h : Emits P a s.channels) :
    Emits P a (abortInNotify x s).channels :=
  endTest_emits_all hP hfault hdone (cancelled_emits hP.records h _)

theorem actOnAbort_emits (hw : why ≠ .powerAbort) (hP : AbortNotices P) (hfault : ∀ n, n.kind = .fault → P n)
    (hdone : ∀ n, n.kind = .testDone → P n) (h : Emits P a s.channels) :
    Emits P a (actOnAbort why x s).channels := by
  unfold actOnAbort
  split
  · exact abortInNotify_emits hP hfault hdone h
  · split
    · exact absurd rfl hw
    · exact endTest_emits_all hP hfault hdone (detachedFrom_emits hP h)
    · unfold abortByRelease
      split
      · exact abortInNotify_emits hP hfault hdone h
      · exact enterRelease_emits (s := dropSettle .testConnect s) hP.loops h
      · exact enterRelease_emits (s := fixClean s) hP.loops h
      · exact h

theorem abortTest_emits_all (hw : why ≠ .powerAbort) (hP : AbortNotices P) (hfault : ∀ n, n.kind = .fault → P n)
    (hdone : ∀ n, n.kind = .testDone → P n) (h : Emits P a s.channels) :
    Emits P a (abortTest why s).channels := by
  unfold abortTest
  split
  · exact h
  · dsimp only
    split
    · exact actOnAbort_emits hw hP hfault hdone h
    · exact actOnAbort_emits hw hP hfault hdone (raiseFault_emits hfault _ h)

/-! ### A hard fault -/

theorem releasesBy_fault (h : x.target ≠ .exchange) : releasesBy .faultAbort x := ⟨by decide, fun _ => h⟩

theorem actOnAbort_fault_of_exchange (ht : x.target = .exchange) (hn : x.phase ≠ .notify) :
    actOnAbort .faultAbort x s = abortDetached x s := by
  unfold actOnAbort
  rw [if_neg hn, ht]

/-- An exchange test is over after a hard fault, and raises TEST_ABORTED alone (R148). -/
theorem abortTest_fault_of_exchange (hx : s.engine.test = some x) (ht : x.target = .exchange)
    (hp : x.phase ≠ .release) : (abortTest .faultAbort s).engine.test = none ∧
      Faulted [abortFault .faultAbort x s] s (abortTest .faultAbort s) := by
  let u := abortRaised .faultAbort x s
  have hne : AbortNotices (fun n : Notice => n.kind ≠ .fault) := abortNotices_of_ne (by decide)
  obtain ⟨y, v, heq, hy, habort, hclock, hfaults, hemits⟩ : ∃ y v, abortTest .faultAbort s = endTest v ∧
      v.engine.test = some y ∧ y.abort.isSome = true ∧ v.clock = u.clock ∧
      unwatched v.faults = unwatched u.faults ∧ Emits (fun n => n.kind ≠ .fault) u.channels v.channels := by
    by_cases hn : x.phase = .notify
    · have hflight : abortTest .faultAbort s = endTest (abortCancelled .faultAbort x s) := by
        rw [abortTest_acts hx hp]
        exact if_pos hn
      obtain ⟨htest, hclock, -⟩ := abortCancelled_parts (why := .faultAbort) (x := x) (s := s)
      exact ⟨_, _, hflight, htest, rfl, by simp [u, hclock], congrArg Steady.faults abortCancelled_steady,
        cancelled_emits hne.records .refl _⟩
    · have hflight : abortTest .faultAbort s = endTest (detachedFrom (withAbort .faultAbort x) u) := by
        rw [abortTest_acts hx hp]
        exact actOnAbort_fault_of_exchange ht hn
      obtain ⟨y, hy, -, habort⟩ := detachedFrom_test (x := withAbort .faultAbort x) (s := u) abortRaised_test
      exact ⟨y, _, hflight, hy, by rw [habort]; rfl, detachedFrom_clock, congrArg Steady.faults detachedFrom_steady,
        detachedFrom_emits hne .refl⟩
  have hend : unwatched (endTest v).faults = unwatched v.faults :=
    congrArg Steady.faults (endTest_steady_of_aborted hy habort)
  have hdone : Emits (fun n => n.kind ≠ .fault) v.channels (endTest v).channels :=
    (postCompletion_emits (s := v.updEngine _) (by simp [testDone]) .refl).trans
      (endTest_emits_after_done hne hy habort)
  have hrest : Faulted [] u (endTest v) := faulted_of_emits (by simp [hclock]) (hend.trans hfaults)
    (hemits.trans hdone) fun _ hn => hn
  rw [heq]
  exact ⟨endTest_test_none hy, by simpa using abortRaised_faulted.trans hrest⟩

end

end Sys2Proof.Machine
end

