-- ==== Sys2Proof/Proofs/IsolationStates.lean ====
section
namespace Sys2Proof.Machine

/-! ## The line-break moves (R45, R59, R131) -/

/-- The notices that come with a move of the line-break or with the faults of its event, and that are none of its
own. -/
def beside (sort : Notice → Bool) : Prop :=
  ∀ n, sort n = true → n.kind = .isolation ∨ n.kind = .unplanned ∧ (n.subject = 4 ∨ n.subject = 5)

section
variable {why : AbortReason} {x y : Test} {s t u : State} {P : Notice → Prop} {a : PerChan ChannelRec} {d : Settle}
  {sort : Notice → Bool} {c : Contact}

theorem beside_unplanned {n : Nat} (hn : n = 4 ∨ n = 5) : beside (unplannedOf n) := fun m hm => by
  obtain ⟨hkind, hsubject⟩ := of_decide_eq_true hm
  refine .inr ⟨hkind, ?_⟩
  rcases hn with rfl | rfl
  · exact .inl (BitVec.eq_of_toNat_eq hsubject)
  · exact .inr (BitVec.eq_of_toNat_eq hsubject)

theorem beside_isolation : beside (ofKind .isolation) := fun _ hm => .inl (of_decide_eq_true hm)

theorem beside_ne {n : Notice} (h : beside sort) (hi : n.kind ≠ .isolation)
    (hu : n.kind = .unplanned → n.subject = 2 ∨ n.subject = 3) : sort n = false := by
  rw [Bool.eq_false_iff]
  intro hn
  rcases h n hn with hk | ⟨hk, hs⟩
  · exact hi hk
  · rcases hu hk with h2 | h2 <;> rcases hs with h4 | h4 <;> exact absurd (h2.symm.trans h4) (by decide)

theorem beside_abortNotices (h : beside sort) : AbortNotices (fun n => sort n = false) := by
  refine ⟨⟨fun p n hn => ?_, fun n hn => ?_⟩, fun n hn => ?_, fun n hn => ?_⟩
  · rcases hn with ⟨hn, -⟩ | ⟨hn, -⟩ | ⟨hn, hs⟩
    · exact beside_ne h (by simp [hn]) (by simp [hn])
    · exact beside_ne h (by simp [hn]) (by simp [hn])
    · exact beside_ne h (by simp [hn]) fun _ => .inl hs
  all_goals exact beside_ne h (by simp [hn]) (by simp [hn])

theorem beside_kind {k : Kind} (h : beside sort) (hk : k ≠ .isolation ∧ k ≠ .unplanned) :
    ∀ n : Notice, n.kind = k → sort n = false := fun n hn =>
  beside_ne h (by rw [hn]; exact hk.1) fun h' => absurd (hn.symm.trans h') hk.2

theorem abortTest_beside (h : beside sort) (hw : why ≠ .powerAbort) :
    Emits (fun n => sort n = false) s.channels (abortTest why s).channels :=
  abortTest_emits_all hw (beside_abortNotices h) (beside_kind h (by decide)) (beside_kind h (by decide)) .refl

theorem onsetNotices_beside (h : beside sort) {z : Handing} (hz : z ∈ onsetNotices s) : sort z.1 = false := by
  rw [onsetNotices, List.mem_cons] at hz
  rcases hz with rfl | hz
  · exact beside_ne h (by simp [unplannedNoteOf]) fun _ => .inr rfl
  · split at hz
    · rw [List.mem_singleton.mp hz]
      exact beside_ne h (by simp) (by simp)
    · simp at hz

theorem ringOnset_beside (h : beside sort) : Emits (fun n => sort n = false) s.channels (ringOnset s).channels := by
  have honset : Emits (fun n => sort n = false) s.channels (onsetRecord s).channels := by
    rw [onsetRecord_channels]
    exact handAll_emits (fun z hz => onsetNotices_beside h hz) .refl
  unfold ringOnset engineOnset
  split
  · exact honset.trans (abortTest_beside h (by decide))
  · exact honset

theorem onsetRecord_evolves : Evolves 1 s (onsetRecord s) := by
  have hcounted : Evolves 1 s (onsetCounted s) :=
    (evolves_of_eq (n := 0) rfl rfl).trans handWindow_evolves
  refine ⟨by simp [State.now], ?_⟩
  rw [onsetRecord_windows]
  exact hcounted.2

theorem ringOnset_evolves : Evolves 4 s (ringOnset s) := by
  unfold ringOnset engineOnset
  split
  · exact onsetRecord_evolves.trans (abortTest_evolves (by decide))
  · exact onsetRecord_evolves.mono (by omega)

theorem offsetRecord_evolves : Evolves 0 s (offsetRecord s) := by
  refine ⟨by simp [State.now], ?_⟩
  rw [offsetRecord_windows]
  exact .closes _ _ (.stays 0 _)

theorem ringOnset_settles (hd : d ∈ s.settles) (hk : d.asker = .lineBreak) : d ∈ (ringOnset s).settles := by
  unfold ringOnset engineOnset
  split
  · exact abortTest_settles (by decide) (by simpa using hd) hk
  · simpa using hd

/-- What the detectors that look through the line-break make of a state before the loops follow (R131). -/
def ringingSeen (s : State) : State :=
  match s.relays.lineBreak with
  | .open_ => if s.ring.exchange.burstOn then offsetRecord s else s
  | .closed => if s.pins.exchangeRinging then ringOnset s else s

theorem lineBreakSeen_eq : lineBreakSeen s = judgeWatch (senseLoop .p2 (senseLoop .p1 (ringingSeen s))) := rfl

/-- The windows that the detectors may add: ringing is seen through a line-break that closes alone. -/
def seenRoom : Contact → Nat
  | .open_ => 2
  | .closed => 6

theorem lineBreakSeen_evolves (h : s.relays.lineBreak = c) : Evolves (seenRoom c) s (lineBreakSeen s) := by
  rw [lineBreakSeen_eq]
  unfold ringingSeen
  cases c with
  | open_ =>
    rw [h]
    dsimp only
    split
    · exact offsetRecord_evolves.trans senseBoth_evolves
    · exact senseBoth_evolves
  | closed =>
    rw [h]
    dsimp only
    split
    · exact ringOnset_evolves.trans senseBoth_evolves
    · exact senseBoth_evolves.mono (by decide)

theorem lineBreakSeen_beside (h : beside sort) :
    Emits (fun n => sort n = false) s.channels (lineBreakSeen s).channels := by
  have hseen : Emits (fun n => sort n = false) s.channels (ringingSeen s).channels := by
    unfold ringingSeen
    (repeat' split)
    · simp
    · exact .refl
    · exact ringOnset_beside h
    · exact .refl
  have hloops := (beside_abortNotices h).loops
  rw [lineBreakSeen_eq, judgeWatch_channels]
  exact senseLoop_emits (hloops .p2) (senseLoop_emits (hloops .p1) hseen)

theorem lineBreakSeen_settles (hd : d ∈ s.settles) (hk : d.asker = .lineBreak) : d ∈ (lineBreakSeen s).settles := by
  have hseen : d ∈ (ringingSeen s).settles := by
    unfold ringingSeen
    (repeat' split)
    · simpa using hd
    · exact hd
    · exact ringOnset_settles hd hk
    · exact hd
  rw [lineBreakSeen_eq]
  simpa using hseen

/-- The line-break placed, with its settle and its RELAY window (R42, R45, R59). -/
def lineBreakPlaced (c : Contact) (s : State) : State :=
  handWindow .relay none none s.now (some 70) (placeLineBreak c s)

theorem moveLineBreak_eq : moveLineBreak c s = lineBreakSeen (lineBreakPlaced c s) := rfl

theorem lineBreakPlaced_parts : (lineBreakPlaced c s).relays.lineBreak = c ∧
    (lineBreakPlaced c s).settles = s.settles ++ [⟨.lineBreak, s.now + ms 20⟩] ∧
    (lineBreakPlaced c s).channels = s.channels ∧ (lineBreakPlaced c s).faults = s.faults := by
  have hplaced : (placeLineBreak c s).settles = s.settles ++ [⟨.lineBreak, s.now + ms 20⟩] := rfl
  refine ⟨?_, ?_, ?_, ?_⟩
  · simp [lineBreakPlaced, placeLineBreak, startSettle]
  · simp [lineBreakPlaced, hplaced]
  · simp [lineBreakPlaced, placeLineBreak, startSettle]
  · simp [lineBreakPlaced, placeLineBreak, startSettle]

/-- What a direct change of the line-break makes of a state (R45, R59). -/
structure LineBreakMoved (c : Contact) (s t : State) : Prop where
  clock : t.clock = s.clock
  lineBreak : t.relays.lineBreak = c
  isolation : t.faults.isolation = s.faults.isolation
  settles : ⟨.lineBreak, s.now + ms 20⟩ ∈ t.settles
  evolves : Evolves (seenRoom c) (lineBreakPlaced c s) t
  emits : ∀ sort, beside sort → Emits (fun n => sort n = false) s.channels t.channels

theorem moveLineBreak_moved : LineBreakMoved c s (moveLineBreak c s) := by
  obtain ⟨hlineBreak, hsettles, hchannels, hfaults⟩ := lineBreakPlaced_parts (c := c) (s := s)
  have hkeeps := lineBreakSeen_keeps (a := guarded (lineBreakPlaced c s)) Keeps.refl
  rw [moveLineBreak_eq]
  refine ⟨by simp [lineBreakPlaced, placeLineBreak, startSettle], hkeeps.lineBreak.trans hlineBreak,
    hkeeps.isolation.trans (congrArg FaultUnit.isolation hfaults), lineBreakSeen_settles (by simp [hsettles]) rfl,
    lineBreakSeen_evolves hlineBreak, fun sort h => ?_⟩
  rw [← hchannels]
  exact lineBreakSeen_beside h

/-- The RELAY window of a direct change, seen from the state before its event (R59). -/
theorem LineBreakMoved.opened {r : State} {n room : Nat} (h : LineBreakMoved c s t) (hclock : s.clock = r.clock)
    (hwindows : s.sched.windows = r.sched.windows) (ht : Evolves n t u) (hroom : seenRoom c + n + 1 ≤ room) :
    windowOpened (relayWindow r.now none) room r u := by
  have hnow : s.now = r.now := congrArg Clock.timebase hclock
  refine windowOpened_of_evolves (u := placeLineBreak c s) (n := seenRoom c + n) hnow ?_ (h.evolves.trans ht)
  have hplaced : (placeLineBreak c s).sched.windows = s.sched.windows := rfl
  rw [hplaced, hwindows]
  omega

end

/-! ## The test that a hard fault meets -/

section
variable {x : Test} {s t u : State} {l w : List Raised}

/-- No exchange test is in flight after a hard fault, and a home test is in RELEASE (R146, R148). -/
theorem abortTest_fault_leaves (y : Test) (hy : (abortTest .faultAbort s).engine.test = some y) :
    y.target ≠ .exchange ∧ y.phase = .release := by
  cases hx : s.engine.test with
  | none =>
    have hsame : abortTest .faultAbort s = s := by simp [abortTest, hx]
    rw [hsame, hx] at hy
    cases hy
  | some x =>
    by_cases ht : x.target = .exchange
    · by_cases hp : x.phase = .release
      · obtain ⟨z, hz, -⟩ := detachedFrom_test hx
        rw [abortTest_acts_in_release hx hp, actOnAbort_fault_of_exchange ht (by simp [hp]), abortDetached_eq,
          endTest_test_none hz] at hy
        cases hy
      · rw [(abortTest_fault_of_exchange hx ht hp).1] at hy
        cases hy
    · by_cases hp : x.phase = .release
      · rw [abortTest_in_release (releasesBy_fault ht) hx hp, hx] at hy
        cases hy
        exact ⟨ht, hp⟩
      · have hab := abortTest_abortedBy (releasesBy_fault ht) hx hp
        by_cases hn : x.phase = .notify
        · rw [(hab.ended hn).1] at hy
          cases hy
        · rw [(hab.releasing hn).1] at hy
          cases hy
          exact ⟨ht, rfl⟩

/-- The abort by a hard fault raises TEST_ABORTED of a test outside RELEASE, and nothing else. -/
theorem abortTest_fault_faulted (h : ∀ x, s.engine.test = some x → x.phase ≠ .release ∨ x.target ≠ .exchange) :
    Faulted (abortFaults 4 s) s (abortTest .faultAbort s) := by
  cases hx : s.engine.test with
  | none =>
    have hsame : abortTest .faultAbort s = s := by simp [abortTest, hx]
    have hnone : abortFaults 4 s = [] := by simp [abortFaults, hx]
    rw [hsame, hnone]
    exact .refl
  | some x =>
    by_cases hp : x.phase = .release
    · have ht : x.target ≠ .exchange := (h x hx).resolve_left (fun hn => hn hp)
      have hnone : abortFaults 4 s = [] := by simp [abortFaults, hx, hp]
      rw [abortTest_in_release (releasesBy_fault ht) hx hp, hnone]
      exact .refl
    · rw [show (4 : Nat) = abortCode .faultAbort from rfl, abortFaults_eq hx hp]
      by_cases ht : x.target = .exchange
      · exact (abortTest_fault_of_exchange hx ht hp).2
      · exact (abortTest_abortedBy (releasesBy_fault ht) hx hp).faulted

theorem abortFaults_congr {n : Nat} (hnow : t.now = s.now) (htest : (steady t).test = (steady s).test) :
    abortFaults n t = abortFaults n s := by
  cases hx : s.engine.test with
  | none =>
    have hy : t.engine.test = none := by simpa [steady, hx] using htest
    simp [abortFaults, hx, hy]
  | some x =>
    obtain ⟨y, hy, hyx⟩ := exists_test_of_steady htest hx
    rw [abortFaults, abortFaults, hy, hx, hnow, eq_of_forgetReadings hyx]

end

/-! ## What comes with a hard fault (R156, R162) -/

/-- What the faults of an event leave to it: the line-break with its settle, the isolation state and its own notices. -/
structure Aside (n : Nat) (s t : State) : Prop where
  clock : t.clock = s.clock
  lineBreak : t.relays.lineBreak = s.relays.lineBreak
  isolation : t.faults.isolation = s.faults.isolation
  settles : ∀ d ∈ s.settles, d.asker = .lineBreak → d ∈ t.settles
  evolves : Evolves n s t
  emits : ∀ sort, beside sort → Emits (fun n => sort n = false) s.channels t.channels

section
variable {s t u v : State} {n k : Nat} {f : Raised} {c : FaultClass} {d1 d2 : Nat} {l w : List Raised}

theorem Aside.refl : Aside n s s := ⟨rfl, rfl, rfl, fun _ h _ => h, .refl, fun _ _ => .refl⟩

theorem Aside.trans (h : Aside n s t) (h' : Aside k t u) : Aside (n + k) s u where
  clock := h'.clock.trans h.clock
  lineBreak := h'.lineBreak.trans h.lineBreak
  isolation := h'.isolation.trans h.isolation
  settles := fun d hd hk => h'.settles d (h.settles d hd hk) hk
  evolves := h.evolves.trans h'.evolves
  emits := fun sort hs => (h.emits sort hs).trans (h'.emits sort hs)

theorem abortTest_aside {why : AbortReason} (hw : why ≠ .powerAbort) : Aside 3 s (abortTest why s) := by
  have hkeeps := abortTest_keeps (a := guarded s) (s := s) Keeps.refl why
  exact ⟨by simp, hkeeps.lineBreak, hkeeps.isolation, fun d hd hk => abortTest_settles hw hd hk,
    abortTest_evolves hw, fun sort hs => abortTest_beside hs hw⟩

theorem takeFault_aside : Aside 0 s (takeFault f s) :=
  ⟨by simp, by simp, congrArg Guarded.isolation (takeFault_guarded f), fun d hd _ => by simpa using hd,
    evolves_of_eq (by simp) (by simp), fun sort hs => takeFault_emits (beside_kind hs (by decide)) .refl⟩

theorem raiseHard_aside : Aside 3 s (raiseHard c d1 d2 s) := (abortTest_aside (by decide)).trans takeFault_aside

theorem beginTaking_aside : Aside 0 s (beginTaking s) :=
  ⟨rfl, rfl, rfl, fun _ h _ => h, .refl, fun _ _ => .refl⟩

theorem finishTaking_aside : Aside 0 s (finishTaking s) :=
  ⟨by simp, by simp, congrArg Guarded.isolation (finishTaking_guarded (s := s)), fun d hd _ => by simpa using hd,
    evolves_of_eq (by simp) (by simp), fun sort hs =>
      takeAll_emits (s := s.updFaults (holding false [])) (beside_kind hs (by decide)) .refl⟩

/-- A hard fault of an event is taken at once, and TEST_ABORTED of the test that it aborts waits (R156). -/
theorem Held.hard (h : Held l w u v) (hs : faultsIdle u)
    (htest : ∀ x, v.engine.test = some x → x.phase ≠ .release ∨ x.target ≠ .exchange) :
    Held (l ++ [raisedAt v c none d1 d2]) (w ++ abortFaults 4 v) u (raiseHard c d1 d2 v) :=
  (h.raised (abortTest_fault_faulted htest)).took hs _

theorem raiseHard_engine : (raiseHard c d1 d2 s).engine = (abortTest .faultAbort s).engine := by simp [raiseHard]

theorem abortFaults_of_left (h : ∀ y, s.engine.test = some y → y.target ≠ .exchange ∧ y.phase = .release) :
    abortFaults n s = [] := by
  unfold abortFaults
  cases hx : s.engine.test with
  | none => rfl
  | some x => simp [(h x hx).2]

/-! ## An event in NORMAL (R162) -/

/-- The state in which the line-break has opened and ISOLATING is entered. -/
def isolationEntered (c : FaultClass) (s : State) : State :=
  setIsolation (.isolating 1 (some (s.now + ms 2000)) c s.uptime) (moveLineBreak .open_ s)

theorem isolate_normal (h : s.faults.isolation = .normal) : isolate c s =
    isolationNotice .opened (unplanned .isolationOpen none c.num (isolationEntered c s)) := by
  unfold isolate
  rw [h]
  rfl

theorem offsetRecord_steady : steady (offsetRecord s) = steady s := by
  unfold offsetRecord updExchange
  dsimp only
  split <;> simp

/-- A line-break that opens touches no test and raises no fault. -/
theorem moveLineBreak_open_steady : steady (moveLineBreak .open_ s) = steady s := by
  have hplaced : steady (lineBreakPlaced .open_ s) = steady s := by
    simp [lineBreakPlaced, placeLineBreak, startSettle]
  rw [moveLineBreak_eq, lineBreakSeen_eq, judgeWatch_steady, senseLoop_steady, senseLoop_steady, ringingSeen,
    lineBreakPlaced_parts.1]
  dsimp only
  split
  · rw [offsetRecord_steady, hplaced]
  · exact hplaced

theorem moveLineBreak_open_emits {P : Notice → Prop} (hP : ∀ p n, LoopNotice p n → P n) :
    Emits P s.channels (moveLineBreak .open_ s).channels := by
  have hseen : (ringingSeen (lineBreakPlaced .open_ s)).channels = s.channels := by
    unfold ringingSeen
    rw [lineBreakPlaced_parts.1]
    dsimp only
    split <;> simp [lineBreakPlaced_parts.2.2.1]
  rw [moveLineBreak_eq, lineBreakSeen_eq, judgeWatch_channels]
  exact senseLoop_emits (hP .p2) (senseLoop_emits (hP .p1) (hseen ▸ .refl))

theorem loopNotice_ne_fault {p : Port} {m : Notice} (h : LoopNotice p m) : m.kind ≠ .fault := by
  rcases loopNotice_kind h with h | h | h <;> simp [h]

theorem moveLineBreak_open_faulted : Faulted [] s (moveLineBreak .open_ s) :=
  faulted_of_emits (by simp) (congrArg Steady.faults moveLineBreak_open_steady)
    (moveLineBreak_open_emits (P := fun m => m.kind ≠ .fault) fun _ _ h => loopNotice_ne_fault h) fun _ h => h

/-- The notices of an isolation state are those of its own act. -/
theorem isolationNotice_eq (why : IsolationReason) : isolationNotice why s =
    handAll [isolationNoteOf s.now s.faults.isolation.code why.code
      ((s.faults.isolation.cause.map FaultClass.num).getD 255) s.faults.isolation.dwell] s := rfl

theorem isolationNotice_unplanned (k : Unplanned) (b8 : Nat) (why : IsolationReason) :
    isolationNotice why (unplanned k none b8 s) = handAll [unplannedNoteOf s.now k.code none b8,
      isolationNoteOf s.now s.faults.isolation.code why.code ((s.faults.isolation.cause.map FaultClass.num).getD 255)
        s.faults.isolation.dwell] s := by
  have hfaults : (unplanned k none b8 s).faults = s.faults := by simp
  have hnow : (unplanned k none b8 s).now = s.now := by simp [State.now]
  rw [isolationNotice_eq, hfaults, hnow, unplanned_eq, ← handAll_append]
  rfl

theorem handAll_faulted {m : List Handing} (h : ∀ x ∈ m, x.1.kind ≠ .fault) : Faulted [] s (handAll m s) := by
  rw [handAll_eq]
  exact faulted_of_emits rfl rfl (handAll_emits (P := fun n => n.kind ≠ .fault) h .refl) fun _ h => h

/-! ### The isolation's own notices -/

/-- Of the notices of an isolation, an event handed exactly these. -/
def Told (m : List Handing) (s t : State) : Prop :=
  ∀ sort, lasting sort → beside sort → HandsTo sort (m.filter (fun x => sort x.1)) s.channels t.channels

theorem Aside.told (h : Aside n s t) : Told [] s t := fun sort hs hb =>
  (h.emits sort hb).handsTo hs fun _ hn => hn

theorem Told.trans {m m' : List Handing} (h : Told m s t) (h' : Told m' t u) : Told (m ++ m') s u :=
  fun sort hs hb => by
    rw [List.filter_append]
    exact (h sort hs hb).trans (h' sort hs hb)

theorem LineBreakMoved.told {x : Contact} (h : LineBreakMoved x s t) : Told [] s t := fun sort hs hb =>
  (h.emits sort hb).handsTo hs fun _ hn => hn

theorem handAll_told (m : List Handing) : Told m s (handAll m s) := fun _ hs _ => handAll_handsTo hs m

/-- The UNPLANNED and ISOLATION notices of a direct change and a change of the state, handed in turn. -/
theorem Told.hands_unplanned {j b8 : Nat} {i : Handing} (hj : j = 4 ∨ j = 5) (hi : i.1.kind = .isolation)
    (h : Told [unplannedNoteOf s.now j none b8, i] s t) :
    hands (unplannedOf j) [unplannedNoteOf s.now j none b8] s t := by
  have hall := h (unplannedOf j) lasting_unplannedOf (beside_unplanned hj)
  have hown : unplannedOf j (unplannedNoteOf s.now j none b8).1 = true := by
    rcases hj with rfl | rfl <;> rfl
  have hother : unplannedOf j i.1 = false := by simp [unplannedOf, hi]
  simp only [List.filter, hown, hother] at hall
  exact hall.hands

theorem Told.hands_isolation {m : List Handing} {i : Handing} (hm : ∀ x ∈ m, x.1.kind = .unplanned)
    (hi : i.1.kind = .isolation) (h : Told (m ++ [i]) s t) : hands (ofKind .isolation) [i] s t := by
  have hall := h (ofKind .isolation) (lasting_ofKind rfl) beside_isolation
  have hnone : m.filter (fun x => ofKind .isolation x.1) = [] :=
    List.filter_eq_nil_iff.mpr fun x hx => by simp [ofKind, hm x hx]
  rw [List.filter_append, hnone, List.nil_append, List.filter_cons_of_pos (by simp [ofKind, hi]), List.filter_nil] at hall
  exact hall.hands

theorem Told.hands_no_unplanned {m : List Handing} {j : Nat} (hj : j = 4 ∨ j = 5) (hm : ∀ x ∈ m, x.1.kind = .isolation)
    (h : Told m s t) : hands (unplannedOf j) [] s t := by
  have hall := h (unplannedOf j) lasting_unplannedOf (beside_unplanned hj)
  have hnone : m.filter (fun x => unplannedOf j x.1) = [] :=
    List.filter_eq_nil_iff.mpr fun x hx => by simp [unplannedOf, hm x hx]
  rw [hnone] at hall
  exact hall.hands

/-! ### The states before the faults of an event -/

/-- What an event makes of NORMAL before its faults (R162). -/
structure Entered (c : FaultClass) (s v : State) : Prop where
  isolation : v.faults.isolation = .isolating 1 (some (s.now + ms 2000)) c s.uptime
  lineBreak : v.relays.lineBreak = .open_
  settles : ⟨.lineBreak, s.now + ms 20⟩ ∈ v.settles
  evolves : Evolves 0 (moveLineBreak .open_ s) v
  told : Told [unplannedNoteOf s.now 4 none c.num, isolationNoteOf s.now 1 1 c.num 1] s v
  test : (steady v).test = (steady s).test
  clock : v.clock = s.clock
  held : ∀ u l w, Held l w u s → Held l w u v

theorem isolate_entered (h : s.faults.isolation = .normal) : Entered c s (isolate c s) := by
  let m := isolationEntered c s
  have hmoved := moveLineBreak_moved (c := .open_) (s := s)
  have hnow : m.now = s.now := congrArg Clock.timebase hmoved.clock
  have hv : isolate c s = handAll [unplannedNoteOf s.now 4 none c.num, isolationNoteOf s.now 1 1 c.num 1] m := by
    rw [isolate_normal h, isolationNotice_unplanned]
    change handAll [unplannedNoteOf m.now 4 none c.num, isolationNoteOf m.now 1 1 c.num 1] m = _
    rw [hnow]
  have htest : (steady m).test = (steady s).test := (congrArg Steady.test (moveLineBreak_open_steady (s := s)) :)
  have hhanded := handAll_told (s := m) [unplannedNoteOf s.now 4 none c.num, isolationNoteOf s.now 1 1 c.num 1]
  have heq := handAll_eq (s := m) [unplannedNoteOf s.now 4 none c.num, isolationNoteOf s.now 1 1 c.num 1]
  rw [hv]
  refine ⟨?_, ?_, ?_, ?_, ?_, ?_, ?_, fun u l w hheld => ?_⟩
  · rw [heq]
    rfl
  · rw [heq]
    exact hmoved.lineBreak
  · rw [heq]
    exact hmoved.settles
  · rw [heq]
    exact .refl
  · exact hmoved.told.trans hhanded
  · rw [heq]
    exact htest
  · rw [heq]
    exact hmoved.clock
  · have hentered := (hheld.raised moveLineBreak_open_faulted).isolated
      (.isolating 1 (some (s.now + ms 2000)) c s.uptime)
    have hall := hentered.raised (handAll_faulted (s := m)
      (m := [unplannedNoteOf s.now 4 none c.num, isolationNoteOf s.now 1 1 c.num 1])
      (by simp [unplannedNoteOf, isolationNoteOf]))
    simpa using hall

/-- What the entry into LOCKOUT makes of a state before its fault (R163). -/
def lockoutEntered (why : LockoutCause) (reason : IsolationReason) (cause : FaultClass) (since : BitVec 32) (s : State) :
    State :=
  handAll [isolationNoteOf s.now 2 reason.code cause.num 0] (setIsolation (.lockout why cause since) s)

theorem enterLockout_eq (why : LockoutCause) (reason : IsolationReason) (cause : FaultClass) (since : BitVec 32) (n : Nat) :
    enterLockout why reason cause since n s =
      raiseHard .lockout why.code n (lockoutEntered why reason cause since s) := rfl

theorem lockoutEntered_eq (why : LockoutCause) (reason : IsolationReason) (cause : FaultClass) (since : BitVec 32) :
    lockoutEntered why reason cause since s = { setIsolation (.lockout why cause since) s with
      channels := (lockoutEntered why reason cause since s).channels } := handAll_eq _

theorem lockoutEntered_held {why : LockoutCause} {reason : IsolationReason} {cause : FaultClass} {since : BitVec 32}
    (h : Held l w u s) : Held l w u (lockoutEntered why reason cause since s) := by
  have hall := (h.isolated (.lockout why cause since)).raised (handAll_faulted
    (m := [isolationNoteOf s.now 2 reason.code cause.num 0]) (by simp [isolationNoteOf]))
  rw [List.append_nil] at hall
  exact hall

theorem lockoutEntered_told (why : LockoutCause) (reason : IsolationReason) (cause : FaultClass) (since : BitVec 32) :
    Told [isolationNoteOf s.now 2 reason.code cause.num 0] s (lockoutEntered why reason cause since s) :=
  handAll_told (s := setIsolation (.lockout why cause since) s) _

end

end Sys2Proof.Machine
end

