-- ==== Sys2Proof/Proofs/HardFaultEvents.lean ====
section
namespace Sys2Proof.Machine

/-! ## A hard-fault event, whole (R156, R158, R162) -/

section
variable {s t u v : State} {c : FaultClass} {d2 : Nat} {cause : FaultClass} {since : BitVec 32}

/-- The fault of an event's own class (R158). -/
def ownFault (c : FaultClass) (d2 : Nat) (s : State) : Raised := raisedAt s c none s.faults.isolation.code d2

/-- What follows an event's change of state: its own fault, and those that waited. -/
theorem hardEvent_aside : Aside 3 (isolate c (beginTaking s)) (hardEvent c d2 s) :=
  raiseHard_aside.trans finishTaking_aside

theorem hardEvent_idle : faultsIdle (hardEvent c d2 s) := finishTaking_idle

theorem hardEvent_leaves (y : Test) (hy : (hardEvent c d2 s).engine.test = some y) : y.target ≠ .exchange := by
  have hengine (v : State) : (finishTaking v).engine = v.engine := by simp
  rw [hardEvent, hengine, raiseHard_engine] at hy
  exact (abortTest_fault_leaves y hy).1

theorem test_of_steady (h : (steady t).test = (steady s).test) (hs : ∀ x, s.engine.test = some x →
    x.phase ≠ .release ∨ x.target ≠ .exchange) :
    ∀ y, t.engine.test = some y → y.phase ≠ .release ∨ y.target ≠ .exchange := by
  intro y hy
  obtain ⟨x, hx, hxy⟩ := exists_test_of_steady h.symm hy
  have hsame := hs x hx
  rw [eq_of_forgetReadings hxy] at hsame
  exact hsame

/-- The faults of an event whose change of state raised `l`, with `w` waiting (R156). -/
theorem hardEvent_raises {l w : List Raised} (hs : faultsIdle s) (hv : Held l w s (isolate c (beginTaking s)))
    (hnow : (isolate c (beginTaking s)).now = s.now)
    (htest : ∀ x, (isolate c (beginTaking s)).engine.test = some x → x.phase ≠ .release ∨ x.target ≠ .exchange)
    (hlen : l.length + w.length ≤ 14) :
    raises (l ++ [ownFault c d2 s] ++ (w ++ abortFaults 4 (isolate c (beginTaking s)))) s (hardEvent c d2 s) := by
  have hown : raisedAt (isolate c (beginTaking s)) c none (beginTaking s).faults.isolation.code d2 = ownFault c d2 s := by
    rw [raisedAt, hnow]
    rfl
  have hone : (abortFaults 4 (isolate c (beginTaking s))).length ≤ 1 := by
    unfold abortFaults
    (repeat' split) <;> simp
  have hheld := hv.hard (c := c) (d1 := (beginTaking s).faults.isolation.code) (d2 := d2) hs htest
  rw [hown] at hheld
  exact hheld.finish hs (by simp; omega)

/-! ### NORMAL -/

/-- A hard-fault event in NORMAL (R162). -/
structure EventInNormal (c : FaultClass) (s t : State) : Prop where
  lineBreak : t.relays.lineBreak = .open_
  isolation : t.faults.isolation = .isolating 1 (some (s.now + ms 2000)) c s.uptime
  settles : ⟨.lineBreak, s.now + ms 20⟩ ∈ t.settles
  opened : windowOpened (relayWindow s.now none) 7 s t
  told : Told [unplannedNoteOf s.now 4 none c.num, isolationNoteOf s.now 1 1 c.num 1] s t

theorem hardEvent_normal (h : s.faults.isolation = .normal) : EventInNormal c s (hardEvent c d2 s) := by
  have hentered : Entered c (beginTaking s) (isolate c (beginTaking s)) := isolate_entered h
  have haside := hardEvent_aside (c := c) (d2 := d2) (s := s)
  have hmoved := moveLineBreak_moved (c := .open_) (s := beginTaking s)
  refine ⟨haside.lineBreak.trans hentered.lineBreak, haside.isolation.trans hentered.isolation,
    haside.settles _ hentered.settles rfl, ?_, ?_⟩
  · exact hmoved.opened (r := s) rfl rfl (hentered.evolves.trans haside.evolves) (by decide)
  · have htold := hentered.told.trans haside.told
    rw [List.append_nil] at htold
    exact htold

theorem hardEvent_normal_raises (h : s.faults.isolation = .normal) (hs : faultsIdle s)
    (htest : ∀ x, s.engine.test = some x → x.phase ≠ .release ∨ x.target ≠ .exchange) :
    raises (ownFault c d2 s :: abortFaults 4 s) s (hardEvent c d2 s) := by
  have hentered : Entered c (beginTaking s) (isolate c (beginTaking s)) := isolate_entered h
  have hsteady : (steady (isolate c (beginTaking s))).test = (steady s).test := hentered.test
  have hnow : (isolate c (beginTaking s)).now = s.now := congrArg Clock.timebase hentered.clock
  have hall := hardEvent_raises (d2 := d2) hs (hentered.held s [] [] (beginTaking_held hs)) hnow
    (test_of_steady hsteady htest) (by simp)
  rwa [abortFaults_congr hnow hsteady] at hall

/-! ### ISOLATING -/

/-- A hard-fault event that leaves the line-break: an isolation state and notices of its own. -/
structure EventInIsolation (i : Isolation) (m : List Handing) (s t : State) : Prop where
  lineBreak : t.relays.lineBreak = s.relays.lineBreak
  isolation : t.faults.isolation = i
  told : Told m s t

theorem lockout_aside (why : LockoutCause) (reason : IsolationReason) (n : Nat) :
    EventInIsolation (.lockout why cause since) [isolationNoteOf s.now 2 reason.code cause.num 0] s
      (enterLockout why reason cause since n (beginTaking s)) := by
  let v := lockoutEntered why reason cause since (beginTaking s)
  have hv : v = { setIsolation (.lockout why cause since) (beginTaking s) with channels := v.channels } :=
    lockoutEntered_eq ..
  have haside : Aside 3 v (enterLockout why reason cause since n (beginTaking s)) := raiseHard_aside
  refine ⟨haside.lineBreak.trans ?_, haside.isolation.trans ?_, ?_⟩
  · rw [hv]
    rfl
  · rw [hv]
    rfl
  · have htold := (lockoutEntered_told (s := beginTaking s) why reason cause since).trans haside.told
    rw [List.append_nil] at htold
    exact htold

theorem EventInIsolation.aside {i : Isolation} {m : List Handing} {n : Nat} (h : EventInIsolation i m s t)
    (h' : Aside n t u) : EventInIsolation i m s u := by
  refine ⟨h'.lineBreak.trans h.lineBreak, h'.isolation.trans h.isolation, ?_⟩
  have htold := h.told.trans h'.told
  rw [List.append_nil] at htold
  exact htold

/-- LOCKOUT's fault taken, and TEST_ABORTED waiting (R156, R163). -/
theorem enterLockout_held (why : LockoutCause) (reason : IsolationReason) (n : Nat) (hs : faultsIdle s)
    (htest : ∀ x, s.engine.test = some x → x.phase ≠ .release ∨ x.target ≠ .exchange) :
    Held [raisedAt s .lockout none why.code n] (abortFaults 4 s) s
      (enterLockout why reason cause since n (beginTaking s)) := by
  let v := lockoutEntered why reason cause since (beginTaking s)
  have hv : v = { setIsolation (.lockout why cause since) (beginTaking s) with channels := v.channels } :=
    lockoutEntered_eq ..
  have hheld : Held [] [] s v := lockoutEntered_held (beginTaking_held hs)
  have hengine : v.engine = s.engine := by
    rw [hv]
    rfl
  have hnow : v.now = s.now := by
    rw [hv]
    rfl
  have hsteady : (steady v).test = (steady s).test := by
    rw [hv]
    rfl
  have hall := hheld.hard (c := .lockout) (d1 := why.code) (d2 := n) hs (by rwa [hengine])
  rw [abortFaults_congr hnow hsteady, raisedAt, hnow] at hall
  exact hall

theorem isolate_isolating {d : Nat} {due : Option Time} (h : s.faults.isolation = .isolating d due cause since) :
    isolate c s = enterLockout .secondFault .lockoutFault cause since c.num s := by
  unfold isolate
  rw [h]

theorem hardEvent_isolating {d : Nat} {due : Option Time} (h : s.faults.isolation = .isolating d due cause since) :
    EventInIsolation (.lockout .secondFault cause since) [isolationNoteOf s.now 2 4 cause.num 0] s
      (hardEvent c d2 s) := by
  have haside := hardEvent_aside (c := c) (d2 := d2) (s := s)
  rw [isolate_isolating (s := beginTaking s) h] at haside
  exact (lockout_aside .secondFault .lockoutFault c.num).aside haside

theorem hardEvent_isolating_raises {d : Nat} {due : Option Time}
    (h : s.faults.isolation = .isolating d due cause since) (hs : faultsIdle s)
    (htest : ∀ x, s.engine.test = some x → x.phase ≠ .release ∨ x.target ≠ .exchange) :
    raises (raisedAt s .lockout none 1 c.num :: ownFault c d2 s :: abortFaults 4 s) s (hardEvent c d2 s) := by
  let v := isolate c (beginTaking s)
  have hv : v = enterLockout .secondFault .lockoutFault cause since c.num (beginTaking s) := isolate_isolating h
  have hnow : v.now = s.now := by
    rw [hv]
    simp [State.now, beginTaking]
  have hleft (y : Test) (hy : v.engine.test = some y) : y.target ≠ .exchange ∧ y.phase = .release := by
    rw [hv, enterLockout_eq, raiseHard_engine] at hy
    exact abortTest_fault_leaves y hy
  have hone : (abortFaults 4 s).length ≤ 1 := by
    unfold abortFaults
    (repeat' split) <;> simp
  have hall := hardEvent_raises (d2 := d2) hs (hv ▸ enterLockout_held .secondFault .lockoutFault c.num hs htest) hnow
    (fun y hy => .inr (hleft y hy).1) (by simp; omega)
  rw [abortFaults_of_left hleft, List.append_nil] at hall
  exact hall

/-! ### LOCKOUT -/

theorem isolate_lockout {why : LockoutCause} (h : s.faults.isolation = .lockout why cause since) : isolate c s = s := by
  unfold isolate
  rw [h]

theorem hardEvent_lockout {why : LockoutCause} (h : s.faults.isolation = .lockout why cause since) :
    EventInIsolation s.faults.isolation [] s (hardEvent c d2 s) := by
  have haside := hardEvent_aside (c := c) (d2 := d2) (s := s)
  rw [isolate_lockout (s := beginTaking s) h] at haside
  have hall := beginTaking_aside.trans haside
  exact ⟨hall.lineBreak, hall.isolation, hall.told⟩

theorem hardEvent_lockout_raises {why : LockoutCause} (h : s.faults.isolation = .lockout why cause since)
    (hs : faultsIdle s) (htest : ∀ x, s.engine.test = some x → x.phase ≠ .release ∨ x.target ≠ .exchange) :
    raises (ownFault c d2 s :: abortFaults 4 s) s (hardEvent c d2 s) := by
  have hv : isolate c (beginTaking s) = beginTaking s := isolate_lockout (s := beginTaking s) h
  have hall := hardEvent_raises (c := c) (d2 := d2) hs (hv.symm ▸ beginTaking_held hs) (by rw [hv]; rfl)
    (by rw [hv]; exact htest) (by simp)
  rw [hv] at hall
  exact hall

end

end Sys2Proof.Machine
end

