-- ==== Sys2Proof/Proofs/IsolationEnds.lean ====
section
namespace Sys2Proof.Machine

/-! ## The pins have no part in the faults of an event -/

section
variable {l : List Raised} {s t u : State} {pins : Pins}

theorem postRaised_channels_congr (x : Option (Notice × (Channel → Bool))) (h : u.channels = s.channels) :
    (postRaised x u).channels = (postRaised x s).channels := by
  unfold postRaised
  split
  · exact post_channels_congr h _ _
  · exact h

theorem faultsTaken_channels_congr (hclock : u.clock = s.clock) (hchannels : u.channels = s.channels)
    (hfaults : u.faults = s.faults) : (faultsTaken l u).channels = (faultsTaken l s).channels := by
  have hup {v w : State} (h : v.clock = w.clock) : v.uptime = w.uptime := congrArg Clock.uptime h
  induction l generalizing s u with
  | nil => exact hchannels
  | cons f rest ih =>
    refine ih (u := raiseFault f u) (s := raiseFault f s) (by simpa using hclock) ?_ ?_
    · rw [raiseFault_channels, raiseFault_channels, hup hclock, hfaults]
      exact postRaised_channels_congr _ hchannels
    · rw [raiseFault_faults, raiseFault_faults, hup hclock, hfaults]

theorem raises_of_pins (h : raises l { s with pins := pins } t) : raises l s t := by
  obtain ⟨hunit, hnotices⟩ := h
  refine ⟨?_, ?_⟩
  · rw [faultsTaken_faults] at hunit ⊢
    exact hunit
  · have hsame : (faultsTaken l (silenced { s with pins := pins })).channels = (faultsTaken l (silenced s)).channels :=
      faultsTaken_channels_congr rfl rfl rfl
    change handsEach (ofKind .fault) (fun c => ((faultsTaken l (silenced s)).channels.get c).queue) s t
    rw [← hsame]
    exact hnotices

end

/-! ## A hard-fault event in every isolation state (R162) -/

section
variable {c : Instr} {cls : FaultClass} {pins : Pins} {s t : State} {d2 : Nat}

/-- LOCKOUT's fault, of an event that escalates (R162). -/
def escalationFault (cls : FaultClass) (s : State) : List Raised :=
  if s.faults.isolation.code = 1 then [raisedAt s .lockout none 1 cls.num] else []

theorem hardEvent_all_raises (hs : faultsIdle s)
    (htest : ∀ x, s.engine.test = some x → x.phase ≠ .release ∨ x.target ≠ .exchange) :
    raises (escalationFault cls s ++ ownFault cls d2 s :: abortFaults 4 s) s (hardEvent cls d2 s) := by
  unfold escalationFault
  cases h : s.faults.isolation with
  | normal => exact hardEvent_normal_raises h hs htest
  | isolating d due cause since => exact hardEvent_isolating_raises h hs htest
  | lockout why cause since => exact hardEvent_lockout_raises h hs htest

/-- The second detail of an event's own fault: the hazard level of a surge, and the dwell of a hazard (R158). -/
def ownDetail (cls : FaultClass) (s : State) : Nat :=
  if cls = .surge then (if s.pins.hazard then 1 else 0) else s.faults.isolation.dwell

theorem ownFault_ownDetail : ownFault cls (ownDetail cls s) s = ⟨cls, none,
    some (BitVec.ofNat 32 s.faults.isolation.code), some (if cls = .surge then (if s.pins.hazard then 1 else 0)
      else BitVec.ofNat 32 s.faults.isolation.dwell), s.now⟩ := by
  simp [ownFault, ownDetail, raisedAt, apply_ite (BitVec.ofNat 32)]

theorem hardEvent_exec (hs : s.phase = .loading ∨ s.phase = .running) (h : c = .surge ∧ cls = .surge ∧ pins = s.pins ∨
    c = .hazardAssert ∧ cls = .hazardVoltage ∧ pins = { s.pins with hazard := true }) :
    exec c s = .next (hardEvent cls (ownDetail cls s) { s with pins := pins }) := by
  rcases h with ⟨rfl, rfl, rfl⟩ | ⟨rfl, rfl, rfl⟩
  · change done (if awake s then _ else s) = _
    rw [if_pos (awake_of_phase hs)]
    rfl
  · have hawake : awake (s.updPins (fun x => { x with hazard := true })) = true := awake_of_phase hs
    change done (if awake (s.updPins (fun x => { x with hazard := true })) then _ else _) = _
    rw [if_pos hawake]
    rfl

theorem Told.hands_no_isolation (h : Told [] s t) : hands (ofKind .isolation) [] s t :=
  (h (ofKind .isolation) (lasting_ofKind rfl) beside_isolation).hands

end

/-! ## The line-break closes (R163, R165) -/

section
variable {s : State} {why : IsolationReason} {b8 : Nat}

/-- The line-break closes and NORMAL is entered. -/
structure IsolationEnded (why : IsolationReason) (b8 : Nat) (s t : State) : Prop where
  lineBreak : t.relays.lineBreak = .closed
  isolation : t.faults.isolation = .normal
  settles : ⟨.lineBreak, s.now + ms 20⟩ ∈ t.settles
  opened : windowOpened (relayWindow s.now none) 7 s t
  told : Told [unplannedNoteOf s.now 5 none b8, isolationNoteOf s.now 0 why.code 255 0] s t

theorem endIsolation_ended : IsolationEnded why b8 s (endIsolation why b8 s) := by
  let m := moveLineBreak .closed (setIsolation .normal s)
  have hmoved : LineBreakMoved .closed (setIsolation .normal s) m := moveLineBreak_moved
  have hnow : m.now = s.now := congrArg Clock.timebase hmoved.clock
  have hnormal : m.faults.isolation = .normal := hmoved.isolation
  have hv : endIsolation why b8 s =
      handAll [unplannedNoteOf s.now 5 none b8, isolationNoteOf s.now 0 why.code 255 0] m := by
    change isolationNotice why (unplanned .isolationClose none b8 m) = _
    rw [isolationNotice_unplanned, hnow, hnormal]
    rfl
  have hall := handAll_eq (s := m) [unplannedNoteOf s.now 5 none b8, isolationNoteOf s.now 0 why.code 255 0]
  have htold : Told [unplannedNoteOf s.now 5 none b8, isolationNoteOf s.now 0 why.code 255 0] s
      (handAll [unplannedNoteOf s.now 5 none b8, isolationNoteOf s.now 0 why.code 255 0] m) :=
    (hmoved.told (t := m)).trans (handAll_told (s := m) _)
  have hevolves : Evolves 0 m (endIsolation why b8 s) := evolves_of_eq (by rw [hv, hall]) (by rw [hv, hall])
  refine ⟨?_, ?_, ?_, hmoved.opened (r := s) rfl rfl hevolves (by decide), hv ▸ htold⟩
  · rw [hv, hall]
    exact hmoved.lineBreak
  · rw [hv, hall]
    exact hnormal
  · rw [hv, hall]
    exact hmoved.settles

end

/-! ## The dwell's expiry (R163) -/

section
variable {d : Nat} {due : Option Time} {cause : FaultClass} {since : BitVec 32} {s t : State}

theorem dwellExpiry_exec (h : s.faults.isolation = .isolating d due cause since) : exec .dwellExpiry s =
    .next (if timerDue s.now due = true then dwellEnds d cause since s else s) := by
  change done (match s.faults.isolation with | .isolating .. => _ | _ => s) = _
  rw [h]
  rfl

theorem dwellEnds_clear (h : s.pins.hazard = false) : dwellEnds d cause since s = endIsolation .cleared 0 s := by
  simp [dwellEnds, h]

theorem dwellEnds_again (h : s.pins.hazard = true) : dwellEnds 1 cause since s =
    { setIsolation (.isolating 2 (some (s.now + ms 2000)) cause since) s with
      channels := (handAll [isolationNoteOf s.now 1 2 cause.num 2] s).channels } := by
  let u := setIsolation (.isolating 2 (some (s.now + ms 2000)) cause since) s
  have hsame : (handAll [isolationNoteOf s.now 1 2 cause.num 2] u).channels =
      (handAll [isolationNoteOf s.now 1 2 cause.num 2] s).channels :=
    handAll_channels_congr (s := u) (t := s) rfl _
  simp only [dwellEnds, h, if_pos]
  rw [← hsame]
  exact (isolationNotice_eq .secondDwell).trans (handAll_eq _)

theorem dwellEnds_locks (h : s.pins.hazard = true) : dwellEnds 2 cause since s =
    finishTaking (enterLockout .persistentHazard .lockoutHazard cause since 2 (beginTaking s)) := by
  simp [dwellEnds, h]

/-- The second dwell's expiry with the hazard standing. -/
theorem dwellEnds_lockout (h : s.pins.hazard = true) : EventInIsolation (.lockout .persistentHazard cause since)
    [isolationNoteOf s.now 2 5 cause.num 0] s (dwellEnds 2 cause since s) := by
  rw [dwellEnds_locks h]
  exact (lockout_aside .persistentHazard .lockoutHazard 2).aside finishTaking_aside

theorem dwellEnds_raises (h : s.pins.hazard = true) (hs : faultsIdle s)
    (htest : ∀ x, s.engine.test = some x → x.phase ≠ .release ∨ x.target ≠ .exchange) :
    raises (raisedAt s .lockout none 2 2 :: abortFaults 4 s) s (dwellEnds 2 cause since s) := by
  have hone : (abortFaults 4 s).length ≤ 1 := by
    unfold abortFaults
    (repeat' split) <;> simp
  rw [dwellEnds_locks h]
  exact (enterLockout_held .persistentHazard .lockoutHazard 2 hs htest).finish hs (by simp; omega)

theorem eq_with_of_isolated (h : t.pending = s.pending ∧ t.phase = s.phase ∧ t.clock = s.clock ∧ t.pins = s.pins ∧
      t.twoPorts = s.twoPorts ∧ t.gateway = s.gateway ∧ t.modem = s.modem ∧ t.dsl = s.dsl ∧ t.power = s.power ∧
      t.store = s.store ∧ t.occasion = s.occasion) :
    t = { s with
      channels := t.channels, lines := t.lines, relays := t.relays, settles := t.settles
      sched := t.sched, tracker := t.tracker, ports := t.ports, ring := t.ring, engine := t.engine
      faults := t.faults } := eq_with_of_onset (pins := s.pins) h

end

/-! ## RELEASE LOCKOUT (R165) -/

section
variable {r : Req} {s t : State}

theorem releaseLockout_privilege (h : 0 < effLevel r) : answerReleaseLockout r s = (s, ⟨.privilege, []⟩) := by
  rw [answerReleaseLockout, if_pos h]
  rfl

theorem releaseLockout_none (h : effLevel r = 0) (hs : ∀ why cause since, s.faults.isolation ≠ .lockout why cause since) :
    answerReleaseLockout r s = (s, ⟨.ok, [0, 0]⟩) := by
  rw [answerReleaseLockout, if_neg (by omega)]
  split
  · next why cause since hi => exact absurd hi (hs why cause since)
  · rfl

theorem releaseLockout_locked {why : LockoutCause} {cause : FaultClass} {since : BitVec 32} (h : effLevel r = 0)
    (hs : s.faults.isolation = .lockout why cause since) : answerReleaseLockout r s =
      if s.pins.hazard = true then (s, ⟨.hazardPresent, []⟩)
      else (endIsolation .released 1 s, ⟨.ok, [1, byte why.code]⟩) := by
  rw [answerReleaseLockout, if_neg (by omega), hs]
  rfl

theorem eq_with_of_lockoutReleased (h : t.pending = s.pending ∧ t.phase = s.phase ∧ t.clock = s.clock ∧
      t.pins = s.pins ∧ t.twoPorts = s.twoPorts ∧ t.dsl = s.dsl ∧ t.power = s.power ∧ t.store = s.store ∧
      t.occasion = s.occasion) :
    t = { s with
      gateway := t.gateway, modem := t.modem, channels := t.channels, lines := t.lines
      relays := t.relays, settles := t.settles, sched := t.sched, tracker := t.tracker
      ports := t.ports, ring := t.ring, engine := t.engine, faults := t.faults } := by
  cases s
  cases t
  simpa using h

end

/-- Settles O46: an event and an entry into LOCKOUT by their change of state and the faults taken with it; a dwell's
end and RELEASE LOCKOUT by the one act that closes the line-break. -/
theorem isolationFollowsHardFaults : Obligations.IsolationFollowsHardFaults := by
  refine ⟨fun c cls pins s hs hc => ?_, fun d due cause since s hi => ⟨fun hdue => ?_, fun hdue => ?_⟩,
    fun r s ht => ⟨fun hlevel => ?_, fun hlevel => ⟨fun hnone => ?_, fun why cause since hi => ⟨fun hh => ?_,
      fun hh => ?_⟩⟩⟩⟩
  · let u : State := { s with pins := pins }
    let d2 := ownDetail cls s
    refine ⟨hardEvent cls d2 u, hardEvent_exec hs hc, fun hi => ?_, fun d due cause since hi => ?_,
      fun why cause since hi => ?_, fun hidle htest => ?_, hardEvent_leaves, hardEvent_idle.1, hardEvent_idle.2,
      eq_with_of_onset (by simp [u])⟩
    · obtain ⟨hlineBreak, hisolation, hsettles, hopened, htold⟩ := hardEvent_normal (s := u) (c := cls) (d2 := d2) hi
      exact ⟨hlineBreak, hisolation, hsettles, hopened, htold.hands_unplanned (.inl rfl) rfl,
        htold.hands_isolation (m := [_]) (by simp [unplannedNoteOf]) rfl⟩
    · obtain ⟨hlineBreak, hisolation, htold⟩ := hardEvent_isolating (s := u) (c := cls) (d2 := d2) hi
      exact ⟨hisolation, hlineBreak, htold.hands_no_unplanned (.inl rfl) (by simp [isolationNoteOf]),
        htold.hands_isolation (m := []) (by simp) rfl⟩
    · obtain ⟨hlineBreak, hisolation, htold⟩ := hardEvent_lockout (s := u) (c := cls) (d2 := d2) hi
      exact ⟨hisolation, hlineBreak, htold.hands_no_unplanned (.inl rfl) (by simp), htold.hands_no_isolation⟩
    · have hall := raises_of_pins (hardEvent_all_raises (s := u) (cls := cls) (d2 := d2) hidle htest)
      have hlockout : escalationFault cls u ++ ownFault cls d2 u :: abortFaults 4 u =
          escalationFault cls s ++ ownFault cls d2 s :: abortFaults 4 s := rfl
      rw [hlockout, ownFault_ownDetail] at hall
      exact hall
  · rw [dwellExpiry_exec hi, if_neg (by simp [hdue])]
  · refine ⟨dwellEnds d cause since s, (dwellExpiry_exec hi).trans (congrArg _ (if_pos hdue)), fun hh => ?_,
      fun hh hd => ?_, fun hh hd => ?_, eq_with_of_isolated (by simp)⟩
    · rw [dwellEnds_clear hh]
      obtain ⟨hlineBreak, hisolation, hsettles, hopened, htold⟩ := endIsolation_ended (s := s) (why := .cleared) (b8 := 0)
      exact ⟨hlineBreak, hisolation, hsettles, hopened, htold.hands_unplanned (.inr rfl) rfl,
        htold.hands_isolation (m := [_]) (by simp [unplannedNoteOf]) rfl⟩
    · subst hd
      rw [dwellEnds_again hh]
      exact ⟨rfl, rfl, rfl⟩
    · subst hd
      obtain ⟨hlineBreak, hisolation, htold⟩ := dwellEnds_lockout (cause := cause) (since := since) hh
      exact ⟨hisolation, hlineBreak, htold.hands_no_unplanned (.inr rfl) (by simp [isolationNoteOf]),
        htold.hands_isolation (m := []) (by simp) rfl, fun hidle htest => dwellEnds_raises hh hidle htest⟩
  · exact exec_of_answer ht rfl (releaseLockout_privilege hlevel)
  · exact exec_of_answer ht rfl (releaseLockout_none hlevel (by simpa using hnone))
  · exact exec_of_answer ht rfl ((releaseLockout_locked hlevel (by simpa using hi)).trans (if_pos (by simpa using hh)))
  · let f := frameIn (.releaseLockout r) s
    have hanswer : answer (.releaseLockout r) f = (endIsolation .released 1 f, ⟨.ok, [1, byte why.code]⟩) :=
      (releaseLockout_locked hlevel (by simpa [f] using hi)).trans (if_neg (by simp [f, hh]))
    obtain ⟨hlineBreak, hisolation, hsettles, hopened, htold⟩ := endIsolation_ended (s := f) (why := .released) (b8 := 1)
    have hnow : f.now = s.now := by simp [f]
    rw [hnow] at hsettles hopened
    have hunplanned := htold.hands_unplanned (.inr rfl) rfl
    have hnotice := htold.hands_isolation (m := [_]) (by simp [unplannedNoteOf]) rfl
    rw [hnow] at hunplanned hnotice
    refine ⟨_, exec_of_answer ht rfl hanswer, ?_, by simpa using hlineBreak, by simpa using hisolation,
      by simpa using hsettles, windowOpened_answered.mpr (windowOpened_frameIn.mp hopened), hands_answered hunplanned,
      hands_answered hnotice, eq_with_of_lockoutReleased (by simp [f])⟩
    have hresponse : respondedWith (.releaseLockout r) .ok [1, byte why.code] s
        (answered (.releaseLockout r) .ok [1, byte why.code] (endIsolation .released 1 f)) :=
      respondedWith_of_ports (by simp [f]) (by simp [f])
    cases why <;> exact hresponse

end Sys2Proof.Machine
end

