-- ==== Sys2Proof/Proofs/FeedDenials.lean ====
section
namespace Sys2Proof.Machine

/-! ## The overload timer (R99) -/

section
variable {p q : Port} {s t : State} {d : Denial} {since : Time}

theorem PerPort.set_get {α : Type} (x : PerPort α) (p : Port) : x.set p (x.get p) = x := by
  cases p <;> rfl

/-- The overload timer as its conditions leave it (R99). -/
def overloadJudged (p : Port) (s : State) : Option Time :=
  if portFitted s p = true ∧ s.relays.feed.get p = .on ∧ s.pins.overLimit.get p = true ∧ probing (s.port p) = false
  then some ((s.port p).overload.getD s.now) else none

theorem judgeOverload_eq : judgeOverload p s =
    { s with ports := s.ports.set p { s.port p with overload := overloadJudged p s } } := by
  unfold judgeOverload overloadJudged
  by_cases hruns : portFitted s p = true ∧ s.relays.feed.get p = .on ∧ s.pins.overLimit.get p = true ∧
      probing (s.port p) = false
  · obtain ⟨hfit, hon, hover, hquiet⟩ := hruns
    simp only [hfit, hon, hover, hquiet, decide_true, Bool.and_self, Bool.not_false, if_true, and_self]
    cases h : (s.port p).overload with
    | none => rfl
    | some t =>
      rw [Option.getD_some]
      have hsame : s.ports.set p { s.port p with overload := some t } = s.ports := by
        rw [← h]
        exact PerPort.set_get _ _
      rw [hsame]
  · rw [if_neg (by simpa [and_assoc] using hruns), if_neg hruns]
    rfl

theorem feedOverLimitChange_exec {asserted : Bool} (hs : s.phase = .loading ∨ s.phase = .running)
    (hfit : portFitted s p = true) : exec (.feedOverLimitChange p asserted) s =
      .next (judgeOverload p (s.updPins (fun x => { x with overLimit := x.overLimit.set p asserted }))) := by
  have hawake : awake (s.updPins (fun x => { x with overLimit := x.overLimit.set p asserted })) = true := awake_of_phase hs
  change done (if awake _ && portFitted s p then _ else _) = _
  rw [hawake, hfit]
  rfl

/-! ## The denial (R100) -/

/-- The supervisor held at ON_HOOK. -/
def stilled (p : Port) (s : State) : State := freeze p (s.updSup p (fun u => { u with state := .onHook }))

/-- HOOK, where the denial ends a call that the supervisor saw (R100, R116). -/
def deniedHook (p : Port) (s : State) : List Handing :=
  if (s.port p).sup.frozen = none ∧ inCall (s.port p).sup.state = true then
    [hookNoteOf s.now p false (lifelineCond s p) 3 0] else []

theorem stilled_eq : stilled p s = { s with ports := s.ports.set p { s.port p with sup := ((stilled p s).port p).sup } } := by
  unfold stilled freeze State.updSup State.updPort
  simp [PerPort.set_set, State.port]

theorem stilled_port : (stilled p s).port p = { s.port p with sup := ((stilled p s).port p).sup } := by
  rw [stilled_eq]
  simp [State.port]

theorem stilled_sup : ((stilled p s).port p).sup.state = .onHook ∧ ((stilled p s).port p).sup.frozen.isSome = true ∧
    ((s.port p).sup.frozen.isSome = true → ((stilled p s).port p).sup.frozen = (s.port p).sup.frozen) := by
  rw [stilled, freeze, State.updSup_port_same, State.updSup_port_same]
  cases h : (s.port p).sup.frozen <;> simp [holdTimers]

theorem freezeDenied_eq : freezeDenied p s = judgeWatch (handAll (deniedHook p s) (stilled p s)) := by
  have hlifeline : lifelineCond (stilled p s) p = lifelineCond s p :=
    lifelineCond_congr (by rw [stilled_port]) (by rw [stilled_port])
  have hnow : (stilled p s).now = s.now := by
    rw [stilled_eq]
    rfl
  unfold freezeDenied deniedHook
  dsimp only
  change judgeWatch (if _ then hookNotice p false .denied 0 (stilled p s) else stilled p s) = _
  rw [hookNotice_eq, hlifeline, hnow]
  cases hf : (s.port p).sup.frozen <;> cases hc : inCall (s.port p).sup.state <;> rfl

/-- A frozen port stays as it is when its session ends, but for the mask (R113, R129). -/
structure StillPort (p : Port) (s t : State) : Prop where
  clock : t.clock = s.clock
  channels : t.channels = s.channels
  slots : t.sched.slots = s.sched.slots
  faults : t.faults = s.faults
  port : ∃ b, t.port p = { s.port p with sup := { (s.port p).sup with masked := b } }

theorem unmask_of_frozen (h : (s.port p).sup.frozen.isSome = true) : StillPort p s (unmask p s) := by
  unfold unmask
  split
  · exact ⟨rfl, rfl, rfl, rfl, false, State.updSup_port_same ..⟩
  · exact ⟨rfl, rfl, rfl, rfl, _, rfl⟩

theorem endBurst_of_frozen (h : (s.port p).sup.frozen.isSome = true) (x : RingState) :
    StillPort p s (endBurst p x s) := by
  let v := closeWindow (.ringBurst p) s.now ((updSession p (fun y => { y with state := x, tripDue := none }) s).updRing
    (fun r => { r with generator := r.generator.set p false }))
  have hv : endBurst p x s = judgeRingFault (unmask p v) := by
    simp [endBurst, v, State.now]
  have hport : v.port p = s.port p := by simp [v]
  have hslots : v.sched.slots = s.sched.slots := by
    simp only [v, closeWindow_slots]
    simp
  obtain ⟨hclock, hchannels, hkept, hfaults, b, hmasked⟩ :=
    unmask_of_frozen (hport ▸ h : (v.port p).sup.frozen.isSome = true)
  rw [hv]
  refine ⟨?_, ?_, ?_, ?_, b, ?_⟩
  · simp [v]
  · simp [hchannels, v]
  · simp [hkept, hslots]
  · simp [hfaults, v]
  · rw [judgeRingFault_port, hmasked, hport]

theorem endSlot_channels_of_slot {i : SlotId} (hchannels : s.channels = t.channels) (hslot : slotRec s i = slotRec t i)
    (hclock : s.clock = t.clock) : (endSlot i s).channels = (endSlot i t).channels := by
  unfold endSlot
  rw [hslot]
  split
  · rw [show s.now = t.now by rw [State.now, State.now, hclock]]
    exact handAll_channels_congr (s := setSlot i none s) (t := setSlot i none t) hchannels [(_, none)]
  · exact hchannels

/-- What the end of a session hands, with its supervisor frozen: DISTURB_DONE and RING_END (R54, R129). -/
def sessionEndHanded (p : Port) (why : RingReason) (cause : Nat) (s : State) : State :=
  match session s p with
  | none => s
  | some x => handAll [ringEndOf s.now p x why.code cause] (endSlot (portSlot p) s)

theorem sessionEndHanded_congr {why : RingReason} {cause : Nat} (hchannels : s.channels = t.channels)
    (hslots : s.sched.slots = t.sched.slots) (hclock : s.clock = t.clock) (hsession : session s p = session t p) :
    (sessionEndHanded p why cause s).channels = (sessionEndHanded p why cause t).channels := by
  have hnow : s.now = t.now := congrArg Clock.timebase hclock
  have hslot : slotRec s (portSlot p) = slotRec t (portSlot p) := by rw [slotRec, slotRec, hslots]
  unfold sessionEndHanded
  rw [hsession, hnow]
  split
  · exact hchannels
  · exact handAll_channels_congr (endSlot_channels_of_slot hchannels hslot hclock) _

/-- A session that ends on a frozen port. -/
theorem endSession_of_frozen (h : (s.port p).sup.frozen.isSome = true) (why : RingReason) (cause : Nat) :
    (endSession p why cause s).channels = (sessionEndHanded p why cause s).channels ∧
    (endSession p why cause s).faults = s.faults ∧
    ∃ b, (endSession p why cause s).port p = { s.port p with sup := { (s.port p).sup with masked := b } } := by
  cases hx : session s p with
  | none =>
    have hs : endSession p why cause s = s := by simp [endSession, hx]
    have hd : sessionEndHanded p why cause s = s := by simp [sessionEndHanded, hx]
    rw [hs, hd]
    exact ⟨rfl, rfl, _, rfl⟩
  | some x =>
    let v := if inBurst s p = true then endBurst p (.silent false) s else s
    have hv : StillPort p s v := by
      by_cases hb : inBurst s p = true
      · simp only [v, if_pos hb]
        exact endBurst_of_frozen h _
      · simp only [v, if_neg hb]
        exact ⟨rfl, rfl, rfl, rfl, _, rfl⟩
    obtain ⟨hclock, hchannels, hslots, hfaults, b, hport⟩ := hv
    have hquiet : sessionQuiet p s = endSlot (portSlot p) (updSession p (fun y => { y with phaseDue := none }) v) := rfl
    rw [endSession_eq hx, hquiet]
    refine ⟨?_, by simp [hfaults], b, by simp [hport]⟩
    rw [setSession_channels]
    have hslot : slotRec (updSession p (fun y => { y with phaseDue := none }) v) (portSlot p) = slotRec s (portSlot p) := by
      simp [slotRec, hslots]
    have hended := endSlot_channels_of_slot (s := updSession p (fun y => { y with phaseDue := none }) v) (t := s)
      (i := portSlot p) (by simp [hchannels]) hslot (by simp [hclock])
    refine (postCompletion_channels_congr hended _ _).trans ?_
    rw [sessionEndHanded, hx]
    rfl

/-! ### The denial, whole -/

/-- The fault of a denial (R100). -/
def overloadFault (p : Port) (since : Time) (s : State) : Raised :=
  raisedAt s .feedOverload (some (portNum p)) (s.port p).mode.code since.toNat

/-- The port denied, its feed cut at once, before the fault (R100). -/
def feedCut (p : Port) (s : State) : State :=
  (driveFeed p .denied s).updPort p (fun q =>
    { q with denial := some ⟨s.now, .waiting (s.now + ms 10000), 0⟩, overload := none })

theorem feedCut_port : (feedCut p s).port p =
    { s.port p with denial := some ⟨s.now, .waiting (s.now + ms 10000), 0⟩, overload := none } :=
  State.updPort_port_same ..

/-- The denial's fault and UNPLANNED, before the supervisor is held (R57, R100). -/
def denialTold (p : Port) (since : Time) (s : State) : State :=
  handAll [unplannedNoteOf s.now 7 (some p) 0] (raiseFault (overloadFault p since s) (feedCut p s))

theorem denyFeed_eq : denyFeed p since s =
    endSession p .fault 2 (judgeWatch (handAll (deniedHook p s) (stilled p (denialTold p since s)))) := by
  have hport : (denialTold p since s).port p = (feedCut p s).port p := by
    rw [denialTold, handAll_port]
    simp [State.port]
  have hnow : (denialTold p since s).now = s.now := by
    rw [denialTold, handAll_now]
    simp [State.now, feedCut]
  have hhook : deniedHook p (denialTold p since s) = deniedHook p s := by
    have hlifeline : lifelineCond (denialTold p since s) p = lifelineCond s p :=
      lifelineCond_congr (by rw [hport, feedCut_port]) (by rw [hport, feedCut_port])
    rw [deniedHook, hport, hnow, hlifeline, feedCut_port]
    rfl
  have hfault : raisedAt (feedCut p s) .feedOverload (some (portNum p)) ((feedCut p s).port p).mode.code since.toNat =
      overloadFault p since s := by
    rw [feedCut_port]
    rfl
  rw [← hhook, ← freezeDenied_eq]
  unfold denyFeed denialTold
  dsimp only
  change endSession p .fault 2 (freezeDenied p (unplanned .feedDenied (some p) 0
    (raiseFault (raisedAt (feedCut p s) .feedOverload (some (portNum p)) ((feedCut p s).port p).mode.code since.toNat)
      (feedCut p s)))) = _
  rw [hfault, unplanned_eq]
  have hnow' : (raiseFault (overloadFault p since s) (feedCut p s)).now = s.now := by simp [State.now, feedCut]
  rw [hnow']
  rfl

/-- What a denial hands before its session ends (R57, R100, R116). -/
def deniedHanded (p : Port) (since : Time) (s : State) : State :=
  handAll (unplannedNoteOf s.now 7 (some p) 0 :: deniedHook p s) (raiseFault (overloadFault p since s) s)

/-- A denied port (R100). -/
structure Denied (p : Port) (since : Time) (s t : State) : Prop where
  relays : t.relays = { s.relays with feed := s.relays.feed.set p .denied }
  channels : t.channels = (sessionEndHanded p .fault 2 (deniedHanded p since s)).channels
  faults : unwatched t.faults = unwatched (raiseFault (overloadFault p since s) s).faults
  session : session t p = none
  other : t.port (otherPort p) = s.port (otherPort p)
  port : ∃ u : Supervisor, u.state = .onHook ∧ u.frozen.isSome = true ∧
    ((s.port p).sup.frozen.isSome = true → u.frozen = (s.port p).sup.frozen) ∧
    t.port p = { s.port p with denial := some ⟨s.now, .waiting (s.now + ms 10000), 0⟩, overload := none, sup := u }

theorem unwatched_judgeWatch : unwatched (judgeWatch s).faults = unwatched s.faults :=
  congrArg Steady.faults judgeWatch_steady

theorem handAll_kept (l : List Handing) : (handAll l s).clock = s.clock ∧ (handAll l s).sched = s.sched ∧
    (handAll l s).ring = s.ring ∧ (handAll l s).faults = s.faults := by
  rw [handAll_eq]
  exact ⟨rfl, rfl, rfl, rfl⟩

/-- The state in which a denial ends its session. -/
def deniedStill (p : Port) (since : Time) (s : State) : State :=
  judgeWatch (handAll (deniedHook p s) (stilled p (denialTold p since s)))

theorem deniedStill_kept : (deniedStill p since s).clock = s.clock ∧ (deniedStill p since s).sched = s.sched ∧
    (deniedStill p since s).ring = s.ring ∧
    unwatched (deniedStill p since s).faults = unwatched (raiseFault (overloadFault p since s) s).faults := by
  let r := raiseFault (overloadFault p since s) (feedCut p s)
  have hraised : r.faults = (raiseFault (overloadFault p since s) s).faults := by
    rw [raiseFault_faults, raiseFault_faults]
    rfl
  have hclock : r.clock = s.clock := by simp [r, feedCut]
  have hsched : r.sched = s.sched := by simp [r, feedCut]
  have hring : r.ring = s.ring := by simp [r, feedCut]
  obtain ⟨hclock1, hsched1, hring1, hfaults1⟩ := handAll_kept (s := r) [unplannedNoteOf s.now 7 (some p) 0]
  obtain ⟨hclock2, hsched2, hring2, hfaults2⟩ :=
    handAll_kept (s := stilled p (denialTold p since s)) (deniedHook p s)
  rw [stilled_eq] at hclock2 hsched2 hring2 hfaults2
  unfold deniedStill
  rw [unwatched_judgeWatch, stilled_eq]
  simp only [judgeWatch_frame]
  refine ⟨hclock2.trans (hclock1.trans hclock), hsched2.trans (hsched1.trans hsched),
    hring2.trans (hring1.trans hring), congrArg unwatched (hfaults2.trans (hfaults1.trans hraised))⟩

theorem deniedStill_channels : (deniedStill p since s).channels = (deniedHanded p since s).channels := by
  have hraised : (raiseFault (overloadFault p since s) (feedCut p s)).channels =
      (raiseFault (overloadFault p since s) s).channels := by
    rw [raiseFault_channels, raiseFault_channels]
    exact postRaised_channels_congr _ rfl
  have hstill : (stilled p (denialTold p since s)).channels =
      (handAll [unplannedNoteOf s.now 7 (some p) 0] (raiseFault (overloadFault p since s) s)).channels := by
    rw [stilled_eq]
    exact handAll_channels_congr hraised _
  rw [deniedStill, judgeWatch_channels]
  exact handAll_channels_congr hstill _

theorem deniedStill_port : ∃ u : Supervisor, u.state = .onHook ∧ u.frozen.isSome = true ∧
    ((s.port p).sup.frozen.isSome = true → u.frozen = (s.port p).sup.frozen) ∧
    (deniedStill p since s).port p =
      { s.port p with denial := some ⟨s.now, .waiting (s.now + ms 10000), 0⟩, overload := none, sup := u } := by
  have hport : (denialTold p since s).port p = (feedCut p s).port p := by
    rw [denialTold, handAll_port]
    simp [State.port]
  obtain ⟨hstate, hfrozen, hkeeps⟩ := stilled_sup (p := p) (s := denialTold p since s)
  rw [hport, feedCut_port] at hkeeps
  refine ⟨_, hstate, hfrozen, hkeeps, ?_⟩
  rw [deniedStill, judgeWatch_port, handAll_port, stilled_port, hport, feedCut_port]

theorem deniedStill_port_other (h : q ≠ p) : (deniedStill p since s).port q = s.port q := by
  have hraised : (raiseFault (overloadFault p since s) (feedCut p s)).port q = s.port q := by
    simp [State.port, feedCut, h]
  rw [deniedStill, judgeWatch_port, handAll_port, stilled_eq]
  have htold : (denialTold p since s).port q = s.port q := by rw [denialTold, handAll_port, hraised]
  simpa [State.port, h] using htold

theorem denyFeed_denied : Denied p since s (denyFeed p since s) := by
  obtain ⟨hclock, hsched, hring, hfaults⟩ := deniedStill_kept (p := p) (since := since) (s := s)
  obtain ⟨u, hstate, hfrozen, hkeeps, hport⟩ := deniedStill_port (p := p) (since := since) (s := s)
  have hstill : ((deniedStill p since s).port p).sup.frozen.isSome = true := by rw [hport]; exact hfrozen
  obtain ⟨hhanded, hunit, b, hmask⟩ := endSession_of_frozen hstill .fault 2
  obtain ⟨hclock', hsched', hring', -⟩ := handAll_kept (s := raiseFault (overloadFault p since s) s)
    (unplannedNoteOf s.now 7 (some p) 0 :: deniedHook p s)
  have heq : denyFeed p since s = endSession p .fault 2 (deniedStill p since s) := denyFeed_eq
  have hrelays : (denyFeed p since s).relays = { s.relays with feed := s.relays.feed.set p .denied } := by
    simp [denyFeed, driveFeed]
  have hquiet (hq : otherPort p = p) : inBurst (deniedStill p since s) p = false := absurd hq (otherPort_ne p)
  refine ⟨hrelays, ?_, ?_, ?_, ?_, { u with masked := b }, hstate, hfrozen, hkeeps, ?_⟩
  · rw [heq, hhanded]
    refine sessionEndHanded_congr deniedStill_channels ?_ ?_ ?_
    · rw [hsched, deniedHanded, hsched']
      simp
    · rw [hclock, deniedHanded, hclock']
      simp
    · refine (session_of_ring hring p).trans (session_of_ring ?_ p).symm
      rw [deniedHanded, hring']
      simp
  · rw [heq, hunit, hfaults]
  · rw [heq, endSession_session, if_pos rfl]
  · rw [heq, endSession_port_of_quiet hquiet, deniedStill_port_other (otherPort_ne p)]
  · rw [heq, hmask, hport]

theorem overloadFault_eq : overloadFault p since s =
    ⟨.feedOverload, some (portNum p), some (BitVec.ofNat 32 (s.port p).mode.code), some since, s.now⟩ := by
  simp [overloadFault, raisedAt]

theorem deniedHanded_end : sessionEndHanded p .fault 2 (deniedHanded p since s) = match session s p with
    | none => deniedHanded p since s
    | some x => handAll [ringEndOf s.now p x 7 2] (endSlot (portSlot p) (deniedHanded p since s)) := by
  have hkept := handAll_kept (s := raiseFault (overloadFault p since s) s)
    (unplannedNoteOf s.now 7 (some p) 0 :: deniedHook p s)
  obtain ⟨hclock, -, hring, -⟩ := hkept
  have hsession : session (deniedHanded p since s) p = session s p := session_of_ring (hring.trans (by simp)) p
  have hnow : (deniedHanded p since s).now = s.now := congrArg Clock.timebase (hclock.trans (by simp))
  rw [sessionEndHanded, hsession, hnow]
  rfl

theorem feedDenial_exec (h : (s.port p).overload = some since) : exec (.feedDenial p) s =
    .next (if reached s.now (since + ms 100) = true then denyFeed p since s else s) := by
  change done (match (s.port p).overload with | some t => _ | none => s) = _
  rw [h]
  rfl

theorem eq_with_of_denied (h : t.pending = s.pending ∧ t.phase = s.phase ∧ t.clock = s.clock ∧ t.pins = s.pins ∧
      t.twoPorts = s.twoPorts ∧ t.gateway = s.gateway ∧ t.modem = s.modem ∧ t.lines = s.lines ∧
      t.settles = s.settles ∧ t.dsl = s.dsl ∧ t.power = s.power ∧ t.store = s.store ∧ t.occasion = s.occasion) :
    t = { s with
      channels := t.channels, relays := t.relays, sched := t.sched, tracker := t.tracker
      ports := t.ports, ring := t.ring, engine := t.engine, faults := t.faults } := by
  cases s
  cases t
  simpa using h

theorem eq_with_watch {u v : FaultUnit} (h : unwatched u = unwatched v) : u = { v with watch := u.watch } := by
  have hu : u = { unwatched u with watch := u.watch } := rfl
  rw [hu, h]
  rfl

/-! ## The probes (R101) -/

theorem probeStart_exec {due : Time} (h : (s.port p).denial = some d) (hd : d.stage = .waiting due) :
    exec (.probeStart p) s = .next (if reached s.now due = true then beginProbe p d s else s) := by
  change done (match (s.port p).denial with | some d => _ | none => s) = _
  rw [h]
  change done (match d.stage with | .waiting due => _ | .probing _ => s) = _
  rw [hd]
  rfl

theorem probeEnd_exec {due : Time} (h : (s.port p).denial = some d) (hd : d.stage = .probing due) :
    exec (.probeEnd p) s = .next (if reached s.now due = true then finishProbe p d s else s) := by
  change done (match (s.port p).denial with | some d => _ | none => s) = _
  rw [h]
  change done (match d.stage with | .probing due => _ | .waiting _ => s) = _
  rw [hd]
  rfl

theorem overloadJudged_of_probing (h : probing (s.port p) = true) : overloadJudged p s = none := by
  simp [overloadJudged, h]

theorem overloadJudged_of_under (h : s.pins.overLimit.get p = false) : overloadJudged p s = none := by
  simp [overloadJudged, h]

theorem beginProbe_eq : beginProbe p d s = { s with
    relays := { s.relays with feed := s.relays.feed.set p .on }
    ports := s.ports.set p { s.port p with
      denial := some { d with stage := .probing (s.now + ms 200) }, overload := none } } := by
  let v := (driveFeed p .on s).updPort p (fun q =>
    { q with denial := some { d with stage := .probing (s.now + ms 200) } })
  have hport : v.port p = { s.port p with denial := some { d with stage := .probing (s.now + ms 200) } } :=
    State.updPort_port_same ..
  have hnone : overloadJudged p v = none := overloadJudged_of_probing (by rw [hport]; rfl)
  have hv : beginProbe p d s = judgeOverload p v := rfl
  rw [hv, judgeOverload_eq, hnone, hport]
  simp only [v, State.updPort_ports, PerPort.set_set]
  rfl

theorem finishProbe_over (h : s.pins.overLimit.get p = true) : finishProbe p d s = { s with
    relays := { s.relays with feed := s.relays.feed.set p .denied }
    ports := s.ports.set p { s.port p with
      denial := some ⟨d.since, .waiting (s.now + ms 10000), min 255 (d.failed + 1)⟩ } } := by
  rw [finishProbe, if_pos h]
  rfl

/-- The denial ends in silence (R101). -/
def denialOver (p : Port) (s : State) : State :=
  { s with ports := s.ports.set p { s.port p with denial := none, overload := none } }

theorem finishProbe_under (h : s.pins.overLimit.get p = false) : finishProbe p d s =
    if switchActive (s.port p) = true then denialOver p s else restart p none (denialOver p s) := by
  let v := s.updPort p (fun q => { q with denial := none })
  have hport : v.port p = { s.port p with denial := none } := State.updPort_port_same ..
  have hjudged : judgeOverload p v = denialOver p s := by
    rw [judgeOverload_eq, overloadJudged_of_under (s := v) h, hport]
    simp only [v, State.updPort_ports, PerPort.set_set]
    rfl
  have hswitch : switchActive ((denialOver p s).port p) = switchActive (s.port p) := by
    simp [denialOver, switchActive, State.port]
  rw [finishProbe, if_neg (by simp [h])]
  dsimp only
  change (if switchActive ((judgeOverload p v).port p) = true then judgeOverload p v else restart p none (judgeOverload p v)) = _
  rw [hjudged, hswitch]

theorem switchActive_iff : switchActive (s.port p) = true ↔ ∃ w, (s.port p).switch = some w ∧ w.stage ≠ .lead := by
  unfold switchActive
  cases (s.port p).switch <;> simp

/-- A denial that has ended (R101). -/
structure DenialEnded (p : Port) (s t : State) : Prop where
  denial : (t.port p).denial = none
  relays : t.relays = s.relays
  restarted : (∀ w, (s.port p).switch = some w → w.stage = .lead) → (t.port p).sup.frozen = none ∧
    ((t.port p).sup.state = .onHook ∨ (t.port p).sup.state = .seizing)
  other : t.port (otherPort p) = s.port (otherPort p)
  channels : t.channels = s.channels
  faults : unwatched t.faults = unwatched s.faults
  rest : t = { s with
    channels := t.channels, sched := t.sched, tracker := t.tracker, ports := t.ports
    engine := t.engine, faults := t.faults }

theorem eq_with_of_restarted (h : t.pending = s.pending ∧ t.phase = s.phase ∧ t.clock = s.clock ∧ t.pins = s.pins ∧
      t.twoPorts = s.twoPorts ∧ t.gateway = s.gateway ∧ t.modem = s.modem ∧ t.lines = s.lines ∧ t.relays = s.relays ∧
      t.settles = s.settles ∧ t.dsl = s.dsl ∧ t.ring = s.ring ∧ t.power = s.power ∧ t.store = s.store ∧
      t.occasion = s.occasion) :
    t = { s with
      channels := t.channels, sched := t.sched, tracker := t.tracker, ports := t.ports
      engine := t.engine, faults := t.faults } := by
  cases s
  cases t
  simpa using h

theorem finishProbe_ended (h : s.pins.overLimit.get p = false) : DenialEnded p s (finishProbe p d s) := by
  let v := denialOver p s
  have hport : v.port p = { s.port p with denial := none, overload := none } := by simp [v, denialOver, State.port]
  have hother : v.port (otherPort p) = s.port (otherPort p) := by
    simp [v, denialOver, State.port, otherPort_ne]
  rw [finishProbe_under h]
  by_cases ha : switchActive (s.port p) = true
  · rw [if_pos ha]
    obtain ⟨w, hw, hstage⟩ := switchActive_iff.mp ha
    exact ⟨by rw [hport], rfl, fun hl => absurd (hl w hw) hstage, hother, rfl, rfl, rfl⟩
  · rw [if_neg ha]
    have hdenial : ((restart p none v).port p).denial = none := by
      have hrecord := congrArg PortRecord.denial (restart_record (s := v) (p := p) (q := p) (why := none))
      refine (hrecord :).trans ?_
      simp [portRecord, restartQuiet, hport]
    exact ⟨hdenial, by simp [denialOver], fun _ => ⟨restart_frozen, restart_state⟩,
      (restart_port_other (otherPort_ne p) none).trans hother, restart_channels.trans rfl,
      (congrArg Steady.faults (restart_steady p none) :).trans rfl, eq_with_of_restarted (by simp [denialOver])⟩

end

/-- Settles O34: the timer by its conditions; the denial by its fault, the supervisor held before its notices, and the
session that ends on a frozen port; the probes by their two states. -/
theorem overloadDeniesAndProbes : Obligations.OverloadDeniesAndProbes := by
  refine ⟨fun p asserted s hs hfit => ?_, fun p since s hsince => ⟨fun hdue => ?_, fun hdue => ?_⟩,
    fun p d due s hd hstage => ⟨fun hdue => ?_, fun hdue => ?_⟩,
    fun p d due s hd hstage => ⟨fun hdue => ?_, fun hdue hover => ?_, fun hdue hunder => ?_⟩⟩
  · rw [feedOverLimitChange_exec hs hfit, judgeOverload_eq]
    have hjudged : overloadJudged p (s.updPins (fun x => { x with overLimit := x.overLimit.set p asserted })) =
        if s.relays.feed.get p = .on ∧ asserted = true ∧ probing (s.port p) = false
        then some ((s.port p).overload.getD s.now) else none := by
      have hfit' : portFitted (s.updPins (fun x => { x with overLimit := x.overLimit.set p asserted })) p = true := hfit
      rw [overloadJudged, hfit']
      simp [State.port, State.now]
      rfl
    rw [hjudged]
    rfl
  · rw [feedDenial_exec hsince, if_neg (by simp [hdue])]
  · obtain ⟨hrelays, hchannels, hfaults, hsession, hother, u, hstate, hfrozen, hkeeps, hport⟩ :=
      denyFeed_denied (p := p) (since := since) (s := s)
    refine ⟨_, (feedDenial_exec hsince).trans (congrArg _ (if_pos hdue)), hrelays, by rw [hport], by rw [hport],
      by rw [hport]; exact hfrozen, by rw [hport]; exact hstate, by rw [hport]; exact hkeeps, hsession, by rw [hport],
      by rw [hport], hother, ?_, ?_, eq_with_of_denied (by simp)⟩
    · rw [hchannels, deniedHanded_end, deniedHanded, deniedHook, overloadFault_eq]
      cases hmode : (s.port p).mode <;> rfl
    · rw [overloadFault_eq] at hfaults
      refine eq_with_watch (hfaults.trans ?_)
      cases hmode : (s.port p).mode <;> rfl
  · rw [probeStart_exec hd hstage, if_neg (by simp [hdue])]
  · rw [probeStart_exec hd hstage, if_pos hdue, beginProbe_eq]
  · rw [probeEnd_exec hd hstage, if_neg (by simp [hdue])]
  · rw [probeEnd_exec hd hstage, if_pos hdue, finishProbe_over hover]
  · obtain ⟨hdenial, hrelays, hrestarted, hother, hchannels, hfaults, hrest⟩ := finishProbe_ended (d := d) hunder
    exact ⟨_, (probeEnd_exec hd hstage).trans (congrArg _ (if_pos hdue)), hdenial, hrelays, hrestarted, hother,
      hchannels, eq_with_watch hfaults, hrest⟩

end Sys2Proof.Machine
end

