-- ==== Sys2Proof/Proofs/RingSessions.lean ====
section
namespace Sys2Proof.Machine

/-! ## What an on time leaves of the sessions (R124, R125) -/

/-- A session but for its phase: its cadence, cycles, issuer and id. -/
def RingSession.plan (x : RingSession) : RingSession :=
  { x with state := .notifying, skipped := 0, phaseDue := none, tripDue := none }

section
variable {p q : Port} {s t : State} {x : RingSession}

theorem session_judgeRingFault : session (judgeRingFault s) q = session s q := by
  obtain ⟨due, hring⟩ := judgeRingFault_ring (s := s)
  rw [session, hring, session]

theorem judgeTrip_plan : (session (judgeTrip p s) p).map RingSession.plan = (session s p).map RingSession.plan := by
  unfold judgeTrip updSession
  rw [session_setSession_same, Option.map_map]
  refine Option.map_congr fun y _ => ?_
  dsimp only [Function.comp]
  (repeat' split) <;> rfl

theorem startBurst_plan : (session (startBurst p x s) p).map RingSession.plan = some x.plan := by
  unfold startBurst
  dsimp only
  rw [session_judgeRingFault, judgeTrip_plan]
  simp [session, mask, setSession, RingSession.plan]

theorem skipBurst_session : session (skipBurst p x s) p = some { x with
    state := .silent true, skipped := min 255 (x.skipped + 1)
    phaseDue := some (s.now + ms (currentStep x).on), tripDue := none } := session_setSession_same _

theorem onTime_plan (hx : session s p = some x) :
    (session (onTime p s) p).map RingSession.plan = some x.plan := by
  unfold onTime
  rw [hx]
  dsimp only
  split
  · exact startBurst_plan
  · split
    · exact startBurst_plan
    · rw [skipBurst_session]
      rfl

/-- Port 2's burst that began at this instant gives way to port 1's on BATTERY (R125). -/
def givesWay (p : Port) (s : State) : Prop :=
  p = .p1 ∧ s.power.state ≠ .mains ∧ burstingSince s .p2 s.now

theorem onTime_leaves (hq : q ≠ p) (hg : ¬givesWay p s) :
    session (onTime p s) q = session s q ∧ (onTime p s).faults = s.faults := by
  unfold onTime
  cases hx : session s p with
  | none => exact ⟨rfl, rfl⟩
  | some x =>
    dsimp only
    split
    · exact ⟨startBurst_session_other hq, by simp⟩
    · next hno =>
      split
      · next hbegan =>
        obtain ⟨rfl, hburst⟩ := of_decide_eq_true hbegan
        have hmains : s.power.state ≠ .mains := fun hm => hno (by simp [burstAllowed, hm])
        exact absurd ⟨rfl, hmains, burstBegan_iff.mp hburst⟩ hg
      · exact ⟨session_setSession_other _ hq, by simp⟩

theorem onTime_records : (onTime p s).ring.cadences = s.ring.cadences ∧ (onTime p s).ring.exchange = s.ring.exchange := by
  have hstart (y : RingSession) (u : State) : (startBurst p y u).ring.cadences = u.ring.cadences ∧
      (startBurst p y u).ring.exchange = u.ring.exchange := by
    obtain ⟨due, z, -, hring⟩ := startBurst_ring (p := p) (x := y) (s := u)
    rw [hring]
    exact ⟨rfl, rfl⟩
  unfold onTime
  split
  · next x hx =>
    split
    · exact hstart x s
    · split
      · obtain ⟨due, hring⟩ := cutBurst_ring (p := .p2) (s := s)
        have hcut := hstart x (cutBurst .p2 s)
        rw [hring] at hcut
        exact hcut
      · exact ⟨rfl, rfl⟩
  · exact ⟨rfl, rfl⟩

end

/-! ## RING (R123, R124) -/

/-- A session as RING opens it (R124). -/
def newRing (c : Channel) (cadence cycles : Nat) (steps : List CadenceStep) (id : Byte) : RingSession :=
  ⟨.notifying, steps, cadence, 1, if cycles = 0 then none else some cycles, 0, 0, c, id, none, none⟩

section
variable {p : Port} {c : Channel} {cadence cycles : Nat} {steps : List CadenceStep} {s t : State} {id : Byte}

/-- What an accepted RING makes of the state (R49, R124). -/
structure RingStarted (p : Port) (c : Channel) (cadence cycles : Nat) (steps : List CadenceStep) (id : Byte)
    (s t : State) : Prop where
  session : ∃ x, session t p = some x ∧ x.plan = (newRing c cadence cycles steps id).plan ∧
    (s.sched.lead ≠ 0 → x = newRing c cadence cycles steps id)
  slot : slotRec t (portSlot p) = some ⟨id, .ringSession, some p,
    if s.sched.lead = 0 then .active s.now else .notified (s.now + ms s.sched.lead), ringDuration steps cycles, false⟩
  waiting : s.sched.lead ≠ 0 → t.ports = s.ports ∧ t.ring.generator = s.ring.generator
  other : ¬(s.sched.lead = 0 ∧ givesWay p s) →
    Machine.session t (otherPort p) = Machine.session s (otherPort p) ∧ t.faults = s.faults
  records : t.ring.cadences = s.ring.cadences ∧ t.ring.exchange = s.ring.exchange
  kept : t.pending = s.pending ∧ t.phase = s.phase ∧ t.clock = s.clock ∧ t.pins = s.pins ∧
    t.twoPorts = s.twoPorts ∧ t.gateway = s.gateway ∧ t.modem = s.modem ∧ t.lines = s.lines ∧
    t.relays = s.relays ∧ t.settles = s.settles ∧ t.dsl = s.dsl ∧ t.power = s.power ∧ t.store = s.store ∧
    t.occasion = s.occasion

theorem acceptRing_of_empty (h : slotRec s (portSlot p) = none) : ∃ t id,
    acceptRing p c cadence cycles steps s = (t, ⟨.accepted, [id, byte cadence, byte cycles]⟩) ∧
      RingStarted p c cadence cycles steps id s t := by
  obtain ⟨u, hopen, hu⟩ := openSlot_of_empty (work := .ringSession) (p := some p)
    (duration := ringDuration steps cycles) (deferrable := false) h
  let d := recordOf .ringSession (some p) (ringDuration steps cycles) false s
  let x := newRing c cadence cycles steps d.id
  let v := setSession p (some x) u
  have hslot : slotRec v (portSlot p) = some d := by
    change u.sched.slots.get _ = _
    rw [hu.slots, PerSlot.get_set_same]
  have hx : session v p = some x := session_setSession_same _
  have hrest : v = { s with
      channels := u.channels, sched := u.sched
      ring := { s.ring with sessions := s.ring.sessions.set p (some x) } } := by
    change setSession p (some x) u = _
    rw [hu.rest]
    rfl
  have hother : session v (otherPort p) = session s (otherPort p) := by
    rw [hrest]
    simp [session, otherPort_ne]
  have hfaults : v.faults = s.faults := by rw [hrest]
  have haccept : acceptRing p c cadence cycles steps s =
      (startIfActive (portSlot p) v, ⟨.accepted, [d.id, byte cadence, byte cycles]⟩) := by
    rw [acceptRing, hopen]
    rfl
  refine ⟨_, _, haccept, ?_⟩
  by_cases hlead : s.sched.lead = 0
  · rw [startIfActive_of_active hslot (by simp [d, isActive_recordOf, hlead]), ownerStart_of_ring hslot rfl rfl]
    have hplan := onTime_plan hx
    obtain ⟨y, hy, hyx⟩ := Option.map_eq_some_iff.mp hplan
    obtain ⟨hcadences, hexchange⟩ := onTime_records (p := p) (s := v)
    have hgives : givesWay p v → givesWay p s := fun ⟨hp, hpower, hburst⟩ => by
      subst hp
      refine ⟨rfl, ?_, ?_⟩
      · rwa [hrest] at hpower
      · have hnow : v.now = s.now := by rw [hrest]; rfl
        obtain ⟨z, hz, hstate⟩ := hburst
        rw [hnow] at hstate
        exact ⟨z, hother ▸ hz, hstate⟩
    refine ⟨⟨y, hy, hyx, fun hn => absurd hlead hn⟩, ?_, fun hn => absurd hlead hn, fun hn => ?_, ⟨?_, ?_⟩, ?_⟩
    · rw [slotRec, onTime_slots, ← slotRec, hslot]
      simp [d, recordOf, hlead]
    · obtain ⟨hsession, hkept⟩ := onTime_leaves (s := v) (otherPort_ne p) fun hg => hn ⟨hlead, hgives hg⟩
      exact ⟨hsession.trans hother, hkept.trans hfaults⟩
    · rw [hcadences, hrest]
    · rw [hexchange, hrest]
    · simp only [onTime_frame]
      rw [hrest]
      simp
  · rw [startIfActive_of_waiting hslot (by simp [d, isActive_recordOf, hlead])]
    refine ⟨⟨x, hx, rfl, fun _ => rfl⟩, ?_, fun _ => ⟨?_, ?_⟩, fun _ => ⟨hother, hfaults⟩, ⟨?_, ?_⟩, ?_⟩
    · rw [hslot]
      simp [d, recordOf, hlead]
    · rw [hrest]
    · rw [hrest]
    · rw [hrest]
    · rw [hrest]
    · rw [hrest]
      simp

end

/-! ## STOP RING (R129, R130) -/

section
variable {p : Port} {s : State} {x : RingSession} {why : RingReason} {cause : Nat}

/-- A burst ends with its session: the generator drops the port and the supervisor is unmasked (R125). -/
theorem endSession_of_burst (h : inBurst s p = true) : (endSession p why cause s).ring.generator.get p = false ∧
    ((endSession p why cause s).port p).sup.masked = false := by
  obtain ⟨x, hx⟩ : ∃ x, session s p = some x := by
    cases hx : session s p with
    | none => simp [inBurst, hx] at h
    | some x => exact ⟨x, rfl⟩
  obtain ⟨due, hring⟩ := endBurst_ring (p := p) (n := .silent false) (s := s)
  rw [endSession_eq hx]
  refine ⟨?_, ?_⟩
  · simp [sessionQuiet, h, setSession, updSession, hring]
  · simp [sessionQuiet, h, endBurst_masked]

theorem endSession_silent_of_answered : hands (ofKind .answered) [] s (endSession p why cause s) := by
  have hemits : Emits (fun n => ofKind .answered n = false) s.channels (endSession p why cause s).channels :=
    endSession_emits .refl
      (fun _ n hn => by rcases loopNotice_kind hn with h | h | h <;> simp [ofKind, h])
      (fun n hn => by simp [ofKind, hn]) (fun n hn _ => by simp [ofKind, hn]) why cause
  exact (hemits.handsTo (lasting_ofKind rfl) fun _ h => h).hands

theorem eq_with_of_rung {t : State}
    (h : t.pending = s.pending ∧ t.phase = s.phase ∧ t.clock = s.clock ∧ t.pins = s.pins ∧
      t.twoPorts = s.twoPorts ∧ t.lines = s.lines ∧ t.relays = s.relays ∧ t.settles = s.settles ∧ t.dsl = s.dsl ∧
      t.power = s.power ∧ t.store = s.store ∧ t.occasion = s.occasion) :
    t = { s with
      gateway := t.gateway, modem := t.modem, channels := t.channels, sched := t.sched
      tracker := t.tracker, ports := t.ports, ring := t.ring, engine := t.engine, faults := t.faults } := by
  cases s
  cases t
  simpa using h

end

/-! ## The requests -/

section
variable {p : Port} {r : Req} {b c n : Byte} {cadence cycles : Nat} {s u : State} {x : RingSession}

theorem cycleLength_eq (l : List CadenceStep) : cycleLength l = (l.map (fun k => k.on + k.off)).sum := by
  induction l with
  | nil => rfl
  | cons k rest ih => simp [cycleLength, ih]

theorem acceptRing_of_occupied {o : Channel} {steps : List CadenceStep} (h : (slotRec s (portSlot p)).isSome = true) :
    acceptRing p o cadence cycles steps s = refuse .busy s := by
  simp [acceptRing, openSlot_of_occupied h]

/-- The conditions under which RING comes to its last check (R123). -/
structure RingPassed (r : Req) (cadence : Nat) (p : Port) (s : State) : Prop where
  holder : holderOf s (portFunc p) = some r.channel
  entry : cadence ≤ 3
  steps : s.ring.cadences.get cadence ≠ []
  mode : (s.port p).mode = .local_
  underTest : (s.port p).underTest = false
  power : s.power.state ≠ .reserve
  thermal : s.pins.thermal = false
  hook : (s.port p).sup.state = .onHook
  denial : (s.port p).denial = none

theorem decideRing_of_passed (h : RingPassed r cadence p s) : decideRing r cadence cycles p s =
    if (session s p).isSome = true then refuse .busy s
    else acceptRing p r.channel cadence cycles (s.ring.cadences.get cadence) s := by
  obtain ⟨hholder, hcadence, hsteps, hmode, htest, hpower, hthermal, hhook, hdenial⟩ := h
  simp [decideRing, holds, hholder, Nat.not_lt.mpr hcadence, hsteps, hmode, htest, hpower, hthermal, hhook, hdenial]

theorem ringPassed_frameIn {i : Instr} (h : RingPassed r cadence p s) : RingPassed r cadence p (frameIn i s) := by
  obtain ⟨hholder, hcadence, hsteps, hmode, htest, hpower, hthermal, hhook, hdenial⟩ := h
  exact ⟨by simpa using hholder, hcadence, by simpa using hsteps, by simpa using hmode, by simpa using htest,
    by simpa using hpower, by simpa using hthermal, by simpa using hhook, by simpa using hdenial⟩

/-- STOP RING on a port that is named and fitted (R130). -/
def stopsRing (r : Req) (p : Port) : Server := fun s =>
  if !holds s r.channel (portFunc p) then refuse .notHolder s
  else
    match session s p with
    | none => report [byte (portNum p), 0, 0] s
    | some x => (endSession p .stopped 0 s, ⟨.ok, [byte (portNum p), 1, byte x.cyclesDone]⟩)

theorem answer_stopRing : answer (.stopRing r b) s = withPort b (stopsRing r) s := rfl

theorem stopRing_exec {s : State} (ht : frameTaken (.stopRing r b) s) (hb : b.toNat = portNum p)
    (hfit : p = .p2 → s.twoPorts = true) (hholder : holderOf s (portFunc p) = some r.channel) (hx : session s p = some x) :
    exec (.stopRing r b) s = .next (answered (.stopRing r b) .ok [b, 1, BitVec.ofNat 8 x.cyclesDone]
      (endSession p .stopped 0 (frameIn (.stopRing r b) s))) := by
  refine exec_of_answer ht rfl ((answer_stopRing.trans (withPort_of_fitted hb (by simpa using hfit))).trans ?_)
  have hbyte : byte (portNum p) = b := byte_of_toNat hb
  simp [stopsRing, holds, hholder, hx, hbyte]
  rfl

end

/-- Settles O38: RING's checks in their order and the record and session that an acceptance opens; STOP RING by the
end of the session. -/
theorem ringRequestsAct : Obligations.RingRequestsAct := by
  refine ⟨fun r b c n s ht => ⟨fun hb => ?_, fun p hb => ⟨fun hun => ?_, fun hfit => ?_⟩⟩,
    fun r b s ht => ⟨fun hb => ?_, fun p hb => ⟨fun hun => ?_, fun hfit => ⟨fun hh => ?_, fun hh => ⟨fun hx => ?_,
      fun x hx => ?_⟩⟩⟩⟩⟩
  · exact exec_of_answer ht rfl (withPort_of_no_port hb)
  · exact exec_of_answer ht rfl (withPort_of_unfitted hb (by simpa using hun))
  · let u := frameIn (.ring r b c n) s
    have hserve : answer (.ring r b c n) u = decideRing r c.toNat n.toNat p u :=
      withPort_of_fitted hb (by simpa [u] using hfit)
    have hrefused {o : Code} (h : decideRing r c.toNat n.toNat p u = refuse o u) :
        exec (.ring r b c n) s = .next (answered (.ring r b c n) o [] u) := exec_of_answer ht rfl (hserve.trans h)
    refine ⟨fun hh => hrefused ?_, fun hh => ⟨fun hc => hrefused ?_, fun hc => ⟨fun hs => hrefused ?_,
      fun hs hm => hrefused ?_, fun hs hm => ⟨fun hu => hrefused ?_, fun hu hp => hrefused ?_, fun hu hp =>
        ⟨fun hth => hrefused ?_, fun hth => ⟨fun hv => hrefused ?_, fun hv hd => ?_⟩⟩⟩⟩⟩⟩
    · simp [decideRing, holds, u, hh]
    · simp [decideRing, holds, u, hh, hc]
    · simp [decideRing, holds, u, hh, Nat.not_lt.mpr hc, hs]
    · simp [decideRing, holds, u, hh, Nat.not_lt.mpr hc, hs, hm]
    · simp [decideRing, holds, u, hh, Nat.not_lt.mpr hc, hs, hm, hu]
    · simp [decideRing, holds, u, hh, Nat.not_lt.mpr hc, hs, hm, hu, hp]
    · simp [decideRing, holds, u, hh, Nat.not_lt.mpr hc, hs, hm, hu, hp, hth]
    · simp [decideRing, holds, u, hh, Nat.not_lt.mpr hc, hs, hm, hu, hp, hth, hv]
    · have hpassed := decideRing_of_passed (cycles := n.toNat)
        (ringPassed_frameIn (i := .ring r b c n) ⟨hh, hc, hs, hm, hu, hp, hth, hv, hd⟩)
      refine ⟨fun hbusy => hrefused ?_, fun hnone hempty => ?_⟩
      · refine hpassed.trans ?_
        rcases hbusy with hbusy | hbusy
        · rw [if_pos (by simpa using hbusy)]
        · rw [acceptRing_of_occupied (by simpa using hbusy), ite_self]
      · rw [if_neg (by simp [hnone])] at hpassed
        obtain ⟨t, id, haccept, ⟨x, hx, hplan, hlead⟩, hslot, hwaiting, hother, ⟨hcadences, hexchange⟩, hkept⟩ :=
          acceptRing_of_empty (p := p) (c := r.channel) (cadence := c.toNat) (cycles := n.toNat)
            (steps := u.ring.cadences.get c.toNat) (s := u) (by simpa [u] using hempty)
        simp only [byte_toNat] at haccept
        have hexec := exec_of_answer ht rfl (hserve.trans (hpassed.trans haccept))
        refine ⟨_, id, x, hexec, ?_, by simpa using hx,
          (congrArg RingSession.steps hplan).trans (by simp [u, newRing, RingSession.plan]),
          congrArg RingSession.cadence hplan, congrArg RingSession.stepIndex hplan, congrArg RingSession.cyclesLeft hplan,
          congrArg RingSession.cyclesDone hplan, congrArg RingSession.issuer hplan, congrArg RingSession.id hplan,
          ?_, fun hn => ?_, fun hn => ?_, by simpa [u] using hcadences, by simpa [u] using hexchange,
          eq_with_of_rung (by simp [hkept, u])⟩
        · obtain ⟨-, -, -, -, -, hgateway, hmodem, -⟩ := hkept
          exact respondedWith_of_ports hgateway hmodem
        · rw [slotRec_answered, hslot]
          simp [u, ringDuration, cycleLength_eq]
        · obtain ⟨hports, hgenerator⟩ := hwaiting (by simpa [u] using hn)
          have hnew := hlead (by simpa [u] using hn)
          exact ⟨by rw [hnew]; rfl, by rw [hnew]; rfl, by rw [hnew]; rfl, by simpa [u] using hports,
            by simpa [u] using hgenerator⟩
        · have hkeeps : ¬(u.sched.lead = 0 ∧ givesWay p u) := fun ⟨hl, hp1, hpower, hburst⟩ => by
            have hnow : u.now = s.now := frameIn_now _ s
            have hmains : s.power.state ≠ .mains := by simpa [u] using hpower
            have hbattery : s.power.state = .battery := by
              cases hpow : s.power.state with
              | mains => exact absurd hpow hmains
              | battery => rfl
              | reserve => exact absurd hpow hp
            rw [hnow] at hburst
            exact hn ⟨by simpa [u] using hl, hp1, hbattery, burstingSince_frameIn.mp hburst⟩
          obtain ⟨hsession, hfaults⟩ := hother hkeeps
          exact ⟨by simpa [u] using hsession, by simpa [u] using hfaults⟩
  · exact exec_of_answer ht rfl (answer_stopRing.trans (withPort_of_no_port hb))
  · exact exec_of_answer ht rfl (answer_stopRing.trans (withPort_of_unfitted hb (by simpa using hun)))
  · refine exec_of_answer ht rfl ((answer_stopRing.trans (withPort_of_fitted hb (by simpa using hfit))).trans ?_)
    simp [stopsRing, holds, hh, refuse]
  · refine exec_of_answer ht rfl ((answer_stopRing.trans (withPort_of_fitted hb (by simpa using hfit))).trans ?_)
    have hbyte : byte (portNum p) = b := byte_of_toNat hb
    simp [stopsRing, holds, hh, hx, hbyte, report]
  · let u := frameIn (.stopRing r b) s
    have hu : session u p = some x := by simpa [u] using hx
    have hapart : otherPort p = p → inBurst u p = false := fun h => absurd h (otherPort_ne p)
    refine ⟨_, stopRing_exec ht hb hfit hh hx, respondedWith_of_ports (by simp) (by simp), ?_, ?_, fun hburst => ?_, ?_,
      hands_answered endSession_silent_of_answered, ?_, ?_, eq_with_of_rung (by simp)⟩
    · rw [session_answered, endSession_session, if_pos rfl]
    · rw [slotRec_answered]
      exact endSession_empties_slot u .stopped 0 (by simp [hu])
    · have hu' : inBurst u p = true := by simpa [u, inBurst] using hburst
      simpa using endSession_of_burst (why := .stopped) (cause := 0) hu'
    · have hend := hands_of_handed (endSession_handed hu .stopped 0) rfl rfl
      have hnow : u.now = s.now := frameIn_now _ s
      rw [hnow] at hend
      exact hands_answered hend
    · rw [session_answered, endSession_session, if_neg (otherPort_ne p)]
      exact session_frameIn _
    · have hport := endSession_port_of_quiet (why := .stopped) (n := 0) hapart
      simpa [State.port, u] using hport

end Sys2Proof.Machine
end

