-- ==== Sys2Proof/Proofs/ModeRequests.lean ====
section
namespace Sys2Proof.Machine

/-! ## What a session's end leaves (R129) -/

section
variable {p q : Port} {s : State} {x : RingState} {why : RingReason} {n : Nat} {j : SlotId}

theorem endBurst_sched : { (endBurst p x s).sched with windows := s.sched.windows } = s.sched := by
  let v := closeWindow (.ringBurst p) s.now ((updSession p (fun y => { y with state := x, tripDue := none }) s).updRing
    (fun r => { r with generator := r.generator.set p false }))
  have hv : endBurst p x s = judgeRingFault (unmask p v) := by simp [endBurst, v, State.now]
  have hunmask := congrArg (fun u : State => u.sched) (unmask_others (p := p) (r := s) (s := v))
  have hclosed := congrArg (fun g : Ground => g.others.sched) (closeWindow_ground (.ringBurst p) s.now (r := s)
    (s := (updSession p (fun y => { y with state := x, tripDue := none }) s).updRing
      (fun r => { r with generator := r.generator.set p false })))
  rw [hv]
  simp only [judgeRingFault_frame]
  exact hunmask.trans hclosed

theorem endSession_slots : (endSession p why n s).sched.lead = s.sched.lead ∧
    ∀ j, j ≠ portSlot p → slotRec (endSession p why n s) j = slotRec s j := by
  have hburst : (if inBurst s p = true then endBurst p (.silent false) s else s).sched.lead = s.sched.lead ∧
      (if inBurst s p = true then endBurst p (.silent false) s else s).sched.slots = s.sched.slots := by
    split
    · have hsched := endBurst_sched (p := p) (x := .silent false) (s := s)
      exact ⟨(congrArg Scheduler.lead hsched :), (congrArg Scheduler.slots hsched :)⟩
    · exact ⟨rfl, rfl⟩
  have hend (u : State) : (endSlot (portSlot p) u).sched.lead = u.sched.lead ∧
      ∀ j, j ≠ portSlot p → slotRec (endSlot (portSlot p) u) j = slotRec u j := by
    unfold endSlot
    split
    · exact ⟨by simp [setSlot], fun j hj => by simp [slotRec, setSlot, hj]⟩
    · exact ⟨rfl, fun _ _ => rfl⟩
  obtain ⟨hlead, hslots⟩ := hburst
  cases hx : session s p with
  | none =>
    have hs : endSession p why n s = s := by simp [endSession, hx]
    rw [hs]
    exact ⟨rfl, fun _ _ => rfl⟩
  | some y =>
    rw [endSession_eq hx]
    obtain ⟨hlead', hslots'⟩ := hend (updSession p (fun z => { z with phaseDue := none })
      (if inBurst s p = true then endBurst p (.silent false) s else s))
    refine ⟨?_, fun j hj => ?_⟩
    · simpa [sessionQuiet, hlead] using hlead'
    · simpa [sessionQuiet, slotRec, hslots] using hslots' j hj

theorem endSession_exchange : (endSession p why n s).ring.exchange = s.ring.exchange := by
  have hburst : (if inBurst s p = true then endBurst p (.silent false) s else s).ring.exchange = s.ring.exchange := by
    split
    · obtain ⟨due, hring⟩ := endBurst_ring (p := p) (n := .silent false) (s := s)
      rw [hring]
    · rfl
  cases hx : session s p with
  | none => simp [endSession, hx]
  | some y =>
    rw [endSession_eq hx]
    simpa [sessionQuiet, setSession, updSession] using hburst

/-- RING_END of the session that stands, and of none otherwise (R129). -/
theorem endSession_ringEnd : Handed .ringEnd ((session s p).toList.map (fun x => ringEndOf s.now p x why.code n))
    s.channels (endSession p why n s).channels := by
  cases hx : session s p with
  | none =>
    have hs : endSession p why n s = s := by simp [endSession, hx]
    rw [hs]
    exact .refl
  | some x => exact endSession_handed hx why n

end

/-! ## A change set that does not name a port's feed leaves its denial (R102) -/

section
variable {p q : Port} {s : State} {c : Change} {a : Asker} {id : Byte}

theorem updPort_denial {f : PhonePort → PhonePort} (hf : (f (s.port p)).denial = (s.port p).denial) :
    ((s.updPort p f).port q).denial = (s.port q).denial := by
  by_cases hq : q = p
  · rw [hq, State.updPort_port_same, hf]
  · rw [State.updPort_port_other _ _ _ _ hq]

theorem portAfterChange_denial (h : c.feed.get q ≠ some .off) :
    ((portAfterChange c a p s).port q).denial = (s.port q).denial := by
  let u := judgeSuspended c a p (endDenialByFeed c p s)
  have hloop : ground s (portAfterChange c a p s) = ground s u := by
    rw [portAfterChange, senseLoop_ground, judgeOverload_ground]
  have hended : ((endDenialByFeed c p s).port q).denial = (s.port q).denial := by
    unfold endDenialByFeed
    split
    · next hoff =>
      have hq : q ≠ p := fun hq => h (hq ▸ hoff)
      rw [endDenial, State.updPort_port_other _ _ _ _ hq]
    · rfl
  have hsuspended : (u.port q).denial = ((endDenialByFeed c p s).port q).denial := by
    unfold u judgeSuspended
    (repeat' split)
    · exact updPort_denial rfl
    · exact updPort_denial rfl
    · rfl
  exact ((congrArg PortRecord.denial (congrFun (congrArg Ground.records hloop) q) :).trans hsuspended).trans hended

theorem applied_denial (h : (widen c).feed.get q ≠ some .off) :
    ((applied c a id s).port q).denial = (s.port q).denial := by
  rw [applied, followed, judgeWatch_port, portAfterChange_denial h, portAfterChange_denial h, handWindow_port]
  rfl

theorem breakChange_feed_other {x : PlainMode} (h : q ≠ p) : (widen (breakChange p x)).feed.get q ≠ some .off := by
  have hwide : widen (breakChange p x) = breakChange p x := by cases x <;> rfl
  have hno : noChange.feed.get q = none := by cases q <;> rfl
  rw [hwide]
  cases x <;> simp [breakChange, h, hno]

end

/-! ## The acceptance of a switch (R94, R96) -/

section
variable {p : Port} {x : PlainMode} {c : Channel} {forced : Bool} {id : Byte} {s t : State}

/-- The relay set under a switch's break change set (R96). -/
def brokenRelays (p : Port) (x : PlainMode) (r : Relays) : Relays :=
  match x with
  | .local_ => { r with pass := r.pass.set p .open_ }
  | .lifeline => { r with feed := r.feed.set p .off }

/-- What an accepted switch makes of the state (R49, R94, R96, R129). -/
structure SwitchStarted (p : Port) (x : PlainMode) (c : Channel) (forced : Bool) (id : Byte) (s t : State) : Prop where
  session : session t p = none
  mode : (t.port p).mode = x.moving
  switch : ∃ m, (t.port p).switch = some ⟨m, x, c, forced, id, if s.sched.lead = 0 then .break_ else .lead⟩
  ended : Handed .ringEnd ((Machine.session s p).toList.map (fun y => ringEndOf s.now p y 5 0)) s.channels t.channels
  slot : slotRec t (portSlot p) = some ⟨id, .modeSwitch, some p,
    if s.sched.lead = 0 then .active s.now else .notified (s.now + ms s.sched.lead), some 40, !forced⟩
  waiting : s.sched.lead ≠ 0 → t.relays = s.relays ∧ t.port (otherPort p) = s.port (otherPort p)
  broken : s.sched.lead = 0 → windowOpened (relayWindow s.now (some id)) 4 s t ∧ t.relays = brokenRelays p x s.relays
  apart : (portRecord (t.port (otherPort p))).own = (portRecord (s.port (otherPort p))).own ∧
    (t.port (otherPort p)).denial = (s.port (otherPort p)).denial
  ring : Machine.session t (otherPort p) = Machine.session s (otherPort p) ∧ t.ring.exchange = s.ring.exchange
  slots : ∀ j, j ≠ portSlot p → slotRec t j = slotRec s j
  kept : t.pending = s.pending ∧ t.phase = s.phase ∧ t.clock = s.clock ∧ t.pins = s.pins ∧
    t.twoPorts = s.twoPorts ∧ t.gateway = s.gateway ∧ t.modem = s.modem ∧ t.lines = s.lines ∧ t.dsl = s.dsl ∧
    t.power = s.power ∧ t.store = s.store ∧ t.occasion = s.occasion

/-- The switch recorded in its port, in stage LEAD (R94). -/
def switchOpened (p : Port) (x : PlainMode) (c : Channel) (forced : Bool) (id : Byte) (s : State) : State :=
  s.updPort p (fun q => { q with switch := some ⟨restingMode q, x, c, forced, id, .lead⟩, mode := x.moving })

/-- An accepted switch before its record is looked at: the session ended, the slot opened (R94). -/
structure SwitchReady (p : Port) (x : PlainMode) (c : Channel) (forced : Bool) (id : Byte) (s v : State) : Prop where
  session : session v p = none
  mode : (v.port p).mode = x.moving
  switch : ∃ m, (v.port p).switch = some ⟨m, x, c, forced, id, .lead⟩
  ended : Handed .ringEnd ((Machine.session s p).toList.map (fun y => ringEndOf s.now p y 5 0)) s.channels v.channels
  slot : slotRec v (portSlot p) = some ⟨id, .modeSwitch, some p,
    if s.sched.lead = 0 then .active s.now else .notified (s.now + ms s.sched.lead), some 40, !forced⟩
  relays : v.relays = s.relays
  other : v.port (otherPort p) = s.port (otherPort p)
  ring : Machine.session v (otherPort p) = Machine.session s (otherPort p) ∧ v.ring.exchange = s.ring.exchange
  slots : ∀ j, j ≠ portSlot p → slotRec v j = slotRec s j
  windows : v.sched.windows.length ≤ s.sched.windows.length + 1
  kept : v.pending = s.pending ∧ v.phase = s.phase ∧ v.clock = s.clock ∧ v.pins = s.pins ∧
    v.twoPorts = s.twoPorts ∧ v.gateway = s.gateway ∧ v.modem = s.modem ∧ v.lines = s.lines ∧ v.dsl = s.dsl ∧
    v.power = s.power ∧ v.store = s.store ∧ v.occasion = s.occasion

theorem acceptSwitch_ready (h : (session s p).isSome = true ∨ slotRec s (portSlot p) = none) : ∃ v id,
    acceptSwitch p x c forced s = (startIfActive (portSlot p) v, ⟨.accepted, [id, byte x.code]⟩) ∧
      SwitchReady p x c forced id s v := by
  let e := endSession p .mode 0 s
  have hempty : slotRec e (portSlot p) = none := by
    by_cases hs : (session s p).isSome = true
    · exact endSession_empties_slot s .mode 0 hs
    · have hnone : session s p = none := by simpa using hs
      have he : e = s := by simp [e, endSession, hnone]
      rw [he]
      exact h.resolve_left hs
  obtain ⟨hlead, hslots⟩ := endSession_slots (p := p) (why := .mode) (n := 0) (s := s)
  obtain ⟨u, hopen, hu⟩ := openSlot_of_empty (work := .modeSwitch) (p := some p) (duration := some 40)
    (deferrable := !forced) hempty
  let d := recordOf .modeSwitch (some p) (some 40) (!forced) e
  let v := switchOpened p x c forced d.id u
  have hv : v = { e with channels := u.channels, sched := u.sched, ports := v.ports } := by
    have hvu : v = { u with ports := v.ports } := rfl
    rw [hvu, hu.rest]
  have hring : v.ring = e.ring := by rw [hv]
  have haccept : acceptSwitch p x c forced s = (startIfActive (portSlot p) v, ⟨.accepted, [d.id, byte x.code]⟩) := by
    unfold acceptSwitch
    dsimp only
    rw [hopen]
    rfl
  refine ⟨v, d.id, haccept, ?_, by simp [v, switchOpened], ⟨_, by simp [v, switchOpened]; rfl⟩, ?_, ?_, ?_, ?_,
    ⟨?_, ?_⟩, fun j hj => ?_, ?_, ?_⟩
  · rw [session_of_ring hring, endSession_session, if_pos rfl]
  · have hopened : Queued Kind.minor e.channels u.channels := openSlot_queued le_rfl .refl hopen
    exact endSession_ringEnd.trans_nil (hopened.handed rfl)
  · have hnow : e.now = s.now := by simp [e, State.now]
    have hslot : slotRec v (portSlot p) = some d := by
      change u.sched.slots.get _ = _
      rw [hu.slots, PerSlot.get_set_same]
    have hlead' : e.sched.lead = s.sched.lead := hlead
    rw [hslot, ← hlead', ← hnow]
    rfl
  · rw [hv]
    simp [e]
  · have hvPort : v.port (otherPort p) = u.port (otherPort p) := State.updPort_port_other _ _ _ _ (otherPort_ne p)
    have huPort : u.port (otherPort p) = e.port (otherPort p) := by
      rw [hu.rest]
      rfl
    rw [hvPort, huPort]
    exact endSession_port_of_quiet fun hq => absurd hq (otherPort_ne p)
  · rw [session_of_ring hring, endSession_session, if_neg (otherPort_ne p)]
  · rw [hring]
    exact endSession_exchange
  · rw [← hslots j hj]
    change u.sched.slots.get _ = _
    rw [hu.slots]
    exact PerSlot.get_set_other _ _ _ _ hj
  · change u.sched.windows.length ≤ _
    rw [hu.windows]
    exact (endSession_evolves (p := p) (s := s) .mode 0).2.length_le
  · rw [hv]
    simp [e]

/-- Under a lead the switch waits (R96). -/
theorem SwitchReady.waits {v : State} (h : SwitchReady p x c forced id s v) (hlead : s.sched.lead ≠ 0) :
    SwitchStarted p x c forced id s v := by
  obtain ⟨hsession, hmode, ⟨m, hswitch⟩, hended, hslot, hrelays, hother, hring, hslots, -, hkept⟩ := h
  refine ⟨hsession, hmode, ⟨m, hswitch.trans ?_⟩, hended, hslot, fun _ => ⟨hrelays, hother⟩, fun h => absurd h hlead,
    ⟨by rw [hother], by rw [hother]⟩, hring, hslots, hkept⟩
  rw [if_neg hlead]

theorem breaking_port_mode : ((breaking p s).port p).mode = (s.port p).mode := by
  simp [breaking, setStage, freeze]

theorem breaking_port_other {q : Port} (h : q ≠ p) : (breaking p s).port q = s.port q := by
  simp [breaking, setStage, freeze, h]

/-- Under a lead of 0 the break change set is applied at once (R96). -/
theorem SwitchReady.breaks {v : State} (h : SwitchReady p x c forced id s v) (hlead : s.sched.lead = 0) :
    SwitchStarted p x c forced id s (activateSwitch p v) := by
  obtain ⟨hsession, hmode, ⟨m, hswitch⟩, hended, hslot, hrelays, hother, ⟨hapart, hexchange⟩, hslots, hwindows,
    hkept⟩ := h
  obtain ⟨hswitch', -, hrelays', -⟩ := activateSwitch_activated hswitch rfl
  have happlied : activateSwitch p v = applied (breakChange p x) (.modeSwitch p) id (breaking p v) :=
    activateSwitch_of_lead (w := ⟨m, x, c, forced, id, .lead⟩) hswitch rfl
  have hrecord (q : Port) : (portRecord ((activateSwitch p v).port q)).own = (portRecord ((breaking p v).port q)).own := by
    rw [happlied]
    exact applied_record q
  have hbreaking : (breaking p v).port (otherPort p) = s.port (otherPort p) :=
    (breaking_port_other (otherPort_ne p)).trans hother
  have hring : (activateSwitch p v).ring = v.ring := by simp
  have hnow : v.now = s.now := by
    obtain ⟨-, -, hclock, -⟩ := hkept
    exact congrArg Clock.timebase hclock
  refine ⟨(session_of_ring hring p).trans hsession, ?_, ⟨m, hswitch'.trans ?_⟩, ?_, ?_, fun hn => absurd hlead hn,
    fun _ => ⟨?_, ?_⟩, ⟨?_, ?_⟩, ⟨(session_of_ring hring _).trans hapart, ?_⟩, fun j hj => ?_, ?_⟩
  · exact (congrArg PortRecord.mode (hrecord p) :).trans (breaking_port_mode.trans hmode)
  · rw [if_pos hlead]
  · have hqueued : Queued Kind.minor v.channels (activateSwitch p v).channels := activateSwitch_queued le_rfl .refl p
    exact hended.trans_nil (hqueued.handed rfl)
  · rw [slotRec, activateSwitch_slots, ← slotRec, hslot]
  · rw [happlied]
    exact applied_opened (s := breaking p v) hnow (by
      change v.sched.windows.length + 3 ≤ _
      omega)
  · rw [hrelays', hrelays]
    rfl
  · rw [hrecord, hbreaking]
  · rw [happlied, applied_denial (breakChange_feed_other (otherPort_ne p)), hbreaking]
  · rw [hring, hexchange]
  · rw [slotRec, activateSwitch_slots, ← slotRec, hslots j hj]
  · simpa only [activateSwitch_frame] using hkept

theorem acceptSwitch_started (h : (session s p).isSome = true ∨ slotRec s (portSlot p) = none) : ∃ t id,
    acceptSwitch p x c forced s = (t, ⟨.accepted, [id, byte x.code]⟩) ∧ SwitchStarted p x c forced id s t := by
  obtain ⟨v, id, haccept, hready⟩ := acceptSwitch_ready (x := x) (c := c) (forced := forced) h
  refine ⟨_, id, haccept, ?_⟩
  by_cases hlead : s.sched.lead = 0
  · have hstart : startIfActive (portSlot p) v = activateSwitch p v := by
      rw [startIfActive_of_active hready.slot (by simp [hlead, isActive]), ownerStart_of_switch hready.slot rfl rfl]
    rw [hstart]
    exact hready.breaks hlead
  · have hstart : startIfActive (portSlot p) v = v :=
      startIfActive_of_waiting hready.slot (by simp [hlead, isActive])
    rw [hstart]
    exact hready.waits hlead

end

/-! ## The request (R93) -/

section
variable {p : Port} {x : PlainMode} {r : Req} {b m force : Byte} {forced : Bool} {s t : State} {i : Instr}

theorem modeOf_eq (h : m.toNat = x.code) : modeOf m = some x := by
  unfold modeOf
  rw [h]
  cases x <;> rfl

theorem answerSetMode_of_bad (h : b.toNat = 0 ∨ 2 < b.toNat ∨ 1 < m.toNat) :
    answerSetMode r b m force s = refuse .badRequest s := by
  have hnone : portOf b = none ∨ modeOf m = none := by
    unfold portOf modeOf
    rcases h with h | h | h
    · exact .inl (by rw [h]; rfl)
    · left
      split
      case h_3 => rfl
      all_goals omega
    · right
      split
      case h_3 => rfl
      all_goals omega
  unfold answerSetMode
  rcases hnone with h | h <;> rw [h]
  split
  · next hm => cases hm
  · rfl

theorem answerSetMode_of_named (hb : b.toNat = portNum p) (hm : m.toNat = x.code) :
    answerSetMode r b m force s = withPort b (decideMode r x (force != 0)) s := by
  have hport : portOf b = some p := by
    unfold portOf
    rw [hb]
    cases p <;> rfl
  simp only [answerSetMode, hport, modeOf_eq hm]

theorem settledMode_eq {y : Mode} : settledMode y = some x ↔ y = x.mode := by
  cases y <;> cases x <;> decide

/-- The conditions under which SET MODE is accepted (R93). -/
structure ModePassed (r : Req) (x : PlainMode) (forced : Bool) (p : Port) (s : State) : Prop where
  holder : holderOf s (portFunc p) = some r.channel
  moves : (s.port p).mode ≠ x.mode
  still : (s.port p).switch = none
  power : ¬(x = .local_ ∧ s.power.state = .reserve)
  bus : ¬(x = .lifeline ∧ s.relays.bus = .exchange)
  underTest : (s.port p).underTest = false
  voice : ¬(forced = false ∧ (s.port p).sup.state ≠ .onHook)
  level : ¬(forced = true ∧ 1 < effLevel r)

theorem decideMode_of_passed (h : ModePassed r x forced p s) :
    decideMode r x forced p s = acceptSwitch p x r.channel forced s := by
  obtain ⟨hholder, hmoves, hstill, hpower, hbus, htest, hvoice, hlevel⟩ := h
  unfold decideMode
  dsimp only
  rw [if_neg (by simp [holds, hholder]), if_neg (by simpa [settledMode_eq] using hmoves), if_neg (by simp [hstill]),
    if_neg hpower, if_neg (by simpa [htest] using hbus), if_neg hvoice, if_neg hlevel]

theorem eq_with_of_switched (h : t.pending = s.pending ∧ t.phase = s.phase ∧ t.clock = s.clock ∧ t.pins = s.pins ∧
      t.twoPorts = s.twoPorts ∧ t.lines = s.lines ∧ t.dsl = s.dsl ∧ t.power = s.power ∧ t.store = s.store ∧
      t.occasion = s.occasion) :
    t = { s with
      gateway := t.gateway, modem := t.modem, channels := t.channels
      relays := t.relays, settles := t.settles, sched := t.sched
      tracker := t.tracker, ports := t.ports, ring := t.ring, engine := t.engine
      faults := t.faults } := by
  cases s
  cases t
  simpa using h

theorem portSlot_ne : portSlot (otherPort p) ≠ portSlot p ∧ SlotId.dsl ≠ portSlot p ∧ SlotId.test ≠ portSlot p := by
  cases p <;> decide

end

/-- Settles O32: SET MODE's checks in their order; an acceptance by the session's end, the slot that it opens and the
break change set where there is no lead. -/
theorem setModeIsDecidedInOrder : Obligations.SetModeIsDecidedInOrder := by
  refine fun r b m force s ht => ⟨fun hb => exec_of_answer ht rfl (answerSetMode_of_bad hb), fun p x hb hm => ?_⟩
  let u := frameIn (.setMode r b m force) s
  have hnamed : answer (.setMode r b m force) u = withPort b (decideMode r x (force != 0)) u := answerSetMode_of_named hb hm
  have hbyte : byte x.code = m := byte_of_toNat hm
  refine ⟨fun hun => exec_of_answer ht rfl (hnamed.trans (withPort_of_unfitted hb (by simpa [u] using hun))), fun hfit => ?_⟩
  have hserve : answer (.setMode r b m force) u = decideMode r x (force != 0) p u :=
    hnamed.trans (withPort_of_fitted hb (by simpa [u] using hfit))
  have hrefused {o : Code} (h : decideMode r x (force != 0) p u = refuse o u) :
      exec (.setMode r b m force) s = .next (answered (.setMode r b m force) o [] u) :=
    exec_of_answer ht rfl (hserve.trans h)
  refine ⟨fun hh => hrefused ?_, fun hh => ⟨fun hsame => ?_, fun hdiff => ?_⟩⟩
  · simp [decideMode, holds, u, hh]
  · refine exec_of_answer ht rfl (hserve.trans ?_)
    have hsettled : settledMode (s.port p).mode = some x := settledMode_eq.mpr (by cases x <;> exact hsame)
    simp [decideMode, holds, u, hh, hsettled, report, hbyte]
  have hmoves : (s.port p).mode ≠ x.mode := by cases x <;> exact hdiff
  have hsettled : settledMode (s.port p).mode ≠ some x := fun h => hmoves (settledMode_eq.mp h)
  refine ⟨fun hbusy => hrefused ?_, fun hstill => ⟨fun hlow => hrefused ?_, fun hlow => ⟨fun htest => hrefused ?_,
    fun hbus htest => ⟨fun hvoice => hrefused ?_, fun hvoice =>
      ⟨fun hlevel => hrefused ?_, fun hlevel hfree => ?_⟩⟩⟩⟩⟩
  · simp [decideMode, holds, u, hh, hsettled, hbusy]
  · obtain ⟨rfl, hreserve⟩ := hlow
    simp [decideMode, holds, u, hh, hsettled, hstill, hreserve]
  · simp [decideMode, holds, u, hh, hsettled, hstill, hlow, htest]
  · simp [decideMode, holds, u, hh, hsettled, hstill, hlow, hbus, htest, hvoice]
  · obtain ⟨hforce, habove⟩ := hlevel
    have hforced : ¬force = 0#8 := hforce
    simp [decideMode, holds, u, hh, hsettled, hstill, hlow, hbus, htest, hforced, habove]
  · have hpassed : decideMode r x (force != 0) p u = acceptSwitch p x r.channel (force != 0) u :=
      decideMode_of_passed ⟨by simpa [u] using hh, by simpa [u] using hmoves, by simpa [u] using hstill,
        by simpa [u] using hlow, by simpa [u] using hbus, by simpa [u] using htest, by simpa [u] using hvoice,
        by simpa [u] using hlevel⟩
    obtain ⟨t, id, haccept, hstarted⟩ := acceptSwitch_started (p := p) (x := x) (c := r.channel) (forced := force != 0)
      (s := u) (by simpa [u] using hfree)
    obtain ⟨hsession, hmode', ⟨o, hswitch⟩, hended, hslot, hwaiting, hbroken, ⟨hown, hdenial⟩, ⟨hring, hexchange⟩,
      hslots, hkept⟩ := hstarted
    obtain ⟨hother, hdsl, htestSlot⟩ := portSlot_ne (p := p)
    have hnow : u.now = s.now := frameIn_now _ s
    have hlead : u.sched.lead = s.sched.lead := by simp [u]
    rw [hlead, hnow] at hslot
    rw [hnow] at hended
    rw [hbyte] at haccept
    refine ⟨_, id, _, exec_of_answer ht rfl (hserve.trans (hpassed.trans haccept)), ?_, by simpa using hsession,
      ?_, by simpa using hswitch, ?_, rfl, rfl, rfl, rfl, ?_, ?_, fun hn => ?_, fun hn => ?_, fun hn => ?_, ?_, ?_, ?_,
      ?_, ?_, ?_, ?_, eq_with_of_switched ?_⟩
    · obtain ⟨-, -, -, -, -, hgateway, hmodem, -⟩ := hkept
      exact respondedWith_of_ports hgateway hmodem
    · rw [port_answered, hmode']
      cases x <;> rfl
    · have hrung := hands_of_handed (s := u) hended rfl rfl
      simpa [u] using hands_answered hrung
    · rw [hlead]
    · rw [slotRec_answered, hslot]
      simp [bne]
    · simpa [u] using (hwaiting (hlead.trans_ne hn)).1
    · obtain ⟨hopened, hrelays⟩ := hbroken (hlead.trans hn)
      rw [hnow] at hopened
      refine ⟨windowOpened_answered.mpr (windowOpened_frameIn.mp hopened), ?_⟩
      cases x <;> simpa [u, brokenRelays] using hrelays
    · obtain ⟨-, hport⟩ := hwaiting (hlead.trans_ne hn)
      simpa [u, State.port] using hport
    · rw [port_answered]
      rw [port_frameIn] at hown hdenial
      exact ⟨(congrArg PortRecord.mode hown :), (congrArg PortRecord.switch hown :), (congrArg PortRecord.underTest hown :),
        hdenial, (congrArg PortRecord.timing hown :), (congrArg PortRecord.frozen hown :),
        (congrArg PortRecord.masked hown :)⟩
    · simpa [u] using hring
    · simpa [u] using hexchange
    · rw [slotRec_answered, hslots _ hother, slotRec_frameIn]
    · rw [slotRec_answered, hslots _ hdsl, slotRec_frameIn]
    · rw [slotRec_answered, hslots _ htestSlot, slotRec_frameIn]
    · simp [hkept, u]
    · simp [hkept, u]

end Sys2Proof.Machine
end
